-- ==== Sys2Proof/Word.lean ====
section
/-!
DEFINITION. The plainest data of the model: a byte of the Page Link or of the flash array, and a line of pixels.
Numbers that the manual counts with (slots, routes, blocks, steps, times in µs, page ids) are plain `Nat`.
-/
namespace Sys2Proof

/-- A byte of the Page Link, of the flash array or of the protection row. -/
abbrev Byte := BitVec 8

/-- One row of bilevel pixels, pixel 0 first; `true` is black (00_scope.md section 5, R1). -/
abbrev Line := List Bool

/-- Pixels of one line (R1). -/
def lineWidth : Nat := 1728

/-- Bytes of one raw line (R1). -/
def rawBytes : Nat := 216

/-- The all-white line. -/
def whiteLine : Line := List.replicate lineWidth false

end Sys2Proof
end

