-- ==== Sys2Proof/Config.lean ====
section
/-!
DEFINITION. What the part fixes once (the shared figures of 00_scope.md section 6), and the free values: constants
without a body, about which nothing can be proved, for what the manual leaves open (notes/assumptions/1.md).
-/
namespace Sys2Proof.Config

/-- Slots of the line pool (R1). -/
def slotCount : Nat := 32
/-- Routes (R6). -/
def routeCount : Nat := 4
/-- Entries a sink queue holds (R14). -/
def queueCap : Nat := 40
/-- Bytes of the report queue (R181). -/
def reportBytes : Nat := 512
/-- Free bytes an event, a directive and a listing entry ask for (R179, R181, R187). -/
def reportRoom : Nat := 256
/-- Erase blocks of the flash array (R100). -/
def blockCount : Nat := 64
/-- Bytes of one erase block (R100). -/
def blockBytes : Nat := 16384
/-- Bytes of a block header (R100). -/
def headerBytes : Nat := 64
/-- Bytes of a block's line area (R100). -/
def areaBytes : Nat := 16320
/-- Entries of the page directory (R104). -/
def dirCap : Nat := 48
/-- Blocks a page may hold (R104). -/
def pageBlocks : Nat := 63
/-- Applied pulse time at which an erase has reached its limit, in µs (R122). -/
def eraseLimit : Nat := 2000000
/-- Pulse time of one erase unit, in µs (R122). -/
def eraseUnit : Nat := 10000
/-- Pulse time a pulse runs before a suspension, in µs (R123). -/
def eraseMinPulse : Nat := 1000
/-- Time of an erase verify, in µs (R122). -/
def verifyTime : Nat := 4096
/-- Time of a lock-segment or key-segment erase, in µs (R138, R139). -/
def segmentTime : Nat := 200000
/-- Time of a capture, in µs (R30). -/
def captureTime : Nat := 1728
/-- Time of a head load, in µs (R72). -/
def loadTime : Nat := 864
/-- Time of the cutter pulse, in µs (R79). -/
def cutPulse : Nat := 150000
/-- Time from cut start to judgement, in µs (R79). -/
def cutJudge : Nat := 500000
/-- Standstill hold, in µs (R54). -/
def standstill : Nat := 200000
/-- Service window, in µs (R141). -/
def serviceWindow : Nat := 2000000
/-- Service pulse on HRSTN, in µs (R143, R149). -/
def servicePulse : Nat := 10000
/-- Host supply time that boot and WAKING wait for, in µs (R161, R164). -/
def hostUpTime : Nat := 20000
/-- Attention pulse, in µs (R184). -/
def atnTime : Nat := 2
/-- Longest downstream payload (R176). -/
def maxPayload : Nat := 600
/-- Largest image length that chunk numbers reach (R166, R172). -/
def maxImage : Nat := 8388480

/-- FREE VALUE. How many of the bytes a cut program job still had to program were programmed when it was cut:
the manual says only that the entry stays uncommitted (R129), that a header stands in part (R165), that a code is held
as it reads back (R135). Applied to the flash device's use counter. -/
opaque freeProgress : Nat → Nat

/-- FREE VALUE. The bits a failed or cut flash operation left: what a byte reads after its 32nd failing pulse (R100),
what the cells of a segment read after an erase cut short (R140). Applied to the flash device's use counter. -/
opaque freeByte : Nat → Byte

end Sys2Proof.Config
end

