-- ==== Sys2Proof/Syntax.lean ====
section
/-!
DEFINITION. The commands of the part: one constructor of `Instr` for each row of spec/opcode_table.json, in the
table's order. A directive carries its whole payload, reference byte first (11_record_and_format_reference.md 11.3).
An event carries what the part samples or the flash device answers at that moment (notes/assumptions/2.md): the levels
of DOCE, PAPX and THERM, which have no row of their own, and the outcome of a program, verify or segment erase.
-/
namespace Sys2Proof

/-- The two motor channels (R47). -/
inductive ChannelId where
  | scan
  | print
  deriving DecidableEq, Repr

/-- The three supplies that are switched by use (R147). -/
inductive DomainId where
  | lamp
  | head
  | motor
  deriving DecidableEq, Repr

/-- The four sources of the wake table (R150); DOC is the input DOCP. -/
inductive WakeSource where
  | ring
  | key
  | hook
  | doc
  deriving DecidableEq, Repr

/-- The wake inputs with a pin of their own (R150). -/
inductive SignalPin where
  | ring
  | key
  | hook
  deriving DecidableEq, Repr

/-- How a program job of the flash ends (R100): every byte reads as wanted, or the byte after `done` bytes does not
read as wanted after its 32nd pulse. -/
inductive ProgResult where
  | ok
  | failAt (done : Nat)
  deriving DecidableEq, Repr

/-- The levels of the machine's inputs (00_scope.md section 7): DOCP document present, DOCE edge present, PAPP paper,
PAPX paper at the exit, COVER closed, the levels of RING, KEY and HOOK, and the thermistor's reading. -/
structure Pins where
  docp : Bool
  doce : Bool
  papp : Bool
  papx : Bool
  cover : Bool
  ring : Bool
  key : Bool
  hook : Bool
  therm : Byte
  deriving DecidableEq, Repr

/-- The commands, one for each row of spec/opcode_table.json. -/
inductive Instr where
  | powerOnReset (pins : Pins)
  | openRoute (p : List Byte)
  | close (p : List Byte)
  | abort (p : List Byte)
  | redirect (p : List Byte)
  | rearm (p : List Byte)
  | loadShading (p : List Byte)
  | loadTone (p : List Byte)
  | loadDither (p : List Byte)
  | loadScanRamp (p : List Byte)
  | loadPrintRamp (p : List Byte)
  | loadHeat (p : List Byte)
  | loadPark (p : List Byte)
  | loadWake (p : List Byte)
  | attentionMode (p : List Byte)
  | statusRequest (p : List Byte) (doce papx : Bool)
  | restart (p : List Byte)
  | delete (p : List Byte)
  | directoryRequest (p : List Byte)
  | lockPage (p : List Byte)
  | setMasterLock (p : List Byte)
  | clearLocks (p : List Byte)
  | totalErase (p : List Byte)
  | confirm (p : List Byte)
  | clearStoreStatus (p : List Byte)
  | installBoot (p : List Byte)
  | serviceRequest (p : List Byte)
  | serviceCode (p : List Byte)
  | serviceEnd (p : List Byte)
  | setCode (p : List Byte)
  | sleep (p : List Byte)
  | bootFetch (p : List Byte)
  | unknownDirective (tag : Byte) (p : List Byte)
  | directiveDiscardedUntaken
  | heldDirectiveTaken (doce papx : Bool)
  | line (length : Nat) (bytes : List Byte)
  | pageEnd (p : List Byte)
  | skippedTag (tag : Byte) (p : List Byte)
  | framingError (tag : Byte) (length : Nat)
  | lselRelease (cut : List Bool := [])
  | reportRecordSent
  | outboundLineSent
  | outboundPageEndSent
  | linkEncodeEnd
  | directoryEntry
  | atnPulseEnd
  | docpChange (present : Bool)
  | pickStart (doce : Bool)
  | channelStart (ch : ChannelId) (therm : Byte)
  | motorStep (ch : ChannelId) (doce : Bool) (therm : Byte)
  | holdExpiry (ch : ChannelId)
  | captureEnd (samples : List Byte)
  | interlockTrip
  | coverClose
  | headLoadEnd
  | strobeEnd
  | cutterPulseEnd
  | cutJudgement (papx : Bool)
  | paperOut
  | paperIn
  | storeReadRequest
  | lineReadEnd
  | entryProgramEnd (r : ProgResult)
  | claimProgramEnd (r : ProgResult)
  | closeProgramEnd (r : ProgResult)
  | retireProgramEnd (r : ProgResult)
  | relocationCopyEnd (r : ProgResult)
  | rowProgramEnd (failed : List Nat)
  | eraseStart
  | erasePulseEnd
  | eraseVerifyEnd (pass : Bool)
  | eraseMinPulseEnd
  | countProgramEnd (r : ProgResult)
  | lockSegmentEraseEnd (stillSet : List Nat)
  | totalEraseLockSegmentEnd (stillSet : List Nat)
  | keySegmentEraseEnd (key : List Byte)
  | scanStart
  | scanEnd
  | imageReadEnd
  | installMarkProgramEnd (r : ProgResult)
  | installRetireStart
  | serviceWindowExpiry
  | servicePulseEnd
  | domainSettled (d : DomainId) (therm : Byte)
  | domainHoldExpiry (d : DomainId)
  | wakeInputChange (pin : SignalPin) (high : Bool)
  | debounceExpiry (source : WakeSource)
  | sleepEntry
  | secondTick
  | wakeTimerExpiry
  | mainClockRunning (papp papx doce cover : Bool)
  | wakingEnd
  | bootHoldRelease
  | lselAssert (doce papx : Bool := false) (bytes : List Byte := [])
  | upstreamRecordStart
  | badStateProgramEnd (r : ProgResult)
  deriving DecidableEq, Repr

end Sys2Proof
end

