-- ==== Sys2Proof/Machine/State.lean ====
section
/-!
DEFINITION. The state of the part: every record, table, queue, counter, mode and pin that the manual names, block by
block, then the flash device and the queue of waiting commands. A field that the manual calls absent outside a condition
is an `Option`. Times are µs left to run. `State.reset` is the part right after power-on reset with a flash that has
never been written.
-/
namespace Sys2Proof.Machine

open Sys2Proof

/-! ## Codes (11.2) -/

/-- Where a route's lines come from (R7). -/
inductive Source where
  | scan
  | link
  | store
  deriving DecidableEq, Repr

/-- Where a route's lines go (R7). -/
inductive Sink where
  | print
  | link
  | store
  deriving DecidableEq, Repr

/-- The form of a coded line, and a route's link encoding (R89, R94). -/
inductive Form where
  | raw
  | run
  deriving DecidableEq, Repr

/-- The bilevel mode of a SCAN route (R33). -/
inductive BilevelMode where
  | threshold
  | dither
  deriving DecidableEq, Repr

/-- The origin of a stored page (R104). -/
inductive Origin where
  | scanned
  | received
  | boot
  deriving DecidableEq, Repr

/-- The fourteen refusal reasons, in the order of the reason table of R180. -/
inductive Reason where
  | unknown
  | malformed
  | busy
  | endpointInUse
  | invalidRoute
  | quota
  | protected_
  | noSuchPage
  | directoryFull
  | storeFaultPending
  | sequence
  | notReported
  | limit
  | noCode
  deriving DecidableEq, Repr

/-- The outcome of a directive (R180). -/
inductive Answer where
  | accepted
  | adjusted
  | refused (r : Reason)
  deriving DecidableEq, Repr

/-! ## Upstream records (R181, 11.4) -/

/-- Causes of ROUTE CLOSED. -/
inductive CloseCause where
  | closed
  | aborted
  | protected_
  deriving DecidableEq, Repr

/-- Causes of STORE FULL (R116). -/
inductive FullCause where
  | blocks
  | directory
  | pageLength
  deriving DecidableEq, Repr

/-- The operations of STORE OP DONE. -/
inductive StoreOp where
  | scan
  | delete
  | lockPage
  | setMasterLock
  | clearLocks
  | totalErase
  | setCode
  | installBoot
  deriving DecidableEq, Repr

/-- The results of STORE OP DONE. -/
inductive OpResult where
  | done
  | fault
  | mismatch
  deriving DecidableEq, Repr

/-- The causes of SLEEP CANCELLED (R156). -/
inductive CancelCause where
  | directive
  | signal
  | hostReset
  deriving DecidableEq, Repr

/-- The wake causes (R159). -/
inductive WakeCause where
  | ring
  | key
  | hook
  | doc
  | timer
  deriving DecidableEq, Repr

/-- The EVENT records (11.4). A route argument that is absent is sent as FFh, an absent page id as 0000h. -/
inductive Event where
  | pageStart (route : Nat)
  | pageDone (route lines repaired : Nat) (truncated isPartial : Bool) (pageId : Option Nat)
  | routeClosed (route : Nat) (cause : CloseCause)
  | documentIn
  | feederEmpty (route : Nat)
  | paperOut (route : Option Nat)
  | paperIn (route : Option Nat)
  | jam (kind : ChannelId) (route : Nat)
  | interlockOpen
  | interlockClosed
  | rateLimited (route : Nat) (ch : ChannelId)
  | heatLimited (route : Nat)
  | storeFull (route : Nat) (cause : FullCause)
  | storeWait (route : Nat)
  | blockFailed (block : Nat) (erase : Bool)
  | storeOpDone (op : StoreOp) (pageId : Option Nat) (result : OpResult)
  | creditOverrun (route : Nat)
  | signal (pin : SignalPin)
  | sleepCancelled (cause : CancelCause)
  | wakeCause (cause : WakeCause) (seconds : Nat)
  | bootComplete (byDirective : Bool)
  | hostReset
  deriving DecidableEq, Repr

/-- The reason carried by BOOT END (11.4). -/
inductive AbsentReason where
  | none_
  | length
  | checksum
  | unreadable
  deriving DecidableEq, Repr

/-- The outcome of the last image check (R163). -/
inductive ImageResult where
  | unchecked
  | valid
  | absent (why : AbsentReason)
  deriving DecidableEq, Repr

/-- A whole record of the report queue (R181). STATUS and DIRECTORY ENTRY hold the payload taken when they were queued;
`padded` is a record in part that RESTART ended, a report's or the LINK-out lane's (tags 81h and 82h): what was left of its payload of
`length` bytes goes out as 00h (R99, R188). -/
inductive Report where
  | reply (ref : Byte) (a : Answer)
  | event (e : Event)
  | status (payload : List Byte)
  | credit (route value : Nat)
  | dirEntry (payload : List Byte)
  | dirEnd (count : Nat)
  | bootChunk (number : Nat) (bytes : List Byte)
  | bootEnd (valid : Bool) (why : Option AbsentReason) (length sum : Nat)
  | padded (tag : Byte) (length : Nat)
  deriving DecidableEq, Repr

/-! ## Line pool and routes (chapter 1) -/

/-- One slot of the line pool with its condition (R1). -/
inductive Slot where
  | free
  | reserved (route : Nat)
  | filling (route : Nat) (line : Option Line)
  | held (route refs : Nat) (line : Line)
  deriving DecidableEq, Repr

/-- A line entry of a sink queue (R14). -/
structure LineEntry where
  slot : Nat
  num : Nat
  repaired : Bool
  deriving DecidableEq, Repr

/-- A page mark (R14). `tag` is the model's: it names the one page end that the copies on two queues stand for. -/
structure Mark where
  tag : Nat
  lines : Nat
  repaired : Nat
  truncated : Bool
  isPartial : Bool
  pageId : Option Nat
  deriving DecidableEq, Repr

/-- An entry of a sink queue or of the entry hold (R14). -/
inductive Entry where
  | line (e : LineEntry)
  | mark (m : Mark)
  deriving DecidableEq, Repr

/-- The scan parameters of a route (R46). -/
structure ScanParams where
  mode : BilevelMode
  threshold : Nat
  q : Nat
  topOffset : Nat
  tailLines : Nat
  pickLimit : Nat
  maxSteps : Nat
  multi : Bool
  deriving DecidableEq, Repr

/-- The print parameters of a route (R6). -/
structure PrintParams where
  density : Nat
  copies : Nat
  tailFeed : Nat
  deriving DecidableEq, Repr

/-- The store sink parameters of a route (R6). -/
structure StoreParams where
  origin : Origin
  label : List Byte
  deriving DecidableEq, Repr

/-- The stall conditions (R12). -/
inductive Stall where
  | paperOut
  | storeWait
  deriving DecidableEq, Repr

/-- The halts (R12). -/
inductive Halt where
  | interlock
  | jam
  deriving DecidableEq, Repr

/-- The fields of a route context that stand while the route is not CLOSED (R6). The route state and its reason follow
from `halt`, `begun`, `stalls` and `closeReq` (R12). `full`, `partialNext` and `marks` are the model's: the store sink has met
STORE FULL (with the truncated page's id until a mark carries it), the page under way began as a partial page, and the
number of marks placed. -/
structure Ctx where
  source : Source
  sinks : List Sink
  quota : Nat
  period : Nat
  steps : Nat
  encoding : Option Form
  scanP : Option ScanParams
  printP : Option PrintParams
  storeP : Option StoreParams
  pages : List Nat
  readIdx : Nat
  readLine : Nat
  stalls : List Stall
  halt : Option Halt
  closeReq : Bool
  begun : Bool
  linesDone : Nat
  repairedLines : Nat
  creditGranted : Option Nat
  storePage : Option Nat
  reservations : List Nat
  hold : List Entry
  printQ : List Entry
  linkQ : List Entry
  storeQ : List Entry
  full : Option (Option Nat)
  partialNext : Bool
  marks : Nat
  deriving DecidableEq, Repr

/-- A route context (R6): `ctx` is absent in CLOSED; pages done, overrun reported and halt-reported (R65) always stand. -/
structure Route where
  ctx : Option Ctx
  pagesDone : Nat
  overrun : Bool
  haltReported : Bool
  deriving DecidableEq, Repr

/-- A print run-out: the aborted route and the line entries kept for it (R22, R61). -/
structure RunOut where
  route : Nat
  entries : List LineEntry
  deriving DecidableEq, Repr

/-- The line pool: the slots and the free list, oldest-returned at the head (R2). -/
structure Pool where
  slots : List Slot
  freeList : List Nat
  deriving DecidableEq, Repr

/-! ## Scan path (chapter 2) -/

/-- The scan states (R25). -/
inductive ScanState where
  | idle
  | waiting
  | picking
  | approach
  | capturing
  | tail
  | runout
  | jammed
  | ended
  deriving DecidableEq, Repr

/-- A capture in progress (R25): kept into a slot, with the output line number whose dither row it uses (R33), or
dropped by scaling. -/
inductive Capturing where
  | keep (slot row : Nat)
  | drop
  deriving DecidableEq, Repr

/-- The capture state record (R25). `asked` (the Scan Front End has asked for a start and not for a stop since, R56),
`pageEndDue` (the page end that waits for the capture in progress, R35), `captureLeft` and `rearmed` (in JAMMED, REARM has been accepted and the
channel has not halted yet, R40) are told by those rules. -/
structure Capture where
  state : ScanState
  route : Option Nat
  pickSteps : Nat
  pageSteps : Nat
  approach : Option Nat
  acc : Nat
  tailRem : Option Nat
  capture : Option Capturing
  lampUse : Bool
  asked : Bool
  pageEndDue : Bool
  captureLeft : Nat
  rearmed : Bool
  deriving DecidableEq, Repr

/-- The capture state record's Default values (R25). -/
def Capture.default : Capture :=
  { state := .idle, route := none, pickSteps := 0, pageSteps := 0, approach := none, acc := 0, tailRem := none,
    capture := none, lampUse := false, asked := false, pageEndDue := false, captureLeft := 0,
    rearmed := false }

/-- A shading entry (R44): dark level and gain. -/
structure Shade where
  dark : Nat
  gain : Nat
  deriving DecidableEq, Repr

/-- The three scan tables (R44). -/
structure ScanTables where
  shading : List Shade
  tone : List Nat
  dither : List Nat
  deriving DecidableEq, Repr

/-- The defaults of the scan tables (R44). -/
def ScanTables.default : ScanTables :=
  { shading := List.replicate 1728 ⟨0, 256⟩, tone := List.range 256, dither := List.replicate 64 128 }

/-! ## Motor timing (chapter 3) -/

/-- The motion of a channel (R47). -/
inductive Motion where
  | halted
  | accelerating
  | running
  | decelerating
  | tripped
  deriving DecidableEq, Repr

/-- How the phase outputs are driven (R48). -/
inductive Drive where
  | off
  | hold
  | full
  deriving DecidableEq, Repr

/-- Why a channel decelerates (R47, R53). -/
inductive StopCause where
  | denied
  | stop
  | paperOut
  | abort
  | jam
  | tail
  deriving DecidableEq, Repr

/-- What the ramp index does at the end of the step under way (R52, R53, R59). -/
inductive StepMode where
  | up
  | level
  | down
  deriving DecidableEq, Repr

/-- The line period, steps per line, run interval and run index of the route served (R50). -/
structure RunParams where
  period : Nat
  steps : Nat
  u : Nat
  r : Nat
  deriving DecidableEq, Repr

/-- A channel record (R47). `cause` also stands between the moment a stop cause arises during an interval and the step
that ends it (R53). `run` is present with `route`. `mode` and `left` are the step under way: what the ramp index does at its end, and its
time left. -/
structure Channel where
  motion : Motion
  drive : Drive
  route : Option Nat
  ramp : List Nat
  k : Nat
  run : Option RunParams
  phase : Nat
  linePos : Nat
  holdLeft : Nat
  cause : Option StopCause
  tail : Option Nat
  rateReported : Bool
  mode : StepMode
  left : Nat
  deriving DecidableEq, Repr

/-- A channel record's Default values (R47). -/
def Channel.default : Channel :=
  { motion := .halted, drive := .off, route := none, ramp := [4000], k := 0, run := none, phase := 0, linePos := 0,
    holdLeft := 0, cause := none, tail := none, rateReported := false, mode := .level, left := 0 }

/-! ## Print path (chapter 4) -/

/-- The content of the head's shift register (R70). -/
inductive Shift where
  | empty
  | loading (e : LineEntry)
  | loaded (e : LineEntry)
  deriving DecidableEq, Repr

/-- The progress of the cut of a page mark (R79). -/
inductive CutState where
  | none
  | pulse
  | judging
  | waiting
  deriving DecidableEq, Repr

/-- The route copy of the Print Head Controller (R70). -/
structure HeadCopy where
  period : Nat
  density : Nat
  copies : Nat
  deriving DecidableEq, Repr

/-- The Print Head Controller record (R70). `cutTime` is the time since cut start, `groups` the strobe groups of the burn
still to be looked at (R77), `loadLeft` the time left of a load. -/
structure Head where
  route : Option Nat
  copy : Option HeadCopy
  headUse : Bool
  shift : Shift
  loadLeft : Nat
  latch : Option LineEntry
  burns : Nat
  strobe : Option (Nat × Nat)
  groups : List Nat
  strobeTime : Option Nat
  band : Nat
  heatReported : Bool
  cut : CutState
  cutTime : Option Nat
  paper : Bool
  deriving DecidableEq, Repr

/-- The Print Head Controller record's Default values (R70), with paper as PAPP shows it. -/
def Head.default (paper : Bool) : Head :=
  { route := none, copy := none, headUse := false, shift := .empty, loadLeft := 0, latch := none, burns := 0,
    strobe := none, groups := [], strobeTime := none, band := 0, heatReported := false, cut := .none, cutTime := none,
    paper := paper }

/-- The heat table (R78): thresholds 1 to 7 and the band times of bands 0 to 7. -/
structure HeatTable where
  thresholds : List Nat
  times : List Nat
  deriving DecidableEq, Repr

/-- The heat table after power-on reset (R78). -/
def HeatTable.default : HeatTable :=
  { thresholds := [32, 64, 96, 128, 160, 192, 224], times := List.replicate 8 600 }

/-! ## Line coding (chapter 5) -/

/-- The decoder record of a lane (chapter 5.3). The position p of the manual is the length of `out`, the pixels written
so far. -/
structure Decoder where
  out : Line
  black : Bool
  lead : Option Nat
  skip : Bool
  repaired : Bool
  deriving DecidableEq, Repr

/-- How the link-in lane takes the data of a record (R92, R94): by its form, or as a line whose bytes are ignored. -/
inductive FormIn where
  | raw
  | run
  | ignored
  deriving DecidableEq, Repr

/-- The link-in lane (R93): idle; passing over the bytes of a record, with the route, if any, whose CREDIT OVERRUN its end brings (R18,
R177); or decoding, where `first` says that the record has taken its route out of OPEN (R11). -/
inductive LinkIn where
  | idle
  | passing (owed : Option Nat)
  | decoding (route slot : Nat) (first : Bool) (form : Option FormIn) (dec : Decoder)
  deriving DecidableEq, Repr

/-- A coded line (R89). -/
structure Coded where
  form : Form
  data : List Byte
  deriving DecidableEq, Repr

/-- The link-out lane (R95): idle; encoding a line; a LINE record ready; a PAGE END record ready; a record cut by ABORT, what was left of its payload of `length` bytes going out as 00h; a PAGE END record begun by a route that was aborted. The
lane's send position is `Link.sent` while its record is the one in part. -/
inductive LinkOut where
  | idle
  | encoding (route : Nat) (e : LineEntry) (c : Coded)
  | line (route : Nat) (e : LineEntry) (c : Coded)
  | pageEnd (route tag : Nat)
  | padding (tag : Byte) (length : Nat)
  | orphanEnd (route : Nat)
  deriving DecidableEq, Repr

/-- The store-write lane's coded line not yet handed over (R96). -/
structure LaneLine where
  entry : LineEntry
  coded : Coded
  deriving DecidableEq, Repr

/-! ## Page store (chapter 6) -/

/-- The block states (R103). -/
inductive BlockState where
  | erased
  | claimed
  | full
  | retired
  | damaged
  | bad
  | erasing
  deriving DecidableEq, Repr

/-- A block table entry (R103). `page` and `seq` carry meaning in CLAIMED and FULL. -/
structure Block where
  state : BlockState
  count : Nat
  page : Option Nat
  seq : Nat
  committed : Nat
  used : Nat
  lock : Bool
  deriving DecidableEq, Repr

/-- A block table entry before the scan has built the table. -/
def Block.blank : Block :=
  { state := .damaged, count := 0, page := none, seq := 0, committed := 0, used := 0, lock := false }

/-- A page directory entry (R104). The installed indication and the image result stand in the boot record. -/
structure Page where
  id : Nat
  writing : Bool
  origin : Origin
  truncated : Bool
  interrupted : Bool
  isPartial : Bool
  lines : Nat
  steps : Nat
  creation : Nat
  blocks : List Nat
  label : List Byte
  partialStart : Option Nat
  deriving DecidableEq, Repr

/-- Why a block is being retired: who waits for the end of its header program (R119, R165, R173, R114). -/
inductive RetireFor where
  | delete (page : Nat)
  | install
  | quiet
  deriving DecidableEq, Repr

/-- What a protection row program programs (R131). -/
inductive RowJob where
  | lockPage (page : Nat) (cells : List Nat)
  | setMaster
  | setCode (code : List Byte)
  deriving DecidableEq, Repr

/-- A job of the flash arbiter in the read or program class (R109). A claim carries the page whose fields its header program
takes (R111). -/
inductive Job where
  | lineRead
  | relocRead
  | imageRead
  | entry
  | relocEntry
  | claim (block : Nat) (reloc : Bool) (page : Page)
  | closeFull (block : Nat)
  | closePage (block : Nat) (truncated : Bool)
  | retire (block : Nat) (why : RetireFor)
  | installMark
  | row (j : RowJob)
  deriving DecidableEq, Repr

/-- The phases of an erase (R121, R124): waiting for its grant; the phases of the progress record; the header program of
state bad. -/
inductive ErasePhase where
  | queued
  | pulse
  | verify
  | count
  | suspended (fromVerify : Bool)
  | bad
  deriving DecidableEq, Repr

/-- The erase progress record (R121). `verifyLeft` is the time left of a verify. -/
structure EraseProg where
  block : Nat
  applied : Nat
  unit : Nat
  phase : ErasePhase
  pulseRun : Nat
  verifyLeft : Nat
  deriving DecidableEq, Repr

/-- The entry in work (R110): a line entry that waits for a block or for its program; a page being closed, with the mark
that is served when the close ends. -/
inductive WorkItem where
  | line (e : LineEntry) (c : Coded)
  | closing (mark : Option Mark)
  deriving DecidableEq, Repr

/-- The Store Controller's entry in work (R110, R117). `route` is absent once its route was aborted; `page` is the page it is
for; `needBlock` says that a claim waits in STORE WAIT (R115). -/
structure Work where
  route : Option Nat
  page : Option Nat
  item : WorkItem
  needBlock : Bool
  deriving DecidableEq, Repr

/-- A relocation (R114): the failed block, the relocation block once claimed, the entries copied, the offset of the
next one, and the entry read and not yet programmed. -/
structure Reloc where
  source : Nat
  target : Option Nat
  copied : Nat
  offset : Nat
  buffer : Option (List Byte)
  deriving DecidableEq, Repr

/-- The read cursor of the route holding STORE-read (R118): place in the page's block list, offset in the line area,
index of the entry in its block, the attempts at it, and the lines of this block that are read without flash access. -/
structure Cursor where
  block : Nat
  offset : Nat
  index : Nat
  attempts : Nat
  blank : Bool
  deriving DecidableEq, Repr

/-- The operations that hold the whole flash (R126, R138, R139). In LOCK ERASE, `running` says that the erase has the flash;
in TOTAL ERASE the blocks, then the lock segment, then the key segment are erased. -/
inductive WholeOp where
  | none
  | scanning
  | lockErase (running : Bool)
  | totalBlocks
  | totalLock
  | totalKey
  deriving DecidableEq, Repr

/-- Which start-up scan is under way or due (R128). -/
inductive ScanKind where
  | power
  | restart
  | wake
  deriving DecidableEq, Repr

/-- A waiting retire operation: who asked, the retire programs still to end, and whether one failed (R119, R173). -/
structure RetireOp where
  why : RetireFor
  left : Nat
  failed : Bool
  deriving DecidableEq, Repr

/-- The setup-pending mark (R137). -/
inductive Setup where
  | none
  | clearLocks
  | totalErase
  deriving DecidableEq, Repr

/-- The Store Controller's state (R103 to R125, R137). `usable` says that the flash supply has been on 1 ms (R148),
`scanned` that a scan has ended since the last power-on reset, RESTART or wake (R164), `abandoned` names the block of an
erase that RESTART abandoned (R128), `reading` the slot that the read in flight fills (R20), `totalFault` that a part of a TOTAL ERASE failed, `segLeft` is the time left of a
segment erase. -/
structure Store where
  op : WholeOp
  scanKind : ScanKind
  usable : Bool
  scanned : Bool
  abandoned : Option Nat
  blocks : List Block
  dir : List Page
  nextId : Nat
  nextCreation : Nat
  erasedList : List Nat
  eraseQueue : List Nat
  programFault : Bool
  eraseFault : Bool
  sequenceFault : Bool
  protectionFault : Bool
  erase : Option EraseProg
  holder : Option Job
  reads : List Job
  programs : List Job
  work : Option Work
  lane : Option LaneLine
  reloc : Option Reloc
  cursor : Cursor
  reading : Option Nat
  retires : List RetireOp
  setup : Setup
  totalFault : Bool
  segLeft : Nat
  deriving DecidableEq, Repr

/-- The Store Controller's state after power-on reset, before its scan (R129). -/
def Store.default : Store :=
  { op := .none, scanKind := .power, usable := false, scanned := false, abandoned := none,
    blocks := List.replicate 64 Block.blank, dir := [], nextId := 1, nextCreation := 1, erasedList := [], eraseQueue := [],
    programFault := false, eraseFault := false, sequenceFault := false, protectionFault := false, erase := none,
    holder := none, reads := [], programs := [], work := none, lane := none, reloc := none,
    cursor := ⟨0, 0, 0, 0, false⟩, reading := none, retires := [], setup := .none, totalFault := false, segLeft := 0 }

/-! ## Protection (chapter 7) -/

/-- The service states (R141). -/
inductive ServiceState where
  | normal
  | window (left : Nat)
  | service
  deriving DecidableEq, Repr

/-- The Protection Unit's copy of the key segment (R130). -/
structure KeyCopy where
  master : Bool
  code : Option (List Byte)
  deriving DecidableEq, Repr

/-- The service record (R141); `copy` is absent while it is unknown (R130, R145). -/
structure Protection where
  service : ServiceState
  failures : Nat
  copy : Option KeyCopy
  deriving DecidableEq, Repr

/-! ## Power (chapter 8) -/

/-- The power states (R146). -/
inductive PowerState where
  | run
  | sleepPending
  | sleep
  | waking
  deriving DecidableEq, Repr

/-- A supply domain switched by use (R147), with the settle or hold time left. -/
inductive Domain where
  | off
  | rising (left : Nat)
  | on
  | holding (left : Nat)
  deriving DecidableEq, Repr

/-- The park modes (R153). -/
inductive ParkMode where
  | low
  | high
  | float
  | pullUp
  | pullDown
  deriving DecidableEq, Repr

/-- A wake table entry (R150); debounce in ms. -/
structure WakeEntry where
  enable : Bool
  rising : Bool
  debounce : Nat
  deriving DecidableEq, Repr

/-- A debounce record (R150): the stable level and, while timing, the level being timed with the time left in 1/33,000 ms,
the common part of a µs and of a tick of the 32.768 kHz clock counted at 33 to the ms. -/
structure Debounce where
  stable : Bool
  timing : Option (Bool × Nat)
  deriving DecidableEq, Repr

/-- The Power Controller's record (R146), the host reset requests (R149) each as present or not. `clockOn` says that the
main clock runs, `clockLeft` its start time left (R160), `hostUp` how long the host supply has been on, up to 20 ms,
`ticks` the low-power ticks of the present second (R158). -/
structure Power where
  state : PowerState
  wakeTimer : Nat
  seconds : Nat
  cause : Option WakeCause
  lamp : Domain
  head : Domain
  motor : Domain
  flashOn : Bool
  hostOn : Bool
  hostUp : Nat
  wakeHold : Bool
  bootHold : Bool
  pulseHold : Option Nat
  sleepHold : Bool
  park : List ParkMode
  holds : List Nat
  wake : List WakeEntry
  sources : List Debounce
  clockOn : Bool
  clockLeft : Nat
  ticks : Nat
  deriving DecidableEq, Repr

/-- The park modes after power-on reset (R153). -/
def parkDefault : List ParkMode :=
  [.pullDown, .pullDown, .pullDown, .pullDown, .pullDown, .pullDown, .pullDown, .float]

/-- The wake table after power-on reset: RING, KEY, HOOK, DOC (R150). -/
def wakeDefault : List WakeEntry :=
  [⟨true, false, 20⟩, ⟨true, false, 20⟩, ⟨true, false, 20⟩, ⟨true, true, 50⟩]

/-- The Power Controller's record after power-on reset (R146, R162): every stable level is its pin's level. -/
def Power.default (p : Pins) : Power :=
  { state := .run, wakeTimer := 0, seconds := 0, cause := none, lamp := .off, head := .off, motor := .off, flashOn := true,
    hostOn := true, hostUp := 0, wakeHold := false, bootHold := true, pulseHold := none, sleepHold := false,
    park := parkDefault, holds := [50, 100, 30], wake := wakeDefault,
    sources := [⟨p.ring, none⟩, ⟨p.key, none⟩, ⟨p.hook, none⟩, ⟨p.docp, none⟩], clockOn := true, clockLeft := 0,
    ticks := 0 }

/-! ## Host boot (chapter 9) -/

/-- The boot states (R163). -/
inductive BootState where
  | holding
  | serving
  | complete
  | absent
  deriving DecidableEq, Repr

/-- An image check in progress (R166): the page, the image length and checksum it is held against, the next line, bytes
counted, running sum, attempts at the present entry. -/
structure Check where
  page : Nat
  length : Nat
  checksum : Nat
  line : Nat
  counted : Nat
  sum : Nat
  attempts : Nat
  deriving DecidableEq, Repr

/-- A chunk in flight (R167): its number, the next line to read, the bytes gathered, attempts at the present line. -/
structure Chunk where
  number : Nat
  line : Nat
  bytes : List Byte
  attempts : Nat
  deriving DecidableEq, Repr

/-- The phases of an install (R173). -/
inductive InstallPhase where
  | check
  | mark
  | retire (former : Nat) (started : Bool)
  deriving DecidableEq, Repr

/-- An INSTALL BOOT in progress (R173). -/
structure Install where
  page : Nat
  length : Nat
  checksum : Nat
  phase : InstallPhase
  deriving DecidableEq, Repr

/-- The report queued when serving ends (R171). -/
inductive PendingReport where
  | wakeCause (cause : WakeCause) (seconds : Nat)
  | hostReset
  deriving DecidableEq, Repr

/-- The boot record (R163). -/
structure Boot where
  state : BootState
  installed : Option Nat
  length : Option Nat
  checksum : Option Nat
  result : ImageResult
  check : Option Check
  chunk : Option Chunk
  install : Option Install
  report : Option PendingReport
  deriving DecidableEq, Repr

/-- The boot record's Default values (R163). -/
def Boot.default : Boot :=
  { state := .holding, installed := none, length := none, checksum := none, result := .unchecked, check := none,
    chunk := none, install := none, report := none }

/-! ## The Page Link (chapter 10) -/

/-- The downstream parser (R176). PAYLOAD is two constructors: `payload` of a LINE record, whose bytes go on as they are taken, and
`gather` of any other record, with the bytes gathered so far. -/
inductive Parser where
  | between
  | lengthLow (tag : Byte)
  | lengthHigh (tag low : Byte)
  | payload (tag : Byte) (length taken : Nat)
  | gather (tag : Byte) (length : Nat) (got : List Byte)
  | skip (length taken : Nat)
  | discard
  deriving DecidableEq, Repr

/-- The upstream record in part (R183): none, the head of the report queue, or the LINK-out lane's record. -/
inductive Upstream where
  | idle
  | report
  | out
  deriving DecidableEq, Repr

/-- A directory listing under way (R187). -/
structure Listing where
  cursor : Nat
  count : Nat
  deriving DecidableEq, Repr

/-- The Page Link Interface's state (R176 to R189). `atnLeft` is the time left of an attention pulse, `sent` the bytes of the
upstream record in part that have been exchanged, kept through a select release (R95, R177). `cut` stands with no record in part: what the
arbiter had chosen for a byte that a release of LSEL cut, which is sent again at the next select (R175). -/
structure Link where
  parser : Parser
  held : Option Instr
  reports : List Report
  eventsLost : Bool
  pulseMode : Bool
  atnLeft : Nat
  selected : Bool
  listing : Option Listing
  up : Upstream
  sent : Nat
  cut : Option Upstream
  deriving DecidableEq, Repr

/-- The Page Link Interface's state after power-on reset (R189). -/
def Link.default : Link :=
  { parser := .between, held := none, reports := [], eventsLost := false, pulseMode := false, atnLeft := 0,
    selected := false, listing := none, up := .idle, sent := 0, cut := none }

/-! ## The whole -/

/-- The part itself: its ten blocks (00_scope.md 2.1) and the levels of its inputs. -/
structure Chip where
  pins : Pins
  pool : Pool
  routes : List Route
  runOut : Option RunOut
  scan : Capture
  tables : ScanTables
  scanCh : Channel
  printCh : Channel
  head : Head
  heat : HeatTable
  linkIn : LinkIn
  linkOut : LinkOut
  store : Store
  prot : Protection
  power : Power
  boot : Boot
  link : Link
  deriving DecidableEq, Repr

/-- The flash device with its protection row (R100, R130): bytes that are not FFh, the lock segment (cell b is bit b mod 8 of
byte b / 8, 0 = set), the master cell, the service code. The model's own fields: `torn`, the blocks whose erase was begun
and not finished, whose bytes are not known (R126, R140), and `uses`, a counter that picks the free values. -/
structure Flash where
  mem : List Host.Cell
  lockCells : List Byte
  master : Byte
  code : List Byte
  torn : List Nat
  uses : Nat
  deriving DecidableEq, Repr

/-- A flash array and protection row that have never been written (R100, R126, R130). -/
def Flash.blank : Flash :=
  { mem := [], lockCells := List.replicate 8 0xFF, master := 0xFF, code := List.replicate 8 0xFF, torn := [], uses := 0 }

/-- The machine: the part, its flash array, and the commands that are waiting, first in, first out. -/
structure State where
  chip : Chip
  flash : Flash
  pending : List Instr
  deriving DecidableEq, Repr

/-- Faults of a step. The manual gives every command an effect, or none, in every state, so no command of the model
raises one: the type has no constructor. -/
inductive Fault where
  deriving DecidableEq, Repr

/-- Refusals of a step. -/
inductive Refusal where
  /-- Raised by `exec` for a command that has no meaning yet, by its mnemonic in spec/opcode_table.json; no arm raises it
  now. Safe: the machine stops where the part goes on. -/
  | notModelled (mnemonic : String)
  deriving DecidableEq, Repr

/-- A CLOSED route context after power-on reset (R6). -/
def Route.closed : Route := { ctx := none, pagesDone := 0, overrun := false, haltReported := false }

/-- The pool after power-on reset: 32 FREE slots, 0 to 31 on the free list (R24). -/
def Pool.default : Pool := { slots := List.replicate 32 .free, freeList := List.range 32 }

/-- The part right after power-on reset with these input levels, before the interlock is looked at (R24, R25, R44, R69, R87,
R99, R129, R145, R162, R174, R189). -/
def Chip.powerOn (p : Pins) : Chip :=
  { pins := p, pool := Pool.default, routes := List.replicate 4 Route.closed, runOut := none, scan := Capture.default,
    tables := ScanTables.default, scanCh := Channel.default, printCh := Channel.default, head := Head.default p.papp,
    heat := HeatTable.default, linkIn := .idle, linkOut := .idle, store := Store.default,
    prot := { service := .normal, failures := 0, copy := none }, power := Power.default p, boot := Boot.default,
    link := Link.default }

/-- The input levels of `State.reset` (DESIGN CHOICE, notes/assumptions/4.md): no document, no edge, paper on the roll,
exit clear, cover closed, idle pins high, thermistor 0. -/
def Pins.idle : Pins :=
  { docp := false, doce := false, papp := true, papx := false, cover := true, ring := true, key := true, hook := true,
    therm := 0 }

/-- The machine right after power-on reset: the start-up scan is 1 ms away, nothing is stored and no command waits. -/
def State.reset : State := { chip := Chip.powerOn Pins.idle, flash := Flash.blank, pending := [] }

end Sys2Proof.Machine
end

