-- ==== Sys2Proof/Machine/Operands.lean ====
section
/-!
DEFINITION. How a payload is read and written (11_record_and_format_reference.md): little-endian numbers, the field codes of
11.2, the OPEN payload, and the payload of every upstream record.
-/
namespace Sys2Proof.Machine

open Sys2Proof

/-! ## Numbers -/

/-- The low byte of a number. -/
def byteOf (n : Nat) : Byte := BitVec.ofNat 8 n

/-- A number as `w` bytes, low byte first (00_scope.md section 5). -/
def leBytes : Nat → Nat → List Byte
  | 0, _ => []
  | w + 1, n => byteOf n :: leBytes w (n / 256)

/-- The number that bytes spell, low byte first. -/
def ofLe : List Byte → Nat
  | [] => 0
  | b :: bs => b.toNat + 256 * ofLe bs

/-- The byte of a payload at an offset; 0 beyond its end. -/
def byteAt (p : List Byte) (i : Nat) : Byte := p.getD i 0

/-- The number of `w` bytes at an offset of a payload, low byte first. -/
def numAt (p : List Byte) (i w : Nat) : Nat := ofLe ((p.drop i).take w)

/-- The least of a range that a value is clamped into. -/
def clamp (lo hi v : Nat) : Nat := if v < lo then lo else if hi < v then hi else v

/-- ceil(a / b). -/
def ceilDiv (a b : Nat) : Nat := (a + b - 1) / b

/-! ## Codes (11.2) -/

def sourceOf (n : Nat) : Option Source :=
  match n with
  | 1 => some .scan
  | 2 => some .link
  | 3 => some .store
  | _ => none

def sinkOf (n : Nat) : Option Sink :=
  match n with
  | 1 => some .print
  | 2 => some .link
  | 3 => some .store
  | _ => none

def formOf (n : Nat) : Option Form :=
  match n with
  | 0 => some .raw
  | 1 => some .run
  | _ => none

def modeOf (n : Nat) : Option BilevelMode :=
  match n with
  | 0 => some .threshold
  | 1 => some .dither
  | _ => none

def yesNoOf (n : Nat) : Option Bool :=
  match n with
  | 0 => some false
  | 1 => some true
  | _ => none

def originOf (n : Nat) : Option Origin :=
  match n with
  | 1 => some .scanned
  | 2 => some .received
  | 3 => some .boot
  | _ => none

def parkOf (n : Nat) : Option ParkMode :=
  match n with
  | 0 => some .low
  | 1 => some .high
  | 2 => some .float
  | 3 => some .pullUp
  | 4 => some .pullDown
  | _ => none

def formCode : Form → Byte
  | .raw => 0
  | .run => 1

def originCode : Origin → Byte
  | .scanned => 1
  | .received => 2
  | .boot => 3

def yesNo (b : Bool) : Byte := if b then 1 else 0

/-- The reason codes 01h to 0Eh, in the order of the reason table of R180. -/
def reasonCode : Reason → Byte
  | .unknown => 0x01
  | .malformed => 0x02
  | .busy => 0x03
  | .endpointInUse => 0x04
  | .invalidRoute => 0x05
  | .quota => 0x06
  | .protected_ => 0x07
  | .noSuchPage => 0x08
  | .directoryFull => 0x09
  | .storeFaultPending => 0x0A
  | .sequence => 0x0B
  | .notReported => 0x0C
  | .limit => 0x0D
  | .noCode => 0x0E

def closeCode : CloseCause → Byte
  | .closed => 0
  | .aborted => 1
  | .protected_ => 2

def fullCode : FullCause → Byte
  | .blocks => 1
  | .directory => 2
  | .pageLength => 3

def opCode : StoreOp → Byte
  | .scan => 1
  | .delete => 2
  | .lockPage => 3
  | .setMasterLock => 4
  | .clearLocks => 5
  | .totalErase => 6
  | .setCode => 7
  | .installBoot => 8

def resultCode : OpResult → Byte
  | .done => 0
  | .fault => 1
  | .mismatch => 2

def cancelCode : CancelCause → Byte
  | .directive => 1
  | .signal => 2
  | .hostReset => 3

def wakeCode : WakeCause → Byte
  | .ring => 1
  | .key => 2
  | .hook => 3
  | .doc => 4
  | .timer => 5

def signalCode : SignalPin → Byte
  | .ring => 1
  | .key => 2
  | .hook => 3

def channelCode : ChannelId → Byte
  | .scan => 0
  | .print => 1

def absentCode : AbsentReason → Byte
  | .none_ => 1
  | .length => 2
  | .checksum => 3
  | .unreadable => 4

/-- The image-result byte of a DIRECTORY ENTRY (11.2). -/
def imageCode : ImageResult → Byte
  | .unchecked => 1
  | .valid => 2
  | .absent .none_ => 3
  | .absent .length => 4
  | .absent .checksum => 5
  | .absent .unreadable => 6

def powerCode : PowerState → Byte
  | .run => 0
  | .sleepPending => 1
  | .sleep => 2
  | .waking => 3

def serviceCode : ServiceState → Byte
  | .normal => 0
  | .window _ => 1
  | .service => 2

/-- The page flags byte: bit 0 TRUNCATED, bit 1 INTERRUPTED, bit 2 PARTIAL (11.2). -/
def pageFlags (truncated interrupted isPartial : Bool) : Byte :=
  byteOf ((if truncated then 1 else 0) + (if interrupted then 2 else 0) + (if isPartial then 4 else 0))

/-- A route argument: FFh with no route (R190). -/
def routeByte (r : Option Nat) : Byte := match r with | none => 0xFF | some n => byteOf n

/-- A page id argument: 0000h with no page (R190). -/
def pageWord (p : Option Nat) : List Byte := leBytes 2 (p.getD 0)

/-! ## Upstream payloads (11.4) -/

/-- An EVENT payload: the kind byte, then its arguments. -/
def Event.payload : Event → List Byte
  | .pageStart r => [0x01, byteOf r]
  | .pageDone r n k t pa id => [0x02, byteOf r] ++ leBytes 2 n ++ leBytes 2 k ++ [pageFlags t false pa] ++ pageWord id
  | .routeClosed r c => [0x03, byteOf r, closeCode c]
  | .documentIn => [0x04]
  | .feederEmpty r => [0x05, byteOf r]
  | .paperOut r => [0x06, routeByte r]
  | .paperIn r => [0x07, routeByte r]
  | .jam k r => [0x08, channelCode k, byteOf r]
  | .interlockOpen => [0x09]
  | .interlockClosed => [0x0A]
  | .rateLimited r ch => [0x0B, byteOf r, channelCode ch]
  | .heatLimited r => [0x0C, byteOf r]
  | .storeFull r c => [0x0D, byteOf r, fullCode c]
  | .storeWait r => [0x0E, byteOf r]
  | .blockFailed b e => [0x0F, byteOf b, if e then 2 else 1]
  | .storeOpDone op id res => [0x10, opCode op] ++ pageWord id ++ [resultCode res]
  | .creditOverrun r => [0x11, byteOf r]
  | .signal p => [0x12, signalCode p]
  | .sleepCancelled c => [0x13, cancelCode c]
  | .wakeCause c sec => [0x14, wakeCode c] ++ leBytes 3 sec
  | .bootComplete d => [0x15, if d then 2 else 1]
  | .hostReset => [0x16, 0x01]

/-- The payload of a report record (11.4). -/
def Report.payload : Report → List Byte
  | .reply ref .accepted => [ref, 0x00]
  | .reply ref .adjusted => [ref, 0x01]
  | .reply ref (.refused r) => [ref, 0x02, reasonCode r]
  | .event e => e.payload
  | .status p => p
  | .credit r v => [byteOf r, byteOf v]
  | .dirEntry p => p
  | .dirEnd n => [byteOf n]
  | .bootChunk n bs => leBytes 2 n ++ bs
  | .bootEnd v why len sum =>
      [if v then 0x00 else 0x01, match why with | none => 0 | some w => absentCode w] ++ leBytes 4 len ++ leBytes 2 sum
  | .padded _ n => List.replicate n 0

/-- The upstream tag of a report record (11.1). -/
def Report.tag : Report → Byte
  | .reply _ _ => 0x90
  | .event _ => 0x91
  | .status _ => 0x92
  | .credit _ _ => 0x93
  | .dirEntry _ => 0x94
  | .dirEnd _ => 0x95
  | .bootChunk _ _ => 0x9C
  | .bootEnd _ _ _ _ => 0x9D
  | .padded t _ => t

/-- The bytes a report record takes in the report queue: 3 bytes of header and its payload (R176, R181). What is left of an outbound LINE
or PAGE END record that RESTART ended is not counted (R183). -/
def Report.size (r : Report) : Nat :=
  match r with
  | .padded t n => if t = 0x81 ∨ t = 0x82 then 0 else 3 + n
  | _ => 3 + r.payload.length

/-- An upstream record as it goes out: tag, length low byte first, payload (R176). -/
def upRecord (tag : Byte) (payload : List Byte) : List Byte := tag :: (leBytes 2 payload.length ++ payload)

/-- A report record as it goes out. -/
def Report.bytes (r : Report) : List Byte := upRecord r.tag r.payload

/-- The payload of an outbound LINE record (11.4). -/
def linePayload (r : Nat) (x : Coded) : List Byte := byteOf r :: formCode x.form :: x.data

/-- Tag and payload of the link-out lane's record (11.1, 11.4): LINE 81h, PAGE END 82h; of a record that was cut, its payload as
00h (R22, R190). -/
def LinkOut.record : LinkOut → Option (Byte × List Byte)
  | .line r _ x => some (0x81, linePayload r x)
  | .pageEnd r _ => some (0x82, [byteOf r])
  | .orphanEnd r => some (0x82, [byteOf r])
  | .padding t n => some (t, List.replicate n 0)
  | .idle => none
  | .encoding _ _ _ => none

/-- The bytes of the link-out lane's record. -/
def LinkOut.bytes (o : LinkOut) : List Byte := match o.record with | some x => upRecord x.1 x.2 | none => []

/-- What is left of a record that ABORT cuts once it has begun (R22): its header, and 00h for its payload (DEDUCED,
notes/assumptions/63.md). -/
def LinkOut.cut (o : LinkOut) : LinkOut := match o.record with | some x => .padding x.1 x.2.length | none => .idle

/-! ## The OPEN payload (11.3) -/

/-- What an OPEN payload spells, before any check of range. -/
structure OpenReq where
  route : Nat
  source : Source
  sinks : List Sink
  quota : Nat
  period : Nat
  steps : Nat
  encoding : Option Form
  scanP : Option ScanParams
  printP : Option PrintParams
  storeP : Option StoreParams
  pages : List Nat
  deriving DecidableEq, Repr

/-- The sink list of first and second sink bytes: a first sink of 00h is undefined (R190). -/
def sinksOf (a b : Nat) : Option (List Sink) :=
  match sinkOf a, b with
  | none, _ => none
  | some x, 0 => some [x]
  | some x, b => (sinkOf b).map fun y => [x, y]

/-- Reads the link group where it stands. -/
def readLink (here : Bool) (p : List Byte) : Option (Option Form × List Byte) :=
  if here then
    match p with
    | e :: rest => (formOf e.toNat).map fun f => (some f, rest)
    | [] => none
  else some (none, p)

/-- Reads the scan group where it stands (13 bytes). -/
def readScan (here : Bool) (p : List Byte) : Option (Option ScanParams × List Byte) :=
  if here then
    if p.length < 13 then none
    else
      match modeOf (byteAt p 0).toNat, yesNoOf (byteAt p 12).toNat with
      | some m, some multi =>
          some (some { mode := m, threshold := (byteAt p 1).toNat, q := numAt p 2 2, topOffset := numAt p 4 2,
                       tailLines := numAt p 6 2, pickLimit := numAt p 8 2, maxSteps := numAt p 10 2, multi := multi },
                p.drop 13)
      | _, _ => none
  else some (none, p)

/-- Reads the print group where it stands (4 bytes). -/
def readPrint (here : Bool) (p : List Byte) : Option (Option PrintParams × List Byte) :=
  if here then
    if p.length < 4 then none
    else some (some ⟨(byteAt p 0).toNat, (byteAt p 1).toNat, numAt p 2 2⟩, p.drop 4)
  else some (none, p)

/-- Reads an origin, a label length and a label (the store sink group, and REDIRECT's fields). -/
def readStoreParams (p : List Byte) : Option (StoreParams × List Byte) :=
  if p.length < 2 then none
  else
    match originOf (byteAt p 0).toNat with
    | none => none
    | some o =>
        let n := (byteAt p 1).toNat
        if 20 < n ∨ p.length < 2 + n then none else some (⟨o, (p.drop 2).take n⟩, p.drop (2 + n))

/-- Reads the store sink group where it stands. -/
def readStore (here : Bool) (p : List Byte) : Option (Option StoreParams × List Byte) :=
  if here then (readStoreParams p).map fun x => (some x.1, x.2) else some (none, p)

/-- Reads `n` page ids of 2 bytes each. -/
def readIds : Nat → List Byte → List Nat
  | 0, _ => []
  | n + 1, p => numAt p 0 2 :: readIds n (p.drop 2)

/-- Reads the store source group where it stands: a count of 1 to 8, then the page ids. -/
def readPages (here : Bool) (p : List Byte) : Option (List Nat × List Byte) :=
  if here then
    match p with
    | [] => none
    | c :: rest =>
        let n := c.toNat
        if n < 1 ∨ 8 < n ∨ rest.length < 2 * n then none else some (readIds n rest, rest.drop (2 * n))
  else some ([], p)

/-- Check 1 of R8: the fields of an OPEN payload, or `none` where its length or an enumerated field does not agree with
11.3, where s is neither 2 nor 4, or where a label or page list is out of bounds. -/
def parseOpen (p : List Byte) : Option OpenReq :=
  if p.length < 9 then none
  else
    match sourceOf (byteAt p 2).toNat, sinksOf (byteAt p 3).toNat (byteAt p 4).toNat with
    | some src, some sinks =>
        let s := (byteAt p 8).toNat
        if s ≠ 2 ∧ s ≠ 4 then none
        else
          match readLink (src == .link || sinks.contains .link) (p.drop 9) with
          | none => none
          | some (enc, p1) =>
            match readScan (src == .scan) p1 with
            | none => none
            | some (sc, p2) =>
              match readPrint (sinks.contains .print) p2 with
              | none => none
              | some (pr, p3) =>
                match readStore (sinks.contains .store) p3 with
                | none => none
                | some (st, p4) =>
                  match readPages (src == .store) p4 with
                  | none => none
                  | some (ids, p5) =>
                    if p5.isEmpty then
                      some { route := (byteAt p 1).toNat, source := src, sinks := sinks, quota := (byteAt p 5).toNat,
                             period := numAt p 6 2, steps := s, encoding := enc, scanP := sc, printP := pr, storeP := st,
                             pages := ids }
                    else none
    | _, _ => none

end Sys2Proof.Machine
end

