-- ==== Sys2Proof/WellFormed.lean ====
section
/-!
DEFINITION. Which commands the host and the machine around the part can present: record payloads of at most 600 bytes, tags
that name what their row says, a whole line of samples, places inside the flash. `exec` is total and gives every term a
meaning; a term that is not well formed is one that nothing outside the part can send.
-/
namespace Sys2Proof

open Sys2Proof.Machine

/-- A record's payload (R176). -/
def payloadOk (p : List Byte) : Bool := decide (p.length ≤ Config.maxPayload)

/-- The tags of the dispatch table of R179. -/
def directiveTags : List Byte :=
  [0x10, 0x11, 0x12, 0x13, 0x14, 0x18, 0x19, 0x1A, 0x1B, 0x20, 0x21, 0x22, 0x23, 0x24, 0x25, 0x26, 0x27, 0x28, 0x30, 0x31,
    0x32, 0x33, 0x38, 0x3C]

/-- A LOAD's payload names the table of its row in its second byte (R179). -/
def loadOk (code : Byte) (p : List Byte) : Bool := payloadOk p && decide (2 ≤ p.length ∧ byteAt p 1 = code)

/-- A LOAD that names no table goes with the shading row: it is answered MALFORMED (R179). -/
def shadingOk (p : List Byte) : Bool :=
  payloadOk p && decide (p.length < 2 ∨ byteAt p 1 = 0x01 ∨ (byteAt p 1).toNat = 0 ∨ 8 < (byteAt p 1).toNat)

/-- Every number is below a bound. -/
def allBelow (n : Nat) (xs : List Nat) : Bool := xs.all fun x => decide (x < n)

/-- A program job fails, if at all, inside a block. -/
def ProgResult.wf : ProgResult → Bool
  | .ok => true
  | .failAt n => decide (n < Config.blockBytes)

/-- A command that the host or the machine can present. -/
def Instr.wf : Instr → Bool
  | .powerOnReset _ => true
  | .openRoute p => payloadOk p
  | .close p => payloadOk p
  | .abort p => payloadOk p
  | .redirect p => payloadOk p
  | .rearm p => payloadOk p
  | .loadShading p => shadingOk p
  | .loadTone p => loadOk 0x02 p
  | .loadDither p => loadOk 0x03 p
  | .loadScanRamp p => loadOk 0x04 p
  | .loadPrintRamp p => loadOk 0x05 p
  | .loadHeat p => loadOk 0x06 p
  | .loadPark p => loadOk 0x07 p
  | .loadWake p => loadOk 0x08 p
  | .attentionMode p => payloadOk p
  | .statusRequest p _ _ => payloadOk p
  | .restart p => payloadOk p
  | .delete p => payloadOk p
  | .directoryRequest p => payloadOk p
  | .lockPage p => payloadOk p
  | .setMasterLock p => payloadOk p
  | .clearLocks p => payloadOk p
  | .totalErase p => payloadOk p
  | .confirm p => payloadOk p
  | .clearStoreStatus p => payloadOk p
  | .installBoot p => payloadOk p
  | .serviceRequest p => payloadOk p
  | .serviceCode p => payloadOk p
  | .serviceEnd p => payloadOk p
  | .setCode p => payloadOk p
  | .sleep p => payloadOk p
  | .bootFetch p => payloadOk p
  | .unknownDirective tag p => decide (0x10 ≤ tag.toNat ∧ tag ∉ directiveTags) && payloadOk p
  | .directiveDiscardedUntaken => true
  | .heldDirectiveTaken _ _ => true
  | .line length bytes => decide (length ≤ Config.maxPayload ∧ bytes.length ≤ length)
  | .pageEnd p => payloadOk p
  | .skippedTag tag p => decide (0x03 ≤ tag.toNat ∧ tag.toNat ≤ 0x0F) && payloadOk p
  | .framingError tag length => decide (tag ≠ 0 ∧ Config.maxPayload < length ∧ length < 65536)
  | .lselRelease cut => decide (cut.length < 8)
  | .reportRecordSent => true
  | .outboundLineSent => true
  | .outboundPageEndSent => true
  | .linkEncodeEnd => true
  | .directoryEntry => true
  | .atnPulseEnd => true
  | .docpChange _ => true
  | .pickStart _ => true
  | .channelStart _ _ => true
  | .motorStep _ _ _ => true
  | .holdExpiry _ => true
  | .captureEnd samples => decide (samples.length = lineWidth)
  | .interlockTrip => true
  | .coverClose => true
  | .headLoadEnd => true
  | .strobeEnd => true
  | .cutterPulseEnd => true
  | .cutJudgement _ => true
  | .paperOut => true
  | .paperIn => true
  | .storeReadRequest => true
  | .lineReadEnd => true
  | .entryProgramEnd r => r.wf
  | .claimProgramEnd r => r.wf
  | .closeProgramEnd r => r.wf
  | .retireProgramEnd r => r.wf
  | .relocationCopyEnd r => r.wf
  | .rowProgramEnd failed => allBelow Config.blockCount failed
  | .eraseStart => true
  | .erasePulseEnd => true
  | .eraseVerifyEnd _ => true
  | .eraseMinPulseEnd => true
  | .countProgramEnd r => r.wf
  | .lockSegmentEraseEnd still => allBelow Config.blockCount still
  | .totalEraseLockSegmentEnd still => allBelow Config.blockCount still
  | .keySegmentEraseEnd key => decide (key.length = 9)
  | .scanStart => true
  | .scanEnd => true
  | .imageReadEnd => true
  | .installMarkProgramEnd r => r.wf
  | .installRetireStart => true
  | .serviceWindowExpiry => true
  | .servicePulseEnd => true
  | .domainSettled _ _ => true
  | .domainHoldExpiry _ => true
  | .wakeInputChange _ _ => true
  | .debounceExpiry _ => true
  | .sleepEntry => true
  | .secondTick => true
  | .wakeTimerExpiry => true
  | .mainClockRunning _ _ _ _ => true
  | .wakingEnd => true
  | .bootHoldRelease => true
  | .lselAssert _ _ _ => true
  | .upstreamRecordStart => true
  | .badStateProgramEnd r => r.wf

end Sys2Proof
end

