-- ==== Sys2Proof/Decode.lean ====
section
/-!
DEFINITION. Records of the Page Link as commands, both ways (10_the_page_link.md 10.2, 10.3). The opcode table gives no row any
bits, so no word spells a command and `decodeTableWord` answers none; what the host does send is a record: a tag, a length and a
payload.
-/
namespace Sys2Proof

open Sys2Proof.Machine

/-- The command that a word spells by the bits of spec/opcode_table.json: none, since no row has bits. -/
def decodeTableWord (_nbits _w : Nat) : Option Instr := none

/-! ## Records read (R176, R178, R179) -/

/-- A LOAD by the table its payload names (R179). -/
def loadOf (p : List Byte) : Instr :=
  match (byteAt p 1).toNat with
  | 2 => .loadTone p
  | 3 => .loadDither p
  | 4 => .loadScanRamp p
  | 5 => .loadPrintRamp p
  | 6 => .loadHeat p
  | 7 => .loadPark p
  | 8 => .loadWake p
  | _ => .loadShading p

/-- The command of a record whose tag is 10h or above (R178, R179); DOCE and PAPX are what a STATUS REQUEST reads. -/
def directiveOf (doce papx : Bool) (tag : Byte) (p : List Byte) : Instr :=
  match tag.toNat with
  | 0x10 => .openRoute p
  | 0x11 => .close p
  | 0x12 => .abort p
  | 0x13 => .redirect p
  | 0x14 => .rearm p
  | 0x18 => loadOf p
  | 0x19 => .attentionMode p
  | 0x1A => .statusRequest p doce papx
  | 0x1B => .restart p
  | 0x20 => .delete p
  | 0x21 => .directoryRequest p
  | 0x22 => .lockPage p
  | 0x23 => .setMasterLock p
  | 0x24 => .clearLocks p
  | 0x25 => .totalErase p
  | 0x26 => .confirm p
  | 0x27 => .clearStoreStatus p
  | 0x28 => .installBoot p
  | 0x30 => .serviceRequest p
  | 0x31 => .serviceCode p
  | 0x32 => .serviceEnd p
  | 0x33 => .setCode p
  | 0x38 => .sleep p
  | 0x3C => .bootFetch p
  | _ => .unknownDirective tag p

/-- The command of a whole record (R176, R178). -/
def recordOf (doce papx : Bool) (tag : Byte) (p : List Byte) : Instr :=
  if tag = 0x01 then .line p.length p
  else if tag = 0x02 then .pageEnd p
  else if tag.toNat ≤ 0x0F then .skippedTag tag p
  else directiveOf doce papx tag p

/-- Reads the next record of a downstream byte stream (R176): fill is skipped, and a length above 600 is a framing error, after
which every byte of the select is dropped. `none` where the bytes end inside a record. -/
def readRecord (doce papx : Bool) : List Byte → Option (Instr × List Byte)
  | [] => none
  | tag :: rest =>
      if tag = 0 then readRecord doce papx rest
      else
        match rest with
        | low :: high :: more =>
            let n := low.toNat + 256 * high.toNat
            if Config.maxPayload < n then some (.framingError tag n, [])
            else if more.length < n then none
            else some (recordOf doce papx tag (more.take n), more.drop n)
        | _ => none

/-! ## Records written -/

/-- The tag and payload of a command that is a record of the host; `none` for the events of the machine. -/
def Instr.record : Instr → Option (Byte × List Byte)
  | .openRoute p => some (0x10, p)
  | .close p => some (0x11, p)
  | .abort p => some (0x12, p)
  | .redirect p => some (0x13, p)
  | .rearm p => some (0x14, p)
  | .loadShading p => some (0x18, p)
  | .loadTone p => some (0x18, p)
  | .loadDither p => some (0x18, p)
  | .loadScanRamp p => some (0x18, p)
  | .loadPrintRamp p => some (0x18, p)
  | .loadHeat p => some (0x18, p)
  | .loadPark p => some (0x18, p)
  | .loadWake p => some (0x18, p)
  | .attentionMode p => some (0x19, p)
  | .statusRequest p _ _ => some (0x1A, p)
  | .restart p => some (0x1B, p)
  | .delete p => some (0x20, p)
  | .directoryRequest p => some (0x21, p)
  | .lockPage p => some (0x22, p)
  | .setMasterLock p => some (0x23, p)
  | .clearLocks p => some (0x24, p)
  | .totalErase p => some (0x25, p)
  | .confirm p => some (0x26, p)
  | .clearStoreStatus p => some (0x27, p)
  | .installBoot p => some (0x28, p)
  | .serviceRequest p => some (0x30, p)
  | .serviceCode p => some (0x31, p)
  | .serviceEnd p => some (0x32, p)
  | .setCode p => some (0x33, p)
  | .sleep p => some (0x38, p)
  | .bootFetch p => some (0x3C, p)
  | .unknownDirective tag p => some (tag, p)
  | .pageEnd p => some (0x02, p)
  | .skippedTag tag p => some (tag, p)
  | .line length bytes => if bytes.length = length then some (0x01, bytes) else none
  | _ => none

/-- A record as the host sends it: tag, length low byte first, payload (R176). -/
def recordBytes (tag : Byte) (p : List Byte) : List Byte := tag :: (leBytes 2 p.length ++ p)

/-- The input levels that a STATUS REQUEST carries; any other command carries none. -/
def Instr.statusLevels : Instr → Bool × Bool
  | .statusRequest _ doce papx => (doce, papx)
  | _ => (false, false)

end Sys2Proof
end

