-- ==== Sys2Proof/Machine/Coding.lean ====
section
/-!
DEFINITION. The Line Coder (05_line_coding.md): the run code, the encoder, and the byte-by-byte decoder with its repairs.
-/
namespace Sys2Proof.Machine

open Sys2Proof

/-! ## Raw bytes (R1, R92) -/

/-- The 8 pixels of a raw byte, most significant bit first. -/
def bitsOfByte (b : Byte) : List Bool :=
  [b.getLsbD 7, b.getLsbD 6, b.getLsbD 5, b.getLsbD 4, b.getLsbD 3, b.getLsbD 2, b.getLsbD 1, b.getLsbD 0]

/-- The number that pixels spell, first pixel most significant. -/
def bitsValue (bs : List Bool) : Nat := bs.foldl (fun a b => 2 * a + (if b then 1 else 0)) 0

/-- The raw bytes of a line: 8 pixels to a byte, pixel 0 in the most significant bit of the first byte. `n` bounds the bytes. -/
def packBytes : Nat → List Bool → List Byte
  | 0, _ => []
  | n + 1, l => byteOf (bitsValue (l.take 8)) :: packBytes n (l.drop 8)

/-- The 216 raw bytes of a line. -/
def rawOf (l : Line) : List Byte := packBytes rawBytes l

/-! ## Encoding (R88, R89) -/

/-- The lengths of the maximal runs of `l`, the present run being of colour `colour` and already `n` pixels long. -/
def runsFrom (colour : Bool) (n : Nat) : Line → List Nat
  | [] => [n]
  | b :: rest => if b = colour then runsFrom colour (n + 1) rest else n :: runsFrom b 1 rest

/-- The runs of a line: a white run first, of length 0 when pixel 0 is black, then each maximal run in turn (R89). -/
def runsOf (l : Line) : List Nat := runsFrom false 0 l

/-- The form of one run (R88): short up to 191 pixels, else a lead byte and a second byte. -/
def runBytes (n : Nat) : List Byte :=
  if n ≤ 191 then [byteOf n] else [byteOf (192 + (n - 192) / 256), byteOf ((n - 192) % 256)]

/-- The run code of a line (R88). -/
def runCode (l : Line) : List Byte := (runsOf l).flatMap runBytes

/-- The encoder (R89): RUN where the coded length is at most 216, else RAW. -/
def encodeLine (l : Line) : Coded :=
  let code := runCode l
  if code.length ≤ rawBytes then ⟨.run, code⟩ else ⟨.raw, rawOf l⟩

/-- The coded line of a route's link encoding (R95). -/
def encodeFor (f : Option Form) (l : Line) : Coded :=
  match f with
  | some .run => encodeLine l
  | _ => ⟨.raw, rawOf l⟩

/-! ## Decoding (R90 to R92) -/

/-- The decoder record at the start of a line (chapter 5.3). -/
def Decoder.start : Decoder := { out := [], black := false, lead := none, skip := false, repaired := false }

/-- A run of `n` pixels of the present colour (R90), truncated at the end of the line as an overshoot (R91). -/
def Decoder.run (d : Decoder) (n : Nat) : Decoder :=
  let p := d.out.length
  if lineWidth < p + n then
    { d with out := d.out ++ List.replicate (lineWidth - p) d.black, black := !d.black, lead := none, skip := true,
             repaired := true }
  else
    { d with out := d.out ++ List.replicate n d.black, black := !d.black, lead := none, skip := p + n = lineWidth }

/-- The rest of the line written white (R91). -/
def Decoder.whiteOut (d : Decoder) : Decoder :=
  { d with out := d.out ++ List.replicate (lineWidth - d.out.length) false, lead := none, skip := true, repaired := true }

/-- One byte of a RUN-form string (R90, R91). -/
def Decoder.runByte (d : Decoder) (b : Byte) : Decoder :=
  if d.skip then { d with repaired := true }
  else
    match d.lead with
    | some v => d.run ((v - 192) * 256 + b.toNat + 192)
    | none =>
        if b.toNat ≤ 191 then d.run b.toNat
        else if b.toNat ≤ 198 then { d with lead := some b.toNat }
        else d.whiteOut

/-- One byte of a RAW-form string (R92): 8 pixels, or ignored after the 216th byte. -/
def Decoder.rawByte (d : Decoder) (b : Byte) : Decoder :=
  if d.skip then { d with repaired := true }
  else
    let out := d.out ++ bitsOfByte b
    { d with out := out, skip := decide (lineWidth ≤ out.length) }

/-- One data byte of a line by the way its form is taken; an ignored byte leaves the all-white line (R92, R94). -/
def Decoder.byte (f : FormIn) (d : Decoder) (b : Byte) : Decoder :=
  match f with
  | .raw => d.rawByte b
  | .run => d.runByte b
  | .ignored => { d with repaired := true }

/-- The data bytes of a line, in order. -/
def Decoder.bytes (f : FormIn) (d : Decoder) (bs : List Byte) : Decoder := bs.foldl (Decoder.byte f) d

/-- The end of the string (R91, R92): pixels not yet written are white, and that is a repair. -/
def Decoder.finish (d : Decoder) : Decoder := if d.out.length < lineWidth then d.whiteOut else d

/-- The way a form byte is taken (R92). -/
def formIn (b : Byte) : FormIn :=
  match formOf b.toNat with
  | some .raw => .raw
  | some .run => .run
  | none => .ignored

/-- The way a form byte is taken by a link-in lane of a route with link encoding `enc` (R94). -/
def formInFor (enc : Option Form) (b : Byte) : FormIn :=
  match formIn b, enc with
  | .run, some .run => .run
  | .run, _ => .ignored
  | f, _ => f

/-- A whole line of a given form: its 1728 pixels and whether it was repaired (R90 to R92). -/
def decodeLine (f : FormIn) (data : List Byte) : Line × Bool :=
  let d := (Decoder.bytes f .start data).finish
  (d.out, d.repaired)

/-- The form as it is taken by the store-read lane and the Boot Server. -/
def Form.asIn : Form → FormIn
  | .raw => .raw
  | .run => .run

end Sys2Proof.Machine
end

