-- ==== Sys2Proof/Machine/Memory.lean ====
section
/-!
DEFINITION. The flash array and the protection row (06_page_store.md 6.1, 07_store_protection_and_service_access.md 7.1,
11.5): reading and programming bytes, erasing blocks, headers, line entries, the lock and key segments. The array is a list
of (address, byte) cells in rising order with no cell that is FFh, the erased byte (R100, R126).
-/
namespace Sys2Proof.Machine

open Sys2Proof

/-! ## Bytes -/

/-- What an unlisted byte reads as: the erased byte (R100). -/
def erasedByte : Byte := 0xFF

/-- The byte at an address. -/
def readMem : List Host.Cell → Nat → Byte
  | [], _ => erasedByte
  | c :: rest, a => if c.1 = a then c.2 else readMem rest a

/-- Stores a byte at an address, keeping the canonical form. -/
def writeMem : List Host.Cell → Nat → Byte → List Host.Cell
  | [], a, b => if b = erasedByte then [] else [(a, b)]
  | c :: rest, a, b =>
      if c.1 < a then c :: writeMem rest a b
      else if c.1 = a then (if b = erasedByte then rest else (a, b) :: rest)
      else if b = erasedByte then c :: rest else (a, b) :: c :: rest

/-- The canonical form: addresses strictly rising and inside the array, no cell that reads as erased. -/
abbrev Memory.wf (m : List Host.Cell) : Prop :=
  (m.map Prod.fst).Pairwise (· < ·) ∧ ∀ c ∈ m, c.2 ≠ erasedByte ∧ c.1 < Config.blockCount * Config.blockBytes

/-- The address of an offset in a block (R100). -/
def addrOf (block off : Nat) : Nat := block * Config.blockBytes + off

/-- A byte of a block. -/
def blockByte (m : List Host.Cell) (block off : Nat) : Byte := readMem m (addrOf block off)

/-- `n` bytes of a block from an offset. -/
def blockBytesAt (m : List Host.Cell) (block off n : Nat) : List Byte :=
  (List.range n).map fun i => blockByte m block (off + i)

/-- The number of `w` bytes of a block, low byte first. -/
def blockNum (m : List Host.Cell) (block off w : Nat) : Nat := ofLe (blockBytesAt m block off w)

/-- The byte a program of `want` over `old` leaves: bits go from 1 to 0 only (R100). -/
def programmed (old want : Byte) : Byte := old &&& want

/-- What a byte reads whose program failed (R100), by its 32nd pulse or, where it holds a 0 where 1 is wanted, by the pulse before its first
verify: its bits at 0 in `want` are each as they were or programmed, which is a free value (notes/assumptions/1.md), and it does not read as
wanted. Where FFh is wanted there is no pulse, and it reads as before. -/
def failedByte (old want free : Byte) : Byte :=
  let v := old &&& (want ||| free)
  if v = want then old else v

/-- A byte write of a program job: address and wanted value. -/
abbrev Write := Nat × Byte

/-- Writes one byte by program, where the address is inside the array. -/
def programByte (m : List Host.Cell) (w : Write) : List Host.Cell :=
  if w.1 < Config.blockCount * Config.blockBytes then writeMem m w.1 (programmed (readMem m w.1) w.2) else m

/-- Programs bytes in order, and answers whether every one reads as wanted. The job ends at the first byte that cannot
(R100): one that holds a 0 where 1 is wanted, or the one the device's answer names. A byte that already reads as wanted takes no
pulse and cannot fail, so a device's answer that names one tells of no failure (DESIGN CHOICE, notes/assumptions/2.md). -/
def programRun (free : Byte) : ProgResult → List Host.Cell → List Write → List Host.Cell × Bool
  | _, m, [] => (m, true)
  | r, m, w :: ws =>
      let old := readMem m w.1
      if programmed old w.2 ≠ w.2 then (programByte m (w.1, failedByte old w.2 free), false)
      else
        match r with
        | .failAt 0 =>
            if old = w.2 then programRun free .ok m ws else (programByte m (w.1, failedByte old w.2 free), false)
        | .failAt (n + 1) => programRun free (.failAt n) (programByte m w) ws
        | .ok => programRun free .ok (programByte m w) ws

/-- Erases a block: every byte returns to FFh (R100). -/
def eraseMem (m : List Host.Cell) (block : Nat) : List Host.Cell :=
  m.filter fun c => c.1 < addrOf block 0 || addrOf (block + 1) 0 ≤ c.1

/-! ## The flash device -/

/-- Uses up one free value. -/
def Flash.bump (f : Flash) : Flash := { f with uses := f.uses + 1 }

/-- Runs a program job to its end, whole or at the failing byte. -/
def Flash.program (f : Flash) (r : ProgResult) (ws : List Write) : Flash × Bool :=
  let out := programRun (Config.freeByte f.uses) r f.mem ws
  ({ f.bump with mem := out.1 }, out.2)

/-- Uses up several free values. -/
def Flash.bumpBy (n : Nat) (f : Flash) : Flash := { f with uses := f.uses + n }

/-- Cuts a program job: a number of its bytes that is not known were programmed, but not its last, which would have ended it
(R129, R144, R173). -/
def Flash.cut (f : Flash) (ws : List Write) : Flash :=
  { f.bump with mem := (ws.take (min (Config.freeProgress f.uses) (ws.length - 1))).foldl programByte f.mem }

/-- A block's content is trusted again. -/
def Flash.untear (f : Flash) (b : Nat) : Flash := { f with torn := f.torn.filter (· ≠ b) }

/-- Erases a block whole. -/
def Flash.eraseBlock (f : Flash) (b : Nat) : Flash :=
  { f with mem := eraseMem f.mem b, torn := f.torn.filter (· ≠ b) }

/-- Leaves a block's content untrusted: its erase was begun and abandoned (R126, R140). -/
def Flash.tear (f : Flash) (b : Nat) : Flash := if b ∈ f.torn then f else { f with torn := b :: f.torn }

/-! ## Headers (R101, 11.5) -/

/-- The header write of one byte. -/
def headerByte (b off : Nat) (v : Byte) : Write := (addrOf b off, v)

/-- The header writes of a number of `w` bytes, low byte first. -/
def headerNum (b off w n : Nat) : List Write :=
  (List.range w).zip (leBytes w n) |>.map fun x => headerByte b (off + x.1) x.2

/-- The flags byte at offset 6: 0 is set (11.5). -/
def headerFlags (fin truncated isPartial reloc : Bool) : Byte :=
  byteOf (0xFF - ((if fin then 1 else 0) + (if truncated then 2 else 0) + (if isPartial then 4 else 0) +
    (if reloc then 8 else 0)))

/-- The claim fields of a block of a page, state claimed last (R101, R111, R114). -/
def claimWrites (b : Nat) (pg : Page) (seq : Nat) (reloc : Bool) : List Write :=
  let first := decide (seq = 0)
  headerNum b 7 2 pg.id ++ [headerByte b 9 (byteOf seq)] ++ headerNum b 10 4 pg.creation ++
    [headerByte b 14 (originCode pg.origin), headerByte b 15 (byteOf pg.steps),
     headerByte b 6 (headerFlags false false (first && pg.isPartial) reloc)] ++
    (match first, pg.partialStart with | true, some n => headerNum b 16 2 n | _, _ => []) ++
    (if first && !pg.label.isEmpty then
      headerByte b 18 (byteOf pg.label.length) ::
        ((List.range pg.label.length).zip pg.label |>.map fun x => headerByte b (19 + x.1) x.2)
     else []) ++
    [headerByte b 5 0x3F]

/-- State full, with END and TRUNCATED at a page close (R113). The flags byte is programmed before the state byte, an order that R113 does
not give (DESIGN CHOICE, notes/assumptions/58.md). -/
def fullWrites (m : List Host.Cell) (b : Nat) (fin truncated : Bool) : List Write :=
  (if fin then [headerByte b 6 (blockByte m b 6 &&& headerFlags true truncated false false)] else []) ++
    [headerByte b 5 0x0F]

/-- State retired (R120). -/
def retireWrites (b : Nat) : List Write := [headerByte b 5 0x03]

/-- State bad (R124). -/
def badWrites (b : Nat) : List Write := [headerByte b 5 0x00]

/-- The format mark and the erase count (R124). -/
def countWrites (b n : Nat) : List Write := [headerByte b 0 0x5A, headerByte b 1 0xC3] ++ headerNum b 2 3 n

/-- The expected length, the expected checksum, then the installed mark (R173). -/
def markWrites (b length sum : Nat) : List Write :=
  headerNum b 40 4 length ++ headerNum b 44 2 sum ++ [headerByte b 39 0x00]

/-- The writes of a line entry at an offset of the line area: length, form, data, commit mark (R102). -/
def entryWrites (b off : Nat) (c : Coded) : List Write :=
  let bytes := leBytes 2 c.data.length ++ [formCode c.form] ++ c.data ++ [0x00]
  (List.range bytes.length).zip bytes |>.map fun x => (addrOf b (Config.headerBytes + off + x.1), x.2)

/-- The size of an entry in the line area: its data length plus 4 (R102). -/
def entrySize (c : Coded) : Nat := c.data.length + 4

/-! ## Reading entries (R118, R191) -/

/-- A line entry as it stands in flash, or `none` where it cannot be read: a length above 216, a form that is neither RAW nor
RUN, or no commit mark; an entry beyond the line area is none. -/
def readEntry (m : List Host.Cell) (b off : Nat) : Option Coded :=
  let base := Config.headerBytes + off
  let len := blockNum m b base 2
  if rawBytes < len ∨ Config.areaBytes < off + len + 4 then none
  else
    match formOf (blockByte m b (base + 2)).toNat with
    | none => none
    | some f =>
        if blockByte m b (base + 3 + len) = 0x00 then some ⟨f, blockBytesAt m b (base + 3) len⟩ else none

/-- Walks a line area (R126): the committed entries up to the first that cannot be read, and the bytes they take. -/
def walkArea (m : List Host.Cell) (b : Nat) : Nat → Nat → Nat → Nat × Nat
  | 0, n, off => (n, off)
  | fuel + 1, n, off =>
      match readEntry m b off with
      | none => (n, off)
      | some c => walkArea m b fuel (n + 1) (off + entrySize c)

/-- The most entries a line area can hold: 6 bytes and 2 bytes of data are the least a coded line takes; 4 bytes bound it. -/
def areaFuel : Nat := 4080

/-- The offset of entry `n` of a block, walking the entries by their length fields (R167). -/
def entryOffset (m : List Host.Cell) (b : Nat) : Nat → Nat → Option Nat
  | 0, off => some off
  | n + 1, off => (readEntry m b off).bind fun c => entryOffset m b n (off + entrySize c)

/-! ## The protection row (R130, 11.5) -/

/-- Whether cell `b` of a lock segment reads set: 0 = set. -/
def cellSet (cells : List Byte) (b : Nat) : Bool := !((cells.getD (b / 8) 0xFF).getLsbD (b % 8))

/-- The 64 cells in order. -/
def cellsOf (cells : List Byte) : List Bool := (List.range Config.blockCount).map (cellSet cells)

/-- A lock segment whose set cells are those that `p` names. -/
def lockBytes (p : Nat → Bool) : List Byte :=
  (List.range 8).map fun i =>
    byteOf (((List.range 8).map fun j => if p (8 * i + j) then 0 else 2 ^ j).foldl (· + ·) 0)

/-- The service code of a key segment: no code only when all 8 bytes read FFh (R130, R191). -/
def codeOf (bs : List Byte) : Option (List Byte) := if bs.all (· == 0xFF) then none else some bs

/-- The Protection Unit's copy as it is read from the row (R130, R191). -/
def Flash.key (f : Flash) : KeyCopy := { master := decide (f.master ≠ 0xFF), code := codeOf f.code }

/-- The lock and key bytes after an erase of their segment cut short: each bit as it was, or cleared to 1 (R140). -/
def cutErase (free : Nat → Byte) (bs : List Byte) : List Byte :=
  (List.range bs.length).zip bs |>.map fun x => x.2 ||| free x.1

end Sys2Proof.Machine
end

