-- ==== Sys2Proof/Machine/Ops.lean ====
section
/-!
DEFINITION. The shared operations: the report queue with its events and credits (10_the_page_link.md 10.4), the line pool
(01_line_pool_and_routes.md 1.1), route contexts and their conditions (1.2, 1.5), supply requests (08_power_save.md 8.2).
-/
namespace Sys2Proof.Machine

open Sys2Proof

/-! ## Routes -/

/-- A route by number; a number above 3 names none. -/
def getRoute (c : Chip) (r : Nat) : Route := c.routes.getD r Route.closed

/-- Replaces a route. -/
def setRoute (r : Nat) (x : Route) (c : Chip) : Chip := { c with routes := c.routes.set r x }

/-- The context of a route that is not CLOSED. -/
def ctxOf (c : Chip) (r : Nat) : Option Ctx := (getRoute c r).ctx

/-- Changes the context of a route that is not CLOSED. -/
def modCtx (r : Nat) (f : Ctx → Ctx) (c : Chip) : Chip :=
  match ctxOf c r with
  | none => c
  | some x => setRoute r { getRoute c r with ctx := some (f x) } c

/-- The route numbers. -/
def routeNumbers : List Nat := List.range Config.routeCount

/-- The routes not CLOSED that meet a condition. -/
def routesWhere (c : Chip) (p : Ctx → Bool) : List Nat :=
  routeNumbers.filter fun r => match ctxOf c r with | none => false | some x => p x

/-- The route not CLOSED that holds a source's endpoint (R7). -/
def routeOfSource (c : Chip) (s : Source) : Option Nat := (routesWhere c fun x => x.source == s).head?

/-- The route not CLOSED that holds a sink's endpoint (R7). -/
def routeOfSink (c : Chip) (k : Sink) : Option Nat := (routesWhere c fun x => x.sinks.contains k).head?

/-- The queue of a sink (R14). -/
def Ctx.queue (x : Ctx) : Sink → List Entry
  | .print => x.printQ
  | .link => x.linkQ
  | .store => x.storeQ

/-- Replaces the queue of a sink. -/
def Ctx.setQueue (x : Ctx) (k : Sink) (q : List Entry) : Ctx :=
  match k with
  | .print => { x with printQ := q }
  | .link => { x with linkQ := q }
  | .store => { x with storeQ := q }

/-! ## The report queue (R181, R182, R184) -/

/-- Bytes of the report queue in use. -/
def usedBytes (c : Chip) : Nat := (c.link.reports.map Report.size).sum

/-- Bytes of the report queue free (R181). -/
def freeBytes (c : Chip) : Nat := Config.reportBytes - usedBytes c

/-- A record becomes ready upstream: in PULSE mode with LSEL released and no pulse under way it gives a pulse (R184). -/
def recordReady (c : Chip) : Chip :=
  if c.link.pulseMode && !c.link.selected && c.link.atnLeft == 0 then
    { c with link := { c.link with atnLeft := Config.atnTime } }
  else c

/-- Admits a record to the report queue (R181). -/
def queueRecord (x : Report) (c : Chip) : Chip :=
  recordReady { c with link := { c.link with reports := c.link.reports ++ [x] } }

/-- Sets the halt-reported indication of the routes that meet a condition (R65). -/
def markReported (p : Nat → Ctx → Bool) (c : Chip) : Chip :=
  { c with routes := (List.range c.routes.length).zip c.routes |>.map fun x =>
      match x.2.ctx with
      | some y => if p x.1 y then { x.2 with haltReported := true } else x.2
      | none => x.2 }

/-- What an admitted event reports of the halts (R65): JAM reports the jam of its route, INTERLOCK OPEN every interlock halt. -/
def reportHalts (e : Event) (c : Chip) : Chip :=
  match e with
  | .jam _ r => markReported (fun n x => n == r && x.halt == some .jam) c
  | .interlockOpen => markReported (fun _ x => x.halt == some .interlock) c
  | _ => c

/-- Queues an event (R181): admitted with 256 bytes free, otherwise discarded with events-lost set. -/
def queueEvent (e : Event) (c : Chip) : Chip :=
  if Config.reportRoom ≤ freeBytes c then reportHalts e (queueRecord (.event e) c)
  else { c with link := { c.link with eventsLost := true } }

/-- Queues events in order. -/
def queueEvents (es : List Event) (c : Chip) : Chip := es.foldl (fun c e => queueEvent e c) c

/-- Whether a report is the CREDIT record of a route. -/
def isCreditOf (r : Nat) : Report → Bool
  | .credit n _ => n == r
  | _ => false

/-- The records of the report queue whose first byte has not been sent (R182, R183). -/
def unsent (c : Chip) : List Report := if c.link.up = .report then c.link.reports.drop 1 else c.link.reports

/-- Queues a credit value (R182): written in place into the route's unsent CREDIT record, or appended. -/
def queueCredit (r v : Nat) (c : Chip) : Chip :=
  if (unsent c).any (isCreditOf r) then
    let sent := c.link.reports.take (c.link.reports.length - (unsent c).length)
    { c with link := { c.link with
        reports := sent ++ (unsent c).map fun x => if isCreditOf r x then .credit r v else x } }
  else queueRecord (.credit r v) c

/-! ## Replies (R180) -/

/-- The reference byte of a payload; 00h where it holds no byte (R179). -/
def refOf (p : List Byte) : Byte := p.headD 0

/-- Queues the REPLY of a directive. -/
def reply (p : List Byte) (a : Answer) (c : Chip) : Chip := queueRecord (.reply (refOf p) a) c

/-- Refuses a directive. -/
def refuse (p : List Byte) (r : Reason) (c : Chip) : Chip := reply p (.refused r) c

/-- Refuses a directive PROTECTED and sets PROTECTION FAULT (R132). -/
def refuseProtected (p : List Byte) (c : Chip) : Chip :=
  refuse p .protected_ { c with store := { c.store with protectionFault := true } }

/-- The first check of every directive (R190): a payload of another length is refused MALFORMED. -/
def withLength (p : List Byte) (n : Nat) (f : Chip → Chip) (c : Chip) : Chip :=
  if p.length = n then f c else refuse p .malformed c

/-! ## The line pool (R1 to R5, R19) -/

/-- The route a slot is charged to (R3). -/
def Slot.route : Slot → Option Nat
  | .free => none
  | .reserved r => some r
  | .filling r _ => some r
  | .held r _ _ => some r

/-- A slot by number. -/
def slotAt (c : Chip) (n : Nat) : Slot := c.pool.slots.getD n .free

/-- Changes the condition of a slot within its charge: a FREE slot is charged by a take alone (R2), and a slot leaves its route by its
return alone (R3, R5; notes/assumptions/20.md). -/
def setSlot (n : Nat) (x : Slot) (c : Chip) : Chip :=
  if (slotAt c n).route = x.route then { c with pool := { c.pool with slots := c.pool.slots.set n x } } else c

/-- The charged count of a route (R3). -/
def charged (c : Chip) (r : Nat) : Nat := c.pool.slots.countP fun s => s.route == some r

/-- Recomputes the credit of a LINK-source route, and queues a new value (R19). -/
def syncCredit (r : Nat) (c : Chip) : Chip :=
  match ctxOf c r with
  | none => c
  | some x =>
      if x.source = .link ∧ x.creditGranted ≠ some (x.quota - charged c r) then
        queueCredit r (x.quota - charged c r) (modCtx r (fun x => { x with creditGranted := some (x.quota - charged c r) }) c)
      else c

/-- A take (R2): the head of the free list, charged to the route with the condition `mk r`, where the charged count is below
the quota; otherwise denied. -/
def takeSlot (r : Nat) (mk : Nat → Slot) (c : Chip) : Option (Nat × Chip) :=
  match ctxOf c r with
  | none => none
  | some x =>
      if charged c r < x.quota then
        match c.pool.freeList with
        | [] => none
        | n :: rest => some (n, syncCredit r { c with pool := { slots := c.pool.slots.set n (mk r), freeList := rest } })
      else none

/-- Returns a slot (R5): FREE, at the tail of the free list; the credit of its route follows (R19). -/
def returnSlot (n : Nat) (c : Chip) : Chip :=
  match slotAt c n with
  | .free => c
  | s =>
      let c := { c with pool := { slots := c.pool.slots.set n .free, freeList := c.pool.freeList ++ [n] } }
      match s.route with
      | some r => syncCredit r c
      | none => c

/-- Returns slots in order. -/
def returnSlots (ns : List Nat) (c : Chip) : Chip := ns.foldl (fun c n => returnSlot n c) c

/-- Drops one reference to a slot (R5): at the last one the slot is returned. -/
def dropReference (n : Nat) (c : Chip) : Chip :=
  match slotAt c n with
  | .held r refs l => if refs ≤ 1 then returnSlot n c else setSlot n (.held r (refs - 1) l) c
  | _ => c

/-- The line a slot holds. -/
def lineOf (c : Chip) (n : Nat) : Line :=
  match slotAt c n with
  | .held _ _ l => l
  | .filling _ (some l) => l
  | _ => whiteLine

/-- Returns every reservation of a route, oldest first (R16). -/
def returnReservations (r : Nat) (c : Chip) : Chip :=
  match ctxOf c r with
  | none => c
  | some x => returnSlots x.reservations (modCtx r (fun x => { x with reservations := [] }) c)

/-! ## Conditions of a route (R12) -/

/-- Whether a halt is one that sets the halt-reported indication to no (R65): the route enters HALTED, its reason changes, or a trip names
it. A JAM of a route that is HALTED (JAM) already is none of these. -/
def haltAnew (x : Ctx) (h : Halt) : Bool := decide (h = .interlock ∨ x.halt ≠ some h)

/-- Halts a route (R12, R65). -/
def haltRoute (r : Nat) (h : Halt) (c : Chip) : Chip :=
  match ctxOf c r with
  | none => c
  | some x =>
      setRoute r { getRoute c r with
        ctx := some { x with halt := some h }, haltReported := (getRoute c r).haltReported && !haltAnew x h } c

/-- Adds a stall condition at the tail of the set (R12). -/
def addStall (r : Nat) (s : Stall) (c : Chip) : Chip :=
  modCtx r (fun x => if s ∈ x.stalls then x else { x with stalls := x.stalls ++ [s] }) c

/-- Removes a stall condition (R12). -/
def dropStall (r : Nat) (s : Stall) (c : Chip) : Chip :=
  modCtx r (fun x => { x with stalls := x.stalls.filter (· ≠ s) }) c

/-- Whether a route is halted. -/
def isHalted (c : Chip) (r : Nat) : Bool :=
  match ctxOf c r with
  | some x => x.halt.isSome
  | none => false

/-! ## Supply domains (R147) -/

/-- A request taken. -/
def Domain.request (settle : Nat) : Domain → Domain
  | .off => .rising settle
  | .holding _ => .on
  | d => d

/-- A request dropped. -/
def Domain.release (hold : Nat) : Domain → Domain
  | .rising _ => .off
  | .on => if hold = 0 then .off else .holding hold
  | d => d

/-- Whether a domain is reported on to its requester. -/
def Domain.isOn : Domain → Bool
  | .on => true
  | .holding _ => true
  | _ => false

/-- The hold time of a park table hold entry, in µs (R153). -/
def holdTime (c : Chip) (i : Nat) : Nat := c.power.holds.getD i 0 * 10000

/-- Takes lamp use (R43). -/
def takeLamp (c : Chip) : Chip :=
  if c.scan.lampUse then c
  else { c with scan := { c.scan with lampUse := true }, power := { c.power with lamp := c.power.lamp.request 10000 } }

/-- Drops lamp use (R43). -/
def dropLamp (c : Chip) : Chip :=
  if c.scan.lampUse then
    { c with scan := { c.scan with lampUse := false },
             power := { c.power with lamp := c.power.lamp.release (holdTime c 1) } }
  else c

/-! ## Block table and page directory -/

/-- A block table entry. -/
def blockAt (c : Chip) (b : Nat) : Block := c.store.blocks.getD b Block.blank

/-- Changes a block table entry. -/
def modBlock (b : Nat) (f : Block → Block) (c : Chip) : Chip :=
  { c with store := { c.store with blocks := c.store.blocks.set b (f (blockAt c b)) } }

/-- Changes a block's state; a block that leaves its page has no page. -/
def setBlockState (b : Nat) (st : BlockState) (c : Chip) : Chip :=
  modBlock b (fun x => { x with state := st, page := if st = .claimed ∨ st = .full then x.page else none }) c

/-- The directory entry of a page id (R104). -/
def pageOf (c : Chip) (id : Nat) : Option Page := c.store.dir.find? fun p => p.id == id

/-- Changes a directory entry. -/
def modPage (id : Nat) (f : Page → Page) (c : Chip) : Chip :=
  { c with store := { c.store with dir := c.store.dir.map fun p => if p.id = id then f p else p } }

/-- Removes a directory entry. -/
def removePage (id : Nat) (c : Chip) : Chip :=
  { c with store := { c.store with dir := c.store.dir.filter fun p => p.id ≠ id } }

/-- Whether SERVICE is held (R141). -/
def serviceHeld (c : Chip) : Bool := decide (c.prot.service = .service)

/-- Whether the master cell's copy shows it set; an unknown copy shows nothing set. -/
def masterSet (c : Chip) : Bool := match c.prot.copy with | some k => k.master | none => false

/-- The lock check of a block (R132): its cell is clear, or SERVICE is held, or the operation is part of a TOTAL ERASE. -/
def lockPasses (c : Chip) (b : Nat) : Bool :=
  !(blockAt c b).lock || serviceHeld c || decide (c.store.op = .totalBlocks)

/-- The order of the erased-block list: erase count, then block number (R106). -/
def erasedBefore (c : Chip) (a b : Nat) : Bool :=
  decide ((blockAt c a).count < (blockAt c b).count ∨ ((blockAt c a).count = (blockAt c b).count ∧ a < b))

/-- Puts a block in its place on the erased-block list. -/
def insertErased (c : Chip) (b : Nat) : List Nat → List Nat
  | [] => [b]
  | x :: rest => if erasedBefore c b x then b :: x :: rest else x :: insertErased c b rest

/-- A block joins the erased-block list if it is ERASED with its cell clear and not on it (R106). -/
def joinErased (b : Nat) (c : Chip) : Chip :=
  if (blockAt c b).state = .erased ∧ (blockAt c b).lock = false ∧ b ∉ c.store.erasedList then
    { c with store := { c.store with erasedList := insertErased c b c.store.erasedList } }
  else c

/-- A block joins the erase queue at its tail (R107). -/
def joinEraseQueue (b : Nat) (c : Chip) : Chip :=
  if b ∈ c.store.eraseQueue then c
  else { c with store := { c.store with eraseQueue := c.store.eraseQueue ++ [b] } }

/-- Queues a BLOCK FAILED (PROGRAM) with PROGRAM FAULT set (R111 to R114, R120, R124). -/
def programFailed (b : Nat) (c : Chip) : Chip :=
  queueEvent (.blockFailed b false) { c with store := { c.store with programFault := true } }

end Sys2Proof.Machine
end

