-- ==== Sys2Proof/Machine/Head.lean ====
section
/-!
DEFINITION. The Print Head Controller's operations (04_print_path.md): take-up and release of PRINT, the load target and the
shift register, the burn, the strobes, the temperature band and the strobe time.
-/
namespace Sys2Proof.Machine

open Sys2Proof

/-- The entries the head works from (R72): the kept entries of a print run-out, else the print queue of the route served. -/
def headEntries (c : Chip) : List Entry :=
  match c.runOut with
  | some ro => ro.entries.map .line
  | none =>
      match c.head.route with
      | some r => match ctxOf c r with | some x => x.printQ | none => []
      | none => []

/-- The repeat of the route copy (R70). -/
def headCopies (c : Chip) : Nat := match c.head.copy with | some x => x.copies | none => 1

/-- The first line entry of a list, page marks passed over. -/
def firstLine : List Entry → Option LineEntry
  | [] => none
  | .line e :: _ => some e
  | .mark _ :: rest => firstLine rest

/-- The load target (R72): the head line while it has burns to begin, else the first line entry after the head entry. -/
def targetOf (burns copies : Nat) : List Entry → Option LineEntry
  | [] => none
  | .line e :: rest => if burns < copies then some e else firstLine rest
  | .mark _ :: rest => firstLine rest

/-- The load target of the head as it stands. -/
def loadTarget (c : Chip) : Option LineEntry := targetOf c.head.burns (headCopies c) (headEntries c)

/-- The load target is found again, and the shift register follows it (R72). -/
def refreshLoad (c : Chip) : Chip :=
  match loadTarget c with
  | none => { c with head := { c.head with shift := .empty, loadLeft := 0 } }
  | some e =>
      if c.head.shift = .loading e ∨ c.head.shift = .loaded e then c
      else if c.power.head.isOn then { c with head := { c.head with shift := .loading e, loadLeft := Config.loadTime } }
      else { c with head := { c.head with shift := .empty, loadLeft := 0 } }

/-- Whether the burn that a start leads to has its line LOADED, or a page mark stands in its place (R73). -/
def burnReady (h : Head) (copies : Nat) : List Entry → Bool
  | [] => false
  | .mark _ :: _ => true
  | .line e :: rest =>
      if h.burns < copies then decide (h.shift = .loaded e)
      else
        match rest with
        | [] => false
        | .mark _ :: _ => true
        | .line e' :: _ => decide (h.shift = .loaded e')

/-- The head readiness reported to the Motor Controller (R73). -/
def headReady (c : Chip) : Bool :=
  c.power.head.isOn && decide (c.head.cut = .none) && burnReady c.head (headCopies c) (headEntries c)

/-- The temperature band of a thermistor sample: the thresholds it meets or exceeds (R75). -/
def bandOf (t : HeatTable) (sample : Nat) : Nat := t.thresholds.countP fun x => decide (x ≤ sample)

/-- Samples the thermistor (R75). -/
def sampleTherm (therm : Byte) (c : Chip) : Chip :=
  { c with pins := { c.pins with therm := therm }, head := { c.head with band := bandOf c.heat therm.toNat } }

/-- The strobe time asked for, at a band and a density (R76). -/
def strobeDemand (t : HeatTable) (band density : Nat) : Nat := clamp 100 4000 (t.times.getD band 0 * density / 16)

/-- The cap of the strobe time at a line period (R76). -/
def strobeCap (period : Nat) : Nat := (period - 100) / 4

/-- The strobe groups of a line that hold a black dot, in order (R77). -/
def blackGroups (l : Line) : List Nat := (List.range 4).filter fun g => ((l.drop (432 * g)).take 432).any id

/-- The next non-empty group is strobed, or the burn ends (R77). -/
def nextStrobe (h : Head) : Head :=
  match h.groups with
  | [] => { h with strobe := none }
  | g :: gs => { h with strobe := some (g, h.strobeTime.getD 0), groups := gs }

/-- A burn begins (R74 step 3, R75 to R77): the head line is latched, the thermistor sampled, the strobe time set, strobing
begun, and the load of the next burn's line started. -/
def beginBurn (therm : Byte) (c : Chip) : Chip :=
  match headEntries c, c.head.copy with
  | .line e :: _, some copy =>
      let c := sampleTherm therm { c with
        head := { c.head with latch := some e, shift := .empty, loadLeft := 0, burns := c.head.burns + 1 } }
      let demand := strobeDemand c.heat c.head.band copy.density
      let cap := strobeCap copy.period
      let c :=
        if cap < demand ∧ c.head.heatReported = false then
          queueEvent (.heatLimited (c.head.route.getD 0)) { c with head := { c.head with heatReported := true } }
        else c
      refreshLoad { c with
        head := nextStrobe { c.head with strobeTime := some (min demand cap), groups := blackGroups (lineOf c e.slot) } }
  | _, _ => c

/-- Strobing stops at once, with the remaining groups of the burn (R82, R85, R86). -/
def cutStrobe (c : Chip) : Chip := { c with head := { c.head with strobe := none, groups := [] } }

/-- The head's content is lost with its supply (R71). -/
def headContentLost (c : Chip) : Chip :=
  { c with head := { c.head with shift := .empty, loadLeft := 0, latch := none, strobeTime := none } }

/-- Takes head use (R71). -/
def takeHeadUse (c : Chip) : Chip :=
  { c with head := { c.head with headUse := true }, power := { c.power with head := c.power.head.request 1000 } }

/-- Drops head use (R71). -/
def dropHeadUse (c : Chip) : Chip :=
  if c.head.headUse then
    let c := { c with head := { c.head with headUse := false }, power := { c.power with head := c.power.head.release (holdTime c 2) } }
    if c.power.head.isOn then c else headContentLost c
  else c

/-- Take-up of PRINT (R70, R71). -/
def takeUpHead (r : Nat) (copy : HeadCopy) (c : Chip) : Chip :=
  takeHeadUse { c with head := { c.head with route := some r, copy := some copy, heatReported := false } }

/-- Release of PRINT (R70). -/
def releaseHead (c : Chip) : Chip :=
  dropHeadUse { c with
    head := { c.head with route := none, copy := none, shift := .empty, loadLeft := 0, latch := none, strobeTime := none,
                          burns := 0, strobe := none, groups := [] } }

/-- A cut begins (R79, R81). -/
def beginCut (c : Chip) : Chip := { c with head := { c.head with cut := .pulse, cutTime := some 0 } }

/-- A cut ends, with CUT off (R80, R86). -/
def endCut (c : Chip) : Chip := { c with head := { c.head with cut := .none, cutTime := none } }

end Sys2Proof.Machine
end

