-- ==== Sys2Proof/Machine/Arbiter.lean ====
section
/-!
DEFINITION. The flash arbiter and the suspension of an erase (06_page_store.md 6.3, R109, R123), and what the store has to
erase (R107).
-/
namespace Sys2Proof.Machine

open Sys2Proof

/-- Replaces the erase progress record. -/
def setErase (e : Option EraseProg) (c : Chip) : Chip := { c with store := { c.store with erase := e } }

/-- An erase that holds the flash makes way for a waiting job, where its phase lets it (R123): `none` while a pulse has not
run 1 ms, and in COUNT PROGRAM and the bad-state program, which are not suspended (R124). -/
def suspendErase (c : Chip) : Option Chip :=
  match c.store.erase with
  | none => some c
  | some e =>
      match e.phase with
      | .queued => some c
      | .suspended _ => some c
      | .pulse => if Config.eraseMinPulse ≤ e.pulseRun then some (setErase (some { e with phase := .suspended false }) c) else none
      | .verify => some (setErase (some { e with phase := .suspended true, verifyLeft := 0 }) c)
      | .count => none
      | .bad => none

/-- The erase class is granted (R109): an erase starts, or a suspended one resumes, a pulse with pulse run 0 and a verify from
the first byte (R121, R123). -/
def resumeErase (c : Chip) : Chip :=
  match c.store.erase with
  | none => c
  | some e =>
      match e.phase with
      | .queued => setErase (some { e with phase := .pulse, pulseRun := 0 }) c
      | .suspended false => setErase (some { e with phase := .pulse, pulseRun := 0 }) c
      | .suspended true => setErase (some { e with phase := .verify, verifyLeft := Config.verifyTime }) c
      | _ => c

/-- The flash arbiter (R109): while the flash is free, the oldest read is granted, else the oldest program, else the erase;
the lock-segment erase of CLEAR LOCKS goes before the jobs that wait (R138); no job is granted while a scan, a LOCK ERASE or a
TOTAL ERASE has the flash, and none before the flash supply has been on 1 ms (R148) or ahead of the scan that is due then
(notes/assumptions/33.md). -/
def grant (c : Chip) : Chip :=
  if c.store.holder.isSome || !c.store.usable then c
  else
    match c.store.op with
    | .none =>
        if !c.store.scanned then c
        else
        match c.store.reads, c.store.programs with
        | j :: rest, _ =>
            match suspendErase c with
            | some c => { c with store := { c.store with holder := some j, reads := rest } }
            | none => c
        | [], j :: rest =>
            match suspendErase c with
            | some c => { c with store := { c.store with holder := some j, programs := rest } }
            | none => c
        | [], [] => resumeErase c
    | .lockErase false =>
        match suspendErase c with
        | some c => { c with store := { c.store with op := .lockErase true, segLeft := Config.segmentTime } }
        | none => c
    | .totalBlocks => resumeErase c
    | _ => c

/-- A read job is asked for (R109). -/
def askRead (j : Job) (c : Chip) : Chip := grant { c with store := { c.store with reads := c.store.reads ++ [j] } }

/-- A program job is asked for (R109). -/
def askProgram (j : Job) (c : Chip) : Chip := grant { c with store := { c.store with programs := c.store.programs ++ [j] } }

/-- The job that holds the flash has ended, and the flash is granted again (R109). -/
def freeFlash (c : Chip) : Chip := grant { c with store := { c.store with holder := none } }

/-- Withdraws waiting jobs (R109). -/
def withdraw (p : Job → Bool) (c : Chip) : Chip :=
  { c with store := { c.store with reads := c.store.reads.filter fun j => !p j,
                                   programs := c.store.programs.filter fun j => !p j } }

/-- Whether a block of the erase queue is eligible (R107). -/
def eligible (c : Chip) (b : Nat) : Bool := !(blockAt c b).lock || serviceHeld c

/-- Whether a job is a retire program whose block will be eligible (R107). -/
def retireToCome (c : Chip) : Job → Bool
  | .retire b _ => eligible c b
  | _ => false

/-- Whether the store has something to erase (R107). -/
def hasToErase (c : Chip) : Bool :=
  c.store.erase.isSome || c.store.eraseQueue.any (eligible c) || c.store.programs.any (retireToCome c) ||
    (match c.store.holder with | some j => retireToCome c j | none => false)

/-- A block is retired (R120): taken from its page, RETIRED, and its header program queued. -/
def retireBlock (why : RetireFor) (c : Chip) (b : Nat) : Chip := askProgram (.retire b why) (setBlockState b .retired c)

/-- Blocks are retired in list order; a delete and an install wait for the end of their programs (R119, R173). -/
def retireBlocks (why : RetireFor) (bs : List Nat) (c : Chip) : Chip :=
  let c :=
    match why with
    | .quiet => c
    | _ => { c with store := { c.store with retires := c.store.retires ++ [⟨why, bs.length, false⟩] } }
  bs.foldl (retireBlock why) c

/-- A block found damaged in use (R111, R114): DAMAGED, and a header program of state retired is queued for it; it joins the
erase queue when that ends. -/
def damageBlock (b : Nat) (c : Chip) : Chip := askProgram (.retire b .quiet) (setBlockState b .damaged c)

end Sys2Proof.Machine
end

