-- ==== Sys2Proof/Machine/Placing.lean ====
section
/-!
DEFINITION. Lines and page marks on their way through the sink queues (01_line_pool_and_routes.md 1.1, 1.6): fills, the entry
hold, page ends, references dropped, marks served; and what a close request does to a route's source (R21, R38).
-/
namespace Sys2Proof.Machine

open Sys2Proof

/-- Whether every sink queue of a route has room (R14). -/
def hasRoom (x : Ctx) : Bool := x.sinks.all fun k => (x.queue k).length < Config.queueCap

/-- Appends an entry to every sink queue (R14). -/
def Ctx.push (x : Ctx) (e : Entry) : Ctx := x.sinks.foldl (fun x k => x.setQueue k (x.queue k ++ [e])) x

/-- An entry enters the sink queues of a route in one step (R4, R14): the slot of a line becomes HELD with a reference for
each sink. -/
def enterQueues (r : Nat) (e : Entry) (c : Chip) : Chip :=
  match ctxOf c r with
  | none => c
  | some x =>
      let c := modCtx r (fun x => x.push e) c
      match e with
      | .line l => setSlot l.slot (.held r x.sinks.length (lineOf c l.slot)) c
      | .mark _ => c

/-- Places an entry (R14): on the queues where the entry hold is empty and every queue has room, else at the hold's tail. -/
def placeEntry (r : Nat) (e : Entry) (c : Chip) : Chip :=
  match ctxOf c r with
  | none => c
  | some x =>
      if x.hold.isEmpty && hasRoom x then enterQueues r e c
      else modCtx r (fun x => { x with hold := x.hold ++ [e] }) c

/-- Moves the entries `es` of the hold, in order, while every queue has room (R14). -/
def moveHold (r : Nat) : List Entry → Chip → Chip
  | [], c => modCtx r (fun x => { x with hold := [] }) c
  | e :: es, c =>
      match ctxOf c r with
      | none => c
      | some x =>
          if hasRoom x then moveHold r es (enterQueues r e c)
          else modCtx r (fun x => { x with hold := e :: es }) c

/-- An entry has left a sink queue, and the hold moves (R14). -/
def settleHold (r : Nat) (c : Chip) : Chip :=
  match ctxOf c r with
  | none => c
  | some x => moveHold r x.hold c

/-- A page end (R14): a page with lines places a mark with its counts, and the counts return to 0. -/
def pageEnd (r : Nat) (truncated : Bool) (c : Chip) : Chip :=
  match ctxOf c r with
  | none => c
  | some x =>
      if x.linesDone = 0 then c
      else
        placeEntry r
          (.mark { tag := x.marks, lines := x.linesDone, repaired := x.repairedLines, truncated := truncated,
                   isPartial := x.partialNext, pageId := none })
          (modCtx r (fun x => { x with linesDone := 0, repairedLines := 0, partialNext := false, marks := x.marks + 1 }) c)

/-- A fill completes (R4): the line is numbered, PAGE START is queued for a page's first line, and the line is placed; a page
that reaches 65,535 lines ends TRUNCATED. -/
def fillComplete (r slot : Nat) (l : Line) (repaired : Bool) (c : Chip) : Chip :=
  match ctxOf c r with
  | none => returnSlot slot c
  | some x =>
      let c := setSlot slot (.filling r (some l)) c
      let c := modCtx r (fun x => { x with
        linesDone := x.linesDone + 1, repairedLines := x.repairedLines + (if repaired then 1 else 0) }) c
      let c := if x.linesDone = 0 then queueEvent (.pageStart r) c else c
      let c := placeEntry r (.line ⟨slot, x.linesDone, repaired⟩) c
      if x.linesDone + 1 = 65535 then pageEnd r true c else c

/-- A sink finishes with the line at the head of its queue (R5): the entry leaves, the reference drops, the hold moves. -/
def dropHead (k : Sink) (r : Nat) (c : Chip) : Chip :=
  match ctxOf c r with
  | none => c
  | some x =>
      match x.queue k with
      | .line e :: rest => settleHold r (dropReference e.slot (modCtx r (fun x => x.setQueue k rest) c))
      | _ => c

/-- Whether a list holds the mark of a page end. -/
def hasMark (tag : Nat) (q : List Entry) : Bool :=
  q.any fun e => match e with | .mark m => m.tag == tag | .line _ => false

/-- Replaces the copies of a mark. -/
def putMark (m : Mark) (q : List Entry) : List Entry :=
  q.map fun e => match e with | .mark m' => if m'.tag = m.tag then .mark m else e | .line _ => e

/-- A sink serves the page mark at the head of its queue (R15): the mark leaves that queue, with what the sink adds to it
(`f`: a page id, a flag); when the last sink has served it, PAGE DONE is queued and pages done rises. -/
def serveMark (k : Sink) (r : Nat) (f : Mark → Mark) (c : Chip) : Chip :=
  match ctxOf c r with
  | none => c
  | some x =>
      match x.queue k with
      | .mark m :: rest =>
          let m' := f m
          let c := modCtx r (fun x =>
            let x := x.setQueue k rest
            { x with printQ := putMark m' x.printQ, linkQ := putMark m' x.linkQ, storeQ := putMark m' x.storeQ }) c
          let others := (x.sinks.filter (· ≠ k)).any fun j => hasMark m.tag (x.queue j)
          let c :=
            if others then c
            else
              let c := queueEvent (.pageDone r m'.lines m'.repaired m'.truncated m'.isPartial m'.pageId) c
              setRoute r { getRoute c r with pagesDone := min 65535 ((getRoute c r).pagesDone + 1) } c
          settleHold r c
      | _ => c

/-- Whether a channel is in motion. -/
def Channel.moving (ch : Channel) : Bool :=
  match ch.motion with
  | .accelerating => true
  | .running => true
  | .decelerating => true
  | _ => false

/-- A stop cause arises during an interval (R53): a channel in ACCELERATING or RUNNING will decelerate from the end of the step
under way; a decelerating channel goes on. -/
def Channel.stopFor (cause : StopCause) (ch : Channel) : Channel :=
  match ch.motion with
  | .accelerating => if ch.cause.isNone then { ch with cause := some cause } else ch
  | .running => if ch.cause.isNone then { ch with cause := some cause } else ch
  | _ => ch

/-- The Scan Front End asks the scan feed channel to stop (R36, R38). -/
def stopScan (cause : StopCause) (c : Chip) : Chip :=
  { c with scanCh := c.scanCh.stopFor cause, scan := { c.scan with asked := false } }

/-- The source of a SCAN route ends (R25, R37, R38): ENDED, with no approach remaining and lamp use dropped. -/
def endScanSource (c : Chip) : Chip := dropLamp { c with scan := { c.scan with state := .ended, approach := none } }

/-- The reservations of a start that was denied or still waits go back where the stop finds the channel at rest, as they do when a
channel halts (R16; DESIGN CHOICE, notes/assumptions/52.md). -/
def dropWaitingStart (c : Chip) : Chip :=
  match c.scanCh.moving, c.scan.route with
  | false, some r => returnReservations r c
  | _, _ => c

/-- The effect of a close request on the scan source (R38). In WAITING the source ends at once; the route closes with it where nothing keeps
it open, and with its REARM where it is HALTED (R13, R21; DEDUCED, notes/assumptions/67.md). -/
def closeScanSource (c : Chip) : Chip :=
  match c.scan.state with
  | .waiting => endScanSource c
  | .picking => dropWaitingStart (stopScan .stop (endScanSource c))
  | .runout => endScanSource c
  | _ => c

/-- Whether the link-in lane is decoding a record of a route (R13, R21). -/
def decodingFor (c : Chip) (r : Nat) : Bool :=
  match c.linkIn with
  | .decoding n _ _ _ _ => n == r
  | _ => false

/-- Whether a line read of the STORE source is in progress (R13, R20): its job is asked for, or an attempt has failed and it is to be
repeated at the same position. -/
def readInProgress (c : Chip) : Bool := c.store.reading.isSome || decide (c.store.cursor.attempts ≠ 0)

/-- Close requested becomes yes (R13), and the source ends its work (R21, R38): a SCAN source by its scan state, a LINK or STORE
source with a TRUNCATED page end once the record in decoding or the read in flight is over. So a STORE source in OPEN whose first read
is in flight is not CLOSED at once: the read completes and its line is placed (DEDUCED, notes/assumptions/51.md). -/
def requestClose (r : Nat) (c : Chip) : Chip :=
  match ctxOf c r with
  | none => c
  | some x =>
      if x.closeReq then c
      else
        let c := modCtx r (fun x => { x with closeReq := true }) c
        match x.source with
        | .scan => closeScanSource c
        | .link => if decodingFor c r then c else pageEnd r true c
        | .store => if readInProgress c then c else pageEnd r true c

end Sys2Proof.Machine
end

