-- ==== Sys2Proof/Machine/StoreSink.lean ====
section
/-!
DEFINITION. Writing pages (06_page_store.md 6.4): page creation, claims, the entry in work, page closes, STORE WAIT and STORE
FULL, and the store-write lane (05_line_coding.md R96).
-/
namespace Sys2Proof.Machine

open Sys2Proof

/-- Replaces the entry in work. -/
def setWork (w : Option Work) (c : Chip) : Chip := { c with store := { c.store with work := w } }

/-- The id after an id: 65,534 is followed by 1 (R105). -/
def nextPageId (n : Nat) : Nat := if 65534 ≤ n then 1 else n + 1

/-- The next page id to give: the counter's, passing over ids that the directory holds (R105). `fuel` bounds the ids passed. -/
def freePageId (c : Chip) : Nat → Nat → Nat
  | 0, n => n
  | fuel + 1, n => if (pageOf c n).isSome then freePageId c fuel (nextPageId n) else n

/-- Whether a page can be created (R105, R110). -/
def canCreatePage (c : Chip) : Bool :=
  decide (c.store.dir.length < Config.dirCap ∧ c.store.nextCreation ≤ 4294967295)

/-- Creates the page of a route's store sink (R110); with a partial start the page is PARTIAL (R23). -/
def createPage (r : Nat) (start : Option Nat) (c : Chip) : Chip :=
  match ctxOf c r with
  | none => c
  | some x =>
      let id := freePageId c (Config.dirCap + 1) c.store.nextId
      let sp := x.storeP.getD ⟨.scanned, []⟩
      let pg : Page :=
        { id := id, writing := true, origin := sp.origin, truncated := false, interrupted := false,
          isPartial := start.isSome, lines := 0, steps := x.steps, creation := c.store.nextCreation, blocks := [],
          label := sp.label, partialStart := start }
      modCtx r (fun x => { x with storePage := some id })
        { c with store := { c.store with dir := c.store.dir ++ [pg], nextId := nextPageId id,
                                         nextCreation := c.store.nextCreation + 1 } }

/-- The last block of a page. -/
def lastBlock (pg : Page) : Option Nat := pg.blocks.getLast?

/-- A route has no current store page any more. -/
def forgetPage (id : Nat) (c : Chip) : Chip :=
  { c with routes := c.routes.map fun x =>
      match x.ctx with
      | some y => if y.storePage = some id then { x with ctx := some { y with storePage := none } } else x
      | none => x }

/-- The page being written ends (R113): with lines, its last block is closed with END and the entry in work is the page being
closed; with none, its directory entry is removed and any claimed block retired. -/
def endPage (route : Option Nat) (truncated : Bool) (mark : Option Mark) (id : Nat) (c : Chip) : Chip :=
  match pageOf c id with
  | none => forgetPage id (setWork none c)
  | some pg =>
      match decide (0 < pg.lines), lastBlock pg with
      | true, some b =>
          askProgram (.closePage b truncated)
            (setBlockState b .full (setWork (some ⟨route, some id, .closing mark, false⟩) c))
      | _, _ => retireBlocks .quiet pg.blocks (removePage id (forgetPage id (setWork none c)))

/-- The store sink meets STORE FULL (R116): the event, the page closed TRUNCATED, the entry in work let go with its reference
dropped, and the route's close requested. Later entries are removed by `storePump`. -/
def meetFull (r : Nat) (cause : FullCause) (c : Chip) : Chip :=
  let c := queueEvent (.storeFull r cause) c
  let c := dropStall r .storeWait { c with store := { c.store with reloc := none } }
  let page := match ctxOf c r with | some x => x.storePage | none => none
  let kept := match page with
    | some id => match pageOf c id with | some pg => if 0 < pg.lines then some id else none | none => none
    | none => none
  let c := modCtx r (fun x => { x with full := some kept }) c
  let c := match page with | some id => endPage none true none id c | none => setWork none c
  requestClose r (dropHead .store r c)

/-- The head of the erased-block list is claimed for a page (R111): its table entry, the page's block list (but for a
relocation block, R114), and the header program. -/
def claimBlock (id seq : Nat) (reloc : Bool) (c : Chip) : Option (Nat × Chip) :=
  match c.store.erasedList with
  | [] => none
  | b :: rest =>
      let c := { c with store := { c.store with erasedList := rest } }
      let c := modBlock b (fun x => { x with state := .claimed, page := some id, seq := seq, committed := 0, used := 0 }) c
      let c := if reloc then c else modPage id (fun p => { p with blocks := p.blocks ++ [b] }) c
      some (b, match pageOf c id with | some pg => askProgram (.claim b reloc pg) c | none => c)

/-- A claim for the entry in work (R111, R115, R116): granted from the erased-block list; else STORE WAIT while the store has
something to erase; else STORE FULL, as for a 64th block. A granted claim queues the entry's program behind the header's; a
relocation's claim (R114) is not bound by the 63 blocks. -/
def tryClaim (r : Nat) (c : Chip) : Chip :=
  match c.store.work with
  | some w =>
      match w.page.bind (pageOf c) with
      | none => c
      | some pg =>
          let reloc := c.store.reloc.isSome
          if !reloc && decide (Config.pageBlocks ≤ pg.blocks.length) then meetFull r .pageLength c
          else
            let seq := match c.store.reloc with | some x => (blockAt c x.source).seq | none => pg.blocks.length
            match claimBlock pg.id seq reloc c with
            | some (b, c) =>
                let c := dropStall r .storeWait (setWork (some { w with needBlock := false }) c)
                match c.store.reloc with
                | some x => { c with store := { c.store with reloc := some { x with target := some b } } }
                | none => askProgram .entry c
            | none =>
                if hasToErase c then
                  let waits := match ctxOf c r with | some x => decide (Stall.storeWait ∈ x.stalls) | none => true
                  let c := setWork (some { w with needBlock := true }) (addStall r .storeWait c)
                  if waits then c else queueEvent (.storeWait r) c
                else meetFull r .blocks c
  | none => c

/-- The entry in work finds its place (R110 steps 2 and 3): the last block of its page while it is open and the entry fits,
else that block is closed FULL and a block is claimed. -/
def placeWork (r size : Nat) (c : Chip) : Chip :=
  match c.store.work with
  | some w =>
      match w.page.bind (pageOf c) with
      | none => c
      | some pg =>
          match lastBlock pg with
          | none => tryClaim r c
          | some b =>
              if (blockAt c b).state = .claimed then
                if (blockAt c b).used + size ≤ Config.areaBytes then askProgram .entry c
                else tryClaim r (askProgram (.closeFull b) (setBlockState b .full c))
              else tryClaim r c
  | none => c

/-- The Store Controller takes the next entry of the store sink into work (R96, R110, R113). -/
def takeEntry (r : Nat) (c : Chip) : Chip :=
  match ctxOf c r with
  | none => c
  | some x =>
      match x.storeQ with
      | [] => c
      | .line e :: _ =>
          let coded := match c.store.lane with
            | some l => if l.entry = e then l.coded else encodeLine (lineOf c e.slot)
            | none => encodeLine (lineOf c e.slot)
          let lane := match c.store.lane with | some l => if l.entry = e then none else some l | none => none
          let c := { c with store := { c.store with lane := lane } }
          let c := setWork (some ⟨some r, x.storePage, .line e coded, false⟩) c
          match x.storePage with
          | some _ => placeWork r (entrySize coded) c
          | none =>
              if canCreatePage c then
                let c := createPage r none c
                let id := match ctxOf c r with | some x => x.storePage | none => none
                placeWork r (entrySize coded) (setWork (some ⟨some r, id, .line e coded, false⟩) c)
              else meetFull r .directory c
      | .mark m :: _ =>
          match x.storePage with
          | none => serveMark .store r id c
          | some pid =>
              let c := endPage (some r) m.truncated (some m) pid c
              if c.store.work.isSome then c else serveMark .store r id c

/-- The store sink drains after STORE FULL (R116): the entry at the head is removed without programming; the first page mark
carries the truncated page's id, every mark is flagged TRUNCATED. -/
def drainEntry (r : Nat) (c : Chip) : Chip :=
  match ctxOf c r with
  | none => c
  | some x =>
      match x.storeQ, x.full with
      | .line _ :: _, _ => dropHead .store r { c with store := { c.store with lane := none } }
      | .mark _ :: _, some pid =>
          serveMark .store r (fun m => { m with truncated := true, pageId := pid })
            (modCtx r (fun x => { x with full := some none }) c)
      | _, _ => c

/-- The store-write lane takes into work the oldest line entry not yet handed (R96). -/
def fillLane (r : Nat) (c : Chip) : Chip :=
  match ctxOf c r with
  | none => c
  | some x =>
      let handed := match c.store.work with
        | some w => decide (w.route = some r)
        | none => false
      if c.store.lane.isSome then c
      else
        match firstLine (if handed then x.storeQ.drop 1 else x.storeQ) with
        | some e => { c with store := { c.store with lane := some ⟨e, encodeLine (lineOf c e.slot)⟩ } }
        | none => c

/-- The store sink serves its queue as far as it can go at once (R96, R110, R116): entries are taken while the Store Controller
has none in work; after STORE FULL they are removed. `fuel` bounds the entries. -/
def storeLoop (r : Nat) : Nat → Chip → Chip
  | 0, c => c
  | fuel + 1, c =>
      match ctxOf c r with
      | none => c
      | some x =>
          if x.storeQ.isEmpty then c
          else if x.full.isSome then storeLoop r fuel (drainEntry r c)
          else if c.store.work.isSome then c
          else storeLoop r fuel (takeEntry r c)

/-- The entries of a route that stand on its store queue and in its hold, and the page end a close may still add. -/
def storeFuel (x : Ctx) : Nat := x.storeQ.length + x.hold.length + 2

/-- The store sink of a route, and its lane (R96, R110). -/
def storePump (r : Nat) (c : Chip) : Chip :=
  match ctxOf c r with
  | none => c
  | some x => if x.sinks.contains .store then fillLane r (storeLoop r (storeFuel x) c) else c

/-! ## The LINK-out lane (R95) -/

/-- The link-out lane takes the head of the LINK sink's queue into work when it holds nothing (R95): a RAW line and a page end are
ready at once, a RUN line when its encoding ends. -/
def linkPump (c : Chip) : Chip :=
  match c.linkOut, routeOfSink c .link with
  | .idle, some r =>
      match ctxOf c r with
      | none => c
      | some x =>
          match x.linkQ with
          | .line e :: _ =>
              let coded := encodeFor x.encoding (lineOf c e.slot)
              if x.encoding = some .run then { c with linkOut := .encoding r e coded }
              else recordReady { c with linkOut := .line r e coded }
          | .mark m :: _ => recordReady { c with linkOut := .pageEnd r m.tag }
          | [] => c
  | _, _ => c

end Sys2Proof.Machine
end

