-- ==== Sys2Proof/Machine/Closing.lean ====
section
/-!
DEFINITION. The consequences of a change in a route's queues, and the close of a route (01_line_pool_and_routes.md R13), with
the standing request for the motor supply (03_motor_timing.md R68).
-/
namespace Sys2Proof.Machine

open Sys2Proof

/-! ## When a channel's start is due (R55 to R58) -/

/-- Steps of the forecast's lead before the first capturing period (R29): in PICKING and APPROACH the approach remaining. -/
def firstCapturing (sc : Capture) (linePos s : Nat) : Nat :=
  let rem := sc.approach.getD 0
  if linePos = 0 then 1 + ceilDiv rem s else max 1 (ceilDiv (rem + linePos) s)

/-- The capture forecast (R29): how many of the coming periods 1 to `n` will capture. -/
def forecast (sc : Capture) (linePos s n : Nat) : Nat :=
  match sc.state with
  | .picking => n + 1 - firstCapturing sc linePos s
  | .approach => n + 1 - firstCapturing sc linePos s
  | .capturing => n
  | _ => 0

/-- The line periods a decision covers from ramp index k (R55, R57): N = 1 + ceil(min(k + s, r) / s). -/
def coverOf (k s r : Nat) : Nat := 1 + ceilDiv (min (k + s) r) s

/-- The slots a scan decision at index k asks to stand on the reservation list (R55). -/
def scanNeed (c : Chip) (k : Nat) : Nat :=
  match c.scanCh.run with
  | some p => forecast c.scan c.scanCh.linePos p.steps (coverOf k p.steps p.r)
  | none => 0

/-- The route holding SCAN is not HALTED and the Scan Front End has asked for a start in a state that moves the sheet (R56). -/
def scanMayStart (c : Chip) : Bool :=
  decide (c.scanCh.motion = .halted) && c.scan.asked && c.scanCh.run.isSome &&
    (match c.scan.state with
     | .picking => true
     | .approach => true
     | .capturing => true
     | .tail => true
     | _ => false) &&
    (match c.scan.route with
     | some r => (ctxOf c r).isSome && !isHalted c r
     | none => false)

/-- The scan channel's start is due (R51, R56): the start rule holds, and the slots its decision asks for stand on the list or
would be granted. -/
def scanDue (c : Chip) : Bool :=
  scanMayStart c &&
    (match c.scan.route.bind (ctxOf c) with
     | some x =>
         decide (scanNeed c 0 ≤ x.reservations.length +
           min (x.quota - charged c (c.scan.route.getD 0)) c.pool.freeList.length)
     | none => false)

/-- The print lookahead (R17): the periods available, and whether a page mark is reached. -/
def lookahead (burns copies : Nat) : List Entry → Nat × Bool
  | [] => (0, false)
  | .mark _ :: _ => (0, true)
  | .line _ :: rest => (copies - burns + copies * (rest.takeWhile fun e => match e with | .line _ => true | .mark _ => false).length,
      rest.any fun e => match e with | .line _ => false | .mark _ => true)

/-- The print decision at index k (R57). -/
def printPasses (c : Chip) (k : Nat) : Bool :=
  match c.printCh.run with
  | some p =>
      let l := lookahead c.head.burns (headCopies c) (headEntries c)
      l.2 || decide (coverOf k p.steps p.r ≤ l.1)
  | none => false

/-- The print channel's start is due (R58). -/
def printDue (c : Chip) : Bool :=
  decide (c.printCh.motion = .halted) && c.printCh.tail.isNone && decide (c.head.cut = .none) && c.runOut.isNone &&
    (match c.head.route.bind (ctxOf c) with
     | some x => x.halt.isNone && decide (Stall.paperOut ∉ x.stalls) && !x.printQ.isEmpty
     | none => false) &&
    headReady c && printPasses c 0

/-- Whether either channel is energized (R68): its drive is FULL or HOLD, or its start is due. -/
def motorWanted (c : Chip) : Bool :=
  decide (c.scanCh.drive ≠ .off) || decide (c.printCh.drive ≠ .off) || scanDue c || printDue c

/-- The Motor Controller's standing request follows (R68, R147). -/
def syncMotor (c : Chip) : Chip :=
  let m := if motorWanted c then c.power.motor.request 2000 else c.power.motor.release (holdTime c 0)
  { c with power := { c.power with motor := m } }

/-! ## Closing (R13) -/

/-- Whether a route's source has nothing in progress (R13, R37; notes/assumptions/51.md). -/
def sourceIdle (r : Nat) (x : Ctx) (c : Chip) : Bool :=
  match x.source with
  | .scan => decide (c.scan.state = .ended) && c.scan.capture.isNone && (!c.scanCh.moving || !x.begun)
  | .link => !decodingFor c r
  | .store => !readInProgress c

/-- Whether a slot is RESERVED or FILLING for a route. -/
def Slot.pendingFor (r : Nat) : Slot → Bool
  | .reserved n => n == r
  | .filling n _ => n == r
  | _ => false

/-- Whether a route is empty (R13). -/
def routeEmpty (r : Nat) (x : Ctx) (c : Chip) : Bool :=
  x.printQ.isEmpty && x.linkQ.isEmpty && x.storeQ.isEmpty && x.hold.isEmpty &&
    !(c.pool.slots.any (Slot.pendingFor r)) && sourceIdle r x c

/-- A channel serves no route any more: its run parameters go with the route (R47). -/
def Channel.release (ch : Channel) : Channel := { ch with route := none, run := none }

/-- The SCAN endpoint is released (R25, R42): the capture state returns to IDLE with its Default values. -/
def releaseScan (c : Chip) : Chip :=
  let c := dropLamp c
  { c with scan := Capture.default, scanCh := c.scanCh.release }

/-- The PRINT endpoint is released (R70). -/
def releasePrint (c : Chip) : Chip :=
  let c := releaseHead c
  { c with printCh := c.printCh.release }

/-- A route becomes CLOSED (R13): its endpoints are released, its fields take their CLOSED values, ROUTE CLOSED is queued. -/
def closeRoute (r : Nat) (cause : CloseCause) (c : Chip) : Chip :=
  match ctxOf c r with
  | none => c
  | some x =>
      let c := setRoute r { getRoute c r with ctx := none } c
      let c := if x.source = .scan then releaseScan c else c
      let c := if x.sinks.contains .print then releasePrint c else c
      queueEvent (.routeClosed r cause) c

/-- A route with close requested and no halt becomes CLOSED as soon as it is empty (R13). -/
def closeIfEmpty (r : Nat) (c : Chip) : Chip :=
  match ctxOf c r with
  | none => c
  | some x => if x.closeReq && x.halt.isNone && routeEmpty r x c then closeRoute r .closed c else c

/-- What follows at once from a change in a route's queues: its store sink and the link-out lane take what they can, the head
finds its target, and the route closes if it is empty. -/
def pump (r : Nat) (c : Chip) : Chip := closeIfEmpty r (refreshLoad (linkPump (storePump r c)))

/-- The same, with the motor supply's request. -/
def settle (r : Nat) (c : Chip) : Chip := syncMotor (pump r c)

/-- The same for every route. -/
def settleAll (c : Chip) : Chip := syncMotor (routeNumbers.foldl (fun c r => pump r c) c)

end Sys2Proof.Machine
end

