-- ==== Sys2Proof/Machine/Scan.lean ====
section
/-!
DEFINITION. The Scan Front End (02_scan_path.md): the pixel arithmetic, the sheet cycle, captures, page ends, scan jams, and the
commands PICK_START, CAPTURE_END and the scan part of DOCP_CHANGE.
-/
namespace Sys2Proof.Machine

open Sys2Proof

/-! ## Pixels (R31 to R33) -/

/-- Correction of a sample by a shading entry (R31). -/
def correct (e : Shade) (x : Nat) : Nat := if x ≤ e.dark then 0 else min 255 ((x - e.dark) * e.gain / 256)

/-- The bilevel stage (R33) of a toned value at a pixel of an output line. -/
def bilevel (p : ScanParams) (dither : List Nat) (row i t : Nat) : Bool :=
  match p.mode with
  | .threshold => decide (t < p.threshold)
  | .dither => decide (t < dither.getD (8 * (row % 8) + i % 8) 0)

/-- One pixel from its sample (R30 to R33). -/
def pixelOf (t : ScanTables) (p : ScanParams) (row i : Nat) (sample : Byte) : Bool :=
  bilevel p t.dither row i (t.tone.getD (correct (t.shading.getD i ⟨0, 256⟩) sample.toNat) 0)

/-- The 1728 pixels of a captured line (R30). -/
def scanLine (t : ScanTables) (p : ScanParams) (row : Nat) (samples : List Byte) : Line :=
  (List.range lineWidth).map fun i => pixelOf t p row i (samples.getD i 0)

/-! ## Captures -/

/-- The scaling decision (R34): the accumulator after it, and whether the line is kept. -/
def scaleLine (acc q : Nat) : Nat × Bool := if 256 ≤ acc + q then (acc + q - 256, true) else (acc + q, false)

/-- The scan parameters of a route. -/
def scanParamsOf (c : Chip) (r : Nat) : Option ScanParams := (ctxOf c r).bind fun x => x.scanP

/-- A capture in progress is discarded and its slot returned (R4, R30); the page end that waited for it is made (R35). -/
def discardCapture (c : Chip) : Chip :=
  let due := c.scan.pageEndDue
  let c' := { c with scan := { c.scan with capture := none, captureLeft := 0, pageEndDue := false } }
  let c' := match c.scan.capture with
    | some (.keep n _) => returnSlot n c'
    | _ => c'
  match due, c.scan.route with
  | true, some r => pageEnd r false c'
  | _, _ => c'

/-- A capture begins at a line start in CAPTURING (R30, R34): the oldest reservation leaves the list, and the scaling decision is
taken at once; a dropped line returns its slot at once. -/
def beginCapture (c : Chip) : Chip :=
  match c.scan.state, c.scan.route with
  | .capturing, some r =>
      match ctxOf c r with
      | none => c
      | some x =>
          match x.reservations, x.scanP with
          | n :: rest, some p =>
              let c := match c.scan.capture with
                | some (.keep m _) => returnSlot m c
                | _ => c
              let s := scaleLine c.scan.acc p.q
              let c := setSlot n (.filling r none) (modCtx r (fun x => { x with reservations := rest }) c)
              let c := { c with scan := { c.scan with
                acc := s.1, capture := some (if s.2 then .keep n x.linesDone else .drop), captureLeft := Config.captureTime } }
              if s.2 then c else returnSlot n c
          | _, _ => c
  | _, _ => c

/-! ## The sheet cycle -/

/-- An OPEN with a SCAN source is accepted (R26): WAITING, with lamp use where a document is present. -/
def openScan (r : Nat) (c : Chip) : Chip :=
  let c := { c with scan := { Capture.default with state := .waiting, route := some r } }
  if c.pins.docp then takeLamp c else c

/-- The leading edge is seen (R27). -/
def leadingEdge (top : Nat) (sc : Capture) : Capture :=
  { sc with state := .approach, pageSteps := 0, approach := some top }

/-- The trailing edge is seen (R35). -/
def trailingEdge (r : Nat) (p : ScanParams) (c : Chip) : Chip :=
  let c := { c with scan := { c.scan with
    state := .tail, approach := none, tailRem := some p.tailLines, pageEndDue := c.scan.capture.isSome } }
  let c := returnReservations r c
  if c.scan.pageEndDue then c else pageEnd r false c

/-- A jam of a route brings its other channel down (R67). -/
def stopPrintFor (r : Nat) (c : Chip) : Chip :=
  if c.printCh.route = some r ∧ c.runOut.isNone then { c with printCh := c.printCh.stopFor .jam } else c

/-- A jam of a route brings its scan channel down (R67). -/
def stopScanFor (r : Nat) (c : Chip) : Chip :=
  if c.scanCh.route = some r then { c with scanCh := c.scanCh.stopFor .jam } else c

/-- A scan jam (R39): JAMMED, the capture discarded, the page ended TRUNCATED where it was under way, the route HALTED (JAM), JAM
queued, and the channels stopped (R67). -/
def scanJam (r : Nat) (onPage : Bool) (c : Chip) : Chip :=
  let c := { c with scan := { c.scan with state := .jammed, approach := none, rearmed := false } }
  let c := discardCapture c
  let c := if onPage then pageEnd r true c else c
  let c := queueEvent (.jam .scan r) (haltRoute r .jam c)
  stopPrintFor r (stopScan .jam c)

/-- What a step of the scan feed channel brings to the sheet, DOCE read after it (R27, R28, R35, R39). -/
def sheetStep (doce : Bool) (c : Chip) : Chip :=
  match c.scan.route with
  | none => c
  | some r =>
      match scanParamsOf c r with
      | none => c
      | some p =>
          match c.scan.state with
          | .picking =>
              let c := { c with scan := { c.scan with pickSteps := c.scan.pickSteps + 1 } }
              if doce then { c with scan := leadingEdge p.topOffset c.scan }
              else if p.pickLimit ≤ c.scan.pickSteps then scanJam r false c
              else c
          | .approach =>
              let c := { c with scan := { c.scan with
                pageSteps := c.scan.pageSteps + 1, approach := c.scan.approach.map (· - 1) } }
              if doce = false then trailingEdge r p c
              else if p.maxSteps ≤ c.scan.pageSteps then scanJam r true c
              else c
          | .capturing =>
              let c := { c with scan := { c.scan with pageSteps := c.scan.pageSteps + 1 } }
              if doce = false then trailingEdge r p c
              else if p.maxSteps ≤ c.scan.pageSteps then scanJam r true c
              else c
          | _ => c

/-- The Scan Front End's state changes due at a line start (R28, R36). -/
def sheetLineStart (c : Chip) : Chip :=
  match c.scan.state with
  | .approach =>
      if c.scan.approach = some 0 then
        { c with scan := { c.scan with state := .capturing, approach := none, acc := 0 } }
      else c
  | .tail =>
      match c.scan.tailRem with
      | some (n + 1) => { c with scan := { c.scan with tailRem := some n } }
      | _ => stopScan .stop { c with scan := { c.scan with state := .runout, tailRem := none } }
  | _ => c

/-- The end-of-sheet decision (R37). The next pick waits in WAITING for PICK_START. -/
def endOfSheet (c : Chip) : Chip :=
  match c.scan.route with
  | none => c
  | some r =>
      match ctxOf c r with
      | none => c
      | some x =>
          let multi := match x.scanP with | some p => p.multi | none => false
          if x.closeReq then endScanSource c
          else if multi && c.pins.docp then { c with scan := { c.scan with state := .waiting } }
          else
            let c := if c.pins.docp then c else queueEvent (.feederEmpty r) c
            modCtx r (fun x => { x with closeReq := true }) (endScanSource c)

/-- JAMMED is left (R40): the sheet is abandoned and the end-of-sheet decision taken. -/
def leaveJam (c : Chip) : Chip :=
  endOfSheet { c with scan := { c.scan with pageSteps := 0, pickSteps := 0, rearmed := false } }

/-- What the scan feed channel's halt means to the sheet cycle (R36, R40, R54): JAMMED is left where REARM has been accepted before. -/
def sheetHalted (c : Chip) : Chip :=
  match c.scan.state with
  | .runout => endOfSheet c
  | .jammed => if c.scan.rearmed then leaveJam c else c
  | _ => c

/-! ## Commands -/

/-- The conditions of a pick (R26, R37). -/
def pickReady (c : Chip) : Bool :=
  decide (c.scan.state = .waiting) && c.pins.docp && c.power.lamp.isOn && decide (c.scanCh.motion = .halted) &&
    (match c.scan.route.bind (ctxOf c) with
     | some x => x.halt.isNone
     | none => false)

/-- PICK_START on the part (R26, R62): PICKING, the line position 0, DOCE read once, and a start asked for. -/
def pickChip (doce : Bool) (c : Chip) : Chip :=
  match pickReady c, c.scan.route with
  | true, some r =>
      match scanParamsOf c r with
      | none => c
      | some p =>
          let sc := { c.scan with state := .picking, pickSteps := 0, approach := some (p.topOffset + 1), asked := true }
          let sc := if doce then leadingEdge p.topOffset sc else sc
          let c := { c with pins := { c.pins with doce := doce }, scan := sc,
                            scanCh := { c.scanCh with linePos := 0, rateReported := false } }
          syncMotor (modCtx r (fun x => { x with begun := true }) c)
  | _, _ => c

/-- CAPTURE_END on the part (R30, R35): a kept line completes its fill, and the page end that waited for it is made. -/
def captureChip (samples : List Byte) (c : Chip) : Chip :=
  match c.scan.capture, c.scan.route with
  | some k, some r =>
      let due := c.scan.pageEndDue
      let c := { c with scan := { c.scan with capture := none, captureLeft := 0, pageEndDue := false } }
      let c :=
        match k, scanParamsOf c r with
        | .keep n row, some p => fillComplete r n (scanLine c.tables p row samples) false c
        | .keep n _, none => returnSlot n c
        | .drop, _ => c
      settle r (if due then pageEnd r false c else c)
  | _, _ => c

/-- The scan side of a DOCP change (R26, R43): in WAITING, lamp use follows the document until the route's first pick. -/
def docpScan (c : Chip) : Chip :=
  if c.scan.state = .waiting then
    if c.pins.docp then takeLamp c
    else
      match c.scan.route.bind (ctxOf c) with
      | some x => if x.begun then c else dropLamp c
      | none => dropLamp c
  else c

end Sys2Proof.Machine
end

