-- ==== Sys2Proof/Machine/Motor.lean ====
section
/-!
DEFINITION. The Motor Controller (03_motor_timing.md): phases, steps, acceleration and deceleration, the scan reservation decision,
the print lookahead decision, tail feeds, halts, starts, and the commands CHANNEL_START, MOTOR_STEP and HOLD_EXPIRY.
-/
namespace Sys2Proof.Machine

open Sys2Proof

/-! ## The channel record -/

/-- The motor phases. -/
inductive Phase where
  | a
  | b
  | c
  | d
  deriving DecidableEq, Repr

/-- The outputs on at a phase position (R48). -/
def phaseOutputs (pos : Nat) : List Phase :=
  match pos % 8 with
  | 0 => [.a]
  | 1 => [.a, .b]
  | 2 => [.b]
  | 3 => [.b, .c]
  | 4 => [.c]
  | 5 => [.c, .d]
  | 6 => [.d]
  | _ => [.d, .a]

/-- The phase outputs a channel drives (R48): the present position's with drive FULL or HOLD, none with drive OFF. -/
def Channel.outputs (ch : Channel) : List Phase := if ch.drive = .off then [] else phaseOutputs ch.phase

/-- The interval of a ramp table entry. -/
def Channel.entry (ch : Channel) (i : Nat) : Nat := ch.ramp.getD i 0

/-- The smallest index whose entry is at most `u`, or the length where none is (R50). -/
def runIndex (ramp : List Nat) (u : Nat) : Nat := ramp.findIdx fun e => decide (e ≤ u)

/-- The last entry of a ramp table. -/
def lastEntry (ramp : List Nat) : Nat := ramp.getLastD 0

/-- The line period of a route raised for a channel's ramp (R50). -/
def raisePeriod (ramp : List Nat) (period s : Nat) : Nat :=
  if lastEntry ramp ≤ period / s then period else s * lastEntry ramp

/-- The run parameters of a channel at a line period (R50). -/
def runParams (ramp : List Nat) (period s : Nat) : RunParams :=
  { period := period, steps := s, u := period / s, r := runIndex ramp (period / s) }

/-- A channel takes up a route at OPEN (R50, R62). A channel at rest begins a line. -/
def Channel.takeUp (ch : Channel) (r period s : Nat) : Channel :=
  { ch with route := some r, run := some (runParams ch.ramp period s), rateReported := false,
            linePos := if ch.moving then ch.linePos else 0 }

/-- One step (R48, R52, R53): the phase moves on, the ramp index and a tail feed's remainder follow the step under way, the line
position rises and returns to 0 at the line's last step. Answers whether this moment is a line start. A channel that runs down with no
route steps through no line (notes/assumptions/17.md). -/
def Channel.step (ch : Channel) : Channel × Bool :=
  let r := match ch.run with | some p => p.r | none => 0
  let k := match ch.mode with | .up => ch.k + 1 | .level => ch.k | .down => ch.k - 1
  let motion := if ch.mode = .up ∧ k = r ∧ ch.motion = .accelerating then .running else ch.motion
  let start := match ch.run with | some p => decide (p.steps ≤ ch.linePos + 1) | none => false
  let pos := if start then 0 else match ch.run with | some _ => ch.linePos + 1 | none => ch.linePos
  ({ ch with phase := (ch.phase + 1) % 8, k := k, motion := motion, linePos := pos,
             tail := ch.tail.map (· - 1) }, start)

/-- A recorded stop cause begins its deceleration (R53). -/
def Channel.takeCause (ch : Channel) : Channel :=
  match ch.motion, ch.cause with
  | .accelerating, some _ => { ch with motion := .decelerating }
  | .running, some _ => { ch with motion := .decelerating }
  | _, _ => ch

/-- A deceleration begins now (R53). -/
def Channel.decelerate (cause : StopCause) (ch : Channel) : Channel :=
  { ch with motion := .decelerating, cause := some cause }

/-- Whether a decelerating channel has reached its halt (R53). -/
def Channel.atHalt (ch : Channel) : Bool := decide (ch.motion = .decelerating ∧ ch.k = 0)

/-- The next step is begun (R52, R53, R59): its interval, and what the ramp index does at its end. In a tail feed the channel
decelerates when the remainder equals the ramp index. -/
def Channel.plan (ch : Channel) : Channel :=
  match ch.motion, ch.run with
  | .decelerating, _ => { ch with mode := .down, left := ch.entry (ch.k - 1) }
  | .accelerating, some p =>
      match ch.tail with
      | some t =>
          if t = ch.k then { ch with motion := .decelerating, cause := some .tail, mode := .down, left := ch.entry (ch.k - 1) }
          else if ch.k < p.r ∧ ch.k + 2 ≤ t then { ch with mode := .up, left := ch.entry ch.k }
          else { ch with mode := .level, left := if ch.k = p.r then p.u else ch.entry ch.k }
      | none => { ch with mode := .up, left := ch.entry ch.k }
  | .running, some p =>
      match ch.tail with
      | some t =>
          if t = ch.k then { ch with motion := .decelerating, cause := some .tail, mode := .down, left := ch.entry (ch.k - 1) }
          else { ch with mode := .level, left := p.u }
      | none =>
          { ch with mode := .level, left := p.u + if ch.linePos + 1 = p.steps then p.period % p.steps else 0 }
  | _, _ => ch

/-- A channel halts after a deceleration (R54): HALTED, drive HOLD, 200 ms of hold. -/
def Channel.halt (ch : Channel) : Channel :=
  { ch with motion := .halted, drive := .hold, k := 0, holdLeft := Config.standstill, cause := none, tail := none,
            mode := .level, left := 0 }

/-- A channel starts (R51): the hold ends, drive FULL, ramp index 0. -/
def Channel.begin (ch : Channel) : Channel :=
  { ch with motion := (match ch.run with | some p => if p.r = 0 then .running else .accelerating | none => .accelerating),
            drive := .full, k := 0, holdLeft := 0, cause := none }

/-- A channel trips (R63). -/
def Channel.trip (ch : Channel) : Channel :=
  { ch with motion := .tripped, drive := .off, k := 0, holdLeft := 0, cause := none, tail := none, mode := .level, left := 0 }

/-- A TRIPPED channel becomes HALTED with drive OFF (R64, R66). -/
def Channel.untrip (ch : Channel) : Channel :=
  if ch.motion = .tripped then { ch with motion := .halted, drive := .off, k := 0 } else ch

/-- A channel stops at once, without deceleration (R69, RESTART). -/
def Channel.stopDead (ch : Channel) : Channel :=
  { ch with motion := .halted, drive := .off, route := none, k := 0, run := none, linePos := 0, holdLeft := 0, cause := none,
            tail := none, rateReported := false, mode := .level, left := 0 }

/-! ## Rate events (R62) -/

/-- A deceleration with stop cause DENIED begins on the scan channel, and RATE LIMITED is queued once a page (R55, R62). -/
def denyScan (c : Chip) : Chip :=
  let c' := { c with scanCh := { c.scanCh.decelerate .denied with rateReported := true } }
  if c.scanCh.rateReported then c' else queueEvent (.rateLimited (c.scanCh.route.getD 0) .scan) c'

/-- The same on the print channel (R57, R62). -/
def denyPrint (c : Chip) : Chip :=
  let c' := { c with printCh := { c.printCh.decelerate .denied with rateReported := true } }
  if c.printCh.rateReported then c' else queueEvent (.rateLimited (c.printCh.route.getD 0) .print) c'

/-! ## The scan channel -/

/-- Takes up to `n` reservations for a route, stopping at the first denial (R16, R55). -/
def takeReservations (r : Nat) : Nat → Chip → Chip
  | 0, c => c
  | n + 1, c =>
      match takeSlot r (.reserved) c with
      | none => c
      | some (k, c) => takeReservations r n (modCtx r (fun x => { x with reservations := x.reservations ++ [k] }) c)

/-- The reservation list of a route. -/
def reservationsOf (c : Chip) (r : Nat) : List Nat := match ctxOf c r with | some x => x.reservations | none => []

/-- Asks for the slots a decision at index `k` needs, and answers whether the list then holds them (R55). -/
def reserveFor (r k : Nat) (c : Chip) : Chip × Bool :=
  let need := scanNeed c k
  let c := takeReservations r (need - (reservationsOf c r).length) c
  (c, decide (need ≤ (reservationsOf c r).length))

/-- The scan channel's line start (R28, R36, R55, R30): the Scan Front End's state changes, the decision of a channel that is not
decelerating, and the capture; a failed decision at index 0 halts the channel with no capture. -/
def scanLineStart (c : Chip) : Chip :=
  let c := sheetLineStart c
  let c := { c with scanCh := c.scanCh.takeCause }
  let c :=
    match c.scanCh.motion, c.scanCh.route with
    | .decelerating, _ => c
    | _, some r =>
        let d := reserveFor r c.scanCh.k c
        if d.2 then d.1 else denyScan d.1
    | _, none => c
  if c.scanCh.atHalt then c else beginCapture c

/-- The scan channel halts (R54): the reservations are returned, then the Scan Front End takes the halt. -/
def haltScan (c : Chip) : Chip :=
  let c := { c with scanCh := c.scanCh.halt }
  let c := match c.scan.route with | some r => returnReservations r c | none => c
  sheetHalted c

/-- The end of the handling of a step or start: the halt, or the next step. -/
def scanOnward (c : Chip) : Chip :=
  if c.scanCh.atHalt then haltScan c else { c with scanCh := c.scanCh.plan }

/-- What follows a change on the scan side. -/
def settleScan (c : Chip) : Chip := match c.scan.route with | some r => settle r c | none => syncMotor c

/-- A step of the scan feed channel (R52 to R55, R27 to R30). A step that ends at the channel's halt takes no line start: the
next start takes it. -/
def scanStep (doce : Bool) (c : Chip) : Chip :=
  if c.scanCh.moving then
    let st := c.scanCh.step
    let c := sheetStep doce { c with scanCh := st.1, pins := { c.pins with doce := doce } }
    let c := { c with scanCh := c.scanCh.takeCause }
    let c := if st.2 && !c.scanCh.atHalt then scanLineStart c else c
    settleScan (scanOnward c)
  else c

/-- A start of the scan feed channel (R51, R56): the reservations of the start decision are asked for; a start that passes runs
from ramp index 0 once the motor domain is on, and begins a line where the line position is 0. -/
def scanStart (c : Chip) : Chip :=
  match scanMayStart c, c.scan.route with
  | true, some r =>
      let d := reserveFor r 0 c
      let c := d.1
      if d.2 && c.power.motor.isOn then
        let line := decide (c.scanCh.linePos = 0)
        let c := { c with scanCh := c.scanCh.begin }
        let c := if line then
            let c := sheetLineStart c
            let c := { c with scanCh := c.scanCh.takeCause }
            if c.scanCh.atHalt then c else beginCapture c
          else c
        settleScan (scanOnward c)
      else syncMotor c
  | _, _ => syncMotor c

/-! ## The print channel -/

/-- The last feed step of a line's last repeat drops its reference (R5, R74 step 1), from the print queue or from the entries kept
for a print run-out. -/
def dropBurned (c : Chip) : Chip :=
  if c.head.burns < headCopies c then c
  else
    match c.runOut with
    | some ro =>
        match ro.entries with
        | e :: rest =>
            refreshLoad (dropReference e.slot { c with
              runOut := some { ro with entries := rest }, head := { c.head with burns := 0 } })
        | [] => c
    | none =>
        match c.head.route, headEntries c with
        | some r, .line _ :: _ => refreshLoad (dropHead .print r { c with head := { c.head with burns := 0 } })
        | _, _ => c

/-- The tail feed steps of the route holding PRINT (R59). -/
def tailFeedOf (c : Chip) : Nat :=
  match c.head.route.bind (ctxOf c) with
  | some x => match x.printP with | some p => p.tailFeed | none => 0
  | none => 0

/-- A tail feed begins for the page mark at the head of the queue (R59). -/
def beginTail (c : Chip) : Chip := { c with printCh := { c.printCh with tail := some (tailFeedOf c) } }

/-- The print channel's line start (R57, R59, R60, R61, R74): the reference of a finished line, the decision, the burn. With an empty queue the
decision is taken and fails (DESIGN CHOICE, notes/assumptions/71.md). In a JAM run-down (R67) a mark at the head begins no tail feed: after
REARM the whole of it is fed (DESIGN CHOICE, notes/assumptions/72.md). -/
def printLineStart (therm : Byte) (c : Chip) : Chip :=
  if c.printCh.cause = some .paperOut then c
  else
    let c := dropBurned c
    match c.printCh.motion with
    | .decelerating =>
        if c.printCh.k = 0 then c
        else
          match c.printCh.cause with
          | some .tail => c
          | some .abort => if c.runOut.isSome then beginBurn therm c else c
          | _ => beginBurn therm c
    | _ =>
        if c.printCh.tail.isSome then c
        else
          match headEntries c with
          | .mark _ :: _ => beginTail c
          | _ =>
              if printPasses c c.printCh.k then beginBurn therm c
              else
                let c := denyPrint c
                if c.printCh.k = 0 then c else beginBurn therm c

/-- A print run-out ends (R61): the references still held are dropped, PRINT is released, the line position is 0. The slots return in the
order of the kept lines (DESIGN CHOICE, notes/assumptions/80.md). -/
def endRunOut (c : Chip) : Chip :=
  match c.runOut with
  | none => c
  | some ro =>
      let c := ro.entries.foldl (fun c e => dropReference e.slot c) { c with runOut := none }
      let c := releasePrint c
      { c with printCh := { c.printCh with linePos := 0 } }

/-- The print channel halts (R54, R59 to R61, R79): a run-out ends; the end of a tail feed sets the line position to 0 and leads to the
cut, whatever stop cause was recorded in its deceleration (notes/assumptions/23.md), and a tail feed cut short does neither. -/
def haltPrint (c : Chip) : Chip :=
  let cause := c.printCh.cause
  let fed := decide (c.printCh.tail = some 0)
  let zero := fed || decide (cause = some .paperOut ∨ cause = some .abort ∨ cause = some .tail)
  let c := { c with printCh := { c.printCh.halt with linePos := if zero then 0 else c.printCh.linePos } }
  let c := endRunOut c
  match fed, headEntries c with
  | true, .mark _ :: _ => beginCut c
  | _, _ => c

/-- The end of the handling of a step or start: the tail's deceleration and halt, or the next step. -/
def printOnward (c : Chip) : Chip :=
  if c.printCh.atHalt then haltPrint c
  else
    let c := { c with printCh := c.printCh.plan }
    if c.printCh.atHalt then haltPrint c else c

/-- What follows a change on the print side. -/
def settlePrint (c : Chip) : Chip := match c.head.route with | some r => settle r (refreshLoad c) | none => syncMotor c

/-- A step of the print feed channel (R52 to R54, R57 to R61). -/
def printStep (therm : Byte) (c : Chip) : Chip :=
  if c.printCh.moving then
    let st := c.printCh.step
    let c := { c with printCh := st.1.takeCause }
    let c := if st.2 then printLineStart therm c else c
    settlePrint (printOnward c)
  else c

/-- A start of the print feed channel (R51, R58, R59): with a page mark at the head, the start of its tail feed; else a line start
with a burn where the line position is 0, or the line in progress. -/
def printStart (therm : Byte) (c : Chip) : Chip :=
  if printDue c && c.power.motor.isOn then
    let c := { c with printCh := c.printCh.begin }
    let c :=
      match headEntries c with
      | .mark _ :: _ => beginTail c
      | _ => if c.printCh.linePos = 0 then beginBurn therm c else c
    settlePrint (printOnward c)
  else syncMotor c

/-! ## Commands -/

/-- MOTOR_STEP on the part. -/
def stepChip (ch : ChannelId) (doce : Bool) (therm : Byte) (c : Chip) : Chip :=
  match ch with
  | .scan => scanStep doce c
  | .print => printStep therm c

/-- CHANNEL_START on the part. -/
def startChip (ch : ChannelId) (therm : Byte) (c : Chip) : Chip :=
  match ch with
  | .scan => scanStart c
  | .print => printStart therm c

/-- A standstill hold runs out (R54). -/
def Channel.holdOver (ch : Channel) : Channel :=
  if ch.motion = .halted ∧ ch.drive = .hold then { ch with drive := .off, holdLeft := 0 } else ch

/-- HOLD_EXPIRY on the part (R54, R68). -/
def holdChip (ch : ChannelId) (c : Chip) : Chip :=
  match ch with
  | .scan => syncMotor { c with scanCh := c.scanCh.holdOver }
  | .print => syncMotor { c with printCh := c.printCh.holdOver }

/-- The channels' tripped indication (R64). -/
def tripped (c : Chip) : Bool := decide (c.scanCh.motion = .tripped ∨ c.printCh.motion = .tripped)

end Sys2Proof.Machine
end

