-- ==== Sys2Proof/Machine/Flags.lean ====
section
/-!
DEFINITION. What the part shows of itself: the state and reason of a route (R12), the store state (R108), the STATUS and
DIRECTORY ENTRY payloads (11_record_and_format_reference.md 11.4), and the levels of the output pins.
-/
namespace Sys2Proof.Machine

open Sys2Proof

/-! ## Routes (R12) -/

/-- The route states, in the order of their codes (11.2). -/
inductive RouteState where
  | closed
  | opened
  | running
  | stalled
  | halted
  | draining
  deriving DecidableEq, Repr

/-- The route reasons, in the order of their codes (11.2). -/
inductive RouteReason where
  | none_
  | paperOut
  | storeWait
  | interlock
  | jam
  deriving DecidableEq, Repr

/-- The state of a route (R12). -/
def Route.state (x : Route) : RouteState :=
  match x.ctx with
  | none => .closed
  | some c =>
      if c.halt.isSome then .halted
      else if !c.begun then .opened
      else if !c.stalls.isEmpty then .stalled
      else if c.closeReq then .draining
      else .running

/-- The reason of a route (R12): of its halt, or the oldest stall condition while it is STALLED. -/
def Route.reason (x : Route) : RouteReason :=
  match x.ctx with
  | none => .none_
  | some c =>
      match c.halt with
      | some .interlock => .interlock
      | some .jam => .jam
      | none =>
          if c.begun then
            match c.stalls with
            | .paperOut :: _ => .paperOut
            | .storeWait :: _ => .storeWait
            | [] => .none_
          else .none_

def RouteState.code : RouteState → Byte
  | .closed => 0
  | .opened => 1
  | .running => 2
  | .stalled => 3
  | .halted => 4
  | .draining => 5

def RouteReason.code : RouteReason → Byte
  | .none_ => 0
  | .paperOut => 1
  | .storeWait => 2
  | .interlock => 3
  | .jam => 4

/-! ## The store (R108) -/

/-- The store states, in the order of the table of R108. -/
inductive StoreState where
  | scanning
  | lockErase
  | totalErase
  | eraseSuspended
  | reading
  | programming
  | erasing
  | idle
  deriving DecidableEq, Repr

def StoreState.code : StoreState → Byte
  | .scanning => 0
  | .lockErase => 1
  | .totalErase => 2
  | .eraseSuspended => 3
  | .reading => 4
  | .programming => 5
  | .erasing => 6
  | .idle => 7

/-- Whether a job is of the read class (R109). -/
def Job.isRead : Job → Bool
  | .lineRead => true
  | .relocRead => true
  | .imageRead => true
  | _ => false

/-- The store state by the table of R108. While the header program of state bad runs, which the table does not name, it is ERASING
(DESIGN CHOICE, notes/assumptions/53.md). -/
def storeState (s : Store) : StoreState :=
  match s.op with
  | .scanning => .scanning
  | .lockErase _ => .lockErase
  | .totalBlocks => .totalErase
  | .totalLock => .totalErase
  | .totalKey => .totalErase
  | .none =>
      match s.erase.map EraseProg.phase, s.holder with
      | some (.suspended _), _ => .eraseSuspended
      | _, some j => if j.isRead then .reading else .programming
      | some .queued, none => .idle
      | some _, none => .erasing
      | none, none => .idle

/-- Whether an image check has a read job that holds the flash or waits for it (R166). -/
def checkReading (c : Chip) : Bool :=
  c.boot.check.isSome && (decide (c.store.holder = some .imageRead) || c.store.reads.contains .imageRead)

/-- The store state that STATUS shows: by R108, and READING while the reads of an image check are held or wait (R166). The two rules
disagree where such a read waits or an erase is suspended for it, and R166 is followed there; where it waits during the scan, CLEAR LOCKS or
TOTAL ERASE, the state that R108 and R138 give is shown (DEDUCED, notes/assumptions/55.md). -/
def shownState (c : Chip) : StoreState :=
  if c.store.op = .none ∧ checkReading c = true then .reading else storeState c.store

/-- SCANNING or TOTAL ERASE: what an OPEN with a store endpoint, a REDIRECT and a listing are refused BUSY for. -/
def scanOrTotal (c : Chip) : Bool := decide (storeState c.store = .scanning ∨ storeState c.store = .totalErase)

/-- SCANNING, LOCK ERASE or TOTAL ERASE: what the store's own directives are refused BUSY for. -/
def storeTaken (c : Chip) : Bool := scanOrTotal c || decide (storeState c.store = .lockErase)

/-! ## STATUS (11.4) -/

/-- Six bytes of a route: state, reason, pages done, lines done. -/
def statusRoute (x : Route) : List Byte :=
  [x.state.code, x.reason.code] ++ leBytes 2 x.pagesDone ++ leBytes 2 (match x.ctx with | some c => c.linesDone | none => 0)

/-- A byte with bit i set where entry i is true. -/
def bitByte (bs : List Bool) : Byte := byteOf (bs.foldr (fun b n => 2 * n + (if b then 1 else 0)) 0)

/-- The 37 bytes of a STATUS payload. -/
def statusPayload (c : Chip) : List Byte :=
  [powerCode c.power.state] ++ statusRoute (getRoute c 0) ++ statusRoute (getRoute c 1) ++ statusRoute (getRoute c 2) ++
    statusRoute (getRoute c 3) ++
    [(shownState c).code,
     bitByte [c.store.programFault, c.store.eraseFault, c.store.sequenceFault, c.store.protectionFault],
     byteOf c.store.erasedList.length, byteOf c.store.eraseQueue.length, byteOf c.store.dir.length,
     serviceCode c.prot.service, byteOf c.prot.failures,
     bitByte [c.pins.docp, c.pins.doce, c.pins.papp, c.pins.papx, c.pins.cover],
     yesNo (tripped c), byteOf c.head.band, yesNo c.link.eventsLost, yesNo c.link.pulseMode]

/-! ## DIRECTORY ENTRY (11.4) -/

/-- The payload of a page's DIRECTORY ENTRY: the installed indication and image result stand with the installed page. -/
def pagePayload (b : Boot) (p : Page) : List Byte :=
  let inst := decide (b.installed = some p.id ∧ p.origin = .boot)
  leBytes 2 p.id ++
    [if p.writing then 0 else 1, originCode p.origin, pageFlags p.truncated p.interrupted p.isPartial] ++
    leBytes 3 p.lines ++ [byteOf p.steps] ++ leBytes 4 p.creation ++ leBytes 2 (p.partialStart.getD 0xFFFF) ++
    [yesNo inst, if inst then imageCode b.result else 0, byteOf p.label.length] ++ p.label ++
    (byteOf p.blocks.length :: p.blocks.map byteOf)

/-! ## Output pins -/

/-- Whether HRSTN is asserted (R149): some request is in the set. -/
def hrstnAsserted (c : Chip) : Bool :=
  c.power.wakeHold || c.power.bootHold || c.power.pulseHold.isSome || c.power.sleepHold

/-- Whether the pin groups of the park table are in their park modes: from sleep entry to the start of the main clock
(R157, R160). -/
def parked (c : Chip) : Bool := !c.power.clockOn

/-- The park mode of a pin group while the pins are parked (R153). -/
def groupPark (c : Chip) (g : Nat) : Option ParkMode := if parked c then c.power.park[g]? else none

/-- Whether the LINK-out lane has a record ready, a record in part included (R183, R184). -/
def linkOutReady (c : Chip) : Bool :=
  match c.linkOut with
  | .line _ _ _ => true
  | .pageEnd _ _ => true
  | .padding _ _ => true
  | .orphanEnd _ => true
  | _ => false

/-- Whether ATN is asserted, while it is driven (R184). -/
def atnAsserted (c : Chip) : Bool :=
  if c.link.pulseMode then decide (0 < c.link.atnLeft) else !c.link.reports.isEmpty || linkOutReady c

/-- Whether LDO is driven (R175): with LSEL asserted, and not in its park mode. -/
def ldoDriven (c : Chip) : Bool := c.link.selected && !parked c

/-- The phase outputs that a channel's pins show (R48): none while its pins are parked or the motor supply is off. -/
def phasePins (c : Chip) (ch : ChannelId) : List Phase :=
  if parked c || !c.power.motor.isOn then []
  else match ch with | .scan => c.scanCh.outputs | .print => c.printCh.outputs

/-- The strobe output that is on (R77). -/
def strobePin (c : Chip) : Option Nat := if parked c then none else c.head.strobe.map Prod.fst

/-- Whether CUT is driven on (R79). -/
def cutPin (c : Chip) : Bool := decide (c.head.cut = .pulse) && !parked c

/-- Whether LAMP is driven on (R43, R147). -/
def lampPin (c : Chip) : Bool := c.power.lamp.isOn && !parked c

/-- A supply switch of a domain (R147): on in every state but OFF. -/
def Domain.switch : Domain → Bool
  | .off => false
  | _ => true

/-- The pull of a wake input: pulled up where its entry's polarity is FALLING (R150). `i` is 0 RING, 1 KEY, 2 HOOK. -/
def pulledUp (c : Chip) (i : Nat) : Bool := match c.power.wake[i]? with | some e => !e.rising | none => true

end Sys2Proof.Machine
end

