-- ==== Sys2Proof/Machine/Tables.lean ====
section
/-!
DEFINITION. The LOAD directives (R45, R49, R78, R152, R153): what each table's owner checks, and what it writes.
-/
namespace Sys2Proof.Machine

open Sys2Proof

/-- A LOAD of the table with the given code (R179): the offset in entries and the data are handed to the owner; a payload
without them, or one that names another table, is MALFORMED. -/
def withLoad (code : Byte) (p : List Byte) (f : Nat → List Byte → Chip → Chip) (c : Chip) : Chip :=
  if p.length < 4 ∨ byteAt p 1 ≠ code then refuse p .malformed c else f (numAt p 2 2) (p.drop 4) c

/-- Cuts data into `n` entries of `w` bytes. -/
def entriesOf (w : Nat) : Nat → List Byte → List (List Byte)
  | 0, _ => []
  | n + 1, d => d.take w :: entriesOf w n (d.drop w)

/-- The 2-byte entries of data. -/
def wordsOf (d : List Byte) : List Nat := (entriesOf 2 (d.length / 2) d).map ofLe

/-- Writes entries into a table from an offset. -/
def writeAt {α : Type} (xs : List α) (off : Nat) (new : List α) : List α := xs.take off ++ new ++ xs.drop (off + new.length)

/-- Whether a route that is not CLOSED has a SCAN source (R45, R49). -/
def scanBusy (c : Chip) : Bool := (routeOfSource c .scan).isSome

/-- Whether a route that is not CLOSED has a PRINT sink, or a print run-out is under way (R49, R78). -/
def printBusy (c : Chip) : Bool := (routeOfSink c .print).isSome || c.runOut.isSome

/-- A LOAD of a table of the Scan Front End (R45): `w` bytes to the entry, `n` entries; `write` puts the data in place. One with no data is
checked like any other (DEDUCED, notes/assumptions/77.md). -/
def loadScanTable (w n : Nat) (p : List Byte) (write : Nat → List Byte → ScanTables → ScanTables) (off : Nat)
    (d : List Byte) (c : Chip) : Chip :=
  if d.length % w ≠ 0 ∨ 512 < d.length ∨ n < off + d.length / w then refuse p .malformed c
  else if scanBusy c then refuse p .busy c
  else reply p .accepted { c with tables := write off d c.tables }

/-- The shading entries of data: dark level, then gain (R44). -/
def shadesOf (d : List Byte) : List Shade := (entriesOf 3 (d.length / 3) d).map fun e => ⟨numAt e 0 1, numAt e 1 2⟩

/-- LOAD shading (R45). -/
def loadShadingChip (p : List Byte) (c : Chip) : Chip :=
  withLoad 0x01 p
    (loadScanTable 3 1728 p fun off d t => { t with shading := writeAt t.shading off (shadesOf d) }) c

/-- LOAD tone (R45). -/
def loadToneChip (p : List Byte) (c : Chip) : Chip :=
  withLoad 0x02 p
    (loadScanTable 1 256 p fun off d t => { t with tone := writeAt t.tone off (d.map BitVec.toNat) }) c

/-- LOAD dither (R45). -/
def loadDitherChip (p : List Byte) (c : Chip) : Chip :=
  withLoad 0x03 p
    (loadScanTable 1 64 p fun off d t => { t with dither := writeAt t.dither off (d.map BitVec.toNat) }) c

/-! ## Ramps (R49) -/

/-- Each entry larger than the one before it is lowered to that one (R49 step 4). -/
def lowerFrom : Option Nat → List Nat → List Nat
  | _, [] => []
  | none, x :: xs => x :: lowerFrom (some x) xs
  | some y, x :: xs => min y x :: lowerFrom (some (min y x)) xs

/-- The ramp table after a LOAD of `new` at `off` (R49). -/
def loadedRamp (ramp : List Nat) (off : Nat) (new : List Nat) : List Nat :=
  let base := ramp.take off
  base ++ lowerFrom base.getLast? (new.map (clamp 500 20000))

/-- Whether a ramp LOAD's place and length are in order (R49 check 1). -/
def rampFits (ramp : List Nat) (off : Nat) (d : List Byte) : Bool :=
  decide (d.length % 2 = 0 ∧ d.length ≤ 512 ∧ off ≤ ramp.length ∧ off + d.length / 2 ≤ 32)

/-- The outcome of a LOAD whose held entries are, or are not, as they were sent. -/
def loadAnswer (same : Bool) : Answer := if same then .accepted else .adjusted

/-- The ramp after an accepted LOAD of entries, and its outcome (R49 steps 1 to 4). -/
def applyRamp (ramp : List Nat) (off : Nat) (d : List Byte) : List Nat × Answer :=
  let held := loadedRamp ramp off (wordsOf d)
  (held, loadAnswer (decide (held = ramp.take off ++ wordsOf d)))

/-- A LOAD of a ramp (R49), which `busy` holds back and `write` puts in place. One that carries no entry passes both checks and changes
nothing, whatever its offset and whatever the channel does. -/
def loadRamp (p : List Byte) (ramp : List Nat) (busy : Bool) (write : List Nat → Chip) (off : Nat) (d : List Byte) (c : Chip) : Chip :=
  if d.isEmpty then reply p .accepted c
  else if !rampFits ramp off d then refuse p .malformed c
  else if busy then refuse p .busy c
  else reply p (applyRamp ramp off d).2 (write (applyRamp ramp off d).1)

/-- Whether a channel is HALTED or TRIPPED. -/
def Channel.atRest (ch : Channel) : Bool := decide (ch.motion = .halted ∨ ch.motion = .tripped)

/-- LOAD scan ramp (R49). -/
def loadScanRampChip (p : List Byte) (c : Chip) : Chip :=
  withLoad 0x04 p
    (loadRamp p c.scanCh.ramp (scanBusy c || !c.scanCh.atRest) fun t => { c with scanCh := { c.scanCh with ramp := t } }) c

/-- LOAD print ramp (R49). -/
def loadPrintRampChip (p : List Byte) (c : Chip) : Chip :=
  withLoad 0x05 p
    (loadRamp p c.printCh.ramp (printBusy c || !c.printCh.atRest) fun t => { c with printCh := { c.printCh with ramp := t } }) c

/-! ## Heat (R78) -/

/-- Each threshold less than the one before it is raised to that one (R78 step 3). -/
def raiseFrom : Option Nat → List Nat → List Nat
  | _, [] => []
  | none, x :: xs => x :: raiseFrom (some x) xs
  | some y, x :: xs => max y x :: raiseFrom (some (max y x)) xs

/-- The range of heat table entry `i` (R78 step 2). -/
def heatClamp (i v : Nat) : Nat := if i < 7 then min 255 v else clamp 100 4000 v

/-- The 15 heat entries after steps 1 and 2 (R78). -/
def heatClamped (t : HeatTable) (off : Nat) (new : List Nat) : List Nat :=
  writeAt (t.thresholds ++ t.times) off ((List.range new.length).zip new |>.map fun x => heatClamp (off + x.1) x.2)

/-- The heat table after an accepted LOAD, and its outcome (R78). -/
def applyHeat (t : HeatTable) (off : Nat) (new : List Nat) : HeatTable × Answer :=
  if new.isEmpty then (t, .accepted)
  else
    let all := heatClamped t off new
    let low := all.take 7
    let high := if off < 7 then low.take off ++ raiseFrom (low.take off).getLast? (low.drop off) else low
    let held : HeatTable := ⟨high, all.drop 7⟩
    (held, loadAnswer (decide (held.thresholds ++ held.times = writeAt (t.thresholds ++ t.times) off new)))

/-- LOAD heat (R78). One with no entry is checked like any other (DEDUCED, notes/assumptions/77.md). -/
def loadHeatChip (p : List Byte) (c : Chip) : Chip :=
  withLoad 0x06 p (fun off d c =>
    if d.length % 2 ≠ 0 ∨ 15 < off + d.length / 2 then refuse p .malformed c
    else if printBusy c then refuse p .busy c
    else
      let x := applyHeat c.heat off (wordsOf d)
      reply p x.2 { c with heat := x.1 }) c

/-! ## Park (R153) -/

/-- A mode as a group takes it: the open-drain groups 3 and 5 take HIGH as FLOAT (R153). -/
def parkHeld (group : Nat) (m : ParkMode) : ParkMode := if (group = 3 ∨ group = 5) ∧ m = .high then .float else m

/-- Whether every byte loaded at entries 0 to 7 is a mode (R153). -/
def parkDefined (off : Nat) (d : List Byte) : Bool := (d.take (8 - off)).all fun b => (parkOf b.toNat).isSome

/-- The loaded modes, with their groups. -/
def parkModes (off : Nat) (d : List Byte) : List (Nat × ParkMode) :=
  (List.range d.length).zip (d.take (8 - off)) |>.map fun x => (off + x.1, (parkOf x.2.toNat).getD .low)

/-- LOAD park (R153). -/
def loadParkChip (p : List Byte) (c : Chip) : Chip :=
  withLoad 0x07 p (fun off d c =>
    if 11 < off + d.length ∨ parkDefined off d = false then refuse p .malformed c
    else
      let modes := parkModes off d
      let held := modes.map fun x => parkHeld x.1 x.2
      let holds := (d.drop (8 - off)).map BitVec.toNat
      reply p (loadAnswer (decide (held = modes.map Prod.snd)))
        { c with power := { c.power with park := writeAt c.power.park off held,
                                         holds := writeAt c.power.holds (off - 8) holds } }) c

/-! ## Wake (R152) -/

/-- The level of the pin of a wake source: 0 RING, 1 KEY, 2 HOOK, 3 DOC (R150). -/
def pinLevel (p : Pins) (i : Nat) : Bool :=
  match i with
  | 0 => p.ring
  | 1 => p.key
  | 2 => p.hook
  | _ => p.docp

/-- The wake entries of data, or `none` where an enable or polarity byte is undefined (R152). -/
def wakeEntriesOf (d : List Byte) : Option (List WakeEntry) :=
  (entriesOf 3 (d.length / 3) d).mapM fun e =>
    match yesNoOf (numAt e 0 1), yesNoOf (numAt e 1 1) with
    | some en, some pol => some ⟨en, pol, numAt e 2 1⟩
    | _, _ => none

/-- A debounce record after its entry is written (R152). -/
def rewrite (old new : WakeEntry) (level : Bool) (r : Debounce) : Debounce :=
  if new.rising ≠ old.rising ∨ (old.enable = false ∧ new.enable = true) then ⟨level, none⟩
  else if new.enable = false then { r with timing := none }
  else r

/-- Writes one wake entry, which takes effect at once (R152). -/
def writeWake (i : Nat) (e : WakeEntry) (c : Chip) : Chip :=
  match c.power.wake[i]?, c.power.sources[i]? with
  | some old, some r =>
      { c with power := { c.power with wake := c.power.wake.set i e,
                                       sources := c.power.sources.set i (rewrite old e (pinLevel c.pins i) r) } }
  | _, _ => c

/-- Writes wake entries from an index, in order. -/
def writeWakes (off : Nat) : List WakeEntry → Chip → Chip
  | [], c => c
  | e :: es, c => writeWakes (off + 1) es (writeWake off e c)

/-- LOAD wake (R152). -/
def loadWakeChip (p : List Byte) (c : Chip) : Chip :=
  withLoad 0x08 p (fun off d c =>
    if d.length % 3 ≠ 0 ∨ 4 < off + d.length / 3 then refuse p .malformed c
    else
      match wakeEntriesOf d with
      | none => refuse p .malformed c
      | some es => reply p .accepted (writeWakes off es c)) c

end Sys2Proof.Machine
end

