-- ==== Sys2Proof/Machine/Opening.lean ====
section
/-!
DEFINITION. OPEN, CLOSE and REARM (01_line_pool_and_routes.md 1.3, R21; 03_motor_timing.md R66).
-/
namespace Sys2Proof.Machine

open Sys2Proof

/-! ## OPEN: what is held (R9, R10) -/

/-- Whether source and sinks form a valid combination (R7). -/
def validCombination (src : Source) (sinks : List Sink) : Bool :=
  decide sinks.Nodup && !(src == .link && sinks.contains .link) && !(src == .store && sinks.contains .store)

/-- Whether an endpoint that a route needs is held (R7, R8 check 4): PRINT also by a print run-out. -/
def endpointHeld (c : Chip) (src : Source) (sinks : List Sink) : Bool :=
  (routeOfSource c src).isSome || sinks.any (fun k => (routeOfSink c k).isSome) ||
    (sinks.contains .print && c.runOut.isSome)

/-- Whether a store endpoint is named (R8 check 5). -/
def namesStore (src : Source) (sinks : List Sink) : Bool := src == .store || sinks.contains .store

/-- Whether PROGRAM FAULT or ERASE FAULT is set (R125). -/
def storeFaulty (c : Chip) : Bool := c.store.programFault || c.store.eraseFault

/-- Whether a store sink of this origin is forbidden (R8 check 8, R23 check 8). -/
def bootForbidden (c : Chip) (o : Origin) : Bool := o == .boot && masterSet c && !serviceHeld c

/-- The scan parameters as held (R46). -/
def ScanParams.held (x : ScanParams) : ScanParams :=
  { x with q := clamp 128 256 x.q, topOffset := clamp 0 1000 x.topOffset, tailLines := clamp 0 500 x.tailLines,
           pickLimit := clamp 16 4000 x.pickLimit, maxSteps := clamp 1024 65535 x.maxSteps }

/-- The print parameters as held, before the tail feed is raised (R9 step 2). -/
def PrintParams.held (x : PrintParams) : PrintParams :=
  { x with density := clamp 8 24 x.density, copies := clamp 1 2 x.copies }

/-- The line period as clamped and raised for the ramps of the channels the route drives (R9 steps 2 and 4). -/
def heldPeriod (c : Chip) (q : OpenReq) : Nat :=
  let base := clamp 2500 50000 q.period
  let scan := if q.source = .scan then raisePeriod c.scanCh.ramp base q.steps else base
  let print := if q.sinks.contains .print then raisePeriod c.printCh.ramp base q.steps else base
  max scan print

/-- The minimum quota of a route (R10) from the run indices of its channels. -/
def minQuota (steps copies : Nat) (scan print : Option Nat) : Nat :=
  max 2 ((match scan with | some r => 1 + ceilDiv r steps | none => 0) +
    (match print with | some r => ceilDiv (1 + ceilDiv r steps) copies | none => 0))

/-- The room of the pool for one more route (R10). -/
def roomFor (c : Chip) : Nat :=
  Config.slotCount - (routeNumbers.map fun r => match ctxOf c r with | some x => x.quota | none => 0).sum -
    (match c.runOut with | some ro => charged c ro.route | none => 0)

/-- The request with every value as held (R9 steps 1 to 5): the quota is settled afterwards. -/
def OpenReq.held (c : Chip) (q : OpenReq) : OpenReq :=
  let period := heldPeriod c q
  let rPrint := runIndex c.printCh.ramp (period / q.steps)
  { q with quota := clamp 2 28 q.quota, period := period, scanP := q.scanP.map ScanParams.held,
           printP := q.printP.map fun x => { x.held with tailFeed := max x.tailFeed rPrint } }

/-- The quota as settled (R10), or `none` where the minimum cannot be met. -/
def settleQuota (c : Chip) (q : OpenReq) : Option Nat :=
  let u := q.period / q.steps
  let scan := if q.source = .scan then some (runIndex c.scanCh.ramp u) else none
  let print := if q.sinks.contains .print then some (runIndex c.printCh.ramp u) else none
  let least := minQuota q.steps (match q.printP with | some x => x.copies | none => 1) scan print
  let room := roomFor c
  if 28 < least ∨ room < least then none
  else if q.quota < least then some least
  else if room < q.quota then some room
  else some q.quota

/-! ## OPEN: the checks (R8) -/

/-- Checks 2 to 10 of R8: the first that fails. -/
def openCheck (c : Chip) (q : OpenReq) : Option Reason :=
  let boot := match q.storeP with | some x => bootForbidden c x.origin | none => false
  if 3 < q.route ∨ validCombination q.source q.sinks = false then some .invalidRoute
  else if (ctxOf c q.route).isSome ∨ (c.runOut.map RunOut.route) = some q.route then some .busy
  else if endpointHeld c q.source q.sinks then some .endpointInUse
  else if namesStore q.source q.sinks && scanOrTotal c then some .busy
  else if q.sinks.contains .store && storeFaulty c then some .storeFaultPending
  else if q.sinks.contains .store && decide (Config.dirCap ≤ c.store.dir.length) then some .directoryFull
  else if boot then some .protected_
  else if q.pages.any fun id => (pageOf c id).isNone then some .noSuchPage
  else if q.pages.any fun id => (match pageOf c id with | some p => p.writing | none => false) then some .busy
  else none

/-! ## OPEN: acceptance (R11) -/

/-- The context of an accepted OPEN (R11). -/
def OpenReq.ctx (q : OpenReq) : Ctx :=
  { source := q.source, sinks := q.sinks, quota := q.quota, period := q.period, steps := q.steps, encoding := q.encoding,
    scanP := q.scanP, printP := q.printP, storeP := q.storeP, pages := q.pages, readIdx := 0, readLine := 0, stalls := [],
    halt := none, closeReq := false, begun := false, linesDone := 0, repairedLines := 0,
    creditGranted := if q.source = .link then some q.quota else none, storePage := none, reservations := [], hold := [],
    printQ := [], linkQ := [], storeQ := [], full := none, partialNext := false, marks := 0 }

/-- Take-up of SCAN (R26, R50, R62, R63). -/
def takeUpScan (q : OpenReq) (c : Chip) : Chip :=
  if q.source = .scan then
    let c := openScan q.route { c with scanCh := c.scanCh.takeUp q.route q.period q.steps }
    if c.scanCh.motion = .tripped then haltRoute q.route .interlock c else c
  else c

/-- Take-up of PRINT (R50, R62, R63, R70, R84). -/
def takeUpPrint (q : OpenReq) (c : Chip) : Chip :=
  match q.printP with
  | some x =>
      let c := takeUpHead q.route ⟨q.period, x.density, x.copies⟩
        { c with printCh := c.printCh.takeUp q.route q.period q.steps }
      let c := if c.head.paper then c else addStall q.route .paperOut c
      if c.printCh.motion = .tripped then haltRoute q.route .interlock c else c
  | none => c

/-- The context is filled and the endpoints are claimed (R11). -/
def fillRoute (q : OpenReq) (c : Chip) : Chip :=
  let c := setRoute q.route { ctx := some q.ctx, pagesDone := 0, overrun := false, haltReported := false } c
  let c := if q.source = .store then { c with store := { c.store with cursor := ⟨0, 0, 0, 0, false⟩ } } else c
  takeUpPrint q (takeUpScan q c)

/-- An accepted OPEN (R11): the REPLY, then the CREDIT of a LINK source; where an unsent CREDIT of an earlier opening stands in the report
queue, the value is written into that one (R182), ahead of the REPLY (DEDUCED, notes/assumptions/66.md). -/
def acceptOpen (p : List Byte) (adjusted : Bool) (q : OpenReq) (c : Chip) : Chip :=
  let c := reply p (if adjusted then .adjusted else .accepted) (fillRoute q c)
  syncMotor (if q.source = .link then queueCredit q.route q.quota c else c)

/-- OPEN (R8 to R11). -/
def openChip (p : List Byte) (c : Chip) : Chip :=
  match parseOpen p with
  | none => refuse p .malformed c
  | some q =>
      match openCheck c q with
      | some .protected_ => refuseProtected p c
      | some r => refuse p r c
      | none =>
          let h := q.held c
          if 50000 < h.period then refuse p .limit c
          else
            match settleQuota c h with
            | none => refuse p .quota c
            | some n =>
                let h := { h with quota := n }
                acceptOpen p (decide (h ≠ q)) h c

/-! ## CLOSE (R21) -/

/-- The route a payload names at offset 1, where it is not CLOSED. -/
def openRouteOf (p : List Byte) (c : Chip) : Option (Nat × Ctx) :=
  let r := numAt p 1 1
  if 3 < r then none else (ctxOf c r).map fun x => (r, x)

/-- CLOSE (R21). -/
def closeChip (p : List Byte) (c : Chip) : Chip :=
  withLength p 2 (fun c =>
    match openRouteOf p c with
    | none => refuse p .invalidRoute c
    | some (r, _) => settle r (requestClose r (reply p .accepted c))) c

/-! ## REARM (R66) -/

/-- What the end of a halt brings to the scan side (R40, R41, R66): JAMMED is left at once where the channel is HALTED, and at its halt
otherwise. -/
def rearmScan (c : Chip) : Chip :=
  let c := { c with scanCh := c.scanCh.untrip }
  if c.scanCh.motion = .halted then
    match c.scan.state with
    | .jammed => leaveJam c
    | .runout => endOfSheet c
    | _ => c
  else if c.scan.state = .jammed then { c with scan := { c.scan with rearmed := true } }
  else c

/-- What the end of a halt brings to the print side (R66, R81). -/
def rearmPrint (c : Chip) : Chip :=
  let c := { c with printCh := c.printCh.untrip }
  if c.head.cut = .waiting then beginCut c else c

/-- An accepted REARM (R66). -/
def acceptRearm (p : List Byte) (r : Nat) (x : Ctx) (c : Chip) : Chip :=
  let c := modCtx r (fun x => { x with halt := none }) (reply p .accepted c)
  let c := if x.source = .scan then rearmScan c else c
  let c := if x.sinks.contains .print then rearmPrint c else c
  settle r c

/-- REARM (R66). -/
def rearmChip (p : List Byte) (c : Chip) : Chip :=
  withLength p 2 (fun c =>
    match openRouteOf p c with
    | none => refuse p .invalidRoute c
    | some (r, x) =>
        match x.halt with
        | none => refuse p .invalidRoute c
        | some h =>
            if (getRoute c r).haltReported = false then refuse p .notReported c
            else if h = .interlock ∧ c.pins.cover = false then refuse p .busy c
            else acceptRearm p r x c) c

end Sys2Proof.Machine
end

