-- ==== Sys2Proof/Machine/Stopping.lean ====
section
/-!
DEFINITION. ABORT and REDIRECT (01_line_pool_and_routes.md R22, R23), the interlock (03_motor_timing.md 3.8), and paper out and paper
in (04_print_path.md 4.7).
-/
namespace Sys2Proof.Machine

open Sys2Proof

/-! ## ABORT: the print run-out (R22, R61) -/

/-- The steps a print channel still takes: the step under way and the deceleration that follows it (R53). -/
def stepsToHalt (ch : Channel) : Nat :=
  match ch.mode with
  | .up => ch.k + 2
  | .level => ch.k + 1
  | .down => ch.k

/-- The burns that the line starts of those steps begin: the halting step begins none (R61). -/
def burnsToHalt (ch : Channel) : Nat :=
  (ch.linePos + stepsToHalt ch - 1) / (match ch.run with | some p => p.steps | none => 2)

/-- The line entries before the first page mark. -/
def leadingLines : List Entry → List LineEntry
  | .line e :: rest => e :: leadingLines rest
  | _ => []

/-- The line entries kept for a run-out of `n` burns (R61): the head line, and the further lines that will burn. -/
def keptLines (n burns copies : Nat) (q : List Entry) : List LineEntry :=
  match leadingLines q with
  | [] => []
  | e :: rest => e :: rest.take (ceilDiv (n - (copies - burns)) copies)

/-- Whether an aborted route has a print run-out (R61). -/
def hasRunOut (x : Ctx) (c : Chip) : Bool :=
  x.sinks.contains .print && c.printCh.moving && x.halt.isNone && decide (c.printCh.cause ≠ some .paperOut)

/-- The entries kept at the ABORT of a route (R22). -/
def keptFor (x : Ctx) (c : Chip) : List LineEntry :=
  if hasRunOut x c then keptLines (burnsToHalt c.printCh) c.head.burns (headCopies c) x.printQ else []

/-- ABORT as a channel's stop cause (R53, R61): it replaces any cause but PAPER OUT. -/
def Channel.abortFor (ch : Channel) : Channel :=
  if ch.moving ∧ ch.cause ≠ some .paperOut then { ch with cause := some .abort } else ch

/-- The slots charged to a route, in ascending number. -/
def chargedSlots (c : Chip) (r : Nat) : List Nat :=
  (List.range c.pool.slots.length).filter fun n => (slotAt c n).route == some r

/-- The slots of kept entries hold the print sink's references only (R22). -/
def keepSlots (r : Nat) (es : List LineEntry) (c : Chip) : Chip :=
  es.foldl (fun c e => setSlot e.slot (.held r 1 (lineOf c e.slot)) c) c

/-- The scan side of an ABORT (R22, R42, R61, R64). -/
def abortScan (c : Chip) : Chip :=
  let c := dropLamp c
  let ch := c.scanCh.abortFor.release
  { c with scan := Capture.default, scanCh := if c.pins.cover then ch.untrip else ch }

/-- The print side of an ABORT (R22, R61, R64, R86). -/
def abortPrint (r : Nat) (kept : Option (List LineEntry)) (c : Chip) : Chip :=
  let c := { c with printCh := c.printCh.abortFor }
  match kept with
  | some es => refreshLoad { c with runOut := some ⟨r, es⟩ }
  | none =>
      let c := releasePrint (endCut (cutStrobe c))
      { c with printCh := if c.pins.cover then c.printCh.untrip else c.printCh }

/-- The link lanes at an ABORT (R22, R93, R95): a record in decoding is passed over; a record begun upstream is sent to its end, the
payload that is left of a LINE record as 00h. -/
def abortLanes (r : Nat) (c : Chip) : Chip :=
  let c := if decodingFor c r then { c with linkIn := .passing none } else c
  let begun := decide (c.link.up = .out)
  match c.linkOut with
  | .encoding n _ _ => if n = r then { c with linkOut := .idle } else c
  | .line n _ _ => if n = r then { c with linkOut := if begun then c.linkOut.cut else .idle } else c
  | .pageEnd n _ => if n = r then { c with linkOut := if begun then .orphanEnd r else .idle } else c
  | _ => c

/-- The slot of an outbound LINE record of a route that has begun, which is returned before the others (R22). -/
def begunSlot (r : Nat) (c : Chip) : List Nat :=
  match c.linkOut with
  | .line n e _ => if n = r ∧ c.link.up = .out then [e.slot] else []
  | _ => []

/-- A read in flight is given up (R22, R97): its job leaves the arbiter. -/
def dropRead (j : Job) (c : Chip) : Chip :=
  let c := withdraw (· == j) c
  if c.store.holder = some j then freeFlash c else c

/-! ## ABORT: the page being written (R117) -/

/-- A relocation that an ABORT or a failure ends: the relocation block is DAMAGED and the failed block stays (R114, R117). -/
def dropReloc (x : Reloc) (c : Chip) : Chip :=
  let c := { c with store := { c.store with reloc := none } }
  match x.target with
  | some b => damageBlock b c
  | none => c

/-- Whether a job belongs to a relocation. -/
def Job.ofReloc : Job → Bool
  | .relocRead => true
  | .relocEntry => true
  | .claim _ reloc _ => reloc
  | _ => false

/-- The page of the entry in work ends at an ABORT, TRUNCATED and without a mark (R117). -/
def endWorkPage (w : Work) (c : Chip) : Chip :=
  match w.page with
  | some id => endPage none true none id c
  | none => setWork none c

/-- A page close with the flag TRUNCATED. -/
def Job.truncated : Job → Job
  | .closePage b _ => .closePage b true
  | j => j

/-- The page close under way closes its page TRUNCATED (R22, R117), whether its job waits or holds the flash: a job that holds it programs
the flag with the rest (DESIGN CHOICE, notes/assumptions/25.md). -/
def truncateClose (c : Chip) : Chip :=
  { c with store := { c.store with holder := c.store.holder.map Job.truncated, programs := c.store.programs.map Job.truncated } }

/-- The entry in work of an aborted route (R117): a program that holds the flash for it goes on to its end; a page close goes on, and closes
its page TRUNCATED; an entry not begun is let go, and its page ends. A claim's header job that waits stays queued, and the page ends with
that block (DESIGN CHOICE, notes/assumptions/73.md). -/
def abortWork (w : Work) (c : Chip) : Chip :=
  match w.item, c.store.reloc with
  | .closing _, _ => setWork (some { w with route := none, item := .closing none }) (truncateClose c)
  | .line _ _, some y =>
      if (match c.store.holder with | some j => j.ofReloc | none => false) then setWork (some { w with route := none }) c
      else endWorkPage w (dropReloc y (withdraw Job.ofReloc c))
  | .line _ _, none =>
      if c.store.holder = some .entry then setWork (some { w with route := none }) c
      else endWorkPage w (withdraw (· == .entry) c)

/-- ABORT of the route holding STORE-write (R117). While the Store Controller still closes a page for STORE FULL,
that close goes on; while it finishes the entry of a route aborted before, the route has at most a page without lines. -/
def abortStore (x : Ctx) (c : Chip) : Chip :=
  let c := { c with store := { c.store with lane := none } }
  match c.store.work with
  | some w =>
      if w.route.isSome then abortWork w c
      else match x.storePage with | some id => if w.page = some id then c else removePage id c | none => c
  | none => match x.storePage with | some id => endPage none true none id c | none => c

/-- A route is aborted (R22): CLOSED as one step, with ROUTE CLOSED. Of the slots, the capture's and the reservations' are
returned first, then that of a LINE record being sent, then the rest in ascending number. -/
def abortRoute (r : Nat) (cause : CloseCause) (c : Chip) : Chip :=
  match ctxOf c r with
  | none => c
  | some x =>
      let kept := keptFor x c
      let first := (match c.scan.route, c.scan.capture with
        | some n, some (.keep s _) => if n = r then [s] else []
        | _, _ => []) ++ x.reservations
      let sent := begunSlot r c
      let keptSlots := kept.map LineEntry.slot
      let runs := hasRunOut x c
      let c := setRoute r { getRoute c r with ctx := none } c
      let c := returnSlots first c
      let c := if x.source = .scan then abortScan c else c
      let c := abortLanes r c
      let c := returnSlots (sent.filter fun n => n ∉ keptSlots) c
      let c := returnSlots ((chargedSlots c r).filter fun n => n ∉ keptSlots) c
      let c := keepSlots r kept c
      let c := if x.sinks.contains .print then abortPrint r (if runs then some kept else none) c else c
      let c := if x.source = .store then dropRead .lineRead { c with store := { c.store with reading := none } } else c
      let c := if x.sinks.contains .store then abortStore x c else c
      queueEvent (.routeClosed r cause) c

/-- ABORT (R22). -/
def abortChip (p : List Byte) (c : Chip) : Chip :=
  withLength p 2 (fun c =>
    match openRouteOf p c with
    | none => refuse p .invalidRoute c
    | some (r, _) => settleAll (abortRoute r .aborted (reply p .accepted c))) c

/-! ## REDIRECT (R23) -/

/-- The print sink serves the mark at the head of its queue (R80): heat reported and rate reported become no. -/
def servePrintMark (r : Nat) (c : Chip) : Chip :=
  let c := { c with head := { c.head with heatReported := false }, printCh := { c.printCh with rateReported := false } }
  refreshLoad (serveMark .print r id c)

/-- Makes the first page mark of a list PARTIAL, and answers it. -/
def firstMark : List Entry → Option Mark
  | [] => none
  | .mark m :: _ => some { m with isPartial := true }
  | .line _ :: rest => firstMark rest

/-- The mark of the page that a REDIRECT continues becomes PARTIAL, wherever its copies stand, or will be when it is placed
(R23). -/
def markPartial (x : Ctx) : Ctx :=
  match firstMark (x.storeQ ++ x.hold) with
  | some m => { x with printQ := putMark m x.printQ, linkQ := putMark m x.linkQ, storeQ := putMark m x.storeQ,
                       hold := putMark m x.hold }
  | none => { x with partialNext := true }

/-- The entries of the print queue move to the store sink (R23). -/
def moveToStore (sp : StoreParams) (x : Ctx) : Ctx :=
  { x with sinks := x.sinks.map fun k => if k = .print then .store else k, printP := none, storeP := some sp,
           printQ := [], storeQ := x.printQ, stalls := x.stalls.filter (· ≠ .paperOut) }

/-- Checks 3 to 8 of R23: the first that fails. -/
def redirectCheck (r : Nat) (sp : StoreParams) (c : Chip) : Option Reason :=
  if (getRoute c r).state ≠ .stalled ∨ (getRoute c r).reason ≠ .paperOut then some .busy
  else if c.printCh.motion ≠ .halted ∨ scanOrTotal c = true then some .busy
  else if (routeOfSink c .store).isSome then some .endpointInUse
  else if storeFaulty c then some .storeFaultPending
  else if Config.dirCap ≤ c.store.dir.length then some .directoryFull
  else if 4294967295 < c.store.nextCreation then some .limit
  else if bootForbidden c sp.origin then some .protected_
  else none

/-- An accepted REDIRECT (R23, R86). A page whose close is still under way after ABORT or STORE FULL stays WRITING beside the new one, against
the one of R104 (DESIGN CHOICE, notes/assumptions/75.md). -/
def acceptRedirect (r : Nat) (sp : StoreParams) (c : Chip) : Chip :=
  let c := if 0 < c.head.burns then dropHead .print r { c with head := { c.head with burns := 0 } } else c
  let c := endCut c
  let c := match ctxOf c r with
    | some x => match x.printQ with | .mark _ :: _ => servePrintMark r c | _ => c
    | none => c
  let c := releasePrint (modCtx r (moveToStore sp) c)
  let c := match ctxOf c r with
    | some x => match x.storeQ with
      | .line e :: _ => createPage r (some e.num) (modCtx r markPartial c)
      | _ => c
    | none => c
  settle r c

/-- REDIRECT (R23). -/
def redirectChip (p : List Byte) (c : Chip) : Chip :=
  if p.length < 2 then refuse p .malformed c
  else
    match readStoreParams (p.drop 2) with
    | some (sp, []) =>
        match openRouteOf p c with
        | none => refuse p .invalidRoute c
        | some (r, x) =>
            if x.sinks.contains .print = false ∨ x.source = .store then refuse p .invalidRoute c
            else
              match redirectCheck r sp c with
              | some .protected_ => refuseProtected p c
              | some why => refuse p why c
              | none => acceptRedirect r sp (reply p .accepted c)
    | _ => refuse p .malformed c

/-! ## The interlock (R63, R64, R85) -/

/-- Whether a route uses SCAN or PRINT. -/
def Ctx.usesMotor (x : Ctx) : Bool := x.source == .scan || x.sinks.contains .print

/-- The Print Head Controller at a trip (R85). -/
def tripHead (c : Chip) : Chip :=
  let cut := if c.head.cut = .pulse ∨ c.head.cut = .judging then .waiting else c.head.cut
  let c := cutStrobe c
  refreshLoad { c with
    head := { c.head with latch := none, strobeTime := none, burns := 0, cut := cut,
                          cutTime := if cut = .waiting then none else c.head.cutTime } }

/-- The interlock trip (R63). Of the slots that return at one trip, a print run-out's go first, then the capture's, then the reservations'
(DESIGN CHOICE, notes/assumptions/64.md). -/
def trip (c : Chip) : Chip :=
  let c := { c with scanCh := c.scanCh.trip, printCh := { c.printCh.trip with linePos := 0 } }
  let c := tripHead (endRunOut c)
  let c := (routesWhere c Ctx.usesMotor).foldl (fun c r => haltRoute r .interlock c) c
  let c := discardCapture c
  let c := match c.scan.route with | some r => returnReservations r c | none => c
  settleAll (queueEvent .interlockOpen c)

/-- Whether a route in HALTED (INTERLOCK) holds an endpoint, by the route that holds it (R64). -/
def interlocked (c : Chip) (holder : Option Nat) : Bool :=
  match holder.bind (ctxOf c) with
  | some x => decide (x.halt = some .interlock)
  | none => false

/-- INTERLOCK_TRIP on the part (R63): outside SLEEP the change of COVER trips the interlock (R158). -/
def tripChip (c : Chip) : Chip :=
  let c := { c with pins := { c.pins with cover := false } }
  if c.power.clockOn then trip c else c

/-- COVER_CLOSE on the part (R64). -/
def coverCloseChip (c : Chip) : Chip :=
  let c := { c with pins := { c.pins with cover := true } }
  if c.power.clockOn then
    let c := queueEvent .interlockClosed c
    let c := if interlocked c (routeOfSource c .scan) then c else { c with scanCh := c.scanCh.untrip }
    let c := if interlocked c (routeOfSink c .print) then c else { c with printCh := c.printCh.untrip }
    settleAll c
  else c

/-! ## Paper (R60, R82, R83) -/

/-- PAPER OUT as a channel's stop cause (R53, R60): it replaces any cause but ABORT. -/
def Channel.paperOutFor (ch : Channel) : Channel :=
  if ch.moving ∧ ch.cause ≠ some .abort then { ch with cause := some .paperOut } else ch

/-- PAPER_OUT on the part (R82): outside SLEEP (R158). -/
def paperOutChip (c : Chip) : Chip :=
  let c := { c with pins := { c.pins with papp := false } }
  if c.power.clockOn then
    let holder := routeOfSink c .print
    let c := queueEvent (.paperOut holder) { c with head := { c.head with paper := false } }
    match holder with
    | none => c
    | some r =>
        let c := addStall r .paperOut (cutStrobe c)
        settle r { c with printCh := c.printCh.paperOutFor }
  else c

/-- The start after PAPER OUT is a line start (R60): a channel at rest begins its line anew, one running down does so at its halt. -/
def Channel.startLine (ch : Channel) : Channel := if ch.moving then ch else { ch with linePos := 0 }

/-- PAPER_IN on the part (R60, R83): outside SLEEP (R158). -/
def paperInChip (c : Chip) : Chip :=
  let c := { c with pins := { c.pins with papp := true } }
  if c.power.clockOn then
    let holder := routeOfSink c .print
    let c := queueEvent (.paperIn holder) { c with head := { c.head with paper := true } }
    match holder with
    | none => c
    | some r =>
        match ctxOf c r with
        | some x =>
            if Stall.paperOut ∈ x.stalls then
              settle r (refreshLoad (dropStall r .paperOut { c with
                head := { c.head with burns := 0 }, printCh := c.printCh.startLine }))
            else c
        | none => c
  else c

end Sys2Proof.Machine
end

