-- ==== Sys2Proof/Machine/StoreJobs.lean ====
section
/-!
DEFINITION. The ends of the flash jobs (06_page_store.md 6.4 to 6.7, 07_store_protection_and_service_access.md R131): entry, claim,
close and retire programs, relocation, protection row programs, line reads, and the phases of an erase.
-/
namespace Sys2Proof.Machine

open Sys2Proof

/-- What a command answers. -/
abbrev Result := Host.Outcome State Fault Refusal

/-- A step that touches the part alone. -/
def State.onChip (f : Chip → Chip) (s : State) : State := { s with chip := f s.chip }

/-! ## What a program job writes -/

/-- The block and line-area offset at which the entry in work is programmed (R112). -/
def entryPlace (c : Chip) : Option (Nat × Nat) :=
  match c.store.work with
  | some w => ((w.page.bind (pageOf c)).bind lastBlock).map fun b => (b, (blockAt c b).used)
  | none => none

/-- The coded line in work (R110). -/
def workLine (c : Chip) : Option Coded :=
  match c.store.work with
  | some w => match w.item with | .line _ coded => some coded | .closing _ => none
  | none => none

/-- The writes of bytes at an offset of a line area. -/
def areaWrites (b off : Nat) (bs : List Byte) : List Write :=
  (List.range bs.length).zip bs |>.map fun x => (addrOf b (Config.headerBytes + off + x.1), x.2)

/-- The sequence-0 block of a page. -/
def firstBlock (c : Chip) (id : Nat) : Option Nat := (pageOf c id).bind fun p => p.blocks.head?

/-- What a program job writes, in order (R101, R102, R111 to R114, R120, R173). -/
def jobWrites (c : Chip) (m : List Host.Cell) : Job → List Write
  | .entry =>
      match entryPlace c, workLine c with
      | some (b, off), some coded => entryWrites b off coded
      | _, _ => []
  | .relocEntry =>
      match c.store.reloc with
      | some x =>
          match x.target, x.buffer, workLine c with
          | some t, some bs, _ => areaWrites t x.offset bs
          | some t, none, some coded => entryWrites t x.offset coded
          | _, _, _ => []
      | none => []
  | .claim b reloc pg => claimWrites b pg (blockAt c b).seq reloc
  | .closeFull b => fullWrites m b false false
  | .closePage b truncated => fullWrites m b true truncated
  | .retire b _ => retireWrites b
  | .installMark =>
      match c.boot.install with
      | some i => match firstBlock c i.page with | some b => markWrites b i.length i.checksum | none => []
      | none => []
  | _ => []

/-- Runs the program of a job on the flash. -/
def runProgram (j : Job) (r : ProgResult) (s : State) : Flash × Bool :=
  s.flash.program r (jobWrites s.chip s.flash.mem j)

/-- A program job that holds the flash ends: its bytes are programmed, what follows is done, and the flash is granted
again. -/
def endProgram (j : Job) (r : ProgResult) (f : Bool → Chip → Chip) (s : State) : State :=
  { s with flash := (runProgram j r s).1, chip := freeFlash (settleAll (f (runProgram j r s).2 s.chip)) }

/-! ## Waiting claims (R115) -/

/-- A claim that waits in STORE WAIT is judged again. -/
def retryClaim (c : Chip) : Chip :=
  match c.store.work with
  | some w =>
      match w.needBlock, w.route with
      | true, some r => tryClaim r c
      | _, _ => c
  | none => c

/-! ## Relocation (R114) -/

/-- The next job of a relocation: the read of the next committed entry, or the program of the entry that failed. -/
def copyNext (x : Reloc) (c : Chip) : Chip :=
  let c := { c with store := { c.store with reloc := some x } }
  if x.copied < (blockAt c x.source).committed then askRead .relocRead c else askProgram .relocEntry c

/-- A relocation begins, or begins anew, from a failed block (R114). -/
def beginReloc (source r : Nat) (c : Chip) : Chip :=
  tryClaim r { c with store := { c.store with reloc := some ⟨source, none, 0, 0, none⟩ } }

/-- A failure during a relocation (R114): the relocation block is DAMAGED, and a new relocation begins. -/
def relocFailed (source target r : Nat) (c : Chip) : Chip :=
  beginReloc source r (damageBlock target (programFailed target c))

/-- A relocation is complete (R114): the relocation block takes the failed block's place in the page. -/
def relocDone (x : Reloc) (target r id : Nat) (size : Nat) (c : Chip) : Chip :=
  let n := (blockAt c x.source).committed
  let c := modBlock target (fun b => { b with committed := n + 1, used := x.offset + size }) c
  let c := modPage id (fun p => { p with lines := p.lines + 1, blocks := p.blocks.map fun b => if b = x.source then target else b }) c
  let c := damageBlock x.source { c with store := { c.store with reloc := none, work := none } }
  dropHead .store r c

/-- The end of a relocation's program: an entry copied, or the entry that failed. -/
def relocProgrammed (ok : Bool) (c : Chip) : Chip :=
  match c.store.reloc, c.store.work with
  | some x, some w =>
      match x.target, w.route, w.page with
      | some t, some r, some id =>
          if !ok then relocFailed x.source t r c
          else
            match x.buffer, w.item with
            | some bs, _ =>
                copyNext { x with copied := x.copied + 1, offset := x.offset + bs.length, buffer := none }
                  (modBlock t (fun b => { b with committed := x.copied + 1, used := x.offset + bs.length }) c)
            | none, .line _ coded => relocDone x t r id (entrySize coded) c
            | none, .closing _ => c
      | some t, none, _ => endWorkPage w (dropReloc x (if ok then c else programFailed t c))
      | _, _, _ => c
  | _, _ => c

/-- The end of a relocation's read: the entry read waits for its program; an entry that does not read is read again. -/
def relocRead (m : List Host.Cell) (c : Chip) : Chip :=
  match c.store.reloc, c.store.work with
  | some x, some w =>
      if w.route.isNone then endWorkPage w (dropReloc x c)
      else
        match readEntry m x.source x.offset with
        | some coded =>
            askProgram .relocEntry { c with store := { c.store with
              reloc := some { x with buffer := some (blockBytesAt m x.source (Config.headerBytes + x.offset) (entrySize coded)) } } }
        | none => askRead .relocRead c
  | _, _ => c

/-! ## Entry, claim, close and retire programs -/

/-- The end of an entry program (R112, R114, R117). -/
def entryDone (ok : Bool) (c : Chip) : Chip :=
  match c.store.work, entryPlace c, workLine c with
  | some w, some (b, _), some coded =>
      let id := w.page.getD 0
      if ok then
        let c := modBlock b (fun x => { x with committed := x.committed + 1, used := x.used + entrySize coded }) c
        let c := setWork none (modPage id (fun p => { p with lines := p.lines + 1 }) c)
        match w.route with
        | some r => dropHead .store r c
        | none => endPage none true none id c
      else
        let c := programFailed b c
        match w.route with
        | some r => beginReloc b r c
        | none => endPage none true none id c
  | _, _, _ => c

/-- A claimed block whose header program failed is DAMAGED and leaves its page, and the claim is made again (R111). One that its page's end
has retired meanwhile (R113, R117) stays RETIRED with its retire program (DESIGN CHOICE, notes/assumptions/74.md). Where an ABORT has begun the
close of the page meanwhile, no claim is made again and the close program asked for goes on with this block (DESIGN CHOICE,
notes/assumptions/81.md). -/
def claimFailed (b : Nat) (c : Chip) : Chip :=
  let held := decide ((blockAt c b).state = .claimed ∨ (blockAt c b).state = .full)
  let id := (blockAt c b).page
  let c := programFailed b c
  if held then
    let c := match id with
      | some n => modPage n (fun p => { p with blocks := p.blocks.filter (· ≠ b) }) c
      | none => c
    let c := damageBlock b c
    match c.store.work with
    | some w =>
        match w.route, w.item with
        | some r, .line _ _ => tryClaim r (withdraw (· == .entry) c)
        | _, _ => c
    | none => c
  else c

/-- The end of a claim's header program (R111, R114). -/
def claimDone (b : Nat) (reloc ok : Bool) (c : Chip) : Chip :=
  if reloc then
    match c.store.reloc, c.store.work with
    | some x, some w =>
        match w.route with
        | some r => if ok then copyNext x c else relocFailed x.source b r c
        | none => endWorkPage w (dropReloc x (if ok then c else programFailed b c))
    | _, _ => c
  else if ok then c
  else claimFailed b c

/-- The end of a page close (R113): the page is COMPLETE, and its mark is served with its id. -/
def pageClosed (truncated : Bool) (c : Chip) : Chip :=
  match c.store.work with
  | some w =>
      match w.page, w.item with
      | some id, .closing mark =>
          let c := forgetPage id (modPage id (fun p => { p with writing := false, truncated := truncated }) (setWork none c))
          match w.route, mark with
          | some r, some _ => serveMark .store r (fun m => { m with pageId := some id }) c
          | _, _ => c
      | _, _ => c
  | none => c

/-- The end of a close program (R113): a failure changes no table. -/
def closeDone (b : Nat) (page : Option Bool) (ok : Bool) (c : Chip) : Chip :=
  let c := if ok then c else programFailed b c
  match page with
  | some truncated => pageClosed truncated c
  | none => c

/-- One retire program of an operation has ended: the operations after it, and the one that is complete. -/
def stepRetires (why : RetireFor) (failed : Bool) : List RetireOp → List RetireOp × Option RetireOp
  | [] => ([], none)
  | o :: rest =>
      if o.why = why then
        let o := { o with left := o.left - 1, failed := o.failed || failed }
        if o.left = 0 then (rest, some o) else (o :: rest, none)
      else
        let x := stepRetires why failed rest
        (o :: x.1, x.2)

/-- The result of a STORE OP DONE. -/
def opResult (failed : Bool) : OpResult := if failed then .fault else .done

/-- An INSTALL BOOT ends (R173): the install record becomes none, and STORE OP DONE is queued. -/
def endInstall (res : OpResult) (c : Chip) : Chip :=
  match c.boot.install with
  | none => c
  | some i => queueEvent (.storeOpDone .installBoot (some i.page) res) { c with boot := { c.boot with install := none } }

/-- A retire program has ended or was withdrawn (R119, R144, R173). -/
def retireEnded (why : RetireFor) (failed : Bool) (c : Chip) : Chip :=
  let x := stepRetires why failed c.store.retires
  let c := { c with store := { c.store with retires := x.1 } }
  match x.2 with
  | some o =>
      match o.why with
      | .delete id => queueEvent (.storeOpDone .delete (some id) (opResult o.failed)) c
      | .install => endInstall (opResult o.failed) c
      | .quiet => c
  | none => c

/-- The end of a retire program (R120). -/
def retireDone (b : Nat) (why : RetireFor) (ok : Bool) (c : Chip) : Chip :=
  let c := if ok then c else programFailed b (setBlockState b .damaged c)
  retireEnded why (!ok) (joinEraseQueue b c)

/-! ## The protection row (R131) -/

/-- A byte of the row after its program (R100, R131): the bits of one that failed, which one with a 0 where 1 is wanted does, are free. -/
def rowByte (free : Byte) (failed : Bool) (old want : Byte) : Byte :=
  if failed = true ∨ programmed old want ≠ want then failedByte old want free else programmed old want

/-- The row after a program job, and whether every cell of it reads as wanted. -/
def programRow (j : RowJob) (failed : List Nat) (f : Flash) : Flash × Bool :=
  match j with
  | .lockPage _ cells =>
      let now := lockBytes fun b => cellSet f.lockCells b || (cells.contains b && !failed.contains b)
      ({ f with lockCells := now }, cells.all (cellSet now))
  | .setMaster =>
      let now := rowByte (Config.freeByte f.uses) (failed.contains 0) f.master 0x00
      ({ f.bump with master := now }, decide (now = 0x00))
  | .setCode want =>
      let now := (List.range want.length).zip (f.code.zip want) |>.map fun x =>
        rowByte (Config.freeByte (f.uses + x.1)) (failed.contains x.1) x.2.1 x.2.2
      ({ f.bumpBy 8 with code := now }, decide (now = want))

/-- The operation of a row program, and the page id it carries (R131). -/
def RowJob.op : RowJob → StoreOp × Option Nat
  | .lockPage id _ => (.lockPage, some id)
  | .setMaster => (.setMasterLock, none)
  | .setCode _ => (.setCode, none)

/-- The table and the copy take what the row reads (R131, R133). -/
def readBack (j : RowJob) (f : Flash) (c : Chip) : Chip :=
  match j with
  | .lockPage _ cells =>
      cells.foldl (fun c b => joinErased b (modBlock b (fun x => { x with lock := cellSet f.lockCells b }) c)) c
  | .setMaster =>
      { c with prot := { c.prot with copy := c.prot.copy.map fun k => { k with master := f.key.master } } }
  | .setCode _ =>
      { c with prot := { c.prot with copy := c.prot.copy.map fun k => { k with code := f.key.code } } }

/-- The end of a row program on the part: a failure sets PROGRAM FAULT, and STORE OP DONE is queued (R131). -/
def rowDone (j : RowJob) (f : Flash) (ok : Bool) (c : Chip) : Chip :=
  let c := readBack j f c
  let c := if ok then c else { c with store := { c.store with programFault := true } }
  retryClaim (queueEvent (.storeOpDone j.op.1 j.op.2 (opResult (!ok))) c)

/-! ## Line reads (R20, R118) -/

/-- The page at the read position of a route (R6). -/
def readPage (x : Ctx) (c : Chip) : Option Page := (x.pages[x.readIdx]?).bind (pageOf c)

/-- The block of the read cursor. -/
def cursorBlock (pg : Page) (c : Chip) : Nat := pg.blocks.getD c.store.cursor.block 0

/-- The cursor moves past an entry of `size` bytes (R118): after the block's last committed line to the next block. -/
def advanceCursor (size : Nat) (blank : Bool) (committed : Nat) (k : Cursor) : Cursor :=
  if committed ≤ k.index + 1 then ⟨k.block + 1, 0, 0, 0, false⟩ else ⟨k.block, k.offset + size, k.index + 1, 0, blank⟩

/-- The read position moves on (R20): at a page's last line a page end is made, and after the last page the source ends. -/
def moveOn (r lines : Nat) (c : Chip) : Chip :=
  match ctxOf c r with
  | none => c
  | some x =>
      if x.readLine + 1 < lines then modCtx r (fun x => { x with readLine := x.readLine + 1 }) c
      else
        let c := { c with store := { c.store with cursor := ⟨0, 0, 0, 0, false⟩ } }
        let c := pageEnd r false (modCtx r (fun x => { x with readLine := 0, readIdx := x.readIdx + 1 }) c)
        if x.pages.length ≤ x.readIdx + 1 then modCtx r (fun x => { x with closeReq := true }) c else c

/-- A line read completes (R20, R21, R97, R118): the fill completes, and cursor and position move on; a close requested
meanwhile ends the page TRUNCATED. -/
def readDone (r slot size : Nat) (blank : Bool) (line : Line × Bool) (c : Chip) : Chip :=
  match ctxOf c r with
  | none => c
  | some x =>
      let lines := match readPage x c with | some pg => pg.lines | none => 0
      let committed := match readPage x c with | some pg => (blockAt c (cursorBlock pg c)).committed | none => 0
      let c := { c with store := { c.store with
        reading := none, cursor := advanceCursor size blank committed c.store.cursor } }
      let c := fillComplete r slot line.1 line.2 (modCtx r (fun x => { x with begun := true }) c)
      let c := moveOn r lines c
      if x.closeReq then pageEnd r true c else c

/-- The all-white repaired line of a read that cannot complete (R91, R118). -/
def blankLine : Line × Bool := decodeLine .run []

/-- STORE_READ_REQUEST on the part (R20, R21, R118): the fill take, and the read job; a line of a block given up is read at once. With
close requested no further line is read, but a read whose attempt failed is repeated (notes/assumptions/26.md). -/
def readRequestChip (c : Chip) : Chip :=
  match routeOfSource c .store with
  | none => c
  | some r =>
      match ctxOf c r with
      | none => c
      | some x =>
          if (x.closeReq && !readInProgress c) || c.store.reading.isSome then c
          else
            match takeSlot r (fun r => .filling r none) c with
            | none => c
            | some (n, c) =>
                let c := { c with store := { c.store with reading := some n } }
                if c.store.cursor.blank then settleAll (readDone r n 0 true blankLine c) else askRead .lineRead c

/-- The end of a line read on the part (R20, R118): the entry is decoded, or the slot is returned and the read is to be repeated, up to
its third attempt. -/
def lineReadDone (m : List Host.Cell) (c : Chip) : Chip :=
  match routeOfSource c .store, c.store.reading with
  | some r, some n =>
      match (ctxOf c r).bind fun x => readPage x c with
      | none => c
      | some pg =>
          match readEntry m (cursorBlock pg c) c.store.cursor.offset with
          | some coded => readDone r n (entrySize coded) false (decodeLine coded.form.asIn coded.data) c
          | none =>
              if 3 ≤ c.store.cursor.attempts + 1 then readDone r n 0 true blankLine c
              else
                let c := { c with store := { c.store with
                  reading := none, cursor := { c.store.cursor with attempts := c.store.cursor.attempts + 1 } } }
                returnSlot n c
  | _, _ => c

/-- A read that holds the flash ends on the part, and the flash is granted again. -/
def endRead (f : Chip → Chip) (s : State) : State := s.onChip fun c => freeFlash (settleAll (f c))

/-! ## Erase (R121 to R124) -/

/-- ERASE_START on the part (R121). -/
def eraseStartChip (c : Chip) : Chip :=
  if c.store.erase.isNone && decide (c.power.state = .run) &&
      (match c.store.op with | .none => true | .lockErase _ => true | _ => false) then
    match c.store.eraseQueue.find? (eligible c) with
    | some b =>
        let c := setBlockState b .erasing { c with store := { c.store with
          eraseQueue := c.store.eraseQueue.filter (· ≠ b) } }
        grant (setErase (some ⟨b, 0, 0, .queued, 0, 0⟩) c)
    | none => c
  else c

/-- Pulse time passes (R122). -/
def EraseProg.pulsed (e : EraseProg) (n : Nat) : EraseProg :=
  { e with applied := e.applied + n, unit := e.unit + n, pulseRun := e.pulseRun + n }

/-- ERASE_PULSE_END on the part (R122, R123): the unit is full and the verify begins; a job that waits cuts it at once. -/
def pulseEndChip (c : Chip) : Chip :=
  match c.store.erase with
  | some e =>
      if e.phase = .pulse then
        grant (setErase (some { e.pulsed (Config.eraseUnit - e.unit) with phase := .verify, verifyLeft := Config.verifyTime }) c)
      else c
  | none => c

/-- Whether something waits for the flash that an erase holds (R109, R138). -/
def flashWanted (c : Chip) : Bool :=
  decide (c.store.op = .lockErase false) || (decide (c.store.op = .none) && !(c.store.reads.isEmpty && c.store.programs.isEmpty))

/-- ERASE_MIN_PULSE_END on the part (R123): a pulse that a waiting job would cut has run 1 ms, within its unit. -/
def minPulseChip (c : Chip) : Chip :=
  match c.store.erase with
  | some e =>
      let n := Config.eraseMinPulse - e.pulseRun
      if e.phase = .pulse ∧ flashWanted c = true ∧ e.unit + n ≤ Config.eraseUnit then grant (setErase (some (e.pulsed n)) c)
      else c
  | none => c

/-- The next block of a TOTAL ERASE (R139): the next block that is not BAD, or the lock segment. The first pulse waits for the flash
supply's 1 ms (R148). -/
def totalNext (done : Nat) (c : Chip) : Chip :=
  let rest := (List.range Config.blockCount).filter fun b => decide (done ≤ b ∧ (blockAt c b).state ≠ .bad)
  match rest with
  | b :: _ => setErase (some ⟨b, 0, 0, if c.store.usable then .pulse else .queued, 0, 0⟩) (setBlockState b .erasing c)
  | [] => { c with store := { c.store with op := .totalLock, segLeft := Config.segmentTime, erase := none } }

/-- An erase is over: in a TOTAL ERASE the next block follows, else the flash is granted and a waiting claim judged (R115). -/
def eraseOver (b : Nat) (failed : Bool) (c : Chip) : Chip :=
  let c := setErase none c
  if c.store.op = .totalBlocks then
    totalNext (b + 1) { c with store := { c.store with totalFault := c.store.totalFault || failed } }
  else grant (settleAll (retryClaim c))

/-- The failing verify at the limit (R124): BAD, ERASE FAULT and BLOCK FAILED; the header program of state bad follows. -/
def eraseFailed (e : EraseProg) (c : Chip) : Chip :=
  let c := setBlockState e.block .bad (setErase (some { e with phase := .bad, verifyLeft := 0 }) c)
  queueEvent (.blockFailed e.block true) { c with store := { c.store with eraseFault := true } }

/-- The end of an erase verify (R122, R124). -/
def verifyEnd (pass : Bool) (s : State) : State :=
  match s.chip.store.erase with
  | some e =>
      if e.phase = .verify then
        if pass then
          { s with flash := s.flash.eraseBlock e.block,
                   chip := setErase (some { e with phase := .count, verifyLeft := 0 }) s.chip }
        else if e.applied < Config.eraseLimit then
          s.onChip fun c => grant (setErase (some { e with phase := .pulse, unit := 0, pulseRun := 0, verifyLeft := 0 }) c)
        else s.onChip fun c => settleAll (eraseFailed e c)
      else s
  | none => s

/-- The erase count after one more erase (R103). -/
def countAfter (n : Nat) : Nat := min 16777215 (n + 1)

/-- The end of a count program on the part (R124). -/
def countDone (e : EraseProg) (ok : Bool) (c : Chip) : Chip :=
  let c := modBlock e.block (fun x => { x with count := countAfter x.count }) c
  let c :=
    if ok then
      let c := setBlockState e.block .erased c
      if c.store.op = .totalBlocks then c else joinErased e.block c
    else
      let c := setBlockState e.block .damaged c
      programFailed e.block (if c.store.op = .totalBlocks then c else joinEraseQueue e.block c)
  eraseOver e.block (!ok) c

/-- The end of a count program (R124). -/
def countEnd (r : ProgResult) (s : State) : State :=
  match s.chip.store.erase with
  | some e =>
      if e.phase = .count then
        let out := s.flash.program r (countWrites e.block (countAfter (blockAt s.chip e.block).count))
        { s with flash := out.1, chip := countDone e out.2 s.chip }
      else s
  | none => s

/-- The end of the header program of state bad (R124): the block is BAD whether or not it succeeded. A header that reads bad is what
later scans go by, whatever erase of the block was cut before (R126); else the block's content is not trusted. What the rest of the block
reads after an erase that reached its limit is left open: the model keeps its bytes, so a later scan finds the format mark and the count of
before the erase (DESIGN CHOICE, notes/assumptions/76.md). -/
def badEnd (r : ProgResult) (s : State) : State :=
  match s.chip.store.erase with
  | some e =>
      if e.phase = .bad then
        let out := s.flash.program r (badWrites e.block)
        { s with flash := if out.2 then out.1.untear e.block else out.1.tear e.block, chip := eraseOver e.block true s.chip }
      else s
  | none => s

end Sys2Proof.Machine
end

