-- ==== Sys2Proof/Machine/Booting.lean ====
section
/-!
DEFINITION. The Boot Server (09_host_boot.md): holding and serving, the image check, chunks, installs, and the selection of the boot
page after a scan.
-/
namespace Sys2Proof.Machine

open Sys2Proof

/-! ## Serving (R167 to R171) -/

/-- The event of a pending report (R171). -/
def PendingReport.event : PendingReport → Event
  | .wakeCause k n => .wakeCause k n
  | .hostReset => .hostReset

/-- The pending report is queued, where there is one, and becomes none (R171). -/
def queuePending (c : Chip) : Chip :=
  match c.boot.report with
  | some x => queueEvent x.event { c with boot := { c.boot with report := none } }
  | none => c

/-- A chunk in flight is withdrawn (R164, R170). -/
def dropChunk (c : Chip) : Chip :=
  match c.boot.chunk with
  | some _ => dropRead .imageRead { c with boot := { c.boot with chunk := none } }
  | none => c

/-- A directive ends serving (R170). -/
def endServing (c : Chip) : Chip :=
  let c := dropChunk c
  let c := { c with boot := { c.boot with state := .complete } }
  queuePending (queueEvent (.bootComplete true) c)

/-- The reason of an image result (R169). -/
def ImageResult.why : ImageResult → AbsentReason
  | .absent w => w
  | _ => .none_

/-- Serving ends without an image (R169). -/
def endAbsent (c : Chip) : Chip :=
  let c := queueRecord (.bootEnd false (some c.boot.result.why) 0 0) { c with boot := { c.boot with state := .absent } }
  queuePending c

/-- Serving ends past the image (R168). -/
def endComplete (c : Chip) : Chip :=
  let c := { c with boot := { c.boot with state := .complete } }
  let c := queueRecord (.bootEnd true none (c.boot.length.getD 0) (c.boot.checksum.getD 0)) c
  queuePending (queueEvent (.bootComplete false) c)

/-- BOOT FETCH (R167 to R169). The length is checked before the boot state, so a fetch of another length is MALFORMED in every state (R190;
DEDUCED, notes/assumptions/68.md), and the REPLY goes before the records that end serving, by R168 and R169 where R180 has them the other way
round (DEDUCED, notes/assumptions/70.md). -/
def bootFetchChip (p : List Byte) (c : Chip) : Chip :=
  withLength p 3 (fun c =>
    let n := numAt p 1 2
    if c.boot.state ≠ .serving then refuse p .sequence c
    else if c.boot.chunk.isSome then refuse p .busy c
    else if c.boot.result ≠ .valid then endAbsent (reply p .accepted c)
    else if n * 128 < c.boot.length.getD 0 then
      askRead .imageRead { reply p .accepted c with
        boot := { c.boot with chunk := some ⟨n, n * 128 / rawBytes, [], 0⟩ } }
    else endComplete (reply p .accepted c)) c

/-! ## Holding (R164) -/

/-- The Boot Server at a host reset (R164). -/
def enterHolding (c : Chip) : Chip :=
  let c := dropChunk c
  { c with boot := { c.boot with state := .holding }, power := { c.power with bootHold := true } }

/-- The conditions that end HOLDING (R164). -/
def holdingOver (c : Chip) : Bool :=
  decide (c.boot.state = .holding) && decide (c.power.state = .run) && decide (c.store.op ≠ .scanning) && c.store.scanned &&
    c.boot.check.isNone && c.boot.install.isNone && decide (Config.hostUpTime ≤ c.power.hostUp)

/-- HOLDING is left where its conditions hold (R164). -/
def releaseHold (c : Chip) : Chip :=
  if holdingOver c then
    { c with boot := { c.boot with state := .serving }, power := { c.power with bootHold := false } }
  else c

/-- BOOT_HOLD_RELEASE on the part (R164): the moment at which the last condition, the host supply's 20 ms among them, is met. -/
def bootReleaseChip (c : Chip) : Chip :=
  let up := { c with power := { c.power with hostUp := max c.power.hostUp Config.hostUpTime } }
  if holdingOver up then releaseHold up else c

/-! ## Reading the image (R166, R167) -/

/-- The block that holds line `n` of a page, and the line's index in it, by the blocks' committed lines. -/
def linePlace (c : Chip) : List Nat → Nat → Option (Nat × Nat)
  | [], _ => none
  | b :: bs, n =>
      if n < (blockAt c b).committed then some (b, n) else linePlace c bs (n - (blockAt c b).committed)

/-- Line `n` of a page as it stands in flash, found by walking the entries by their length fields (R166, R167). -/
def imageLine (m : List Host.Cell) (c : Chip) (page n : Nat) : Option Coded :=
  ((pageOf c page).bind fun p => linePlace c p.blocks n).bind fun x =>
    (entryOffset m x.1 x.2 0).bind fun off => readEntry m x.1 off

/-- The 216 raw bytes of line `n` of a page: `none` where it cannot be read, which is tried again, `some none` where it decodes
with a repair, which is not (R166). -/
def imageBytes (m : List Host.Cell) (c : Chip) (page n : Nat) : Option (Option (List Byte)) :=
  match imageLine m c page n with
  | none => none
  | some coded =>
      let d := decodeLine coded.form.asIn coded.data
      some (if d.2 then none else some (rawOf d.1))

/-- The image length is out of reach (R166, first case). -/
def badLength (length lines : Nat) : Bool := decide (length = 0 ∨ lines * rawBytes < length ∨ Config.maxImage < length)

/-- An image check ends (R166): its result is the installed page's, or in an install leads to MARK or to MISMATCH (R173). A MARK
whose lock check fails, SERVICE having ended or LOCK PAGE having set the cells meanwhile, ends the install with FAULT (R132, R173; DESIGN
CHOICE, notes/assumptions/41.md). -/
def checkEnds (res : ImageResult) (c : Chip) : Chip :=
  let c := { c with boot := { c.boot with check := none } }
  match c.boot.install with
  | some i =>
      if res ≠ .valid then endInstall .mismatch c
      else if ((firstBlock c i.page).map (lockPasses c)).getD true then
        askProgram .installMark { c with boot := { c.boot with install := some { i with phase := .mark } } }
      else endInstall .fault c
  | none => { c with boot := { c.boot with result := res } }

/-- An image check begins (R166). -/
def startCheck (page length checksum : Nat) (c : Chip) : Chip :=
  let lines := match pageOf c page with | some p => p.lines | none => 0
  if badLength length lines then checkEnds (.absent .length) c
  else askRead .imageRead { c with boot := { c.boot with check := some ⟨page, length, checksum, 0, 0, 0, 0⟩ } }

/-- A sum of bytes kept mod 65,536 (R166). -/
def sumBytes (s : Nat) (bs : List Byte) : Nat := bs.foldl (fun a b => (a + b.toNat) % 65536) s

/-- One read of an image check ends (R166). -/
def checkRead (m : List Host.Cell) (k : Check) (c : Chip) : Chip :=
  match imageBytes m c k.page k.line with
  | none =>
      if 3 ≤ k.attempts + 1 then checkEnds (.absent .unreadable) c
      else askRead .imageRead { c with boot := { c.boot with check := some { k with attempts := k.attempts + 1 } } }
  | some none => checkEnds (.absent .unreadable) c
  | some (some raw) =>
      let bs := raw.take (k.length - k.counted)
      let k := { k with line := k.line + 1, counted := k.counted + bs.length, sum := sumBytes k.sum bs, attempts := 0 }
      if k.length ≤ k.counted then checkEnds (if k.sum = k.checksum then .valid else .absent .checksum) c
      else askRead .imageRead { c with boot := { c.boot with check := some k } }

/-- The bytes of a chunk (R167). -/
def chunkLength (number length : Nat) : Nat := min 128 (length - number * 128)

/-- A chunk that cannot be read ends serving (R167). -/
def chunkFails (c : Chip) : Chip :=
  endAbsent { c with boot := { c.boot with chunk := none, result := .absent .unreadable } }

/-- One read of a chunk ends (R167). -/
def chunkRead (m : List Host.Cell) (k : Chunk) (c : Chip) : Chip :=
  match imageBytes m c (c.boot.installed.getD 0) k.line with
  | none =>
      if 3 ≤ k.attempts + 1 then chunkFails c
      else askRead .imageRead { c with boot := { c.boot with chunk := some { k with attempts := k.attempts + 1 } } }
  | some none => chunkFails c
  | some (some raw) =>
      let want := chunkLength k.number (c.boot.length.getD 0)
      let from_ := k.number * 128 + k.bytes.length - k.line * rawBytes
      let bs := k.bytes ++ (raw.drop from_).take (want - k.bytes.length)
      if want ≤ bs.length then queueRecord (.bootChunk k.number bs) { c with boot := { c.boot with chunk := none } }
      else askRead .imageRead { c with boot := { c.boot with chunk := some { k with line := k.line + 1, bytes := bs, attempts := 0 } } }

/-- An image read ends on the part (R166, R167). -/
def imageReadDone (m : List Host.Cell) (c : Chip) : Chip :=
  match c.boot.check, c.boot.chunk with
  | some k, _ => checkRead m k c
  | none, some k => chunkRead m k c
  | none, none => c

/-! ## Installing (R172, R173) -/

/-- Whether the mark, the length and the checksum of a page's sequence-0 header are all at FFh (R172 check 5). -/
def markBlank (m : List Host.Cell) (b : Nat) : Bool := (blockBytesAt m b 39 7).all (· == 0xFF)

/-- The lock checks of INSTALL BOOT (R172 check 8). -/
def installLocked (c : Chip) (b : Nat) : Bool :=
  (blockAt c b).lock ||
    (match c.boot.installed.bind (pageOf c) with | some q => q.blocks.any fun x => (blockAt c x).lock | none => false)

/-- Checks 2 to 8 of R172: the first that fails. -/
def installCheck (m : List Host.Cell) (id length : Nat) (c : Chip) : Option Reason :=
  if storeTaken c || c.boot.install.isSome || c.boot.check.isSome then some .busy
  else
    match pageOf c id with
    | none => some .noSuchPage
    | some pg =>
        let b := pg.blocks.headD 0
        if pg.origin ≠ .boot then some .noSuchPage
        else if pg.writing then some .busy
        else if markBlank m b = false then some .limit
        else if badLength length pg.lines then some .limit
        else if masterSet c && !serviceHeld c then some .protected_
        else if !serviceHeld c && installLocked c b then some .protected_
        else none

/-- INSTALL BOOT (R172, R173). -/
def installChip (m : List Host.Cell) (p : List Byte) (c : Chip) : Chip :=
  withLength p 9 (fun c =>
    let id := numAt p 1 2
    let length := numAt p 3 4
    let sum := numAt p 7 2
    match installCheck m id length c with
    | some .protected_ => refuseProtected p c
    | some r => refuse p r c
    | none =>
        let c := reply p .accepted c
        startCheck id length sum { c with boot := { c.boot with install := some ⟨id, length, sum, .check⟩ } }) c

/-- The switch to the page installed (R173 step 3), and the RETIRE phase where there was a former page. -/
def installSwitch (i : Install) (c : Chip) : Chip :=
  let former := c.boot.installed
  let c := { c with boot := { c.boot with
    installed := some i.page, length := some i.length, checksum := some i.checksum, result := .valid } }
  match former with
  | some f => { c with boot := { c.boot with install := some { i with phase := .retire f false } } }
  | none => endInstall .done c

/-- The end of the MARK program on the part (R173). -/
def markDone (ok : Bool) (c : Chip) : Chip :=
  match c.boot.install with
  | some i =>
      if ok then installSwitch i c
      else endInstall .fault { c with store := { c.store with programFault := true } }
  | none => c

/-- Whether a page is in the list of a route with a STORE source that is not CLOSED (R20, R119, R173). -/
def pageRead (id : Nat) (c : Chip) : Bool := !(routesWhere c fun x => x.source == .store && x.pages.contains id).isEmpty

/-- A retire of the former boot page: a block whose lock check fails, SERVICE having ended or LOCK PAGE having set its cell meanwhile, is left
as a withdrawn retire leaves it (R132, R144; DESIGN CHOICE, notes/assumptions/41.md). -/
def retireFormer (c : Chip) (b : Nat) : Chip :=
  if lockPasses c b then retireBlock .install c b
  else retireEnded .install true (joinEraseQueue b (setBlockState b .damaged c))

/-- INSTALL_RETIRE_START on the part (R173 step 4). -/
def installRetireChip (c : Chip) : Chip :=
  match c.boot.install with
  | some i =>
      match i.phase with
      | .retire former false =>
          if pageRead former c then c
          else
            let c := { c with boot := { c.boot with install := some { i with phase := .retire former true } } }
            match pageOf c former with
            | some pg =>
                if pg.blocks.isEmpty then endInstall .done (removePage former c)
                else
                  let c := removePage former c
                  pg.blocks.foldl retireFormer
                    { c with store := { c.store with retires := c.store.retires ++ [⟨.install, pg.blocks.length, false⟩] } }
            | none => endInstall .done c
      | _ => c
  | none => c

/-! ## Selection (R165) -/

/-- Whether a page is a boot page whose sequence-0 header reads the mark present (R165, R191). -/
def marked (m : List Host.Cell) (pg : Page) : Bool :=
  decide (pg.origin = .boot) && !pg.writing && decide (blockByte m (pg.blocks.headD 0) 39 = 0x00)

/-- A superseded page leaves the directory where every block passes the lock check of retire (R165). -/
def supersede (c : Chip) (pg : Page) : Chip :=
  if pg.blocks.all (lockPasses c) then retireBlocks .quiet pg.blocks (removePage pg.id c) else c

/-- The boot page is selected after a scan (R165): of the marked pages the last in creation order. The other pages are superseded in ascending
creation order, and their retires are asked for before the image check's first read (DESIGN CHOICE, notes/assumptions/69.md). -/
def selectBoot (m : List Host.Cell) (c : Chip) : Chip :=
  match (c.store.dir.filter (marked m)).reverse with
  | [] => { c with boot := { c.boot with installed := none, length := none, checksum := none, result := .absent .none_ } }
  | pg :: others =>
      let b := pg.blocks.headD 0
      let c := { c with boot := { c.boot with
        installed := some pg.id, length := some (blockNum m b 40 4), checksum := some (blockNum m b 44 2),
        result := .unchecked } }
      startCheck pg.id (blockNum m b 40 4) (blockNum m b 44 2) (others.reverse.foldl supersede c)

end Sys2Proof.Machine
end

