-- ==== Sys2Proof/Machine/Protecting.lean ====
section
/-!
DEFINITION. The store's own directives and the Protection Unit (06_page_store.md R119, R125, 07_store_protection_and_service_access.md):
DELETE, the locks, CLEAR LOCKS and TOTAL ERASE with CONFIRM, service access, a service failure, and the end of SERVICE; with the
host reset that a failure asks for (R149, R189).
-/
namespace Sys2Proof.Machine

open Sys2Proof

/-! ## Host reset (R149, R156, R164, R189) -/

/-- A pending sleep is cancelled (R156): RUN, the wake timer setting 0, and SLEEP CANCELLED. -/
def cancelSleep (cause : CancelCause) (c : Chip) : Chip :=
  if c.power.state = .sleepPending then
    queueEvent (.sleepCancelled cause) { c with power := { c.power with state := .run, wakeTimer := 0 } }
  else c

/-- A LINE record in part is discarded (R93, R177): its fill is abandoned, and its bytes taken so far have no effect. A route that it took
out of OPEN is in OPEN again, and CREDIT OVERRUN of a record that was not accepted does not come (DEDUCED, notes/assumptions/61.md). -/
def abandonLine (c : Chip) : Chip :=
  match c.linkIn with
  | .decoding r n first _ _ => returnSlot n (modCtx r (fun x => { x with begun := x.begun && !first }) { c with linkIn := .idle })
  | _ => { c with linkIn := .idle }

/-- The Page Link Interface at a host reset (R189). R99 has the lane finish a record it began with 00h, R189 abandons an upstream record
in part without padding: R143 aborts the routes first and resets the host behind that, so nothing of the record remains (DEDUCED,
notes/assumptions/54.md). -/
def linkHostReset (c : Chip) : Chip :=
  let c := abandonLine c
  { c with
    linkOut := (match c.linkOut with | .padding _ _ => .idle | .orphanEnd _ => .idle | x => x)
    link := { c.link with parser := .between, held := none, reports := [], listing := none, pulseMode := false, atnLeft := 0,
                          up := .idle, sent := 0, cut := none } }

/-- A host reset (R149): the link first, then a pending sleep, then the Boot Server. -/
def hostReset (c : Chip) : Chip := enterHolding (cancelSleep .hostReset (linkHostReset c))

/-- A host reset request is added by `f`: where HRSTN was released, that is a host reset (R149). -/
def addReset (f : Chip → Chip) (c : Chip) : Chip := if hrstnAsserted c then f c else hostReset (f c)

/-! ## Service (R141 to R143) -/

/-- The service code held in the copy. -/
def codeHeld (c : Chip) : Option (List Byte) := c.prot.copy.bind KeyCopy.code

/-- Sets the service state. -/
def setService (x : ServiceState) (c : Chip) : Chip := { c with prot := { c.prot with service := x } }

/-- A service failure (R143). Several open routes are aborted in ascending number (DESIGN CHOICE, notes/assumptions/65.md). -/
def serviceFailure (c : Chip) : Chip :=
  let c := { c with prot := { c.prot with service := .normal, failures := min 4 (c.prot.failures + 1) } }
  let c := routeNumbers.foldl (fun c r => abortRoute r .aborted c) c
  let c := { c with store := { c.store with setup := .none } }
  let c := addReset (fun c => { c with power := { c.power with pulseHold := some Config.servicePulse } }) c
  settleAll (releaseHold { c with boot := { c.boot with report := some .hostReset } })

/-- SERVICE REQUEST (R141). -/
def serviceRequestChip (p : List Byte) (c : Chip) : Chip :=
  withLength p 1 (fun c =>
    if 4 ≤ c.prot.failures then refuse p .limit c
    else if c.prot.copy.isNone then refuse p .busy c
    else
      match c.prot.service with
      | .window _ => refuse p .busy c
      | .service => reply p .accepted c
      | .normal =>
          setService (if (codeHeld c).isSome then .window Config.serviceWindow else .service) (reply p .accepted c)) c

/-- SERVICE CODE (R142). With no code in the copy, a TOTAL ERASE having ended within the window, no 8 bytes match (DESIGN CHOICE,
notes/assumptions/60.md). -/
def serviceCodeChip (p : List Byte) (c : Chip) : Chip :=
  withLength p 9 (fun c =>
    match c.prot.service with
    | .window _ =>
        if codeHeld c = some (p.drop 1) then setService .service (reply p .accepted c)
        else serviceFailure (refuseProtected p c)
    | _ => refuse p .sequence c) c

/-- SERVICE_WINDOW_EXPIRY on the part (R142). -/
def windowExpiryChip (c : Chip) : Chip :=
  match c.prot.service with
  | .window _ => serviceFailure c
  | _ => c

/-! ## The end of SERVICE (R144) -/

/-- Whether a waiting or granted program job needs the lock check of a block whose cell is set (R132, R144). -/
def lockedJob (c : Chip) : Job → Bool
  | .retire b _ => (blockAt c b).lock
  | .installMark => match c.boot.install.bind fun i => firstBlock c i.page with | some b => (blockAt c b).lock | none => false
  | _ => false

/-- A retire or boot mark program is cut or withdrawn (R144, R173). A cut retire queues no BLOCK FAILED, as it sets no PROGRAM FAULT
(DEDUCED, notes/assumptions/59.md). -/
def dropLocked (c : Chip) (j : Job) : Chip :=
  match j with
  | .retire b why => retireEnded why true (joinEraseQueue b (setBlockState b .damaged c))
  | .installMark => endInstall .fault c
  | _ => c

/-- What an erase that is cut leaves in flash (R126, R140, R144): nothing where its pulse had not begun; after a passing verify,
the erased block with its header programmed in part, which a TOTAL ERASE cut short leaves untrusted too (R140); else content that is
not trusted. -/
def cutEraseFlash (e : EraseProg) (c : Chip) (f : Flash) : Flash :=
  match e.phase with
  | .queued => f
  | .count =>
      let f := f.cut (countWrites e.block (countAfter (blockAt c e.block).count))
      if c.store.op = .totalBlocks then f.tear e.block else f
  | _ => f.tear e.block

/-- An erase in flight of a locked block is cut (R144): DAMAGED at the tail of the erase queue. A block already BAD stays so
(R124). -/
def cutLockedErase (s : State) : State :=
  match s.chip.store.erase with
  | some e =>
      if (blockAt s.chip e.block).lock && decide (s.chip.store.op ≠ .totalBlocks) then
        let c := setErase none s.chip
        { s with flash := cutEraseFlash e s.chip s.flash
                 chip := if e.phase = .bad then c else joinEraseQueue e.block (setBlockState e.block .damaged c) }
      else s
  | none => s

/-- A program job holding the flash for a locked block is cut (R144). -/
def cutLockedHolder (s : State) : State :=
  match s.chip.store.holder with
  | some j =>
      if lockedJob s.chip j then
        { s with flash := s.flash.cut (jobWrites s.chip s.flash.mem j)
                 chip := dropLocked { s.chip with store := { s.chip.store with holder := none } } j }
      else s
  | none => s

/-- Program jobs waiting for locked blocks are withdrawn (R144). -/
def withdrawLocked (c : Chip) : Chip :=
  let js := c.store.programs.filter (lockedJob c)
  js.foldl dropLocked { c with store := { c.store with programs := c.store.programs.filter fun j => !lockedJob c j } }

/-- The routes whose STORE sink writes a page of origin BOOT (R22, R144): those opened or redirected for pages of that origin, whether or not
a page is being written at that moment (DESIGN CHOICE, notes/assumptions/79.md). -/
def bootWriters (c : Chip) : List Nat :=
  routesWhere c fun x => x.sinks.contains .store && (match x.storeP with | some y => y.origin == .boot | none => false)

/-- The end of SERVICE, by any of its causes (R144). Several routes that it aborts go in ascending number (DESIGN CHOICE,
notes/assumptions/65.md). -/
def serviceOver (s : State) : State :=
  let s := s.onChip (setService .normal)
  let s := s.onChip fun c =>
    if masterSet c then (bootWriters c).foldl (fun c r => abortRoute r .protected_ c) c else c
  let s := cutLockedHolder (cutLockedErase s)
  s.onChip fun c => grant (settleAll (retryClaim (withdrawLocked c)))

/-- SERVICE ends, or an open window closes without a failure (R144). -/
def closeService (s : State) : State :=
  match s.chip.prot.service with
  | .service => serviceOver s
  | .window _ => s.onChip (setService .normal)
  | .normal => s

/-- SERVICE END (R144). -/
def serviceEndState (p : List Byte) (s : State) : State :=
  if p.length = 1 then closeService (s.onChip (reply p .accepted)) else s.onChip (refuse p .malformed)

/-! ## DELETE and CLEAR STORE STATUS (R119, R125) -/

/-- Whether a page is in use by the Boot Server (R119, R166, R173). -/
def bootUses (id : Nat) (c : Chip) : Bool :=
  (match c.boot.check with | some k => k.page == id | none => false) ||
    (c.boot.chunk.isSome && decide (c.boot.installed = some id)) ||
    (match c.boot.install with | some i => i.page == id || decide (c.boot.installed = some id) ||
        (match i.phase with | .retire f _ => f == id | _ => false) | none => false)

/-- Checks 2 to 5 of R119: the first that fails. -/
def deleteCheck (id : Nat) (c : Chip) : Option Reason :=
  if storeTaken c then some .busy
  else
    match pageOf c id with
    | none => some .noSuchPage
    | some pg =>
        if pg.writing || pageRead id c || bootUses id c then some .busy
        else if pg.blocks.all (lockPasses c) then none
        else some .protected_

/-- The loss of the installed page (R174). The rule names the page and the result; that the image length and the expected checksum, which
R163 has from the installed page's header, become absent with it is the model's reading (DEDUCED, notes/assumptions/78.md). -/
def loseImage (c : Chip) : Chip :=
  { c with boot := { c.boot with installed := none, length := none, checksum := none, result := .absent .none_ } }

/-- An accepted DELETE (R119, R174). -/
def acceptDelete (id : Nat) (c : Chip) : Chip :=
  let blocks := match pageOf c id with | some pg => pg.blocks | none => []
  let c := removePage id c
  let c := if c.boot.installed = some id then loseImage c else c
  if blocks.isEmpty then queueEvent (.storeOpDone .delete (some id) .done) c else retireBlocks (.delete id) blocks c

/-- DELETE (R119). -/
def deleteChip (p : List Byte) (c : Chip) : Chip :=
  withLength p 3 (fun c =>
    match deleteCheck (numAt p 1 2) c with
    | some .protected_ => refuseProtected p c
    | some r => refuse p r c
    | none => acceptDelete (numAt p 1 2) (reply p .accepted c)) c

/-- CLEAR STORE STATUS (R125). -/
def clearStatusChip (p : List Byte) (c : Chip) : Chip :=
  withLength p 1 (fun c => reply p .accepted { c with store := { c.store with
    programFault := false, eraseFault := false, sequenceFault := false, protectionFault := false } }) c

/-! ## Locks, code and master cell (R134 to R136) -/

/-- Checks 2 to 5 of R134: the first that fails. -/
def lockPageCheck (id : Nat) (c : Chip) : Option Reason :=
  if storeTaken c then some .busy
  else
    match pageOf c id with
    | none => some .noSuchPage
    | some pg =>
        if pg.writing then some .busy
        else if masterSet c && !serviceHeld c then some .protected_
        else none

/-- The cells of a page's blocks are set in the table (R106, R134). -/
def setLocks (bs : List Nat) (c : Chip) : Chip :=
  bs.foldl (fun c b =>
    let c := modBlock b (fun x => { x with lock := true }) c
    { c with store := { c.store with erasedList := c.store.erasedList.filter (· ≠ b) } }) c

/-- An accepted LOCK PAGE (R134). -/
def acceptLockPage (id : Nat) (c : Chip) : Chip :=
  let blocks := match pageOf c id with | some pg => pg.blocks | none => []
  let cells := blocks.filter fun b => !(blockAt c b).lock
  if cells.isEmpty then queueEvent (.storeOpDone .lockPage (some id) .done) c
  else askProgram (.row (.lockPage id cells)) (setLocks cells c)

/-- LOCK PAGE (R134). -/
def lockPageChip (p : List Byte) (c : Chip) : Chip :=
  withLength p 3 (fun c =>
    match lockPageCheck (numAt p 1 2) c with
    | some .protected_ => refuseProtected p c
    | some r => refuse p r c
    | none => acceptLockPage (numAt p 1 2) (reply p .accepted c)) c

/-- SET CODE (R135). -/
def setCodeChip (p : List Byte) (c : Chip) : Chip :=
  if p.length ≠ 9 ∨ (codeOf (p.drop 1)).isNone then refuse p .malformed c
  else if storeTaken c then refuse p .busy c
  else if (codeHeld c).isSome then refuseProtected p c
  else
    let c := reply p .accepted c
    askProgram (.row (.setCode (p.drop 1)))
      { c with prot := { c.prot with copy := c.prot.copy.map fun k => { k with code := some (p.drop 1) } } }

/-- SET MASTER LOCK (R136). -/
def setMasterChip (p : List Byte) (c : Chip) : Chip :=
  withLength p 1 (fun c =>
    if storeTaken c then refuse p .busy c
    else if (codeHeld c).isNone then refuse p .noCode c
    else
      let c := reply p .accepted c
      if masterSet c then queueEvent (.storeOpDone .setMasterLock none .done) c
      else
        askProgram (.row .setMaster)
          { c with prot := { c.prot with copy := c.prot.copy.map fun k => { k with master := true } } }) c

/-! ## CLEAR LOCKS, TOTAL ERASE and CONFIRM (R137 to R139) -/

/-- Whether a route uses a store endpoint, or a read or program job holds the flash or waits for it (R139 check 3). -/
def storeBusy (c : Chip) : Bool :=
  !(routesWhere c fun x => x.source == .store || x.sinks.contains .store).isEmpty || c.store.holder.isSome ||
    !(c.store.reads.isEmpty && c.store.programs.isEmpty)

/-- The checks of a setup after its payload (R138, R139): the first that fails. -/
def setupCheck (k : Setup) (c : Chip) : Option Reason :=
  if storeTaken c then some .busy
  else if k = .totalErase ∧ storeBusy c = true then some .busy
  else if masterSet c && !serviceHeld c then some .protected_
  else none

/-- A setup directive (R137 to R139). -/
def setupChip (k : Setup) (p : List Byte) (c : Chip) : Chip :=
  withLength p 1 (fun c =>
    match setupCheck k c with
    | some .protected_ => refuseProtected p c
    | some r => refuse p r c
    | none => { reply p .accepted c with store := { c.store with setup := k } }) c

/-- TOTAL ERASE begins on the part (R139 steps 1 to 4). -/
def beginTotal (c : Chip) : Chip :=
  let blocks := c.store.blocks.map fun x =>
    if x.state = .bad then x else { x with state := .retired, page := none }
  totalNext 0 (loseImage { c with store := { c.store with
    op := .totalBlocks, totalFault := false, erase := none, dir := [], blocks := blocks, erasedList := [], eraseQueue := [] } })

/-- The operation of a setup begins (R138, R139). -/
def beginSetup (k : Setup) (s : State) : State :=
  match k with
  | .none => s
  | .clearLocks => s.onChip fun c => grant { c with store := { c.store with op := .lockErase false } }
  | .totalErase =>
      { s with flash := (match s.chip.store.erase with | some e => cutEraseFlash e s.chip s.flash | none => s.flash)
               chip := beginTotal s.chip }

/-- CONFIRM (R137). -/
def confirmState (p : List Byte) (s : State) : State :=
  let k := s.chip.store.setup
  let absent := s.onChip fun c => { c with store := { c.store with setup := .none } }
  if p.length ≠ 1 then absent.onChip (refuse p .malformed)
  else if k = .none then
    s.onChip fun c => refuse p .sequence { c with store := { c.store with sequenceFault := true } }
  else
    match setupCheck k s.chip with
    | some .protected_ => absent.onChip (refuseProtected p)
    | some r => absent.onChip (refuse p r)
    | none => beginSetup k (absent.onChip (reply p .accepted))

/-- The lock segment after its erase: the cells that were set and still are (R138, R139). -/
def eraseLocks (still : List Nat) (f : Flash) : Flash :=
  { f with lockCells := lockBytes fun b => cellSet f.lockCells b && still.contains b }

/-- Every table cell takes the value the row reads (R138, R139). -/
def readLocks (f : Flash) (c : Chip) : Chip :=
  { c with store := { c.store with blocks := (List.range c.store.blocks.length).zip c.store.blocks |>.map fun x =>
      { x.2 with lock := cellSet f.lockCells x.1 } } }

/-- Whether every cell of the lock segment reads clear. -/
def locksClear (f : Flash) : Bool := (cellsOf f.lockCells).all (!·)

/-- The lock-segment erase of CLEAR LOCKS ends on the part (R138). -/
def locksErased (f : Flash) (c : Chip) : Chip :=
  let c := (List.range Config.blockCount).foldl (fun c b => joinErased b c) (readLocks f c)
  let c := { c with store := { c.store with op := .none, segLeft := 0, eraseFault := c.store.eraseFault || !locksClear f } }
  let c := retryClaim (queueEvent (.storeOpDone .clearLocks none (opResult (!locksClear f))) c)
  grant (settleAll c)

/-- The end of the lock-segment erase of CLEAR LOCKS (R138). -/
def lockEraseEnd (still : List Nat) (s : State) : State :=
  if s.chip.store.op = .lockErase true then
    let f := eraseLocks still s.flash
    { s with flash := f, chip := locksErased f s.chip }
  else s

/-- The end of the lock-segment erase of a TOTAL ERASE (R139 step 5). -/
def totalLockEnd (still : List Nat) (s : State) : State :=
  if s.chip.store.op = .totalLock then
    let f := eraseLocks still s.flash
    { s with flash := f
             chip := readLocks f { s.chip with store := { s.chip.store with op := .totalKey, segLeft := Config.segmentTime } } }
  else s

/-- The key segment after its erase: each bit as it was or cleared to 1; `key` is the master cell, then the code, as they read. -/
def eraseKey (key : List Byte) (f : Flash) : Flash :=
  { f with master := f.master ||| key.getD 0 0xFF
           code := (List.range f.code.length).zip f.code |>.map fun x => x.2 ||| key.getD (x.1 + 1) 0xFF }

/-- Whether the whole protection row reads erased (R139). -/
def rowErased (f : Flash) : Bool := locksClear f && decide (f.master = 0xFF) && (codeOf f.code).isNone

/-- The lists are built after a TOTAL ERASE or a scan: ERASED blocks with clear cells, and DAMAGED blocks in block number. -/
def rebuildLists (c : Chip) : Chip :=
  let c := (List.range Config.blockCount).foldl (fun c b => joinErased b c) c
  ((List.range Config.blockCount).filter fun b => (blockAt c b).state = .damaged).foldl (fun c b => joinEraseQueue b c) c

/-- The key segment erase ends on the part (R139 step 6). -/
def totalOver (f : Flash) (c : Chip) : Chip :=
  let failed := c.store.totalFault || !rowErased f
  let c := rebuildLists { c with
    prot := { c.prot with copy := some f.key }
    store := { c.store with op := .none, segLeft := 0, totalFault := false, eraseFault := c.store.eraseFault || !rowErased f } }
  grant (settleAll (queueEvent (.storeOpDone .totalErase none (opResult failed)) c))

/-- The end of the key segment erase (R139). -/
def keyEraseEnd (key : List Byte) (s : State) : State :=
  if s.chip.store.op = .totalKey then
    let f := eraseKey key s.flash
    { s with flash := f, chip := totalOver f s.chip }
  else s

end Sys2Proof.Machine
end

