-- ==== Sys2Proof/Machine/Rebuilding.lean ====
section
/-!
DEFINITION. The start-up scan (06_page_store.md 6.9, R191): the classes of headers, the pages found, the tables and counters built.
-/
namespace Sys2Proof.Machine

open Sys2Proof

/-! ## One block (R126, R191) -/

/-- Whether every byte of a stretch of a block reads FFh. -/
def blankAt (m : List Host.Cell) (b off n : Nat) : Bool := (blockBytesAt m b off n).all (· == 0xFF)

/-- Whether a flag of the header is set: 0 is set (11.5). -/
def headerFlag (m : List Host.Cell) (b i : Nat) : Bool := !((blockByte m b 6).getLsbD i)

/-- The erase count that a header gives (R126): with the format mark, and present. -/
def headerCount (m : List Host.Cell) (b : Nat) : Option Nat :=
  if blockByte m b 0 = 0x5A ∧ blockByte m b 1 = 0xC3 ∧ blankAt m b 2 3 = false then some (blockNum m b 2 3) else none

/-- The length of the label of a header, or `none` where it is out of bounds; FFh is no label (R191). -/
def labelLength (m : List Host.Cell) (b : Nat) : Option Nat :=
  let n := (blockByte m b 18).toNat
  if n ≤ 20 then some n else if n = 255 ∧ blankAt m b 19 20 = true then some 0 else none

/-- A candidate for its page (R126, R127). -/
structure Candidate where
  block : Nat
  count : Nat
  id : Nat
  seq : Nat
  creation : Nat
  origin : Origin
  steps : Nat
  closed : Bool
  fin : Bool
  truncated : Bool
  isPartial : Bool
  relocated : Bool
  start : Nat
  label : List Byte
  lines : Nat
  used : Nat
  deriving DecidableEq, Repr

/-- What the scan finds in a block's header (R126). -/
inductive Found where
  | erased (count : Nat)
  | candidate (x : Candidate)
  | retired (count : Option Nat)
  | bad (count : Option Nat)
  | damaged (count : Option Nat)
  deriving DecidableEq, Repr

/-- A header of state claimed or full that agrees (R191), with its line area walked (R126). The boot fields at bytes 39 to 45 are not
tested, whatever the state, origin and sequence (DEDUCED, notes/assumptions/83.md). -/
def candidateOf (m : List Host.Cell) (b : Nat) (closed : Bool) : Option Candidate :=
  match headerCount m b, originOf (blockByte m b 14).toNat, labelLength m b with
  | some count, some origin, some n =>
      let id := blockNum m b 7 2
      let seq := blockNum m b 9 1
      let steps := blockNum m b 15 1
      let creation := blockNum m b 10 4
      if id < 1 ∨ 65534 < id ∨ 62 < seq ∨ creation < 1 ∨ (steps ≠ 2 ∧ steps ≠ 4) ∨ blankAt m b 46 18 = false ∨
          (0 < seq ∧ (blankAt m b 16 23 = false ∨ headerFlag m b 2 = true)) then none
      else
        let walk := walkArea m b areaFuel 0 0
        some { block := b, count := count, id := id, seq := seq, creation := creation, origin := origin, steps := steps,
               closed := closed, fin := headerFlag m b 0, truncated := headerFlag m b 1, isPartial := headerFlag m b 2,
               relocated := headerFlag m b 3, start := blockNum m b 16 2, label := blockBytesAt m b 19 n,
               lines := walk.1, used := walk.2 }
  | _, _, _ => none

/-- The class of a block by its header (R126). -/
def classify (m : List Host.Cell) (b : Nat) : Found :=
  let st := (blockByte m b 5).toNat
  if st = 0xFF then
    match headerCount m b with
    | some n => if blankAt m b 5 59 then .erased n else .damaged (some n)
    | none => .damaged none
  else if st = 0x3F ∨ st = 0x0F then
    match candidateOf m b (decide (st = 0x0F)) with
    | some x => .candidate x
    | none => .damaged (headerCount m b)
  else if st = 0x03 then .retired (headerCount m b)
  else if st = 0x00 then .bad (headerCount m b)
  else .damaged (headerCount m b)

/-- A block whose erase was begun and abandoned is DAMAGED whatever its header reads, and gives no count (R126, R128). -/
def findBlock (torn : Nat → Bool) (m : List Host.Cell) (b : Nat) : Found := if torn b then .damaged none else classify m b

/-- The erase count a class carries. -/
def Found.count : Found → Option Nat
  | .erased n => some n
  | .candidate x => some x.count
  | .retired n => n
  | .bad n => n
  | .damaged n => n

/-- The candidate of a class. -/
def Found.cand : Found → Option Candidate
  | .candidate x => some x
  | _ => none

/-! ## Pages (R127) -/

/-- Whether a candidate is kept before another of the same sequence (R127). -/
def Candidate.before (x y : Candidate) : Bool :=
  if x.lines ≠ y.lines then decide (y.lines < x.lines)
  else if x.relocated ≠ y.relocated then x.relocated
  else decide (x.block < y.block)

/-- The candidate kept of several. -/
def bestOf : List Candidate → Option Candidate
  | [] => none
  | x :: rest => match bestOf rest with | none => some x | some y => if y.before x then some y else some x

/-- The blocks a page keeps from a sequence on (R127): up to the first missing one, or the first in state claimed. -/
def chainFrom (cs : List Candidate) : Nat → Nat → List Candidate
  | 0, _ => []
  | fuel + 1, seq =>
      match bestOf (cs.filter fun x => x.seq == seq) with
      | none => []
      | some x => if x.closed then x :: chainFrom cs fuel (seq + 1) else [x]

/-- A page found: its kept blocks, in order. -/
def pageOfChain (ch : List Candidate) : Option Page :=
  match ch, ch.getLast? with
  | x :: _, some z =>
      let lines := (ch.map Candidate.lines).sum
      if lines = 0 then none
      else
        some { id := x.id, writing := false, origin := x.origin, truncated := z.truncated,
               interrupted := !(z.closed && z.fin), isPartial := x.isPartial, lines := lines, steps := x.steps,
               creation := x.creation, blocks := ch.map Candidate.block, label := x.label,
               partialStart := if x.isPartial then some x.start else none }
  | _, _ => none

/-- The page ids and creation sequences that occur, each once. -/
def pageKeys (cs : List Candidate) : List (Nat × Nat) := (cs.map fun x => (x.id, x.creation)).dedup

/-- The pages found, before those that share an id or exceed the directory are dropped (R127). -/
def pagesFound (cs : List Candidate) : List Page :=
  (pageKeys cs).filterMap fun k => pageOfChain (chainFrom (cs.filter fun x => x.id == k.1 && x.creation == k.2) 63 0)

/-- Puts a page in its place in creation order. -/
def insertPage (p : Page) : List Page → List Page
  | [] => [p]
  | q :: rest => if p.creation < q.creation ∨ (p.creation = q.creation ∧ p.id < q.id) then p :: q :: rest else q :: insertPage p rest

/-- The directory of a scan (R127): of pages that share an id the one with the higher creation sequence, in creation order, the
first 48. -/
def directoryOf (cs : List Candidate) : List Page :=
  let ps := pagesFound cs
  let kept := ps.filter fun p => !ps.any fun q => q.id == p.id && decide (p.creation < q.creation)
  (kept.foldr insertPage []).take Config.dirCap

/-! ## Tables and counters (R126 to R128) -/

/-- The highest erase count found, or 0 (R126). -/
def highestCount (fs : List Found) : Nat := (fs.filterMap Found.count).foldl max 0

/-- The table entry of a block (R126, R127): a candidate of a kept page is FULL, another is DAMAGED. Where the header gives no count, a
RETIRED or BAD block too takes the highest count found, which R126 says of DAMAGED blocks (DESIGN CHOICE, notes/assumptions/56.md). -/
def tableEntry (dir : List Page) (top : Nat) (lock : Bool) (b : Nat) (x : Found) : Block :=
  let base : Block := { Block.blank with count := x.count.getD top, lock := lock }
  match x with
  | .erased _ => { base with state := .erased }
  | .candidate k =>
      if dir.any fun p => p.blocks.contains b then
        { base with state := .full, page := some k.id, seq := k.seq, committed := k.lines, used := k.used }
      else { base with state := .damaged }
  | .retired _ => { base with state := .retired }
  | .bad _ => { base with state := .bad }
  | .damaged _ => { base with state := .damaged }

/-- The creation-sequence counter after a scan (R128). The creation sequences found are those of the claimed and full headers that agree
(DESIGN CHOICE, notes/assumptions/57.md). -/
def creationAfter (cs : List Candidate) : Nat := (cs.map Candidate.creation).foldl max 0 + 1

/-- The page-id counter after a scan (R128): the id after that of the page with the highest creation sequence, of the pages kept in the
directory (DESIGN CHOICE, notes/assumptions/57.md). -/
def idAfter (dir : List Page) : Nat := match dir.getLast? with | some p => nextPageId p.id | none => 1

/-- The erase queue after a scan (R128): the RETIRED and DAMAGED blocks in block number; at a wake after the queue as it stood. -/
def queueAfter (kind : ScanKind) (old : List Nat) (c : Chip) : List Nat :=
  let spent := (List.range Config.blockCount).filter fun b =>
    decide ((blockAt c b).state = .retired ∨ (blockAt c b).state = .damaged)
  match kind with
  | .wake => old.filter (fun b => spent.contains b) ++ spent.filter fun b => !old.contains b
  | _ => spent

/-- The tables of a scan (R126 to R128), from the flash as it stands, and the copy of the key segment (R130), which becomes known with them at
the scan's end (DEDUCED, notes/assumptions/82.md). -/
def scanTables (f : Flash) (c : Chip) : Chip :=
  let torn := fun b => f.torn.contains b || decide (c.store.abandoned = some b)
  let fs := (List.range Config.blockCount).map (findBlock torn f.mem)
  let cs := fs.filterMap Found.cand
  let dir := directoryOf cs
  let top := highestCount fs
  let blocks := (List.range Config.blockCount).zip fs |>.map fun x =>
    tableEntry dir top (cellSet f.lockCells x.1) x.1 x.2
  let keep := decide (c.store.scanKind = .wake)
  let c' := { c with
    prot := { c.prot with copy := some f.key }
    store := { c.store with
      blocks := blocks, dir := dir, erasedList := [],
      nextCreation := if keep then c.store.nextCreation else creationAfter cs,
      nextId := if keep then c.store.nextId else idAfter dir } }
  let c' := { c' with store := { c'.store with eraseQueue := queueAfter c.store.scanKind c.store.eraseQueue c' } }
  (List.range Config.blockCount).foldl (fun c b => joinErased b c) c'

/-- SCAN_START on the part (R126, R148): 1 ms after the flash supply the scan that is due begins; a CLEAR LOCKS or TOTAL ERASE confirmed
before that moment takes the flash then, and the scan follows it (notes/assumptions/33.md). -/
def scanStartChip (c : Chip) : Chip :=
  if c.power.flashOn && !c.store.scanned then
    match c.store.op with
    | .none => { c with store := { c.store with usable := true, op := .scanning } }
    | .lockErase false => grant { c with store := { c.store with usable := true } }
    | .totalBlocks => grant { c with store := { c.store with usable := true } }
    | _ => c
  else c

/-- The end of the scan on the part (R128, R165): the tables, STORE OP DONE, and the boot page. -/
def scanDone (f : Flash) (c : Chip) : Chip :=
  let c := scanTables f c
  let c := { c with store := { c.store with op := .none, scanned := true, abandoned := none } }
  grant (settleAll (selectBoot f.mem (queueEvent (.storeOpDone .scan none .done) c)))

/-- The end of the scan (R128). -/
def scanEnd (s : State) : State :=
  if s.chip.store.op = .scanning then { s with chip := scanDone s.flash s.chip } else s

end Sys2Proof.Machine
end

