-- ==== Sys2Proof/Machine/Sleeping.lean ====
section
/-!
DEFINITION. The Power Controller (08_power_save.md): domains settling and held, the wake inputs and their debounce, SLEEP, sleep entry,
the wake, WAKING and its end.
-/
namespace Sys2Proof.Machine

open Sys2Proof

/-! ## Domains (R147) -/

/-- DOMAIN_SETTLED on the part (R71, R75, R147): a RISING domain is ON; the head samples its thermistor and begins a due load. -/
def settledChip (d : DomainId) (therm : Byte) (c : Chip) : Chip :=
  match d with
  | .lamp =>
      match c.power.lamp with
      | .rising _ => { c with power := { c.power with lamp := .on } }
      | _ => c
  | .head =>
      match c.power.head with
      | .rising _ => syncMotor (refreshLoad (sampleTherm therm { c with power := { c.power with head := .on } }))
      | _ => c
  | .motor =>
      match c.power.motor with
      | .rising _ => { c with power := { c.power with motor := .on } }
      | _ => c

/-- DOMAIN_HOLD_EXPIRY on the part (R71, R147). -/
def holdOverChip (d : DomainId) (c : Chip) : Chip :=
  match d with
  | .lamp =>
      match c.power.lamp with
      | .holding _ => { c with power := { c.power with lamp := .off } }
      | _ => c
  | .head =>
      match c.power.head with
      | .holding _ => headContentLost { c with power := { c.power with head := .off } }
      | _ => c
  | .motor =>
      match c.power.motor with
      | .holding _ => { c with power := { c.power with motor := .off } }
      | _ => c

/-! ## The wake (R159) -/

/-- The wake cause of a source (R159). -/
def sourceCause : WakeSource → WakeCause
  | .ring => .ring
  | .key => .key
  | .hook => .hook
  | .doc => .doc

/-- The event of an active edge (R151). -/
def sourceEvent : WakeSource → Event
  | .ring => .signal .ring
  | .key => .signal .key
  | .hook => .signal .hook
  | .doc => .documentIn

/-- The place of a source in the wake table (R150). -/
def sourceIndex : WakeSource → Nat
  | .ring => 0
  | .key => 1
  | .hook => 2
  | .doc => 3

/-- A wake is taken (R145, R159): its cause is recorded, WAKE HOLD joins the requests, WAKING is entered; the copy of the key
segment is unknown until the wake scan. -/
def wake (cause : WakeCause) (c : Chip) : Chip :=
  { c with
    power := { c.power with state := .waking, cause := some cause, wakeHold := true, clockLeft := 5000 }
    prot := { c.prot with copy := none }
    store := { c.store with scanned := false, scanKind := .wake, setup := .none } }

/-! ## Debounce (R150, R151) -/

/-- A level has stood its debounce time (R150, R151): it is the stable level, and an active edge is reported, cancels a pending
sleep first, or wakes the part. -/
def edgeTaken (src : WakeSource) (rising level : Bool) (c : Chip) : Chip :=
  let c := { c with power := { c.power with sources := c.power.sources.set (sourceIndex src) ⟨level, none⟩ } }
  if level = rising then
    match c.power.state with
    | .sleep => wake (sourceCause src) c
    | .sleepPending => queueEvent (sourceEvent src) (cancelSleep .signal c)
    | _ => queueEvent (sourceEvent src) c
  else c

/-- 1 ms in the units of the debounce time left. -/
def msUnits : Nat := 33000

/-- The pin of a source takes a level (R150). -/
def pinChange (src : WakeSource) (level : Bool) (c : Chip) : Chip :=
  match c.power.wake[sourceIndex src]?, c.power.sources[sourceIndex src]? with
  | some e, some r =>
      if e.enable = false then c
      else if level = r.stable then
        { c with power := { c.power with sources := c.power.sources.set (sourceIndex src) { r with timing := none } } }
      else if e.debounce = 0 then edgeTaken src e.rising level c
      else if r.timing.isSome then c
      else
        { c with power := { c.power with
          sources := c.power.sources.set (sourceIndex src) { r with timing := some (level, e.debounce * msUnits) } } }
  | _, _ => c

/-- WAKE_INPUT_CHANGE on the part (R150). -/
def wakeInputChip (pin : SignalPin) (high : Bool) (c : Chip) : Chip :=
  match pin with
  | .ring => pinChange .ring high { c with pins := { c.pins with ring := high } }
  | .key => pinChange .key high { c with pins := { c.pins with key := high } }
  | .hook => pinChange .hook high { c with pins := { c.pins with hook := high } }

/-- DOCP_CHANGE on the part (R26, R43, R150). -/
def docpChip (present : Bool) (c : Chip) : Chip :=
  let c := { c with pins := { c.pins with docp := present } }
  pinChange .doc present (if c.power.clockOn then docpScan c else c)

/-- DEBOUNCE_EXPIRY on the part (R150): the time left of a timing runs out. -/
def debounceChip (src : WakeSource) (c : Chip) : Chip :=
  match c.power.wake[sourceIndex src]?, c.power.sources[sourceIndex src]? with
  | some e, some r =>
      match e.enable, r.timing with
      | true, some (level, _) => edgeTaken src e.rising level c
      | _, _ => c
  | _, _ => c

/-! ## SLEEP and sleep entry (R154 to R158) -/

/-- SLEEP (R154). -/
def sleepChip (p : List Byte) (c : Chip) : Chip :=
  withLength p 4 (fun c =>
    let timer := numAt p 1 3
    if !(routesWhere c fun _ => true).isEmpty || c.runOut.isSome then refuse p .busy c
    else if timer = 0 ∧ c.power.wake.all (fun e => !e.enable) = true then refuse p .limit c
    else reply p .accepted { c with power := { c.power with wakeTimer := timer, state := .sleepPending } }) c

/-- The conditions of sleep entry (R155, R166, R174): no scan that runs or is due, no job or erase, no image check and no install. A held
directive is taken first: it would have cancelled the sleep (R156, R179; notes/assumptions/34.md). -/
def sleepReady (c : Chip) : Bool :=
  decide (c.power.state = .sleepPending) && decide (storeState c.store = .idle) && c.store.holder.isNone &&
    c.store.reads.isEmpty && c.store.programs.isEmpty && c.store.erase.isNone && !c.scanCh.moving && !c.printCh.moving &&
    c.store.scanned && c.boot.check.isNone && c.boot.install.isNone && c.link.reports.isEmpty && c.link.held.isNone && decide (c.link.up = .idle)

/-- A channel at sleep entry (R69, R157): its hold ends with drive OFF. -/
def Channel.sleep (ch : Channel) : Channel := if ch.motion = .halted then { ch with drive := .off, holdLeft := 0 } else ch

/-- Steps 2 to 6 of sleep entry (R157): the host reset, the parked pins, the supplies, the counters, and the clock. -/
def enterSleep (c : Chip) : Chip :=
  let c := { c with power := { c.power with state := .sleep } }
  let c := addReset (fun c => { c with power := { c.power with sleepHold := true } }) c
  let c := headContentLost (abandonLine (enterHolding c))
  { c with
    link := { c.link with parser := .between, cut := none }
    scanCh := c.scanCh.sleep
    printCh := c.printCh.sleep
    store := { c.store with usable := false }
    power := { c.power with hostOn := false, flashOn := false, hostUp := 0, lamp := .off, head := .off, motor := .off,
                            seconds := 0, ticks := 0, clockOn := false } }

/-- SLEEP_ENTRY (R155, R157): SERVICE ends first. -/
def sleepEntry (s : State) : State := if sleepReady s.chip then (closeService s).onChip enterSleep else s

/-- SECOND_TICK on the part (R158). -/
def secondChip (c : Chip) : Chip :=
  if c.power.state = .sleep then
    { c with power := { c.power with seconds := min 16777215 (c.power.seconds + 1), ticks := 0 } }
  else c

/-- WAKE_TIMER_EXPIRY on the part (R158). -/
def wakeTimerChip (c : Chip) : Chip :=
  if c.power.state = .sleep ∧ 0 < c.power.wakeTimer ∧ c.power.wakeTimer ≤ c.power.seconds then wake .timer c else c

/-! ## WAKING (R160, R161) -/

/-- A channel at the wake (R69): HALTED, drive OFF, ramp index 0, line position 0; ramp and phase are kept. -/
def Channel.wake (ch : Channel) : Channel :=
  { Channel.default with ramp := ch.ramp, phase := ch.phase }

/-- MAIN_CLOCK_RUNNING on the part (R69, R84, R87, R160): the supplies are on, the blocks take their inputs' levels, and an open
cover trips. -/
def clockChip (papp papx doce cover : Bool) (c : Chip) : Chip :=
  if c.power.state = .waking ∧ c.power.clockOn = false then
    let c := { c with
      pins := { c.pins with papp := papp, papx := papx, doce := doce, cover := cover }
      head := { Head.default papp with band := c.head.band }
      scanCh := c.scanCh.wake
      printCh := c.printCh.wake
      power := { c.power with clockOn := true, clockLeft := 0, flashOn := true, hostOn := true, hostUp := 0 } }
    if cover then c else trip c
  else c

/-- WAKING_END on the part (R161): the moment at which the host supply has been on 20 ms and the wake scan has ended. -/
def wakingEndChip (c : Chip) : Chip :=
  if c.power.state = .waking ∧ c.power.clockOn = true ∧ c.store.scanned = true ∧ c.store.op ≠ .scanning then
    { c with
      power := { c.power with state := .run, wakeHold := false, sleepHold := false, cause := none, wakeTimer := 0,
                              hostUp := max c.power.hostUp Config.hostUpTime }
      boot := { c.boot with report := match c.power.cause with
        | some k => some (.wakeCause k c.power.seconds)
        | none => c.boot.report } }
  else c

/-- SERVICE_PULSE_END on the part (R149). -/
def pulseOverChip (c : Chip) : Chip := { c with power := { c.power with pulseHold := none } }

end Sys2Proof.Machine
end

