-- ==== Sys2Proof/Machine/Linking.lean ====
section
/-!
DEFINITION. The Page Link Interface (10_the_page_link.md): LINE and PAGE END records, framing, the upstream arbiter, attention, STATUS
and the directory listing; with the link lanes of the Line Coder (05_line_coding.md R93 to R95).
-/
namespace Sys2Proof.Machine

open Sys2Proof

/-! ## Downstream records that are no directives (R18, R93, R176 to R178) -/

/-- Whether the host can send (R156, R161): it is supplied, and not held in the reset of a sleep. -/
def hostUp (c : Chip) : Bool := decide (c.power.state = .run ∨ c.power.state = .sleepPending)

/-- Whether bytes are exchanged (R175): the host can send, and LSEL is asserted; while it is released LCLK is ignored. -/
def exchanging (c : Chip) : Bool := hostUp c && c.link.selected

/-- Whether a whole record can come now (R175, R176): bytes are exchanged, and the parser stands between records. -/
def canTake (c : Chip) : Bool := exchanging c && decide (c.link.parser = .between)

/-- Sets the parser. -/
def setParser (x : Parser) (c : Chip) : Chip := { c with link := { c.link with parser := x } }

/-- CREDIT OVERRUN is queued once, and overrun reported becomes yes (R18). -/
def overrun (r : Nat) (c : Chip) : Chip :=
  let x := getRoute c r
  if x.overrun then c else setRoute r { x with overrun := true } (queueEvent (.creditOverrun r) c)

/-- Whether a LINE record is accepted for a route (R18): a LINK source, no close requested, credit above 0. -/
def acceptsLine (c : Chip) (r : Nat) : Bool :=
  match ctxOf c r with
  | some x => decide (x.source = .link) && !x.closeReq && decide (charged c r < x.quota)
  | none => false

/-- Whether a route has begun (R11). -/
def hasBegun (c : Chip) (r : Nat) : Bool := match ctxOf c r with | some x => x.begun | none => false

/-- The Route Controller judges a LINE record by its route number (R18, R93). The route of an accepted record leaves OPEN at this moment
(R11), which a discard of the record takes back; of one not accepted CREDIT OVERRUN comes with its last byte, since the bytes of a record
discarded part-way have no effect and no event results (R93, R177; DEDUCED, notes/assumptions/61.md). -/
def judgeLine (r : Nat) (c : Chip) : Chip :=
  if 3 < r then { c with linkIn := .passing none }
  else if acceptsLine c r then
    match takeSlot r (fun r => .filling r none) c with
    | some (n, d) =>
        { modCtx r (fun x => { x with begun := true }) d with linkIn := .decoding r n (!hasBegun c r) none .start }
    | none => { c with linkIn := .passing (some r) }
  else { c with linkIn := .passing (some r) }

/-- A byte of a LINE record after its route number (R93): the form, then the data. -/
def laneByte (c : Chip) (b : Byte) : Chip :=
  match c.linkIn with
  | .decoding r n first none d =>
      let enc := match ctxOf c r with | some x => x.encoding | none => none
      { c with linkIn := .decoding r n first (some (formInFor enc b)) d }
  | .decoding r n first (some f) d => { c with linkIn := .decoding r n first (some f) (Decoder.byte f d b) }
  | _ => c

/-- The bytes of a LINE record, the first of which is its route number where none has been taken (R93). -/
def lineBytes (taken : Nat) (bs : List Byte) (c : Chip) : Chip :=
  match taken, bs with
  | 0, b :: rest => rest.foldl laneByte (judgeLine b.toNat c)
  | _, bs => bs.foldl laneByte c

/-- A LINE record ends (R18, R93): the fill completes with any early-end repair, and a close requested meanwhile ends the page; of a record
that was not accepted CREDIT OVERRUN is queued. -/
def lineEnd (c : Chip) : Chip :=
  match c.linkIn with
  | .passing (some r) => overrun r { c with linkIn := .idle }
  | .decoding r n _ _ d =>
      let l := d.finish
      let closing := match ctxOf c r with | some x => x.closeReq | none => false
      let c := fillComplete r n l.out l.repaired { c with linkIn := .idle }
      settle r (if closing then pageEnd r true c else c)
  | _ => { c with linkIn := .idle }

/-- Payload bytes of a LINE record of `length` bytes of which `taken` have been taken. -/
def feedLine (length taken : Nat) (bytes : List Byte) (c : Chip) : Chip :=
  let bs := bytes.take (length - taken)
  let c := lineBytes taken bs c
  if length ≤ taken + bs.length then lineEnd (setParser .between c)
  else setParser (.payload 0x01 length (taken + bs.length)) c

/-- LINE on the part (R18, R93, R176): the bytes of a record whose header comes with them, or more bytes of the LINE record in
part. -/
def lineChip (length : Nat) (bytes : List Byte) (c : Chip) : Chip :=
  if !exchanging c then c
  else
    match c.link.parser with
    | .between => if Config.maxPayload < length then setParser .discard c else feedLine length 0 bytes c
    | .payload 0x01 n taken => feedLine n taken bytes c
    | _ => c

/-- A PAGE END record ends (R18): with a payload of 1 byte it clears overrun reported, and is a page end of a LINK-source route. -/
def pageEndTaken (p : List Byte) (c : Chip) : Chip :=
  match p with
  | [b] =>
      let r := b.toNat
      if 3 < r then c
      else
        let c := setRoute r { getRoute c r with overrun := false } c
        match ctxOf c r with
        | some x => if x.source = .link ∧ x.closeReq = false then settle r (pageEnd r false c) else c
        | none => c
  | _ => c

/-- PAGE_END on the part (R18). -/
def pageEndChip (p : List Byte) (c : Chip) : Chip := if canTake c then pageEndTaken p c else c

/-- FRAMING_ERROR on the part (R178): the parser drops bytes until LSEL is released. -/
def framingChip (length : Nat) (c : Chip) : Chip :=
  if canTake c && decide (Config.maxPayload < length) then setParser .discard c else c

/-! ## The upstream arbiter (R175, R183) -/

/-- The arbiter's choice between records at the moment an exchange begins (R183): the report queue's oldest record, else the LINK-out lane's
ready record, else fill. -/
def freshRecord (c : Chip) : Upstream :=
  if !c.link.reports.isEmpty then .report
  else if linkOutReady c then .out
  else .idle

/-- The upstream arbiter's choice for the next exchange (R175, R183): the record in part; else that of a byte which a release of LSEL cut and
which is sent again; else a fresh one. A report stays the oldest, so only fill and the LINK-out lane's record are told apart here; with the
lane's record gone by an ABORT the choice is fresh (DESIGN CHOICE, notes/assumptions/62.md). -/
def arbitrate (c : Chip) : Upstream :=
  if c.link.up ≠ .idle then c.link.up
  else
    match c.link.cut with
    | some .idle => .idle
    | some .out => if linkOutReady c then .out else freshRecord c
    | _ => freshRecord c

/-- The record that an upstream byte belongs to once a cut fill byte has been sent again (R183). -/
def nextRecord (c : Chip) : Upstream :=
  if c.link.up = .idle ∧ c.link.cut = some .idle then freshRecord c else arbitrate c

/-! ## LSEL (R175, R177) -/

/-- The byte in exchange when LSEL is released (R175): one of which the bits `bits` had been clocked is cut, and is sent again at the next
select. With a record in part it is the byte at the record's send position. -/
def cutByte (bits : List Bool) (c : Chip) : Option Upstream :=
  if exchanging c ∧ bits ≠ [] ∧ c.link.up = .idle then some (arbitrate c) else c.link.cut

/-- LSEL_RELEASE on the part (R93, R177): a record in part downstream is discarded, and a LINE record abandons its fill, its bytes without
effect. An upstream record in part stays so, at its send
position. The byte that the release cuts, of which `bits` had been clocked, has not been exchanged, and is sent again (R175). -/
def lselReleaseChip (bits : List Bool) (c : Chip) : Chip :=
  let c := { c with link := { c.link with selected := false, parser := .between, cut := cutByte bits c } }
  match c.linkIn with
  | .decoding r _ _ _ _ =>
      let closing := match ctxOf c r with | some x => x.closeReq | none => false
      let c := abandonLine c
      settle r (if closing then pageEnd r true c else c)
  | _ => { c with linkIn := .idle }

/-- LSEL is asserted (R175, R184). -/
def lselAssertChip (c : Chip) : Chip := { c with link := { c.link with selected := true } }

/-! ## The parser (R176) -/

/-- Whether a record's tag is one that the parser skips (R178). -/
def skippedTag (tag : Byte) : Bool := decide (0x03 ≤ tag.toNat ∧ tag.toNat ≤ 0x0F)

/-- The parser state once a record's length is known (R176, R178). -/
def Parser.opened (tag : Byte) (n : Nat) : Parser :=
  if Config.maxPayload < n then .discard
  else if n = 0 then .between
  else if skippedTag tag then .skip n 0
  else if tag = 0x01 then .payload tag n 0
  else .gather tag n []

/-- The byte table of the parser (R176): the state after a byte is taken. -/
def Parser.byte : Parser → Byte → Parser
  | .between, b => if b = 0x00 then .between else .lengthLow b
  | .lengthLow tag, b => .lengthHigh tag b
  | .lengthHigh tag low, b => .opened tag (low.toNat + 256 * b.toNat)
  | .payload tag n k, _ => if n ≤ k + 1 then .between else .payload tag n (k + 1)
  | .gather tag n got, b => if n ≤ got.length + 1 then .between else .gather tag n (got ++ [b])
  | .skip n k, _ => if n ≤ k + 1 then .between else .skip n (k + 1)
  | .discard, _ => .discard

/-- The record that a byte ends, with its tag and the payload gathered (R176): none of a skipped tag. -/
def Parser.ended : Parser → Byte → Option (Byte × List Byte)
  | .lengthHigh tag low, b => if low.toNat + 256 * b.toNat = 0 ∧ skippedTag tag = false then some (tag, []) else none
  | .payload tag n k, _ => if n ≤ k + 1 then some (tag, []) else none
  | .gather tag n got, b => if n ≤ got.length + 1 then some (tag, got ++ [b]) else none
  | _, _ => none

/-- The parser takes a byte (R176): it moves on by its table, and a byte of a LINE record goes on as it is taken (R18, R93). -/
def parserTake (b : Byte) (c : Chip) : Chip :=
  let x := c.link.parser
  setParser (x.byte b) (match x with | .payload _ _ k => lineBytes k [b] c | _ => c)

/-! ## Upstream (R95, R181, R183, R184) -/

/-- The bytes of the record that the arbiter has chosen. -/
def chosenBytes (c : Chip) : List Byte :=
  match arbitrate c with
  | .report => match c.link.reports with | x :: _ => x.bytes | [] => []
  | .out => c.linkOut.bytes
  | .idle => []

/-- The byte on LDO in the next exchange (R175, R183): the next of the chosen record, or 00h fill. -/
def nextByteUp (c : Chip) : Byte := (chosenBytes c).getD c.link.sent 0x00

/-- UPSTREAM_RECORD_START on the part (R183): with no record in part, the first byte of the one chosen is exchanged; a cut fill byte has
been sent again before it. -/
def upstreamChip (c : Chip) : Chip :=
  if exchanging c && decide (c.link.up = .idle ∧ nextRecord c ≠ .idle) then
    { c with link := { c.link with up := nextRecord c, sent := 1, cut := none } }
  else c

/-- REPORT_RECORD_SENT on the part (R181): the oldest record leaves the report queue. -/
def reportSentChip (c : Chip) : Chip :=
  if exchanging c && decide (nextRecord c = .report) then
    { c with link := { c.link with reports := c.link.reports.drop 1, up := .idle, sent := 0, cut := none } }
  else c

/-- Whether the LINK-out lane's record is the one being sent (R183). -/
def outSending (c : Chip) : Bool := exchanging c && decide (nextRecord c = .out)

/-- The LINK-out lane's record has been sent. -/
def outIdle (c : Chip) : Chip := { c with linkOut := .idle, link := { c.link with up := .idle, sent := 0, cut := none } }

/-- OUTBOUND_LINE_SENT on the part (R5, R95): the link sink's reference drops; the padding of an aborted record ends. -/
def lineSentChip (c : Chip) : Chip :=
  match outSending c, c.linkOut with
  | true, .line r _ _ => settle r (dropHead .link r (outIdle c))
  | true, .padding _ _ => settleAll (outIdle c)
  | _, _ => c

/-- OUTBOUND_PAGE_END_SENT on the part (R15, R22, R95): the LINK sink serves the mark; the record of an aborted route ends. -/
def pageSentChip (c : Chip) : Chip :=
  match outSending c, c.linkOut with
  | true, .pageEnd r _ => settle r (serveMark .link r id (outIdle c))
  | true, .orphanEnd _ => settleAll (outIdle c)
  | true, .padding _ _ => settleAll (outIdle c)
  | _, _ => c

/-- The LINK-out lane's record of either kind has been sent. -/
def outSentChip (c : Chip) : Chip :=
  match c.linkOut with
  | .line _ _ _ => lineSentChip c
  | _ => pageSentChip c

/-- One byte goes upstream (R175, R181, R183): the next of the chosen record, whose last byte ends it; of fill nothing is left. -/
def sendByte (c : Chip) : Chip :=
  if arbitrate c = .idle then { c with link := { c.link with cut := none } }
  else if c.link.sent + 1 < (chosenBytes c).length then
    { c with link := { c.link with up := arbitrate c, sent := c.link.sent + 1, cut := none } }
  else if arbitrate c = .report then reportSentChip c
  else outSentChip c

/-- LINK_ENCODE_END on the part (R95): the LINE record is ready. -/
def encodeEndChip (c : Chip) : Chip :=
  match c.linkOut with
  | .encoding r e x => recordReady { c with linkOut := .line r e x }
  | _ => c

/-- ATN_PULSE_END on the part (R184). -/
def atnEndChip (c : Chip) : Chip := { c with link := { c.link with atnLeft := 0 } }

/-! ## ATTENTION MODE, STATUS REQUEST, DIRECTORY REQUEST (R185 to R187) -/

/-- ATTENTION MODE (R185): the REPLY is queued in the new mode. -/
def attentionChip (p : List Byte) (c : Chip) : Chip :=
  withLength p 2 (fun c =>
    match yesNoOf (numAt p 1 1) with
    | some m => reply p .accepted { c with link := { c.link with pulseMode := m, atnLeft := if m then c.link.atnLeft else 0 } }
    | none => refuse p .malformed c) c

/-- The STATUS record is queued (R65, R186): events lost is cleared, and every halt it shows is reported. -/
def queueStatus (c : Chip) : Chip :=
  let c := queueRecord (.status (statusPayload c)) c
  markReported (fun _ x => x.halt.isSome) { c with link := { c.link with eventsLost := false } }

/-- STATUS REQUEST (R186), with DOCE and PAPX as they read. -/
def statusChip (p : List Byte) (doce papx : Bool) (c : Chip) : Chip :=
  withLength p 1 (fun c =>
    queueStatus (reply p .accepted { c with pins := { c.pins with doce := doce, papx := papx } })) c

/-- DIRECTORY REQUEST (R187). -/
def directoryChip (p : List Byte) (c : Chip) : Chip :=
  withLength p 1 (fun c =>
    if scanOrTotal c || c.link.listing.isSome then refuse p .busy c
    else
      let c := reply p .accepted c
      { c with link := { c.link with listing := some ⟨0, 0⟩ } }) c

/-- The next entry of a listing (R187): the lowest creation sequence above the cursor. -/
def nextListed (cursor : Nat) : List Page → Option Page
  | [] => none
  | p :: rest =>
      match nextListed cursor rest with
      | none => if cursor < p.creation then some p else none
      | some q => if cursor < p.creation ∧ p.creation ≤ q.creation then some p else some q

/-- Whether a held directive can be taken (R179). -/
def heldReady (c : Chip) : Bool := c.link.held.isSome && decide (Config.reportRoom ≤ freeBytes c)

/-- DIRECTORY_ENTRY on the part (R187): the next entry where there is room, or DIRECTORY END; a held directive goes first. -/
def directoryEntryChip (c : Chip) : Chip :=
  match c.link.listing with
  | none => c
  | some l =>
      if heldReady c then c
      else
        match nextListed l.cursor c.store.dir with
        | some pg =>
            let rec_ := Report.dirEntry (pagePayload c.boot pg)
            if Config.reportRoom + rec_.size ≤ freeBytes c then
              queueRecord rec_ { c with link := { c.link with listing := some ⟨pg.creation, l.count + 1⟩ } }
            else c
        | none => queueRecord (.dirEnd l.count) { c with link := { c.link with listing := none } }

/-! ## Directives taken (R137, R156, R170, R179) -/

/-- The stream rules see each directive before its owner handles it: the setup-pending mark (R137). -/
def setupRule (i : Instr) (c : Chip) : Chip :=
  match i with
  | .confirm _ => c
  | _ =>
      if c.store.setup = .none then c
      else { c with store := { c.store with setup := .none, sequenceFault := true } }

/-- The stream rules: a pending sleep (R156). -/
def sleepRule (i : Instr) (c : Chip) : Chip :=
  match i with
  | .statusRequest _ _ _ => c
  | _ => cancelSleep .directive c

/-- The stream rules: boot serving (R170). -/
def servingRule (i : Instr) (c : Chip) : Chip :=
  match i with
  | .bootFetch _ => c
  | _ => if c.boot.state = .serving then endServing c else c

/-- The stream rules, in their order (R179). -/
def streamRules (i : Instr) (c : Chip) : Chip := servingRule i (sleepRule i (setupRule i c))

/-- A directive's owner handles it (R179): a payload without a reference byte is MALFORMED here, with reference 00h. -/
def owned (p : List Byte) (f : State → State) (s : State) : State := if p.isEmpty then s.onChip (refuse p .malformed) else f s

/-- The same, for an owner that touches the part alone. -/
def ownedChip (p : List Byte) (f : Chip → Chip) (s : State) : State := owned p (State.onChip f) s

/-- A directive is taken (R179): the stream rules act, then it is handled. -/
def takeDirective (i : Instr) (f : State → State) (s : State) : State := f (s.onChip (streamRules i))

/-- A directive record ends (R179): taken with 256 bytes free and none held, held where there is less room, and discarded untaken
while one is held. -/
def arrive (i : Instr) (f : State → State) (s : State) : State :=
  if !canTake s.chip then s
  else if s.chip.link.held.isSome then s
  else if Config.reportRoom ≤ freeBytes s.chip then takeDirective i f s
  else s.onChip fun c => { c with link := { c.link with held := some i } }

/-- An unknown directive (R178, R179): REFUSED UNKNOWN with its kept reference byte. -/
def unknownChip (p : List Byte) (c : Chip) : Chip := refuse p .unknown c

end Sys2Proof.Machine
end

