-- ==== Sys2Proof/Machine/Restarting.lean ====
section
/-!
DEFINITION. Power-on reset and RESTART (10_the_page_link.md R188, R189, and the last section of each chapter), and what they do to a
flash at work (06_page_store.md R129, 07_store_protection_and_service_access.md R140).
-/
namespace Sys2Proof.Machine

open Sys2Proof

/-! ## A flash at work is cut -/

/-- A row program cut short (R130, R135): each bit it was to set is set or not. -/
def cutRow (j : RowJob) (f : Flash) : Flash :=
  let free := fun i => Config.freeByte (f.uses + i)
  match j with
  | .lockPage _ cells =>
      { f.bumpBy 8 with
        lockCells := lockBytes fun b => cellSet f.lockCells b || (cells.contains b && (free (b / 8)).getLsbD (b % 8)) }
  | .setMaster => { f.bump with master := f.master &&& free 0 }
  | .setCode want =>
      { f.bumpBy 8 with
        code := (List.range want.length).zip (f.code.zip want) |>.map fun x => x.2.1 &&& (x.2.2 ||| free x.1) }

/-- The job that holds the flash is cut: a program leaves part of its bytes (R129). -/
def cutHolder (c : Chip) (f : Flash) : Flash :=
  match c.store.holder with
  | some (.row j) => cutRow j f
  | some j => if j.isRead then f else f.cut (jobWrites c f.mem j)
  | none => f

/-- A segment erase is cut: each bit as it was, or cleared (R140). -/
def cutSegment (c : Chip) (f : Flash) : Flash :=
  let free := fun i => Config.freeByte (f.uses + i)
  match c.store.op with
  | .lockErase true => { f.bumpBy 8 with lockCells := cutErase free f.lockCells }
  | .totalLock => { f.bumpBy 8 with lockCells := cutErase free f.lockCells }
  | .totalKey => { f.bumpBy 9 with master := f.master ||| free 8, code := cutErase free f.code }
  | _ => f

/-- What a reset leaves of the flash. -/
def cutFlash (c : Chip) (f : Flash) : Flash :=
  let f := cutSegment c (cutHolder c f)
  match c.store.erase with
  | some e => cutEraseFlash e c f
  | none => f

/-! ## Power-on reset -/

/-- The part after power-on reset (R69): an open cover trips then. -/
def powerOnChip (p : Pins) : Chip := if p.cover then Chip.powerOn p else trip (Chip.powerOn p)

/-- POWER_ON_RESET: every block takes its values, and the flash keeps what it holds. -/
def powerOnState (p : Pins) (s : State) : State := { s with chip := powerOnChip p, flash := cutFlash s.chip s.flash }

/-! ## RESTART (R188) -/

/-- The upstream record in part at RESTART (R188 step 2), the oldest report's or the LINK-out lane's (R99): its payload goes out as 00h
(DEDUCED, notes/assumptions/63.md). -/
def restartPart (c : Chip) : List Report :=
  match c.link.up, c.link.reports, c.linkOut.record with
  | .report, x :: _, _ => [Report.padded x.tag x.payload.length]
  | .out, _, some x => [Report.padded x.1 x.2.length]
  | _, _, _ => []

/-- The Page Link Interface at RESTART (R188 steps 1 to 4): of the upstream record in part what is left goes out first, from its send
position on; both link lanes are emptied (R99). -/
def linkRestart (c : Chip) : Chip :=
  let part := restartPart c
  { c with
    linkIn := .idle
    linkOut := .idle
    link := { c.link with parser := .between, held := none, up := (if part.isEmpty then .idle else .report), reports := part,
                          eventsLost := false, pulseMode := false, atnLeft := 0, listing := none, cut := none } }

/-- The other blocks at RESTART (R24, R42, R69, R87, R99, R129, R145, R162, R174). -/
def blocksRestart (c : Chip) : Chip :=
  { c with
    pool := Pool.default
    routes := List.replicate 4 Route.closed
    runOut := none
    scan := Capture.default
    scanCh := c.scanCh.stopDead
    printCh := c.printCh.stopDead
    head := { Head.default c.pins.papp with band := c.head.band }
    store := { Store.default with
      usable := c.store.usable, op := (if c.store.usable then .scanning else .none), scanKind := .restart,
      abandoned := (match c.store.erase with | some e => some e.block | none => c.store.abandoned) }
    prot := { service := .normal, failures := c.prot.failures, copy := none }
    power := { c.power with state := .run, wakeTimer := 0, lamp := .off, head := .off, motor := .off, bootHold := false }
    boot := { c.boot with state := .complete, check := none, chunk := none, install := none, report := none } }

/-- An accepted RESTART on the part (R188): the REPLY is the first record; then the blocks, and an open cover trips (R69). -/
def restartChip (p : List Byte) (c : Chip) : Chip :=
  let c := blocksRestart (reply p .accepted (linkRestart c))
  if c.pins.cover then c else trip c

/-- The stream rules for RESTART (R137, R156, R170, R188): a pending sleep and serving end without their records. -/
def restartRules (c : Chip) : Chip :=
  let c := if c.store.setup = .none then c else { c with store := { c.store with setup := .none, sequenceFault := true } }
  let c := if c.power.state = .sleepPending then { c with power := { c.power with state := .run, wakeTimer := 0 } } else c
  if c.boot.state = .serving then
    let c := dropChunk c
    { c with boot := { c.boot with state := .complete, report := none } }
  else c

/-- RESTART taken (R179, R188): a held directive is discarded; another payload is MALFORMED, with no restart. The job that holds the flash
when RESTART arrives is cut, and the jobs that wait are dropped (R129). -/
def restartState (p : List Byte) (s : State) : State :=
  let ruled := restartRules { s.chip with link := { s.chip.link with held := none } }
  if p.length = 1 then { s with chip := restartChip p ruled, flash := cutFlash s.chip s.flash }
  else { s with chip := refuse p .malformed ruled }

end Sys2Proof.Machine
end

