-- ==== Sys2Proof/Machine/Ticking.lean ====
section
/-!
DEFINITION. Time with no command waiting (DESIGN CHOICE, notes/assumptions/3.md): each step on an empty queue is 1 µs of the main
timebase, or in SLEEP one tick of the 32.768 kHz clock. Every time left falls, and every time that is counted up rises; what
happens when one runs out is a command of its own.
-/
namespace Sys2Proof.Machine

open Sys2Proof

/-- 1 µs of a channel: its step or its hold. -/
def Channel.tick (ch : Channel) : Channel := { ch with left := ch.left - 1, holdLeft := ch.holdLeft - 1 }

/-- 1 µs of the head: its load, its strobe, its cut. -/
def Head.tick (h : Head) : Head :=
  { h with loadLeft := h.loadLeft - 1, strobe := h.strobe.map fun x => (x.1, x.2 - 1), cutTime := h.cutTime.map (· + 1) }

/-- 1 µs of a supply domain. -/
def Domain.tick : Domain → Domain
  | .rising n => .rising (n - 1)
  | .holding n => .holding (n - 1)
  | d => d

/-- 1 µs of an erase (R122): a pulse within its unit, or a verify. -/
def EraseProg.tick (e : EraseProg) : EraseProg :=
  match e.phase with
  | .pulse => if e.unit < Config.eraseUnit then e.pulsed 1 else e
  | .verify => { e with verifyLeft := e.verifyLeft - 1 }
  | _ => e

/-- 1 µs of the service window. -/
def ServiceState.tick : ServiceState → ServiceState
  | .window n => .window (n - 1)
  | x => x

/-- Time of a debounce record, in its units. -/
def Debounce.tick (n : Nat) (r : Debounce) : Debounce := { r with timing := r.timing.map fun x => (x.1, x.2 - n) }

/-- 1 µs of the Power Controller, its clock running or starting. -/
def Power.tick (p : Power) : Power :=
  { p with lamp := p.lamp.tick, head := p.head.tick, motor := p.motor.tick,
           hostUp := if p.hostOn then min Config.hostUpTime (p.hostUp + 1) else p.hostUp,
           pulseHold := p.pulseHold.map (· - 1), sources := p.sources.map (Debounce.tick 33), clockLeft := p.clockLeft - 1 }

/-- One tick of the 32.768 kHz clock in SLEEP (R150, R158). -/
def Power.slowTick (p : Power) : Power := { p with sources := p.sources.map (Debounce.tick 1000), ticks := p.ticks + 1 }

/-- Time passes. -/
def tick (c : Chip) : Chip :=
  if c.power.state = .sleep then { c with power := c.power.slowTick }
  else
    { c with
      scan := { c.scan with captureLeft := c.scan.captureLeft - 1 }
      scanCh := c.scanCh.tick
      printCh := c.printCh.tick
      head := c.head.tick
      store := { c.store with erase := c.store.erase.map EraseProg.tick, segLeft := c.store.segLeft - 1 }
      prot := { c.prot with service := c.prot.service.tick }
      link := { c.link with atnLeft := c.link.atnLeft - 1 }
      power := c.power.tick }

end Sys2Proof.Machine
end

