-- ==== Sys2Proof/Machine/EngineCommands.lean ====
section
/-!
DEFINITION. The meanings of the events of the scan path, the motors and the print path.
-/
namespace Sys2Proof.Machine

open Sys2Proof

/-- HEAD_LOAD_END on the part (R72): the shift register is LOADED, and the readiness may make a start due (R73). -/
def loadEndChip (c : Chip) : Chip :=
  match c.head.shift with
  | .loading e => syncMotor { c with head := { c.head with shift := .loaded e, loadLeft := 0 } }
  | _ => c

/-- STROBE_END on the part (R77). -/
def strobeEndChip (c : Chip) : Chip := if c.head.strobe.isSome then { c with head := nextStrobe c.head } else c

/-- CUTTER_PULSE_END on the part (R79). -/
def cutPulseChip (c : Chip) : Chip :=
  if c.head.cut = .pulse then { c with head := { c.head with cut := .judging } } else c

/-- A failed cut (R67, R68, R80): the mark stays, the route is HALTED (JAM), its scan channel comes down, and a start of it that was
due is due no longer. -/
def cutFailed (r : Nat) (c : Chip) : Chip :=
  let c := { c with head := { c.head with cut := .waiting, cutTime := none } }
  syncMotor (stopScanFor r (queueEvent (.jam .print r) (haltRoute r .jam c)))

/-- CUT_JUDGEMENT on the part (R80). -/
def cutJudgeChip (papx : Bool) (c : Chip) : Chip :=
  let c := { c with pins := { c.pins with papx := papx } }
  match decide (c.head.cut = .judging), c.head.route with
  | true, some r => if papx then cutFailed r c else settle r (servePrintMark r (endCut c))
  | _, _ => c

/-- DOCP changes (R43, R150). -/
def execDocpChange (present : Bool) (s : State) : Result := .next (s.onChip (docpChip present))

/-- A pick begins (R26). -/
def execPickStart (doce : Bool) (s : State) : Result := .next (s.onChip (pickChip doce))

/-- A channel starts (R51, R56, R58). -/
def execChannelStart (ch : ChannelId) (therm : Byte) (s : State) : Result :=
  .next (s.onChip (startChip ch therm))

/-- A channel takes a step (R52). -/
def execMotorStep (ch : ChannelId) (doce : Bool) (therm : Byte) (s : State) : Result :=
  .next (s.onChip (stepChip ch doce therm))

/-- A standstill hold runs out (R54). -/
def execHoldExpiry (ch : ChannelId) (s : State) : Result := .next (s.onChip (holdChip ch))

/-- A capture ends, the sensor having read these samples (R30). -/
def execCaptureEnd (samples : List Byte) (s : State) : Result := .next (s.onChip (captureChip samples))

/-- COVER shows the cover open (R63). -/
def execInterlockTrip (s : State) : Result := .next (s.onChip tripChip)

/-- COVER shows the cover closed (R64). -/
def execCoverClose (s : State) : Result := .next (s.onChip coverCloseChip)

/-- A head load ends (R72, R73). -/
def execHeadLoadEnd (s : State) : Result := .next (s.onChip loadEndChip)

/-- A group strobe ends (R77). -/
def execStrobeEnd (s : State) : Result := .next (s.onChip strobeEndChip)

/-- The cutter pulse ends (R79). -/
def execCutterPulseEnd (s : State) : Result := .next (s.onChip cutPulseChip)

/-- The cut is judged by PAPX (R80). -/
def execCutJudgement (papx : Bool) (s : State) : Result := .next (s.onChip (cutJudgeChip papx))

/-- PAPP shows no paper (R82). -/
def execPaperOut (s : State) : Result := .next (s.onChip paperOutChip)

/-- PAPP shows paper (R83). -/
def execPaperIn (s : State) : Result := .next (s.onChip paperInChip)

end Sys2Proof.Machine
end

