-- ==== Sys2Proof/Machine/PowerCommands.lean ====
section
/-!
DEFINITION. The meanings of power-on reset and of the events of the power and boot blocks, with SLEEP.
-/
namespace Sys2Proof.Machine

open Sys2Proof

/-- A power-on reset, the inputs showing these levels. -/
def execPowerOnReset (pins : Pins) (s : State) : Result := .next (powerOnState pins s)

/-- SLEEP (R154). -/
def execSleep (p : List Byte) (s : State) : Result := .next (arrive (.sleep p) (ownedChip p (sleepChip p)) s)

/-- SERVICE PULSE leaves the host reset requests (R149). -/
def execServicePulseEnd (s : State) : Result := .next (s.onChip pulseOverChip)

/-- A domain's settle time ends (R147). -/
def execDomainSettled (d : DomainId) (therm : Byte) (s : State) : Result :=
  .next (s.onChip (settledChip d therm))

/-- A domain's hold time runs out (R147). -/
def execDomainHoldExpiry (d : DomainId) (s : State) : Result := .next (s.onChip (holdOverChip d))

/-- A wake input changes level (R150). -/
def execWakeInputChange (pin : SignalPin) (high : Bool) (s : State) : Result :=
  .next (s.onChip (wakeInputChip pin high))

/-- Debounce time runs out (R150, R151, R159). -/
def execDebounceExpiry (source : WakeSource) (s : State) : Result := .next (s.onChip (debounceChip source))

/-- Sleep is entered (R155, R157). -/
def execSleepEntry (s : State) : Result := .next (sleepEntry s)

/-- A second of SLEEP has passed (R158). -/
def execSecondTick (s : State) : Result := .next (s.onChip secondChip)

/-- The wake timer expires (R158). -/
def execWakeTimerExpiry (s : State) : Result := .next (s.onChip wakeTimerChip)

/-- The main clock runs again (R160). -/
def execMainClockRunning (papp : Bool) (papx : Bool) (doce : Bool) (cover : Bool) (s : State) : Result :=
  .next (s.onChip (clockChip papp papx doce cover))

/-- WAKING ends (R161). -/
def execWakingEnd (s : State) : Result := .next (s.onChip wakingEndChip)

/-- BOOT HOLD leaves the host reset requests (R164). -/
def execBootHoldRelease (s : State) : Result := .next (s.onChip bootReleaseChip)

end Sys2Proof.Machine
end

