-- ==== Sys2Proof/Machine/RouteCommands.lean ====
section
/-!
DEFINITION. The meanings of the route and table directives: OPEN, CLOSE, ABORT, REDIRECT, REARM and the LOADs.
-/
namespace Sys2Proof.Machine

open Sys2Proof

/-- OPEN (R8 to R11). -/
def execOpenRoute (p : List Byte) (s : State) : Result :=
  .next (arrive (.openRoute p) (ownedChip p (openChip p)) s)

/-- CLOSE (R21). -/
def execClose (p : List Byte) (s : State) : Result := .next (arrive (.close p) (ownedChip p (closeChip p)) s)

/-- ABORT (R22). -/
def execAbort (p : List Byte) (s : State) : Result := .next (arrive (.abort p) (ownedChip p (abortChip p)) s)

/-- REDIRECT (R23). -/
def execRedirect (p : List Byte) (s : State) : Result :=
  .next (arrive (.redirect p) (ownedChip p (redirectChip p)) s)

/-- REARM (R66). -/
def execRearm (p : List Byte) (s : State) : Result := .next (arrive (.rearm p) (ownedChip p (rearmChip p)) s)

/-- LOAD shading (R45). -/
def execLoadShading (p : List Byte) (s : State) : Result :=
  .next (arrive (.loadShading p) (ownedChip p (loadShadingChip p)) s)

/-- LOAD tone (R45). -/
def execLoadTone (p : List Byte) (s : State) : Result :=
  .next (arrive (.loadTone p) (ownedChip p (loadToneChip p)) s)

/-- LOAD dither (R45). -/
def execLoadDither (p : List Byte) (s : State) : Result :=
  .next (arrive (.loadDither p) (ownedChip p (loadDitherChip p)) s)

/-- LOAD scan ramp (R49). -/
def execLoadScanRamp (p : List Byte) (s : State) : Result :=
  .next (arrive (.loadScanRamp p) (ownedChip p (loadScanRampChip p)) s)

/-- LOAD print ramp (R49). -/
def execLoadPrintRamp (p : List Byte) (s : State) : Result :=
  .next (arrive (.loadPrintRamp p) (ownedChip p (loadPrintRampChip p)) s)

/-- LOAD heat (R78). -/
def execLoadHeat (p : List Byte) (s : State) : Result :=
  .next (arrive (.loadHeat p) (ownedChip p (loadHeatChip p)) s)

/-- LOAD park (R153). -/
def execLoadPark (p : List Byte) (s : State) : Result :=
  .next (arrive (.loadPark p) (ownedChip p (loadParkChip p)) s)

/-- LOAD wake (R152). -/
def execLoadWake (p : List Byte) (s : State) : Result :=
  .next (arrive (.loadWake p) (ownedChip p (loadWakeChip p)) s)

end Sys2Proof.Machine
end

