-- ==== Sys2Proof/Machine/StoreCommands.lean ====
section
/-!
DEFINITION. The meanings of the store, protection and boot directives, and of the events of the flash.
-/
namespace Sys2Proof.Machine

open Sys2Proof

/-- CONFIRM handled by the Store Controller (R137, R179). -/
def confirmOwned (p : List Byte) (s : State) : State :=
  if p.isEmpty then (s.onChip fun c => { c with store := { c.store with setup := .none } }).onChip (refuse p .malformed)
  else confirmState p s

/-- INSTALL BOOT reads the header of the page's sequence-0 block (R172). -/
def installState (p : List Byte) (s : State) : State := s.onChip (installChip s.flash.mem p)

/-- A row program that holds the flash ends (R131). -/
def endRow (j : RowJob) (failed : List Nat) (s : State) : State :=
  let out := programRow j failed s.flash
  { s with flash := out.1, chip := freeFlash (settleAll (rowDone j out.1 out.2 s.chip)) }

/-- DELETE (R119). -/
def execDelete (p : List Byte) (s : State) : Result := .next (arrive (.delete p) (ownedChip p (deleteChip p)) s)

/-- LOCK PAGE (R134). -/
def execLockPage (p : List Byte) (s : State) : Result :=
  .next (arrive (.lockPage p) (ownedChip p (lockPageChip p)) s)

/-- SET MASTER LOCK (R136). -/
def execSetMasterLock (p : List Byte) (s : State) : Result :=
  .next (arrive (.setMasterLock p) (ownedChip p (setMasterChip p)) s)

/-- CLEAR LOCKS (R138). -/
def execClearLocks (p : List Byte) (s : State) : Result :=
  .next (arrive (.clearLocks p) (ownedChip p (setupChip .clearLocks p)) s)

/-- TOTAL ERASE (R139). -/
def execTotalErase (p : List Byte) (s : State) : Result :=
  .next (arrive (.totalErase p) (ownedChip p (setupChip .totalErase p)) s)

/-- CONFIRM (R137). -/
def execConfirm (p : List Byte) (s : State) : Result := .next (arrive (.confirm p) (confirmOwned p) s)

/-- CLEAR STORE STATUS (R125). -/
def execClearStoreStatus (p : List Byte) (s : State) : Result :=
  .next (arrive (.clearStoreStatus p) (ownedChip p (clearStatusChip p)) s)

/-- INSTALL BOOT (R172, R173). -/
def execInstallBoot (p : List Byte) (s : State) : Result :=
  .next (arrive (.installBoot p) (owned p (installState p)) s)

/-- SERVICE REQUEST (R141). -/
def execServiceRequest (p : List Byte) (s : State) : Result :=
  .next (arrive (.serviceRequest p) (ownedChip p (serviceRequestChip p)) s)

/-- SERVICE CODE (R142, R143). -/
def execServiceCode (p : List Byte) (s : State) : Result :=
  .next (arrive (.serviceCode p) (ownedChip p (serviceCodeChip p)) s)

/-- SERVICE END (R144). -/
def execServiceEnd (p : List Byte) (s : State) : Result :=
  .next (arrive (.serviceEnd p) (owned p (serviceEndState p)) s)

/-- SET CODE (R135). -/
def execSetCode (p : List Byte) (s : State) : Result :=
  .next (arrive (.setCode p) (ownedChip p (setCodeChip p)) s)

/-- BOOT FETCH (R167 to R169). -/
def execBootFetch (p : List Byte) (s : State) : Result :=
  .next (arrive (.bootFetch p) (ownedChip p (bootFetchChip p)) s)

/-- A STORE-source route asks for its next line (R20, R118). -/
def execStoreReadRequest (s : State) : Result := .next (s.onChip readRequestChip)

/-- A line read job ends (R118). -/
def execLineReadEnd (s : State) : Result :=
  .next (if s.chip.store.holder = some .lineRead then endRead (lineReadDone s.flash.mem) s else s)

/-- An entry program ends (R112, R114). -/
def execEntryProgramEnd (r : ProgResult) (s : State) : Result :=
  .next (if s.chip.store.holder = some .entry then endProgram .entry r entryDone s else s)

/-- A claim's header program ends (R111). -/
def execClaimProgramEnd (r : ProgResult) (s : State) : Result :=
  match s.chip.store.holder with
  | some (.claim b reloc pg) => .next (endProgram (.claim b reloc pg) r (claimDone b reloc) s)
  | _ => .next s

/-- A block-full or page-close program ends (R113). -/
def execCloseProgramEnd (r : ProgResult) (s : State) : Result :=
  match s.chip.store.holder with
  | some (.closeFull b) => .next (endProgram (.closeFull b) r (closeDone b none) s)
  | some (.closePage b t) => .next (endProgram (.closePage b t) r (closeDone b (some t)) s)
  | _ => .next s

/-- A retire program ends (R120). -/
def execRetireProgramEnd (r : ProgResult) (s : State) : Result :=
  match s.chip.store.holder with
  | some (.retire b why) => .next (endProgram (.retire b why) r (retireDone b why) s)
  | _ => .next s

/-- A read or program of a relocation ends (R114). -/
def execRelocationCopyEnd (r : ProgResult) (s : State) : Result :=
  match s.chip.store.holder with
  | some .relocRead => .next (endRead (relocRead s.flash.mem) s)
  | some .relocEntry => .next (endProgram .relocEntry r relocProgrammed s)
  | _ => .next s

/-- A protection row program ends, the cells or bytes named not reading as wanted (R131). -/
def execRowProgramEnd (failed : List Nat) (s : State) : Result :=
  match s.chip.store.holder with
  | some (.row j) => .next (endRow j failed s)
  | _ => .next s

/-- The background eraser starts an erase (R121). -/
def execEraseStart (s : State) : Result := .next (s.onChip eraseStartChip)

/-- An erase pulse fills its unit (R122). -/
def execErasePulseEnd (s : State) : Result := .next (s.onChip pulseEndChip)

/-- An erase verify ends (R122, R124). -/
def execEraseVerifyEnd (pass : Bool) (s : State) : Result := .next (verifyEnd pass s)

/-- A pulse that a waiting job would cut has run 1 ms (R123). -/
def execEraseMinPulseEnd (s : State) : Result := .next (s.onChip minPulseChip)

/-- The format mark and count program ends (R124). -/
def execCountProgramEnd (r : ProgResult) (s : State) : Result := .next (countEnd r s)

/-- The lock-segment erase of CLEAR LOCKS ends, the cells named still set (R138). -/
def execLockSegmentEraseEnd (stillSet : List Nat) (s : State) : Result := .next (lockEraseEnd stillSet s)

/-- The lock-segment erase of a TOTAL ERASE ends (R139). -/
def execTotalEraseLockSegmentEnd (stillSet : List Nat) (s : State) : Result := .next (totalLockEnd stillSet s)

/-- The key segment erase ends; master cell and code as they read (R139). -/
def execKeySegmentEraseEnd (key : List Byte) (s : State) : Result := .next (keyEraseEnd key s)

/-- The start-up scan begins (R126). -/
def execScanStart (s : State) : Result := .next (s.onChip scanStartChip)

/-- The start-up scan ends (R126 to R128, R165). -/
def execScanEnd (s : State) : Result := .next (scanEnd s)

/-- An image read ends (R166, R167). -/
def execImageReadEnd (s : State) : Result :=
  .next (if s.chip.store.holder = some .imageRead then endRead (imageReadDone s.flash.mem) s else s)

/-- The MARK program of an install ends (R173). -/
def execInstallMarkProgramEnd (r : ProgResult) (s : State) : Result :=
  .next (if s.chip.store.holder = some .installMark then endProgram .installMark r markDone s else s)

/-- The former boot page is retired (R173). -/
def execInstallRetireStart (s : State) : Result := .next (s.onChip installRetireChip)

/-- The service window runs out (R142, R143). -/
def execServiceWindowExpiry (s : State) : Result := .next (s.onChip windowExpiryChip)

/-- The program of state bad ends (R124). -/
def execBadStateProgramEnd (r : ProgResult) (s : State) : Result := .next (badEnd r s)

end Sys2Proof.Machine
end

