-- ==== Sys2Proof/Machine/LinkCommands.lean ====
section
/-!
DEFINITION. The meanings of the Page Link: its own directives, records that are no directives, framing, the exchange of bytes, and the
upstream stream.
-/
namespace Sys2Proof.Machine

open Sys2Proof

/-- What a directive's owner does with it (the dispatch table of R179); a record that is no directive is none here. -/
def directive (doce papx : Bool) (i : Instr) : State → State :=
  match i with
  | .openRoute p => ownedChip p (openChip p)
  | .close p => ownedChip p (closeChip p)
  | .abort p => ownedChip p (abortChip p)
  | .redirect p => ownedChip p (redirectChip p)
  | .rearm p => ownedChip p (rearmChip p)
  | .loadShading p => ownedChip p (loadShadingChip p)
  | .loadTone p => ownedChip p (loadToneChip p)
  | .loadDither p => ownedChip p (loadDitherChip p)
  | .loadScanRamp p => ownedChip p (loadScanRampChip p)
  | .loadPrintRamp p => ownedChip p (loadPrintRampChip p)
  | .loadHeat p => ownedChip p (loadHeatChip p)
  | .loadPark p => ownedChip p (loadParkChip p)
  | .loadWake p => ownedChip p (loadWakeChip p)
  | .delete p => ownedChip p (deleteChip p)
  | .lockPage p => ownedChip p (lockPageChip p)
  | .setMasterLock p => ownedChip p (setMasterChip p)
  | .clearLocks p => ownedChip p (setupChip .clearLocks p)
  | .totalErase p => ownedChip p (setupChip .totalErase p)
  | .confirm p => confirmOwned p
  | .clearStoreStatus p => ownedChip p (clearStatusChip p)
  | .installBoot p => owned p (installState p)
  | .serviceRequest p => ownedChip p (serviceRequestChip p)
  | .serviceCode p => ownedChip p (serviceCodeChip p)
  | .serviceEnd p => owned p (serviceEndState p)
  | .setCode p => ownedChip p (setCodeChip p)
  | .bootFetch p => ownedChip p (bootFetchChip p)
  | .sleep p => ownedChip p (sleepChip p)
  | .attentionMode p => ownedChip p (attentionChip p)
  | .statusRequest p _ _ => ownedChip p (statusChip p doce papx)
  | .directoryRequest p => ownedChip p (directoryChip p)
  | .unknownDirective _ p => State.onChip (unknownChip p)
  | _ => id

/-- A record of the downstream stream ends (R18, R176, R178, R179): a LINE or PAGE END record, or a directive. -/
def recordEnds (doce papx : Bool) (tag : Byte) (p : List Byte) (s : State) : State :=
  if tag = 0x01 then s.onChip lineEnd
  else if tag = 0x02 then s.onChip (pageEndTaken p)
  else if tag = 0x1B then restartState p s
  else arrive (directiveOf doce papx tag p) (directive doce papx (directiveOf doce papx tag p)) s

/-- The held directive is taken where 256 bytes are free (R179); a STATUS REQUEST reads DOCE and PAPX then. -/
def takeHeld (doce papx : Bool) (s : State) : State :=
  match s.chip.link.held with
  | some i =>
      if Config.reportRoom ≤ freeBytes s.chip then
        takeDirective i (directive doce papx i) (s.onChip fun c => { c with link := { c.link with held := none } })
      else s
  | none => s

/-- One byte is exchanged (R175): the upstream byte counts as sent, with the held directive taken where the end of its record leaves 256 bytes
free (R179), and the downstream byte is taken by the parser (R176), which ends a record with its last byte. Of the two bytes, which come at one
moment, the model takes the upstream one first; a DIRECTORY ENTRY for which it frees room comes after this exchange, so a directive that the
downstream byte ends goes before it (DESIGN CHOICE, notes/assumptions/62.md). -/
def exchange (doce papx : Bool) (s : State) (b : Byte) : State :=
  if exchanging s.chip then
    let s := takeHeld doce papx (s.onChip sendByte)
    let ended := s.chip.link.parser.ended b
    let s := s.onChip (parserTake b)
    match ended with
    | some x => recordEnds doce papx x.1 x.2 s
    | none => s
  else s

/-- ATTENTION MODE (R185). -/
def execAttentionMode (p : List Byte) (s : State) : Result :=
  .next (arrive (.attentionMode p) (ownedChip p (attentionChip p)) s)

/-- STATUS REQUEST, DOCE and PAPX reading so (R186). -/
def execStatusRequest (p : List Byte) (doce : Bool) (papx : Bool) (s : State) : Result :=
  .next (arrive (.statusRequest p doce papx) (ownedChip p (statusChip p doce papx)) s)

/-- RESTART, taken at once on arrival (R188). -/
def execRestart (p : List Byte) (s : State) : Result := .next (if canTake s.chip then restartState p s else s)

/-- DIRECTORY REQUEST (R187). -/
def execDirectoryRequest (p : List Byte) (s : State) : Result :=
  .next (arrive (.directoryRequest p) (ownedChip p (directoryChip p)) s)

/-- A directive whose tag names none (R178). -/
def execUnknownDirective (tag : Byte) (p : List Byte) (s : State) : Result :=
  .next (arrive (.unknownDirective tag p) (State.onChip (unknownChip p)) s)

/-- A directive record that ends while one is held is discarded, with no REPLY and no effect (R179). -/
def execDirectiveDiscardedUntaken (s : State) : Result := .next s

/-- The held directive is taken, 256 bytes being free (R179). -/
def execHeldDirectiveTaken (doce : Bool) (papx : Bool) (s : State) : Result := .next (takeHeld doce papx s)

/-- A LINE record, or part of one (R18, R93). -/
def execLine (length : Nat) (bytes : List Byte) (s : State) : Result := .next (s.onChip (lineChip length bytes))

/-- A PAGE END record (R18). -/
def execPageEnd (p : List Byte) (s : State) : Result := .next (s.onChip (pageEndChip p))

/-- A record with a tag from 03h to 0Fh is passed over, with no effect (R178). -/
def execSkippedTag (_tag : Byte) (_p : List Byte) (s : State) : Result := .next s

/-- A length above 600 (R178). -/
def execFramingError (_tag : Byte) (length : Nat) (s : State) : Result := .next (s.onChip (framingChip length))

/-- LSEL is released (R177). Of a byte that the release cuts, the bits downstream are dropped, and the byte upstream is sent again (R175). -/
def execLselRelease (s : State) (cut : List Bool := []) : Result := .next (s.onChip (lselReleaseChip cut))

/-- LSEL is asserted, or stands asserted, and these bytes are exchanged (R175, R176); a STATUS REQUEST among them reads DOCE and PAPX
so. -/
def execLselAssert (s : State) (doce papx : Bool := false) (bytes : List Byte := []) : Result :=
  .next (bytes.foldl (exchange doce papx) (s.onChip lselAssertChip))

/-- The last byte of a report record is sent (R181). -/
def execReportRecordSent (s : State) : Result := .next (s.onChip reportSentChip)

/-- The first byte of an upstream record is exchanged (R183). -/
def execUpstreamRecordStart (s : State) : Result := .next (s.onChip upstreamChip)

/-- The last byte of an outbound LINE record is sent (R95). -/
def execOutboundLineSent (s : State) : Result := .next (s.onChip lineSentChip)

/-- The last byte of an outbound PAGE END record is sent (R95). -/
def execOutboundPageEndSent (s : State) : Result := .next (s.onChip pageSentChip)

/-- The run encoding of an outbound line ends (R95). -/
def execLinkEncodeEnd (s : State) : Result := .next (s.onChip encodeEndChip)

/-- The listing queues its next entry, or DIRECTORY END (R187). -/
def execDirectoryEntry (s : State) : Result := .next (s.onChip directoryEntryChip)

/-- The attention pulse ends (R184). -/
def execAtnPulseEnd (s : State) : Result := .next (s.onChip atnEndChip)

end Sys2Proof.Machine
end

