-- ==== Sys2Proof/Machine/Dispatch.lean ====
section
/-! DEFINITION. The dispatch of a command to its meaning. -/
namespace Sys2Proof.Machine

open Sys2Proof

def exec (i : Instr) (s : State) : Host.Outcome State Fault Refusal :=
  match i with
  | .powerOnReset pins => Sys2Proof.Machine.execPowerOnReset pins s
  | .openRoute p => Sys2Proof.Machine.execOpenRoute p s
  | .close p => Sys2Proof.Machine.execClose p s
  | .abort p => Sys2Proof.Machine.execAbort p s
  | .redirect p => Sys2Proof.Machine.execRedirect p s
  | .rearm p => Sys2Proof.Machine.execRearm p s
  | .loadShading p => Sys2Proof.Machine.execLoadShading p s
  | .loadTone p => Sys2Proof.Machine.execLoadTone p s
  | .loadDither p => Sys2Proof.Machine.execLoadDither p s
  | .loadScanRamp p => Sys2Proof.Machine.execLoadScanRamp p s
  | .loadPrintRamp p => Sys2Proof.Machine.execLoadPrintRamp p s
  | .loadHeat p => Sys2Proof.Machine.execLoadHeat p s
  | .loadPark p => Sys2Proof.Machine.execLoadPark p s
  | .loadWake p => Sys2Proof.Machine.execLoadWake p s
  | .attentionMode p => Sys2Proof.Machine.execAttentionMode p s
  | .statusRequest p doce papx => Sys2Proof.Machine.execStatusRequest p doce papx s
  | .restart p => Sys2Proof.Machine.execRestart p s
  | .delete p => Sys2Proof.Machine.execDelete p s
  | .directoryRequest p => Sys2Proof.Machine.execDirectoryRequest p s
  | .lockPage p => Sys2Proof.Machine.execLockPage p s
  | .setMasterLock p => Sys2Proof.Machine.execSetMasterLock p s
  | .clearLocks p => Sys2Proof.Machine.execClearLocks p s
  | .totalErase p => Sys2Proof.Machine.execTotalErase p s
  | .confirm p => Sys2Proof.Machine.execConfirm p s
  | .clearStoreStatus p => Sys2Proof.Machine.execClearStoreStatus p s
  | .installBoot p => Sys2Proof.Machine.execInstallBoot p s
  | .serviceRequest p => Sys2Proof.Machine.execServiceRequest p s
  | .serviceCode p => Sys2Proof.Machine.execServiceCode p s
  | .serviceEnd p => Sys2Proof.Machine.execServiceEnd p s
  | .setCode p => Sys2Proof.Machine.execSetCode p s
  | .sleep p => Sys2Proof.Machine.execSleep p s
  | .bootFetch p => Sys2Proof.Machine.execBootFetch p s
  | .unknownDirective tag p => Sys2Proof.Machine.execUnknownDirective tag p s
  | .directiveDiscardedUntaken => Sys2Proof.Machine.execDirectiveDiscardedUntaken s
  | .heldDirectiveTaken doce papx => Sys2Proof.Machine.execHeldDirectiveTaken doce papx s
  | .line length bytes => Sys2Proof.Machine.execLine length bytes s
  | .pageEnd p => Sys2Proof.Machine.execPageEnd p s
  | .skippedTag tag p => Sys2Proof.Machine.execSkippedTag tag p s
  | .framingError tag length => Sys2Proof.Machine.execFramingError tag length s
  | .lselRelease cut => Sys2Proof.Machine.execLselRelease s cut
  | .reportRecordSent => Sys2Proof.Machine.execReportRecordSent s
  | .outboundLineSent => Sys2Proof.Machine.execOutboundLineSent s
  | .outboundPageEndSent => Sys2Proof.Machine.execOutboundPageEndSent s
  | .linkEncodeEnd => Sys2Proof.Machine.execLinkEncodeEnd s
  | .directoryEntry => Sys2Proof.Machine.execDirectoryEntry s
  | .atnPulseEnd => Sys2Proof.Machine.execAtnPulseEnd s
  | .docpChange present => Sys2Proof.Machine.execDocpChange present s
  | .pickStart doce => Sys2Proof.Machine.execPickStart doce s
  | .channelStart ch therm => Sys2Proof.Machine.execChannelStart ch therm s
  | .motorStep ch doce therm => Sys2Proof.Machine.execMotorStep ch doce therm s
  | .holdExpiry ch => Sys2Proof.Machine.execHoldExpiry ch s
  | .captureEnd samples => Sys2Proof.Machine.execCaptureEnd samples s
  | .interlockTrip => Sys2Proof.Machine.execInterlockTrip s
  | .coverClose => Sys2Proof.Machine.execCoverClose s
  | .headLoadEnd => Sys2Proof.Machine.execHeadLoadEnd s
  | .strobeEnd => Sys2Proof.Machine.execStrobeEnd s
  | .cutterPulseEnd => Sys2Proof.Machine.execCutterPulseEnd s
  | .cutJudgement papx => Sys2Proof.Machine.execCutJudgement papx s
  | .paperOut => Sys2Proof.Machine.execPaperOut s
  | .paperIn => Sys2Proof.Machine.execPaperIn s
  | .storeReadRequest => Sys2Proof.Machine.execStoreReadRequest s
  | .lineReadEnd => Sys2Proof.Machine.execLineReadEnd s
  | .entryProgramEnd r => Sys2Proof.Machine.execEntryProgramEnd r s
  | .claimProgramEnd r => Sys2Proof.Machine.execClaimProgramEnd r s
  | .closeProgramEnd r => Sys2Proof.Machine.execCloseProgramEnd r s
  | .retireProgramEnd r => Sys2Proof.Machine.execRetireProgramEnd r s
  | .relocationCopyEnd r => Sys2Proof.Machine.execRelocationCopyEnd r s
  | .rowProgramEnd failed => Sys2Proof.Machine.execRowProgramEnd failed s
  | .eraseStart => Sys2Proof.Machine.execEraseStart s
  | .erasePulseEnd => Sys2Proof.Machine.execErasePulseEnd s
  | .eraseVerifyEnd pass => Sys2Proof.Machine.execEraseVerifyEnd pass s
  | .eraseMinPulseEnd => Sys2Proof.Machine.execEraseMinPulseEnd s
  | .countProgramEnd r => Sys2Proof.Machine.execCountProgramEnd r s
  | .lockSegmentEraseEnd stillSet => Sys2Proof.Machine.execLockSegmentEraseEnd stillSet s
  | .totalEraseLockSegmentEnd stillSet => Sys2Proof.Machine.execTotalEraseLockSegmentEnd stillSet s
  | .keySegmentEraseEnd key => Sys2Proof.Machine.execKeySegmentEraseEnd key s
  | .scanStart => Sys2Proof.Machine.execScanStart s
  | .scanEnd => Sys2Proof.Machine.execScanEnd s
  | .imageReadEnd => Sys2Proof.Machine.execImageReadEnd s
  | .installMarkProgramEnd r => Sys2Proof.Machine.execInstallMarkProgramEnd r s
  | .installRetireStart => Sys2Proof.Machine.execInstallRetireStart s
  | .serviceWindowExpiry => Sys2Proof.Machine.execServiceWindowExpiry s
  | .servicePulseEnd => Sys2Proof.Machine.execServicePulseEnd s
  | .domainSettled d therm => Sys2Proof.Machine.execDomainSettled d therm s
  | .domainHoldExpiry d => Sys2Proof.Machine.execDomainHoldExpiry d s
  | .wakeInputChange pin high => Sys2Proof.Machine.execWakeInputChange pin high s
  | .debounceExpiry source => Sys2Proof.Machine.execDebounceExpiry source s
  | .sleepEntry => Sys2Proof.Machine.execSleepEntry s
  | .secondTick => Sys2Proof.Machine.execSecondTick s
  | .wakeTimerExpiry => Sys2Proof.Machine.execWakeTimerExpiry s
  | .mainClockRunning papp papx doce cover => Sys2Proof.Machine.execMainClockRunning papp papx doce cover s
  | .wakingEnd => Sys2Proof.Machine.execWakingEnd s
  | .bootHoldRelease => Sys2Proof.Machine.execBootHoldRelease s
  | .lselAssert doce papx bytes => Sys2Proof.Machine.execLselAssert s doce papx bytes
  | .upstreamRecordStart => Sys2Proof.Machine.execUpstreamRecordStart s
  | .badStateProgramEnd r => Sys2Proof.Machine.execBadStateProgramEnd r s

end Sys2Proof.Machine
end

