-- ==== Sys2Proof/Safety.lean ====
section
/-!
DEFINITION. What the claims speak of: when a directive is taken with nothing standing in its way, the form the flash and the line
pool keep, and the parts of the state that a piece of work leaves alone.
-/
namespace Sys2Proof.Machine

open Sys2Proof

/-- The state with another part: same flash, same queue. -/
abbrev State.withChip (s : State) (c : Chip) : State := { s with chip := c }

/-! ## Taking a directive -/

/-- A directive record that ends now is taken at once (R179): the link can take it, none is held, and 256 bytes are free. -/
abbrev Taken (s : State) : Prop :=
  canTake s.chip = true ∧ s.chip.link.held = none ∧ Config.reportRoom ≤ freeBytes s.chip

/-- None of the rules that watch the directive stream has anything to do: no setup is pending (R137), no sleep is pending (R156)
and the Boot Server is not SERVING (R170). -/
abbrev Quiet (c : Chip) : Prop := c.store.setup = .none ∧ c.power.state ≠ .sleepPending ∧ c.boot.state ≠ .serving

/-! ## The flash device -/

/-- The flash array in its canonical form, and a lock segment of 8 bytes. -/
abbrev FlashOk (f : Flash) : Prop := Memory.wf f.mem ∧ f.lockCells.length = 8

/-! ## The line pool (R1, R2) -/

/-- The free list holds every FREE slot and no other, each once. -/
def PoolOk (p : Pool) : Prop :=
  p.slots.length = Config.slotCount ∧ p.freeList.Nodup ∧
    ∀ n, n ∈ p.freeList ↔ n < Config.slotCount ∧ p.slots.getD n .free = .free

/-! ## The sizes of the tables -/

/-- Every table has the number of entries that the manual gives it. -/
def ShapeOk (c : Chip) : Prop :=
  c.routes.length = Config.routeCount ∧ c.store.blocks.length = Config.blockCount ∧ c.tables.shading.length = lineWidth ∧
    c.tables.tone.length = 256 ∧ c.tables.dither.length = 64 ∧ c.power.park.length = 8 ∧ c.power.holds.length = 3 ∧
    c.power.wake.length = 4 ∧ c.power.sources.length = 4

/-! ## The supplies (R148, R157, R160) -/

/-- Flash and host supplies go with the main clock, which runs in RUN and SLEEP PENDING and is stopped in SLEEP; no directive is
held while the host cannot send. -/
def SuppliesOk (c : Chip) : Prop :=
  c.power.flashOn = c.power.clockOn ∧ c.power.hostOn = c.power.clockOn ∧ (hostUp c = true → c.power.clockOn = true) ∧
    (c.power.state = .sleep → c.power.clockOn = false) ∧ (hostUp c = false → c.link.held = none)

/-! ## What work leaves alone -/

/-- The loadable tables (R44, R49, R78, R150, R153). -/
structure Loaded where
  tables : ScanTables
  heat : HeatTable
  scanRamp : List Nat
  printRamp : List Nat
  park : List ParkMode
  holds : List Nat
  wake : List WakeEntry
  deriving DecidableEq, Repr

/-- The loadable tables as the part holds them. -/
def Chip.loaded (c : Chip) : Loaded :=
  { tables := c.tables, heat := c.heat, scanRamp := c.scanCh.ramp, printRamp := c.printCh.ramp, park := c.power.park,
    holds := c.power.holds, wake := c.power.wake }

/-- What the movement of lines, paper and pages leaves alone: the loadable tables, the motors' phase positions, the inputs but for DOCE, PAPX and THERM, the
Protection Unit, the Boot Server, the Power Controller but for its three switched domains, and the Page Link Interface but for
its report queue, the events-lost indication and the attention pulse. -/
structure Backdrop where
  loaded : Loaded
  scanPhase : Nat
  printPhase : Nat
  pins : Pins
  prot : Protection
  boot : Boot
  power : Power
  link : Link
  deriving DecidableEq, Repr

/-- The inputs but for DOCE, PAPX and THERM. -/
def pinsStill (p : Pins) : Pins := { p with doce := false, papx := false, therm := 0 }

/-- The Power Controller but for the three domains switched by use. -/
def Power.still (p : Power) : Power := { p with lamp := .off, head := .off, motor := .off }

/-- The Page Link Interface but for its queue, the events-lost indication and the attention pulse. -/
def Link.still (l : Link) : Link := { l with reports := [], eventsLost := false, atnLeft := 0 }

/-- The backdrop of the part. -/
def Chip.backdrop (c : Chip) : Backdrop :=
  { loaded := c.loaded, scanPhase := c.scanCh.phase, printPhase := c.printCh.phase, pins := pinsStill c.pins,
    prot := c.prot, boot := c.boot, power := c.power.still, link := c.link.still }

/-- The commands that may write a loadable table: the LOADs, power-on reset, the taking of a held directive, and bytes exchanged, among
which a LOAD may come. -/
def writesTables : Instr → Bool
  | .powerOnReset _ => true
  | .loadShading _ => true
  | .loadTone _ => true
  | .loadDither _ => true
  | .loadScanRamp _ => true
  | .loadPrintRamp _ => true
  | .loadHeat _ => true
  | .loadPark _ => true
  | .loadWake _ => true
  | .heldDirectiveTaken _ _ => true
  | .lselAssert _ _ bytes => !bytes.isEmpty
  | _ => false

/-- The wake source of a wake input. -/
def pinSource : SignalPin → WakeSource
  | .ring => .ring
  | .key => .key
  | .hook => .hook

/-- The inputs with one wake input at a level. -/
def setPin (pin : SignalPin) (high : Bool) (p : Pins) : Pins :=
  match pin with
  | .ring => { p with ring := high }
  | .key => { p with key := high }
  | .hook => { p with hook := high }

/-- The commands that the dispatch table of R179 hands to an owner, and unknown directives: every directive but RESTART. -/
def isDirective (i : Instr) : Bool :=
  match i, i.record with
  | .restart _, _ => false
  | _, some (tag, _) => decide (0x10 ≤ tag.toNat)
  | _, none => false

/-- The commands that may change the protection row (R131, R138 to R140): the ends of its programs and erases, the two resets that
cut one short, and bytes exchanged, among which a RESTART may come. -/
def writesRow : Instr → Bool
  | .powerOnReset _ => true
  | .restart _ => true
  | .rowProgramEnd _ => true
  | .lockSegmentEraseEnd _ => true
  | .totalEraseLockSegmentEnd _ => true
  | .keySegmentEraseEnd _ => true
  | .lselAssert _ _ bytes => !bytes.isEmpty
  | _ => false

/-- The events that only move lines, paper and pages: the steps of the two motors, which move a phase, apart. -/
def movesOnly : Instr → Bool
  | .pickStart _ => true
  | .channelStart _ _ => true
  | .holdExpiry _ => true
  | .captureEnd _ => true
  | .headLoadEnd => true
  | .strobeEnd => true
  | .cutterPulseEnd => true
  | .cutJudgement _ => true
  | .linkEncodeEnd => true
  | .storeReadRequest => true
  | .lineReadEnd => true
  | .entryProgramEnd _ => true
  | .claimProgramEnd _ => true
  | .closeProgramEnd _ => true
  | .relocationCopyEnd _ => true
  | .eraseStart => true
  | .erasePulseEnd => true
  | .eraseVerifyEnd _ => true
  | .eraseMinPulseEnd => true
  | .countProgramEnd _ => true
  | .badStateProgramEnd _ => true
  | _ => false

end Sys2Proof.Machine
end

