-- ==== Sys2Proof/Certificates/Slice0/Obligations.lean ====
section
/-!
DEFINITION. The statements put to the provers. Each docstring names the rules it comes from; `s` is the state before a command and
`t` the state after it.
-/

open Sys2Proof Sys2Proof.Machine

/-! ## The machine as a whole -/

/-- A step takes the command at the front of the queue and is `exec` of it on the state with the queue's rest. -/
def Obligations.StepRunsTheFrontCommand : Prop :=
  ∀ (i : Instr) (rest : List Instr) (s : State), s.pending = i :: rest → step s = exec i { s with pending := rest }

/-- The model's choice (notes/assumptions/3.md): a step on an empty queue is one tick of the time base and nothing else. Outside SLEEP a
tick is 1 µs: every time left falls by 1 (the steps, holds, load, strobe, capture, verify, segment erase, window, pulses, debounce times in
their units, supply domains and the clock's start), and every time counted up rises by 1 (the cut, the pulse of an erase within its unit, the
host supply up to 20 ms). In SLEEP it is one tick of the low-power clock: the debounce times fall by their unit and the ticks of the second
rise; the seconds are counted by a command. Nothing but these counters changes. -/
def Obligations.StepOnAnEmptyQueueIsATick : Prop :=
  (∀ s : State, s.pending = [] → step s = .next (s.withChip (tick s.chip))) ∧
  (∀ c : Chip, c.power.state = .sleep →
    ∃ xs : List Debounce, tick c = { c with power := { c.power with sources := xs, ticks := c.power.ticks + 1 } } ∧
    xs.length = c.power.sources.length ∧
    ∀ (i : Nat) (d : Debounce), c.power.sources[i]? = some d → xs[i]? = some { d with timing := d.timing.map fun x => (x.1, x.2 - 1000) }) ∧
  (∀ c : Chip, c.power.state ≠ .sleep →
    let t := tick c
    (t.scanCh = { c.scanCh with left := c.scanCh.left - 1, holdLeft := c.scanCh.holdLeft - 1 } ∧
      t.printCh = { c.printCh with left := c.printCh.left - 1, holdLeft := c.printCh.holdLeft - 1 } ∧
      t.scan = { c.scan with captureLeft := c.scan.captureLeft - 1 } ∧
      t.head = { c.head with loadLeft := c.head.loadLeft - 1, strobe := c.head.strobe.map (fun x => (x.1, x.2 - 1)),
                             cutTime := c.head.cutTime.map (· + 1) } ∧
      t.link = { c.link with atnLeft := c.link.atnLeft - 1 }) ∧
    (∀ n, c.prot.service = .window n → t.prot = { c.prot with service := .window (n - 1) }) ∧
    ((∀ n, c.prot.service ≠ .window n) → t.prot = c.prot) ∧
    (t.store = { c.store with erase := t.store.erase, segLeft := c.store.segLeft - 1 } ∧ (c.store.erase = none → t.store.erase = none) ∧
      ∀ e, c.store.erase = some e →
        (e.phase = .pulse → e.unit < 10000 → t.store.erase =
          some { e with applied := e.applied + 1, unit := e.unit + 1, pulseRun := e.pulseRun + 1 }) ∧
        (e.phase = .verify → t.store.erase = some { e with verifyLeft := e.verifyLeft - 1 }) ∧
        (e.phase ≠ .verify → e.phase ≠ .pulse ∨ 10000 ≤ e.unit → t.store.erase = some e)) ∧
    (∃ (lamp head motor : Domain) (xs : List Debounce), t.power = { c.power with
        lamp := lamp, head := head, motor := motor, sources := xs, pulseHold := c.power.pulseHold.map (· - 1),
        clockLeft := c.power.clockLeft - 1, hostUp := if c.power.hostOn then min 20000 (c.power.hostUp + 1) else c.power.hostUp } ∧
      (∀ x ∈ [(c.power.lamp, lamp), (c.power.head, head), (c.power.motor, motor)],
        (∀ n, x.1 = .rising n → x.2 = .rising (n - 1)) ∧ (∀ n, x.1 = .holding n → x.2 = .holding (n - 1)) ∧
        (x.1 = .off → x.2 = .off) ∧ (x.1 = .on → x.2 = .on)) ∧
      xs.length = c.power.sources.length ∧
      ∀ (i : Nat) (d : Debounce), c.power.sources[i]? = some d → xs[i]? = some { d with timing := d.timing.map fun x => (x.1, x.2 - 33) }) ∧
    (t.pins = c.pins ∧ t.pool = c.pool ∧ t.routes = c.routes ∧ t.runOut = c.runOut ∧ t.tables = c.tables ∧ t.heat = c.heat ∧
      t.linkIn = c.linkIn ∧ t.linkOut = c.linkOut ∧ t.boot = c.boot))

/-- The model's choice (notes/assumptions/48.md, that no command faults, and 6.md, that a command without its condition has no effect): every
command, in every state, answers a next state, and touches no command that waits behind it. -/
def Obligations.EveryCommandAnswersANextState : Prop :=
  ∀ (i : Instr) (s : State), ∃ t, exec i s = .next t ∧ t.pending = s.pending

/-- What reset leaves, as the last section of each chapter lists it: pool and routes (R24), scan (R25, R44), channels (R47), head (R70, R78), the
lanes of the Line Coder, which hold nothing (R99), store (R129), protection (R145), power (R162), boot with its check, chunk, install and
pending report (R163), link (R189). That no halt is reported of a CLOSED route and that LSEL is released are the model's choice
(notes/assumptions/4.md), and so is the empty queue of waiting commands (notes/assumptions/5.md). -/
def Obligations.ResetHoldsTheManualsValues : Prop :=
  let c := State.reset.chip
  State.reset.pending = [] ∧
  c.pool = { slots := List.replicate 32 .free, freeList := List.range 32 } ∧
  c.routes = List.replicate 4 { ctx := none, pagesDone := 0, overrun := false, haltReported := false } ∧
  c.runOut = none ∧ c.scan.state = .idle ∧ c.scan.route = none ∧ c.scan.capture = none ∧ c.scan.lampUse = false ∧
  c.tables.shading = List.replicate 1728 ⟨0, 256⟩ ∧ c.tables.tone = List.range 256 ∧ c.tables.dither = List.replicate 64 128 ∧
  (c.scanCh.motion = .halted ∧ c.scanCh.drive = .off ∧ c.scanCh.ramp = [4000] ∧ c.scanCh.phase = 0) ∧
  (c.printCh.motion = .halted ∧ c.printCh.drive = .off ∧ c.printCh.ramp = [4000] ∧ c.printCh.phase = 0) ∧
  c.head.shift = .empty ∧ c.head.cut = .none ∧
  c.heat = { thresholds := [32, 64, 96, 128, 160, 192, 224], times := List.replicate 8 600 } ∧
  (c.store.programFault = false ∧ c.store.eraseFault = false ∧ c.store.sequenceFault = false ∧
    c.store.protectionFault = false ∧ c.store.erase = none ∧ c.store.holder = none ∧ c.store.reads = [] ∧ c.store.programs = [] ∧
    c.store.setup = .none) ∧
  (c.linkIn = .idle ∧ c.linkOut = .idle ∧ c.store.lane = none ∧ c.store.reading = none) ∧
  c.prot = { service := .normal, failures := 0, copy := none } ∧
  (c.power.state = .run ∧ c.power.lamp = .off ∧ c.power.head = .off ∧ c.power.motor = .off ∧ c.power.bootHold = true) ∧
  c.boot = { state := .holding, installed := none, length := none, checksum := none, result := .unchecked, check := none,
             chunk := none, install := none, report := none } ∧
  (c.link.parser = .between ∧ c.link.held = none ∧ c.link.reports = [] ∧ c.link.eventsLost = false ∧
    c.link.pulseMode = false ∧ c.link.listing = none ∧ c.link.selected = false)

/-- The four forms that the next statements keep hold at reset. -/
def Obligations.FormsHoldAtReset : Prop :=
  FlashOk State.reset.flash ∧ PoolOk State.reset.chip.pool ∧ ShapeOk State.reset.chip ∧ SuppliesOk State.reset.chip

/-- Every step keeps the flash array in its canonical form, inside the array of R100, and the lock segment at 8 bytes (R130). -/
def Obligations.FlashInOrderAfterEveryStep : Prop :=
  ∀ s t : State, FlashOk s.flash → step s = .next t → FlashOk t.flash

/-- Every step keeps the free list the list of the FREE slots, each on it once (R1, R2). -/
def Obligations.PoolInOrderAfterEveryStep : Prop :=
  ∀ s t : State, PoolOk s.chip.pool → step s = .next t → PoolOk t.chip.pool

/-- Every step keeps the number of entries of every table (R6, R44, R103, R150, R153). -/
def Obligations.ShapeInOrderAfterEveryStep : Prop :=
  ∀ s t : State, ShapeOk s.chip → step s = .next t → ShapeOk t.chip

/-- Every step keeps the flash and host supplies with the main clock, on in RUN and SLEEP PENDING and off in SLEEP (R148, R157,
R160). -/
def Obligations.SuppliesInOrderAfterEveryStep : Prop :=
  ∀ s t : State, SuppliesOk s.chip → step s = .next t → SuppliesOk t.chip

/-- No command but a LOAD (taken at once or after being held) and power-on reset changes a loadable table: the tables keep their
contents through RESTART, sleep, wake and a host reset (R44, R49, R78, R152, R153). -/
def Obligations.TablesChangeOnlyByTheirLoads : Prop :=
  ∀ (i : Instr) (s t : State), writesTables i = false → exec i s = .next t → t.chip.loaded = s.chip.loaded

/-- The protection row changes only by the programs and erases of chapter 7, or where a reset cuts one short (R131, R138 to R140,
R145). -/
def Obligations.RowChangesOnlyByItsPrograms : Prop :=
  ∀ (i : Instr) (s t : State), writesRow i = false → exec i s = .next t →
    t.flash.lockCells = s.flash.lockCells ∧ t.flash.master = s.flash.master ∧ t.flash.code = s.flash.code

/-- The events that move lines, paper and pages leave the loadable tables, the phases, the Protection Unit, the Boot Server, the Power
Controller's states and the Page Link's modes as they are: their whole frame outside the blocks of the page path. -/
def Obligations.MovementLeavesTheBackdrop : Prop :=
  ∀ (i : Instr) (s t : State), movesOnly i = true → exec i s = .next t → t.chip.backdrop = s.chip.backdrop

/-! ## Encodings -/

/-- Decode and encode agree on every line (R88 to R92): what the encoder gives is at most 216 bytes and decodes to the same 1728
pixels with no repair; so do the 216 raw bytes. -/
def Obligations.EveryLineDecodesAsItWasEncoded : Prop :=
  ∀ l : Line, l.length = lineWidth →
    (encodeLine l).data.length ≤ rawBytes ∧
    decodeLine (encodeLine l).form.asIn (encodeLine l).data = (l, false) ∧
    decodeLine .raw (rawOf l) = (l, false)

/-- Decode and encode agree on every record of the host (R176, R178, R179, 11.1): the bytes of a well-formed record command read
back as that command, and leave the bytes behind it. `readRecord` is the model's own reading of a byte string (notes/assumptions/5.md); the
parser that a step runs is stated with the records and selects. -/
def Obligations.EveryRecordReadsBackAsItsCommand : Prop :=
  ∀ (i : Instr) (tag : Byte) (p rest : List Byte), i.wf = true → i.record = some (tag, p) →
    readRecord i.statusLevels.1 i.statusLevels.2 (recordBytes tag p ++ rest) = some (i, rest)

/-- R31, whole: the corrected value of a sample; a gain of 0 gives 0; with the default entry it is the sample; the largest
product, which is cut to 255; and a pixel is corrected by the shading entry of its own number. -/
def Obligations.SampleCorrection : Prop :=
  (∀ (e : Shade) (x : Nat), x ≤ e.dark → correct e x = 0) ∧
  (∀ (e : Shade) (x : Nat), e.dark < x → correct e x = min 255 ((x - e.dark) * e.gain / 256)) ∧
  (∀ d x : Nat, correct ⟨d, 0⟩ x = 0) ∧
  (∀ x : Nat, x ≤ 255 → correct ⟨0, 256⟩ x = x) ∧
  (∀ (e : Shade) (x : Nat), x ≤ 255 → e.gain ≤ 65535 → (x - e.dark) * e.gain ≤ 16711425 ∧ correct e x ≤ 255) ∧
  255 * 65535 = 16711425 ∧ 16711425 / 256 = 65279 ∧ correct ⟨0, 65535⟩ 255 = 255 ∧
  (∀ (t : ScanTables) (p : ScanParams) (row i : Nat) (sample : Byte),
    pixelOf t p row i sample =
      bilevel p t.dither row i (t.tone.getD (correct (t.shading.getD i ⟨0, 256⟩) sample.toNat) 0))

/-- Correction, tone and the bilevel stage at a pixel of a captured line (R30 to R33): `row` is the output line number the line will
take. A threshold or a dither entry of 0 makes white. -/
def Obligations.PixelOfACapturedLine : Prop :=
  ∀ (t : ScanTables) (p : ScanParams) (row : Nat) (samples : List Byte) (i : Nat), i < lineWidth →
    let c := correct (t.shading.getD i ⟨0, 256⟩) (samples.getD i 0).toNat
    let v := t.tone.getD c 0
    (scanLine t p row samples).length = lineWidth ∧
    (p.mode = .threshold → (scanLine t p row samples)[i]? = some (decide (v < p.threshold))) ∧
    (p.mode = .dither → (scanLine t p row samples)[i]? = some (decide (v < t.dither.getD (8 * (row % 8) + i % 8) 0)))

/-- Vertical scaling over a page (R34): from an accumulator of 0, of the first `n` captures exactly floor(n q / 256) are kept, and the
accumulator stays below 256. -/
def Obligations.ScalingKeepsItsShareOfLines : Prop :=
  ∀ q n : Nat, q ≤ 256 →
    let run := (List.range n).foldl (fun (x : Nat × Nat) _ =>
      ((scaleLine x.1 q).1, x.2 + if (scaleLine x.1 q).2 then 1 else 0)) (0, 0)
    run.2 = n * q / 256 ∧ run.1 = n * q % 256

/-- The outputs of a channel by its phase position (R48): one or two neighbouring outputs, a step moves one place forward from 7 back
to 0, and drive OFF turns every output off. -/
def Obligations.PhasesFollowTheirSequence : Prop :=
  (List.range 8).map phaseOutputs = [[.a], [.a, .b], [.b], [.b, .c], [.c], [.c, .d], [.d], [.d, .a]] ∧
  (∀ ch : Channel, ch.step.1.phase = (ch.phase + 1) % 8 ∧ ch.step.1.drive = ch.drive) ∧
  (∀ ch : Channel, ch.drive = .off → ch.outputs = []) ∧
  (∀ ch : Channel, ch.drive ≠ .off → ch.outputs = phaseOutputs ch.phase) ∧
  (∀ ch : Channel, ch.halt.phase = ch.phase ∧ ch.halt.drive = .hold ∧ ch.trip.phase = ch.phase ∧ ch.trip.drive = .off)

/-- Loaded tables are held in order: a ramp that never rises with every entry in 500 to 20,000 (R49), and thresholds that never fall
with none above 255 (R78). -/
def Obligations.LoadedTablesAreHeldInOrder : Prop :=
  (∀ (ramp new : List Nat) (off : Nat), off ≤ ramp.length → ramp.Pairwise (· ≥ ·) → (∀ x ∈ ramp, 500 ≤ x ∧ x ≤ 20000) →
    (loadedRamp ramp off new).Pairwise (· ≥ ·) ∧ (∀ x ∈ loadedRamp ramp off new, 500 ≤ x ∧ x ≤ 20000) ∧
      (loadedRamp ramp off new).length = off + new.length) ∧
  (∀ (t : HeatTable) (new : List Nat) (off : Nat), t.thresholds.length = 7 → t.times.length = 8 →
    t.thresholds.Pairwise (· ≤ ·) → (∀ x ∈ t.thresholds, x ≤ 255) → (∀ x ∈ t.times, 100 ≤ x ∧ x ≤ 4000) →
    off + new.length ≤ 15 →
    (applyHeat t off new).1.thresholds.Pairwise (· ≤ ·) ∧ (∀ x ∈ (applyHeat t off new).1.thresholds, x ≤ 255) ∧
      (∀ x ∈ (applyHeat t off new).1.times, 100 ≤ x ∧ x ≤ 4000) ∧
      (applyHeat t off new).1.thresholds.length = 7 ∧ (applyHeat t off new).1.times.length = 8)

/-! ## Directives (chapter 10.3): the stream rules, holding, routes -/

/-- The rules that watch the directive stream (R137, R156, R170, R171, R179): after them no setup is pending but before CONFIRM, no sleep but
before STATUS REQUEST, and the Boot Server is not SERVING but before BOOT FETCH; with nothing to watch for they do nothing. A pending sleep is
cancelled with wake timer setting 0 and SLEEP CANCELLED (DIRECTIVE); serving ends with the boot state COMPLETE, the chunk in flight dropped
and its waiting read withdrawn, BOOT COMPLETE (DIRECTIVE) queued and behind it the pending report, which becomes none. Where one of these
events finds no room, events lost is set in its place (R181), the pending report among them where BOOT COMPLETE leaves less than 256 bytes. All
else stays as it was. That a read of the chunk which holds the flash leaves it at that moment, and the next job is granted then, is deduced
(notes/assumptions/24.md). -/
def Obligations.StreamRulesWatchEveryDirective : Prop :=
  ∀ (i : Instr) (c : Chip),
    ((∀ p, i ≠ .confirm p) → (streamRules i c).store.setup = .none ∧
      (c.store.setup ≠ .none → (streamRules i c).store.sequenceFault = true)) ∧
    ((∀ p a b, i ≠ .statusRequest p a b) → (streamRules i c).power.state ≠ .sleepPending) ∧
    ((∀ p, i ≠ .bootFetch p) → (streamRules i c).boot.state ≠ .serving) ∧
    (Quiet c → streamRules i c = c) ∧
    (let t := streamRules i c
      let confirms := match i with | .confirm _ => true | _ => false
      let setup := if c.store.setup = .none ∨ confirms = true then c.store
        else { c.store with setup := .none, sequenceFault := true };
      ((∀ p a b, i ≠ .statusRequest p a b) → c.power.state = .sleepPending → c.boot.state ≠ .serving →
        t.power = { c.power with state := .run, wakeTimer := 0 } ∧ t.store = setup ∧ t.boot = c.boot ∧
          (256 ≤ freeBytes c → t.link.reports = c.link.reports ++ [.event (.sleepCancelled .directive)] ∧
            t.link.eventsLost = c.link.eventsLost) ∧
          (freeBytes c < 256 → t.link = { c.link with eventsLost := true }) ∧
          { t with link := c.link, power := c.power, store := c.store } = c) ∧
      ((∀ p, i ≠ .bootFetch p) → c.boot.state = .serving → c.power.state ≠ .sleepPending →
        let pending := match c.boot.report with | some x => [Report.event x.event] | none => [];
        t.boot = { c.boot with state := .complete, chunk := none, report := none } ∧ t.power = c.power ∧
          (264 ≤ freeBytes c → t.link.reports = c.link.reports ++ Report.event (.bootComplete true) :: pending ∧
            t.link.eventsLost = c.link.eventsLost) ∧
          (freeBytes c < 256 → t.link = { c.link with eventsLost := true }) ∧
          (c.boot.chunk = none → t.store = setup ∧ { t with link := c.link, boot := c.boot, store := c.store } = c) ∧
          (c.boot.chunk ≠ none → Job.imageRead ∉ t.store.reads ∧ t.store.holder ≠ some .imageRead ∧ t.store.blocks = c.store.blocks ∧
            t.store.dir = c.store.dir ∧ { t with link := c.link, boot := c.boot, store := c.store } = c)) ∧
      (let status := match i with | .statusRequest _ _ _ => true | _ => false
       let fetch := match i with | .bootFetch _ => true | _ => false
       let cancels := c.power.state = .sleepPending ∧ status = false
       let ends := c.boot.state = .serving ∧ fetch = false
       let events := (if cancels then [Event.sleepCancelled .directive] else []) ++
         (if ends then .bootComplete true :: (match c.boot.report with | some x => [x.event] | none => []) else [])
       let free := { setup with reads := setup.reads.filter (· ≠ .imageRead), programs := setup.programs.filter (· ≠ .imageRead) };
       t.power = (if cancels then { c.power with state := .run, wakeTimer := 0 } else c.power) ∧
       t.boot = (if ends then { c.boot with state := .complete, chunk := none, report := none } else c.boot) ∧
       t.link = (events.foldl (fun d e => queueEvent e d) c).link ∧
       (¬ends ∨ c.boot.chunk = none → t.store = setup) ∧
       (ends → c.boot.chunk ≠ none → c.store.holder ≠ some .imageRead → t.store = free) ∧
       (ends → c.boot.chunk ≠ none → c.store.holder = some .imageRead →
         t.store = (grant { c with store := { free with holder := none } }).store) ∧
       (ends → ¬cancels → c.boot.report.isSome = true → 256 ≤ freeBytes c → freeBytes c < 256 + (Report.event (.bootComplete true)).size →
         t.link.reports = c.link.reports ++ [.event (.bootComplete true)] ∧ t.link.eventsLost = true) ∧
       { t with link := c.link, power := c.power, boot := c.boot, store := c.store } = c))

/-- A directive record that ends with less than 256 bytes free is held, one that ends while one is held is discarded, and the held one
is taken when 256 bytes are free (R179). None of the three does anything else of its own. -/
def Obligations.DirectivesAreHeldOrDiscarded : Prop :=
  (∀ (i : Instr) (s : State), isDirective i = true → canTake s.chip = true → s.chip.link.held = none →
    freeBytes s.chip < Config.reportRoom →
    exec i s = .next (s.withChip ({ s.chip with link := { s.chip.link with held := some i } }))) ∧
  (∀ (i j : Instr) (s : State), isDirective i = true → s.chip.link.held = some j → exec i s = .next s) ∧
  (∀ s : State, exec .directiveDiscardedUntaken s = .next s) ∧
  (∀ (i : Instr) (doce papx : Bool) (s : State), s.chip.link.held = some i → Config.reportRoom ≤ freeBytes s.chip →
    exec (.heldDirectiveTaken doce papx) s = .next (directive doce papx i
      (s.withChip (streamRules i { s.chip with link := { s.chip.link with held := none } }))))

/-- An OPEN that passes its checks (R9 to R11, R46, R50): the parameters are clamped into their ranges, the line period is raised to the last
entry of the ramp of each channel the route drives, the tail feed to the print run index, and the quota to the minimum and into the room of the
pool; the route's context takes the values held, and the REPLY is ADJUSTED where one of them differs from the OPEN's, else ACCEPTED, with the
CREDIT of a LINK source behind it. A SCAN source leaves the scan state WAITING, with lamp use where a document is present (R26, R43), and each
channel takes up the route; a PRINT sink takes up the head (R70), with PAPER OUT among the stall conditions where paper is absent (R84), and a
tripped channel halts the route for the interlock (R63). No slot is taken, and no other route and no byte of flash is touched. Deduced: the line
position is 0 at the take-up unless the channel moves (notes/assumptions/17.md), an OPEN on a TRIPPED channel queues its REPLY alone (44.md), and
where an unsent CREDIT of the route stands in the report queue the value is written into that one, ahead of the REPLY (66.md). -/
def Obligations.OpenFillsTheRoute : Prop :=
  ∀ (p : List Byte) (q : OpenReq) (s : State), Taken s → parseOpen p = some q →
    let c := streamRules (.openRoute p) s.chip
    let into := fun lo hi v : Nat => min hi (max lo v)
    let base := into 2500 50000 q.period
    let raised := fun ramp : List Nat => if base / q.steps < ramp.getLastD 0 then q.steps * ramp.getLastD 0 else base
    let period := max (if q.source = .scan then raised c.scanCh.ramp else base)
      (if Sink.print ∈ q.sinks then raised c.printCh.ramp else base)
    let u := period / q.steps
    let index := fun ramp : List Nat => ramp.findIdx fun e => decide (e ≤ u)
    let copies := match q.printP with | some y => into 1 2 y.copies | none => 1
    let least := max 2 ((if q.source = .scan then 1 + ceilDiv (index c.scanCh.ramp) q.steps else 0) +
      (if Sink.print ∈ q.sinks then ceilDiv (1 + ceilDiv (index c.printCh.ramp) q.steps) copies else 0))
    let quotaOf := fun r => match ctxOf c r with | some y => y.quota | none => 0
    let room := 32 - (quotaOf 0 + quotaOf 1 + quotaOf 2 + quotaOf 3) - (match c.runOut with | some ro => charged c ro.route | none => 0)
    let quota := min room (max least (into 2 28 q.quota))
    let scanP := q.scanP.map fun y => { y with
      q := into 128 256 y.q, topOffset := min 1000 y.topOffset, tailLines := min 500 y.tailLines,
      pickLimit := into 16 4000 y.pickLimit, maxSteps := into 1024 65535 y.maxSteps }
    let printP := q.printP.map fun y =>
      { density := into 8 24 y.density, copies := copies, tailFeed := max y.tailFeed (index c.printCh.ramp) }
    let answer := if { q with quota := quota, period := period, scanP := scanP, printP := printP } = q then Answer.accepted else .adjusted
    c.routes.length = 4 → openCheck c q = none → period ≤ 50000 → least ≤ 28 → least ≤ room →
    ∃ t x, exec (.openRoute p) s = .next t ∧ ctxOf t.chip q.route = some x ∧
      x.source = q.source ∧ x.sinks = q.sinks ∧ x.quota = quota ∧ x.period = period ∧ x.steps = q.steps ∧
      x.encoding = q.encoding ∧ x.scanP = scanP ∧ x.printP = printP ∧ x.storeP = q.storeP ∧
      x.pages = q.pages ∧ x.begun = false ∧ x.closeReq = false ∧ x.linesDone = 0 ∧ x.repairedLines = 0 ∧ x.reservations = [] ∧
      x.hold = [] ∧ x.printQ = [] ∧ x.linkQ = [] ∧ x.storeQ = [] ∧
      x.creditGranted = (if q.source = .link then some quota else none) ∧
      x.stalls = (if Sink.print ∈ q.sinks ∧ c.head.paper = false then [.paperOut] else []) ∧
      x.halt = (if q.source = .scan ∧ c.scanCh.motion = .tripped ∨ Sink.print ∈ q.sinks ∧ c.printCh.motion = .tripped
        then some .interlock else none) ∧
      (getRoute t.chip q.route).pagesDone = 0 ∧ (getRoute t.chip q.route).overrun = false ∧
      (q.source ≠ .link → t.chip.link.reports = c.link.reports ++ [.reply (refOf p) answer]) ∧
      (let sent := if c.link.up = .report then c.link.reports.take 1 else []
       (q.source = .link → (∀ v, Report.credit q.route v ∉ c.link.reports.drop sent.length) →
         t.chip.link.reports = c.link.reports ++ [.reply (refOf p) answer, .credit q.route quota]) ∧
       (q.source = .link → ∀ before v rest, c.link.reports = sent ++ before ++ .credit q.route v :: rest →
         (∀ w, Report.credit q.route w ∉ before ++ rest) →
         t.chip.link.reports = sent ++ before ++ .credit q.route quota :: rest ++ [.reply (refOf p) answer])) ∧
      (q.source = .scan →
        t.chip.scan = { Capture.default with state := .waiting, route := some q.route, lampUse := c.pins.docp } ∧
        t.chip.power.lamp = (if c.pins.docp then c.power.lamp.request 10000 else c.power.lamp) ∧
        t.chip.scanCh = { c.scanCh with
          route := some q.route, run := some ⟨period, q.steps, u, index c.scanCh.ramp⟩, rateReported := false,
          linePos := if c.scanCh.moving then c.scanCh.linePos else 0 }) ∧
      (q.source ≠ .scan → t.chip.scan = c.scan ∧ t.chip.scanCh = c.scanCh ∧ t.chip.power.lamp = c.power.lamp) ∧
      (∀ y, printP = some y →
        t.chip.head.route = some q.route ∧ t.chip.head.copy = some ⟨period, y.density, y.copies⟩ ∧
        t.chip.head.heatReported = false ∧ t.chip.head.headUse = true ∧ t.chip.power.head = c.power.head.request 1000 ∧
        t.chip.printCh = { c.printCh with
          route := some q.route, run := some ⟨period, q.steps, u, index c.printCh.ramp⟩, rateReported := false,
          linePos := if c.printCh.moving then c.printCh.linePos else 0 }) ∧
      (printP = none → t.chip.head = c.head ∧ t.chip.printCh = c.printCh) ∧
      (∀ r, r ≠ q.route → getRoute t.chip r = getRoute c r) ∧ t.chip.pool = c.pool ∧ t.flash = s.flash

/-- An OPEN that fails a check is refused with the reason of the first of R8 that fails, and changes nothing else (R7 to R10): 1 MALFORMED,
2 INVALID ROUTE, 3 BUSY for a route in use, 4 ENDPOINT IN USE, 5 BUSY while the store is SCANNING or in TOTAL ERASE, 6 STORE FAULT PENDING,
7 DIRECTORY FULL, 8 PROTECTED with PROTECTION FAULT set, 9 NO SUCH PAGE, 10 BUSY for a page that is WRITING, 11 LIMIT for a raised period
above 50,000, 12 QUOTA where the minimum of R10 exceeds 28 or the room. Each clause has the checks before it passing. -/
def Obligations.OpenIsRefusedByItsFirstFailingCheck : Prop :=
  (∀ (p : List Byte) (s : State), Taken s → parseOpen p = none →
    exec (.openRoute p) s = .next (s.withChip (refuse p .malformed (streamRules (.openRoute p) s.chip)))) ∧
  (∀ (p : List Byte) (q : OpenReq) (s : State), Taken s → parseOpen p = some q →
    let c := streamRules (.openRoute p) s.chip
    let refused := fun r => exec (.openRoute p) s = .next (s.withChip (refuse p r c))
    let c2 := q.route ≤ 3 ∧ q.sinks.Nodup ∧ ¬(q.source = .link ∧ Sink.link ∈ q.sinks) ∧ ¬(q.source = .store ∧ Sink.store ∈ q.sinks)
    let c3 := ctxOf c q.route = none ∧ ∀ ro, c.runOut = some ro → ro.route ≠ q.route
    let c4 := (∀ r x, r < 4 → ctxOf c r = some x → x.source ≠ q.source ∧ ∀ k ∈ q.sinks, k ∉ x.sinks) ∧
      (Sink.print ∈ q.sinks → c.runOut = none)
    let c5 := q.source = .store ∨ Sink.store ∈ q.sinks →
      c.store.op ≠ .scanning ∧ c.store.op ≠ .totalBlocks ∧ c.store.op ≠ .totalLock ∧ c.store.op ≠ .totalKey
    let c6 := Sink.store ∈ q.sinks → c.store.programFault = false ∧ c.store.eraseFault = false
    let c7 := Sink.store ∈ q.sinks → c.store.dir.length < 48
    let c8 := ∀ sp, q.storeP = some sp → sp.origin = .boot → masterSet c = false ∨ c.prot.service = .service
    let c9 := ∀ id ∈ q.pages, (pageOf c id).isSome = true
    let c10 := ∀ id ∈ q.pages, ∀ pg, pageOf c id = some pg → pg.writing = false
    let base := clamp 2500 50000 q.period
    let period := max (if q.source = .scan then raisePeriod c.scanCh.ramp base q.steps else base)
      (if Sink.print ∈ q.sinks then raisePeriod c.printCh.ramp base q.steps else base)
    let copies := match q.printP with | some x => clamp 1 2 x.copies | none => 1
    let least := max 2
      ((if q.source = .scan then 1 + ceilDiv (runIndex c.scanCh.ramp (period / q.steps)) q.steps else 0) +
        (if Sink.print ∈ q.sinks then ceilDiv (1 + ceilDiv (runIndex c.printCh.ramp (period / q.steps)) q.steps) copies else 0))
    let room := 32 - ([0, 1, 2, 3].map fun r => match ctxOf c r with | some x => x.quota | none => 0).sum -
      (match c.runOut with | some ro => charged c ro.route | none => 0)
    (¬c2 → refused .invalidRoute) ∧ (c2 → ¬c3 → refused .busy) ∧ (c2 → c3 → ¬c4 → refused .endpointInUse) ∧
    (c2 → c3 → c4 → ¬c5 → refused .busy) ∧ (c2 → c3 → c4 → c5 → ¬c6 → refused .storeFaultPending) ∧
    (c2 → c3 → c4 → c5 → c6 → ¬c7 → refused .directoryFull) ∧
    (c2 → c3 → c4 → c5 → c6 → c7 → ¬c8 → exec (.openRoute p) s = .next (s.withChip
      (refuse p .protected_ { c with store := { c.store with protectionFault := true } }))) ∧
    (c2 → c3 → c4 → c5 → c6 → c7 → c8 → ¬c9 → refused .noSuchPage) ∧
    (c2 → c3 → c4 → c5 → c6 → c7 → c8 → c9 → ¬c10 → refused .busy) ∧
    (c2 → c3 → c4 → c5 → c6 → c7 → c8 → c9 → c10 → 50000 < period → refused .limit) ∧
    (c2 → c3 → c4 → c5 → c6 → c7 → c8 → c9 → c10 → period ≤ 50000 → 28 < least ∨ room < least → refused .quota))

/-- CLOSE of an open route (R12, R13, R21): the REPLY is queued behind the records that wait, CREDIT records rewritten in place apart (R182), and
ahead of ROUTE CLOSED; close requested is yes, or the route is already CLOSED. A route that is not CLOSED stays HALTED, OPEN or STALLED where it
was, and one in RUNNING is DRAINING; one in OPEN with nothing in progress is CLOSED at once. The page path alone moves, and no byte of flash
is touched. CLOSE, ABORT and REARM of a CLOSED route are refused INVALID ROUTE (R21, R22, R66). -/
def Obligations.CloseRequestsTheClose : Prop :=
  (∀ (p : List Byte) (r : Nat) (x : Ctx) (s : State), Taken s → p.length = 2 → r = numAt p 1 1 → r ≤ 3 →
    let c := streamRules (.close p) s.chip
    let plain := fun l : List Report => l.filter fun e => match e with | .credit _ _ => false | _ => true
    ctxOf c r = some x →
    ∃ t, exec (.close p) s = .next t ∧ (∀ y, ctxOf t.chip r = some y → y.closeReq = true) ∧
      (∃ old more, t.chip.link.reports = old ++ .reply (refOf p) .accepted :: more ∧ plain old = plain c.link.reports ∧
        (ctxOf t.chip r = none → .event (.routeClosed r .closed) ∈ more ∨ t.chip.link.eventsLost = true)) ∧
      (∀ y, ctxOf t.chip r = some y → y.halt = x.halt ∧ y.begun = x.begun ∧
        (Sink.store ∉ x.sinks → y.stalls = x.stalls) ∧
        (getRoute t.chip r).state = if x.halt.isSome then .halted else if x.begun = false then .opened
          else if y.stalls ≠ [] then .stalled else .draining) ∧
      (x.closeReq = false → x.halt = none → x.begun = false → x.linesDone = 0 → x.printQ = [] → x.linkQ = [] → x.storeQ = [] → x.hold = [] →
        (∀ n, slotAt c n ≠ .reserved r ∧ ∀ l, slotAt c n ≠ .filling r l) →
        x.source = .scan ∧ c.scan.state = .waiting ∧ c.scan.capture = none ∨ x.source = .link ∧ decodingFor c r = false →
        ctxOf t.chip r = none ∧ (getRoute t.chip r).state = .closed ∧
        (300 ≤ freeBytes c → .event (.routeClosed r .closed) ∈ t.chip.link.reports)) ∧
      t.chip.backdrop = c.backdrop ∧ t.flash = s.flash) ∧
  (∀ (p : List Byte) (s : State), Taken s → p.length = 2 → Quiet s.chip →
    3 < numAt p 1 1 ∨ ctxOf s.chip (numAt p 1 1) = none →
    exec (.close p) s = .next (s.withChip (refuse p .invalidRoute s.chip)) ∧
    exec (.abort p) s = .next (s.withChip (refuse p .invalidRoute s.chip)) ∧
    exec (.rearm p) s = .next (s.withChip (refuse p .invalidRoute s.chip)))

/-- ABORT of an open route (R22, R61): the route is CLOSED at once; with no print run-out every slot charged to it is FREE; the page path
alone moves, and no byte of flash is touched at the ABORT. A print channel in motion decelerates with the cause ABORT into a run-out, which keeps the
head line and the further lines that the line starts of its steps will burn (the step under way counts and the halting one burns nothing:
notes/assumptions/22.md, 16.md, DEDUCED), their slots HELD with one reference; a line start burns the next of them, or feeds without a burn, and
the halt ends it: references dropped, PRINT free, line position 0 and no cut. A page close under way for it goes on, its page TRUNCATED and no mark served (R117;
that the flag is programmed with a job that holds the flash already is the model's choice, notes/assumptions/25.md). REDIRECT (R23), which gives up PRINT alone, is refused with the reason of the first
check that fails: INVALID ROUTE for a CLOSED route, one without PRINT or one with a STORE source, BUSY, ENDPOINT IN USE, STORE FAULT PENDING,
DIRECTORY FULL, LIMIT, PROTECTED with PROTECTION FAULT set; where all pass it completes, and PRINT is free. -/
def Obligations.AbortClosesTheRoute : Prop :=
  (∀ (p : List Byte) (r : Nat) (x : Ctx) (s : State), Taken s → p.length = 2 → r = numAt p 1 1 → r ≤ 3 →
    let c := streamRules (.abort p) s.chip
    ctxOf c r = some x →
    ∃ t, exec (.abort p) s = .next t ∧ ctxOf t.chip r = none ∧
      (hasRunOut x c = false → ∀ n, (slotAt t.chip n).route ≠ some r) ∧
      (∀ (run : RunParams) (h : HeadCopy) (lines : List LineEntry) (tail : List Entry), Sink.print ∈ x.sinks → c.printCh.moving = true → x.halt = none → c.printCh.cause ≠ some .paperOut →
        c.printCh.run = some run → c.head.copy = some h → x.printQ = lines.map Entry.line ++ tail → (∀ e more, tail ≠ .line e :: more) →
        (∀ q y, q ≠ r → ctxOf c q = some y → Sink.print ∉ y.sinks) →
        let steps := match c.printCh.mode with | .up => c.printCh.k + 2 | .level => c.printCh.k + 1 | .down => c.printCh.k
        let burns := (c.printCh.linePos + steps - 1) / run.steps
        let kept := lines.take (1 + ceilDiv (burns - (h.copies - c.head.burns)) h.copies)
        t.chip.runOut = some ⟨r, kept⟩ ∧ t.chip.head.route = c.head.route ∧ t.chip.printCh.route = c.printCh.route ∧
          t.chip.printCh.motion = c.printCh.motion ∧ t.chip.printCh.cause = some .abort ∧
          (∀ n, (slotAt t.chip n).route = some r → ∃ e ∈ kept, e.slot = n) ∧
          (∀ e refs l, e ∈ kept → slotAt c e.slot = .held r refs l → (∀ row, c.scan.capture ≠ some (.keep e.slot row)) →
            (∀ q y, ctxOf c q = some y → e.slot ∉ y.reservations ∧ (q ≠ r → ∀ d, Entry.line d ∈ y.storeQ ++ y.hold → d.slot ≠ e.slot)) →
            slotAt t.chip e.slot = .held r 1 l)) ∧
      (∀ w mark b cut, Sink.store ∈ x.sinks → c.store.work = some w → w.route = some r → w.item = .closing mark →
        c.store.holder = some (.closePage b cut) →
        t.chip.store.holder = some (.closePage b true) ∧ t.chip.store.work = some { w with route := none, item := .closing none }) ∧
      t.chip.backdrop = c.backdrop ∧ t.flash = s.flash) ∧
  (∀ (ro : RunOut) (run : RunParams) (h : HeadCopy) (doce : Bool) (therm : Byte) (s : State), s.chip.runOut = some ro →
    s.chip.printCh.motion = .decelerating → s.chip.printCh.mode = .down → s.chip.printCh.tail = none → s.chip.printCh.run = some run →
    s.chip.head.copy = some h → s.chip.printCh.cause = some .abort →
    ∃ t, exec (.motorStep .print doce therm) s = .next t ∧ t.chip.head.cut = s.chip.head.cut ∧ t.flash = s.flash ∧
      (s.chip.printCh.k = 1 → t.chip.runOut = none ∧ t.chip.printCh.motion = .halted ∧ t.chip.printCh.route = none ∧
        t.chip.printCh.linePos = 0 ∧ t.chip.head.route = none ∧ t.chip.head.latch = none ∧
        (∀ e n l, e ∈ ro.entries → slotAt s.chip e.slot = .held n 1 l → slotAt t.chip e.slot = .free)) ∧
      (1 < s.chip.printCh.k → s.chip.printCh.linePos + 1 < run.steps → t.chip.runOut = some ro ∧ t.chip.head.latch = s.chip.head.latch) ∧
      (∀ e rest, 1 < s.chip.printCh.k → run.steps ≤ s.chip.printCh.linePos + 1 → ro.entries = e :: rest →
        (s.chip.head.burns < h.copies →
          t.chip.runOut = some ro ∧ t.chip.head.latch = some e ∧ t.chip.head.burns = s.chip.head.burns + 1) ∧
        (h.copies ≤ s.chip.head.burns → t.chip.runOut = some { ro with entries := rest } ∧
          (∀ n l, slotAt s.chip e.slot = .held n 1 l → slotAt t.chip e.slot = .free) ∧
          (rest = [] → t.chip.head.latch = s.chip.head.latch ∧ t.chip.head.burns = 0) ∧
          (∀ e' more, rest = e' :: more → t.chip.head.latch = some e' ∧ t.chip.head.burns = 1)))) ∧
  (∀ (p : List Byte) (sp : StoreParams) (r : Nat) (s : State), Taken s → 2 ≤ p.length →
    readStoreParams (p.drop 2) = some (sp, []) → r = numAt p 1 1 →
    let c := streamRules (.redirect p) s.chip
    let refused := fun why => exec (.redirect p) s = .next (s.withChip (refuse p why c))
    let c3 := (getRoute c r).state = .stalled ∧ (getRoute c r).reason = .paperOut ∧ c.printCh.motion = .halted ∧
      c.store.op ≠ .scanning ∧ c.store.op ≠ .totalBlocks ∧ c.store.op ≠ .totalLock ∧ c.store.op ≠ .totalKey
    let c4 := ∀ q y, q < 4 → ctxOf c q = some y → Sink.store ∉ y.sinks
    let c5 := c.store.programFault = false ∧ c.store.eraseFault = false
    let c6 := c.store.dir.length < 48
    let c7 := c.store.nextCreation ≤ 4294967295
    let c8 := sp.origin = .boot → masterSet c = false ∨ c.prot.service = .service
    (3 < r ∨ ctxOf c r = none → refused .invalidRoute) ∧
    (∀ x, r ≤ 3 → ctxOf c r = some x →
      (Sink.print ∉ x.sinks ∨ x.source = .store → refused .invalidRoute) ∧
      (Sink.print ∈ x.sinks → x.source ≠ .store →
        (¬c3 → refused .busy) ∧ (c3 → ¬c4 → refused .endpointInUse) ∧ (c3 → c4 → ¬c5 → refused .storeFaultPending) ∧
        (c3 → c4 → c5 → ¬c6 → refused .directoryFull) ∧ (c3 → c4 → c5 → c6 → ¬c7 → refused .limit) ∧
        (c3 → c4 → c5 → c6 → c7 → ¬c8 → exec (.redirect p) s = .next (s.withChip
          (refuse p .protected_ { c with store := { c.store with protectionFault := true } }))) ∧
        (c3 → c4 → c5 → c6 → c7 → c8 → ∃ t, exec (.redirect p) s = .next t ∧ t.chip.head.route = none ∧ t.flash = s.flash))))

/-- REDIRECT that passes its checks (R23). The route has a STORE sink in the PRINT sink's place with the parameters sent, PRINT is free,
nothing is left on a print queue and no byte of flash is touched. `rest` is the print queue without the line whose burn has begun, whose
reference drops, and `left` is `rest` without a mark at its head, which is served; where an entry left, the head of the hold moves up while every
queue has room (R14). Where a line is then first, every entry stands in its order on the store queue and in the hold, the first page mark made
PARTIAL, and a page is created with the parameters sent, PARTIAL, its start the number of that line (0 too: notes/assumptions/40.md, DEDUCED);
else no page is created. `m` is the part at that moment, and what follows at once (`settle`) is the store taking the first entry, which leaves the
queue as it stands where a block can be claimed. -/
def Obligations.RedirectMovesThePrintQueue : Prop :=
  ∀ (p : List Byte) (sp : StoreParams) (r : Nat) (x : Ctx) (s : State), Taken s → 2 ≤ p.length →
    let c := streamRules (.redirect p) s.chip
    readStoreParams (p.drop 2) = some (sp, []) → r = numAt p 1 1 → r ≤ 3 → ctxOf c r = some x → x.sinks.contains .print = true →
    x.source ≠ .store → redirectCheck r sp c = none →
    (∃ t, exec (.redirect p) s = .next t ∧ t.chip.head.route = none ∧ t.chip.backdrop = c.backdrop ∧ t.flash = s.flash ∧
      (∀ y, ctxOf t.chip r = some y → Sink.print ∉ y.sinks ∧ Sink.store ∈ y.sinks ∧ y.printP = none ∧ y.storeP = some sp ∧
        y.printQ = [])) ∧
    (∀ rest : List Entry, x.sinks.Nodup → (x.hold ≠ [] → hasRoom x = false) →
      (∀ k tail, rest = .mark k :: tail → hasMark k.tag (tail ++ x.hold) = false) →
      (c.head.burns = 0 ∧ x.printQ = rest) ∨
        (0 < c.head.burns ∧ ∃ e0 refs l, x.printQ = .line e0 :: rest ∧ slotAt c e0.slot = .held r refs l) →
      let left := match rest with | .mark _ :: tail => tail | _ => rest
      ∃ m y moved kept, exec (.redirect p) s = .next (s.withChip (settle r m)) ∧ ctxOf m r = some y ∧
        (∀ q, q ≠ r → getRoute m q = getRoute c q) ∧
        x.hold = moved ++ kept ∧ (left = x.printQ → moved = [] ∧ m.pool = c.pool) ∧
        (left ≠ x.printQ → kept = [] ∨ ∃ k ∈ y.sinks, 40 ≤ (y.queue k).length) ∧
        (∀ e0 refs l, 0 < c.head.burns → x.printQ = .line e0 :: rest → slotAt c e0.slot = .held r refs l → x.hold = [] →
          slotAt m e0.slot = (if refs ≤ 1 then .free else .held r (refs - 1) l) ∧ ∀ k, k ≠ e0.slot → slotAt m k = slotAt c k) ∧
        (∀ e tail, left = .line e :: tail →
          let marked := fun q => match firstMark (left ++ x.hold) with | some k => putMark k q | none => q
          y.storeQ = marked (left ++ moved) ∧ y.hold = marked kept ∧ (firstMark (left ++ x.hold) = none → y.partialNext = true) ∧
          ∃ pg : Page, m.store.dir = c.store.dir ++ [pg] ∧ y.storePage = some pg.id ∧ pg.isPartial = true ∧
            pg.partialStart = some e.num ∧ pg.origin = sp.origin ∧ pg.label = sp.label ∧ pg.writing = true ∧ pg.lines = 0 ∧
            pg.blocks = [] ∧ pg.steps = x.steps ∧ pg.creation = c.store.nextCreation ∧
            (c.store.work = none → c.store.reloc = none → x.full = none → c.store.erasedList ≠ [] →
              ∃ z, ctxOf (settle r m) r = some z ∧ z.storeQ = y.storeQ ∧ z.storePage = y.storePage)) ∧
        ((∀ e tail, left ≠ .line e :: tail) →
          y.storeQ = left ++ moved ∧ y.hold = kept ∧ y.storePage = x.storePage ∧ m.store.dir = c.store.dir) ∧
        (∀ k tail, rest = .mark k :: tail → x.sinks = [.print] →
          (getRoute m r).pagesDone = min 65535 ((getRoute c r).pagesDone + 1)))

/-- REARM (R40, R41, R66, R81): of a reported halt it ends the halt, the REPLY queued behind the records that wait, CREDIT records rewritten in
place apart; each channel of the route that was TRIPPED is HALTED with drive OFF and ramp index 0; a cut that waits for it pulses again; JAMMED is
left at once where the scan channel stands, with page steps and pick steps 0 and the end-of-sheet decision taken (R37), and else with the
channel's halt, and that decision is taken in RUNOUT too. It is refused INVALID ROUTE with no halt, NOT REPORTED while the host has not been
told, and BUSY for an interlock halt with the cover open. That the decision for a next sheet leaves the scan state WAITING, in which the pick
begins, is deduced (notes/assumptions/18.md). -/
def Obligations.RearmEndsAReportedHalt : Prop :=
  ∀ (p : List Byte) (r : Nat) (x : Ctx) (s : State), Taken s → p.length = 2 → r = numAt p 1 1 → r ≤ 3 →
    let c := streamRules (.rearm p) s.chip
    let plain := fun l : List Report => l.filter fun e => match e with | .credit _ _ => false | _ => true
    let rested := fun a b : Channel => a.phase = b.phase ∧ (b.motion = .tripped → a.motion = .halted ∧ a.drive = .off ∧ a.k = 0) ∧
      (b.motion ≠ .tripped → a.motion = b.motion ∧ a.drive = b.drive ∧ a.k = b.k)
    ctxOf c r = some x →
    (x.halt.isSome = true → (getRoute c r).haltReported = true → (x.halt = some .interlock → c.pins.cover = true) →
      ∃ t, exec (.rearm p) s = .next t ∧ (∀ y, ctxOf t.chip r = some y → y.halt = none) ∧
        (∃ old more, t.chip.link.reports = old ++ .reply (refOf p) .accepted :: more ∧ plain old = plain c.link.reports) ∧
        (x.source = .scan → rested t.chip.scanCh c.scanCh) ∧ (x.source ≠ .scan → t.chip.scanCh = c.scanCh ∧ t.chip.scan = c.scan) ∧
        (Sink.print ∈ x.sinks → rested t.chip.printCh c.printCh ∧
          (c.head.cut = .waiting → t.chip.head.cut = .pulse ∧ t.chip.head.cutTime = some 0) ∧
          (c.head.cut ≠ .waiting → t.chip.head.cut = c.head.cut ∧ t.chip.head.cutTime = c.head.cutTime)) ∧
        (Sink.print ∉ x.sinks → t.chip.printCh = c.printCh ∧ t.chip.head.cut = c.head.cut) ∧
        (x.source = .scan → c.scan.state ≠ .jammed → c.scan.state ≠ .runout → c.scan.state ≠ .ended → t.chip.scan = c.scan) ∧
        (x.source = .scan → c.scan.state = .jammed → c.scanCh.moving = true → t.chip.scan = { c.scan with rearmed := true }) ∧
        (∀ q, x.source = .scan → x.scanP = some q → c.scan.route = some r → c.scan.state = .jammed ∨ c.scan.state = .runout →
          c.scanCh.moving = false →
          (x.closeReq = false → q.multi = true → c.pins.docp = true → t.chip.scan = if c.scan.state = .runout then { c.scan with state := .waiting }
            else { c.scan with state := .waiting, pageSteps := 0, pickSteps := 0, rearmed := false }) ∧
          (x.closeReq = true ∨ q.multi = false ∨ c.pins.docp = false →
            ∀ y, ctxOf t.chip r = some y → t.chip.scan.state = .ended ∧ t.chip.scan.lampUse = false ∧ y.closeReq = true)) ∧
        t.chip.backdrop = c.backdrop ∧ t.flash = s.flash) ∧
    (x.halt = none → exec (.rearm p) s = .next (s.withChip (refuse p .invalidRoute c))) ∧
    (x.halt.isSome = true → (getRoute c r).haltReported = false →
      exec (.rearm p) s = .next (s.withChip (refuse p .notReported c))) ∧
    (x.halt = some .interlock → (getRoute c r).haltReported = true → c.pins.cover = false →
      exec (.rearm p) s = .next (s.withChip (refuse p .busy c)))

/-- A LOAD that passes its checks writes its entries at its offset and nothing else (R45, R49, R78, R152, R153); its REPLY says ADJUSTED
where an entry is not held as sent. One without a table name and offset, of another table, of a wrong length or place or with an undefined mode,
enable or polarity byte is MALFORMED; else one of a table in use is BUSY, for a ramp with its channel in motion too, and none of the park and wake
tables; a ramp LOAD of no entry is accepted and changes nothing (that one of a scan or heat table is checked like any other is deduced,
notes/assumptions/77.md). A park mode HIGH of groups 3 and 5 is held as FLOAT. A ramp ends with its last loaded entry, each entry loaded clamped into 500 to 20,000 and lowered to the
one before it; a heat threshold is cut to 255 and raised to the one before it from the first loaded on, a band time clamped into 100 to 4,000;
a wake entry is held as sent, and its debounce record takes the pin's level where the polarity changes or the source becomes enabled, and
drops its timing where the source is disabled. -/
def Obligations.LoadsWriteTheirTables : Prop :=
  (∀ (p : List Byte) (s : State), Taken s → 4 ≤ p.length → Quiet s.chip →
    let c := s.chip
    let off := numAt p 2 2
    let d := p.drop 4
    (byteAt p 1 = 0x01 → d.length % 3 = 0 → d.length ≤ 512 → off + d.length / 3 ≤ 1728 → scanBusy c = false →
      exec (.loadShading p) s = .next (s.withChip
        (reply p .accepted { c with tables := { c.tables with shading := writeAt c.tables.shading off (shadesOf d) } }))) ∧
    (byteAt p 1 = 0x02 → d.length ≤ 512 → off + d.length ≤ 256 → scanBusy c = false →
      exec (.loadTone p) s = .next (s.withChip
        (reply p .accepted { c with tables := { c.tables with tone := writeAt c.tables.tone off (d.map BitVec.toNat) } }))) ∧
    (byteAt p 1 = 0x03 → d.length ≤ 512 → off + d.length ≤ 64 → scanBusy c = false →
      exec (.loadDither p) s = .next (s.withChip
        (reply p .accepted { c with tables := { c.tables with dither := writeAt c.tables.dither off (d.map BitVec.toNat) } }))) ∧
    (byteAt p 1 = 0x04 → d ≠ [] → rampFits c.scanCh.ramp off d = true → scanBusy c = false → c.scanCh.atRest = true →
      exec (.loadScanRamp p) s = .next (s.withChip
        (reply p (applyRamp c.scanCh.ramp off d).2 { c with scanCh := { c.scanCh with ramp := (applyRamp c.scanCh.ramp off d).1 } }))) ∧
    (byteAt p 1 = 0x05 → d ≠ [] → rampFits c.printCh.ramp off d = true → printBusy c = false → c.printCh.atRest = true →
      exec (.loadPrintRamp p) s = .next (s.withChip
        (reply p (applyRamp c.printCh.ramp off d).2 { c with printCh := { c.printCh with ramp := (applyRamp c.printCh.ramp off d).1 } }))) ∧
    (byteAt p 1 = 0x06 → d.length % 2 = 0 → off + d.length / 2 ≤ 15 → printBusy c = false →
      exec (.loadHeat p) s = .next (s.withChip
        (reply p (applyHeat c.heat off (wordsOf d)).2 { c with heat := (applyHeat c.heat off (wordsOf d)).1 }))) ∧
    (byteAt p 1 = 0x07 → off + d.length ≤ 11 → parkDefined off d = true →
      ∃ a, exec (.loadPark p) s = .next (s.withChip (reply p a { c with power := { c.power with
        park := writeAt c.power.park off ((parkModes off d).map fun x => parkHeld x.1 x.2),
        holds := writeAt c.power.holds (off - 8) ((d.drop (8 - off)).map BitVec.toNat) } })) ∧
        (a = .accepted ↔ ∀ x ∈ parkModes off d, parkHeld x.1 x.2 = x.2) ∧ (a = .accepted ∨ a = .adjusted)) ∧
    (byteAt p 1 = 0x07 → off + d.length ≤ 11 → parkDefined off d = true → c.power.park.length = 8 → c.power.holds.length = 3 →
      let sent := fun i => d[i - off]?.bind fun b => [ParkMode.low, .high, .float, .pullUp, .pullDown][b.toNat]?
      ∃ t, exec (.loadPark p) s = .next t ∧
        (∀ i, i < 8 → t.chip.power.park[i]? = if off ≤ i ∧ i < off + d.length
          then (if (i = 3 ∨ i = 5) ∧ sent i = some .high then some .float else sent i) else c.power.park[i]?) ∧
        (∀ i, i < 3 → t.chip.power.holds[i]? = if off ≤ i + 8 ∧ i + 8 < off + d.length
          then (d[i + 8 - off]?).map BitVec.toNat else c.power.holds[i]?) ∧
        (let high := ∃ i, off ≤ i ∧ (i = 3 ∨ i = 5) ∧ sent i = some .high
         (high → t.chip.link.reports = c.link.reports ++ [.reply (refOf p) .adjusted]) ∧
         (¬high → t.chip.link.reports = c.link.reports ++ [.reply (refOf p) .accepted]))) ∧
    (4 ≤ p.length → d = [] →
      (byteAt p 1 = 0x04 → exec (.loadScanRamp p) s = .next (s.withChip (reply p .accepted c))) ∧
      (byteAt p 1 = 0x05 → exec (.loadPrintRamp p) s = .next (s.withChip (reply p .accepted c)))) ∧
    (∀ es, byteAt p 1 = 0x08 → d.length % 3 = 0 → off + d.length / 3 ≤ 4 → wakeEntriesOf d = some es →
      exec (.loadWake p) s = .next (s.withChip (reply p .accepted (writeWakes off es c))))) ∧
  (∀ (p : List Byte) (s : State), Taken s → Quiet s.chip →
    let c := s.chip
    let off := numAt p 2 2
    let d := p.drop 4
    let scanning := ∃ r x, r < 4 ∧ ctxOf c r = some x ∧ x.source = .scan
    let printing := (∃ r x, r < 4 ∧ ctxOf c r = some x ∧ Sink.print ∈ x.sinks) ∨ c.runOut.isSome = true
    let moves := fun ch : Channel => ch.motion ≠ .halted ∧ ch.motion ≠ .tripped
    let ramp := fun ch : Channel => d = [] ∨ d.length % 2 = 0 ∧ d.length ≤ 512 ∧ off ≤ ch.ramp.length ∧ off + d.length / 2 ≤ 32
    let refused := fun (i : Instr) (code : Byte) (fits held : Prop) =>
      (p.length < 4 ∨ byteAt p 1 ≠ code ∨ ¬fits → exec i s = .next (s.withChip (refuse p .malformed c))) ∧
      (4 ≤ p.length → byteAt p 1 = code → fits → held → exec i s = .next (s.withChip (refuse p .busy c)))
    refused (.loadShading p) 0x01 (d.length % 3 = 0 ∧ d.length ≤ 512 ∧ off + d.length / 3 ≤ 1728) scanning ∧
    refused (.loadTone p) 0x02 (d.length ≤ 512 ∧ off + d.length ≤ 256) scanning ∧
    refused (.loadDither p) 0x03 (d.length ≤ 512 ∧ off + d.length ≤ 64) scanning ∧
    refused (.loadScanRamp p) 0x04 (ramp c.scanCh) (d ≠ [] ∧ (scanning ∨ moves c.scanCh)) ∧
    refused (.loadPrintRamp p) 0x05 (ramp c.printCh) (d ≠ [] ∧ (printing ∨ moves c.printCh)) ∧
    refused (.loadHeat p) 0x06 (d.length % 2 = 0 ∧ off + d.length / 2 ≤ 15) printing ∧
    refused (.loadPark p) 0x07 (off + d.length ≤ 11 ∧ ∀ i b, d[i]? = some b → off + i < 8 → b.toNat ≤ 4) False ∧
    refused (.loadWake p) 0x08 (d.length % 3 = 0 ∧ off + d.length / 3 ≤ 4 ∧
      ∀ i b, d[i]? = some b → i % 3 < 2 → b.toNat ≤ 1) False) ∧
  (∀ (ramp : List Nat) (off : Nat) (d : List Byte), rampFits ramp off d = true →
    let x := applyRamp ramp off d
    let sent := fun i => numAt d (2 * i) 2
    (d ≠ [] → x.1.length = off + d.length / 2 ∧ (∀ i, i < off → x.1.getD i 0 = ramp.getD i 0) ∧
      (∀ i, i < d.length / 2 → x.1.getD (off + i) 0 =
        if off + i = 0 then clamp 500 20000 (sent i) else min (clamp 500 20000 (sent i)) (x.1.getD (off + i - 1) 0)) ∧
      x.2 = if ∀ i < d.length / 2, x.1.getD (off + i) 0 = sent i then .accepted else .adjusted)) ∧
  (∀ (h : HeatTable) (off : Nat) (new : List Nat), h.thresholds.length = 7 → h.times.length = 8 → off + new.length ≤ 15 →
    let x := applyHeat h off new
    let loaded := fun i => decide (off ≤ i ∧ i < off + new.length)
    (new = [] → x = (h, .accepted)) ∧
    (new ≠ [] →
      (∀ i, i < 7 →
        let v := if loaded i then min 255 (new.getD (i - off) 0) else h.thresholds.getD i 0
        x.1.thresholds.getD i 0 = if i ≤ off ∧ (i < off ∨ i = 0) then v else max v (x.1.thresholds.getD (i - 1) 0)) ∧
      (∀ i, i < 8 → x.1.times.getD i 0 =
        if loaded (i + 7) then clamp 100 4000 (new.getD (i + 7 - off) 0) else h.times.getD i 0) ∧
      (x.2 = .accepted ∨ x.2 = .adjusted) ∧
      (x.2 = .accepted ↔
        (∀ i < 7, x.1.thresholds.getD i 0 = if loaded i then new.getD (i - off) 0 else h.thresholds.getD i 0) ∧
        (∀ i < 8, x.1.times.getD i 0 = if loaded (i + 7) then new.getD (i + 7 - off) 0 else h.times.getD i 0)))) ∧
  (∀ (off : Nat) (es : List WakeEntry) (c : Chip), off + es.length ≤ 4 → c.power.wake.length = 4 → c.power.sources.length = 4 →
    let t := writeWakes off es c
    t = { c with power := { c.power with wake := t.power.wake, sources := t.power.sources } } ∧
    (∀ i, i < off ∨ off + es.length ≤ i → t.power.wake[i]? = c.power.wake[i]? ∧ t.power.sources[i]? = c.power.sources[i]?) ∧
    (∀ (i : Nat) (old new : WakeEntry) (d : Debounce), off ≤ i → c.power.wake[i]? = some old → es[i - off]? = some new →
      c.power.sources[i]? = some d →
      t.power.wake[i]? = some new ∧
      (new.rising ≠ old.rising ∨ (old.enable = false ∧ new.enable = true) → t.power.sources[i]? =
        some ⟨[c.pins.ring, c.pins.key, c.pins.hook, c.pins.docp].getD i false, none⟩) ∧
      (new.rising = old.rising → new.enable = false → t.power.sources[i]? = some { d with timing := none }) ∧
      (new.rising = old.rising → new.enable = true → old.enable = true → t.power.sources[i]? = some d)))

/-- R185, whole: ATTENTION MODE with a mode byte LEVEL or PULSE is accepted in every state and the REPLY is queued in the new mode, any
other payload is MALFORMED; in LEVEL mode ATN is asserted while records wait; a change to PULSE releases ATN and gives the waiting records
no pulse. -/
def Obligations.AttentionModeIsTakenInEveryState : Prop :=
  (∀ (p : List Byte) (m : Bool) (s : State), Taken s → p.length = 2 → yesNoOf (numAt p 1 1) = some m →
    let c := streamRules (.attentionMode p) s.chip
    exec (.attentionMode p) s = .next (s.withChip
        (reply p .accepted { c with link := { c.link with pulseMode := m, atnLeft := if m then c.link.atnLeft else 0 } }))) ∧
  (∀ (p : List Byte) (s : State), Taken s → p.length ≠ 2 ∨ yesNoOf (numAt p 1 1) = none →
    exec (.attentionMode p) s = .next (s.withChip (refuse p .malformed (streamRules (.attentionMode p) s.chip)))) ∧
  (∀ (a : Answer) (p : List Byte) (c : Chip), c.link.pulseMode = false → atnAsserted (reply p a c) = true) ∧
  (∀ c : Chip, c.link.atnLeft = 0 → atnAsserted { c with link := { c.link with pulseMode := true } } = false)

/-- STATUS REQUEST (R186, R65), and the STATUS payload of 11.4 field by field: power state; state, reason, pages done and lines done of each
route (R12); the store state (R108, R166; where the two rules meet, notes/assumptions/55.md, DEDUCED; ERASING during the program of state bad,
53.md, DESIGN CHOICE), faults and counts; service state and failure count; the levels of the pins; tripped, temperature band, events lost and
attention mode. The states of a route and of the store are given case by case, in the order of R12 and R108. The next state whole: DOCE and PAPX as
read, the REPLY and STATUS queued, events lost cleared, every halt it shows reported, and nothing else but an attention pulse, which may
begin in PULSE mode with LSEL released. -/
def Obligations.StatusReportsThePart : Prop :=
  (∀ (p : List Byte) (doce papx : Bool) (s : State), Taken s → p.length = 1 →
    let c := streamRules (.statusRequest p doce papx) s.chip
    let shown := { c with pins := { c.pins with doce := doce, papx := papx } }
    ∃ t, exec (.statusRequest p doce papx) s = .next t ∧ t.flash = s.flash ∧ t.pending = s.pending ∧
      t.chip = { shown with
        routes := c.routes.map fun x => match x.ctx with
          | some y => if y.halt.isSome then { x with haltReported := true } else x
          | none => x,
        link := { c.link with reports := c.link.reports ++ [.reply (refOf p) .accepted, .status (statusPayload shown)],
                              eventsLost := false, atnLeft := t.chip.link.atnLeft } } ∧
      (c.link.pulseMode = false ∨ c.link.selected = true → t.chip.link.atnLeft = c.link.atnLeft)) ∧
  (∀ (p : List Byte) (doce papx : Bool) (s : State), Taken s → p ≠ [] → p.length ≠ 1 →
    exec (.statusRequest p doce papx) s = .next (s.withChip (refuse p .malformed (streamRules (.statusRequest p doce papx) s.chip)))) ∧
  (∀ c : Chip,
    let v := statusPayload c
    v.length = 37 ∧ byteAt v 0 = powerCode c.power.state ∧
    (∀ r, r ≤ 3 → byteAt v (1 + 6 * r) = (getRoute c r).state.code ∧ byteAt v (2 + 6 * r) = (getRoute c r).reason.code ∧
      numAt v (3 + 6 * r) 2 = (getRoute c r).pagesDone % 65536 ∧
      (ctxOf c r = none → numAt v (5 + 6 * r) 2 = 0) ∧
      (∀ x, ctxOf c r = some x → numAt v (5 + 6 * r) 2 = x.linesDone % 65536)) ∧
    byteAt v 25 = (shownState c).code ∧
    ((byteAt v 26).getLsbD 0 = c.store.programFault ∧ (byteAt v 26).getLsbD 1 = c.store.eraseFault ∧
      (byteAt v 26).getLsbD 2 = c.store.sequenceFault ∧ (byteAt v 26).getLsbD 3 = c.store.protectionFault ∧ (byteAt v 26).toNat < 16) ∧
    ((byteAt v 27).toNat = c.store.erasedList.length % 256 ∧ (byteAt v 28).toNat = c.store.eraseQueue.length % 256 ∧
      (byteAt v 29).toNat = c.store.dir.length % 256) ∧
    byteAt v 30 = serviceCode c.prot.service ∧ (byteAt v 31).toNat = c.prot.failures % 256 ∧
    ((byteAt v 32).getLsbD 0 = c.pins.docp ∧ (byteAt v 32).getLsbD 1 = c.pins.doce ∧ (byteAt v 32).getLsbD 2 = c.pins.papp ∧
      (byteAt v 32).getLsbD 3 = c.pins.papx ∧ (byteAt v 32).getLsbD 4 = c.pins.cover ∧ (byteAt v 32).toNat < 32) ∧
    (byteAt v 33).toNat = (if c.scanCh.motion = .tripped ∨ c.printCh.motion = .tripped then 1 else 0) ∧
    (byteAt v 34).toNat = c.head.band % 256 ∧ (byteAt v 35).toNat = (if c.link.eventsLost then 1 else 0) ∧
    (byteAt v 36).toNat = (if c.link.pulseMode then 1 else 0)) ∧
  (∀ x : Route, (x.ctx = none → x.state = .closed ∧ x.reason = .none_) ∧
    ∀ y, x.ctx = some y →
      (∀ h, y.halt = some h → x.state = .halted ∧ x.reason = match h with | .interlock => .interlock | .jam => .jam) ∧
      (y.halt = none → y.begun = false → x.state = .opened ∧ x.reason = .none_) ∧
      (∀ k more, y.halt = none → y.begun = true → y.stalls = k :: more →
        x.state = .stalled ∧ x.reason = match k with | .paperOut => .paperOut | .storeWait => .storeWait) ∧
      (y.halt = none → y.begun = true → y.stalls = [] → x.state = (if y.closeReq then .draining else .running) ∧ x.reason = .none_)) ∧
  (∀ c : Chip,
    let checks := c.boot.check.isSome = true ∧ (c.store.holder = some .imageRead ∨ Job.imageRead ∈ c.store.reads)
    let suspended := ∃ e v, c.store.erase = some e ∧ e.phase = .suspended v
    (c.store.op = .scanning → shownState c = .scanning) ∧ (∀ v, c.store.op = .lockErase v → shownState c = .lockErase) ∧
    (c.store.op = .totalBlocks ∨ c.store.op = .totalLock ∨ c.store.op = .totalKey → shownState c = .totalErase) ∧
    (c.store.op = .none →
      (checks → shownState c = .reading) ∧ (¬checks → suspended → shownState c = .eraseSuspended) ∧
      (∀ j, ¬checks → ¬suspended → c.store.holder = some j →
        shownState c = if j = .lineRead ∨ j = .relocRead ∨ j = .imageRead then .reading else .programming) ∧
      (∀ e, ¬checks → ¬suspended → c.store.holder = none → c.store.erase = some e → e.phase ≠ .queued → shownState c = .erasing) ∧
      (¬checks → c.store.holder = none → (∀ e, c.store.erase = some e → e.phase = .queued) → shownState c = .idle))) ∧
  ([PowerState.run, .sleepPending, .sleep, .waking].map powerCode = [0, 1, 2, 3] ∧
    [RouteState.closed, .opened, .running, .stalled, .halted, .draining].map RouteState.code = [0, 1, 2, 3, 4, 5] ∧
    [RouteReason.none_, .paperOut, .storeWait, .interlock, .jam].map RouteReason.code = [0, 1, 2, 3, 4] ∧
    [StoreState.scanning, .lockErase, .totalErase, .eraseSuspended, .reading, .programming, .erasing, .idle].map StoreState.code =
      [0, 1, 2, 3, 4, 5, 6, 7])

/-- A directory listing (R187): DIRECTORY REQUEST begins it, each DIRECTORY_ENTRY queues the page with the lowest creation sequence above
the cursor where there is room, and DIRECTORY END ends it; the entry queued is a page of the directory above the cursor, and none is
passed over. -/
def Obligations.DirectoryIsListedInCreationOrder : Prop :=
  (∀ (p : List Byte) (s : State), Taken s → p.length = 1 →
    let c := streamRules (.directoryRequest p) s.chip
    scanOrTotal c = false → c.link.listing = none →
    exec (.directoryRequest p) s = .next (s.withChip
        ({ reply p .accepted c with link := { (reply p .accepted c).link with listing := some ⟨0, 0⟩ } }))) ∧
  (∀ (l : Listing) (pg : Page) (s : State), s.chip.link.listing = some l → heldReady s.chip = false →
    nextListed l.cursor s.chip.store.dir = some pg →
    Config.reportRoom + (Report.dirEntry (pagePayload s.chip.boot pg)).size ≤ freeBytes s.chip →
    exec .directoryEntry s = .next (s.withChip
        (queueRecord (.dirEntry (pagePayload s.chip.boot pg)) { s.chip with link := { s.chip.link with listing := some ⟨pg.creation, l.count + 1⟩ } }))) ∧
  (∀ (l : Listing) (s : State), s.chip.link.listing = some l → heldReady s.chip = false →
    nextListed l.cursor s.chip.store.dir = none →
    exec .directoryEntry s = .next (s.withChip
        (queueRecord (.dirEnd l.count) { s.chip with link := { s.chip.link with listing := none } }))) ∧
  (∀ (n : Nat) (dir : List Page) (pg : Page), nextListed n dir = some pg →
    pg ∈ dir ∧ n < pg.creation ∧ ∀ x ∈ dir, n < x.creation → pg.creation ≤ x.creation) ∧
  (∀ (n : Nat) (dir : List Page), nextListed n dir = none → ∀ x ∈ dir, x.creation ≤ n)

/-- RESTART (R24, R42, R69, R99, R129, R145, R162, R174, R188): pool, routes and blocks take their values; the REPLY is the first record, behind
what is left of a record being sent, which keeps its header and send position with 00h for its payload; the link lanes are emptied, and what is
left of a record that the LINK-out lane had begun takes no room of the report queue (R183); the tables and the failure count stand, and the flash is left as a cut at the arrival leaves it. With the cover open the trip is taken again, INTERLOCK OPEN behind the REPLY
(R69; the model's choice where two rules meet, notes/assumptions/36.md). That no halt is reported of a CLOSED route is the model's choice
(notes/assumptions/4.md), and that the header of a record in part goes out as it was is deduced (63.md). -/
def Obligations.RestartTakesItsValues : Prop :=
  (∀ (p : List Byte) (s : State), canTake s.chip = true → p.length = 1 →
    ∃ t, exec (.restart p) s = .next t ∧
      t.chip.pool = { slots := List.replicate 32 .free, freeList := List.range 32 } ∧
      t.chip.routes = List.replicate 4 { ctx := none, pagesDone := 0, overrun := false, haltReported := false } ∧
      t.chip.runOut = none ∧ t.chip.scan.state = .idle ∧
      (s.chip.pins.cover = true → t.chip.scanCh.motion = .halted ∧ t.chip.printCh.motion = .halted) ∧
      (s.chip.pins.cover = false → t.chip.scanCh.motion = .tripped ∧ t.chip.printCh.motion = .tripped) ∧
      t.chip.store.holder = none ∧ t.chip.store.erase = none ∧ t.chip.store.reads = [] ∧ t.chip.store.programs = [] ∧
      t.chip.prot = { service := .normal, failures := s.chip.prot.failures, copy := none } ∧
      t.chip.power.state = .run ∧ t.chip.power.bootHold = false ∧ t.chip.boot.state = .complete ∧
      t.chip.link.held = none ∧ t.chip.link.listing = none ∧ t.chip.link.pulseMode = false ∧ t.chip.link.parser = .between ∧
      (let first := match s.chip.link.up, s.chip.link.reports, s.chip.linkOut.record with
          | .report, x :: _, _ => [Report.padded x.tag x.payload.length]
          | .out, _, some y => [Report.padded y.1 y.2.length]
          | _, _, _ => []
        (s.chip.pins.cover = true → t.chip.link.reports = first ++ [.reply (refOf p) .accepted]) ∧
        (s.chip.pins.cover = false →
          t.chip.link.reports.take (first.length + 1) = first ++ [.reply (refOf p) .accepted] ∧
          (first = [] → t.chip.link.reports = [.reply (refOf p) .accepted, .event .interlockOpen])) ∧
        t.chip.link.up = if first = [] then .idle else .report) ∧
      t.chip.link.sent = s.chip.link.sent ∧ t.chip.linkOut = .idle ∧ t.chip.linkIn = .idle ∧
      t.chip.loaded = s.chip.loaded ∧ t.chip.scanCh.phase = s.chip.scanCh.phase ∧
      t.chip.printCh.phase = s.chip.printCh.phase ∧ t.flash = cutFlash s.chip s.flash) ∧
  (∀ x : Report, (Report.padded x.tag x.payload.length).bytes = x.bytes.take 3 ++ List.replicate x.payload.length 0) ∧
  (∀ (tag : Byte) (payload : List Byte),
    (Report.padded tag payload.length).bytes = (upRecord tag payload).take 3 ++ List.replicate payload.length 0) ∧
  (∀ (tag : Byte) (n : Nat), (Report.padded tag n).size = if tag = 0x81 ∨ tag = 0x82 then 0 else 3 + n) ∧
  (∀ o : LinkOut, o.record.isSome = true → o.cut.bytes = o.bytes.take 3 ++ List.replicate (o.bytes.length - 3) 0)

/-! ## The store's directives and protection (chapters 6 and 7) -/

/-- An accepted DELETE (R119, R120): the page leaves the directory, its blocks are RETIRED at once, no other page or block changes, and
no byte of flash is touched; with a lock cell set outside SERVICE it is refused PROTECTED with PROTECTION FAULT set (R132). -/
def Obligations.DeleteTakesThePageAway : Prop :=
  ∀ (p : List Byte) (id : Nat) (pg : Page) (s : State), Taken s → p.length = 3 → id = numAt p 1 2 →
    let c := streamRules (.delete p) s.chip
    storeTaken c = false → pageOf c id = some pg → pg.writing = false → pageRead id c = false → bootUses id c = false →
    (pg.blocks.all (lockPasses c) = true → (∀ b ∈ pg.blocks, b < c.store.blocks.length) →
      ∃ t, exec (.delete p) s = .next t ∧ pageOf t.chip id = none ∧ (∀ n, n ≠ id → pageOf t.chip n = pageOf c n) ∧
        (∀ b ∈ pg.blocks, (blockAt t.chip b).state = .retired ∧ (blockAt t.chip b).page = none) ∧
        (∀ b, b ∉ pg.blocks → blockAt t.chip b = blockAt c b) ∧ t.flash = s.flash) ∧
    (pg.blocks.all (lockPasses c) = false → exec (.delete p) s = .next (s.withChip (refuseProtected p c)))

/-- LOCK PAGE, SET CODE and SET MASTER LOCK in force at acceptance (R134 to R136): the page's blocks show their cells set and leave the
erased-block list, the copy takes the code or the master cell, and the program of the row is asked for, of a page for its cells that are clear;
where none is, or the master cell is set, STORE OP DONE follows at once; a code that is held and a missing code refuse. No byte of flash is
touched. -/
def Obligations.LocksAndCodeAreInForceAtOnce : Prop :=
  (∀ (p : List Byte) (id : Nat) (pg : Page) (s : State), Taken s → p.length = 3 → id = numAt p 1 2 →
    let c := streamRules (.lockPage p) s.chip
    let cells := pg.blocks.filter fun b => !(blockAt c b).lock
    lockPageCheck id c = none → pageOf c id = some pg → (∀ b ∈ pg.blocks, b < c.store.blocks.length) →
    (cells ≠ [] → exec (.lockPage p) s =
      .next (s.withChip (askProgram (.row (.lockPage id cells)) (setLocks cells (reply p .accepted c))))) ∧
    (cells = [] → exec (.lockPage p) s =
      .next (s.withChip (queueEvent (.storeOpDone .lockPage (some id) .done) (reply p .accepted c)))) ∧
    ∃ t, exec (.lockPage p) s = .next t ∧ (∀ b ∈ pg.blocks, (blockAt t.chip b).lock = true) ∧
      (∀ b ∈ pg.blocks, (blockAt c b).lock = false → b ∉ t.chip.store.erasedList) ∧
      (∀ b, b ∉ pg.blocks → blockAt t.chip b = blockAt c b) ∧ t.flash = s.flash) ∧
  (∀ (p : List Byte) (k : KeyCopy) (s : State), Taken s → p.length = 9 → (codeOf (p.drop 1)).isSome = true →
    let c := streamRules (.setCode p) s.chip
    storeTaken c = false → c.prot.copy = some k →
    (k.code = none → exec (.setCode p) s = .next (s.withChip (askProgram (.row (.setCode (p.drop 1)))
      { reply p .accepted c with prot := { c.prot with copy := some { k with code := some (p.drop 1) } } }))) ∧
    (k.code.isSome = true → exec (.setCode p) s = .next (s.withChip (refuseProtected p c)))) ∧
  (∀ (p : List Byte) (k : KeyCopy) (s : State), Taken s → p.length = 1 →
    let c := streamRules (.setMasterLock p) s.chip
    storeTaken c = false → c.prot.copy = some k →
    (k.code = none → exec (.setMasterLock p) s = .next (s.withChip (refuse p .noCode c))) ∧
    (k.code.isSome = true → k.master = false →
      exec (.setMasterLock p) s = .next (s.withChip (askProgram (.row .setMaster)
        { reply p .accepted c with prot := { c.prot with copy := some { k with master := true } } }))) ∧
    (k.code.isSome = true → k.master = true →
      exec (.setMasterLock p) s = .next (s.withChip
        (queueEvent (.storeOpDone .setMasterLock none .done) (reply p .accepted c)))))

/-- A program of the protection row ends (R130, R131): a cell of the job is set unless it failed and no other cell changes, the master
cell reads 00h and an erased code reads as sent where nothing failed, the copy takes what the row reads, and the page array is left alone. The table cells
of a LOCK PAGE take what the row reads, so that a failed cell reads clear, and its block, where ERASED, is back on the erased-block list; where a
cell or byte does not read as wanted PROGRAM FAULT is set; and STORE OP DONE tells DONE or FAULT.
That a set master cell is programmed as 00h is deduced, the manual giving it no value (notes/assumptions/31.md). That the command has no
effect while no row program holds the flash is the model's choice (6.md). -/
def Obligations.RowProgramsEnd : Prop :=
  (∀ (j : RowJob) (failed : List Nat) (s : State), s.chip.store.holder = some (.row j) →
    ∃ t, exec (.rowProgramEnd failed) s = .next t ∧ t.flash.mem = s.flash.mem ∧ t.flash.torn = s.flash.torn ∧
      (∀ id cells, j = .lockPage id cells → t.flash.master = s.flash.master ∧ t.flash.code = s.flash.code ∧
        ∀ b, b < 64 → cellSet t.flash.lockCells b = (cellSet s.flash.lockCells b || (cells.contains b && !failed.contains b))) ∧
      (j = .setMaster → t.flash.lockCells = s.flash.lockCells ∧ t.flash.code = s.flash.code ∧
        (0 ∉ failed → t.flash.master = 0x00) ∧
        t.chip.prot.copy = s.chip.prot.copy.map fun k => { k with master := decide (t.flash.master ≠ 0xFF) }) ∧
      (∀ want, j = .setCode want → t.flash.lockCells = s.flash.lockCells ∧ t.flash.master = s.flash.master ∧
        (failed = [] → s.flash.code = List.replicate 8 0xFF → want.length = 8 → t.flash.code = want) ∧
        t.chip.prot.copy = s.chip.prot.copy.map fun k => { k with code := codeOf t.flash.code }) ∧
      ∃ m, t.chip = freeFlash (settleAll (retryClaim m)) ∧
        (let wanted := match j with
            | .lockPage _ cells => ∀ b ∈ cells, cellSet t.flash.lockCells b = true
            | .setMaster => t.flash.master = 0x00
            | .setCode want => t.flash.code = want
          let named := match j with
            | .lockPage id _ => (StoreOp.lockPage, some id)
            | .setMaster => (StoreOp.setMasterLock, none)
            | .setCode _ => (StoreOp.setCode, none);
          (wanted → m.store.programFault = s.chip.store.programFault) ∧ (¬wanted → m.store.programFault = true) ∧
          (256 ≤ freeBytes s.chip →
            (wanted → m.link.reports = s.chip.link.reports ++ [.event (.storeOpDone named.1 named.2 .done)]) ∧
            (¬wanted → m.link.reports = s.chip.link.reports ++ [.event (.storeOpDone named.1 named.2 .fault)])) ∧
          (freeBytes s.chip < 256 → m.link = { s.chip.link with eventsLost := true })) ∧
        (∀ id cells, j = .lockPage id cells →
          (∀ b, b < s.chip.store.blocks.length → blockAt m b =
            if b ∈ cells then { blockAt s.chip b with lock := cellSet t.flash.lockCells b } else blockAt s.chip b) ∧
          (∀ b ∈ cells, b < s.chip.store.blocks.length → cellSet t.flash.lockCells b = false →
            (blockAt s.chip b).state = .erased → b ∈ m.store.erasedList)) ∧
        ((∀ id cells, j ≠ .lockPage id cells) → m.store.blocks = s.chip.store.blocks ∧ m.store.erasedList = s.chip.store.erasedList)) ∧
  (∀ (failed : List Nat) (s : State), (∀ j, s.chip.store.holder ≠ some (.row j)) →
    exec (.rowProgramEnd failed) s = .next s)

/-- CLEAR LOCKS and TOTAL ERASE are set up, and CONFIRM begins them (R137 to R139): a setup that passes its checks sets the
setup-pending mark alone; CONFIRM with no setup is refused SEQUENCE with SEQUENCE FAULT set; CONFIRM of CLEAR LOCKS enters LOCK ERASE; CONFIRM
of TOTAL ERASE empties the directory, both lists and the installed page, and leaves no block that is not BAD with a page. -/
def Obligations.SetupNeedsConfirm : Prop :=
  (∀ (p : List Byte) (s : State), Taken s → p.length = 1 →
    (setupCheck .clearLocks (streamRules (.clearLocks p) s.chip) = none →
      exec (.clearLocks p) s = .next (s.withChip
        ({ reply p .accepted (streamRules (.clearLocks p) s.chip) with
            store := { (streamRules (.clearLocks p) s.chip).store with setup := .clearLocks } }))) ∧
    (setupCheck .totalErase (streamRules (.totalErase p) s.chip) = none →
      exec (.totalErase p) s = .next (s.withChip
        ({ reply p .accepted (streamRules (.totalErase p) s.chip) with
            store := { (streamRules (.totalErase p) s.chip).store with setup := .totalErase } })))) ∧
  (∀ (p : List Byte) (s : State), Taken s → p.length = 1 →
    let c := streamRules (.confirm p) s.chip
    (c.store.setup = .none →
      exec (.confirm p) s = .next (s.withChip (refuse p .sequence { c with store := { c.store with sequenceFault := true } }))) ∧
    (c.store.setup = .clearLocks → setupCheck .clearLocks c = none →
      ∃ t run, exec (.confirm p) s = .next t ∧ t.chip.store.setup = .none ∧ t.chip.store.op = .lockErase run ∧
        t.chip.store.blocks = c.store.blocks ∧ t.chip.store.dir = c.store.dir ∧ t.flash = s.flash) ∧
    (c.store.setup = .totalErase → setupCheck .totalErase c = none →
      ∃ t, exec (.confirm p) s = .next t ∧ t.chip.store.setup = .none ∧ t.chip.store.dir = [] ∧
        t.chip.store.erasedList = [] ∧ t.chip.store.eraseQueue = [] ∧ t.chip.boot.installed = none ∧
        t.chip.boot.result = .absent .none_ ∧
        (t.chip.store.op = .totalBlocks ∨ t.chip.store.op = .totalLock) ∧
        (∀ b, b < c.store.blocks.length → (blockAt c b).state ≠ .bad →
          (blockAt t.chip b).page = none ∧ ((blockAt t.chip b).state = .retired ∨ (blockAt t.chip b).state = .erasing)) ∧
        (∀ b, (blockAt c b).state = .bad → blockAt t.chip b = blockAt c b) ∧
        (c.store.erase = none → t.flash = s.flash)))

/-- The segment erases end (R138, R139): a cell stays set only where it was set and is named as still set, the key segment reads what the
device answers over what it held, a whole erase leaves master cell and code erased, and the copy takes what the row reads. At the end of the lock-segment erase every table cell
takes what the row reads, the ERASED blocks whose cells read clear are on the erased-block list, the operation leaves, and STORE OP DONE tells
DONE, or FAULT with ERASE FAULT set where a cell reads set; at the end of a TOTAL ERASE it tells DONE where no block failed and the row reads
erased. That each is without
effect where its erase does not run is the model's choice (notes/assumptions/6.md). -/
def Obligations.SegmentErasesEnd : Prop :=
  (∀ (still : List Nat) (s : State), s.chip.store.op = .lockErase true →
    ∃ t, exec (.lockSegmentEraseEnd still) s = .next t ∧
      (∀ b, b < 64 → cellSet t.flash.lockCells b = (cellSet s.flash.lockCells b && still.contains b)) ∧
      t.flash.mem = s.flash.mem ∧ t.flash.master = s.flash.master ∧ t.flash.code = s.flash.code ∧
      t.chip.prot = s.chip.prot ∧
      ∃ m, t.chip = grant (settleAll (retryClaim m)) ∧ m.store.op = .none ∧ m.store.segLeft = 0 ∧
        (∀ b, b < s.chip.store.blocks.length →
          blockAt m b = { blockAt s.chip b with lock := cellSet t.flash.lockCells b }) ∧
        (∀ b, b < 64 → b < s.chip.store.blocks.length → (blockAt s.chip b).state = .erased →
          cellSet t.flash.lockCells b = false → b ∈ m.store.erasedList) ∧
        m.store.eraseQueue = s.chip.store.eraseQueue ∧
        (let clear := ∀ b, b < 64 → cellSet t.flash.lockCells b = false;
          (clear → m.store.eraseFault = s.chip.store.eraseFault) ∧ (¬clear → m.store.eraseFault = true) ∧
          (256 ≤ freeBytes s.chip →
            (clear → m.link.reports = s.chip.link.reports ++ [.event (.storeOpDone .clearLocks none .done)]) ∧
            (¬clear → m.link.reports = s.chip.link.reports ++ [.event (.storeOpDone .clearLocks none .fault)])) ∧
          (freeBytes s.chip < 256 → m.link = { s.chip.link with eventsLost := true }))) ∧
  (∀ (still : List Nat) (s : State), s.chip.store.op = .totalLock →
    ∃ t, exec (.totalEraseLockSegmentEnd still) s = .next t ∧
      (∀ b, b < 64 → cellSet t.flash.lockCells b = (cellSet s.flash.lockCells b && still.contains b)) ∧
      t.flash.mem = s.flash.mem ∧ t.flash.master = s.flash.master ∧ t.flash.code = s.flash.code ∧
      t.chip.store.op = .totalKey ∧
      (∀ b, b < s.chip.store.blocks.length → (blockAt t.chip b).lock = cellSet t.flash.lockCells b)) ∧
  (∀ (key : List Byte) (s : State), s.chip.store.op = .totalKey →
    ∃ t, exec (.keySegmentEraseEnd key) s = .next t ∧ t.flash.mem = s.flash.mem ∧ t.flash.lockCells = s.flash.lockCells ∧
      t.flash.master = s.flash.master ||| key.getD 0 0xFF ∧
      (key = List.replicate 9 0xFF → s.flash.code.length = 8 →
        t.flash.master = 0xFF ∧ t.flash.code = List.replicate 8 0xFF ∧
        t.chip.prot.copy = some { master := false, code := none }) ∧
      t.chip.prot.copy = some t.flash.key ∧
      ∃ m, t.chip = grant (settleAll m) ∧ m.store.op = .none ∧ m.store.blocks = s.chip.store.blocks ∧
        (let clear := (∀ b, b < 64 → cellSet t.flash.lockCells b = false) ∧ t.flash.master = 0xFF ∧ codeOf t.flash.code = none;
          (clear → m.store.eraseFault = s.chip.store.eraseFault) ∧ (¬clear → m.store.eraseFault = true) ∧
          (256 ≤ freeBytes s.chip →
            (clear → s.chip.store.totalFault = false →
              m.link.reports = s.chip.link.reports ++ [.event (.storeOpDone .totalErase none .done)]) ∧
            (¬clear ∨ s.chip.store.totalFault = true →
              m.link.reports = s.chip.link.reports ++ [.event (.storeOpDone .totalErase none .fault)])))) ∧
  (∀ (xs : List Nat) (key : List Byte) (s : State),
    (s.chip.store.op ≠ .lockErase true → exec (.lockSegmentEraseEnd xs) s = .next s) ∧
    (s.chip.store.op ≠ .totalLock → exec (.totalEraseLockSegmentEnd xs) s = .next s) ∧
    (s.chip.store.op ≠ .totalKey → exec (.keySegmentEraseEnd key) s = .next s))

/-- CLEAR STORE STATUS and service access (R125, R141, R142, R144): the four status bits are cleared; SERVICE REQUEST enters SERVICE where no
code is set, else opens the window of 2 s, and is refused LIMIT after four failures; the right code enters SERVICE; SERVICE END closes
a window or SERVICE, and under a set master cell aborts a route whose STORE sink has the origin BOOT, a page of which it may be between or not
have begun (the model's choice, notes/assumptions/79.md). -/
def Obligations.ServiceIsOpenedAndEnded : Prop :=
  (∀ (p : List Byte) (s : State), Taken s → p.length = 1 →
    let c := streamRules (.clearStoreStatus p) s.chip
    exec (.clearStoreStatus p) s = .next (s.withChip (reply p .accepted { c with store := { c.store with
        programFault := false, eraseFault := false, sequenceFault := false, protectionFault := false } }))) ∧
  (∀ (p : List Byte) (s : State), Taken s → p.length = 1 →
    let c := streamRules (.serviceRequest p) s.chip
    (4 ≤ c.prot.failures → exec (.serviceRequest p) s = .next (s.withChip (refuse p .limit c))) ∧
    (c.prot.failures < 4 → c.prot.service = .normal → ∀ k, c.prot.copy = some k →
      (k.code = none → exec (.serviceRequest p) s = .next (s.withChip
        ({ reply p .accepted c with prot := { c.prot with service := .service } }))) ∧
      (k.code.isSome = true → exec (.serviceRequest p) s = .next (s.withChip
        ({ reply p .accepted c with prot := { c.prot with service := .window 2000000 } }))))) ∧
  (∀ (p : List Byte) (n : Nat) (s : State), Taken s → p.length = 9 →
    let c := streamRules (.serviceCode p) s.chip
    (c.prot.service = .window n → codeHeld c = some (p.drop 1) →
      exec (.serviceCode p) s = .next (s.withChip
        ({ reply p .accepted c with prot := { c.prot with service := .service } }))) ∧
    (c.prot.service = .normal → exec (.serviceCode p) s = .next (s.withChip (refuse p .sequence c)))) ∧
  (∀ (p : List Byte) (n : Nat) (s : State), Taken s → p.length = 1 →
    let c := streamRules (.serviceEnd p) s.chip
    (c.prot.service = .normal → exec (.serviceEnd p) s = .next (s.withChip (reply p .accepted c))) ∧
    (c.prot.service = .window n → exec (.serviceEnd p) s = .next (s.withChip
        ({ reply p .accepted c with prot := { c.prot with service := .normal } }))) ∧
    (c.prot.service = .service → ∃ t, exec (.serviceEnd p) s = .next t ∧
      t.chip.prot = { c.prot with service := .normal } ∧ t.chip.loaded = c.loaded ∧
      (∀ r x y, r < 4 → masterSet c = true → ctxOf c r = some x → Sink.store ∈ x.sinks → x.storeP = some y → y.origin = .boot →
        ctxOf t.chip r = none) ∧
      (bootWriters c = [] → c.store.erase = none → (∀ j, c.store.holder = some j → lockedJob c j = false) →
        t.flash = s.flash)))

/-- A service failure (R142, R143), by a wrong code or the end of the window: NORMAL, one failure more up to 4, every route aborted, SERVICE
PULSE among the host reset requests for 10 ms, HOST RESET (SERVICE) the pending report; the tables and the flash stand. That a code sent in a
window while the copy holds none is a wrong one is the model's choice (notes/assumptions/60.md), and that
outside a window the expiry does nothing is its choice too (6.md). -/
def Obligations.ServiceFailureResetsTheHost : Prop :=
  let failed := fun (c t : Chip) =>
    t.prot = { service := .normal, failures := min 4 (c.prot.failures + 1), copy := c.prot.copy } ∧
      (∀ r, r < 4 → ctxOf t r = none) ∧ t.power.pulseHold = some 10000 ∧ hrstnAsserted t = true ∧
      t.boot.report = some .hostReset ∧ t.loaded = c.loaded
  (∀ (p : List Byte) (n : Nat) (s : State), Taken s → p.length = 9 →
    let c := streamRules (.serviceCode p) s.chip
    c.prot.service = .window n → codeHeld c ≠ some (p.drop 1) →
    ∃ t, exec (.serviceCode p) s = .next t ∧ failed c t.chip ∧ t.flash = s.flash) ∧
  (∀ (n : Nat) (s : State), s.chip.prot.service = .window n →
    ∃ t, exec .serviceWindowExpiry s = .next t ∧ failed s.chip t.chip ∧ t.flash = s.flash) ∧
  (∀ s : State, (∀ n, s.chip.prot.service ≠ .window n) → exec .serviceWindowExpiry s = .next s)

/-- An install (R172, R173): INSTALL BOOT that passes its checks begins the image check and leaves the installed page; the end of its MARK
program makes the page the installed one, or on a failure ends the install with the installed page as it was; the former page leaves the
directory once no route reads it, its blocks RETIRED where their lock check passes, and DAMAGED where it fails (notes/assumptions/41.md,
DESIGN CHOICE). That the end of a MARK program that does not hold the flash, and a retire that must still wait, have no effect is the model's choice
(notes/assumptions/6.md). -/
def Obligations.InstallRunsItsPhases : Prop :=
  (∀ (p : List Byte) (id len sum : Nat) (s : State), Taken s → p.length = 9 → id = numAt p 1 2 → len = numAt p 3 4 →
    sum = numAt p 7 2 →
    let c := streamRules (.installBoot p) s.chip
    installCheck s.flash.mem id len c = none →
    ∃ t, exec (.installBoot p) s = .next t ∧ t.chip.boot.install = some ⟨id, len, sum, .check⟩ ∧
      t.chip.boot.check = some ⟨id, len, sum, 0, 0, 0, 0⟩ ∧ t.chip.boot.installed = c.boot.installed ∧
      t.chip.store.blocks = c.store.blocks ∧ t.chip.store.dir = c.store.dir ∧ t.flash = s.flash) ∧
  (∀ (r : ProgResult) (i : Install) (s : State), s.chip.store.holder = some .installMark → s.chip.boot.install = some i →
    ∃ t, exec (.installMarkProgramEnd r) s = .next t ∧ t.flash = (runProgram .installMark r s).1 ∧
      ((runProgram .installMark r s).2 = true →
        t.chip.boot.installed = some i.page ∧ t.chip.boot.length = some i.length ∧ t.chip.boot.checksum = some i.checksum ∧
        t.chip.boot.result = .valid ∧
        t.chip.boot.install = s.chip.boot.installed.map fun f => { i with phase := .retire f false }) ∧
      ((runProgram .installMark r s).2 = false →
        t.chip.boot.installed = s.chip.boot.installed ∧ t.chip.boot.install = none)) ∧
  (∀ (r : ProgResult) (s : State), s.chip.store.holder ≠ some .installMark →
    exec (.installMarkProgramEnd r) s = .next s) ∧
  (∀ (i : Install) (f : Nat) (s : State), s.chip.boot.install = some i → i.phase = .retire f false →
    (pageRead f s.chip = true → exec .installRetireStart s = .next s) ∧
    (∀ pg, pageRead f s.chip = false → pageOf s.chip f = some pg → (∀ b ∈ pg.blocks, b < s.chip.store.blocks.length) →
      ∃ t, exec .installRetireStart s = .next t ∧ pageOf t.chip f = none ∧ t.flash = s.flash ∧
        (∀ b ∈ pg.blocks, (blockAt t.chip b).state = if lockPasses s.chip b then .retired else .damaged) ∧
        (∀ b, b ∉ pg.blocks → blockAt t.chip b = blockAt s.chip b)))

/-! ## The flash at work (chapters 5, 6 and 9) -/

/-- The ends of the program and read jobs (R100 to R102, R109, R111 to R114, R120): the job that holds the flash leaves in flash what its
program wrote and a read leaves the flash as it is. A program changes no byte outside its writes, and where it succeeds every byte reads as
wanted. Each end is `entryDone`, `claimDone`, `closeDone`, `retireDone`, `relocProgrammed` or `relocRead` on the tables, and then what follows at
once. A committed entry is counted in its block and page; a failed one begins a relocation; a claim that fails leaves its block DAMAGED and out of
the page, and is made again, but not where its page is under close (the model's choice, notes/assumptions/81.md); a page close leaves the page COMPLETE, with the mark's TRUNCATED and its own PARTIAL, and serves its mark with the
page id; a retired block joins the erase queue, DAMAGED where its program failed; once its block's claim succeeds a relocation asks for the read of
its next entry, or with none left for the program of the entry that failed, copies entry by entry, and its block takes the failed one's place. That a job that does not hold the flash does nothing is the model's choice (notes/assumptions/6.md). -/
def Obligations.ProgramsEndInTheirWrites : Prop :=
  (∀ (r : ProgResult) (s : State),
    (s.chip.store.holder = some .entry →
      exec (.entryProgramEnd r) s = .next { s with
          flash := (runProgram .entry r s).1, chip := freeFlash (settleAll (entryDone (runProgram .entry r s).2 s.chip)) } ∧
        (freeFlash (settleAll (entryDone (runProgram .entry r s).2 s.chip))).backdrop = s.chip.backdrop) ∧
    (∀ b rel pg, s.chip.store.holder = some (.claim b rel pg) →
      ∃ t, exec (.claimProgramEnd r) s = .next t ∧ t.flash = (runProgram (.claim b rel pg) r s).1 ∧
        t.chip = freeFlash (settleAll (claimDone b rel (runProgram (.claim b rel pg) r s).2 s.chip)) ∧
        t.chip.backdrop = s.chip.backdrop) ∧
    (∀ b, s.chip.store.holder = some (.closeFull b) →
      ∃ t, exec (.closeProgramEnd r) s = .next t ∧ t.flash = (runProgram (.closeFull b) r s).1 ∧
        t.chip = freeFlash (settleAll (closeDone b none (runProgram (.closeFull b) r s).2 s.chip)) ∧
        t.chip.backdrop = s.chip.backdrop) ∧
    (∀ b cut, s.chip.store.holder = some (.closePage b cut) →
      ∃ t, exec (.closeProgramEnd r) s = .next t ∧ t.flash = (runProgram (.closePage b cut) r s).1 ∧
        t.chip = freeFlash (settleAll (closeDone b (some cut) (runProgram (.closePage b cut) r s).2 s.chip)) ∧
        t.chip.backdrop = s.chip.backdrop) ∧
    (∀ b why, s.chip.store.holder = some (.retire b why) →
      ∃ t, exec (.retireProgramEnd r) s = .next t ∧ t.flash = (runProgram (.retire b why) r s).1 ∧
        t.chip = freeFlash (settleAll (retireDone b why (runProgram (.retire b why) r s).2 s.chip)) ∧
        t.chip.loaded = s.chip.loaded) ∧
    (s.chip.store.holder = some .relocEntry →
      ∃ t, exec (.relocationCopyEnd r) s = .next t ∧ t.flash = (runProgram .relocEntry r s).1 ∧
        t.chip = freeFlash (settleAll (relocProgrammed (runProgram .relocEntry r s).2 s.chip)) ∧
        t.chip.backdrop = s.chip.backdrop) ∧
    (s.chip.store.holder = some .relocRead →
      ∃ t, exec (.relocationCopyEnd r) s = .next t ∧ t.flash = s.flash ∧
        t.chip = freeFlash (settleAll (relocRead s.flash.mem s.chip)) ∧ t.chip.backdrop = s.chip.backdrop) ∧
    (s.chip.store.holder ≠ some .entry → exec (.entryProgramEnd r) s = .next s) ∧
    ((∀ b rel pg, s.chip.store.holder ≠ some (.claim b rel pg)) → exec (.claimProgramEnd r) s = .next s) ∧
    ((∀ b, s.chip.store.holder ≠ some (.closeFull b)) → (∀ b cut, s.chip.store.holder ≠ some (.closePage b cut)) →
      exec (.closeProgramEnd r) s = .next s) ∧
    ((∀ b why, s.chip.store.holder ≠ some (.retire b why)) → exec (.retireProgramEnd r) s = .next s) ∧
    (s.chip.store.holder ≠ some .relocEntry → s.chip.store.holder ≠ some .relocRead → exec (.relocationCopyEnd r) s = .next s)) ∧
  (∀ (j : Job) (r : ProgResult) (s : State), FlashOk s.flash →
    (∀ a, (∀ w ∈ jobWrites s.chip s.flash.mem j, w.1 ≠ a) → readMem (runProgram j r s).1.mem a = readMem s.flash.mem a) ∧
    (((jobWrites s.chip s.flash.mem j).map Prod.fst).Nodup → (runProgram j r s).2 = true →
      ∀ w ∈ jobWrites s.chip s.flash.mem j, w.1 < 1048576 → readMem (runProgram j r s).1.mem w.1 = w.2) ∧
    ((runProgram j r s).1.lockCells = s.flash.lockCells ∧ (runProgram j r s).1.master = s.flash.master ∧
      (runProgram j r s).1.code = s.flash.code)) ∧
  (∀ (c : Chip) (w : Work) (r id b : Nat) (pg : Page) (e : LineEntry) (x : Coded), c.store.work = some w → w.route = some r →
    w.page = some id → w.item = .line e x → pageOf c id = some pg → lastBlock pg = some b → b < c.store.blocks.length →
    blockAt (entryDone true c) b =
        { blockAt c b with committed := (blockAt c b).committed + 1, used := (blockAt c b).used + (x.data.length + 4) } ∧
      pageOf (entryDone true c) id = some { pg with lines := pg.lines + 1 } ∧
      ∃ m, entryDone false c = tryClaim r m ∧ m.store.reloc = some ⟨b, none, 0, 0, none⟩ ∧ m.store.programFault = true ∧
        m.store.blocks = c.store.blocks ∧ m.store.dir = c.store.dir ∧ m.store.work = c.store.work) ∧
  (∀ (b id : Nat) (c : Chip), claimDone b false true c = c ∧
    ((blockAt c b).state = .claimed ∨ (blockAt c b).state = .full → (blockAt c b).page = some id → b < c.store.blocks.length →
      ∃ m, (blockAt m b).state = .damaged ∧ (blockAt m b).page = none ∧ (∀ n, n ≠ b → blockAt m n = blockAt c n) ∧
        pageOf m id = (pageOf c id).map (fun pg => { pg with blocks := pg.blocks.filter (· ≠ b) }) ∧
        (∀ n, n ≠ id → pageOf m n = pageOf c n) ∧ m.store.programFault = true ∧ m.store.work = c.store.work ∧
        (m.store.holder = some (.retire b .quiet) ∨ Job.retire b .quiet ∈ m.store.programs) ∧
        (c.store.work = none → claimDone b false false c = m) ∧
        (∀ w mark, c.store.work = some w → w.item = .closing mark → claimDone b false false c = m) ∧
        (∀ w r e x, c.store.work = some w → w.route = some r → w.item = .line e x →
          claimDone b false false c = tryClaim r (withdraw (· == .entry) m)))) ∧
  (∀ (b id : Nat) (cut ok : Bool) (w : Work) (mark : Option Mark) (pg : Page) (c : Chip), c.store.work = some w → w.page = some id →
    w.item = .closing mark → pageOf c id = some pg →
    let t := closeDone b (some cut) ok c
    pageOf t id = some { pg with writing := false, truncated := cut } ∧ (∀ n, n ≠ id → pageOf t n = pageOf c n) ∧
      t.store.blocks = c.store.blocks ∧ t.store.work = none ∧ t.store.programFault = (c.store.programFault || !ok) ∧
      (∀ r y, ctxOf t r = some y → y.storePage ≠ some id) ∧
      (∀ r x k rest, w.route = some r → mark.isSome = true → ctxOf c r = some x → x.storeQ = .mark k :: rest → x.hold = [] →
        ∃ y, ctxOf t r = some y ∧ y.storeQ = putMark { k with pageId := some id } rest)) ∧
  (∀ (b : Nat) (c : Chip), closeDone b none true c = c ∧ closeDone b none false c = programFailed b c) ∧
  (∀ (b : Nat) (why : RetireFor) (ok : Bool) (c : Chip), b < c.store.blocks.length →
    let t := retireDone b why ok c
    t.store.eraseQueue = (if b ∈ c.store.eraseQueue then c.store.eraseQueue else c.store.eraseQueue ++ [b]) ∧
      (ok = true → t.store.blocks = c.store.blocks) ∧ (ok = false → (blockAt t b).state = .damaged) ∧
      (∀ n, n ≠ b → blockAt t n = blockAt c n) ∧ t.store.programFault = (c.store.programFault || !ok) ∧ t.store.dir = c.store.dir) ∧
  (∀ (x : Reloc) (w : Work) (n r id : Nat) (pg : Page) (c : Chip), c.store.reloc = some x → c.store.work = some w → x.target = some n →
    w.route = some r → w.page = some id → pageOf c id = some pg → n < c.store.blocks.length → x.source < c.store.blocks.length →
    n ≠ x.source →
    (x.copied < (blockAt c x.source).committed → claimDone n true true c = askRead .relocRead c) ∧
    ((blockAt c x.source).committed ≤ x.copied → claimDone n true true c = askProgram .relocEntry c) ∧
    claimDone n true false c = relocProgrammed false c ∧
    (∀ bs, x.buffer = some bs → (blockAt (relocProgrammed true c) n).committed = x.copied + 1 ∧
      (blockAt (relocProgrammed true c) n).used = x.offset + bs.length ∧
      (relocProgrammed true c).store.reloc = some { x with copied := x.copied + 1, offset := x.offset + bs.length, buffer := none }) ∧
    (∀ e y, x.buffer = none → w.item = .line e y →
      let t := relocProgrammed true c
      (blockAt t n).committed = (blockAt c x.source).committed + 1 ∧ (blockAt t n).used = x.offset + (y.data.length + 4) ∧
        (blockAt t x.source).state = .damaged ∧ t.store.reloc = none ∧ t.store.work = none ∧
        (t.store.holder = some (.retire x.source .quiet) ∨ Job.retire x.source .quiet ∈ t.store.programs) ∧
        pageOf t id = some { pg with lines := pg.lines + 1, blocks := pg.blocks.map fun b => if b = x.source then n else b }) ∧
    (∃ m, relocProgrammed false c = tryClaim r m ∧ m.store.reloc = some ⟨x.source, none, 0, 0, none⟩ ∧ m.store.programFault = true ∧
      (blockAt m n).state = .damaged ∧ blockAt m x.source = blockAt c x.source ∧ m.store.dir = c.store.dir) ∧
    (∀ mem coded, readEntry mem x.source x.offset = some coded → relocRead mem c = askProgram .relocEntry { c with store := { c.store with
      reloc := some { x with buffer := some (blockBytesAt mem x.source (64 + x.offset) (coded.data.length + 4)) } } }))

/-- An erase through its phases (R121 to R124): its start, the full unit and its verify, the next unit after a failing verify below the
limit, BAD with ERASE FAULT at the limit, the erased block after a passing verify, the cut of a pulse for a waiting read, the program of the
format mark and count, and that of state bad. In the background the block joins the erased-block list in its place by count and number, or, its
count program failed, the tail of the erase queue DAMAGED, and a claim that waits is judged again (R124). A claim that finds no erased block waits
in STORE WAIT while the store has something to erase (R107, R115), and the sink meets STORE FULL where it has nothing, at a 64th block, and where
no page can be created (R116): the page is closed TRUNCATED, the entry let go with its reference, close requested, where a LINK or STORE source
with nothing in progress ends its page TRUNCATED (R21) and a SCAN source finishes its sheet, and what follows removed or served TRUNCATED. The model's choices: a command completes its unit or minimum pulse whatever time had passed
(notes/assumptions/3.md), a block is BAD before its header program, and a failed one leaves its content untrusted (28.md, 29.md), the
block's other bytes keep what they read before the erase until its verify passes, and for good where it reaches the limit (76.md), and a
command with no erase in its phase has no effect (6.md). That a 64th block is judged before the erased-block list is found empty is deduced
(32.md). -/
def Obligations.EraseRunsItsPhases : Prop :=
  (∀ (b : Nat) (s : State), s.chip.store.erase = none → s.chip.power.state = .run → s.chip.store.op = .none →
    s.chip.store.eraseQueue.find? (eligible s.chip) = some b → b < s.chip.store.blocks.length →
    ∃ t e, exec .eraseStart s = .next t ∧ t.chip.store.erase = some e ∧ e.block = b ∧ e.applied = 0 ∧
      (s.chip.store.holder = none → s.chip.store.reads = [] → s.chip.store.programs = [] → s.chip.store.usable = true →
        s.chip.store.scanned = true → e.phase = .pulse) ∧
      (blockAt t.chip b).state = .erasing ∧ b ∉ t.chip.store.eraseQueue ∧
      (∀ n, n ≠ b → blockAt t.chip n = blockAt s.chip n) ∧ t.flash = s.flash) ∧
  (∀ (e : EraseProg) (s : State), s.chip.store.erase = some e →
    (e.phase = .pulse → flashWanted s.chip = false →
      exec .erasePulseEnd s = .next (s.withChip (setErase (some { e with
          applied := e.applied + (10000 - e.unit), unit := e.unit + (10000 - e.unit), pulseRun := e.pulseRun + (10000 - e.unit),
          phase := .verify, verifyLeft := 4096 }) s.chip))) ∧
    (e.phase = .verify → e.applied < 2000000 → flashWanted s.chip = false →
      exec (.eraseVerifyEnd false) s = .next (s.withChip
        (setErase (some { e with phase := .pulse, unit := 0, pulseRun := 0, verifyLeft := 0 }) s.chip))) ∧
    (e.phase = .verify → 2000000 ≤ e.applied →
      exec (.eraseVerifyEnd false) s = .next (s.withChip (settleAll (eraseFailed e s.chip)))) ∧
    (e.phase = .verify → ∃ t, exec (.eraseVerifyEnd true) s = .next t ∧
      t.chip = setErase (some { e with phase := .count, verifyLeft := 0 }) s.chip ∧
      (∀ a, readMem t.flash.mem a =
        if e.block * 16384 ≤ a ∧ a < (e.block + 1) * 16384 then 0xFF else readMem s.flash.mem a) ∧
      t.flash.lockCells = s.flash.lockCells ∧ t.flash.master = s.flash.master ∧ t.flash.code = s.flash.code) ∧
    (∀ j rest, e.phase = .pulse → s.chip.store.op = .none → s.chip.store.holder = none → s.chip.store.reads = j :: rest →
      s.chip.store.usable = true → s.chip.store.scanned = true →
      e.unit + (1000 - e.pulseRun) ≤ 10000 →
      ∃ t, exec .eraseMinPulseEnd s = .next t ∧ t.chip.store.holder = some j ∧ t.chip.store.reads = rest ∧
        t.chip.store.erase = some { e with
          applied := e.applied + (1000 - e.pulseRun), unit := e.unit + (1000 - e.pulseRun),
          pulseRun := e.pulseRun + (1000 - e.pulseRun), phase := .suspended false } ∧ t.flash = s.flash) ∧
    (∀ r, e.phase = .count →
      let out := s.flash.program r (countWrites e.block (min 16777215 ((blockAt s.chip e.block).count + 1)))
      exec (.countProgramEnd r) s = .next { s with flash := out.1, chip := countDone e out.2 s.chip }) ∧
    (∀ r, e.phase = .bad → ∃ t, exec (.badStateProgramEnd r) s = .next t ∧ t.chip = eraseOver e.block true s.chip ∧
      t.flash.mem = (s.flash.program r (badWrites e.block)).1.mem ∧
      ((s.flash.program r (badWrites e.block)).2 = false → e.block ∈ t.flash.torn) ∧
      ((s.flash.program r (badWrites e.block)).2 = true → t.flash.torn = s.flash.torn.filter (· ≠ e.block)))) ∧
  (∀ (e : EraseProg) (c : Chip), e.block < c.store.blocks.length →
    (blockAt (eraseFailed e c) e.block).state = .bad ∧ (eraseFailed e c).store.eraseFault = true ∧
    (∀ n, n ≠ e.block → blockAt (eraseFailed e c) n = blockAt c n) ∧
    (c.store.op = .totalBlocks →
      (blockAt (countDone e true c) e.block).state = .erased ∧
        (blockAt (countDone e true c) e.block).count = min 16777215 ((blockAt c e.block).count + 1) ∧
      (blockAt (countDone e false c) e.block).state = .damaged) ∧
    (c.store.op ≠ .totalBlocks → ∀ ok, ∃ m, countDone e ok c = grant (settleAll (retryClaim m)) ∧ m.store.erase = none ∧
      (blockAt m e.block).state = (if ok then .erased else .damaged) ∧
      (blockAt m e.block).count = min 16777215 ((blockAt c e.block).count + 1) ∧ (∀ n, n ≠ e.block → blockAt m n = blockAt c n) ∧
      (ok = true → m.store.eraseQueue = c.store.eraseQueue ∧
        ((blockAt c e.block).lock = true → m.store.erasedList = c.store.erasedList) ∧
        ((blockAt c e.block).lock = false → e.block ∉ c.store.erasedList →
          let after := fun n => (blockAt m e.block).count < (blockAt c n).count ∨
            ((blockAt m e.block).count = (blockAt c n).count ∧ e.block < n)
          ∃ before rest, c.store.erasedList = before ++ rest ∧ m.store.erasedList = before ++ e.block :: rest ∧
            (∀ n ∈ before, ¬after n) ∧ (∀ n more, rest = n :: more → after n))) ∧
      (ok = false → m.store.erasedList = c.store.erasedList ∧ m.store.programFault = true ∧
        (e.block ∉ c.store.eraseQueue → m.store.eraseQueue = c.store.eraseQueue ++ [e.block])))) ∧
  (∀ c : Chip, hasToErase c = true ↔ c.store.erase.isSome = true ∨
    (∃ b ∈ c.store.eraseQueue, (blockAt c b).lock = false ∨ c.prot.service = .service) ∨
    ∃ b why, ((blockAt c b).lock = false ∨ c.prot.service = .service) ∧
      (c.store.holder = some (.retire b why) ∨ Job.retire b why ∈ c.store.programs)) ∧
  (∀ (r id : Nat) (x : Ctx) (w : Work) (pg : Page) (c : Chip), ctxOf c r = some x → c.store.work = some w → w.page = some id →
    pageOf c id = some pg → c.store.reloc = none →
    (63 ≤ pg.blocks.length → tryClaim r c = meetFull r .pageLength c) ∧
    (pg.blocks.length < 63 → c.store.erasedList = [] → hasToErase c = false → tryClaim r c = meetFull r .blocks c) ∧
    (pg.blocks.length < 63 → c.store.erasedList = [] → hasToErase c = true →
      let t := tryClaim r c
      ctxOf t r = some { x with stalls := if Stall.storeWait ∈ x.stalls then x.stalls else x.stalls ++ [.storeWait] } ∧
        t.store = { c.store with work := some { w with needBlock := true } } ∧ t.pool = c.pool ∧
        (Stall.storeWait ∈ x.stalls → t.link = c.link) ∧
        (Stall.storeWait ∉ x.stalls → 256 ≤ freeBytes c → t.link.reports = c.link.reports ++ [.event (.storeWait r)])) ∧
    (∀ b more, pg.blocks.length < 63 → c.store.erasedList = b :: more → b < c.store.blocks.length →
      let t := tryClaim r c
      t.store.erasedList = more ∧ t.store.work = some { w with needBlock := false } ∧
        blockAt t b = { blockAt c b with state := .claimed, page := some id, seq := pg.blocks.length, committed := 0, used := 0 } ∧
        pageOf t id = some { pg with blocks := pg.blocks ++ [b] } ∧
        ctxOf t r = some { x with stalls := x.stalls.filter (· ≠ .storeWait) })) ∧
  (∀ (r : Nat) (x : Ctx) (e : LineEntry) (rest : List Entry) (c : Chip), ctxOf c r = some x → x.storeQ = .line e :: rest →
    x.storePage = none → 48 ≤ c.store.dir.length ∨ 4294967295 < c.store.nextCreation →
    ∃ m, takeEntry r c = meetFull r .directory m ∧ ctxOf m r = some x ∧ m.pool = c.pool ∧ m.store.dir = c.store.dir) ∧
  (∀ (r refs : Nat) (cause : FullCause) (x : Ctx) (e : LineEntry) (rest : List Entry) (l : Line) (c : Chip), ctxOf c r = some x →
    x.storeQ = .line e :: rest → x.hold = [] → slotAt c e.slot = .held r refs l →
    (∀ q y, ctxOf c q = some y → e.slot ∉ y.reservations) → x.sinks.Nodup → Sink.store ∈ x.sinks →
    let t := meetFull r cause c
    let cut : Entry := .mark
      { tag := x.marks, lines := x.linesDone, repaired := x.repairedLines, truncated := true, isPartial := x.partialNext, pageId := none }
    let ends := x.closeReq = false ∧ 0 < x.linesDone ∧
      (x.source = .link ∧ decodingFor c r = false ∨ x.source = .store ∧ readInProgress c = false)
    (256 ≤ freeBytes c → Report.event (.storeFull r cause) ∈ t.link.reports) ∧
      slotAt t e.slot = (if refs ≤ 1 then .free else .held r (refs - 1) l) ∧
      ∃ y, ctxOf t r = some y ∧ y.closeReq = true ∧ y.full.isSome = true ∧ Stall.storeWait ∉ y.stalls ∧
        (¬ends → y.storeQ = rest ∧ y.hold = [] ∧ y.linesDone = x.linesDone) ∧
        (ends → y.linesDone = 0 ∧ (hasRoom { x with storeQ := rest } = true → y.storeQ = rest ++ [cut] ∧ y.hold = [] ∧
            (Sink.print ∈ x.sinks → y.printQ = x.printQ ++ [cut]) ∧ (Sink.link ∈ x.sinks → y.linkQ = x.linkQ ++ [cut])) ∧
          (hasRoom { x with storeQ := rest } = false → y.storeQ = rest ∧ y.hold = [cut])) ∧
        (x.source = .link → y.creditGranted = x.creditGranted ∨ y.creditGranted = some (x.quota - charged t r)) ∧
        (∀ id pg, x.storePage = some id → pageOf c id = some pg →
          (pg.lines = 0 → y.full = some none ∧ pageOf t id = none) ∧
          (∀ b, 0 < pg.lines → lastBlock pg = some b → b < c.store.blocks.length →
            y.full = some (some id) ∧ (blockAt t b).state = .full ∧ (pageOf t id).isSome = true ∧
              (t.store.holder = some (.closePage b true) ∨ Job.closePage b true ∈ t.store.programs)))) ∧
  (∀ (r : Nat) (x : Ctx) (pid : Option Nat) (rest : List Entry) (c : Chip), ctxOf c r = some x → x.full = some pid → x.hold = [] →
    (∀ e, x.storeQ = .line e :: rest → ∃ g, ctxOf (drainEntry r c) r = some { x with storeQ := rest, creditGranted := g }) ∧
    (∀ k, x.storeQ = .mark k :: rest → ∃ y, ctxOf (drainEntry r c) r = some y ∧ y.full = some none ∧
      y.storeQ = putMark { k with truncated := true, pageId := pid } rest ∧
      y.printQ = putMark { k with truncated := true, pageId := pid } x.printQ)) ∧
  (∀ s : State, s.chip.store.erase = none →
    exec .erasePulseEnd s = .next s ∧ (∀ pass, exec (.eraseVerifyEnd pass) s = .next s) ∧ exec .eraseMinPulseEnd s = .next s ∧
      (∀ r, exec (.countProgramEnd r) s = .next s) ∧ (∀ r, exec (.badStateProgramEnd r) s = .next s))

/-- The start-up scan (R106, R126 to R128, R133): it begins once the flash supply is up and leaves the flash; at its end the copy takes the key
segment (that it does so then is deduced, notes/assumptions/82.md), and each block's state comes from its header's state byte, its count from its header where the format mark is, else the highest found, its
lock from its cell. A page keeps, from sequence 0 on, the best candidate of each sequence up to the first missing one or the first in state claimed,
FULL in the table, with the counts and flags of R127; the other candidates are DAMAGED. The directory has the 48 pages of lowest creation, of those
that share an id the one of the higher; the erased-block list the ERASED blocks with clear cells by count and number, the erase queue the RETIRED
and DAMAGED ones by number, at a wake behind those it had; the counters follow the highest creation found and the last page, but keep their values
at a wake. The model's choices: a block whose erase was cut is DAMAGED (notes/assumptions/29.md), a count of FFFFFFh is no count and the candidates
of a page are those of its id and creation sequence (30.md, DEDUCED), bytes 39 to 45 of a header do not count (83.md, DEDUCED), a RETIRED or BAD block without a count takes the highest too (56.md), the
creations are of headers that agree and the page id is of a page kept (57.md), and a SCAN_START that is not due and a SCAN_END outside a scan have
no effect (6.md). -/
def Obligations.ScanReadsTheHeaders : Prop :=
  (∀ s : State, s.chip.power.flashOn = true → s.chip.store.scanned = false → s.chip.store.op = .none →
    exec .scanStart s = .next (s.withChip ({ s.chip with store := { s.chip.store with usable := true, op := .scanning } }))) ∧
  (∀ s : State, s.chip.store.scanned = true → exec .scanStart s = .next s) ∧
  (∀ s : State, s.chip.store.op = .scanning →
    let found := scanTables s.flash s.chip
    ∃ t, exec .scanEnd s = .next t ∧ t.flash = s.flash ∧
      t.chip = grant (settleAll (selectBoot s.flash.mem (queueEvent (.storeOpDone .scan none .done)
        { found with store := { found.store with op := .none, scanned := true, abandoned := none } }))) ∧
      (∀ b, b < 64 → (blockAt t.chip b).lock = cellSet s.flash.lockCells b) ∧
      t.chip.prot = { s.chip.prot with copy := some s.flash.key } ∧ t.chip.loaded = s.chip.loaded ∧
      ((∀ r, ctxOf s.chip r = none) →
        (256 ≤ freeBytes s.chip → ∃ more, t.chip.link.reports = s.chip.link.reports ++ .event (.storeOpDone .scan none .done) :: more) ∧
        ((found.store.dir.filter (marked s.flash.mem)).length ≤ 1 →
          t.chip.store.dir = found.store.dir ∧ t.chip.store.blocks = found.store.blocks ∧ t.chip.store.erasedList = found.store.erasedList ∧
          t.chip.store.eraseQueue = found.store.eraseQueue ∧ t.chip.store.nextCreation = found.store.nextCreation ∧
          t.chip.store.nextId = found.store.nextId))) ∧
  (∀ s : State, s.chip.store.op ≠ .scanning → exec .scanEnd s = .next s) ∧
  (∀ (f : Flash) (c : Chip) (b : Nat), b < 64 →
    let x := blockAt (scanTables f c) b
    let st := blockByte f.mem b 5
    x.lock = cellSet f.lockCells b ∧
    (b ∈ f.torn → x.state = .damaged) ∧
    (b ∉ f.torn → c.store.abandoned ≠ some b →
      (st = 0x03 → x.state = .retired) ∧ (st = 0x00 → x.state = .bad) ∧
      (st = 0xFF → x.state = .erased ∨ x.state = .damaged) ∧
      (st = 0xFF → headerCount f.mem b = none → x.state = .damaged) ∧
      (st = 0x3F ∨ st = 0x0F → x.state = .full ∨ x.state = .damaged) ∧
      (st ≠ 0xFF → st ≠ 0x3F → st ≠ 0x0F → st ≠ 0x03 → st ≠ 0x00 → x.state = .damaged) ∧
      (∀ n, headerCount f.mem b = some n → x.count = n))) ∧
  (∀ (f : Flash) (c : Chip),
    let t := scanTables f c
    let torn := fun n => f.torn.contains n || decide (c.store.abandoned = some n)
    let cand := fun b => (findBlock torn f.mem b).cand
    let better := fun x y : Candidate => y.lines < x.lines ∨ y.lines = x.lines ∧
      (x.relocated = true ∧ y.relocated = false ∨ x.relocated = y.relocated ∧ x.block < y.block)
    let spent := fun b => decide ((blockAt t b).state = .retired ∨ (blockAt t b).state = .damaged)
    (∀ pg ∈ t.store.dir, pg.writing = false ∧ 0 < pg.lines ∧ ∃ xs : List Candidate,
      pg.blocks = xs.map Candidate.block ∧ pg.lines = (xs.map Candidate.lines).sum ∧
      (∀ i x, xs[i]? = some x → x.block < 64 ∧ cand x.block = some x ∧ x.id = pg.id ∧ x.creation = pg.creation ∧ x.seq = i ∧
        (i + 1 < xs.length → x.closed = true) ∧
        ∀ b y, b < 64 → cand b = some y → y.id = pg.id → y.creation = pg.creation → y.seq = i → y = x ∨ better x y) ∧
      (∀ z, xs.getLast? = some z → pg.truncated = z.truncated ∧ pg.interrupted = !(z.closed && z.fin) ∧
        (z.closed = true → ∀ b y, b < 64 → cand b = some y → y.id = pg.id → y.creation = pg.creation → y.seq ≠ xs.length)) ∧
      (∀ x, xs.head? = some x → pg.isPartial = x.isPartial ∧ pg.label = x.label ∧ pg.origin = x.origin ∧ pg.steps = x.steps ∧
        pg.partialStart = if x.isPartial then some x.start else none)) ∧
    t.store.dir.length ≤ 48 ∧
    (t.store.dir.Pairwise fun p q => p.id ≠ q.id ∧ (p.creation < q.creation ∨ p.creation = q.creation ∧ p.id < q.id)) ∧
    (∀ b x, b < 64 → cand b = some x → x.seq = 0 → 0 < x.lines →
      (∃ pg ∈ t.store.dir, pg.id = x.id ∧ pg.creation = x.creation) ∨
      (∃ n y, n < 64 ∧ cand n = some y ∧ y.id = x.id ∧ x.creation < y.creation) ∨
      (t.store.dir.length = 48 ∧ ∀ pg ∈ t.store.dir, pg.creation ≤ x.creation)) ∧
    (∀ b x, b < 64 → cand b = some x →
      (∀ pg ∈ t.store.dir, b ∈ pg.blocks → (blockAt t b).state = .full ∧ (blockAt t b).page = some pg.id ∧ (blockAt t b).seq = x.seq ∧
        (blockAt t b).committed = x.lines ∧ (blockAt t b).used = x.used) ∧
      ((∀ pg ∈ t.store.dir, b ∉ pg.blocks) → (blockAt t b).state = .damaged)) ∧
    (∃ top, (top = 0 ∨ ∃ b, b < 64 ∧ torn b = false ∧ headerCount f.mem b = some top) ∧
      ∀ b, b < 64 → (∀ n, torn b = false → headerCount f.mem b = some n → n ≤ top) ∧
        (torn b = true ∨ headerCount f.mem b = none → (blockAt t b).count = top)) ∧
    (t.store.erasedList.Pairwise fun a b => (blockAt t a).count < (blockAt t b).count ∨
      ((blockAt t a).count = (blockAt t b).count ∧ a < b)) ∧
    (∀ b, b ∈ t.store.erasedList ↔ b < 64 ∧ (blockAt t b).state = .erased ∧ (blockAt t b).lock = false) ∧
    (c.store.scanKind ≠ .wake → t.store.eraseQueue = (List.range 64).filter spent ∧
      (∀ b x, b < 64 → cand b = some x → x.creation < t.store.nextCreation) ∧
      (t.store.nextCreation = 1 ∨ ∃ b x, b < 64 ∧ cand b = some x ∧ x.creation + 1 = t.store.nextCreation) ∧
      (t.store.dir = [] → t.store.nextId = 1) ∧
      (∀ pg, t.store.dir.getLast? = some pg → t.store.nextId = if pg.id = 65534 then 1 else pg.id + 1)) ∧
    (c.store.scanKind = .wake →
      t.store.eraseQueue = c.store.eraseQueue.filter spent ++ (List.range 64).filter (fun b => spent b && !c.store.eraseQueue.contains b) ∧
      t.store.nextCreation = c.store.nextCreation ∧ t.store.nextId = c.store.nextId))

/-- Line reads of a STORE-source route (R20, R118): the request takes a slot from the head of the free list for the line and touches nothing
else of the pool, it waits while no slot can be granted, and the end of a read is `lineReadDone` and then what follows at once, which leaves
flash and backdrop. An entry that cannot be read is tried again up to its third attempt, its slot returned, a close requested meanwhile or
not (DEDUCED from R20 and R21, notes/assumptions/26.md); one that is read fills its slot with the decoded line and leaves OPEN. That the end
of a line read that does not hold the flash has no effect is the model's choice (notes/assumptions/6.md). -/
def Obligations.LineReadsTakeTheirSlots : Prop :=
  (∀ (r n : Nat) (rest : List Nat) (x : Ctx) (s : State), routeOfSource s.chip .store = some r → ctxOf s.chip r = some x →
    x.closeReq = false → s.chip.store.reading = none → s.chip.store.cursor.blank = false → charged s.chip r < x.quota →
    s.chip.pool.freeList = n :: rest → n < s.chip.pool.slots.length →
    ∃ t, exec .storeReadRequest s = .next t ∧ t.chip.store.reading = some n ∧ t.chip.pool.freeList = rest ∧
      slotAt t.chip n = .filling r none ∧ (∀ m, m ≠ n → slotAt t.chip m = slotAt s.chip m) ∧
      t.chip.backdrop = s.chip.backdrop ∧ t.flash = s.flash) ∧
  (∀ (r : Nat) (x : Ctx) (s : State), routeOfSource s.chip .store = some r → ctxOf s.chip r = some x →
    x.quota ≤ charged s.chip r ∨ s.chip.pool.freeList = [] → exec .storeReadRequest s = .next s) ∧
  (∀ s : State, s.chip.store.holder = some .lineRead →
    exec .lineReadEnd s = .next (s.withChip (freeFlash (settleAll (lineReadDone s.flash.mem s.chip)))) ∧
      (freeFlash (settleAll (lineReadDone s.flash.mem s.chip))).backdrop = s.chip.backdrop) ∧
  (∀ s : State, s.chip.store.holder ≠ some .lineRead → exec .lineReadEnd s = .next s) ∧
  (∀ (r n : Nat) (x : Ctx) (pg : Page) (m : List Host.Cell) (c : Chip), routeOfSource c .store = some r →
    ctxOf c r = some x → readPage x c = some pg → c.store.reading = some n →
    (readEntry m (cursorBlock pg c) c.store.cursor.offset = none → c.store.cursor.attempts < 2 →
      (lineReadDone m c).store.reading = none ∧ slotAt (lineReadDone m c) n = .free ∧
        (lineReadDone m c).store.cursor = { c.store.cursor with attempts := c.store.cursor.attempts + 1 }) ∧
    (∀ coded, readEntry m (cursorBlock pg c) c.store.cursor.offset = some coded → x.hold = [] → hasRoom x = true →
      slotAt c n = .filling r none → x.closeReq = false → x.readLine + 1 < pg.lines → x.linesDone + 1 < 65535 →
      let line := decodeLine coded.form.asIn coded.data
      slotAt (lineReadDone m c) n = .held r x.sinks.length line.1 ∧ (lineReadDone m c).store.reading = none ∧
        ctxOf (lineReadDone m c) r = some { ({ x with
            begun := true, linesDone := x.linesDone + 1,
            repairedLines := x.repairedLines + if line.2 then 1 else 0 }).push (.line ⟨n, x.linesDone, line.2⟩) with
          readLine := x.readLine + 1 }))

/-- R168, whole: a BOOT FETCH past the image in SERVING queues its REPLY, BOOT END (VALID) with length and checksum, BOOT COMPLETE (IMAGE
END) and the pending report, in that order, and COMPLETE is entered; with 300 bytes free both events are admitted; an image of 20,000
bytes has the chunks 0 to 156, the last of 32 bytes, and the fetch of chunk 157 ends serving. -/
def Obligations.BootFetchPastTheImage : Prop :=
  (∀ (p : List Byte) (s : State), Taken s → p.length = 3 →
    let c := streamRules (.bootFetch p) s.chip
    let reports := [.reply (refOf p) .accepted, .bootEnd true none (c.boot.length.getD 0) (c.boot.checksum.getD 0)]
    c.boot.state = .serving → c.boot.chunk = none → c.boot.result = .valid → c.boot.length.getD 0 ≤ numAt p 1 2 * 128 →
    ∃ t, exec (.bootFetch p) s = .next t ∧
      t.chip.boot = { c.boot with state := .complete, report := none } ∧
      t.chip.link.reports.take (c.link.reports.length + 2) = c.link.reports ++ reports ∧
      (300 ≤ freeBytes c → t.chip.link.reports = c.link.reports ++ reports ++ [.event (.bootComplete false)] ++
        (match c.boot.report with | some x => [.event x.event] | none => [])) ∧
      t.chip.pool = c.pool ∧ t.chip.store = c.store ∧ t.flash = s.flash) ∧
  (∀ n : Nat, n * 128 < 20000 ↔ n ≤ 156) ∧ chunkLength 156 20000 = 32 ∧ 20000 ≤ 157 * 128

/-- Other BOOT FETCHes and image reads (R166, R167, R169): with no valid image, BOOT END (ABSENT) and ABSENT; a chunk below the image length
is in flight and its read job asked for; busy while one is in flight; SEQUENCE outside SERVING; and the read that completes a chunk queues BOOT
CHUNK with its bytes, 128 but for the last. An image check (R166) ends ABSENT (LENGTH) at its start, ABSENT (UNREADABLE) after three attempts at
an entry or at a repaired one, and once the length is counted VALID or ABSENT (CHECKSUM) by its sum; with no boot page the result is ABSENT
(NONE) (R165). That a fetch of another length is MALFORMED in every boot state is deduced (notes/assumptions/68.md), and so is the REPLY's place
before BOOT END (70.md). The end of an image read is `imageReadDone` and then what follows at once; that it has no effect
where no image read holds the flash is the model's choice (notes/assumptions/6.md). -/
def Obligations.BootFetchServesChunks : Prop :=
  (∀ (p : List Byte) (s : State), Taken s → p.length = 3 →
    let c := streamRules (.bootFetch p) s.chip
    (c.boot.state ≠ .serving → exec (.bootFetch p) s = .next (s.withChip (refuse p .sequence c))) ∧
    (c.boot.state = .serving → c.boot.chunk.isSome = true → exec (.bootFetch p) s = .next (s.withChip (refuse p .busy c))) ∧
    (c.boot.state = .serving → c.boot.chunk = none → c.boot.result ≠ .valid →
      ∃ t, exec (.bootFetch p) s = .next t ∧ t.chip.boot = { c.boot with state := .absent, report := none } ∧
        t.chip.link.reports.take (c.link.reports.length + 2) = c.link.reports ++
          [.reply (refOf p) .accepted, .bootEnd false (some c.boot.result.why) 0 0] ∧
        t.chip.pool = c.pool ∧ t.chip.store = c.store ∧ t.flash = s.flash) ∧
    (c.boot.state = .serving → c.boot.chunk = none → c.boot.result = .valid → numAt p 1 2 * 128 < c.boot.length.getD 0 →
      exec (.bootFetch p) s = .next (s.withChip (askRead .imageRead { reply p .accepted c with
        boot := { c.boot with chunk := some ⟨numAt p 1 2, numAt p 1 2 * 128 / 216, [], 0⟩ } })))) ∧
  (∀ s : State, s.chip.store.holder = some .imageRead →
    ∃ t, exec .imageReadEnd s = .next t ∧ t = s.withChip (freeFlash (settleAll (imageReadDone s.flash.mem s.chip))) ∧
      t.chip.loaded = s.chip.loaded ∧ t.chip.prot = s.chip.prot) ∧
  (∀ s : State, s.chip.store.holder ≠ some .imageRead → exec .imageReadEnd s = .next s) ∧
  (∀ (m : List Host.Cell) (k : Chunk) (raw : List Byte) (c : Chip), c.boot.check = none → c.boot.chunk = some k →
    imageBytes m c (c.boot.installed.getD 0) k.line = some (some raw) →
    let want := min 128 (c.boot.length.getD 0 - k.number * 128)
    let bs := k.bytes ++ (raw.drop (k.number * 128 + k.bytes.length - k.line * 216)).take (want - k.bytes.length)
    (want ≤ bs.length → imageReadDone m c = queueRecord (.bootChunk k.number bs) { c with boot := { c.boot with chunk := none } }) ∧
    (bs.length < want → imageReadDone m c = askRead .imageRead { c with
      boot := { c.boot with chunk := some { k with line := k.line + 1, bytes := bs, attempts := 0 } } })) ∧
  (∀ (p : List Byte) (s : State), Taken s → p.length ≠ 3 →
    exec (.bootFetch p) s = .next (s.withChip (refuse p .malformed (streamRules (.bootFetch p) s.chip)))) ∧
  (∀ (m : List Host.Cell) (c : Chip), (∀ pg ∈ c.store.dir, marked m pg = false) → selectBoot m c = { c with boot := { c.boot with
    installed := none, length := none, checksum := none, result := .absent .none_ } }) ∧
  (∀ (id length sum : Nat) (pg : Page) (c : Chip), c.boot.install = none → pageOf c id = some pg →
    (length = 0 ∨ pg.lines * 216 < length ∨ 8388480 < length →
      startCheck id length sum c = { c with boot := { c.boot with check := none, result := .absent .length } }) ∧
    (0 < length → length ≤ pg.lines * 216 → length ≤ 8388480 →
      startCheck id length sum c = askRead .imageRead { c with boot := { c.boot with check := some ⟨id, length, sum, 0, 0, 0, 0⟩ } })) ∧
  (∀ (m : List Host.Cell) (k : Check) (c : Chip), c.boot.check = some k → c.boot.install = none →
    let ends := fun res => imageReadDone m c = { c with boot := { c.boot with check := none, result := res } }
    let goesOn := fun k' => imageReadDone m c = askRead .imageRead { c with boot := { c.boot with check := some k' } }
    (imageBytes m c k.page k.line = none →
      (2 ≤ k.attempts → ends (.absent .unreadable)) ∧ (k.attempts < 2 → goesOn { k with attempts := k.attempts + 1 })) ∧
    (imageBytes m c k.page k.line = some none → ends (.absent .unreadable)) ∧
    (∀ raw, imageBytes m c k.page k.line = some (some raw) → k.sum < 65536 →
      let bs := raw.take (k.length - k.counted)
      let sum := (k.sum + (bs.map BitVec.toNat).sum) % 65536
      (k.length ≤ k.counted + bs.length → ends (if sum = k.checksum then .valid else .absent .checksum)) ∧
      (k.counted + bs.length < k.length →
        goesOn { k with line := k.line + 1, counted := k.counted + bs.length, sum := sum, attempts := 0 })))

/-! ## The Page Link (chapters 5 and 10) -/

/-- LINE records (R2, R18, R19, R93, R94, R176, R182): with credit the route number takes the slot at the head of the free list for the route and the record
is decoded; without credit, close requested or not a LINK source, the record is passed over, and with its last byte overrun reported is yes and
CREDIT OVERRUN is queued where it was no (that this comes at the record's end is deduced, notes/assumptions/61.md); a route number above 3 is passed
over alone; the bytes after form and route number are decoded in order, a RUN form of a RAW route and an undefined form giving an
all-white repaired line; the last byte completes the fill with what has been decoded. At every take and return of a slot credit granted of a LINK route follows its quota
less its charged count, and a new value goes into the route's unsent CREDIT record, or into a CREDIT record behind the queue. A record given whole is route number, form and data in
one; that a LINE command may also give a record in pieces is the model's choice (notes/assumptions/8.md). -/
def Obligations.LineRecordsTakeTheirSlots : Prop :=
  (∀ (r n length : Nat) (rest : List Nat) (x : Ctx) (s : State), canTake s.chip = true → r ≤ 3 → 2 ≤ length → length ≤ 600 →
    ctxOf s.chip r = some x → x.source = .link → x.closeReq = false → charged s.chip r < x.quota →
    s.chip.pool.freeList = n :: rest → n < s.chip.pool.slots.length →
    ∃ t, exec (.line length [byteOf r]) s = .next t ∧ t.chip.linkIn = .decoding r n (!x.begun) none .start ∧
      (∀ y, ctxOf t.chip r = some y → y.begun = true) ∧ t.chip.link.parser = .payload 0x01 length 1 ∧ t.chip.pool.freeList = rest ∧ slotAt t.chip n = .filling r none ∧
      (∀ m, m ≠ n → slotAt t.chip m = slotAt s.chip m) ∧ t.chip.loaded = s.chip.loaded ∧ t.chip.store = s.chip.store ∧
      t.flash = s.flash) ∧
  (∀ (r length : Nat) (s : State), canTake s.chip = true → r ≤ 3 → 2 ≤ length → length ≤ 600 → acceptsLine s.chip r = false →
    exec (.line length [byteOf r]) s = .next (s.withChip
      ({ s.chip with linkIn := .passing (some r), link := { s.chip.link with parser := .payload 0x01 length 1 } }))) ∧
  (∀ (owed : Option Nat) (length taken : Nat) (bytes : List Byte) (s : State), exchanging s.chip = true →
    s.chip.link.parser = .payload 0x01 length taken → 0 < taken → s.chip.linkIn = .passing owed →
    (taken + bytes.length < length → exec (.line length bytes) s = .next (s.withChip
      ({ s.chip with link := { s.chip.link with parser := .payload 0x01 length (taken + bytes.length) } }))) ∧
    (taken + bytes.length = length →
      let c := { s.chip with linkIn := .idle, link := { s.chip.link with parser := .between } }
      (owed = none → exec (.line length bytes) s = .next (s.withChip c)) ∧
      (∀ r, owed = some r → (getRoute c r).overrun = true → exec (.line length bytes) s = .next (s.withChip c)) ∧
      (∀ r, owed = some r → r ≤ 3 → s.chip.routes.length = 4 → (getRoute c r).overrun = false →
        ∃ t, exec (.line length bytes) s = .next t ∧ getRoute t.chip r = { getRoute s.chip r with overrun := true } ∧
          (∀ q, q ≠ r → getRoute t.chip q = getRoute s.chip q) ∧ t.chip.pool = s.chip.pool ∧ t.chip.store = s.chip.store ∧
          (256 ≤ freeBytes s.chip → t.chip.link.reports = s.chip.link.reports ++ [.event (.creditOverrun r)]) ∧
          (freeBytes s.chip < 256 → t.chip.link = { c.link with eventsLost := true }) ∧ t.flash = s.flash))) ∧
  (∀ (r : Nat) (bytes : List Byte) (s : State), canTake s.chip = true → r ≤ 3 → bytes.length ≤ 599 → acceptsLine s.chip r = false →
    exec (.line (bytes.length + 1) (byteOf r :: bytes)) s = .next (s.withChip
      (if (getRoute s.chip r).overrun then { s.chip with linkIn := .idle }
       else setRoute r { getRoute s.chip r with overrun := true } (queueEvent (.creditOverrun r) { s.chip with linkIn := .idle })))) ∧
  (∀ (r length : Nat) (s : State), canTake s.chip = true → 3 < r → r < 256 → 2 ≤ length → length ≤ 600 →
    exec (.line length [byteOf r]) s = .next (s.withChip
      ({ s.chip with linkIn := .passing none, link := { s.chip.link with parser := .payload 0x01 length 1 } }))) ∧
  (∀ (r n : Nat) (form : Byte) (bytes : List Byte) (x : Ctx) (c : Chip) (s : State), canTake s.chip = true → r ≤ 3 →
    bytes.length ≤ 598 → ctxOf s.chip r = some x → acceptsLine s.chip r = true →
    takeSlot r (fun q => .filling q none) s.chip = some (n, c) →
    let l := (bytes.foldl (Decoder.byte (formInFor x.encoding form)) .start).finish
    exec (.line (bytes.length + 2) (byteOf r :: form :: bytes)) s = .next (s.withChip (settle r (fillComplete r n l.out l.repaired
      { modCtx r (fun x => { x with begun := true }) c with linkIn := .idle })))) ∧
  (∀ (enc : Option Form) (b : Byte), formInFor enc b =
    if b = 0x00 then .raw else if b = 0x01 ∧ enc = some .run then .run else .ignored) ∧
  (∀ bytes : List Byte, decodeLine .ignored bytes = (List.replicate 1728 false, true)) ∧
  (∀ (length taken r n : Nat) (first : Bool) (f : FormIn) (d : Decoder) (bytes : List Byte) (s : State), exchanging s.chip = true →
    s.chip.link.parser = .payload 0x01 length taken → 0 < taken → s.chip.linkIn = .decoding r n first (some f) d →
    (taken + bytes.length < length →
      exec (.line length bytes) s = .next (s.withChip
        ({ s.chip with
            linkIn := .decoding r n first (some f) (bytes.foldl (Decoder.byte f) d),
            link := { s.chip.link with parser := .payload 0x01 length (taken + bytes.length) } }))) ∧
    (∀ x, taken + bytes.length = length → ctxOf s.chip r = some x → x.closeReq = false →
      let l := (bytes.foldl (Decoder.byte f) d).finish
      exec (.line length bytes) s = .next (s.withChip (settle r (fillComplete r n l.out l.repaired
        { s.chip with linkIn := .idle, link := { s.chip.link with parser := .between } }))))) ∧
  (∀ (r n : Nat) (mk : Nat → Slot) (rest : List Nat) (x : Ctx) (c : Chip), ctxOf c r = some x → charged c r < x.quota →
    c.pool.freeList = n :: rest →
    takeSlot r mk c = some (n, syncCredit r { c with pool := { slots := c.pool.slots.set n (mk r), freeList := rest } })) ∧
  (∀ (r n : Nat) (c : Chip), (slotAt c n).route = some r →
    returnSlot n c = syncCredit r { c with pool := { slots := c.pool.slots.set n .free, freeList := c.pool.freeList ++ [n] } }) ∧
  (∀ (r : Nat) (x : Ctx) (c : Chip), ctxOf c r = some x →
    let v := x.quota - c.pool.slots.countP fun y => y.route == some r
    let sent := if c.link.up = .report then c.link.reports.take 1 else []
    let t := syncCredit r c
    (x.source ≠ .link ∨ x.creditGranted = some v → t = c) ∧
    (x.source = .link → x.creditGranted ≠ some v →
      ctxOf t r = some { x with creditGranted := some v } ∧ t.pool = c.pool ∧ t.store = c.store ∧
        (∀ q, q ≠ r → getRoute t q = getRoute c q) ∧
        ((∀ w, Report.credit r w ∉ c.link.reports.drop sent.length) → t.link.reports = c.link.reports ++ [.credit r v]) ∧
        (∀ before w rest, c.link.reports = sent ++ before ++ .credit r w :: rest → (∀ u, Report.credit r u ∉ before ++ rest) →
          t.link.reports = sent ++ before ++ .credit r v :: rest)))

/-- Other records, bytes and selects (R14, R18, R175 to R178): a skipped tag has no effect, a length above 600 drops the rest of the select, an
unknown directive is refused UNKNOWN; PAGE END clears overrun reported and on an open LINK route makes a page end, which places one mark with the
page's counts behind every queue's entries; the end of a select leaves no record in part downstream and gives back its slot. Bytes are exchanged
while LSEL is asserted: one at a time, those of a whole record that is no LINE do what its command does, a header with a length above 600 what
the framing error does, and fill sends an upstream record through; a LINE byte in its record goes to the lane; and where the last byte of a
report leaves 256 bytes free, the held directive is taken at that moment (R179). Of the two bytes of one exchange the model takes the upstream
one first, and so that directive before the byte downstream (notes/assumptions/62.md); that none is exchanged while the host cannot send is
its choice too (7.md). A LINE record that a release discards has no effect: its route is in OPEN again where the record took it out, and no
CREDIT OVERRUN comes (61.md, DEDUCED). -/
def Obligations.RecordsAndSelects : Prop :=
  (∀ (tag : Byte) (p : List Byte) (s : State), exec (.skippedTag tag p) s = .next s) ∧
  (∀ (tag : Byte) (length : Nat) (s : State), canTake s.chip = true → 600 < length →
    exec (.framingError tag length) s = .next (s.withChip ({ s.chip with link := { s.chip.link with parser := .discard } }))) ∧
  (∀ (tag : Byte) (p : List Byte) (s : State), Taken s →
    exec (.unknownDirective tag p) s = .next (s.withChip
        (refuse p .unknown (streamRules (.unknownDirective tag p) s.chip)))) ∧
  (∀ (r : Nat) (s : State), canTake s.chip = true → r ≤ 3 →
    let c := setRoute r { getRoute s.chip r with overrun := false } s.chip
    ((∀ x, ctxOf s.chip r = some x → x.source ≠ .link ∨ x.closeReq = true) →
      exec (.pageEnd [byteOf r]) s = .next (s.withChip c)) ∧
    (∀ x, ctxOf s.chip r = some x → x.source = .link → x.closeReq = false →
      exec (.pageEnd [byteOf r]) s = .next (s.withChip (settle r (pageEnd r false c))))) ∧
  (∀ (r : Nat) (cut : Bool) (x : Ctx) (c : Chip), ctxOf c r = some x →
    (x.linesDone = 0 → pageEnd r cut c = c) ∧
    (0 < x.linesDone → x.hold = [] → hasRoom x = true →
      ctxOf (pageEnd r cut c) r = some (({ x with linesDone := 0, repairedLines := 0, partialNext := false, marks := x.marks + 1 }).push
        (.mark ⟨x.marks, x.linesDone, x.repairedLines, cut, x.partialNext, none⟩)))) ∧
  (∀ (doce papx : Bool) (s : State),
    exec (.lselAssert doce papx []) s = .next (s.withChip ({ s.chip with link := { s.chip.link with selected := true } })) ∧
    (hostUp s.chip = false → ∀ bytes, exec (.lselAssert doce papx bytes) s = exec (.lselAssert doce papx []) s) ∧
    (∀ b bytes, ∃ t, exec (.lselAssert doce papx [b]) s = .next t ∧
      exec (.lselAssert doce papx (b :: bytes)) s = exec (.lselAssert doce papx bytes) t)) ∧
  (∀ (i : Instr) (tag : Byte) (p : List Byte) (s : State), i.wf = true → i.record = some (tag, p) → tag ≠ 0x01 → canTake s.chip = true →
    s.chip.link.up = .idle → s.chip.link.reports = [] → linkOutReady s.chip = false → s.chip.link.held = none → s.chip.link.cut = none →
    exec (.lselAssert i.statusLevels.1 i.statusLevels.2 (recordBytes tag p)) s = exec i s) ∧
  (∀ (doce papx : Bool) (tag low high : Byte) (s : State), canTake s.chip = true → s.chip.link.up = .idle → s.chip.link.reports = [] →
    linkOutReady s.chip = false → s.chip.link.held = none → s.chip.link.cut = none → tag ≠ 0 → 600 < low.toNat + 256 * high.toNat →
    exec (.lselAssert doce papx [tag, low, high]) s = exec (.framingError tag (low.toNat + 256 * high.toNat)) s) ∧
  (∀ (doce papx : Bool) (x : Report) (rest : List Report) (s : State), canTake s.chip = true → s.chip.link.up = .idle →
    s.chip.link.sent = 0 → s.chip.link.reports = x :: rest → s.chip.link.held = none → s.chip.link.cut = none →
    exec (.lselAssert doce papx (List.replicate x.bytes.length 0)) s = exec .reportRecordSent s) ∧
  (∀ (doce papx : Bool) (b : Byte) (i : Instr) (x : Report) (rest : List Report) (s : State), exchanging s.chip = true →
    s.chip.link.up = .report → s.chip.link.reports = x :: rest → s.chip.link.sent + 1 = x.bytes.length → s.chip.link.held = some i →
    let u := { s.chip with link := { s.chip.link with reports := rest, up := .idle, sent := 0, cut := none } }
    256 ≤ freeBytes u →
    ∃ t, exec (.heldDirectiveTaken doce papx) (s.withChip u) = .next t ∧
      (t.chip.link.parser.ended b = none → exec (.lselAssert doce papx [b]) s = .next (t.withChip (parserTake b t.chip)))) ∧
  (∀ (doce papx : Bool) (b : Byte) (n k : Nat) (s : State), exchanging s.chip = true → s.chip.link.up = .idle →
    s.chip.link.reports = [] → linkOutReady s.chip = false → s.chip.link.held = none → s.chip.link.cut = none →
    s.chip.link.parser = .payload 0x01 n k → k + 1 < n →
    exec (.lselAssert doce papx [b]) s = .next (s.withChip (setParser (.payload 0x01 n (k + 1)) (lineBytes k [b] s.chip)))) ∧
  (∀ (bits : List Bool) (s : State),
    let again := if exchanging s.chip = true ∧ bits ≠ [] ∧ s.chip.link.up = .idle then some (arbitrate s.chip) else s.chip.link.cut
    let c := { s.chip with linkIn := .idle, link := { s.chip.link with selected := false, parser := .between, cut := again } }
    ((∀ r n first f d, s.chip.linkIn ≠ .decoding r n first f d) → exec (.lselRelease bits) s = .next (s.withChip c)) ∧
    (∀ r n first f d x, s.chip.linkIn = .decoding r n first f d → ctxOf s.chip r = some x → x.closeReq = false →
      let back := setRoute r { getRoute s.chip r with ctx := some { x with begun := x.begun && !first } } c
      exec (.lselRelease bits) s = .next (s.withChip (settle r (returnSlot n back))))) ∧
  (∀ (r length : Nat) (x : Ctx) (more : List Byte) (s : State), canTake s.chip = true → r ≤ 3 → more.length + 1 < length → length ≤ 600 →
    ctxOf s.chip r = some x →
    ∃ t u, exec (.line length (byteOf r :: more)) s = .next t ∧ exec (.lselRelease []) t = .next u ∧ u.flash = s.flash ∧
      (acceptsLine s.chip r = false →
        u.chip = { s.chip with linkIn := .idle, link := { s.chip.link with selected := false, parser := .between } }) ∧
      (acceptsLine s.chip r = true → ∀ y, ctxOf u.chip r = some y → y.begun = x.begun))

/-- The upstream stream (R5, R15, R95, R175, R181, R183, R184): reports go before the link-out lane's record, a sent report leaves the queue, an
encoded line is ready, a sent line drops its reference and a sent page end serves its mark; the byte on LDO is the next of the record chosen, or
00h, and one that a release of LSEL cuts is sent again at the next select, whatever is queued in between; the attention pulse ends. The model's
choices: a cut fill byte is sent again before the commands that stand for records (notes/assumptions/62.md), and the start of an upstream record
has no effect with one in part or none ready (6.md). -/
def Obligations.UpstreamRecordsAreSentInOrder : Prop :=
  (∀ s : State, s.chip.link.up = .idle →
    (exchanging s.chip = true → s.chip.link.reports ≠ [] → s.chip.link.cut ≠ some .out ∨ linkOutReady s.chip = false →
      exec .upstreamRecordStart s = .next (s.withChip ({ s.chip with link := { s.chip.link with up := .report, sent := 1, cut := none } }))) ∧
    (exchanging s.chip = true → s.chip.link.reports = [] ∨ s.chip.link.cut = some .out → linkOutReady s.chip = true →
      exec .upstreamRecordStart s = .next (s.withChip ({ s.chip with link := { s.chip.link with up := .out, sent := 1, cut := none } }))) ∧
    (s.chip.link.reports = [] → linkOutReady s.chip = false → exec .upstreamRecordStart s = .next s)) ∧
  (∀ s : State, s.chip.link.up ≠ .idle ∨ exchanging s.chip = false → exec .upstreamRecordStart s = .next s) ∧
  (∀ c : Chip,
    (∀ x rest, c.link.up = .report ∨ (c.link.up = .idle ∧ c.link.cut ≠ some .idle ∧ (c.link.cut = some .out → linkOutReady c = false)) →
      c.link.reports = x :: rest → nextByteUp c = x.bytes.getD c.link.sent 0) ∧
    (c.link.up = .out ∨ (c.link.up = .idle ∧ linkOutReady c = true ∧
        (c.link.cut = some .out ∨ (c.link.cut ≠ some .idle ∧ c.link.reports = []))) →
      nextByteUp c = c.linkOut.bytes.getD c.link.sent 0) ∧
    (c.link.up = .idle → c.link.cut = some .idle ∨ (c.link.reports = [] ∧ linkOutReady c = false) → nextByteUp c = 0x00)) ∧
  (∀ (bits : List Bool) (s : State), exchanging s.chip = true → bits ≠ [] → (s.chip.link.up = .report → s.chip.link.reports ≠ []) →
    (∀ r n first f d, s.chip.linkIn ≠ .decoding r n first f d) →
    ∃ t, exec (.lselRelease bits) s = .next t ∧ ldoDriven t.chip = false ∧ nextByteUp t.chip = nextByteUp s.chip ∧
      (∀ x, nextByteUp (queueRecord x t.chip) = nextByteUp s.chip) ∧
      (∀ a b u, exec (.lselAssert a b []) t = .next u → nextByteUp u.chip = nextByteUp s.chip)) ∧
  (∀ s : State, exchanging s.chip = true → s.chip.link.up = .report →
    exec .reportRecordSent s = .next (s.withChip
        ({ s.chip with link := { s.chip.link with reports := s.chip.link.reports.drop 1, up := .idle, sent := 0, cut := none } }))) ∧
  (∀ (r : Nat) (e : LineEntry) (x : Coded) (s : State), s.chip.linkOut = .encoding r e x →
    ∃ t, exec .linkEncodeEnd s = .next t ∧ t.chip.linkOut = .line r e x ∧ linkOutReady t.chip = true ∧
      t.chip.backdrop = s.chip.backdrop ∧ t.chip.pool = s.chip.pool ∧ t.flash = s.flash) ∧
  (∀ s : State, exec .atnPulseEnd s = .next (s.withChip ({ s.chip with link := { s.chip.link with atnLeft := 0 } }))) ∧
  (∀ (r : Nat) (e : LineEntry) (x : Coded) (s : State), exchanging s.chip = true → s.chip.link.up = .out →
    s.chip.linkOut = .line r e x →
    exec .outboundLineSent s = .next (s.withChip (settle r (dropHead .link r
      { s.chip with linkOut := .idle, link := { s.chip.link with up := .idle, sent := 0, cut := none } })))) ∧
  (∀ (r tag : Nat) (s : State), exchanging s.chip = true → s.chip.link.up = .out → s.chip.linkOut = .pageEnd r tag →
    exec .outboundPageEndSent s = .next (s.withChip (settle r (serveMark .link r id
      { s.chip with linkOut := .idle, link := { s.chip.link with up := .idle, sent := 0, cut := none } })))) ∧
  (∀ (r n refs : Nat) (x : Ctx) (e : LineEntry) (rest : List Entry) (l : Line) (c : Chip), ctxOf c r = some x →
    x.linkQ = .line e :: rest → x.hold = [] → slotAt c e.slot = .held n refs l →
    slotAt (dropHead .link r c) e.slot = if refs ≤ 1 then .free else .held n (refs - 1) l) ∧
  (∀ (r : Nat) (x : Ctx) (m : Mark) (rest : List Entry) (c : Chip), ctxOf c r = some x → x.linkQ = .mark m :: rest →
    x.sinks = [.link] → x.hold = [] →
    (getRoute (serveMark .link r id c) r).pagesDone = min 65535 ((getRoute c r).pagesDone + 1) ∧
    ∃ y, ctxOf (serveMark .link r id c) r = some y ∧ y.linkQ = putMark m rest)

/-! ## The sheet, the motors and the head (chapters 2 to 4) -/

/-- Picks and starts (R26, R29, R37, R51, R55 to R58, R72, R73): a pick that is ready enters PICKING, or APPROACH where DOCE is asserted already,
with the line position 0; a start that passes drives its channel FULL from ramp index 0. A pick is ready with the route not HALTED, a document
present, the lamp reported on and the scan channel halted. The scan start rule is that of R56 but for the slots, which `reserveFor` asks for: the
coming periods that the forecast marks, as far as the channel reaches, counted at a line position above 0 from the next line start
(notes/assumptions/15.md, DEDUCED). The print start rule is that of R58, by the head entry: a mark starts its
tail feed; a line needs the coming burn's line loaded, or a mark in its place, and the periods of its lines or a mark behind them. That a
pick or a start whose rule does not hold has no effect on sheet and channels is the model's choice (6.md). -/
def Obligations.PicksAndStarts : Prop :=
  (∀ (r : Nat) (q : ScanParams) (doce : Bool) (s : State), pickReady s.chip = true → s.chip.scan.route = some r →
    scanParamsOf s.chip r = some q →
    ∃ t, exec (.pickStart doce) s = .next t ∧
      t.chip.scan = (if doce then
          { s.chip.scan with state := .approach, pickSteps := 0, pageSteps := 0, approach := some q.topOffset, asked := true }
        else { s.chip.scan with state := .picking, pickSteps := 0, approach := some (q.topOffset + 1), asked := true }) ∧
      t.chip.scanCh = { s.chip.scanCh with linePos := 0, rateReported := false } ∧ t.chip.printCh = s.chip.printCh ∧
      (∀ x, ctxOf t.chip r = some x → x.begun = true) ∧ t.chip.backdrop = s.chip.backdrop ∧ t.chip.pool = s.chip.pool ∧
      t.flash = s.flash) ∧
  (∀ (doce : Bool) (s : State), pickReady s.chip = false → exec (.pickStart doce) s = .next s) ∧
  (∀ (r : Nat) (therm : Byte) (s : State), scanMayStart s.chip = true → s.chip.scan.route = some r →
    (reserveFor r 0 s.chip).2 = true → s.chip.power.motor.isOn = true → s.chip.scan.state ≠ .tail →
    s.chip.scanCh.tail = none →
    ∃ t, exec (.channelStart .scan therm) s = .next t ∧ t.chip.scanCh.drive = .full ∧ t.chip.scanCh.k = 0 ∧
      (t.chip.scanCh.motion = .accelerating ∨ t.chip.scanCh.motion = .running) ∧ t.chip.backdrop = s.chip.backdrop ∧
      t.flash = s.flash) ∧
  (∀ (e : LineEntry) (rest : List Entry) (therm : Byte) (s : State), printDue s.chip = true →
    s.chip.power.motor.isOn = true → headEntries s.chip = .line e :: rest →
    ∃ t, exec (.channelStart .print therm) s = .next t ∧ t.chip.printCh.drive = .full ∧ t.chip.printCh.k = 0 ∧
      (t.chip.printCh.motion = .accelerating ∨ t.chip.printCh.motion = .running) ∧ t.chip.backdrop = s.chip.backdrop ∧
      t.flash = s.flash) ∧
  (∀ (therm : Byte) (s : State),
    (scanMayStart s.chip = false → exec (.channelStart .scan therm) s = .next (s.withChip (syncMotor s.chip))) ∧
    (printDue s.chip = false → exec (.channelStart .print therm) s = .next (s.withChip (syncMotor s.chip)))) ∧
  (∀ c : Chip, pickReady c = true ↔ c.scan.state = .waiting ∧ c.pins.docp = true ∧
    (c.power.lamp = .on ∨ ∃ n, c.power.lamp = .holding n) ∧ c.scanCh.motion = .halted ∧
    ∃ r x, c.scan.route = some r ∧ ctxOf c r = some x ∧ x.halt = none) ∧
  (∀ c : Chip, scanMayStart c = true ↔ c.scanCh.motion = .halted ∧ c.scan.asked = true ∧ c.scanCh.run ≠ none ∧
    (c.scan.state = .picking ∨ c.scan.state = .approach ∨ c.scan.state = .capturing ∨ c.scan.state = .tail) ∧
    ∃ r x, c.scan.route = some r ∧ ctxOf c r = some x ∧ x.halt = none) ∧
  (∀ (r : Nat) (x : Ctx) (p : RunParams) (c : Chip), PoolOk c.pool → ctxOf c r = some x → c.scanCh.run = some p →
    let n := 1 + ceilDiv (min p.steps p.r) p.steps
    let pos := c.scanCh.linePos
    let periods := match c.scan.state with
      | .capturing => n
      | .picking | .approach =>
          let a := c.scan.approach.getD 0
          n + 1 - if pos = 0 then 1 + ceilDiv a p.steps else max 1 (ceilDiv (a + pos) p.steps)
      | _ => 0
    (reserveFor r 0 c).2 = true ↔ periods ≤ x.reservations.length + min (x.quota - charged c r) c.pool.freeList.length) ∧
  (∀ c : Chip, c.runOut ≠ none ∨ c.head.route = none → printDue c = false) ∧
  (∀ (r : Nat) (x : Ctx) (h : HeadCopy) (p : RunParams) (c : Chip), c.runOut = none → c.head.route = some r → ctxOf c r = some x →
    c.head.copy = some h → c.printCh.run = some p →
    let loaded := fun e => c.head.shift = .loaded e
    (printDue c = true ↔ c.printCh.motion = .halted ∧ c.printCh.tail = none ∧ c.head.cut = .none ∧ x.halt = none ∧
      Stall.paperOut ∉ x.stalls ∧ (c.power.head = .on ∨ ∃ n, c.power.head = .holding n) ∧
      ((∃ m rest, x.printQ = .mark m :: rest) ∨
        ∃ e rest, x.printQ = .line e :: rest ∧
          (c.head.burns < h.copies ∧ loaded e ∨
            h.copies ≤ c.head.burns ∧ ((∃ m rest', rest = .mark m :: rest') ∨ ∃ e' rest', rest = .line e' :: rest' ∧ loaded e')) ∧
          ((∃ m, Entry.mark m ∈ rest) ∨
            1 + ceilDiv (min p.steps p.r) p.steps ≤ h.copies - c.head.burns + h.copies * rest.length))))

/-- Steps, decisions, the sheet cycle and holds (R48, R52 to R55, R57, R59). A step moves its channel's phase one place on, the ramp index as the step under way
says and the line position round its s steps; a stop cause recorded decelerates the channel then; and the interval that begins is the one R52
gives, in a tail feed the one R59 gives. At a line start the scan channel asks for a slot of every capturing period in its reach, and decelerates
DENIED where one is denied, at index 0 with no capture; the print channel begins the head line's burn where the lookahead reaches, decelerates
DENIED where it does not, at index 0 with no burn, and begins a tail feed at a page mark; where the burns of the head line are all begun, its
reference drops first and the line leaves the queue (R5, R74); with an empty queue behind it the channel decelerates DENIED or halts, which is
the model's choice (notes/assumptions/71.md). A tail feed ends with the halt at its last step, whatever cause was recorded
(notes/assumptions/23.md): the line position is 0 and the cutter pulses (R79). The end of a standstill hold turns the drive OFF. That the step
which halts a channel takes no line start is deduced (16.md), and that a step of a channel at rest has no effect is the model's choice (6.md).
A step of the scan channel counts pick steps or page steps and, with DOCE read after it, brings the leading edge, the approach counted down to
the capture of the first line start at 0 (R27, R28), the trailing edge with its reservations returned and its page end, once no capture is in
progress (R14, R35), or a scan jam, whose page ends TRUNCATED and whose route is HALTED (JAM) with JAM queued (R39); the line starts in TAIL
feed the tail lines, then stop the channel (R36), and its halt brings the end-of-sheet decision (R37), which for a next sheet sets the scan run to
WAITING, where the pick begins, though its route has begun (18.md, DEDUCED). -/
def Obligations.StepsMoveOnePhase : Prop :=
  (∀ (ch : ChannelId) (doce : Bool) (therm : Byte) (p : RunParams) (s : State),
    let of := fun c : Chip => match ch with | .scan => c.scanCh | .print => c.printCh
    let other := fun c : Chip => match ch with | .scan => c.printCh.phase | .print => c.scanCh.phase
    let x := of s.chip
    x.moving = true →
    ∃ t, exec (.motorStep ch doce therm) s = .next t ∧ (of t.chip).phase = (x.phase + 1) % 8 ∧
      other t.chip = other s.chip ∧ t.chip.loaded = s.chip.loaded ∧ t.chip.prot = s.chip.prot ∧ t.chip.boot = s.chip.boot ∧
      t.flash = s.flash ∧
      (of t.chip).k = (match x.mode with | .up => x.k + 1 | .level => x.k | .down => x.k - 1) ∧
      (x.run = some p → (of t.chip).moving = true → (of t.chip).linePos = if p.steps ≤ x.linePos + 1 then 0 else x.linePos + 1) ∧
      (x.cause.isSome = true → (of t.chip).motion = .decelerating ∨ (of t.chip).motion = .halted) ∧
      ((of t.chip).moving = true → (of t.chip).plan = of t.chip)) ∧
  (∀ (ch : Channel) (p : RunParams), ch.run = some p →
    (ch.motion = .decelerating → ch.plan = { ch with mode := .down, left := ch.ramp.getD (ch.k - 1) 0 }) ∧
    (ch.motion = .accelerating → ch.tail = none → ch.plan = { ch with mode := .up, left := ch.ramp.getD ch.k 0 }) ∧
    (ch.motion = .running → ch.tail = none → ch.plan =
      { ch with mode := .level, left := if ch.linePos + 1 = p.steps then p.u + p.period % p.steps else p.u }) ∧
    (∀ m, ch.tail = some m → ch.motion = .accelerating ∨ ch.motion = .running ∧ ch.k = p.r →
      (m = ch.k → ch.plan = { ch with
        motion := .decelerating, cause := some .tail, mode := .down, left := ch.ramp.getD (ch.k - 1) 0 }) ∧
      (m ≠ ch.k → ch.k < p.r → ch.k + 2 ≤ m → ch.plan = { ch with mode := .up, left := ch.ramp.getD ch.k 0 }) ∧
      (m ≠ ch.k → ch.k = p.r ∨ m < ch.k + 2 → ch.plan =
        { ch with mode := .level, left := if ch.k = p.r then p.u else ch.ramp.getD ch.k 0 }))) ∧
  (∀ (r : Nat) (x : Ctx) (p : RunParams) (q : ScanParams) (therm : Byte) (s : State), PoolOk s.chip.pool →
    s.chip.scan.state = .capturing → s.chip.scan.route = some r → s.chip.scanCh.route = some r → ctxOf s.chip r = some x →
    x.scanP = some q → s.chip.scan.pageSteps + 1 < q.maxSteps → s.chip.scanCh.run = some p → s.chip.scanCh.cause = none →
    s.chip.scanCh.tail = none → s.chip.scanCh.motion = .accelerating ∨ s.chip.scanCh.motion = .running →
    p.steps ≤ s.chip.scanCh.linePos + 1 →
    let k := s.chip.scanCh.step.1.k
    let need := 1 + ceilDiv (min (k + p.steps) p.r) p.steps
    let reach := x.reservations.length + min (x.quota - charged s.chip r) s.chip.pool.freeList.length
    ∃ t, exec (.motorStep .scan true therm) s = .next t ∧
      (need ≤ reach → (t.chip.scanCh.motion = .accelerating ∨ t.chip.scanCh.motion = .running) ∧ t.chip.scanCh.cause = none ∧
        ∃ n, (x.reservations ++ s.chip.pool.freeList).head? = some n ∧
          t.chip.scan.capture = some (if 256 ≤ s.chip.scan.acc + q.q then .keep n x.linesDone else .drop)) ∧
      (reach < need → 0 < k → t.chip.scanCh.motion = .decelerating ∧ t.chip.scanCh.cause = some .denied) ∧
      (reach < need → k = 0 → t.chip.scanCh.motion = .halted ∧ t.chip.scanCh.linePos = 0 ∧ t.chip.scan.capture = s.chip.scan.capture)) ∧
  (∀ (r : Nat) (x : Ctx) (p : RunParams) (h : HeadCopy) (doce : Bool) (therm : Byte) (s : State), s.chip.head.route = some r →
    s.chip.runOut = none → ctxOf s.chip r = some x → s.chip.printCh.run = some p → s.chip.printCh.cause = none →
    s.chip.printCh.tail = none → s.chip.head.copy = some h → s.chip.head.burns < h.copies →
    s.chip.printCh.motion = .accelerating ∨ s.chip.printCh.motion = .running → p.steps ≤ s.chip.printCh.linePos + 1 →
    let k := s.chip.printCh.step.1.k
    let need := 1 + ceilDiv (min (k + p.steps) p.r) p.steps
    ∃ t, exec (.motorStep .print doce therm) s = .next t ∧
      (∀ e rest, x.printQ = .line e :: rest →
        let lines := (rest.takeWhile fun y => match y with | .line _ => true | .mark _ => false).length
        let passes := need ≤ h.copies - s.chip.head.burns + h.copies * lines ∨ ∃ m, Entry.mark m ∈ rest
        (passes → (t.chip.printCh.motion = .accelerating ∨ t.chip.printCh.motion = .running) ∧ t.chip.printCh.cause = none ∧
          t.chip.head.latch = some e ∧ t.chip.head.burns = s.chip.head.burns + 1) ∧
        (¬passes → 0 < k → t.chip.printCh.motion = .decelerating ∧ t.chip.printCh.cause = some .denied ∧
          t.chip.head.latch = some e ∧ t.chip.head.burns = s.chip.head.burns + 1) ∧
        (¬passes → k = 0 → t.chip.printCh.motion = .halted ∧ t.chip.printCh.linePos = 0 ∧ t.chip.head.latch = s.chip.head.latch ∧
          t.chip.head.burns = s.chip.head.burns)) ∧
      (∀ m rest y, x.printQ = .mark m :: rest → x.printP = some y → 0 < k + y.tailFeed →
        t.chip.printCh.tail = some y.tailFeed ∧ t.chip.head.latch = s.chip.head.latch)) ∧
  (∀ (r n refs : Nat) (x : Ctx) (e0 : LineEntry) (rest : List Entry) (l : Line) (p : RunParams) (h : HeadCopy) (doce : Bool) (therm : Byte)
    (s : State), s.chip.head.route = some r → s.chip.runOut = none → ctxOf s.chip r = some x → s.chip.printCh.run = some p →
    s.chip.printCh.cause = none → s.chip.printCh.tail = none → s.chip.head.copy = some h → h.copies ≤ s.chip.head.burns →
    s.chip.printCh.motion = .accelerating ∨ s.chip.printCh.motion = .running → p.steps ≤ s.chip.printCh.linePos + 1 →
    x.printQ = .line e0 :: rest → x.hold = [] → slotAt s.chip e0.slot = .held n refs l →
    let k := s.chip.printCh.step.1.k
    let need := 1 + ceilDiv (min (k + p.steps) p.r) p.steps
    let lines := (rest.takeWhile fun y => match y with | .line _ => true | .mark _ => false).length
    let passes := need ≤ h.copies * lines ∨ ∃ m, Entry.mark m ∈ rest
    ∃ t, exec (.motorStep .print doce therm) s = .next t ∧
      (x.sinks = [.print] → (slotAt t.chip e0.slot = if refs ≤ 1 then .free else .held n (refs - 1) l) ∧
        ∀ y, ctxOf t.chip r = some y → y.printQ = rest) ∧
      (∀ e rest', rest = .line e :: rest' →
        (passes → (t.chip.printCh.motion = .accelerating ∨ t.chip.printCh.motion = .running) ∧ t.chip.printCh.cause = none ∧
          t.chip.head.latch = some e ∧ t.chip.head.burns = 1) ∧
        (¬passes → 0 < k → t.chip.printCh.motion = .decelerating ∧ t.chip.printCh.cause = some .denied ∧
          t.chip.head.latch = some e ∧ t.chip.head.burns = 1) ∧
        (¬passes → k = 0 → t.chip.printCh.motion = .halted ∧ t.chip.printCh.linePos = 0 ∧ t.chip.head.latch = s.chip.head.latch ∧
          t.chip.head.burns = 0)) ∧
      (∀ m rest' y, rest = .mark m :: rest' → x.printP = some y → 0 < k + y.tailFeed →
        t.chip.printCh.tail = some y.tailFeed ∧ t.chip.head.latch = s.chip.head.latch ∧ t.chip.head.burns = 0) ∧
      (rest = [] → 0 < k → t.chip.printCh.motion = .decelerating ∧ t.chip.printCh.cause = some .denied) ∧
      (rest = [] → k = 0 → t.chip.printCh.motion = .halted ∧ t.chip.printCh.linePos = 0)) ∧
  (∀ (r : Nat) (x : Ctx) (m : Mark) (rest : List Entry) (doce : Bool) (therm : Byte) (s : State), s.chip.head.route = some r →
    s.chip.runOut = none → ctxOf s.chip r = some x → x.printQ = .mark m :: rest → s.chip.printCh.motion = .decelerating →
    s.chip.printCh.mode = .down → s.chip.printCh.k = 1 → s.chip.printCh.tail = some 1 →
    ∃ t, exec (.motorStep .print doce therm) s = .next t ∧ t.chip.printCh.motion = .halted ∧ t.chip.printCh.drive = .hold ∧
      t.chip.printCh.tail = none ∧ t.chip.printCh.linePos = 0 ∧ t.chip.head.cut = .pulse ∧ t.chip.head.cutTime = some 0) ∧
  (∀ (r : Nat) (x : Ctx) (p : RunParams) (q : ScanParams) (doce : Bool) (therm : Byte) (s : State),
    s.chip.scanCh.moving = true → s.chip.scanCh.run = some p → s.chip.scan.route = some r → ctxOf s.chip r = some x →
    x.source = .scan → x.scanP = some q →
    let sc := s.chip.scan
    let mid := s.chip.scanCh.linePos + 1 < p.steps
    let onSheet := sc.state = .approach ∨ sc.state = .capturing
    let paged := fun cut : Bool => Entry.mark
      { tag := x.marks, lines := x.linesDone, repaired := x.repairedLines, truncated := cut, isPartial := x.partialNext, pageId := none }
    let closed := { x with linesDone := 0, repairedLines := 0, partialNext := false, marks := x.marks + 1 }
    ∃ m, exec (.motorStep .scan doce therm) s = .next (s.withChip (settle r m)) ∧ m.pins = { s.chip.pins with doce := doce } ∧
      (sc.state = .picking → doce = true → mid ∨ 0 < q.topOffset →
        m.scan = { sc with state := .approach, pickSteps := sc.pickSteps + 1, pageSteps := 0, approach := some q.topOffset }) ∧
      (sc.state = .picking → doce = false → sc.pickSteps + 1 < q.pickLimit → m.scan = { sc with pickSteps := sc.pickSteps + 1 }) ∧
      (∀ a, sc.state = .approach → sc.approach = some a → doce = true → sc.pageSteps + 1 < q.maxSteps → mid ∨ 1 < a →
        m.scan = { sc with pageSteps := sc.pageSteps + 1, approach := some (a - 1) }) ∧
      (sc.state = .capturing → doce = true → sc.pageSteps + 1 < q.maxSteps → mid →
        m.scan = { sc with pageSteps := sc.pageSteps + 1 }) ∧
      (sc.state = .tail → mid → m.scan = sc) ∧
      (onSheet → doce = false → mid →
        m.scan = { sc with
          state := .tail, pageSteps := sc.pageSteps + 1, approach := none, tailRem := some q.tailLines,
          pageEndDue := sc.capture.isSome } ∧
        (∀ n ∈ x.reservations, slotAt m n = .free) ∧
        (sc.capture ≠ none ∨ x.linesDone = 0 → ctxOf m r = some { x with reservations := [] }) ∧
        (sc.capture = none → 0 < x.linesDone → x.hold = [] → hasRoom x = true →
          ctxOf m r = some ({ closed with reservations := [] }.push (paged false))) ∧
        (sc.capture = none → 0 < x.linesDone → x.hold ≠ [] ∨ hasRoom x = false →
          ctxOf m r = some { closed with reservations := [], hold := x.hold ++ [paged false] })) ∧
      (sc.state = .picking ∧ doce = false ∧ q.pickLimit ≤ sc.pickSteps + 1 ∨
          onSheet ∧ doce = true ∧ q.maxSteps ≤ sc.pageSteps + 1 →
        sc.rearmed = false → sc.pageEndDue = false → (∀ n row, sc.capture = some (.keep n row) → (slotAt s.chip n).route = some r) →
        (∀ n ∈ x.reservations, (slotAt s.chip n).route = some r) →
        m.scan.state = .jammed ∧ m.scan.capture = none ∧ m.scan.lampUse = sc.lampUse ∧
        (∀ n row, sc.capture = some (.keep n row) → slotAt m n = .free) ∧
        (m.scanCh.motion = .decelerating ∨ m.scanCh.motion = .halted) ∧
        (s.chip.scanCh.motion ≠ .decelerating → s.chip.scanCh.cause = none → m.scanCh.motion = .decelerating →
          m.scanCh.cause = some .jam) ∧
        (256 ≤ freeBytes s.chip → m.link.reports = s.chip.link.reports ++ [.event (.jam .scan r)]) ∧
        ∃ y, ctxOf m r = some y ∧ y.halt = some .jam ∧
          (sc.state = .picking ∨ x.linesDone = 0 → y = { x with halt := some .jam, reservations := y.reservations }) ∧
          (onSheet → 0 < x.linesDone → x.hold = [] → hasRoom x = true →
            y = { closed.push (paged true) with halt := some .jam, reservations := y.reservations }) ∧
          (onSheet → 0 < x.linesDone → x.hold ≠ [] ∨ hasRoom x = false →
            y = { closed with hold := x.hold ++ [paged true], halt := some .jam, reservations := y.reservations }) ∧
          (y.reservations = if m.scanCh.motion = .halted then [] else x.reservations)) ∧
      (s.chip.scanCh.motion = .accelerating ∨ s.chip.scanCh.motion = .running → s.chip.scanCh.cause = none →
        s.chip.scanCh.tail = none → s.chip.scanCh.route = some r → ¬mid →
        let k := s.chip.scanCh.step.1.k
        let need := 1 + ceilDiv (min (k + p.steps) p.r) p.steps
        let reach := x.reservations.length + min (x.quota - charged s.chip r) s.chip.pool.freeList.length;
        (doce = true → (sc.state = .picking ∧ q.topOffset = 0) ∨
            (sc.state = .approach ∧ sc.pageSteps + 1 < q.maxSteps ∧ (sc.approach = some 0 ∨ sc.approach = some 1)) →
          m.scan.state = .capturing ∧ m.scan.approach = none ∧
            m.scan.pageSteps = (if sc.state = .picking then 0 else sc.pageSteps + 1) ∧
            (PoolOk s.chip.pool → need ≤ reach → ∃ n, (x.reservations ++ s.chip.pool.freeList).head? = some n ∧
              m.scan.capture = some (if 256 ≤ q.q then .keep n x.linesDone else .drop) ∧
              m.scan.acc = if 256 ≤ q.q then q.q - 256 else q.q)) ∧
        (∀ n, sc.state = .tail → sc.tailRem = some (n + 1) → m.scan = { sc with tailRem := some n } ∧
          m.scanCh.motion ≠ .decelerating) ∧
        (sc.state = .tail → sc.tailRem = some 0 → 0 < k →
          m.scan = { sc with state := .runout, tailRem := none, asked := false } ∧
          m.scanCh.motion = .decelerating ∧ m.scanCh.cause = some .stop)) ∧
      (sc.state = .runout → s.chip.scanCh.motion = .decelerating → s.chip.scanCh.mode = .down → s.chip.scanCh.k = 1 →
        x.reservations = [] →
        m.scanCh.motion = .halted ∧ m.scanCh.drive = .hold ∧ m.pool = s.chip.pool ∧
        (x.closeReq = false → q.multi = true → s.chip.pins.docp = true →
          m.scan = { sc with state := .waiting } ∧ ctxOf m r = some x ∧ m.link = s.chip.link) ∧
        (x.closeReq = true ∨ q.multi = false ∨ s.chip.pins.docp = false →
          m.scan = { sc with state := .ended, approach := none, lampUse := false } ∧ ctxOf m r = some { x with closeReq := true } ∧
          (x.closeReq = true ∨ s.chip.pins.docp = true → m.link = s.chip.link) ∧
          (x.closeReq = false → s.chip.pins.docp = false → 256 ≤ freeBytes s.chip →
            m.link.reports = s.chip.link.reports ++ [.event (.feederEmpty r)])))) ∧
  (∀ (doce : Bool) (therm : Byte) (s : State),
    (s.chip.scanCh.moving = false → exec (.motorStep .scan doce therm) s = .next s) ∧
    (s.chip.printCh.moving = false → exec (.motorStep .print doce therm) s = .next s)) ∧
  (∀ s : State,
    (s.chip.scanCh.motion = .halted → s.chip.scanCh.drive = .hold →
      ∃ t, exec (.holdExpiry .scan) s = .next t ∧ t.chip.scanCh = { s.chip.scanCh with drive := .off, holdLeft := 0 } ∧
        t.chip.printCh = s.chip.printCh ∧ t.chip.backdrop = s.chip.backdrop ∧ t.chip.pool = s.chip.pool ∧
        t.flash = s.flash) ∧
    (s.chip.printCh.motion = .halted → s.chip.printCh.drive = .hold →
      ∃ t, exec (.holdExpiry .print) s = .next t ∧ t.chip.printCh = { s.chip.printCh with drive := .off, holdLeft := 0 } ∧
        t.chip.scanCh = s.chip.scanCh ∧ t.chip.backdrop = s.chip.backdrop ∧ t.chip.pool = s.chip.pool ∧
        t.flash = s.flash))

/-- The end of a capture and the completion of a fill (R4, R14, R30): the kept line is the corrected, toned and bilevel line of its samples;
where the hold is empty and every queue has room its entry is the last of every sink queue with the page's next number, and its slot is HELD
with one reference for each sink; else the entry waits in the hold. The first line of a page queues PAGE START, and the 65,535th brings behind it
the mark of a TRUNCATED page end (R4); where the LINK-out lane is idle, a LINK sink takes the line into work at once (R95). A line that scaling drops leaves nothing, and a page end that waited for
the capture is made behind it (R34, R35). That the command has no effect without a capture is the model's choice (notes/assumptions/6.md). -/
def Obligations.CapturedLinesAreQueued : Prop :=
  (∀ (r n row : Nat) (q : ScanParams) (samples : List Byte) (s : State), s.chip.scan.capture = some (.keep n row) →
    s.chip.scan.route = some r → scanParamsOf s.chip r = some q →
    let c := { s.chip with scan := { s.chip.scan with capture := none, captureLeft := 0, pageEndDue := false } }
    let filled := fillComplete r n (scanLine s.chip.tables q row samples) false c
    let plain := fun l : List Report => l.filter fun e => match e with | .credit _ _ => false | _ => true
    (s.chip.scan.pageEndDue = false → exec (.captureEnd samples) s = .next (s.withChip (settle r filled))) ∧
    (s.chip.scan.pageEndDue = true → exec (.captureEnd samples) s = .next (s.withChip (settle r (pageEnd r false filled)))) ∧
    (∀ x, ctxOf s.chip r = some x → x.linesDone = 0 → 256 ≤ freeBytes s.chip →
      ∃ t old more, exec (.captureEnd samples) s = .next t ∧ t.chip.link.reports = old ++ .event (.pageStart r) :: more ∧
        plain old = plain s.chip.link.reports) ∧
    (∀ x, ctxOf s.chip r = some x → x.sinks = [.link] ∨ x.sinks = [.print, .link] → x.linkQ = [] → x.hold = [] → hasRoom x = true →
      (∃ o, slotAt s.chip n = .filling r o) → s.chip.linkOut = .idle → routeOfSink s.chip .link = some r →
      x.linesDone + 1 ≠ 65535 → x.closeReq = false → s.chip.scan.pageEndDue = false →
      let e : LineEntry := ⟨n, x.linesDone, false⟩
      let coded := encodeFor x.encoding (scanLine s.chip.tables q row samples)
      ∃ t, exec (.captureEnd samples) s = .next t ∧
        t.chip.linkOut = if x.encoding = some .run then .encoding r e coded else .line r e coded)) ∧
  (∀ (r : Nat) (samples : List Byte) (s : State), s.chip.scan.capture = some .drop → s.chip.scan.route = some r →
    let c := { s.chip with scan := { s.chip.scan with capture := none, captureLeft := 0, pageEndDue := false } }
    (s.chip.scan.pageEndDue = false → exec (.captureEnd samples) s = .next (s.withChip (settle r c))) ∧
    (s.chip.scan.pageEndDue = true → exec (.captureEnd samples) s = .next (s.withChip (settle r (pageEnd r false c))))) ∧
  (∀ (samples : List Byte) (s : State), s.chip.scan.capture = none → exec (.captureEnd samples) s = .next s) ∧
  (∀ (r n : Nat) (l l' : Line) (repaired : Bool) (x : Ctx) (c : Chip), ctxOf c r = some x →
    (∃ o, slotAt c n = .filling r o) ∨ slotAt c n = .held r 1 l' →
    let counted := { x with linesDone := x.linesDone + 1, repairedLines := x.repairedLines + if repaired then 1 else 0 }
    let line : Entry := .line ⟨n, x.linesDone, repaired⟩
    let cut : Entry := .mark { tag := x.marks, lines := 65535, repaired := counted.repairedLines, truncated := true,
                               isPartial := x.partialNext, pageId := none }
    let ended := fun y : Ctx => { y with linesDone := 0, repairedLines := 0, partialNext := false, marks := x.marks + 1 }
    let t := fillComplete r n l repaired c
    (x.hold = [] → hasRoom x = true → slotAt t n = .held r x.sinks.length l ∧
      (x.linesDone + 1 ≠ 65535 → ctxOf t r = some (counted.push line)) ∧
      (x.linesDone + 1 = 65535 → ctxOf t r = some (if hasRoom (counted.push line) then (ended (counted.push line)).push cut
        else { ended (counted.push line) with hold := [cut] }))) ∧
    (x.hold ≠ [] ∨ hasRoom x = false → slotAt t n = .filling r (some l) ∧
      (x.linesDone + 1 ≠ 65535 → ctxOf t r = some { counted with hold := x.hold ++ [line] }) ∧
      (x.linesDone + 1 = 65535 → ctxOf t r = some { ended counted with hold := x.hold ++ [line, cut] })) ∧
    (0 < x.linesDone → t.link = c.link) ∧
    (x.linesDone = 0 → 256 ≤ freeBytes c → t.link.reports = c.link.reports ++ [.event (.pageStart r)]) ∧
    (x.linesDone = 0 → freeBytes c < 256 → t.link = { c.link with eventsLost := true }) ∧
    (∀ k, k ≠ n → slotAt t k = slotAt c k) ∧ t.pool.freeList = c.pool.freeList ∧ t.store = c.store)

/-- The head and the cutter (R15, R65, R72, R74 to R77, R79, R80): the end of a load, of a strobe and of the cutter pulse; a clear exit ends the
cut and serves the mark, with PAGE DONE where PRINT is the only sink; an exit still covered leaves the mark waiting with its route HALTED
(JAM), reported anew unless it was HALTED (JAM) before; and the burn that a start begins latches the head line, sets the band by the
thermistor and the strobe time by band, density and cap, and strobes the groups of 432 dots that hold a black one, in order. That the ends
of a load, a strobe and a cutter pulse do nothing where none is under way is the model's choice (notes/assumptions/6.md). -/
def Obligations.HeadRunsItsBurnsAndCuts : Prop :=
  (∀ (e : LineEntry) (s : State), s.chip.head.shift = .loading e →
    ∃ t, exec .headLoadEnd s = .next t ∧ t.chip.head = { s.chip.head with shift := .loaded e, loadLeft := 0 } ∧
      t.chip.backdrop = s.chip.backdrop ∧ t.chip.pool = s.chip.pool ∧ t.chip.routes = s.chip.routes ∧ t.flash = s.flash) ∧
  (∀ (x : Nat × Nat) (s : State), s.chip.head.strobe = some x →
    (s.chip.head.groups = [] →
      exec .strobeEnd s = .next (s.withChip ({ s.chip with head := { s.chip.head with strobe := none } }))) ∧
    (∀ g gs time, s.chip.head.groups = g :: gs → s.chip.head.strobeTime = some time →
      exec .strobeEnd s = .next (s.withChip
        ({ s.chip with head := { s.chip.head with strobe := some (g, time), groups := gs } })))) ∧
  (∀ s : State, s.chip.head.cut = .pulse →
    exec .cutterPulseEnd s = .next (s.withChip ({ s.chip with head := { s.chip.head with cut := .judging } }))) ∧
  (∀ (r : Nat) (s : State), s.chip.head.cut = .judging → s.chip.head.route = some r →
    (∃ t, exec (.cutJudgement false) s = .next t ∧ t.chip.head.cut = .none ∧ t.chip.pins.papx = false ∧
      t.chip.backdrop = s.chip.backdrop ∧ t.flash = s.flash) ∧
    (∀ x m rest, ctxOf s.chip r = some x → x.printQ = .mark m :: rest → x.sinks = [.print] → x.hold = [] →
      ∃ t, exec (.cutJudgement false) s = .next t ∧ (∀ y, ctxOf t.chip r = some y → y.printQ = putMark m rest) ∧
        (getRoute t.chip r).pagesDone = min 65535 ((getRoute s.chip r).pagesDone + 1) ∧
        (256 ≤ freeBytes s.chip → ∃ more, t.chip.link.reports =
          s.chip.link.reports ++ .event (.pageDone r m.lines m.repaired m.truncated m.isPartial m.pageId) :: more) ∧
        t.chip.head.heatReported = false ∧ t.chip.printCh.rateReported = false) ∧
    (∃ t, exec (.cutJudgement true) s = .next t ∧ t.chip.head.cut = .waiting ∧ t.chip.pins.papx = true ∧
      (∀ x, ctxOf s.chip r = some x → ctxOf t.chip r = some { x with halt := some .jam } ∧
        (freeBytes s.chip < 256 → (getRoute t.chip r).haltReported =
          ((getRoute s.chip r).haltReported && decide (x.halt = some .jam)))) ∧
      t.chip.backdrop = s.chip.backdrop ∧ t.chip.pool = s.chip.pool ∧ t.flash = s.flash)) ∧
  (∀ s : State, s.chip.head.shift = .empty → s.chip.head.strobe = none → s.chip.head.cut = .none →
    exec .headLoadEnd s = .next s ∧ exec .strobeEnd s = .next s ∧ exec .cutterPulseEnd s = .next s) ∧
  (∀ (e : LineEntry) (rest : List Entry) (k : HeadCopy) (therm : Byte) (s : State), printDue s.chip = true →
    s.chip.power.motor.isOn = true → s.chip.printCh.linePos = 0 → headEntries s.chip = .line e :: rest → s.chip.head.copy = some k →
    let band := s.chip.heat.thresholds.countP fun x => decide (x ≤ therm.toNat)
    let time := min (clamp 100 4000 (s.chip.heat.times.getD band 0 * k.density / 16)) ((k.period - 100) / 4)
    ∃ t, exec (.channelStart .print therm) s = .next t ∧ t.chip.head.latch = some e ∧ t.chip.head.burns = s.chip.head.burns + 1 ∧
      t.chip.head.band = band ∧ t.chip.pins.therm = therm ∧ t.chip.head.strobeTime = some time ∧
      (∀ n refs l, slotAt s.chip e.slot = .held n refs l →
        let black := fun g => ∃ d, 432 * g ≤ d ∧ d < 432 * g + 432 ∧ l.getD d false = true
        let groups := (match t.chip.head.strobe with | some y => [y.1] | none => []) ++ t.chip.head.groups
        groups.Sublist [0, 1, 2, 3] ∧ (∀ g, g < 4 → (g ∈ groups ↔ black g)) ∧ ∀ y, t.chip.head.strobe = some y → y.2 = time))

/-- Interlock and paper (R63 to R65, R82, R83): a trip outside SLEEP leaves both channels TRIPPED with drive OFF and every route that uses SCAN
or PRINT HALTED (INTERLOCK), and INTERLOCK OPEN is queued, which reports those halts; a closed cover queues INTERLOCK CLOSED and leaves no
channel TRIPPED where no route is so halted; paper out queues PAPER OUT with the route that prints, which it stalls, and paper in queues PAPER IN
with it and ends that stall. Each event stands behind the records that waited, CREDIT records apart, and where it finds no room events lost is set. That each only moves its pin while the main clock is stopped, in SLEEP and in WAKING before it runs, is
deduced from R158 (notes/assumptions/12.md). -/
def Obligations.InterlockAndPaper : Prop :=
  let plain := fun l : List Report => l.filter fun e => match e with | .credit _ _ => false | _ => true
  let queued := fun (e : Event) (c t : Chip) =>
    (256 ≤ freeBytes c → ∃ old more, t.link.reports = old ++ .event e :: more ∧ plain old = plain c.link.reports) ∧
    (freeBytes c < 256 → t.link.eventsLost = true)
  (∀ s : State, s.chip.power.clockOn = true →
    ∃ t, exec .interlockTrip s = .next t ∧ t.chip.pins.cover = false ∧ t.chip.scanCh.motion = .tripped ∧
      t.chip.printCh.motion = .tripped ∧ t.chip.scanCh.drive = .off ∧ t.chip.printCh.drive = .off ∧
      t.chip.scanCh.phase = s.chip.scanCh.phase ∧ t.chip.printCh.phase = s.chip.printCh.phase ∧ t.chip.runOut = none ∧
      (∀ r x, r < 4 → ctxOf t.chip r = some x → x.usesMotor = true → x.halt = some .interlock) ∧
      (300 ≤ freeBytes s.chip → Report.event .interlockOpen ∈ t.chip.link.reports ∧
        ∀ r x, r < 4 → ctxOf t.chip r = some x → x.usesMotor = true → (getRoute t.chip r).haltReported = true) ∧
      (s.chip.runOut = none → s.chip.scan.capture = none → s.chip.scan.route = none → 256 ≤ freeBytes s.chip →
        ∃ old more, t.chip.link.reports = old ++ .event .interlockOpen :: more ∧ plain old = plain s.chip.link.reports) ∧
      (freeBytes s.chip < 256 → t.chip.link.eventsLost = true) ∧
      t.chip.loaded = s.chip.loaded ∧ t.flash = s.flash) ∧
  (∀ s : State, s.chip.power.clockOn = true →
    (∃ t, exec .coverClose s = .next t ∧ queued .interlockClosed s.chip t.chip) ∧
    (∃ t, exec .paperOut s = .next t ∧ queued (.paperOut (routeOfSink s.chip .print)) s.chip t.chip) ∧
    (∃ t, exec .paperIn s = .next t ∧ queued (.paperIn (routeOfSink s.chip .print)) s.chip t.chip)) ∧
  (∀ s : State, s.chip.power.clockOn = true → (∀ r x, ctxOf s.chip r = some x → x.halt ≠ some .interlock) →
    ∃ t, exec .coverClose s = .next t ∧ t.chip.pins.cover = true ∧ t.chip.scanCh.motion ≠ .tripped ∧
      t.chip.printCh.motion ≠ .tripped ∧ t.chip.loaded = s.chip.loaded ∧ t.flash = s.flash) ∧
  (∀ s : State, s.chip.power.clockOn = true →
    ∃ t, exec .paperOut s = .next t ∧ t.chip.pins.papp = false ∧ t.chip.head.paper = false ∧
      (∀ r x, routeOfSink s.chip .print = some r → ctxOf t.chip r = some x → Stall.paperOut ∈ x.stalls) ∧
      t.chip.loaded = s.chip.loaded ∧ t.flash = s.flash) ∧
  (∀ s : State, s.chip.power.clockOn = true →
    ∃ t, exec .paperIn s = .next t ∧ t.chip.pins.papp = true ∧ t.chip.head.paper = true ∧
      (∀ r x, routeOfSink s.chip .print = some r → ctxOf t.chip r = some x → Stall.paperOut ∉ x.stalls) ∧
      t.chip.loaded = s.chip.loaded ∧ t.flash = s.flash) ∧
  (∀ s : State, s.chip.power.clockOn = false →
    exec .interlockTrip s = .next (s.withChip ({ s.chip with pins := { s.chip.pins with cover := false } })) ∧
    exec .coverClose s = .next (s.withChip ({ s.chip with pins := { s.chip.pins with cover := true } })) ∧
    exec .paperOut s = .next (s.withChip ({ s.chip with pins := { s.chip.pins with papp := false } })) ∧
    exec .paperIn s = .next (s.withChip ({ s.chip with pins := { s.chip.pins with papp := true } })))

/-! ## Power (chapter 8) -/

/-- Power-on reset (R24, R69, R87, R99, R129, R145, R162, R174, R189): every block takes its values whatever it held, an open cover trips at
once with INTERLOCK OPEN the first record, the commands that wait are left, and the flash keeps every byte that no program or erase under
way was writing. `Chip.powerOn` has the model's choices with the manual's values: no halt reported and LSEL released (notes/assumptions/4.md), and
the block table and counters before the scan (10.md). -/
def Obligations.PowerOnResetTakesItsValues : Prop :=
  (∀ (pins : Pins) (s : State), pins.cover = true →
    exec (.powerOnReset pins) s = .next { s with chip := Chip.powerOn pins, flash := cutFlash s.chip s.flash }) ∧
  (∀ (pins : Pins) (s : State), pins.cover = false →
    ∃ t, exec (.powerOnReset pins) s = .next t ∧ t.pending = s.pending ∧ t.chip.scanCh.motion = .tripped ∧
      t.chip.printCh.motion = .tripped ∧ t.chip.link.reports = [.event .interlockOpen] ∧
      t.chip.loaded = (Chip.powerOn pins).loaded ∧ t.chip.pool = Pool.default ∧ t.flash = cutFlash s.chip s.flash) ∧
  (∀ (c : Chip) (f : Flash), c.store.holder = none → c.store.erase = none → c.store.op = .none ∨ c.store.op = .scanning →
    cutFlash c f = f) ∧
  (∀ (c : Chip) (f : Flash) (a : Nat), FlashOk f → c.store.erase = none →
    (∀ j, c.store.holder = some j → ∀ w ∈ jobWrites c f.mem j, w.1 ≠ a) →
    readMem (cutFlash c f).mem a = readMem f.mem a)

/-- SLEEP and sleep entry (R154, R155, R157, R161): SLEEP is refused BUSY with a route open or a run-out and LIMIT with neither a timer nor an
enabled source, else enters SLEEP PENDING with its wake timer; sleep entry stops the clock with every supply off, SLEEP HOLD among
the host reset requests, SERVICE ended, the counters at 0, and the tables and phases kept. `sleepReady` is the conjunction of R155, R166 and R174:
no scan, job, erase, image check or install, no channel in motion, nothing upstream left to send; and no directive held, which would have
cancelled the sleep (R156; notes/assumptions/34.md, DEDUCED). A sleep entry whose conditions do not hold waits for them: that the command then
has no effect is the model's choice (6.md). -/
def Obligations.SleepIsEnteredWhenReady : Prop :=
  (∀ (p : List Byte) (s : State), Taken s → p.length = 4 →
    let c := streamRules (.sleep p) s.chip
    ((∃ r, r < 4 ∧ (ctxOf c r).isSome = true) ∨ c.runOut.isSome = true →
      exec (.sleep p) s = .next (s.withChip (refuse p .busy c))) ∧
    ((∀ r, r < 4 → ctxOf c r = none) → c.runOut = none →
      (numAt p 1 3 = 0 → (∀ e ∈ c.power.wake, e.enable = false) →
        exec (.sleep p) s = .next (s.withChip (refuse p .limit c))) ∧
      (numAt p 1 3 ≠ 0 ∨ (∃ e ∈ c.power.wake, e.enable = true) →
        exec (.sleep p) s = .next (s.withChip
          (reply p .accepted { c with power := { c.power with wakeTimer := numAt p 1 3, state := .sleepPending } }))))) ∧
  (∀ s : State, sleepReady s.chip = true →
    ∃ t, exec .sleepEntry s = .next t ∧
      (t.chip.power.state = .sleep ∧ t.chip.power.clockOn = false ∧ t.chip.power.flashOn = false ∧
        t.chip.power.hostOn = false ∧ t.chip.power.lamp = .off ∧ t.chip.power.head = .off ∧ t.chip.power.motor = .off ∧
        t.chip.power.sleepHold = true ∧ t.chip.power.seconds = 0 ∧ t.chip.power.ticks = 0 ∧
        t.chip.power.wakeTimer = s.chip.power.wakeTimer) ∧
      t.chip.boot.state = .holding ∧ hrstnAsserted t.chip = true ∧
      t.chip.prot = { s.chip.prot with service := .normal } ∧ t.chip.loaded = s.chip.loaded ∧
      t.chip.scanCh.phase = s.chip.scanCh.phase ∧ t.chip.printCh.phase = s.chip.printCh.phase ∧
      (s.chip.prot.service ≠ .service → t.flash = s.flash)) ∧
  (∀ s : State, sleepReady s.chip = false → exec .sleepEntry s = .next s) ∧
  (∀ c : Chip, sleepReady c = true ↔ c.power.state = .sleepPending ∧ c.store.op = .none ∧ c.store.holder = none ∧ c.store.reads = [] ∧
    c.store.programs = [] ∧ c.store.erase = none ∧ c.store.scanned = true ∧ c.boot.check = none ∧ c.boot.install = none ∧
    (c.scanCh.motion = .halted ∨ c.scanCh.motion = .tripped) ∧ (c.printCh.motion = .halted ∨ c.printCh.motion = .tripped) ∧
    c.link.reports = [] ∧ c.link.up = .idle ∧ c.link.held = none)

/-- The wake (R158 to R161): the seconds counter rises to its cap; a timer that is met wakes the part with WAKE HOLD and cause TIMER, the
copy of the key segment unknown; at the main clock the supplies are on, the blocks take their inputs' levels, and the channels stand HALTED
with their ramps and phases kept, or TRIPPED with the cover open; WAKING ends in RUN with the pending report WAKE CAUSE. The model's choices:
an open cover trips when the main clock runs, where R69 says when the wake ends (notes/assumptions/13.md); the host supply has had its 20 ms
then (39.md, DEDUCED); and a command of another power state has no effect (6.md). -/
def Obligations.WakeRunsItsSteps : Prop :=
  (∀ s : State, s.chip.power.state = .sleep →
    exec .secondTick s = .next (s.withChip ({ s.chip with
      power := { s.chip.power with seconds := min 16777215 (s.chip.power.seconds + 1), ticks := 0 } })) ∧
    (0 < s.chip.power.wakeTimer → s.chip.power.wakeTimer ≤ s.chip.power.seconds →
      exec .wakeTimerExpiry s = .next (s.withChip ({ s.chip with
        power := { s.chip.power with state := .waking, cause := some .timer, wakeHold := true, clockLeft := 5000 },
        prot := { s.chip.prot with copy := none },
        store := { s.chip.store with scanned := false, scanKind := .wake, setup := .none } }))) ∧
    (s.chip.power.wakeTimer = 0 ∨ s.chip.power.seconds < s.chip.power.wakeTimer → exec .wakeTimerExpiry s = .next s)) ∧
  (∀ s : State, s.chip.power.state ≠ .sleep → exec .secondTick s = .next s ∧ exec .wakeTimerExpiry s = .next s) ∧
  (∀ (papp papx doce : Bool) (s : State), s.chip.power.state = .waking → s.chip.power.clockOn = false →
    exec (.mainClockRunning papp papx doce true) s = .next (s.withChip ({ s.chip with
      pins := { s.chip.pins with papp := papp, papx := papx, doce := doce, cover := true },
      head := { Head.default papp with band := s.chip.head.band },
      scanCh := { Channel.default with ramp := s.chip.scanCh.ramp, phase := s.chip.scanCh.phase },
      printCh := { Channel.default with ramp := s.chip.printCh.ramp, phase := s.chip.printCh.phase },
      power := { s.chip.power with clockOn := true, clockLeft := 0, flashOn := true, hostOn := true, hostUp := 0 } })) ∧
    ∃ t, exec (.mainClockRunning papp papx doce false) s = .next t ∧ t.chip.power.clockOn = true ∧
      t.chip.power.flashOn = true ∧ t.chip.power.hostOn = true ∧ t.chip.pins.cover = false ∧
      t.chip.scanCh.motion = .tripped ∧ t.chip.printCh.motion = .tripped ∧ t.chip.loaded = s.chip.loaded ∧
      t.flash = s.flash) ∧
  (∀ (k : WakeCause) (s : State), s.chip.power.state = .waking → s.chip.power.clockOn = true →
    s.chip.store.scanned = true → s.chip.store.op ≠ .scanning → s.chip.power.cause = some k →
    exec .wakingEnd s = .next (s.withChip ({ s.chip with
      power := { s.chip.power with state := .run, wakeHold := false, sleepHold := false, cause := none, wakeTimer := 0,
                                   hostUp := max s.chip.power.hostUp 20000 },
      boot := { s.chip.boot with report := some (.wakeCause k s.chip.power.seconds) } }))) ∧
  (∀ s : State, s.chip.power.state = .run →
    exec .wakingEnd s = .next s ∧ ∀ papp papx doce cover, exec (.mainClockRunning papp papx doce cover) s = .next s)

/-- The wake inputs and DOCP (R26, R43, R150, R151, R159): a changed level of an enabled source is timed for its debounce time, a level back
at the stable one ends the timing, a disabled source only moves its pin; a level that stood its time becomes the stable level, and an
active edge is an event in RUN and WAKING, cancels a pending sleep first, and wakes the part in SLEEP with the source for its cause. DOCP is the
pin of DOC, timed as the others; while the main clock runs in scan state WAITING lamp use is taken with the document, and dropped as it leaves
before the first pick, the lamp then held for its hold time. The model's choices:
DOCP high shows a document (notes/assumptions/11.md), and an expiry with no timing under way has no effect (6.md). -/
def Obligations.WakeInputsAreDebounced : Prop :=
  (∀ (pin : SignalPin) (high : Bool) (e : WakeEntry) (d : Debounce) (s : State),
    s.chip.power.wake[sourceIndex (pinSource pin)]? = some e →
    s.chip.power.sources[sourceIndex (pinSource pin)]? = some d →
    let c := { s.chip with pins := setPin pin high s.chip.pins }
    let timed := fun x => { c with power := { c.power with
      sources := c.power.sources.set (sourceIndex (pinSource pin)) { d with timing := x } } }
    (e.enable = false → exec (.wakeInputChange pin high) s = .next (s.withChip c)) ∧
    (e.enable = true → high = d.stable → exec (.wakeInputChange pin high) s = .next (s.withChip (timed none))) ∧
    (e.enable = true → high ≠ d.stable → 0 < e.debounce → d.timing = none →
      exec (.wakeInputChange pin high) s = .next (s.withChip (timed (some (high, e.debounce * 33000))))) ∧
    (e.enable = true → high ≠ d.stable → e.debounce = 0 →
      exec (.wakeInputChange pin high) s = .next (s.withChip (edgeTaken (pinSource pin) e.rising high c)))) ∧
  (∀ (src : WakeSource) (e : WakeEntry) (d : Debounce) (s : State), s.chip.power.wake[sourceIndex src]? = some e →
    s.chip.power.sources[sourceIndex src]? = some d →
    (∀ level left, e.enable = true → d.timing = some (level, left) →
      exec (.debounceExpiry src) s = .next (s.withChip (edgeTaken src e.rising level s.chip))) ∧
    (e.enable = false ∨ d.timing = none → exec (.debounceExpiry src) s = .next s)) ∧
  (∀ (src : WakeSource) (rising level : Bool) (c : Chip),
    let b := { c with power := { c.power with sources := c.power.sources.set (sourceIndex src) ⟨level, none⟩ } }
    (level ≠ rising → edgeTaken src rising level c = b) ∧
    (level = rising → c.power.state = .sleep → edgeTaken src rising level c = wake (sourceCause src) b) ∧
    (level = rising → c.power.state = .run ∨ c.power.state = .waking → edgeTaken src rising level c = queueEvent (sourceEvent src) b) ∧
    (level = rising → c.power.state = .sleepPending →
      (edgeTaken src rising level c).power.state = .run ∧ (edgeTaken src rising level c).power.wakeTimer = 0 ∧
      (300 ≤ freeBytes c →
        (edgeTaken src rising level c).link.reports =
          c.link.reports ++ [.event (.sleepCancelled .signal), .event (sourceEvent src)]))) ∧
  (∀ (present : Bool) (s : State),
    ∃ t, exec (.docpChange present) s = .next t ∧ t.chip.pins.docp = present ∧ t.chip.loaded = s.chip.loaded ∧
      t.chip.pool = s.chip.pool ∧ t.chip.routes = s.chip.routes ∧ t.flash = s.flash ∧
      (s.chip.scan.state ≠ .waiting → t.chip.scan = s.chip.scan) ∧
      (s.chip.scan.state = .waiting → s.chip.power.clockOn = true → present = true → t.chip.scan.lampUse = true)) ∧
  (∀ (present : Bool) (e : WakeEntry) (d : Debounce) (s : State), s.chip.power.wake[3]? = some e → s.chip.power.sources[3]? = some d →
    let pinned := { s.chip with pins := { s.chip.pins with docp := present } }
    let picked := ∃ r x, s.chip.scan.route = some r ∧ ctxOf s.chip r = some x ∧ x.begun = true
    ∃ c, (s.chip.scan.state ≠ .waiting ∨ s.chip.power.clockOn = false → c = pinned) ∧
      (s.chip.scan.state = .waiting → s.chip.power.clockOn = true → present = true → s.chip.scan.lampUse = false →
        c = { pinned with scan := { s.chip.scan with lampUse := true },
                          power := { s.chip.power with lamp := s.chip.power.lamp.request 10000 } }) ∧
      (s.chip.scan.state = .waiting → s.chip.power.clockOn = true → present = false → s.chip.scan.lampUse = true → ¬picked →
        c = { pinned with scan := { s.chip.scan with lampUse := false },
                          power := { s.chip.power with lamp := s.chip.power.lamp.release (s.chip.power.holds.getD 1 0 * 10000) } }) ∧
      (s.chip.scan.lampUse = present ∨ present = false ∧ picked → c = pinned) ∧
      let timed := fun x => { c with power := { c.power with sources := c.power.sources.set 3 { d with timing := x } } }
      (e.enable = false → exec (.docpChange present) s = .next (s.withChip c)) ∧
      (e.enable = true → present = d.stable → exec (.docpChange present) s = .next (s.withChip (timed none))) ∧
      (e.enable = true → present ≠ d.stable → 0 < e.debounce → d.timing = none →
        exec (.docpChange present) s = .next (s.withChip (timed (some (present, e.debounce * 33000))))) ∧
      (e.enable = true → present ≠ d.stable → 0 < e.debounce → d.timing.isSome = true → exec (.docpChange present) s = .next (s.withChip c)) ∧
      (e.enable = true → present ≠ d.stable → e.debounce = 0 →
        exec (.docpChange present) s = .next (s.withChip (edgeTaken .doc e.rising present c))))

/-- The supplies and the host reset requests (R71, R75, R147, R149, R164): a rising domain is on at the end of its settle time, a held one off
at the end of its hold, the head losing its content; BOOT HOLD ends in SERVING once its conditions hold, and SERVICE PULSE leaves the
requests. The model's choices: the host supply has had its 20 ms at the release (notes/assumptions/39.md, DEDUCED), and the end of a settle
time or of a hold that does not run in its domain, and a release outside HOLDING, have no effect (6.md). -/
def Obligations.SuppliesSettleAndHold : Prop :=
  (∀ (n : Nat) (therm : Byte) (s : State),
    (s.chip.power.lamp = .rising n → exec (.domainSettled .lamp therm) s =
      .next (s.withChip ({ s.chip with power := { s.chip.power with lamp := .on } }))) ∧
    (s.chip.power.motor = .rising n → exec (.domainSettled .motor therm) s =
      .next (s.withChip ({ s.chip with power := { s.chip.power with motor := .on } }))) ∧
    (s.chip.power.head = .rising n →
      ∃ t, exec (.domainSettled .head therm) s = .next t ∧ t.chip.power.head = .on ∧ t.chip.pins.therm = therm ∧
        t.chip.head.band = (s.chip.heat.thresholds.countP fun x => decide (x ≤ therm.toNat)) ∧
        t.chip.backdrop = s.chip.backdrop ∧ t.chip.pool = s.chip.pool ∧ t.chip.routes = s.chip.routes ∧
        t.flash = s.flash)) ∧
  (∀ (n : Nat) (s : State),
    (s.chip.power.lamp = .holding n → exec (.domainHoldExpiry .lamp) s =
      .next (s.withChip ({ s.chip with power := { s.chip.power with lamp := .off } }))) ∧
    (s.chip.power.motor = .holding n → exec (.domainHoldExpiry .motor) s =
      .next (s.withChip ({ s.chip with power := { s.chip.power with motor := .off } }))) ∧
    (s.chip.power.head = .holding n → exec (.domainHoldExpiry .head) s =
      .next (s.withChip ({ s.chip with
        power := { s.chip.power with head := .off },
        head := { s.chip.head with shift := .empty, loadLeft := 0, latch := none, strobeTime := none } })))) ∧
  (∀ (d : DomainId) (therm : Byte) (s : State),
    let x := match d with | .lamp => s.chip.power.lamp | .head => s.chip.power.head | .motor => s.chip.power.motor
    ((∀ n, x ≠ .rising n) → exec (.domainSettled d therm) s = .next s) ∧
    ((∀ n, x ≠ .holding n) → exec (.domainHoldExpiry d) s = .next s)) ∧
  (∀ s : State, s.chip.boot.state = .holding → s.chip.power.state = .run → s.chip.store.op ≠ .scanning →
    s.chip.store.scanned = true → s.chip.boot.check = none → s.chip.boot.install = none →
    exec .bootHoldRelease s = .next (s.withChip ({ s.chip with
      boot := { s.chip.boot with state := .serving },
      power := { s.chip.power with hostUp := max s.chip.power.hostUp 20000, bootHold := false } }))) ∧
  (∀ s : State, s.chip.boot.state ≠ .holding → exec .bootHoldRelease s = .next s) ∧
  (∀ s : State, exec .servicePulseEnd s = .next (s.withChip
    ({ s.chip with power := { s.chip.power with pulseHold := none } })))

/-! ## The pool's quotas -/

/-- R3 as every step keeps it: the quotas of the routes that are not CLOSED sum to at most 32, at reset and after every step, and the
charged count of a route that is open before and after a step, with the same quota, stays at most its quota. This last
is said of commands that give at most one byte of the link; a command with more does what as many commands with one byte do. -/
def Obligations.QuotasStayWithinThePool : Prop :=
  let sum := fun c : Chip => ([0, 1, 2, 3].map fun r => match ctxOf c r with | some x => x.quota | none => 0).sum
  sum State.reset.chip = 0 ∧
  (∀ s t : State, step s = .next t → sum s.chip ≤ 32 → sum t.chip ≤ 32) ∧
  (∀ (s t : State) (r : Nat) (x y : Ctx), step s = .next t → (∀ d p a b bytes rest, s.pending ≠ .lselAssert d p (a :: b :: bytes) :: rest) →
    ctxOf s.chip r = some x → ctxOf t.chip r = some y → y.quota = x.quota → charged s.chip r ≤ x.quota → charged t.chip r ≤ y.quota)
end

