-- ==== Sys2Proof/Laws/Basic.lean ====
section
/-!
SUPPORT. The two relations that the laws of the operations are stated with: `Kept` says that an operation leaves the backdrop of
the part and the form of the line pool, `KeptTables` that it leaves the loadable tables and the form of the line pool.
-/

-- One declaration after another: the package as one text keeps within the check's limit on threads.
set_option Elab.async false

namespace Sys2Proof.Machine

open Sys2Proof

/-- The backdrop stands, and a pool in order stays in order. -/
def Kept (c t : Chip) : Prop := t.backdrop = c.backdrop ∧ (PoolOk c.pool → PoolOk t.pool)

/-- The loadable tables stand, and a pool in order stays in order. -/
def KeptTables (c t : Chip) : Prop := t.loaded = c.loaded ∧ (PoolOk c.pool → PoolOk t.pool)

theorem Kept.rfl {c : Chip} : Kept c c := ⟨Eq.refl _, id⟩

theorem Kept.trans {a b c : Chip} (h : Kept a b) (k : Kept b c) : Kept a c := ⟨k.1.trans h.1, fun p => k.2 (h.2 p)⟩

theorem KeptTables.rfl {c : Chip} : KeptTables c c := ⟨Eq.refl _, id⟩

theorem KeptTables.trans {a b c : Chip} (h : KeptTables a b) (k : KeptTables b c) : KeptTables a c :=
  ⟨k.1.trans h.1, fun p => k.2 (h.2 p)⟩

theorem Kept.tables {c t : Chip} (h : Kept c t) : KeptTables c t :=
  ⟨congrArg Backdrop.loaded h.1, h.2⟩

/-- A Kept operation keeps the tables. -/
theorem Kept.to {a b t : Chip} (h : Kept b t) (k : KeptTables a b) : KeptTables a t := k.trans h.tables

/-- An update that leaves the backdrop and the pool. -/
theorem Kept.update {c b : Chip} {pins : Pins} {routes : List Route} {runOut : Option RunOut} {scan : Capture}
    {scanCh printCh : Channel} {head : Head} {linkIn : LinkIn} {linkOut : LinkOut} {store : Store} {power : Power}
    {link : Link} (h : Kept c b) (hs : scanCh.ramp = b.scanCh.ramp := by first | rfl | simp)
    (hp : printCh.ramp = b.printCh.ramp := by first | rfl | simp)
    (hx : scanCh.phase = b.scanCh.phase := by first | rfl | simp)
    (hy : printCh.phase = b.printCh.phase := by first | rfl | simp)
    (hn : pinsStill pins = pinsStill b.pins := by dsimp only [pinsStill])
    (hw : power.still = b.power.still := by dsimp only [Power.still])
    (hl : link.still = b.link.still := by dsimp only [Link.still]) :
    Kept c { b with pins := pins, routes := routes, runOut := runOut, scan := scan, scanCh := scanCh, printCh := printCh,
                    head := head, linkIn := linkIn, linkOut := linkOut, store := store, power := power, link := link } := by
  refine ⟨?_, h.2⟩
  rw [← h.1]
  have h1 : power.park = b.power.park := show power.still.park = b.power.still.park by rw [hw]
  have h2 : power.holds = b.power.holds := show power.still.holds = b.power.still.holds by rw [hw]
  have h3 : power.wake = b.power.wake := show power.still.wake = b.power.still.wake by rw [hw]
  simp [Chip.backdrop, Chip.loaded, hs, hp, hx, hy, hn, hw, hl, h1, h2, h3]

/-- A fold of operations that each keep. -/
theorem Kept.fold {α : Type} {w u : Chip} {f : Chip → α → Chip} {xs : List α} (h : Kept w u)
    (hf : ∀ c x, Kept w c → Kept w (f c x)) : Kept w (xs.foldl f u) := by
  induction xs generalizing u with
  | nil => exact h
  | cons x xs ih => exact ih (hf _ _ h)

theorem KeptTables.fold {α : Type} {w u : Chip} {f : Chip → α → Chip} {xs : List α} (h : KeptTables w u)
    (hf : ∀ c x, KeptTables w c → KeptTables w (f c x)) : KeptTables w (xs.foldl f u) := by
  induction xs generalizing u with
  | nil => exact h
  | cons x xs ih => exact ih (hf _ _ h)

/-- An update of anything but the loadable tables and the pool. -/
theorem KeptTables.update {c b : Chip} {pins : Pins} {routes : List Route} {runOut : Option RunOut} {scan : Capture}
    {scanCh printCh : Channel} {head : Head} {linkIn : LinkIn} {linkOut : LinkOut} {store : Store} {prot : Protection}
    {power : Power} {boot : Boot} {link : Link} (h : KeptTables c b)
    (hs : scanCh.ramp = b.scanCh.ramp := by first | rfl | simp)
    (hp : printCh.ramp = b.printCh.ramp := by first | rfl | simp)
    (hk : power.park = b.power.park := by first | rfl | simp)
    (hh : power.holds = b.power.holds := by first | rfl | simp)
    (hw : power.wake = b.power.wake := by first | rfl | simp) :
    KeptTables c { b with pins := pins, routes := routes, runOut := runOut, scan := scan, scanCh := scanCh,
                          printCh := printCh, head := head, linkIn := linkIn, linkOut := linkOut, store := store,
                          prot := prot, power := power, boot := boot, link := link } := by
  refine ⟨?_, h.2⟩
  rw [← h.1]
  simp [Chip.loaded, hs, hp, hk, hh, hw]

end Sys2Proof.Machine
end

