-- ==== Sys2Proof/Laws/State.lean ====
section
/-!
SUPPORT. One lemma per field per update, each true by `rfl`: the machine's plain updates of the part, of a channel, of the flash and
of a route's queues.
-/

-- One declaration after another: the package as one text keeps within the check's limit on threads.
set_option Elab.async false

namespace Sys2Proof.Machine

open Sys2Proof

/-! ## The state -/

@[simp] theorem State.onChip_chip (f : Chip → Chip) (s : State) : (s.onChip f).chip = f s.chip := rfl
@[simp] theorem State.onChip_flash (f : Chip → Chip) (s : State) : (s.onChip f).flash = s.flash := rfl
@[simp] theorem State.onChip_pending (f : Chip → Chip) (s : State) : (s.onChip f).pending = s.pending := rfl

/-! ## The part -/

@[simp] theorem setRoute_pins (r : Nat) (x : Route) (c : Chip) : (setRoute r x c).pins = c.pins := rfl
@[simp] theorem setRoute_pool (r : Nat) (x : Route) (c : Chip) : (setRoute r x c).pool = c.pool := rfl
@[simp] theorem setRoute_routes (r : Nat) (x : Route) (c : Chip) :
    (setRoute r x c).routes = c.routes.set r x := rfl
@[simp] theorem setRoute_runOut (r : Nat) (x : Route) (c : Chip) : (setRoute r x c).runOut = c.runOut := rfl
@[simp] theorem setRoute_scan (r : Nat) (x : Route) (c : Chip) : (setRoute r x c).scan = c.scan := rfl
@[simp] theorem setRoute_tables (r : Nat) (x : Route) (c : Chip) : (setRoute r x c).tables = c.tables := rfl
@[simp] theorem setRoute_scanCh (r : Nat) (x : Route) (c : Chip) : (setRoute r x c).scanCh = c.scanCh := rfl
@[simp] theorem setRoute_printCh (r : Nat) (x : Route) (c : Chip) : (setRoute r x c).printCh = c.printCh := rfl
@[simp] theorem setRoute_head (r : Nat) (x : Route) (c : Chip) : (setRoute r x c).head = c.head := rfl
@[simp] theorem setRoute_heat (r : Nat) (x : Route) (c : Chip) : (setRoute r x c).heat = c.heat := rfl
@[simp] theorem setRoute_linkIn (r : Nat) (x : Route) (c : Chip) : (setRoute r x c).linkIn = c.linkIn := rfl
@[simp] theorem setRoute_linkOut (r : Nat) (x : Route) (c : Chip) : (setRoute r x c).linkOut = c.linkOut := rfl
@[simp] theorem setRoute_store (r : Nat) (x : Route) (c : Chip) : (setRoute r x c).store = c.store := rfl
@[simp] theorem setRoute_prot (r : Nat) (x : Route) (c : Chip) : (setRoute r x c).prot = c.prot := rfl
@[simp] theorem setRoute_power (r : Nat) (x : Route) (c : Chip) : (setRoute r x c).power = c.power := rfl
@[simp] theorem setRoute_boot (r : Nat) (x : Route) (c : Chip) : (setRoute r x c).boot = c.boot := rfl
@[simp] theorem setRoute_link (r : Nat) (x : Route) (c : Chip) : (setRoute r x c).link = c.link := rfl

@[simp] theorem setErase_pins (e : Option EraseProg) (c : Chip) : (setErase e c).pins = c.pins := rfl
@[simp] theorem setErase_pool (e : Option EraseProg) (c : Chip) : (setErase e c).pool = c.pool := rfl
@[simp] theorem setErase_routes (e : Option EraseProg) (c : Chip) : (setErase e c).routes = c.routes := rfl
@[simp] theorem setErase_runOut (e : Option EraseProg) (c : Chip) : (setErase e c).runOut = c.runOut := rfl
@[simp] theorem setErase_scan (e : Option EraseProg) (c : Chip) : (setErase e c).scan = c.scan := rfl
@[simp] theorem setErase_tables (e : Option EraseProg) (c : Chip) : (setErase e c).tables = c.tables := rfl
@[simp] theorem setErase_scanCh (e : Option EraseProg) (c : Chip) : (setErase e c).scanCh = c.scanCh := rfl
@[simp] theorem setErase_printCh (e : Option EraseProg) (c : Chip) : (setErase e c).printCh = c.printCh := rfl
@[simp] theorem setErase_head (e : Option EraseProg) (c : Chip) : (setErase e c).head = c.head := rfl
@[simp] theorem setErase_heat (e : Option EraseProg) (c : Chip) : (setErase e c).heat = c.heat := rfl
@[simp] theorem setErase_linkIn (e : Option EraseProg) (c : Chip) : (setErase e c).linkIn = c.linkIn := rfl
@[simp] theorem setErase_linkOut (e : Option EraseProg) (c : Chip) : (setErase e c).linkOut = c.linkOut := rfl
@[simp] theorem setErase_store (e : Option EraseProg) (c : Chip) :
    (setErase e c).store = { c.store with erase := e } := rfl
@[simp] theorem setErase_prot (e : Option EraseProg) (c : Chip) : (setErase e c).prot = c.prot := rfl
@[simp] theorem setErase_power (e : Option EraseProg) (c : Chip) : (setErase e c).power = c.power := rfl
@[simp] theorem setErase_boot (e : Option EraseProg) (c : Chip) : (setErase e c).boot = c.boot := rfl
@[simp] theorem setErase_link (e : Option EraseProg) (c : Chip) : (setErase e c).link = c.link := rfl

@[simp] theorem setWork_pins (w : Option Work) (c : Chip) : (setWork w c).pins = c.pins := rfl
@[simp] theorem setWork_pool (w : Option Work) (c : Chip) : (setWork w c).pool = c.pool := rfl
@[simp] theorem setWork_routes (w : Option Work) (c : Chip) : (setWork w c).routes = c.routes := rfl
@[simp] theorem setWork_runOut (w : Option Work) (c : Chip) : (setWork w c).runOut = c.runOut := rfl
@[simp] theorem setWork_scan (w : Option Work) (c : Chip) : (setWork w c).scan = c.scan := rfl
@[simp] theorem setWork_tables (w : Option Work) (c : Chip) : (setWork w c).tables = c.tables := rfl
@[simp] theorem setWork_scanCh (w : Option Work) (c : Chip) : (setWork w c).scanCh = c.scanCh := rfl
@[simp] theorem setWork_printCh (w : Option Work) (c : Chip) : (setWork w c).printCh = c.printCh := rfl
@[simp] theorem setWork_head (w : Option Work) (c : Chip) : (setWork w c).head = c.head := rfl
@[simp] theorem setWork_heat (w : Option Work) (c : Chip) : (setWork w c).heat = c.heat := rfl
@[simp] theorem setWork_linkIn (w : Option Work) (c : Chip) : (setWork w c).linkIn = c.linkIn := rfl
@[simp] theorem setWork_linkOut (w : Option Work) (c : Chip) : (setWork w c).linkOut = c.linkOut := rfl
@[simp] theorem setWork_store (w : Option Work) (c : Chip) :
    (setWork w c).store = { c.store with work := w } := rfl
@[simp] theorem setWork_prot (w : Option Work) (c : Chip) : (setWork w c).prot = c.prot := rfl
@[simp] theorem setWork_power (w : Option Work) (c : Chip) : (setWork w c).power = c.power := rfl
@[simp] theorem setWork_boot (w : Option Work) (c : Chip) : (setWork w c).boot = c.boot := rfl
@[simp] theorem setWork_link (w : Option Work) (c : Chip) : (setWork w c).link = c.link := rfl

@[simp] theorem setService_pins (x : ServiceState) (c : Chip) : (setService x c).pins = c.pins := rfl
@[simp] theorem setService_pool (x : ServiceState) (c : Chip) : (setService x c).pool = c.pool := rfl
@[simp] theorem setService_routes (x : ServiceState) (c : Chip) : (setService x c).routes = c.routes := rfl
@[simp] theorem setService_runOut (x : ServiceState) (c : Chip) : (setService x c).runOut = c.runOut := rfl
@[simp] theorem setService_scan (x : ServiceState) (c : Chip) : (setService x c).scan = c.scan := rfl
@[simp] theorem setService_tables (x : ServiceState) (c : Chip) : (setService x c).tables = c.tables := rfl
@[simp] theorem setService_scanCh (x : ServiceState) (c : Chip) : (setService x c).scanCh = c.scanCh := rfl
@[simp] theorem setService_printCh (x : ServiceState) (c : Chip) : (setService x c).printCh = c.printCh := rfl
@[simp] theorem setService_head (x : ServiceState) (c : Chip) : (setService x c).head = c.head := rfl
@[simp] theorem setService_heat (x : ServiceState) (c : Chip) : (setService x c).heat = c.heat := rfl
@[simp] theorem setService_linkIn (x : ServiceState) (c : Chip) : (setService x c).linkIn = c.linkIn := rfl
@[simp] theorem setService_linkOut (x : ServiceState) (c : Chip) : (setService x c).linkOut = c.linkOut := rfl
@[simp] theorem setService_store (x : ServiceState) (c : Chip) : (setService x c).store = c.store := rfl
@[simp] theorem setService_prot (x : ServiceState) (c : Chip) :
    (setService x c).prot = { c.prot with service := x } := rfl
@[simp] theorem setService_power (x : ServiceState) (c : Chip) : (setService x c).power = c.power := rfl
@[simp] theorem setService_boot (x : ServiceState) (c : Chip) : (setService x c).boot = c.boot := rfl
@[simp] theorem setService_link (x : ServiceState) (c : Chip) : (setService x c).link = c.link := rfl

@[simp] theorem setParser_pins (x : Parser) (c : Chip) : (setParser x c).pins = c.pins := rfl
@[simp] theorem setParser_pool (x : Parser) (c : Chip) : (setParser x c).pool = c.pool := rfl
@[simp] theorem setParser_routes (x : Parser) (c : Chip) : (setParser x c).routes = c.routes := rfl
@[simp] theorem setParser_runOut (x : Parser) (c : Chip) : (setParser x c).runOut = c.runOut := rfl
@[simp] theorem setParser_scan (x : Parser) (c : Chip) : (setParser x c).scan = c.scan := rfl
@[simp] theorem setParser_tables (x : Parser) (c : Chip) : (setParser x c).tables = c.tables := rfl
@[simp] theorem setParser_scanCh (x : Parser) (c : Chip) : (setParser x c).scanCh = c.scanCh := rfl
@[simp] theorem setParser_printCh (x : Parser) (c : Chip) : (setParser x c).printCh = c.printCh := rfl
@[simp] theorem setParser_head (x : Parser) (c : Chip) : (setParser x c).head = c.head := rfl
@[simp] theorem setParser_heat (x : Parser) (c : Chip) : (setParser x c).heat = c.heat := rfl
@[simp] theorem setParser_linkIn (x : Parser) (c : Chip) : (setParser x c).linkIn = c.linkIn := rfl
@[simp] theorem setParser_linkOut (x : Parser) (c : Chip) : (setParser x c).linkOut = c.linkOut := rfl
@[simp] theorem setParser_store (x : Parser) (c : Chip) : (setParser x c).store = c.store := rfl
@[simp] theorem setParser_prot (x : Parser) (c : Chip) : (setParser x c).prot = c.prot := rfl
@[simp] theorem setParser_power (x : Parser) (c : Chip) : (setParser x c).power = c.power := rfl
@[simp] theorem setParser_boot (x : Parser) (c : Chip) : (setParser x c).boot = c.boot := rfl
@[simp] theorem setParser_link (x : Parser) (c : Chip) :
    (setParser x c).link = { c.link with parser := x } := rfl

@[simp] theorem modBlock_pins (b : Nat) (f : Block → Block) (c : Chip) : (modBlock b f c).pins = c.pins := rfl
@[simp] theorem modBlock_pool (b : Nat) (f : Block → Block) (c : Chip) : (modBlock b f c).pool = c.pool := rfl
@[simp] theorem modBlock_routes (b : Nat) (f : Block → Block) (c : Chip) : (modBlock b f c).routes = c.routes := rfl
@[simp] theorem modBlock_runOut (b : Nat) (f : Block → Block) (c : Chip) : (modBlock b f c).runOut = c.runOut := rfl
@[simp] theorem modBlock_scan (b : Nat) (f : Block → Block) (c : Chip) : (modBlock b f c).scan = c.scan := rfl
@[simp] theorem modBlock_tables (b : Nat) (f : Block → Block) (c : Chip) : (modBlock b f c).tables = c.tables := rfl
@[simp] theorem modBlock_scanCh (b : Nat) (f : Block → Block) (c : Chip) : (modBlock b f c).scanCh = c.scanCh := rfl
@[simp] theorem modBlock_printCh (b : Nat) (f : Block → Block) (c : Chip) : (modBlock b f c).printCh = c.printCh := rfl
@[simp] theorem modBlock_head (b : Nat) (f : Block → Block) (c : Chip) : (modBlock b f c).head = c.head := rfl
@[simp] theorem modBlock_heat (b : Nat) (f : Block → Block) (c : Chip) : (modBlock b f c).heat = c.heat := rfl
@[simp] theorem modBlock_linkIn (b : Nat) (f : Block → Block) (c : Chip) : (modBlock b f c).linkIn = c.linkIn := rfl
@[simp] theorem modBlock_linkOut (b : Nat) (f : Block → Block) (c : Chip) : (modBlock b f c).linkOut = c.linkOut := rfl
@[simp] theorem modBlock_store (b : Nat) (f : Block → Block) (c : Chip) :
    (modBlock b f c).store = { c.store with blocks := c.store.blocks.set b (f (blockAt c b)) } := rfl
@[simp] theorem modBlock_prot (b : Nat) (f : Block → Block) (c : Chip) : (modBlock b f c).prot = c.prot := rfl
@[simp] theorem modBlock_power (b : Nat) (f : Block → Block) (c : Chip) : (modBlock b f c).power = c.power := rfl
@[simp] theorem modBlock_boot (b : Nat) (f : Block → Block) (c : Chip) : (modBlock b f c).boot = c.boot := rfl
@[simp] theorem modBlock_link (b : Nat) (f : Block → Block) (c : Chip) : (modBlock b f c).link = c.link := rfl

@[simp] theorem modPage_pins (id : Nat) (f : Page → Page) (c : Chip) : (modPage id f c).pins = c.pins := rfl
@[simp] theorem modPage_pool (id : Nat) (f : Page → Page) (c : Chip) : (modPage id f c).pool = c.pool := rfl
@[simp] theorem modPage_routes (id : Nat) (f : Page → Page) (c : Chip) : (modPage id f c).routes = c.routes := rfl
@[simp] theorem modPage_runOut (id : Nat) (f : Page → Page) (c : Chip) : (modPage id f c).runOut = c.runOut := rfl
@[simp] theorem modPage_scan (id : Nat) (f : Page → Page) (c : Chip) : (modPage id f c).scan = c.scan := rfl
@[simp] theorem modPage_tables (id : Nat) (f : Page → Page) (c : Chip) : (modPage id f c).tables = c.tables := rfl
@[simp] theorem modPage_scanCh (id : Nat) (f : Page → Page) (c : Chip) : (modPage id f c).scanCh = c.scanCh := rfl
@[simp] theorem modPage_printCh (id : Nat) (f : Page → Page) (c : Chip) : (modPage id f c).printCh = c.printCh := rfl
@[simp] theorem modPage_head (id : Nat) (f : Page → Page) (c : Chip) : (modPage id f c).head = c.head := rfl
@[simp] theorem modPage_heat (id : Nat) (f : Page → Page) (c : Chip) : (modPage id f c).heat = c.heat := rfl
@[simp] theorem modPage_linkIn (id : Nat) (f : Page → Page) (c : Chip) : (modPage id f c).linkIn = c.linkIn := rfl
@[simp] theorem modPage_linkOut (id : Nat) (f : Page → Page) (c : Chip) : (modPage id f c).linkOut = c.linkOut := rfl
@[simp] theorem modPage_store (id : Nat) (f : Page → Page) (c : Chip) :
    (modPage id f c).store = { c.store with dir := c.store.dir.map fun p => if p.id = id then f p else p } := rfl
@[simp] theorem modPage_prot (id : Nat) (f : Page → Page) (c : Chip) : (modPage id f c).prot = c.prot := rfl
@[simp] theorem modPage_power (id : Nat) (f : Page → Page) (c : Chip) : (modPage id f c).power = c.power := rfl
@[simp] theorem modPage_boot (id : Nat) (f : Page → Page) (c : Chip) : (modPage id f c).boot = c.boot := rfl
@[simp] theorem modPage_link (id : Nat) (f : Page → Page) (c : Chip) : (modPage id f c).link = c.link := rfl

@[simp] theorem removePage_pins (id : Nat) (c : Chip) : (removePage id c).pins = c.pins := rfl
@[simp] theorem removePage_pool (id : Nat) (c : Chip) : (removePage id c).pool = c.pool := rfl
@[simp] theorem removePage_routes (id : Nat) (c : Chip) : (removePage id c).routes = c.routes := rfl
@[simp] theorem removePage_runOut (id : Nat) (c : Chip) : (removePage id c).runOut = c.runOut := rfl
@[simp] theorem removePage_scan (id : Nat) (c : Chip) : (removePage id c).scan = c.scan := rfl
@[simp] theorem removePage_tables (id : Nat) (c : Chip) : (removePage id c).tables = c.tables := rfl
@[simp] theorem removePage_scanCh (id : Nat) (c : Chip) : (removePage id c).scanCh = c.scanCh := rfl
@[simp] theorem removePage_printCh (id : Nat) (c : Chip) : (removePage id c).printCh = c.printCh := rfl
@[simp] theorem removePage_head (id : Nat) (c : Chip) : (removePage id c).head = c.head := rfl
@[simp] theorem removePage_heat (id : Nat) (c : Chip) : (removePage id c).heat = c.heat := rfl
@[simp] theorem removePage_linkIn (id : Nat) (c : Chip) : (removePage id c).linkIn = c.linkIn := rfl
@[simp] theorem removePage_linkOut (id : Nat) (c : Chip) : (removePage id c).linkOut = c.linkOut := rfl
@[simp] theorem removePage_store (id : Nat) (c : Chip) :
    (removePage id c).store = { c.store with dir := c.store.dir.filter fun p => p.id ≠ id } := rfl
@[simp] theorem removePage_prot (id : Nat) (c : Chip) : (removePage id c).prot = c.prot := rfl
@[simp] theorem removePage_power (id : Nat) (c : Chip) : (removePage id c).power = c.power := rfl
@[simp] theorem removePage_boot (id : Nat) (c : Chip) : (removePage id c).boot = c.boot := rfl
@[simp] theorem removePage_link (id : Nat) (c : Chip) : (removePage id c).link = c.link := rfl

@[simp] theorem withdraw_pins (p : Job → Bool) (c : Chip) : (withdraw p c).pins = c.pins := rfl
@[simp] theorem withdraw_pool (p : Job → Bool) (c : Chip) : (withdraw p c).pool = c.pool := rfl
@[simp] theorem withdraw_routes (p : Job → Bool) (c : Chip) : (withdraw p c).routes = c.routes := rfl
@[simp] theorem withdraw_runOut (p : Job → Bool) (c : Chip) : (withdraw p c).runOut = c.runOut := rfl
@[simp] theorem withdraw_scan (p : Job → Bool) (c : Chip) : (withdraw p c).scan = c.scan := rfl
@[simp] theorem withdraw_tables (p : Job → Bool) (c : Chip) : (withdraw p c).tables = c.tables := rfl
@[simp] theorem withdraw_scanCh (p : Job → Bool) (c : Chip) : (withdraw p c).scanCh = c.scanCh := rfl
@[simp] theorem withdraw_printCh (p : Job → Bool) (c : Chip) : (withdraw p c).printCh = c.printCh := rfl
@[simp] theorem withdraw_head (p : Job → Bool) (c : Chip) : (withdraw p c).head = c.head := rfl
@[simp] theorem withdraw_heat (p : Job → Bool) (c : Chip) : (withdraw p c).heat = c.heat := rfl
@[simp] theorem withdraw_linkIn (p : Job → Bool) (c : Chip) : (withdraw p c).linkIn = c.linkIn := rfl
@[simp] theorem withdraw_linkOut (p : Job → Bool) (c : Chip) : (withdraw p c).linkOut = c.linkOut := rfl
@[simp] theorem withdraw_prot (p : Job → Bool) (c : Chip) : (withdraw p c).prot = c.prot := rfl
@[simp] theorem withdraw_power (p : Job → Bool) (c : Chip) : (withdraw p c).power = c.power := rfl
@[simp] theorem withdraw_boot (p : Job → Bool) (c : Chip) : (withdraw p c).boot = c.boot := rfl
@[simp] theorem withdraw_link (p : Job → Bool) (c : Chip) : (withdraw p c).link = c.link := rfl

@[simp] theorem cutStrobe_pins (c : Chip) : (cutStrobe c).pins = c.pins := rfl
@[simp] theorem cutStrobe_pool (c : Chip) : (cutStrobe c).pool = c.pool := rfl
@[simp] theorem cutStrobe_routes (c : Chip) : (cutStrobe c).routes = c.routes := rfl
@[simp] theorem cutStrobe_runOut (c : Chip) : (cutStrobe c).runOut = c.runOut := rfl
@[simp] theorem cutStrobe_scan (c : Chip) : (cutStrobe c).scan = c.scan := rfl
@[simp] theorem cutStrobe_tables (c : Chip) : (cutStrobe c).tables = c.tables := rfl
@[simp] theorem cutStrobe_scanCh (c : Chip) : (cutStrobe c).scanCh = c.scanCh := rfl
@[simp] theorem cutStrobe_printCh (c : Chip) : (cutStrobe c).printCh = c.printCh := rfl
@[simp] theorem cutStrobe_head (c : Chip) :
    (cutStrobe c).head = { c.head with strobe := none, groups := [] } := rfl
@[simp] theorem cutStrobe_heat (c : Chip) : (cutStrobe c).heat = c.heat := rfl
@[simp] theorem cutStrobe_linkIn (c : Chip) : (cutStrobe c).linkIn = c.linkIn := rfl
@[simp] theorem cutStrobe_linkOut (c : Chip) : (cutStrobe c).linkOut = c.linkOut := rfl
@[simp] theorem cutStrobe_store (c : Chip) : (cutStrobe c).store = c.store := rfl
@[simp] theorem cutStrobe_prot (c : Chip) : (cutStrobe c).prot = c.prot := rfl
@[simp] theorem cutStrobe_power (c : Chip) : (cutStrobe c).power = c.power := rfl
@[simp] theorem cutStrobe_boot (c : Chip) : (cutStrobe c).boot = c.boot := rfl
@[simp] theorem cutStrobe_link (c : Chip) : (cutStrobe c).link = c.link := rfl

@[simp] theorem headContentLost_pins (c : Chip) : (headContentLost c).pins = c.pins := rfl
@[simp] theorem headContentLost_pool (c : Chip) : (headContentLost c).pool = c.pool := rfl
@[simp] theorem headContentLost_routes (c : Chip) : (headContentLost c).routes = c.routes := rfl
@[simp] theorem headContentLost_runOut (c : Chip) : (headContentLost c).runOut = c.runOut := rfl
@[simp] theorem headContentLost_scan (c : Chip) : (headContentLost c).scan = c.scan := rfl
@[simp] theorem headContentLost_tables (c : Chip) : (headContentLost c).tables = c.tables := rfl
@[simp] theorem headContentLost_scanCh (c : Chip) : (headContentLost c).scanCh = c.scanCh := rfl
@[simp] theorem headContentLost_printCh (c : Chip) : (headContentLost c).printCh = c.printCh := rfl
@[simp] theorem headContentLost_head (c : Chip) :
    (headContentLost c).head = { c.head with shift := .empty, loadLeft := 0, latch := none, strobeTime := none } := rfl
@[simp] theorem headContentLost_heat (c : Chip) : (headContentLost c).heat = c.heat := rfl
@[simp] theorem headContentLost_linkIn (c : Chip) : (headContentLost c).linkIn = c.linkIn := rfl
@[simp] theorem headContentLost_linkOut (c : Chip) : (headContentLost c).linkOut = c.linkOut := rfl
@[simp] theorem headContentLost_store (c : Chip) : (headContentLost c).store = c.store := rfl
@[simp] theorem headContentLost_prot (c : Chip) : (headContentLost c).prot = c.prot := rfl
@[simp] theorem headContentLost_power (c : Chip) : (headContentLost c).power = c.power := rfl
@[simp] theorem headContentLost_boot (c : Chip) : (headContentLost c).boot = c.boot := rfl
@[simp] theorem headContentLost_link (c : Chip) : (headContentLost c).link = c.link := rfl

@[simp] theorem beginCut_pins (c : Chip) : (beginCut c).pins = c.pins := rfl
@[simp] theorem beginCut_pool (c : Chip) : (beginCut c).pool = c.pool := rfl
@[simp] theorem beginCut_routes (c : Chip) : (beginCut c).routes = c.routes := rfl
@[simp] theorem beginCut_runOut (c : Chip) : (beginCut c).runOut = c.runOut := rfl
@[simp] theorem beginCut_scan (c : Chip) : (beginCut c).scan = c.scan := rfl
@[simp] theorem beginCut_tables (c : Chip) : (beginCut c).tables = c.tables := rfl
@[simp] theorem beginCut_scanCh (c : Chip) : (beginCut c).scanCh = c.scanCh := rfl
@[simp] theorem beginCut_printCh (c : Chip) : (beginCut c).printCh = c.printCh := rfl
@[simp] theorem beginCut_head (c : Chip) :
    (beginCut c).head = { c.head with cut := .pulse, cutTime := some 0 } := rfl
@[simp] theorem beginCut_heat (c : Chip) : (beginCut c).heat = c.heat := rfl
@[simp] theorem beginCut_linkIn (c : Chip) : (beginCut c).linkIn = c.linkIn := rfl
@[simp] theorem beginCut_linkOut (c : Chip) : (beginCut c).linkOut = c.linkOut := rfl
@[simp] theorem beginCut_store (c : Chip) : (beginCut c).store = c.store := rfl
@[simp] theorem beginCut_prot (c : Chip) : (beginCut c).prot = c.prot := rfl
@[simp] theorem beginCut_power (c : Chip) : (beginCut c).power = c.power := rfl
@[simp] theorem beginCut_boot (c : Chip) : (beginCut c).boot = c.boot := rfl
@[simp] theorem beginCut_link (c : Chip) : (beginCut c).link = c.link := rfl

@[simp] theorem endCut_pins (c : Chip) : (endCut c).pins = c.pins := rfl
@[simp] theorem endCut_pool (c : Chip) : (endCut c).pool = c.pool := rfl
@[simp] theorem endCut_routes (c : Chip) : (endCut c).routes = c.routes := rfl
@[simp] theorem endCut_runOut (c : Chip) : (endCut c).runOut = c.runOut := rfl
@[simp] theorem endCut_scan (c : Chip) : (endCut c).scan = c.scan := rfl
@[simp] theorem endCut_tables (c : Chip) : (endCut c).tables = c.tables := rfl
@[simp] theorem endCut_scanCh (c : Chip) : (endCut c).scanCh = c.scanCh := rfl
@[simp] theorem endCut_printCh (c : Chip) : (endCut c).printCh = c.printCh := rfl
@[simp] theorem endCut_head (c : Chip) :
    (endCut c).head = { c.head with cut := .none, cutTime := none } := rfl
@[simp] theorem endCut_heat (c : Chip) : (endCut c).heat = c.heat := rfl
@[simp] theorem endCut_linkIn (c : Chip) : (endCut c).linkIn = c.linkIn := rfl
@[simp] theorem endCut_linkOut (c : Chip) : (endCut c).linkOut = c.linkOut := rfl
@[simp] theorem endCut_store (c : Chip) : (endCut c).store = c.store := rfl
@[simp] theorem endCut_prot (c : Chip) : (endCut c).prot = c.prot := rfl
@[simp] theorem endCut_power (c : Chip) : (endCut c).power = c.power := rfl
@[simp] theorem endCut_boot (c : Chip) : (endCut c).boot = c.boot := rfl
@[simp] theorem endCut_link (c : Chip) : (endCut c).link = c.link := rfl

/-! ## A channel: its ramp table and its phase stand through every change of its motion -/

@[simp] theorem Channel.takeUp_ramp (ch : Channel) (r p s : Nat) : (ch.takeUp r p s).ramp = ch.ramp := rfl
@[simp] theorem Channel.takeUp_phase (ch : Channel) (r p s : Nat) : (ch.takeUp r p s).phase = ch.phase := rfl
@[simp] theorem Channel.step_ramp (ch : Channel) : ch.step.1.ramp = ch.ramp := rfl
@[simp] theorem Channel.step_phase (ch : Channel) : ch.step.1.phase = (ch.phase + 1) % 8 := rfl
@[simp] theorem Channel.decelerate_ramp (ch : Channel) (k : StopCause) : (ch.decelerate k).ramp = ch.ramp := rfl
@[simp] theorem Channel.decelerate_phase (ch : Channel) (k : StopCause) : (ch.decelerate k).phase = ch.phase := rfl
@[simp] theorem Channel.halt_ramp (ch : Channel) : ch.halt.ramp = ch.ramp := rfl
@[simp] theorem Channel.halt_phase (ch : Channel) : ch.halt.phase = ch.phase := rfl
@[simp] theorem Channel.begin_ramp (ch : Channel) : ch.begin.ramp = ch.ramp := rfl
@[simp] theorem Channel.begin_phase (ch : Channel) : ch.begin.phase = ch.phase := rfl
@[simp] theorem Channel.trip_ramp (ch : Channel) : ch.trip.ramp = ch.ramp := rfl
@[simp] theorem Channel.trip_phase (ch : Channel) : ch.trip.phase = ch.phase := rfl
@[simp] theorem Channel.stopDead_ramp (ch : Channel) : ch.stopDead.ramp = ch.ramp := rfl
@[simp] theorem Channel.stopDead_phase (ch : Channel) : ch.stopDead.phase = ch.phase := rfl
@[simp] theorem Channel.wake_ramp (ch : Channel) : ch.wake.ramp = ch.ramp := rfl
@[simp] theorem Channel.wake_phase (ch : Channel) : ch.wake.phase = ch.phase := rfl
@[simp] theorem Channel.tick_ramp (ch : Channel) : ch.tick.ramp = ch.ramp := rfl
@[simp] theorem Channel.tick_phase (ch : Channel) : ch.tick.phase = ch.phase := rfl

@[simp] theorem Channel.release_ramp (ch : Channel) : ch.release.ramp = ch.ramp := rfl
@[simp] theorem Channel.release_phase (ch : Channel) : ch.release.phase = ch.phase := rfl
@[simp] theorem Channel.release_run (ch : Channel) : ch.release.run = none := rfl
@[simp] theorem Channel.release_route (ch : Channel) : ch.release.route = none := rfl
@[simp] theorem Channel.release_motion (ch : Channel) : ch.release.motion = ch.motion := rfl
@[simp] theorem Channel.release_drive (ch : Channel) : ch.release.drive = ch.drive := rfl
@[simp] theorem Channel.release_k (ch : Channel) : ch.release.k = ch.k := rfl
@[simp] theorem Channel.startLine_ramp (ch : Channel) : ch.startLine.ramp = ch.ramp := by
  unfold Channel.startLine; split <;> rfl
@[simp] theorem Channel.startLine_phase (ch : Channel) : ch.startLine.phase = ch.phase := by
  unfold Channel.startLine; split <;> rfl

@[simp] theorem Channel.takeCause_ramp (ch : Channel) : ch.takeCause.ramp = ch.ramp := by
  unfold Channel.takeCause; (repeat' split) <;> rfl
@[simp] theorem Channel.takeCause_phase (ch : Channel) : ch.takeCause.phase = ch.phase := by
  unfold Channel.takeCause; (repeat' split) <;> rfl
@[simp] theorem Channel.untrip_ramp (ch : Channel) : ch.untrip.ramp = ch.ramp := by
  unfold Channel.untrip; (repeat' split) <;> rfl
@[simp] theorem Channel.untrip_phase (ch : Channel) : ch.untrip.phase = ch.phase := by
  unfold Channel.untrip; (repeat' split) <;> rfl
@[simp] theorem Channel.plan_ramp (ch : Channel) : ch.plan.ramp = ch.ramp := by
  unfold Channel.plan; (repeat' split) <;> rfl
@[simp] theorem Channel.plan_phase (ch : Channel) : ch.plan.phase = ch.phase := by
  unfold Channel.plan; (repeat' split) <;> rfl
@[simp] theorem Channel.stopFor_ramp (ch : Channel) (k : StopCause) : (Channel.stopFor k ch).ramp = ch.ramp := by
  unfold Channel.stopFor; (repeat' split) <;> rfl
@[simp] theorem Channel.stopFor_phase (ch : Channel) (k : StopCause) : (Channel.stopFor k ch).phase = ch.phase := by
  unfold Channel.stopFor; (repeat' split) <;> rfl
@[simp] theorem Channel.abortFor_ramp (ch : Channel) : ch.abortFor.ramp = ch.ramp := by
  unfold Channel.abortFor; (repeat' split) <;> rfl
@[simp] theorem Channel.abortFor_phase (ch : Channel) : ch.abortFor.phase = ch.phase := by
  unfold Channel.abortFor; (repeat' split) <;> rfl
@[simp] theorem Channel.paperOutFor_ramp (ch : Channel) : ch.paperOutFor.ramp = ch.ramp := by
  unfold Channel.paperOutFor; (repeat' split) <;> rfl
@[simp] theorem Channel.paperOutFor_phase (ch : Channel) : ch.paperOutFor.phase = ch.phase := by
  unfold Channel.paperOutFor; (repeat' split) <;> rfl
@[simp] theorem Channel.holdOver_ramp (ch : Channel) : ch.holdOver.ramp = ch.ramp := by
  unfold Channel.holdOver; (repeat' split) <;> rfl
@[simp] theorem Channel.holdOver_phase (ch : Channel) : ch.holdOver.phase = ch.phase := by
  unfold Channel.holdOver; (repeat' split) <;> rfl
@[simp] theorem Channel.sleep_ramp (ch : Channel) : ch.sleep.ramp = ch.ramp := by
  unfold Channel.sleep; (repeat' split) <;> rfl
@[simp] theorem Channel.sleep_phase (ch : Channel) : ch.sleep.phase = ch.phase := by
  unfold Channel.sleep; (repeat' split) <;> rfl

/-! ## The tables of the Power Controller stand through every tick -/

@[simp] theorem Power.tick_park (p : Power) : p.tick.park = p.park := rfl
@[simp] theorem Power.tick_holds (p : Power) : p.tick.holds = p.holds := rfl
@[simp] theorem Power.tick_wake (p : Power) : p.tick.wake = p.wake := rfl
@[simp] theorem Power.slowTick_park (p : Power) : p.slowTick.park = p.park := rfl
@[simp] theorem Power.slowTick_holds (p : Power) : p.slowTick.holds = p.holds := rfl
@[simp] theorem Power.slowTick_wake (p : Power) : p.slowTick.wake = p.wake := rfl

/-! ## The flash -/

@[simp] theorem Flash.bump_mem (f : Flash) : f.bump.mem = f.mem := rfl
@[simp] theorem Flash.bump_lockCells (f : Flash) : f.bump.lockCells = f.lockCells := rfl
@[simp] theorem Flash.bumpBy_mem (n : Nat) (f : Flash) : (f.bumpBy n).mem = f.mem := rfl
@[simp] theorem Flash.bumpBy_lockCells (n : Nat) (f : Flash) : (f.bumpBy n).lockCells = f.lockCells := rfl
@[simp] theorem Flash.program_lockCells (f : Flash) (r : ProgResult) (ws : List Write) :
    (f.program r ws).1.lockCells = f.lockCells := rfl
@[simp] theorem Flash.program_mem (f : Flash) (r : ProgResult) (ws : List Write) :
    (f.program r ws).1.mem = (programRun (Config.freeByte f.uses) r f.mem ws).1 := rfl
@[simp] theorem Flash.cut_lockCells (f : Flash) (ws : List Write) : (f.cut ws).lockCells = f.lockCells := rfl
@[simp] theorem Flash.eraseBlock_mem (f : Flash) (b : Nat) : (f.eraseBlock b).mem = eraseMem f.mem b := rfl
@[simp] theorem Flash.eraseBlock_lockCells (f : Flash) (b : Nat) : (f.eraseBlock b).lockCells = f.lockCells := rfl
@[simp] theorem Flash.untear_mem (f : Flash) (b : Nat) : (f.untear b).mem = f.mem := rfl
@[simp] theorem Flash.untear_lockCells (f : Flash) (b : Nat) : (f.untear b).lockCells = f.lockCells := rfl
@[simp] theorem Flash.tear_mem (f : Flash) (b : Nat) : (f.tear b).mem = f.mem := by unfold Flash.tear; split <;> rfl
@[simp] theorem Flash.tear_lockCells (f : Flash) (b : Nat) : (f.tear b).lockCells = f.lockCells := by
  unfold Flash.tear; split <;> rfl

/-! ## A route's queues -/

@[simp] theorem Ctx.queue_setQueue (x : Ctx) (k : Sink) (q : List Entry) : (x.setQueue k q).queue k = q := by cases k <;> rfl
@[simp] theorem Ctx.queue_setQueue_ne (x : Ctx) (k j : Sink) (q : List Entry) (h : j ≠ k) :
    (x.setQueue k q).queue j = x.queue j := by cases k <;> cases j <;> first | rfl | exact absurd rfl h
@[simp] theorem Ctx.setQueue_sinks (x : Ctx) (k : Sink) (q : List Entry) : (x.setQueue k q).sinks = x.sinks := by
  cases k <;> rfl
@[simp] theorem Ctx.setQueue_quota (x : Ctx) (k : Sink) (q : List Entry) : (x.setQueue k q).quota = x.quota := by
  cases k <;> rfl
@[simp] theorem Ctx.setQueue_hold (x : Ctx) (k : Sink) (q : List Entry) : (x.setQueue k q).hold = x.hold := by
  cases k <;> rfl

end Sys2Proof.Machine
end

