-- ==== Sys2Proof/Laws/Ops.lean ====
section
/-!
SUPPORT. What each shared operation leaves alone: the report queue, the line pool, route contexts, supplies, blocks and pages
(Machine/Ops.lean).
-/

-- One declaration after another: the package as one text keeps within the check's limit on threads.
set_option Elab.async false

namespace Sys2Proof.Machine

open Sys2Proof

theorem setRoute_kept {w u : Chip} (hu : Kept w u) (r : ℕ) (x : Route) : Kept w (setRoute r x u) := by
  unfold setRoute
  repeat' first
    | with_reducible assumption
    | with_reducible refine Kept.update ?_

theorem modCtx_kept {w u : Chip} (hu : Kept w u) (r : ℕ) (f : Ctx → Ctx) : Kept w (modCtx r f u) := by
  unfold modCtx
  repeat' first
    | with_reducible assumption
    | with_reducible apply setRoute_kept
    | (extract_lets +onlyGivenNames v; subst v)
    | split

theorem recordReady_kept {w u : Chip} (hu : Kept w u) : Kept w (recordReady u) := by
  unfold recordReady
  repeat' first
    | with_reducible assumption
    | (extract_lets +onlyGivenNames v; subst v)
    | split
    | with_reducible refine Kept.update ?_

theorem queueRecord_kept {w u : Chip} (hu : Kept w u) (x : Report) : Kept w (queueRecord x u) := by
  unfold queueRecord
  repeat' first
    | with_reducible assumption
    | with_reducible apply recordReady_kept
    | (extract_lets +onlyGivenNames v; subst v)
    | with_reducible refine Kept.update ?_

theorem markReported_kept {w u : Chip} (hu : Kept w u) (p : ℕ → Ctx → Bool) : Kept w (markReported p u) := by
  unfold markReported
  repeat' first
    | with_reducible assumption
    | split
    | with_reducible refine Kept.update ?_

theorem reportHalts_kept {w u : Chip} (hu : Kept w u) (e : Event) : Kept w (reportHalts e u) := by
  unfold reportHalts
  repeat' first
    | with_reducible assumption
    | with_reducible apply markReported_kept
    | split

theorem queueEvent_kept {w u : Chip} (hu : Kept w u) (e : Event) : Kept w (queueEvent e u) := by
  unfold queueEvent
  repeat' first
    | with_reducible assumption
    | with_reducible apply reportHalts_kept
    | with_reducible apply queueRecord_kept
    | (extract_lets +onlyGivenNames v; subst v)
    | split
    | with_reducible refine Kept.update ?_

theorem queueEvents_kept {w u : Chip} (hu : Kept w u) (es : List Event) : Kept w (queueEvents es u) := by
  unfold queueEvents
  repeat' first
    | with_reducible assumption
    | intro _
    | with_reducible apply queueEvent_kept
    | with_reducible refine Kept.fold ?_ ?_

theorem queueCredit_kept {w u : Chip} (hu : Kept w u) (r : ℕ) (x : ℕ) : Kept w (queueCredit r x u) := by
  unfold queueCredit
  repeat' first
    | with_reducible assumption
    | with_reducible apply queueRecord_kept
    | (extract_lets +onlyGivenNames v; subst v)
    | split
    | with_reducible refine Kept.update ?_

theorem reply_kept {w u : Chip} (hu : Kept w u) (p : List Byte) (a : Answer) : Kept w (reply p a u) := by
  unfold reply
  repeat' first
    | with_reducible assumption
    | with_reducible apply queueRecord_kept

theorem refuse_kept {w u : Chip} (hu : Kept w u) (p : List Byte) (r : Reason) : Kept w (refuse p r u) := by
  unfold refuse
  repeat' first
    | with_reducible assumption
    | with_reducible apply reply_kept

theorem refuseProtected_kept {w u : Chip} (hu : Kept w u) (p : List Byte) : Kept w (refuseProtected p u) := by
  unfold refuseProtected
  repeat' first
    | with_reducible assumption
    | with_reducible apply refuse_kept
    | (extract_lets +onlyGivenNames v; subst v)
    | with_reducible refine Kept.update ?_

theorem withLength_kept {w u : Chip} (hu : Kept w u) (p : List Byte) (n : Nat) (f : Chip → Chip)
    (hf : ∀ c, Kept w c → Kept w (f c)) : Kept w (withLength p n f u) := by
  unfold withLength
  split
  · exact hf u hu
  · exact refuse_kept hu _ _

/-! ## The line pool (R1, R2, R5) -/

/-- A slot that is taken stays taken: the free list is the FREE slots still. -/
theorem PoolOk.retake {p : Pool} (h : PoolOk p) {n : Nat} {x : Slot} (hn : p.slots.getD n .free ≠ .free) (hx : x ≠ .free) :
    PoolOk { p with slots := p.slots.set n x } := by
  obtain ⟨h1, h2, h3⟩ := h
  refine ⟨by simpa using h1, h2, fun m => ?_⟩
  rw [h3 m]
  by_cases e : m = n
  · subst e
    have hl : m < p.slots.length := by
      by_contra hc
      exact hn (by simp [List.getD, List.getElem?_eq_none (Nat.le_of_not_lt hc)])
    constructor
    · intro k; exact absurd k.2 hn
    · intro k; simp [List.getD, hl] at k; exact absurd k.2 hx
  · simp [List.getD, Ne.symm e]

/-- A take: the head of the free list leaves it, its slot taken. -/
theorem PoolOk.take {p : Pool} (h : PoolOk p) {n : Nat} {rest : List Nat} {x : Slot} (hf : p.freeList = n :: rest)
    (hx : x ≠ .free) : PoolOk { slots := p.slots.set n x, freeList := rest } := by
  obtain ⟨h1, h2, h3⟩ := h
  rw [hf] at h2
  have hn := (h3 n).1 (by simp [hf])
  refine ⟨by simpa using h1, h2.of_cons, fun m => ?_⟩
  have hm := h3 m
  rw [hf] at hm
  by_cases e : m = n
  · subst e
    have hl : m < p.slots.length := by omega
    constructor
    · intro k; exact absurd k (List.nodup_cons.1 h2).1
    · intro k; simp [List.getD, hl] at k; exact absurd k.2 hx
  · simp only [List.mem_cons, e, false_or] at hm
    simpa [List.getD, List.getElem?_set, Ne.symm e] using hm

/-- A return: the slot is FREE, at the tail of the free list. -/
theorem PoolOk.put {p : Pool} (h : PoolOk p) {n : Nat} (hn : p.slots.getD n .free ≠ .free) :
    PoolOk { slots := p.slots.set n .free, freeList := p.freeList ++ [n] } := by
  obtain ⟨h1, h2, h3⟩ := h
  have hl : n < p.slots.length := by
    by_contra hc
    exact hn (by simp [List.getD, List.getElem?_eq_none (Nat.le_of_not_lt hc)])
  have hm : n ∉ p.freeList := fun k => hn ((h3 n).1 k).2
  refine ⟨by simpa using h1, ?_, fun m => ?_⟩
  · exact List.nodup_append.2 ⟨h2, by simp, by
      intro a ha b hb; simp at hb; subst hb; intro e; subst e; exact hm ha⟩
  · by_cases e : m = n
    · subst e; simp [List.getD, hl]; omega
    · simpa [List.getD, List.getElem?_set, Ne.symm e, e] using h3 m

theorem setSlot_kept {w u : Chip} (hu : Kept w u) (n : Nat) (x : Slot) (hx : x ≠ .free) :
    Kept w (setSlot n x u) := by
  unfold setSlot
  split
  · rename_i hn
    refine ⟨hu.1, fun p => (hu.2 p).retake (n := n) (fun hf => hx ?_) hx⟩
    have hr : none = x.route := by rw [← hn, slotAt, hf]; rfl
    cases x <;> first | rfl | cases hr
  · exact hu

theorem syncCredit_kept {w u : Chip} (hu : Kept w u) (r : ℕ) : Kept w (syncCredit r u) := by
  unfold syncCredit
  repeat' first
    | with_reducible assumption
    | with_reducible apply queueCredit_kept
    | with_reducible apply modCtx_kept
    | split

theorem takeSlot_kept {w u c : Chip} {r n : Nat} {mk : Nat → Slot} (hu : Kept w u)
    (e : takeSlot r mk u = some (n, c)) (hmk : ∀ r, mk r ≠ .free) : Kept w c := by
  unfold takeSlot at e
  split at e
  · cases e
  · split at e
    · split at e
      · cases e
      · rename_i hf
        cases e
        have k : Kept w { u with pool := ⟨u.pool.slots.set _ (mk r), _⟩ } := ⟨hu.1, fun p => (hu.2 p).take hf (hmk r)⟩
        exact syncCredit_kept k r
    · cases e

theorem returnSlot_kept {w u : Chip} (hu : Kept w u) (n : Nat) : Kept w (returnSlot n u) := by
  unfold returnSlot
  split
  · exact hu
  · rename_i hn
    extract_lets c
    have hc : Kept w c := ⟨hu.1, fun p => (hu.2 p).put (n := n) hn⟩
    split
    · exact syncCredit_kept hc _
    · exact hc

theorem returnSlots_kept {w u : Chip} (hu : Kept w u) (ns : List ℕ) : Kept w (returnSlots ns u) := by
  unfold returnSlots
  repeat' first
    | with_reducible assumption
    | intro _
    | with_reducible apply returnSlot_kept
    | with_reducible refine Kept.fold ?_ ?_

theorem dropReference_kept {w u : Chip} (hu : Kept w u) (n : ℕ) : Kept w (dropReference n u) := by
  unfold dropReference
  repeat' first
    | with_reducible assumption
    | with_reducible apply returnSlot_kept
    | with_reducible refine setSlot_kept ?_ _ _ (by simp)
    | split

theorem returnReservations_kept {w u : Chip} (hu : Kept w u) (r : ℕ) : Kept w (returnReservations r u) := by
  unfold returnReservations
  repeat' first
    | with_reducible assumption
    | with_reducible apply returnSlots_kept
    | with_reducible apply modCtx_kept
    | split

theorem haltRoute_kept {w u : Chip} (hu : Kept w u) (r : ℕ) (h : Halt) : Kept w (haltRoute r h u) := by
  unfold haltRoute
  repeat' first
    | with_reducible assumption
    | with_reducible apply setRoute_kept
    | (extract_lets +onlyGivenNames v; subst v)
    | split

theorem addStall_kept {w u : Chip} (hu : Kept w u) (r : ℕ) (s : Stall) : Kept w (addStall r s u) := by
  unfold addStall
  repeat' first
    | with_reducible assumption
    | with_reducible apply modCtx_kept

theorem dropStall_kept {w u : Chip} (hu : Kept w u) (r : ℕ) (s : Stall) : Kept w (dropStall r s u) := by
  unfold dropStall
  repeat' first
    | with_reducible assumption
    | with_reducible apply modCtx_kept

theorem takeLamp_kept {w u : Chip} (hu : Kept w u) : Kept w (takeLamp u) := by
  unfold takeLamp
  repeat' first
    | with_reducible assumption
    | (extract_lets +onlyGivenNames v; subst v)
    | split
    | with_reducible refine Kept.update ?_

theorem dropLamp_kept {w u : Chip} (hu : Kept w u) : Kept w (dropLamp u) := by
  unfold dropLamp
  repeat' first
    | with_reducible assumption
    | (extract_lets +onlyGivenNames v; subst v)
    | split
    | with_reducible refine Kept.update ?_

theorem modBlock_kept {w u : Chip} (hu : Kept w u) (b : ℕ) (f : Block → Block) : Kept w (modBlock b f u) := by
  unfold modBlock
  repeat' first
    | with_reducible assumption
    | (extract_lets +onlyGivenNames v; subst v)
    | with_reducible refine Kept.update ?_

theorem setBlockState_kept {w u : Chip} (hu : Kept w u) (b : ℕ) (st : BlockState) : Kept w (setBlockState b st u) := by
  unfold setBlockState
  repeat' first
    | with_reducible assumption
    | with_reducible apply modBlock_kept

theorem modPage_kept {w u : Chip} (hu : Kept w u) (id : ℕ) (f : Page → Page) : Kept w (modPage id f u) := by
  unfold modPage
  repeat' first
    | with_reducible assumption
    | (extract_lets +onlyGivenNames v; subst v)
    | split
    | with_reducible refine Kept.update ?_

theorem removePage_kept {w u : Chip} (hu : Kept w u) (id : ℕ) : Kept w (removePage id u) := by
  unfold removePage
  repeat' first
    | with_reducible assumption
    | (extract_lets +onlyGivenNames v; subst v)
    | with_reducible refine Kept.update ?_

theorem joinErased_kept {w u : Chip} (hu : Kept w u) (b : ℕ) : Kept w (joinErased b u) := by
  unfold joinErased
  repeat' first
    | with_reducible assumption
    | (extract_lets +onlyGivenNames v; subst v)
    | split
    | with_reducible refine Kept.update ?_

theorem joinEraseQueue_kept {w u : Chip} (hu : Kept w u) (b : ℕ) : Kept w (joinEraseQueue b u) := by
  unfold joinEraseQueue
  repeat' first
    | with_reducible assumption
    | (extract_lets +onlyGivenNames v; subst v)
    | split
    | with_reducible refine Kept.update ?_

theorem programFailed_kept {w u : Chip} (hu : Kept w u) (b : ℕ) : Kept w (programFailed b u) := by
  unfold programFailed
  repeat' first
    | with_reducible assumption
    | with_reducible apply queueEvent_kept
    | (extract_lets +onlyGivenNames v; subst v)
    | with_reducible refine Kept.update ?_

end Sys2Proof.Machine
end

