-- ==== Sys2Proof/Laws/Head.lean ====
section
/-!
SUPPORT. What the operations of the head and of the flash arbiter leave alone (Machine/Head.lean, Machine/Arbiter.lean).
-/

-- One declaration after another: the package as one text keeps within the check's limit on threads.
set_option Elab.async false

namespace Sys2Proof.Machine

open Sys2Proof

theorem refreshLoad_kept {w u : Chip} (hu : Kept w u) : Kept w (refreshLoad u) := by
  unfold refreshLoad
  repeat' first
    | with_reducible assumption
    | (extract_lets +onlyGivenNames v; subst v)
    | split
    | with_reducible refine Kept.update ?_

theorem sampleTherm_kept {w u : Chip} (hu : Kept w u) (therm : Byte) : Kept w (sampleTherm therm u) := by
  unfold sampleTherm
  repeat' first
    | with_reducible assumption
    | (extract_lets +onlyGivenNames v; subst v)
    | with_reducible refine Kept.update ?_

theorem beginBurn_kept {w u : Chip} (hu : Kept w u) (therm : Byte) : Kept w (beginBurn therm u) := by
  unfold beginBurn
  repeat' first
    | with_reducible assumption
    | with_reducible apply sampleTherm_kept
    | with_reducible apply queueEvent_kept
    | with_reducible apply refreshLoad_kept
    | (extract_lets +onlyGivenNames v; subst v)
    | split
    | with_reducible refine Kept.update ?_

theorem cutStrobe_kept {w u : Chip} (hu : Kept w u) : Kept w (cutStrobe u) := by
  unfold cutStrobe
  repeat' first
    | with_reducible assumption
    | (extract_lets +onlyGivenNames v; subst v)
    | with_reducible refine Kept.update ?_

theorem headContentLost_kept {w u : Chip} (hu : Kept w u) : Kept w (headContentLost u) := by
  unfold headContentLost
  repeat' first
    | with_reducible assumption
    | (extract_lets +onlyGivenNames v; subst v)
    | with_reducible refine Kept.update ?_

theorem takeHeadUse_kept {w u : Chip} (hu : Kept w u) : Kept w (takeHeadUse u) := by
  unfold takeHeadUse
  repeat' first
    | with_reducible assumption
    | (extract_lets +onlyGivenNames v; subst v)
    | with_reducible refine Kept.update ?_

theorem dropHeadUse_kept {w u : Chip} (hu : Kept w u) : Kept w (dropHeadUse u) := by
  unfold dropHeadUse
  repeat' first
    | with_reducible assumption
    | with_reducible apply headContentLost_kept
    | (extract_lets +onlyGivenNames v; first | (refine (fun _ : Kept w v => ?_) ?_; rotate_left; subst v; rotate_left; clear_value v) | subst v)
    | split
    | with_reducible refine Kept.update ?_

theorem takeUpHead_kept {w u : Chip} (hu : Kept w u) (r : ℕ) (copy : HeadCopy) : Kept w (takeUpHead r copy u) := by
  unfold takeUpHead
  repeat' first
    | with_reducible assumption
    | with_reducible apply takeHeadUse_kept
    | (extract_lets +onlyGivenNames v; subst v)
    | with_reducible refine Kept.update ?_

theorem releaseHead_kept {w u : Chip} (hu : Kept w u) : Kept w (releaseHead u) := by
  unfold releaseHead
  repeat' first
    | with_reducible assumption
    | with_reducible apply dropHeadUse_kept
    | (extract_lets +onlyGivenNames v; subst v)
    | with_reducible refine Kept.update ?_

theorem beginCut_kept {w u : Chip} (hu : Kept w u) : Kept w (beginCut u) := by
  unfold beginCut
  repeat' first
    | with_reducible assumption
    | (extract_lets +onlyGivenNames v; subst v)
    | with_reducible refine Kept.update ?_

theorem endCut_kept {w u : Chip} (hu : Kept w u) : Kept w (endCut u) := by
  unfold endCut
  repeat' first
    | with_reducible assumption
    | (extract_lets +onlyGivenNames v; subst v)
    | with_reducible refine Kept.update ?_

theorem setErase_kept {w u : Chip} (hu : Kept w u) (e : Option EraseProg) : Kept w (setErase e u) := by
  unfold setErase
  repeat' first
    | with_reducible assumption
    | (extract_lets +onlyGivenNames v; subst v)
    | with_reducible refine Kept.update ?_

theorem suspendErase_kept {w u c : Chip} (hu : Kept w u) (e : suspendErase u = some c) : Kept w c := by
  unfold suspendErase at e
  repeat' split at e
  all_goals cases e
  all_goals exact hu

theorem resumeErase_kept {w u : Chip} (hu : Kept w u) : Kept w (resumeErase u) := by
  unfold resumeErase
  repeat' first
    | with_reducible assumption
    | with_reducible apply setErase_kept
    | split

theorem grant_kept {w u : Chip} (hu : Kept w u) : Kept w (grant u) := by
  unfold grant
  repeat' first
    | with_reducible assumption
    | with_reducible refine suspendErase_kept ?_ ‹_›
    | with_reducible apply resumeErase_kept
    | (extract_lets +onlyGivenNames v; subst v)
    | split
    | with_reducible refine Kept.update ?_

theorem askRead_kept {w u : Chip} (hu : Kept w u) (j : Job) : Kept w (askRead j u) := by
  unfold askRead
  repeat' first
    | with_reducible assumption
    | with_reducible apply grant_kept
    | (extract_lets +onlyGivenNames v; subst v)
    | with_reducible refine Kept.update ?_

theorem askProgram_kept {w u : Chip} (hu : Kept w u) (j : Job) : Kept w (askProgram j u) := by
  unfold askProgram
  repeat' first
    | with_reducible assumption
    | with_reducible apply grant_kept
    | (extract_lets +onlyGivenNames v; subst v)
    | with_reducible refine Kept.update ?_

theorem freeFlash_kept {w u : Chip} (hu : Kept w u) : Kept w (freeFlash u) := by
  unfold freeFlash
  repeat' first
    | with_reducible assumption
    | with_reducible apply grant_kept
    | (extract_lets +onlyGivenNames v; subst v)
    | with_reducible refine Kept.update ?_

theorem withdraw_kept {w u : Chip} (hu : Kept w u) (p : Job → Bool) : Kept w (withdraw p u) := by
  unfold withdraw
  repeat' first
    | with_reducible assumption
    | (extract_lets +onlyGivenNames v; subst v)
    | with_reducible refine Kept.update ?_

theorem retireBlock_kept {w u : Chip} (hu : Kept w u) (why : RetireFor) (b : ℕ) : Kept w (retireBlock why u b) := by
  unfold retireBlock
  repeat' first
    | with_reducible assumption
    | with_reducible apply askProgram_kept
    | with_reducible apply setBlockState_kept

theorem retireBlocks_kept {w u : Chip} (hu : Kept w u) (why : RetireFor) (bs : List ℕ) : Kept w (retireBlocks why bs u) := by
  unfold retireBlocks
  repeat' first
    | with_reducible assumption
    | intro _
    | with_reducible apply retireBlock_kept
    | with_reducible refine Kept.fold ?_ ?_
    | (extract_lets +onlyGivenNames v; subst v)
    | split
    | with_reducible refine Kept.update ?_

theorem damageBlock_kept {w u : Chip} (hu : Kept w u) (b : ℕ) : Kept w (damageBlock b u) := by
  unfold damageBlock
  repeat' first
    | with_reducible assumption
    | with_reducible apply askProgram_kept
    | with_reducible apply setBlockState_kept

end Sys2Proof.Machine
end

