-- ==== Sys2Proof/Laws/Placing.lean ====
section
/-!
SUPPORT. What placing entries, page ends, dropped references and close requests leave alone (Machine/Placing.lean).
-/

-- One declaration after another: the package as one text keeps within the check's limit on threads.
set_option Elab.async false

namespace Sys2Proof.Machine

open Sys2Proof

theorem enterQueues_kept {w u : Chip} (hu : Kept w u) (r : ℕ) (e : Entry) : Kept w (enterQueues r e u) := by
  unfold enterQueues
  repeat' first
    | with_reducible assumption
    | with_reducible apply modCtx_kept
    | with_reducible refine setSlot_kept ?_ _ _ (by simp)
    | (extract_lets +onlyGivenNames v; refine (fun _ : Kept w v => ?_) ?_; rotate_left; subst v; rotate_left; clear_value v)
    | split

theorem placeEntry_kept {w u : Chip} (hu : Kept w u) (r : ℕ) (e : Entry) : Kept w (placeEntry r e u) := by
  unfold placeEntry
  repeat' first
    | with_reducible assumption
    | with_reducible apply enterQueues_kept
    | with_reducible apply modCtx_kept
    | split

theorem moveHold_kept {w u : Chip} (hu : Kept w u) (r : Nat) (es : List Entry) : Kept w (moveHold r es u) := by
  induction es generalizing u with
  | nil => exact modCtx_kept hu _ _
  | cons e es ih =>
    unfold moveHold
    repeat' first
      | with_reducible assumption
      | exact modCtx_kept hu _ _
      | exact ih (enterQueues_kept hu _ _)
      | split

theorem settleHold_kept {w u : Chip} (hu : Kept w u) (r : ℕ) : Kept w (settleHold r u) := by
  unfold settleHold
  repeat' first
    | with_reducible assumption
    | with_reducible apply moveHold_kept
    | split

theorem pageEnd_kept {w u : Chip} (hu : Kept w u) (r : ℕ) (truncated : Bool) : Kept w (pageEnd r truncated u) := by
  unfold pageEnd
  repeat' first
    | with_reducible assumption
    | with_reducible apply placeEntry_kept
    | with_reducible apply modCtx_kept
    | split

theorem fillComplete_kept {w u : Chip} (hu : Kept w u) (r : ℕ) (slot : ℕ) (l : Line) (repaired : Bool) : Kept w (fillComplete r slot l repaired u) := by
  unfold fillComplete
  repeat' first
    | with_reducible assumption
    | with_reducible apply returnSlot_kept
    | with_reducible refine setSlot_kept ?_ _ _ (by simp)
    | with_reducible apply modCtx_kept
    | with_reducible apply queueEvent_kept
    | with_reducible apply placeEntry_kept
    | with_reducible apply pageEnd_kept
    | (extract_lets +onlyGivenNames v; refine (fun _ : Kept w v => ?_) ?_; rotate_left; subst v; rotate_left; clear_value v)
    | split

theorem dropHead_kept {w u : Chip} (hu : Kept w u) (k : Sink) (r : ℕ) : Kept w (dropHead k r u) := by
  unfold dropHead
  repeat' first
    | with_reducible assumption
    | with_reducible apply settleHold_kept
    | with_reducible apply dropReference_kept
    | with_reducible apply modCtx_kept
    | split

theorem serveMark_kept {w u : Chip} (hu : Kept w u) (k : Sink) (r : ℕ) (f : Mark → Mark) : Kept w (serveMark k r f u) := by
  unfold serveMark
  repeat' first
    | with_reducible assumption
    | with_reducible apply modCtx_kept
    | with_reducible apply queueEvent_kept
    | with_reducible apply setRoute_kept
    | with_reducible apply settleHold_kept
    | (extract_lets +onlyGivenNames v; first | (refine (fun _ : Kept w v => ?_) ?_; rotate_left; subst v; rotate_left; clear_value v) | subst v)
    | split

theorem stopScan_kept {w u : Chip} (hu : Kept w u) (cause : StopCause) : Kept w (stopScan cause u) := by
  unfold stopScan
  repeat' first
    | with_reducible assumption
    | (extract_lets +onlyGivenNames v; subst v)
    | with_reducible refine Kept.update ?_

theorem endScanSource_kept {w u : Chip} (hu : Kept w u) : Kept w (endScanSource u) := by
  unfold endScanSource
  repeat' first
    | with_reducible assumption
    | with_reducible apply dropLamp_kept
    | (extract_lets +onlyGivenNames v; subst v)
    | with_reducible refine Kept.update ?_

theorem dropWaitingStart_kept {w u : Chip} (hu : Kept w u) : Kept w (dropWaitingStart u) := by
  unfold dropWaitingStart
  repeat' first
    | with_reducible assumption
    | with_reducible apply returnReservations_kept
    | split

theorem closeScanSource_kept {w u : Chip} (hu : Kept w u) : Kept w (closeScanSource u) := by
  unfold closeScanSource
  repeat' first
    | with_reducible assumption
    | with_reducible apply endScanSource_kept
    | with_reducible apply dropWaitingStart_kept
    | with_reducible apply stopScan_kept
    | split

theorem requestClose_kept {w u : Chip} (hu : Kept w u) (r : ℕ) : Kept w (requestClose r u) := by
  unfold requestClose
  repeat' first
    | with_reducible assumption
    | with_reducible apply modCtx_kept
    | with_reducible apply closeScanSource_kept
    | with_reducible apply pageEnd_kept
    | (extract_lets +onlyGivenNames v; refine (fun _ : Kept w v => ?_) ?_; rotate_left; subst v; rotate_left; clear_value v)
    | split

end Sys2Proof.Machine
end

