-- ==== Sys2Proof/Laws/StoreSink.lean ====
section
/-!
SUPPORT. What the store sink, the link-out lane and the close of a route leave alone (Machine/StoreSink.lean, Machine/Closing.lean).
-/

-- One declaration after another: the package as one text keeps within the check's limit on threads.
set_option Elab.async false

namespace Sys2Proof.Machine

open Sys2Proof

theorem setWork_kept {w u : Chip} (hu : Kept w u) (x : Option Work) : Kept w (setWork x u) := by
  unfold setWork
  repeat' first
    | with_reducible assumption
    | (extract_lets +onlyGivenNames v; subst v)
    | with_reducible refine Kept.update ?_

theorem createPage_kept {w u : Chip} (hu : Kept w u) (r : ℕ) (start : Option ℕ) : Kept w (createPage r start u) := by
  unfold createPage
  repeat' first
    | with_reducible assumption
    | with_reducible apply modCtx_kept
    | (extract_lets +onlyGivenNames v; subst v)
    | split
    | with_reducible refine Kept.update ?_

theorem forgetPage_kept {w u : Chip} (hu : Kept w u) (id : ℕ) : Kept w (forgetPage id u) := by
  unfold forgetPage
  repeat' first
    | with_reducible assumption
    | split
    | with_reducible refine Kept.update ?_

theorem endPage_kept {w u : Chip} (hu : Kept w u) (route : Option ℕ) (truncated : Bool) (mark : Option Mark) (id : ℕ) : Kept w (endPage route truncated mark id u) := by
  unfold endPage
  repeat' first
    | with_reducible assumption
    | with_reducible apply forgetPage_kept
    | with_reducible apply setWork_kept
    | with_reducible apply askProgram_kept
    | with_reducible apply setBlockState_kept
    | with_reducible apply retireBlocks_kept
    | with_reducible apply removePage_kept
    | split

theorem meetFull_kept {w u : Chip} (hu : Kept w u) (r : ℕ) (cause : FullCause) : Kept w (meetFull r cause u) := by
  unfold meetFull
  repeat' first
    | with_reducible assumption
    | with_reducible apply queueEvent_kept
    | with_reducible apply dropStall_kept
    | with_reducible apply modCtx_kept
    | with_reducible apply endPage_kept
    | with_reducible apply setWork_kept
    | with_reducible apply requestClose_kept
    | with_reducible apply dropHead_kept
    | (extract_lets +onlyGivenNames v; subst v)
    | split
    | with_reducible refine Kept.update ?_

theorem claimBlock_kept {w u c : Chip} {id seq n : Nat} {reloc : Bool} (hu : Kept w u)
    (e : claimBlock id seq reloc u = some (n, c)) : Kept w c := by
  unfold claimBlock at e
  split at e
  · cases e
  · simp only [Option.some.injEq, Prod.mk.injEq] at e
    obtain ⟨-, rfl⟩ := e
    repeat' first
      | with_reducible assumption
      | with_reducible apply askProgram_kept
      | with_reducible apply modPage_kept
      | with_reducible apply modBlock_kept
      | split
      | with_reducible refine Kept.update ?_

theorem tryClaim_kept {w u : Chip} (hu : Kept w u) (r : ℕ) : Kept w (tryClaim r u) := by
  unfold tryClaim
  repeat' first
    | with_reducible assumption
    | with_reducible refine claimBlock_kept ?_ ‹_›
    | with_reducible apply meetFull_kept
    | with_reducible apply dropStall_kept
    | with_reducible apply setWork_kept
    | with_reducible apply askProgram_kept
    | with_reducible apply addStall_kept
    | with_reducible apply queueEvent_kept
    | (extract_lets +onlyGivenNames v; first | (refine (fun _ : Kept w v => ?_) ?_; rotate_left; subst v; rotate_left; clear_value v) | subst v)
    | split
    | with_reducible refine Kept.update ?_

theorem placeWork_kept {w u : Chip} (hu : Kept w u) (r : ℕ) (size : ℕ) : Kept w (placeWork r size u) := by
  unfold placeWork
  repeat' first
    | with_reducible assumption
    | with_reducible apply tryClaim_kept
    | with_reducible apply askProgram_kept
    | with_reducible apply setBlockState_kept
    | split

theorem takeEntry_kept {w u : Chip} (hu : Kept w u) (r : ℕ) : Kept w (takeEntry r u) := by
  unfold takeEntry
  repeat' first
    | with_reducible assumption
    | with_reducible apply setWork_kept
    | with_reducible apply placeWork_kept
    | with_reducible apply createPage_kept
    | with_reducible apply meetFull_kept
    | with_reducible apply serveMark_kept
    | with_reducible apply endPage_kept
    | (extract_lets +onlyGivenNames v; first | (refine (fun _ : Kept w v => ?_) ?_; rotate_left; subst v; rotate_left; clear_value v) | subst v)
    | split
    | with_reducible refine Kept.update ?_

theorem drainEntry_kept {w u : Chip} (hu : Kept w u) (r : ℕ) : Kept w (drainEntry r u) := by
  unfold drainEntry
  repeat' first
    | with_reducible assumption
    | with_reducible apply dropHead_kept
    | with_reducible apply serveMark_kept
    | with_reducible apply modCtx_kept
    | (extract_lets +onlyGivenNames v; subst v)
    | split
    | with_reducible refine Kept.update ?_

theorem fillLane_kept {w u : Chip} (hu : Kept w u) (r : ℕ) : Kept w (fillLane r u) := by
  unfold fillLane
  repeat' first
    | with_reducible assumption
    | (extract_lets +onlyGivenNames v; subst v)
    | split
    | with_reducible refine Kept.update ?_

theorem storeLoop_kept {w u : Chip} (hu : Kept w u) (r n : Nat) : Kept w (storeLoop r n u) := by
  induction n generalizing u with
  | zero => exact hu
  | succ n ih =>
    unfold storeLoop
    repeat' first
      | with_reducible assumption
      | exact ih (drainEntry_kept hu _)
      | exact ih (takeEntry_kept hu _)
      | split

theorem storePump_kept {w u : Chip} (hu : Kept w u) (r : ℕ) : Kept w (storePump r u) := by
  unfold storePump
  repeat' first
    | with_reducible assumption
    | with_reducible apply fillLane_kept
    | with_reducible apply storeLoop_kept
    | split

theorem linkPump_kept {w u : Chip} (hu : Kept w u) : Kept w (linkPump u) := by
  unfold linkPump
  repeat' first
    | with_reducible assumption
    | with_reducible apply recordReady_kept
    | with_reducible apply pageEnd_kept
    | (extract_lets +onlyGivenNames v; subst v)
    | split
    | with_reducible refine Kept.update ?_

theorem syncMotor_kept {w u : Chip} (hu : Kept w u) : Kept w (syncMotor u) := by
  unfold syncMotor
  repeat' first
    | with_reducible assumption
    | (extract_lets +onlyGivenNames v; subst v)
    | split
    | with_reducible refine Kept.update ?_

theorem releaseScan_kept {w u : Chip} (hu : Kept w u) : Kept w (releaseScan u) := by
  unfold releaseScan
  repeat' first
    | with_reducible assumption
    | with_reducible apply dropLamp_kept
    | (extract_lets +onlyGivenNames v; refine (fun _ : Kept w v => ?_) ?_; rotate_left; subst v; rotate_left; clear_value v)
    | with_reducible refine Kept.update ?_

theorem releasePrint_kept {w u : Chip} (hu : Kept w u) : Kept w (releasePrint u) := by
  unfold releasePrint
  repeat' first
    | with_reducible assumption
    | with_reducible apply releaseHead_kept
    | (extract_lets +onlyGivenNames v; refine (fun _ : Kept w v => ?_) ?_; rotate_left; subst v; rotate_left; clear_value v)
    | with_reducible refine Kept.update ?_

theorem closeRoute_kept {w u : Chip} (hu : Kept w u) (r : ℕ) (cause : CloseCause) : Kept w (closeRoute r cause u) := by
  unfold closeRoute
  repeat' first
    | with_reducible assumption
    | with_reducible apply setRoute_kept
    | with_reducible apply releaseScan_kept
    | with_reducible apply releasePrint_kept
    | with_reducible apply queueEvent_kept
    | (extract_lets +onlyGivenNames v; first | (refine (fun _ : Kept w v => ?_) ?_; rotate_left; subst v; rotate_left; clear_value v) | subst v)
    | split

theorem closeIfEmpty_kept {w u : Chip} (hu : Kept w u) (r : ℕ) : Kept w (closeIfEmpty r u) := by
  unfold closeIfEmpty
  repeat' first
    | with_reducible assumption
    | with_reducible apply closeRoute_kept
    | split

theorem pump_kept {w u : Chip} (hu : Kept w u) (r : ℕ) : Kept w (pump r u) := by
  unfold pump
  repeat' first
    | with_reducible assumption
    | with_reducible apply closeIfEmpty_kept
    | with_reducible apply refreshLoad_kept
    | with_reducible apply linkPump_kept
    | with_reducible apply storePump_kept

theorem settle_kept {w u : Chip} (hu : Kept w u) (r : ℕ) : Kept w (settle r u) := by
  unfold settle
  repeat' first
    | with_reducible assumption
    | with_reducible apply syncMotor_kept
    | with_reducible apply pump_kept

theorem settleAll_kept {w u : Chip} (hu : Kept w u) : Kept w (settleAll u) := by
  unfold settleAll
  repeat' first
    | with_reducible assumption
    | intro _
    | with_reducible apply syncMotor_kept
    | with_reducible apply pump_kept
    | with_reducible refine Kept.fold ?_ ?_

end Sys2Proof.Machine
end

