-- ==== Sys2Proof/Laws/Scan.lean ====
section
/-!
SUPPORT. What the Scan Front End leaves alone (Machine/Scan.lean).
-/

-- One declaration after another: the package as one text keeps within the check's limit on threads.
set_option Elab.async false

namespace Sys2Proof.Machine

open Sys2Proof

theorem discardCapture_kept {w u : Chip} (hu : Kept w u) : Kept w (discardCapture u) := by
  unfold discardCapture
  repeat' first
    | with_reducible assumption
    | with_reducible apply returnSlot_kept
    | with_reducible apply pageEnd_kept
    | (extract_lets +onlyGivenNames v; first | (refine (fun _ : Kept w v => ?_) ?_; rotate_left; subst v; rotate_left; clear_value v) | subst v)
    | split
    | with_reducible refine Kept.update ?_

theorem beginCapture_kept {w u : Chip} (hu : Kept w u) : Kept w (beginCapture u) := by
  unfold beginCapture
  repeat' first
    | with_reducible assumption
    | with_reducible apply returnSlot_kept
    | with_reducible refine setSlot_kept ?_ _ _ (by simp)
    | with_reducible apply modCtx_kept
    | (extract_lets +onlyGivenNames v; first | (refine (fun _ : Kept w v => ?_) ?_; rotate_left; subst v; rotate_left; clear_value v) | subst v)
    | split
    | with_reducible refine Kept.update ?_

theorem openScan_kept {w u : Chip} (hu : Kept w u) (r : ℕ) : Kept w (openScan r u) := by
  unfold openScan
  repeat' first
    | with_reducible assumption
    | with_reducible apply takeLamp_kept
    | (extract_lets +onlyGivenNames v; first | (refine (fun _ : Kept w v => ?_) ?_; rotate_left; subst v; rotate_left; clear_value v) | subst v)
    | split
    | with_reducible refine Kept.update ?_

theorem trailingEdge_kept {w u : Chip} (hu : Kept w u) (r : ℕ) (p : ScanParams) : Kept w (trailingEdge r p u) := by
  unfold trailingEdge
  repeat' first
    | with_reducible assumption
    | with_reducible apply returnReservations_kept
    | with_reducible apply pageEnd_kept
    | (extract_lets +onlyGivenNames v; first | (refine (fun _ : Kept w v => ?_) ?_; rotate_left; subst v; rotate_left; clear_value v) | subst v)
    | split
    | with_reducible refine Kept.update ?_

theorem stopPrintFor_kept {w u : Chip} (hu : Kept w u) (r : ℕ) : Kept w (stopPrintFor r u) := by
  unfold stopPrintFor
  repeat' first
    | with_reducible assumption
    | split
    | with_reducible refine Kept.update ?_

theorem stopScanFor_kept {w u : Chip} (hu : Kept w u) (r : ℕ) : Kept w (stopScanFor r u) := by
  unfold stopScanFor
  repeat' first
    | with_reducible assumption
    | split
    | with_reducible refine Kept.update ?_

theorem scanJam_kept {w u : Chip} (hu : Kept w u) (r : ℕ) (onPage : Bool) : Kept w (scanJam r onPage u) := by
  unfold scanJam
  repeat' first
    | with_reducible assumption
    | with_reducible apply discardCapture_kept
    | with_reducible apply pageEnd_kept
    | with_reducible apply queueEvent_kept
    | with_reducible apply haltRoute_kept
    | with_reducible apply stopPrintFor_kept
    | with_reducible apply stopScan_kept
    | (extract_lets +onlyGivenNames v; subst v)
    | split
    | with_reducible refine Kept.update ?_

theorem sheetStep_kept {w u : Chip} (hu : Kept w u) (doce : Bool) : Kept w (sheetStep doce u) := by
  unfold sheetStep
  repeat' first
    | with_reducible assumption
    | with_reducible apply scanJam_kept
    | with_reducible apply trailingEdge_kept
    | (extract_lets +onlyGivenNames v; first | (refine (fun _ : Kept w v => ?_) ?_; rotate_left; subst v; rotate_left; clear_value v) | subst v)
    | split
    | with_reducible refine Kept.update ?_

theorem sheetLineStart_kept {w u : Chip} (hu : Kept w u) : Kept w (sheetLineStart u) := by
  unfold sheetLineStart
  repeat' first
    | with_reducible assumption
    | with_reducible apply stopScan_kept
    | (extract_lets +onlyGivenNames v; subst v)
    | split
    | with_reducible refine Kept.update ?_

theorem endOfSheet_kept {w u : Chip} (hu : Kept w u) : Kept w (endOfSheet u) := by
  unfold endOfSheet
  repeat' first
    | with_reducible assumption
    | with_reducible apply endScanSource_kept
    | with_reducible apply queueEvent_kept
    | with_reducible apply modCtx_kept
    | (extract_lets +onlyGivenNames v; first | (refine (fun _ : Kept w v => ?_) ?_; rotate_left; subst v; rotate_left; clear_value v) | subst v)
    | split
    | with_reducible refine Kept.update ?_

theorem leaveJam_kept {w u : Chip} (hu : Kept w u) : Kept w (leaveJam u) := by
  unfold leaveJam
  repeat' first
    | with_reducible assumption
    | with_reducible apply endOfSheet_kept
    | (extract_lets +onlyGivenNames v; subst v)
    | with_reducible refine Kept.update ?_

theorem sheetHalted_kept {w u : Chip} (hu : Kept w u) : Kept w (sheetHalted u) := by
  unfold sheetHalted
  repeat' first
    | with_reducible assumption
    | with_reducible apply endOfSheet_kept
    | with_reducible apply leaveJam_kept
    | split

theorem pickChip_kept {w u : Chip} (hu : Kept w u) (doce : Bool) : Kept w (pickChip doce u) := by
  unfold pickChip
  repeat' first
    | with_reducible assumption
    | with_reducible apply syncMotor_kept
    | with_reducible apply modCtx_kept
    | (extract_lets +onlyGivenNames v; subst v)
    | split
    | with_reducible refine Kept.update ?_

theorem captureChip_kept {w u : Chip} (hu : Kept w u) (samples : List Byte) : Kept w (captureChip samples u) := by
  unfold captureChip
  repeat' first
    | with_reducible assumption
    | with_reducible apply fillComplete_kept
    | with_reducible apply returnSlot_kept
    | with_reducible apply settle_kept
    | with_reducible apply pageEnd_kept
    | (extract_lets +onlyGivenNames v; first | (refine (fun _ : Kept w v => ?_) ?_; rotate_left; subst v; rotate_left; clear_value v) | subst v)
    | split
    | with_reducible refine Kept.update ?_

theorem docpScan_kept {w u : Chip} (hu : Kept w u) : Kept w (docpScan u) := by
  unfold docpScan
  repeat' first
    | with_reducible assumption
    | with_reducible apply takeLamp_kept
    | with_reducible apply dropLamp_kept
    | split

end Sys2Proof.Machine
end

