-- ==== Sys2Proof/Laws/Motor.lean ====
section
/-!
SUPPORT. What the Motor Controller leaves alone (Machine/Motor.lean).
-/

-- One declaration after another: the package as one text keeps within the check's limit on threads.
set_option Elab.async false

namespace Sys2Proof.Machine

open Sys2Proof

theorem denyScan_kept {w u : Chip} (hu : Kept w u) : Kept w (denyScan u) := by
  unfold denyScan
  repeat' first
    | with_reducible assumption
    | with_reducible apply queueEvent_kept
    | (extract_lets +onlyGivenNames v; first | (refine (fun _ : Kept w v => ?_) ?_; rotate_left; subst v; rotate_left; clear_value v) | subst v)
    | split
    | with_reducible refine Kept.update ?_

theorem denyPrint_kept {w u : Chip} (hu : Kept w u) : Kept w (denyPrint u) := by
  unfold denyPrint
  repeat' first
    | with_reducible assumption
    | with_reducible apply queueEvent_kept
    | (extract_lets +onlyGivenNames v; first | (refine (fun _ : Kept w v => ?_) ?_; rotate_left; subst v; rotate_left; clear_value v) | subst v)
    | split
    | with_reducible refine Kept.update ?_

theorem takeReservations_kept {w u : Chip} (hu : Kept w u) (r n : Nat) : Kept w (takeReservations r n u) := by
  induction n generalizing u with
  | zero => exact hu
  | succ n ih =>
    unfold takeReservations
    split
    · exact hu
    · exact ih (modCtx_kept (takeSlot_kept hu ‹_› (by simp)) _ _)

theorem reserveFor_kept {w u : Chip} (hu : Kept w u) (r k : Nat) : Kept w (reserveFor r k u).1 :=
  takeReservations_kept hu _ _

theorem scanLineStart_kept {w u : Chip} (hu : Kept w u) : Kept w (scanLineStart u) := by
  unfold scanLineStart
  repeat' first
    | with_reducible assumption
    | with_reducible apply reserveFor_kept
    | with_reducible apply sheetLineStart_kept
    | with_reducible apply denyScan_kept
    | with_reducible apply beginCapture_kept
    | (extract_lets +onlyGivenNames v; first | (refine (fun _ : Kept w v => ?_) ?_; rotate_left; subst v; rotate_left; clear_value v) | subst v)
    | split
    | with_reducible refine Kept.update ?_

theorem haltScan_kept {w u : Chip} (hu : Kept w u) : Kept w (haltScan u) := by
  unfold haltScan
  repeat' first
    | with_reducible assumption
    | with_reducible apply returnReservations_kept
    | with_reducible apply sheetHalted_kept
    | split
    | with_reducible refine Kept.update ?_

theorem scanOnward_kept {w u : Chip} (hu : Kept w u) : Kept w (scanOnward u) := by
  unfold scanOnward
  repeat' first
    | with_reducible assumption
    | with_reducible apply haltScan_kept
    | split
    | with_reducible refine Kept.update ?_

theorem settleScan_kept {w u : Chip} (hu : Kept w u) : Kept w (settleScan u) := by
  unfold settleScan
  repeat' first
    | with_reducible assumption
    | with_reducible apply settle_kept
    | with_reducible apply syncMotor_kept
    | split

theorem scanStep_loaded {w u : Chip} (hu : KeptTables w u) (doce : Bool) : KeptTables w (scanStep doce u) := by
  unfold scanStep
  repeat' first
    | with_reducible assumption
    | with_reducible refine (sheetStep_kept .rfl _).to ?_
    | with_reducible refine (scanLineStart_kept .rfl).to ?_
    | with_reducible refine (settleScan_kept .rfl).to ?_
    | with_reducible refine (scanOnward_kept .rfl).to ?_
    | (extract_lets +onlyGivenNames v; first | (refine (fun _ : KeptTables w v => ?_) ?_; rotate_left; subst v; rotate_left; clear_value v) | subst v)
    | split
    | with_reducible refine KeptTables.update ?_

theorem scanStart_kept {w u : Chip} (hu : Kept w u) : Kept w (scanStart u) := by
  unfold scanStart
  repeat' first
    | with_reducible assumption
    | with_reducible apply reserveFor_kept
    | with_reducible apply sheetLineStart_kept
    | with_reducible apply beginCapture_kept
    | with_reducible apply settleScan_kept
    | with_reducible apply scanOnward_kept
    | with_reducible apply syncMotor_kept
    | (extract_lets +onlyGivenNames v; first | (refine (fun _ : Kept w v => ?_) ?_; rotate_left; subst v; rotate_left; clear_value v) | subst v)
    | split
    | with_reducible refine Kept.update ?_

theorem dropBurned_kept {w u : Chip} (hu : Kept w u) : Kept w (dropBurned u) := by
  unfold dropBurned
  repeat' first
    | with_reducible assumption
    | with_reducible apply refreshLoad_kept
    | with_reducible apply dropReference_kept
    | with_reducible apply dropHead_kept
    | (extract_lets +onlyGivenNames v; subst v)
    | split
    | with_reducible refine Kept.update ?_

theorem beginTail_kept {w u : Chip} (hu : Kept w u) : Kept w (beginTail u) := by
  unfold beginTail
  repeat' first
    | with_reducible assumption
    | (extract_lets +onlyGivenNames v; subst v)
    | with_reducible refine Kept.update ?_

theorem printLineStart_kept {w u : Chip} (hu : Kept w u) (therm : Byte) : Kept w (printLineStart therm u) := by
  unfold printLineStart
  repeat' first
    | with_reducible assumption
    | with_reducible apply dropBurned_kept
    | with_reducible apply beginBurn_kept
    | with_reducible apply beginTail_kept
    | with_reducible apply denyPrint_kept
    | (extract_lets +onlyGivenNames v; refine (fun _ : Kept w v => ?_) ?_; rotate_left; subst v; rotate_left; clear_value v)
    | split

theorem endRunOut_kept {w u : Chip} (hu : Kept w u) : Kept w (endRunOut u) := by
  unfold endRunOut
  repeat' first
    | with_reducible assumption
    | intro _
    | with_reducible apply dropReference_kept
    | with_reducible apply releasePrint_kept
    | with_reducible refine Kept.fold ?_ ?_
    | (extract_lets +onlyGivenNames v; first | (refine (fun _ : Kept w v => ?_) ?_; rotate_left; subst v; rotate_left; clear_value v) | subst v)
    | split
    | with_reducible refine Kept.update ?_

theorem haltPrint_kept {w u : Chip} (hu : Kept w u) : Kept w (haltPrint u) := by
  unfold haltPrint
  repeat' first
    | with_reducible assumption
    | with_reducible apply endRunOut_kept
    | with_reducible apply beginCut_kept
    | (extract_lets +onlyGivenNames v; first | (refine (fun _ : Kept w v => ?_) ?_; rotate_left; subst v; rotate_left; clear_value v) | subst v)
    | split
    | with_reducible refine Kept.update ?_

theorem printOnward_kept {w u : Chip} (hu : Kept w u) : Kept w (printOnward u) := by
  unfold printOnward
  repeat' first
    | with_reducible assumption
    | with_reducible apply haltPrint_kept
    | (extract_lets +onlyGivenNames v; refine (fun _ : Kept w v => ?_) ?_; rotate_left; subst v; rotate_left; clear_value v)
    | split
    | with_reducible refine Kept.update ?_

theorem settlePrint_kept {w u : Chip} (hu : Kept w u) : Kept w (settlePrint u) := by
  unfold settlePrint
  repeat' first
    | with_reducible assumption
    | with_reducible apply settle_kept
    | with_reducible apply refreshLoad_kept
    | with_reducible apply syncMotor_kept
    | split

theorem printStep_loaded {w u : Chip} (hu : KeptTables w u) (therm : Byte) : KeptTables w (printStep therm u) := by
  unfold printStep
  repeat' first
    | with_reducible assumption
    | with_reducible refine (printLineStart_kept .rfl _).to ?_
    | with_reducible refine (settlePrint_kept .rfl).to ?_
    | with_reducible refine (printOnward_kept .rfl).to ?_
    | (extract_lets +onlyGivenNames v; first | (refine (fun _ : KeptTables w v => ?_) ?_; rotate_left; subst v; rotate_left; clear_value v) | subst v)
    | split
    | with_reducible refine KeptTables.update ?_

theorem printStart_kept {w u : Chip} (hu : Kept w u) (therm : Byte) : Kept w (printStart therm u) := by
  unfold printStart
  repeat' first
    | with_reducible assumption
    | with_reducible apply beginTail_kept
    | with_reducible apply beginBurn_kept
    | with_reducible apply settlePrint_kept
    | with_reducible apply printOnward_kept
    | with_reducible apply syncMotor_kept
    | (extract_lets +onlyGivenNames v; refine (fun _ : Kept w v => ?_) ?_; rotate_left; subst v; rotate_left; clear_value v)
    | split
    | with_reducible refine Kept.update ?_

theorem stepChip_loaded {w u : Chip} (hu : KeptTables w u) (ch : ChannelId) (doce : Bool) (therm : Byte) : KeptTables w (stepChip ch doce therm u) := by
  unfold stepChip
  repeat' first
    | with_reducible assumption
    | with_reducible apply scanStep_loaded
    | with_reducible apply printStep_loaded
    | split

theorem startChip_kept {w u : Chip} (hu : Kept w u) (ch : ChannelId) (therm : Byte) : Kept w (startChip ch therm u) := by
  unfold startChip
  repeat' first
    | with_reducible assumption
    | with_reducible apply scanStart_kept
    | with_reducible apply printStart_kept
    | split

theorem holdChip_kept {w u : Chip} (hu : Kept w u) (ch : ChannelId) : Kept w (holdChip ch u) := by
  unfold holdChip
  repeat' first
    | with_reducible assumption
    | with_reducible apply syncMotor_kept
    | split
    | with_reducible refine Kept.update ?_

end Sys2Proof.Machine
end

