-- ==== Sys2Proof/Laws/Stopping.lean ====
section
/-!
SUPPORT. What OPEN, CLOSE, REARM, ABORT, REDIRECT and an interlock trip leave alone (Machine/Opening.lean, Machine/Stopping.lean).
-/

-- One declaration after another: the package as one text keeps within the check's limit on threads.
set_option Elab.async false

namespace Sys2Proof.Machine

open Sys2Proof

theorem takeUpScan_kept {w u : Chip} (hu : Kept w u) (q : OpenReq) : Kept w (takeUpScan q u) := by
  unfold takeUpScan
  repeat' first
    | with_reducible assumption
    | with_reducible apply openScan_kept
    | with_reducible apply haltRoute_kept
    | (extract_lets +onlyGivenNames v; first | (refine (fun _ : Kept w v => ?_) ?_; rotate_left; subst v; rotate_left; clear_value v) | subst v)
    | split
    | with_reducible refine Kept.update ?_

theorem takeUpPrint_kept {w u : Chip} (hu : Kept w u) (q : OpenReq) : Kept w (takeUpPrint q u) := by
  unfold takeUpPrint
  repeat' first
    | with_reducible assumption
    | with_reducible apply takeUpHead_kept
    | with_reducible apply addStall_kept
    | with_reducible apply haltRoute_kept
    | (extract_lets +onlyGivenNames v; first | (refine (fun _ : Kept w v => ?_) ?_; rotate_left; subst v; rotate_left; clear_value v) | subst v)
    | split
    | with_reducible refine Kept.update ?_

theorem fillRoute_kept {w u : Chip} (hu : Kept w u) (q : OpenReq) : Kept w (fillRoute q u) := by
  unfold fillRoute
  repeat' first
    | with_reducible assumption
    | with_reducible apply setRoute_kept
    | with_reducible apply overrun_kept
    | with_reducible apply takeUpPrint_kept
    | with_reducible apply takeUpScan_kept
    | (extract_lets +onlyGivenNames v; subst v)
    | split
    | with_reducible refine Kept.update ?_

theorem acceptOpen_kept {w u : Chip} (hu : Kept w u) (p : List Byte) (adjusted : Bool) (q : OpenReq) : Kept w (acceptOpen p adjusted q u) := by
  unfold acceptOpen
  repeat' first
    | with_reducible assumption
    | with_reducible apply reply_kept
    | with_reducible apply fillRoute_kept
    | with_reducible apply syncMotor_kept
    | with_reducible apply queueCredit_kept
    | split

theorem openChip_kept {w u : Chip} (hu : Kept w u) (p : List Byte) : Kept w (openChip p u) := by
  unfold openChip
  repeat' first
    | with_reducible assumption
    | with_reducible apply refuse_kept
    | with_reducible apply refuseProtected_kept
    | with_reducible apply acceptOpen_kept
    | (extract_lets +onlyGivenNames v; subst v)
    | split

theorem closeChip_kept {w u : Chip} (hu : Kept w u) (p : List Byte) : Kept w (closeChip p u) := by
  unfold closeChip
  repeat' first
    | with_reducible assumption
    | intro _
    | with_reducible apply withLength_kept
    | with_reducible apply refuse_kept
    | with_reducible apply settle_kept
    | with_reducible apply requestClose_kept
    | with_reducible apply reply_kept
    | split

theorem rearmScan_kept {w u : Chip} (hu : Kept w u) : Kept w (rearmScan u) := by
  unfold rearmScan
  repeat' first
    | with_reducible assumption
    | with_reducible apply leaveJam_kept
    | with_reducible apply endOfSheet_kept
    | (extract_lets +onlyGivenNames v; first | (refine (fun _ : Kept w v => ?_) ?_; rotate_left; subst v; rotate_left; clear_value v) | subst v)
    | split
    | with_reducible refine Kept.update ?_

theorem rearmPrint_kept {w u : Chip} (hu : Kept w u) : Kept w (rearmPrint u) := by
  unfold rearmPrint
  repeat' first
    | with_reducible assumption
    | with_reducible apply beginCut_kept
    | (extract_lets +onlyGivenNames v; first | (refine (fun _ : Kept w v => ?_) ?_; rotate_left; subst v; rotate_left; clear_value v) | subst v)
    | split
    | with_reducible refine Kept.update ?_

theorem acceptRearm_kept {w u : Chip} (hu : Kept w u) (p : List Byte) (r : ℕ) (x : Ctx) : Kept w (acceptRearm p r x u) := by
  unfold acceptRearm
  repeat' first
    | with_reducible assumption
    | with_reducible apply modCtx_kept
    | with_reducible apply reply_kept
    | with_reducible apply rearmScan_kept
    | with_reducible apply rearmPrint_kept
    | with_reducible apply settle_kept
    | split

theorem rearmChip_kept {w u : Chip} (hu : Kept w u) (p : List Byte) : Kept w (rearmChip p u) := by
  unfold rearmChip
  repeat' first
    | with_reducible assumption
    | intro _
    | with_reducible apply withLength_kept
    | with_reducible apply refuse_kept
    | with_reducible apply acceptRearm_kept
    | split

theorem keepSlots_kept {w u : Chip} (hu : Kept w u) (r : ℕ) (es : List LineEntry) : Kept w (keepSlots r es u) := by
  unfold keepSlots
  repeat' first
    | with_reducible assumption
    | intro _
    | with_reducible refine setSlot_kept ?_ _ _ (by simp)
    | with_reducible refine Kept.fold ?_ ?_

theorem abortScan_kept {w u : Chip} (hu : Kept w u) : Kept w (abortScan u) := by
  unfold abortScan
  repeat' first
    | with_reducible assumption
    | with_reducible apply dropLamp_kept
    | (extract_lets +onlyGivenNames v; first | (refine (fun _ : Kept w v => ?_) ?_; rotate_left; subst v; rotate_left; clear_value v) | subst v)
    | split
    | with_reducible refine Kept.update ?_

theorem abortPrint_kept {w u : Chip} (hu : Kept w u) (r : ℕ) (kept : Option (List LineEntry)) : Kept w (abortPrint r kept u) := by
  unfold abortPrint
  repeat' first
    | with_reducible assumption
    | with_reducible apply refreshLoad_kept
    | with_reducible apply releasePrint_kept
    | with_reducible apply endCut_kept
    | with_reducible apply cutStrobe_kept
    | (extract_lets +onlyGivenNames v; first | (refine (fun _ : Kept w v => ?_) ?_; rotate_left; subst v; rotate_left; clear_value v) | subst v)
    | split
    | with_reducible refine Kept.update ?_

theorem abortLanes_kept {w u : Chip} (hu : Kept w u) (r : ℕ) : Kept w (abortLanes r u) := by
  unfold abortLanes
  repeat' first
    | with_reducible assumption
    | with_reducible apply pageEnd_kept
    | (extract_lets +onlyGivenNames v; first | (refine (fun _ : Kept w v => ?_) ?_; rotate_left; subst v; rotate_left; clear_value v) | subst v)
    | split
    | with_reducible refine Kept.update ?_

theorem dropRead_kept {w u : Chip} (hu : Kept w u) (j : Job) : Kept w (dropRead j u) := by
  unfold dropRead
  repeat' first
    | with_reducible assumption
    | with_reducible apply withdraw_kept
    | with_reducible apply freeFlash_kept
    | (extract_lets +onlyGivenNames v; refine (fun _ : Kept w v => ?_) ?_; rotate_left; subst v; rotate_left; clear_value v)
    | split

theorem dropReloc_kept {w u : Chip} (hu : Kept w u) (x : Reloc) : Kept w (dropReloc x u) := by
  unfold dropReloc
  repeat' first
    | with_reducible assumption
    | with_reducible apply damageBlock_kept
    | (extract_lets +onlyGivenNames v; first | (refine (fun _ : Kept w v => ?_) ?_; rotate_left; subst v; rotate_left; clear_value v) | subst v)
    | split
    | with_reducible refine Kept.update ?_

theorem endWorkPage_kept {w u : Chip} (hu : Kept w u) (x : Work) : Kept w (endWorkPage x u) := by
  unfold endWorkPage
  repeat' first
    | with_reducible assumption
    | with_reducible apply endPage_kept
    | with_reducible apply setWork_kept
    | split

theorem truncateClose_kept {w u : Chip} (hu : Kept w u) : Kept w (truncateClose u) := by
  unfold truncateClose
  repeat' first
    | with_reducible assumption
    | with_reducible refine Kept.update ?_

theorem abortWork_kept {w u : Chip} (hu : Kept w u) (x : Work) : Kept w (abortWork x u) := by
  unfold abortWork
  repeat' first
    | with_reducible assumption
    | with_reducible apply setWork_kept
    | with_reducible apply truncateClose_kept
    | with_reducible apply endWorkPage_kept
    | with_reducible apply dropReloc_kept
    | with_reducible apply withdraw_kept
    | split

theorem abortStore_kept {w u : Chip} (hu : Kept w u) (x : Ctx) : Kept w (abortStore x u) := by
  unfold abortStore
  repeat' first
    | with_reducible assumption
    | with_reducible apply abortWork_kept
    | with_reducible apply removePage_kept
    | with_reducible apply endPage_kept
    | (extract_lets +onlyGivenNames v; first | (refine (fun _ : Kept w v => ?_) ?_; rotate_left; subst v; rotate_left; clear_value v) | subst v)
    | split
    | with_reducible refine Kept.update ?_

theorem abortRoute_kept {w u : Chip} (hu : Kept w u) (r : ℕ) (cause : CloseCause) : Kept w (abortRoute r cause u) := by
  unfold abortRoute
  repeat' first
    | with_reducible assumption
    | with_reducible apply setRoute_kept
    | with_reducible apply returnSlots_kept
    | with_reducible apply abortScan_kept
    | with_reducible apply abortLanes_kept
    | with_reducible apply keepSlots_kept
    | with_reducible apply abortPrint_kept
    | with_reducible apply dropRead_kept
    | with_reducible apply abortStore_kept
    | with_reducible apply queueEvent_kept
    | (extract_lets +onlyGivenNames v; first | (refine (fun _ : Kept w v => ?_) ?_; rotate_left; subst v; rotate_left; clear_value v) | subst v)
    | split
    | with_reducible refine Kept.update ?_

theorem abortChip_kept {w u : Chip} (hu : Kept w u) (p : List Byte) : Kept w (abortChip p u) := by
  unfold abortChip
  repeat' first
    | with_reducible assumption
    | intro _
    | with_reducible apply withLength_kept
    | with_reducible apply refuse_kept
    | with_reducible apply settleAll_kept
    | with_reducible apply abortRoute_kept
    | with_reducible apply reply_kept
    | split

theorem servePrintMark_kept {w u : Chip} (hu : Kept w u) (r : ℕ) : Kept w (servePrintMark r u) := by
  unfold servePrintMark
  repeat' first
    | with_reducible assumption
    | with_reducible apply refreshLoad_kept
    | with_reducible apply serveMark_kept
    | (extract_lets +onlyGivenNames v; subst v)
    | with_reducible refine Kept.update ?_

theorem acceptRedirect_kept {w u : Chip} (hu : Kept w u) (r : ℕ) (sp : StoreParams) : Kept w (acceptRedirect r sp u) := by
  unfold acceptRedirect
  repeat' first
    | with_reducible assumption
    | with_reducible apply dropHead_kept
    | with_reducible apply endCut_kept
    | with_reducible apply servePrintMark_kept
    | with_reducible apply releasePrint_kept
    | with_reducible apply modCtx_kept
    | with_reducible apply createPage_kept
    | with_reducible apply settle_kept
    | (extract_lets +onlyGivenNames v; subst v)
    | split
    | with_reducible refine Kept.update ?_

theorem redirectChip_kept {w u : Chip} (hu : Kept w u) (p : List Byte) : Kept w (redirectChip p u) := by
  unfold redirectChip
  repeat' first
    | with_reducible assumption
    | with_reducible apply refuse_kept
    | with_reducible apply refuseProtected_kept
    | with_reducible apply acceptRedirect_kept
    | with_reducible apply reply_kept
    | split

theorem tripHead_kept {w u : Chip} (hu : Kept w u) : Kept w (tripHead u) := by
  unfold tripHead
  repeat' first
    | with_reducible assumption
    | with_reducible apply cutStrobe_kept
    | with_reducible apply refreshLoad_kept
    | (extract_lets +onlyGivenNames v; subst v)
    | split
    | with_reducible refine Kept.update ?_

theorem trip_kept {w u : Chip} (hu : Kept w u) : Kept w (trip u) := by
  unfold trip
  repeat' first
    | with_reducible assumption
    | intro _
    | with_reducible apply tripHead_kept
    | with_reducible apply endRunOut_kept
    | with_reducible apply haltRoute_kept
    | with_reducible apply discardCapture_kept
    | with_reducible apply returnReservations_kept
    | with_reducible apply settleAll_kept
    | with_reducible apply queueEvent_kept
    | with_reducible refine Kept.fold ?_ ?_
    | (extract_lets +onlyGivenNames v; subst v)
    | split
    | with_reducible refine Kept.update ?_

end Sys2Proof.Machine
end

