-- ==== Sys2Proof/Laws/Jobs.lean ====
section
/-!
SUPPORT. What the ends of the flash jobs and the Boot Server leave alone (Machine/StoreJobs.lean, Machine/Booting.lean), with the inputs'
changes of Machine/Stopping.lean.
-/

-- One declaration after another: the package as one text keeps within the check's limit on threads.
set_option Elab.async false

namespace Sys2Proof.Machine

open Sys2Proof

theorem withLength_loaded {w u : Chip} (hu : KeptTables w u) (p : List Byte) (n : Nat) (f : Chip → Chip)
    (hf : ∀ c, KeptTables w c → KeptTables w (f c)) : KeptTables w (withLength p n f u) := by
  unfold withLength
  split
  · exact hf u hu
  · exact (refuse_kept .rfl _ _).to hu

theorem tripChip_loaded {w u : Chip} (hu : KeptTables w u) : KeptTables w (tripChip u) := by
  unfold tripChip
  repeat' first
    | with_reducible assumption
    | with_reducible refine (trip_kept .rfl).to ?_
    | (extract_lets +onlyGivenNames v; first | (refine (fun _ : KeptTables w v => ?_) ?_; rotate_left; subst v; rotate_left; clear_value v) | subst v)
    | split
    | with_reducible refine KeptTables.update ?_

theorem coverCloseChip_loaded {w u : Chip} (hu : KeptTables w u) : KeptTables w (coverCloseChip u) := by
  unfold coverCloseChip
  repeat' first
    | with_reducible assumption
    | with_reducible refine (queueEvent_kept .rfl _).to ?_
    | with_reducible refine (settleAll_kept .rfl).to ?_
    | (extract_lets +onlyGivenNames v; first | (refine (fun _ : KeptTables w v => ?_) ?_; rotate_left; subst v; rotate_left; clear_value v) | subst v)
    | split
    | with_reducible refine KeptTables.update ?_

theorem paperOutChip_loaded {w u : Chip} (hu : KeptTables w u) : KeptTables w (paperOutChip u) := by
  unfold paperOutChip
  repeat' first
    | with_reducible assumption
    | with_reducible refine (queueEvent_kept .rfl _).to ?_
    | with_reducible refine (addStall_kept .rfl _ _).to ?_
    | with_reducible refine (cutStrobe_kept .rfl).to ?_
    | with_reducible refine (settle_kept .rfl _).to ?_
    | (extract_lets +onlyGivenNames v; first | (refine (fun _ : KeptTables w v => ?_) ?_; rotate_left; subst v; rotate_left; clear_value v) | subst v)
    | split
    | with_reducible refine KeptTables.update ?_

theorem paperInChip_loaded {w u : Chip} (hu : KeptTables w u) : KeptTables w (paperInChip u) := by
  unfold paperInChip
  repeat' first
    | with_reducible assumption
    | with_reducible refine (queueEvent_kept .rfl _).to ?_
    | with_reducible refine (settle_kept .rfl _).to ?_
    | with_reducible refine (refreshLoad_kept .rfl).to ?_
    | with_reducible refine (dropStall_kept .rfl _ _).to ?_
    | (extract_lets +onlyGivenNames v; first | (refine (fun _ : KeptTables w v => ?_) ?_; rotate_left; subst v; rotate_left; clear_value v) | subst v)
    | split
    | with_reducible refine KeptTables.update ?_

theorem retryClaim_kept {w u : Chip} (hu : Kept w u) : Kept w (retryClaim u) := by
  unfold retryClaim
  repeat' first
    | with_reducible assumption
    | with_reducible apply tryClaim_kept
    | split

theorem copyNext_kept {w u : Chip} (hu : Kept w u) (x : Reloc) : Kept w (copyNext x u) := by
  unfold copyNext
  repeat' first
    | with_reducible assumption
    | with_reducible apply askRead_kept
    | with_reducible apply relocRead_kept
    | with_reducible apply askProgram_kept
    | (extract_lets +onlyGivenNames v; first | (refine (fun _ : Kept w v => ?_) ?_; rotate_left; subst v; rotate_left; clear_value v) | subst v)
    | split
    | with_reducible refine Kept.update ?_

theorem beginReloc_kept {w u : Chip} (hu : Kept w u) (source : ℕ) (r : ℕ) : Kept w (beginReloc source r u) := by
  unfold beginReloc
  repeat' first
    | with_reducible assumption
    | with_reducible apply tryClaim_kept
    | (extract_lets +onlyGivenNames v; subst v)
    | with_reducible refine Kept.update ?_

theorem relocFailed_kept {w u : Chip} (hu : Kept w u) (source : ℕ) (target : ℕ) (r : ℕ) : Kept w (relocFailed source target r u) := by
  unfold relocFailed
  repeat' first
    | with_reducible assumption
    | with_reducible apply beginReloc_kept
    | with_reducible apply damageBlock_kept
    | with_reducible apply programFailed_kept

theorem relocDone_kept {w u : Chip} (hu : Kept w u) (x : Reloc) (target : ℕ) (r : ℕ) (id : ℕ) (size : ℕ) : Kept w (relocDone x target r id size u) := by
  unfold relocDone
  repeat' first
    | with_reducible assumption
    | with_reducible apply modBlock_kept
    | with_reducible apply modPage_kept
    | with_reducible apply damageBlock_kept
    | with_reducible apply dropHead_kept
    | (extract_lets +onlyGivenNames v; subst v)
    | split
    | with_reducible refine Kept.update ?_

theorem relocProgrammed_kept {w u : Chip} (hu : Kept w u) (ok : Bool) : Kept w (relocProgrammed ok u) := by
  unfold relocProgrammed
  repeat' first
    | with_reducible assumption
    | with_reducible apply relocFailed_kept
    | with_reducible apply copyNext_kept
    | with_reducible apply modBlock_kept
    | with_reducible apply relocDone_kept
    | with_reducible apply endWorkPage_kept
    | with_reducible apply dropReloc_kept
    | with_reducible apply programFailed_kept
    | split

theorem relocRead_kept {w u : Chip} (hu : Kept w u) (m : List Host.Cell) : Kept w (relocRead m u) := by
  unfold relocRead
  repeat' first
    | with_reducible assumption
    | with_reducible apply endWorkPage_kept
    | with_reducible apply dropReloc_kept
    | with_reducible apply askProgram_kept
    | with_reducible apply askRead_kept
    | (extract_lets +onlyGivenNames v; subst v)
    | split
    | with_reducible refine Kept.update ?_

theorem entryDone_kept {w u : Chip} (hu : Kept w u) (ok : Bool) : Kept w (entryDone ok u) := by
  unfold entryDone
  repeat' first
    | with_reducible assumption
    | with_reducible apply modBlock_kept
    | with_reducible apply setWork_kept
    | with_reducible apply modPage_kept
    | with_reducible apply dropHead_kept
    | with_reducible apply endPage_kept
    | with_reducible apply programFailed_kept
    | with_reducible apply beginReloc_kept
    | (extract_lets +onlyGivenNames v; first | (refine (fun _ : Kept w v => ?_) ?_; rotate_left; subst v; rotate_left; clear_value v) | subst v)
    | split

theorem claimFailed_kept {w u : Chip} (hu : Kept w u) (b : ℕ) : Kept w (claimFailed b u) := by
  unfold claimFailed
  repeat' first
    | with_reducible assumption
    | with_reducible apply programFailed_kept
    | with_reducible apply modPage_kept
    | with_reducible apply damageBlock_kept
    | with_reducible apply tryClaim_kept
    | with_reducible apply withdraw_kept
    | (extract_lets +onlyGivenNames v; first | (refine (fun _ : Kept w v => ?_) ?_; rotate_left; subst v; rotate_left; clear_value v) | subst v)
    | split

theorem claimDone_kept {w u : Chip} (hu : Kept w u) (b : ℕ) (reloc : Bool) (ok : Bool) : Kept w (claimDone b reloc ok u) := by
  unfold claimDone
  repeat' first
    | with_reducible assumption
    | with_reducible apply copyNext_kept
    | with_reducible apply relocFailed_kept
    | with_reducible apply endWorkPage_kept
    | with_reducible apply dropReloc_kept
    | with_reducible apply programFailed_kept
    | with_reducible apply claimFailed_kept
    | split

theorem pageClosed_kept {w u : Chip} (hu : Kept w u) (truncated : Bool) : Kept w (pageClosed truncated u) := by
  unfold pageClosed
  repeat' first
    | with_reducible assumption
    | with_reducible apply forgetPage_kept
    | with_reducible apply modPage_kept
    | with_reducible apply setWork_kept
    | with_reducible apply serveMark_kept
    | (extract_lets +onlyGivenNames v; refine (fun _ : Kept w v => ?_) ?_; rotate_left; subst v; rotate_left; clear_value v)
    | split

theorem closeDone_kept {w u : Chip} (hu : Kept w u) (b : ℕ) (page : Option Bool) (ok : Bool) : Kept w (closeDone b page ok u) := by
  unfold closeDone
  repeat' first
    | with_reducible assumption
    | with_reducible apply programFailed_kept
    | with_reducible apply pageClosed_kept
    | (extract_lets +onlyGivenNames v; refine (fun _ : Kept w v => ?_) ?_; rotate_left; subst v; rotate_left; clear_value v)
    | split

theorem endInstall_loaded {w u : Chip} (hu : KeptTables w u) (res : OpResult) : KeptTables w (endInstall res u) := by
  unfold endInstall
  repeat' first
    | with_reducible assumption
    | with_reducible refine (queueEvent_kept .rfl _).to ?_
    | (extract_lets +onlyGivenNames v; subst v)
    | split
    | with_reducible refine KeptTables.update ?_

theorem retireEnded_loaded {w u : Chip} (hu : KeptTables w u) (why : RetireFor) (failed : Bool) : KeptTables w (retireEnded why failed u) := by
  unfold retireEnded
  repeat' first
    | with_reducible assumption
    | with_reducible refine (queueEvent_kept .rfl _).to ?_
    | with_reducible apply endInstall_loaded
    | (extract_lets +onlyGivenNames v; first | (refine (fun _ : KeptTables w v => ?_) ?_; rotate_left; subst v; rotate_left; clear_value v) | subst v)
    | split
    | with_reducible refine KeptTables.update ?_

theorem retireDone_loaded {w u : Chip} (hu : KeptTables w u) (b : ℕ) (why : RetireFor) (ok : Bool) : KeptTables w (retireDone b why ok u) := by
  unfold retireDone
  repeat' first
    | with_reducible assumption
    | with_reducible refine (programFailed_kept .rfl _).to ?_
    | with_reducible refine (setBlockState_kept .rfl _ _).to ?_
    | with_reducible apply retireEnded_loaded
    | with_reducible refine (joinEraseQueue_kept .rfl _).to ?_
    | split

theorem readBack_loaded {w u : Chip} (hu : KeptTables w u) (j : RowJob) (f : Flash) : KeptTables w (readBack j f u) := by
  unfold readBack
  repeat' first
    | with_reducible assumption
    | intro _
    | with_reducible refine (joinErased_kept .rfl _).to ?_
    | with_reducible refine (modBlock_kept .rfl _ _).to ?_
    | with_reducible refine KeptTables.fold ?_ ?_
    | (extract_lets +onlyGivenNames v; subst v)
    | split
    | with_reducible refine KeptTables.update ?_

theorem rowDone_loaded {w u : Chip} (hu : KeptTables w u) (j : RowJob) (f : Flash) (ok : Bool) : KeptTables w (rowDone j f ok u) := by
  unfold rowDone
  repeat' first
    | with_reducible assumption
    | with_reducible apply readBack_loaded
    | with_reducible refine (retryClaim_kept .rfl).to ?_
    | with_reducible refine (queueEvent_kept .rfl _).to ?_
    | (extract_lets +onlyGivenNames v; subst v)
    | split
    | with_reducible refine KeptTables.update ?_

theorem moveOn_kept {w u : Chip} (hu : Kept w u) (r : ℕ) (lines : ℕ) : Kept w (moveOn r lines u) := by
  unfold moveOn
  repeat' first
    | with_reducible assumption
    | with_reducible apply modCtx_kept
    | with_reducible apply pageEnd_kept
    | (extract_lets +onlyGivenNames v; first | (refine (fun _ : Kept w v => ?_) ?_; rotate_left; subst v; rotate_left; clear_value v) | subst v)
    | split
    | with_reducible refine Kept.update ?_

theorem readDone_kept {w u : Chip} (hu : Kept w u) (r : ℕ) (slot : ℕ) (size : ℕ) (blank : Bool) (line : Line × Bool) : Kept w (readDone r slot size blank line u) := by
  unfold readDone
  repeat' first
    | with_reducible assumption
    | with_reducible apply fillComplete_kept
    | with_reducible apply modCtx_kept
    | with_reducible apply moveOn_kept
    | with_reducible apply pageEnd_kept
    | (extract_lets +onlyGivenNames v; first | (refine (fun _ : Kept w v => ?_) ?_; rotate_left; subst v; rotate_left; clear_value v) | subst v)
    | split
    | with_reducible refine Kept.update ?_

theorem readRequestChip_kept {w u : Chip} (hu : Kept w u) : Kept w (readRequestChip u) := by
  unfold readRequestChip
  repeat' first
    | with_reducible assumption
    | with_reducible refine takeSlot_kept ?_ ‹_› (by simp)
    | with_reducible apply settleAll_kept
    | with_reducible apply readDone_kept
    | with_reducible apply askRead_kept
    | (extract_lets +onlyGivenNames v; first | (refine (fun _ : Kept w v => ?_) ?_; rotate_left; subst v; rotate_left; clear_value v) | subst v)
    | split
    | with_reducible refine Kept.update ?_

theorem lineReadDone_kept {w u : Chip} (hu : Kept w u) (m : List Host.Cell) : Kept w (lineReadDone m u) := by
  unfold lineReadDone
  repeat' first
    | with_reducible assumption
    | with_reducible apply readDone_kept
    | with_reducible apply returnSlot_kept
    | with_reducible apply pageEnd_kept
    | (extract_lets +onlyGivenNames v; first | (refine (fun _ : Kept w v => ?_) ?_; rotate_left; subst v; rotate_left; clear_value v) | subst v)
    | split
    | with_reducible refine Kept.update ?_

theorem eraseStartChip_kept {w u : Chip} (hu : Kept w u) : Kept w (eraseStartChip u) := by
  unfold eraseStartChip
  repeat' first
    | with_reducible assumption
    | with_reducible apply setBlockState_kept
    | with_reducible apply grant_kept
    | with_reducible apply setErase_kept
    | (extract_lets +onlyGivenNames v; subst v)
    | split
    | with_reducible refine Kept.update ?_

theorem pulseEndChip_kept {w u : Chip} (hu : Kept w u) : Kept w (pulseEndChip u) := by
  unfold pulseEndChip
  repeat' first
    | with_reducible assumption
    | with_reducible apply grant_kept
    | with_reducible apply setErase_kept
    | (extract_lets +onlyGivenNames v; subst v)
    | split

theorem minPulseChip_kept {w u : Chip} (hu : Kept w u) : Kept w (minPulseChip u) := by
  unfold minPulseChip
  repeat' first
    | with_reducible assumption
    | with_reducible apply grant_kept
    | with_reducible apply setErase_kept
    | (extract_lets +onlyGivenNames v; subst v)
    | split

theorem totalNext_kept {w u : Chip} (hu : Kept w u) (done : ℕ) : Kept w (totalNext done u) := by
  unfold totalNext
  repeat' first
    | with_reducible assumption
    | with_reducible apply setErase_kept
    | with_reducible apply setBlockState_kept
    | (extract_lets +onlyGivenNames v; subst v)
    | split
    | with_reducible refine Kept.update ?_

theorem eraseOver_kept {w u : Chip} (hu : Kept w u) (b : ℕ) (failed : Bool) : Kept w (eraseOver b failed u) := by
  unfold eraseOver
  repeat' first
    | with_reducible assumption
    | with_reducible apply setErase_kept
    | with_reducible apply totalNext_kept
    | with_reducible apply grant_kept
    | with_reducible apply settleAll_kept
    | with_reducible apply retryClaim_kept
    | (extract_lets +onlyGivenNames v; first | (refine (fun _ : Kept w v => ?_) ?_; rotate_left; subst v; rotate_left; clear_value v) | subst v)
    | split
    | with_reducible refine Kept.update ?_

theorem eraseFailed_kept {w u : Chip} (hu : Kept w u) (e : EraseProg) : Kept w (eraseFailed e u) := by
  unfold eraseFailed
  repeat' first
    | with_reducible assumption
    | with_reducible apply setBlockState_kept
    | with_reducible apply setErase_kept
    | with_reducible apply queueEvent_kept
    | (extract_lets +onlyGivenNames v; subst v)
    | with_reducible refine Kept.update ?_

theorem countDone_kept {w u : Chip} (hu : Kept w u) (e : EraseProg) (ok : Bool) : Kept w (countDone e ok u) := by
  unfold countDone
  repeat' first
    | with_reducible assumption
    | with_reducible apply modBlock_kept
    | with_reducible apply setBlockState_kept
    | with_reducible apply joinErased_kept
    | with_reducible apply programFailed_kept
    | with_reducible apply joinEraseQueue_kept
    | with_reducible apply eraseOver_kept
    | (extract_lets +onlyGivenNames v; first | (refine (fun _ : Kept w v => ?_) ?_; rotate_left; subst v; rotate_left; clear_value v) | subst v)
    | split

theorem queuePending_loaded {w u : Chip} (hu : KeptTables w u) : KeptTables w (queuePending u) := by
  unfold queuePending
  repeat' first
    | with_reducible assumption
    | with_reducible refine (queueEvent_kept .rfl _).to ?_
    | (extract_lets +onlyGivenNames v; subst v)
    | split
    | with_reducible refine KeptTables.update ?_

theorem dropChunk_loaded {w u : Chip} (hu : KeptTables w u) : KeptTables w (dropChunk u) := by
  unfold dropChunk
  repeat' first
    | with_reducible assumption
    | with_reducible refine (dropRead_kept .rfl _).to ?_
    | (extract_lets +onlyGivenNames v; subst v)
    | split
    | with_reducible refine KeptTables.update ?_

theorem endServing_loaded {w u : Chip} (hu : KeptTables w u) : KeptTables w (endServing u) := by
  unfold endServing
  repeat' first
    | with_reducible assumption
    | with_reducible apply dropChunk_loaded
    | with_reducible apply queuePending_loaded
    | with_reducible refine (queueEvent_kept .rfl _).to ?_
    | (extract_lets +onlyGivenNames v; subst v)
    | with_reducible refine KeptTables.update ?_

theorem endAbsent_loaded {w u : Chip} (hu : KeptTables w u) : KeptTables w (endAbsent u) := by
  unfold endAbsent
  repeat' first
    | with_reducible assumption
    | with_reducible refine (queueRecord_kept .rfl _).to ?_
    | with_reducible apply queuePending_loaded
    | (extract_lets +onlyGivenNames v; subst v)
    | with_reducible refine KeptTables.update ?_

theorem endComplete_loaded {w u : Chip} (hu : KeptTables w u) : KeptTables w (endComplete u) := by
  unfold endComplete
  repeat' first
    | with_reducible assumption
    | with_reducible refine (queueRecord_kept .rfl _).to ?_
    | with_reducible apply queuePending_loaded
    | with_reducible refine (queueEvent_kept .rfl _).to ?_
    | (extract_lets +onlyGivenNames v; subst v)
    | with_reducible refine KeptTables.update ?_

theorem bootFetchChip_loaded {w u : Chip} (hu : KeptTables w u) (p : List Byte) : KeptTables w (bootFetchChip p u) := by
  unfold bootFetchChip
  repeat' first
    | with_reducible assumption
    | intro _
    | with_reducible apply withLength_loaded
    | with_reducible refine (refuse_kept .rfl _ _).to ?_
    | with_reducible apply endAbsent_loaded
    | with_reducible refine (reply_kept .rfl _ _).to ?_
    | with_reducible refine (askRead_kept .rfl _).to ?_
    | with_reducible apply endComplete_loaded
    | (extract_lets +onlyGivenNames v; first | (refine (fun _ : KeptTables w v => ?_) ?_; rotate_left; subst v; rotate_left; clear_value v) | subst v)
    | split
    | with_reducible refine KeptTables.update ?_

theorem enterHolding_loaded {w u : Chip} (hu : KeptTables w u) : KeptTables w (enterHolding u) := by
  unfold enterHolding
  repeat' first
    | with_reducible assumption
    | with_reducible apply dropChunk_loaded
    | (extract_lets +onlyGivenNames v; first | (refine (fun _ : KeptTables w v => ?_) ?_; rotate_left; subst v; rotate_left; clear_value v) | subst v)
    | with_reducible refine KeptTables.update ?_

theorem releaseHold_loaded {w u : Chip} (hu : KeptTables w u) : KeptTables w (releaseHold u) := by
  unfold releaseHold
  repeat' first
    | with_reducible assumption
    | (extract_lets +onlyGivenNames v; subst v)
    | split
    | with_reducible refine KeptTables.update ?_

theorem bootReleaseChip_loaded {w u : Chip} (hu : KeptTables w u) : KeptTables w (bootReleaseChip u) := by
  unfold bootReleaseChip
  repeat' first
    | with_reducible assumption
    | with_reducible apply releaseHold_loaded
    | (extract_lets +onlyGivenNames v; first | (refine (fun _ : KeptTables w v => ?_) ?_; rotate_left; subst v; rotate_left; clear_value v) | subst v)
    | split
    | with_reducible refine KeptTables.update ?_

theorem checkEnds_loaded {w u : Chip} (hu : KeptTables w u) (res : ImageResult) : KeptTables w (checkEnds res u) := by
  unfold checkEnds
  repeat' first
    | with_reducible assumption
    | with_reducible apply endInstall_loaded
    | with_reducible refine (askProgram_kept .rfl _).to ?_
    | (extract_lets +onlyGivenNames v; first | (refine (fun _ : KeptTables w v => ?_) ?_; rotate_left; subst v; rotate_left; clear_value v) | subst v)
    | split
    | with_reducible refine KeptTables.update ?_

theorem startCheck_loaded {w u : Chip} (hu : KeptTables w u) (page : ℕ) (length : ℕ) (checksum : ℕ) : KeptTables w (startCheck page length checksum u) := by
  unfold startCheck
  repeat' first
    | with_reducible assumption
    | with_reducible apply checkEnds_loaded
    | with_reducible refine (askRead_kept .rfl _).to ?_
    | (extract_lets +onlyGivenNames v; subst v)
    | split
    | with_reducible refine KeptTables.update ?_

theorem checkRead_loaded {w u : Chip} (hu : KeptTables w u) (m : List Host.Cell) (k : Check) : KeptTables w (checkRead m k u) := by
  unfold checkRead
  repeat' first
    | with_reducible assumption
    | with_reducible apply checkEnds_loaded
    | with_reducible refine (askRead_kept .rfl _).to ?_
    | (extract_lets +onlyGivenNames v; subst v)
    | split
    | with_reducible refine KeptTables.update ?_

theorem chunkFails_loaded {w u : Chip} (hu : KeptTables w u) : KeptTables w (chunkFails u) := by
  unfold chunkFails
  repeat' first
    | with_reducible assumption
    | with_reducible apply endAbsent_loaded
    | (extract_lets +onlyGivenNames v; subst v)
    | with_reducible refine KeptTables.update ?_

theorem chunkRead_loaded {w u : Chip} (hu : KeptTables w u) (m : List Host.Cell) (k : Chunk) : KeptTables w (chunkRead m k u) := by
  unfold chunkRead
  repeat' first
    | with_reducible assumption
    | with_reducible apply chunkFails_loaded
    | with_reducible refine (askRead_kept .rfl _).to ?_
    | with_reducible refine (queueRecord_kept .rfl _).to ?_
    | (extract_lets +onlyGivenNames v; subst v)
    | split
    | with_reducible refine KeptTables.update ?_

theorem imageReadDone_loaded {w u : Chip} (hu : KeptTables w u) (m : List Host.Cell) : KeptTables w (imageReadDone m u) := by
  unfold imageReadDone
  repeat' first
    | with_reducible assumption
    | with_reducible apply checkRead_loaded
    | with_reducible apply chunkRead_loaded
    | split

theorem installChip_loaded {w u : Chip} (hu : KeptTables w u) (m : List Host.Cell) (p : List Byte) : KeptTables w (installChip m p u) := by
  unfold installChip
  repeat' first
    | with_reducible assumption
    | intro _
    | with_reducible apply withLength_loaded
    | with_reducible refine (refuseProtected_kept .rfl _).to ?_
    | with_reducible refine (refuse_kept .rfl _ _).to ?_
    | with_reducible refine (reply_kept .rfl _ _).to ?_
    | with_reducible apply startCheck_loaded
    | (extract_lets +onlyGivenNames v; first | (refine (fun _ : KeptTables w v => ?_) ?_; rotate_left; subst v; rotate_left; clear_value v) | subst v)
    | split
    | with_reducible refine KeptTables.update ?_

theorem installSwitch_loaded {w u : Chip} (hu : KeptTables w u) (i : Install) : KeptTables w (installSwitch i u) := by
  unfold installSwitch
  repeat' first
    | with_reducible assumption
    | with_reducible apply endInstall_loaded
    | (extract_lets +onlyGivenNames v; first | (refine (fun _ : KeptTables w v => ?_) ?_; rotate_left; subst v; rotate_left; clear_value v) | subst v)
    | split
    | with_reducible refine KeptTables.update ?_

theorem markDone_loaded {w u : Chip} (hu : KeptTables w u) (ok : Bool) : KeptTables w (markDone ok u) := by
  unfold markDone
  repeat' first
    | with_reducible assumption
    | with_reducible apply installSwitch_loaded
    | with_reducible apply endInstall_loaded
    | (extract_lets +onlyGivenNames v; subst v)
    | split
    | with_reducible refine KeptTables.update ?_

theorem retireFormer_loaded {w u : Chip} (hu : KeptTables w u) (b : ℕ) : KeptTables w (retireFormer u b) := by
  unfold retireFormer
  repeat' first
    | with_reducible assumption
    | with_reducible refine (retireBlock_kept .rfl _ _).to ?_
    | with_reducible apply retireEnded_loaded
    | with_reducible refine (joinEraseQueue_kept .rfl _).to ?_
    | with_reducible refine (setBlockState_kept .rfl _ _).to ?_
    | split

theorem installRetireChip_loaded {w u : Chip} (hu : KeptTables w u) : KeptTables w (installRetireChip u) := by
  unfold installRetireChip
  repeat' first
    | with_reducible assumption
    | intro _
    | with_reducible apply endInstall_loaded
    | with_reducible refine (removePage_kept .rfl _).to ?_
    | with_reducible apply retireFormer_loaded
    | with_reducible refine KeptTables.fold ?_ ?_
    | (extract_lets +onlyGivenNames v; first | (refine (fun _ : KeptTables w v => ?_) ?_; rotate_left; subst v; rotate_left; clear_value v) | subst v)
    | split
    | with_reducible refine KeptTables.update ?_

theorem supersede_loaded {w u : Chip} (hu : KeptTables w u) (pg : Page) : KeptTables w (supersede u pg) := by
  unfold supersede
  repeat' first
    | with_reducible assumption
    | with_reducible refine (retireBlocks_kept .rfl _ _).to ?_
    | with_reducible refine (removePage_kept .rfl _).to ?_
    | split

theorem selectBoot_loaded {w u : Chip} (hu : KeptTables w u) (m : List Host.Cell) : KeptTables w (selectBoot m u) := by
  unfold selectBoot
  repeat' first
    | with_reducible assumption
    | intro _
    | with_reducible apply startCheck_loaded
    | with_reducible apply supersede_loaded
    | with_reducible refine KeptTables.fold ?_ ?_
    | (extract_lets +onlyGivenNames v; subst v)
    | split
    | with_reducible refine KeptTables.update ?_

end Sys2Proof.Machine
end

