-- ==== Sys2Proof/Laws/Protecting.lean ====
section
/-!
SUPPORT. What the store's directives, the Protection Unit, the start-up scan and the Power Controller leave alone
(Machine/Protecting.lean, Machine/Rebuilding.lean, Machine/Sleeping.lean).
-/

-- One declaration after another: the package as one text keeps within the check's limit on threads.
set_option Elab.async false

namespace Sys2Proof.Machine

open Sys2Proof

theorem cancelSleep_loaded {w u : Chip} (hu : KeptTables w u) (cause : CancelCause) : KeptTables w (cancelSleep cause u) := by
  unfold cancelSleep
  repeat' first
    | with_reducible assumption
    | with_reducible refine (queueEvent_kept .rfl _).to ?_
    | (extract_lets +onlyGivenNames v; subst v)
    | split
    | with_reducible refine KeptTables.update ?_

theorem abandonLine_loaded {w u : Chip} (hu : KeptTables w u) : KeptTables w (abandonLine u) := by
  unfold abandonLine
  split
  · exact ((returnSlot_kept (modCtx_kept .rfl _ _) _).to (KeptTables.update hu))
  · exact KeptTables.update hu

theorem linkHostReset_loaded {w u : Chip} (hu : KeptTables w u) : KeptTables w (linkHostReset u) := by
  unfold linkHostReset
  repeat' first
    | with_reducible assumption
    | with_reducible apply abandonLine_loaded
    | (extract_lets +onlyGivenNames v; first | (refine (fun _ : KeptTables w v => ?_) ?_; rotate_left; subst v; rotate_left; clear_value v) | subst v)
    | split
    | with_reducible refine KeptTables.update ?_

theorem hostReset_loaded {w u : Chip} (hu : KeptTables w u) : KeptTables w (hostReset u) := by
  unfold hostReset
  repeat' first
    | with_reducible assumption
    | with_reducible apply enterHolding_loaded
    | with_reducible apply cancelSleep_loaded
    | with_reducible apply linkHostReset_loaded

theorem addReset_loaded {w u : Chip} (hu : KeptTables w u) (f : Chip → Chip)
    (hf : ∀ c, KeptTables w c → KeptTables w (f c)) : KeptTables w (addReset f u) := by
  unfold addReset
  split
  · exact hf u hu
  · exact hostReset_loaded (hf u hu)

theorem setService_loaded {w u : Chip} (hu : KeptTables w u) (x : ServiceState) : KeptTables w (setService x u) := by
  unfold setService
  repeat' first
    | with_reducible assumption
    | (extract_lets +onlyGivenNames v; subst v)
    | with_reducible refine KeptTables.update ?_

theorem serviceFailure_loaded {w u : Chip} (hu : KeptTables w u) : KeptTables w (serviceFailure u) := by
  unfold serviceFailure
  repeat' first
    | with_reducible assumption
    | intro _
    | with_reducible refine (abortRoute_kept .rfl _ _).to ?_
    | with_reducible apply addReset_loaded
    | with_reducible refine (settleAll_kept .rfl).to ?_
    | with_reducible apply releaseHold_loaded
    | with_reducible apply hostReset_loaded
    | with_reducible refine KeptTables.fold ?_ ?_
    | (extract_lets +onlyGivenNames v; subst v)
    | with_reducible refine KeptTables.update ?_

theorem serviceRequestChip_loaded {w u : Chip} (hu : KeptTables w u) (p : List Byte) : KeptTables w (serviceRequestChip p u) := by
  unfold serviceRequestChip
  repeat' first
    | with_reducible assumption
    | intro _
    | with_reducible apply withLength_loaded
    | with_reducible refine (refuse_kept .rfl _ _).to ?_
    | with_reducible refine (reply_kept .rfl _ _).to ?_
    | with_reducible apply setService_loaded
    | split

theorem serviceCodeChip_loaded {w u : Chip} (hu : KeptTables w u) (p : List Byte) : KeptTables w (serviceCodeChip p u) := by
  unfold serviceCodeChip
  repeat' first
    | with_reducible assumption
    | intro _
    | with_reducible apply withLength_loaded
    | with_reducible apply setService_loaded
    | with_reducible refine (reply_kept .rfl _ _).to ?_
    | with_reducible apply serviceFailure_loaded
    | with_reducible refine (refuseProtected_kept .rfl _).to ?_
    | with_reducible refine (refuse_kept .rfl _ _).to ?_
    | split

theorem windowExpiryChip_loaded {w u : Chip} (hu : KeptTables w u) : KeptTables w (windowExpiryChip u) := by
  unfold windowExpiryChip
  repeat' first
    | with_reducible assumption
    | with_reducible apply serviceFailure_loaded
    | split

theorem dropLocked_loaded {w u : Chip} (hu : KeptTables w u) (j : Job) : KeptTables w (dropLocked u j) := by
  unfold dropLocked
  repeat' first
    | with_reducible assumption
    | with_reducible apply retireEnded_loaded
    | with_reducible refine (joinEraseQueue_kept .rfl _).to ?_
    | with_reducible refine (setBlockState_kept .rfl _ _).to ?_
    | with_reducible apply endInstall_loaded
    | split

theorem withdrawLocked_loaded {w u : Chip} (hu : KeptTables w u) : KeptTables w (withdrawLocked u) := by
  unfold withdrawLocked
  repeat' first
    | with_reducible assumption
    | intro _
    | with_reducible apply dropLocked_loaded
    | with_reducible refine KeptTables.fold ?_ ?_
    | (extract_lets +onlyGivenNames v; subst v)
    | with_reducible refine KeptTables.update ?_

theorem loseImage_loaded {w u : Chip} (hu : KeptTables w u) : KeptTables w (loseImage u) := by
  unfold loseImage
  repeat' first
    | with_reducible assumption
    | (extract_lets +onlyGivenNames v; subst v)
    | with_reducible refine KeptTables.update ?_

theorem acceptDelete_loaded {w u : Chip} (hu : KeptTables w u) (id : ℕ) : KeptTables w (acceptDelete id u) := by
  unfold acceptDelete
  repeat' first
    | with_reducible assumption
    | with_reducible refine (removePage_kept .rfl _).to ?_
    | with_reducible apply loseImage_loaded
    | with_reducible refine (queueEvent_kept .rfl _).to ?_
    | with_reducible refine (retireBlocks_kept .rfl _ _).to ?_
    | (extract_lets +onlyGivenNames v; first | (refine (fun _ : KeptTables w v => ?_) ?_; rotate_left; subst v; rotate_left; clear_value v) | subst v)
    | split

theorem deleteChip_loaded {w u : Chip} (hu : KeptTables w u) (p : List Byte) : KeptTables w (deleteChip p u) := by
  unfold deleteChip
  repeat' first
    | with_reducible assumption
    | intro _
    | with_reducible apply withLength_loaded
    | with_reducible refine (refuseProtected_kept .rfl _).to ?_
    | with_reducible refine (refuse_kept .rfl _ _).to ?_
    | with_reducible apply acceptDelete_loaded
    | with_reducible refine (reply_kept .rfl _ _).to ?_
    | split

theorem clearStatusChip_loaded {w u : Chip} (hu : KeptTables w u) (p : List Byte) : KeptTables w (clearStatusChip p u) := by
  unfold clearStatusChip
  repeat' first
    | with_reducible assumption
    | intro _
    | with_reducible apply withLength_loaded
    | with_reducible refine (reply_kept .rfl _ _).to ?_
    | (extract_lets +onlyGivenNames v; subst v)
    | with_reducible refine KeptTables.update ?_

theorem setLocks_loaded {w u : Chip} (hu : KeptTables w u) (bs : List ℕ) : KeptTables w (setLocks bs u) := by
  unfold setLocks
  repeat' first
    | with_reducible assumption
    | intro _
    | with_reducible refine (modBlock_kept .rfl _ _).to ?_
    | with_reducible refine KeptTables.fold ?_ ?_
    | (extract_lets +onlyGivenNames v; first | (refine (fun _ : KeptTables w v => ?_) ?_; rotate_left; subst v; rotate_left; clear_value v) | subst v)
    | with_reducible refine KeptTables.update ?_

theorem acceptLockPage_loaded {w u : Chip} (hu : KeptTables w u) (id : ℕ) : KeptTables w (acceptLockPage id u) := by
  unfold acceptLockPage
  repeat' first
    | with_reducible assumption
    | with_reducible refine (queueEvent_kept .rfl _).to ?_
    | with_reducible refine (askProgram_kept .rfl _).to ?_
    | with_reducible apply setLocks_loaded
    | (extract_lets +onlyGivenNames v; subst v)
    | split

theorem lockPageChip_loaded {w u : Chip} (hu : KeptTables w u) (p : List Byte) : KeptTables w (lockPageChip p u) := by
  unfold lockPageChip
  repeat' first
    | with_reducible assumption
    | intro _
    | with_reducible apply withLength_loaded
    | with_reducible refine (refuseProtected_kept .rfl _).to ?_
    | with_reducible refine (refuse_kept .rfl _ _).to ?_
    | with_reducible apply acceptLockPage_loaded
    | with_reducible refine (reply_kept .rfl _ _).to ?_
    | split

theorem setCodeChip_loaded {w u : Chip} (hu : KeptTables w u) (p : List Byte) : KeptTables w (setCodeChip p u) := by
  unfold setCodeChip
  repeat' first
    | with_reducible assumption
    | with_reducible refine (refuse_kept .rfl _ _).to ?_
    | with_reducible refine (refuseProtected_kept .rfl _).to ?_
    | with_reducible refine (reply_kept .rfl _ _).to ?_
    | with_reducible refine (askProgram_kept .rfl _).to ?_
    | (extract_lets +onlyGivenNames v; first | (refine (fun _ : KeptTables w v => ?_) ?_; rotate_left; subst v; rotate_left; clear_value v) | subst v)
    | split
    | with_reducible refine KeptTables.update ?_

theorem setMasterChip_loaded {w u : Chip} (hu : KeptTables w u) (p : List Byte) : KeptTables w (setMasterChip p u) := by
  unfold setMasterChip
  repeat' first
    | with_reducible assumption
    | intro _
    | with_reducible apply withLength_loaded
    | with_reducible refine (refuse_kept .rfl _ _).to ?_
    | with_reducible refine (reply_kept .rfl _ _).to ?_
    | with_reducible refine (queueEvent_kept .rfl _).to ?_
    | with_reducible refine (askProgram_kept .rfl _).to ?_
    | (extract_lets +onlyGivenNames v; first | (refine (fun _ : KeptTables w v => ?_) ?_; rotate_left; subst v; rotate_left; clear_value v) | subst v)
    | split
    | with_reducible refine KeptTables.update ?_

theorem setupChip_loaded {w u : Chip} (hu : KeptTables w u) (k : Setup) (p : List Byte) : KeptTables w (setupChip k p u) := by
  unfold setupChip
  repeat' first
    | with_reducible assumption
    | intro _
    | with_reducible apply withLength_loaded
    | with_reducible refine (refuseProtected_kept .rfl _).to ?_
    | with_reducible refine (refuse_kept .rfl _ _).to ?_
    | with_reducible refine (reply_kept .rfl _ _).to ?_
    | (extract_lets +onlyGivenNames v; first | (refine (fun _ : KeptTables w v => ?_) ?_; rotate_left; subst v; rotate_left; clear_value v) | subst v)
    | split
    | with_reducible refine KeptTables.update ?_

theorem beginTotal_loaded {w u : Chip} (hu : KeptTables w u) : KeptTables w (beginTotal u) := by
  unfold beginTotal
  repeat' first
    | with_reducible assumption
    | with_reducible refine (totalNext_kept .rfl _).to ?_
    | with_reducible apply loseImage_loaded
    | (extract_lets +onlyGivenNames v; subst v)
    | split
    | with_reducible refine KeptTables.update ?_

theorem readLocks_loaded {w u : Chip} (hu : KeptTables w u) (f : Flash) : KeptTables w (readLocks f u) := by
  unfold readLocks
  repeat' first
    | with_reducible assumption
    | (extract_lets +onlyGivenNames v; subst v)
    | with_reducible refine KeptTables.update ?_

theorem locksErased_loaded {w u : Chip} (hu : KeptTables w u) (f : Flash) : KeptTables w (locksErased f u) := by
  unfold locksErased
  repeat' first
    | with_reducible assumption
    | intro _
    | with_reducible refine (joinErased_kept .rfl _).to ?_
    | with_reducible apply readLocks_loaded
    | with_reducible refine (retryClaim_kept .rfl).to ?_
    | with_reducible refine (queueEvent_kept .rfl _).to ?_
    | with_reducible refine (grant_kept .rfl).to ?_
    | with_reducible refine (settleAll_kept .rfl).to ?_
    | with_reducible refine KeptTables.fold ?_ ?_
    | (extract_lets +onlyGivenNames v; subst v)
    | with_reducible refine KeptTables.update ?_

theorem rebuildLists_loaded {w u : Chip} (hu : KeptTables w u) : KeptTables w (rebuildLists u) := by
  unfold rebuildLists
  repeat' first
    | with_reducible assumption
    | intro _
    | with_reducible refine (joinErased_kept .rfl _).to ?_
    | with_reducible refine (joinEraseQueue_kept .rfl _).to ?_
    | with_reducible refine KeptTables.fold ?_ ?_

theorem totalOver_loaded {w u : Chip} (hu : KeptTables w u) (f : Flash) : KeptTables w (totalOver f u) := by
  unfold totalOver
  repeat' first
    | with_reducible assumption
    | with_reducible apply rebuildLists_loaded
    | with_reducible refine (grant_kept .rfl).to ?_
    | with_reducible refine (settleAll_kept .rfl).to ?_
    | with_reducible refine (queueEvent_kept .rfl _).to ?_
    | (extract_lets +onlyGivenNames v; subst v)
    | with_reducible refine KeptTables.update ?_

theorem scanTables_loaded {w u : Chip} (hu : KeptTables w u) (f : Flash) : KeptTables w (scanTables f u) := by
  unfold scanTables
  repeat' first
    | with_reducible assumption
    | intro _
    | with_reducible apply wake_loaded
    | with_reducible refine (joinErased_kept .rfl _).to ?_
    | with_reducible refine KeptTables.fold ?_ ?_
    | (extract_lets +onlyGivenNames v; subst v)
    | split
    | with_reducible refine KeptTables.update ?_

theorem scanStartChip_loaded {w u : Chip} (hu : KeptTables w u) : KeptTables w (scanStartChip u) := by
  unfold scanStartChip
  repeat' first
    | with_reducible assumption
    | with_reducible refine (grant_kept .rfl).to ?_
    | (extract_lets +onlyGivenNames v; subst v)
    | split
    | with_reducible refine KeptTables.update ?_

theorem scanDone_loaded {w u : Chip} (hu : KeptTables w u) (f : Flash) : KeptTables w (scanDone f u) := by
  unfold scanDone
  repeat' first
    | with_reducible assumption
    | with_reducible apply scanTables_loaded
    | with_reducible refine (grant_kept .rfl).to ?_
    | with_reducible refine (settleAll_kept .rfl).to ?_
    | with_reducible apply selectBoot_loaded
    | with_reducible refine (queueEvent_kept .rfl _).to ?_
    | (extract_lets +onlyGivenNames v; subst v)
    | with_reducible refine KeptTables.update ?_

theorem settledChip_loaded {w u : Chip} (hu : KeptTables w u) (d : DomainId) (therm : Byte) : KeptTables w (settledChip d therm u) := by
  unfold settledChip
  repeat' first
    | with_reducible assumption
    | with_reducible refine (syncMotor_kept .rfl).to ?_
    | with_reducible refine (refreshLoad_kept .rfl).to ?_
    | with_reducible refine (sampleTherm_kept .rfl _).to ?_
    | (extract_lets +onlyGivenNames v; subst v)
    | split
    | with_reducible refine KeptTables.update ?_

theorem holdOverChip_loaded {w u : Chip} (hu : KeptTables w u) (d : DomainId) : KeptTables w (holdOverChip d u) := by
  unfold holdOverChip
  repeat' first
    | with_reducible assumption
    | with_reducible refine (headContentLost_kept .rfl).to ?_
    | (extract_lets +onlyGivenNames v; subst v)
    | split
    | with_reducible refine KeptTables.update ?_

theorem wake_loaded {w u : Chip} (hu : KeptTables w u) (cause : WakeCause) : KeptTables w (wake cause u) := by
  unfold wake
  repeat' first
    | with_reducible assumption
    | (extract_lets +onlyGivenNames v; subst v)
    | with_reducible refine KeptTables.update ?_

theorem edgeTaken_loaded {w u : Chip} (hu : KeptTables w u) (src : WakeSource) (rising : Bool) (level : Bool) : KeptTables w (edgeTaken src rising level u) := by
  unfold edgeTaken
  repeat' first
    | with_reducible assumption
    | with_reducible apply wake_loaded
    | with_reducible refine (queueEvent_kept .rfl _).to ?_
    | with_reducible apply cancelSleep_loaded
    | (extract_lets +onlyGivenNames v; first | (refine (fun _ : KeptTables w v => ?_) ?_; rotate_left; subst v; rotate_left; clear_value v) | subst v)
    | split
    | with_reducible refine KeptTables.update ?_

theorem pinChange_loaded {w u : Chip} (hu : KeptTables w u) (src : WakeSource) (level : Bool) : KeptTables w (pinChange src level u) := by
  unfold pinChange
  repeat' first
    | with_reducible assumption
    | with_reducible apply edgeTaken_loaded
    | (extract_lets +onlyGivenNames v; subst v)
    | split
    | with_reducible refine KeptTables.update ?_

theorem wakeInputChip_loaded {w u : Chip} (hu : KeptTables w u) (pin : SignalPin) (high : Bool) : KeptTables w (wakeInputChip pin high u) := by
  unfold wakeInputChip
  repeat' first
    | with_reducible assumption
    | with_reducible apply pinChange_loaded
    | (extract_lets +onlyGivenNames v; subst v)
    | split
    | with_reducible refine KeptTables.update ?_

theorem docpChip_loaded {w u : Chip} (hu : KeptTables w u) (present : Bool) : KeptTables w (docpChip present u) := by
  unfold docpChip
  repeat' first
    | with_reducible assumption
    | with_reducible apply pinChange_loaded
    | with_reducible refine (docpScan_kept .rfl).to ?_
    | (extract_lets +onlyGivenNames v; subst v)
    | split
    | with_reducible refine KeptTables.update ?_

theorem debounceChip_loaded {w u : Chip} (hu : KeptTables w u) (src : WakeSource) : KeptTables w (debounceChip src u) := by
  unfold debounceChip
  repeat' first
    | with_reducible assumption
    | with_reducible apply edgeTaken_loaded
    | split

theorem sleepChip_loaded {w u : Chip} (hu : KeptTables w u) (p : List Byte) : KeptTables w (sleepChip p u) := by
  unfold sleepChip
  repeat' first
    | with_reducible assumption
    | intro _
    | with_reducible apply withLength_loaded
    | with_reducible refine (refuse_kept .rfl _ _).to ?_
    | with_reducible refine (reply_kept .rfl _ _).to ?_
    | (extract_lets +onlyGivenNames v; subst v)
    | split
    | with_reducible refine KeptTables.update ?_

theorem enterSleep_loaded {w u : Chip} (hu : KeptTables w u) : KeptTables w (enterSleep u) := by
  unfold enterSleep
  repeat' first
    | with_reducible assumption
    | intro _
    | with_reducible apply addReset_loaded
    | with_reducible refine (headContentLost_kept .rfl).to ?_
    | with_reducible apply abandonLine_loaded
    | with_reducible apply enterHolding_loaded
    | (extract_lets +onlyGivenNames v; first | (refine (fun _ : KeptTables w v => ?_) ?_; rotate_left; subst v; rotate_left; clear_value v) | subst v)
    | with_reducible refine KeptTables.update ?_

theorem secondChip_loaded {w u : Chip} (hu : KeptTables w u) : KeptTables w (secondChip u) := by
  unfold secondChip
  repeat' first
    | with_reducible assumption
    | (extract_lets +onlyGivenNames v; subst v)
    | split
    | with_reducible refine KeptTables.update ?_

theorem wakeTimerChip_loaded {w u : Chip} (hu : KeptTables w u) : KeptTables w (wakeTimerChip u) := by
  unfold wakeTimerChip
  repeat' first
    | with_reducible assumption
    | with_reducible apply wake_loaded
    | split

theorem clockChip_loaded {w u : Chip} (hu : KeptTables w u) (papp : Bool) (papx : Bool) (doce : Bool) (cover : Bool) : KeptTables w (clockChip papp papx doce cover u) := by
  unfold clockChip
  repeat' first
    | with_reducible assumption
    | with_reducible refine (trip_kept .rfl).to ?_
    | (extract_lets +onlyGivenNames v; first | (refine (fun _ : KeptTables w v => ?_) ?_; rotate_left; subst v; rotate_left; clear_value v) | subst v)
    | split
    | with_reducible refine KeptTables.update ?_

theorem wakingEndChip_loaded {w u : Chip} (hu : KeptTables w u) : KeptTables w (wakingEndChip u) := by
  unfold wakingEndChip
  repeat' first
    | with_reducible assumption
    | (extract_lets +onlyGivenNames v; subst v)
    | split
    | with_reducible refine KeptTables.update ?_

theorem pulseOverChip_loaded {w u : Chip} (hu : KeptTables w u) : KeptTables w (pulseOverChip u) := by
  unfold pulseOverChip
  repeat' first
    | with_reducible assumption
    | (extract_lets +onlyGivenNames v; subst v)
    | with_reducible refine KeptTables.update ?_

end Sys2Proof.Machine
end

