-- ==== Sys2Proof/Laws/Linking.lean ====
section
/-!
SUPPORT. What the Page Link Interface, the ticks and the engine's events leave alone (Machine/Linking.lean, Machine/Restarting.lean,
Machine/Ticking.lean, Machine/EngineCommands.lean).
-/

-- One declaration after another: the package as one text keeps within the check's limit on threads.
set_option Elab.async false

namespace Sys2Proof.Machine

open Sys2Proof

theorem setParser_loaded {w u : Chip} (hu : KeptTables w u) (x : Parser) : KeptTables w (setParser x u) := by
  unfold setParser
  repeat' first
    | with_reducible assumption
    | (extract_lets +onlyGivenNames v; subst v)
    | with_reducible refine KeptTables.update ?_

theorem overrun_kept {w u : Chip} (hu : Kept w u) (r : ℕ) : Kept w (overrun r u) := by
  unfold overrun
  repeat' first
    | with_reducible assumption
    | with_reducible apply setRoute_kept
    | with_reducible apply queueEvent_kept
    | (extract_lets +onlyGivenNames v; subst v)
    | split

theorem judgeLine_kept {w u : Chip} (hu : Kept w u) (r : ℕ) : Kept w (judgeLine r u) := by
  unfold judgeLine
  repeat' first
    | with_reducible assumption
    | with_reducible refine takeSlot_kept ?_ ‹_› (by simp)
    | with_reducible apply modCtx_kept
    | with_reducible apply overrun_kept
    | (extract_lets +onlyGivenNames v; refine (fun _ : Kept w v => ?_) ?_; rotate_left; subst v; rotate_left; clear_value v)
    | split
    | with_reducible refine Kept.update ?_

theorem laneByte_kept {w u : Chip} (hu : Kept w u) (b : Byte) : Kept w (laneByte u b) := by
  unfold laneByte
  repeat' first
    | with_reducible assumption
    | (extract_lets +onlyGivenNames v; subst v)
    | split
    | with_reducible refine Kept.update ?_

theorem lineBytes_kept {w u : Chip} (hu : Kept w u) (taken : ℕ) (bs : List Byte) : Kept w (lineBytes taken bs u) := by
  unfold lineBytes
  repeat' first
    | with_reducible assumption
    | intro _
    | with_reducible apply laneByte_kept
    | with_reducible apply judgeLine_kept
    | with_reducible refine Kept.fold ?_ ?_
    | split

theorem lineEnd_kept {w u : Chip} (hu : Kept w u) : Kept w (lineEnd u) := by
  unfold lineEnd
  repeat' first
    | with_reducible assumption
    | with_reducible apply fillComplete_kept
    | with_reducible apply settle_kept
    | with_reducible apply pageEnd_kept
    | with_reducible apply overrun_kept
    | split
    | with_reducible refine Kept.update ?_

theorem feedLine_loaded {w u : Chip} (hu : KeptTables w u) (length : ℕ) (taken : ℕ) (bytes : List Byte) : KeptTables w (feedLine length taken bytes u) := by
  unfold feedLine
  repeat' first
    | with_reducible assumption
    | with_reducible refine (lineBytes_kept .rfl _ _).to ?_
    | with_reducible refine (lineEnd_kept .rfl).to ?_
    | with_reducible apply setParser_loaded
    | (extract_lets +onlyGivenNames v; first | (refine (fun _ : KeptTables w v => ?_) ?_; rotate_left; subst v; rotate_left; clear_value v) | subst v)
    | split

theorem lineChip_loaded {w u : Chip} (hu : KeptTables w u) (length : ℕ) (bytes : List Byte) : KeptTables w (lineChip length bytes u) := by
  unfold lineChip
  repeat' first
    | with_reducible assumption
    | with_reducible apply setParser_loaded
    | with_reducible apply feedLine_loaded
    | split

theorem pageEndTaken_kept {w u : Chip} (hu : Kept w u) (p : List Byte) : Kept w (pageEndTaken p u) := by
  unfold pageEndTaken
  repeat' first
    | with_reducible assumption
    | with_reducible apply setRoute_kept
    | with_reducible apply overrun_kept
    | with_reducible apply settle_kept
    | with_reducible apply pageEnd_kept
    | (extract_lets +onlyGivenNames v; first | (refine (fun _ : Kept w v => ?_) ?_; rotate_left; subst v; rotate_left; clear_value v) | subst v)
    | split

theorem pageEndChip_kept {w u : Chip} (hu : Kept w u) (p : List Byte) : Kept w (pageEndChip p u) := by
  unfold pageEndChip
  repeat' first
    | with_reducible assumption
    | with_reducible apply pageEndTaken_kept
    | split

theorem framingChip_loaded {w u : Chip} (hu : KeptTables w u) (length : ℕ) : KeptTables w (framingChip length u) := by
  unfold framingChip
  repeat' first
    | with_reducible assumption
    | with_reducible apply setParser_loaded
    | split

theorem lselReleaseChip_loaded {w u : Chip} (hu : KeptTables w u) (bits : List Bool) : KeptTables w (lselReleaseChip bits u) := by
  unfold lselReleaseChip
  repeat' first
    | with_reducible assumption
    | with_reducible apply abandonLine_loaded
    | with_reducible refine (settle_kept .rfl _).to ?_
    | with_reducible refine (pageEnd_kept .rfl _ _).to ?_
    | (extract_lets +onlyGivenNames v; first | (refine (fun _ : KeptTables w v => ?_) ?_; rotate_left; subst v; rotate_left; clear_value v) | subst v)
    | split
    | with_reducible refine KeptTables.update ?_

theorem lselAssertChip_loaded {w u : Chip} (hu : KeptTables w u) : KeptTables w (lselAssertChip u) := by
  unfold lselAssertChip
  repeat' first
    | with_reducible assumption
    | (extract_lets +onlyGivenNames v; subst v)
    | with_reducible refine KeptTables.update ?_

theorem upstreamChip_loaded {w u : Chip} (hu : KeptTables w u) : KeptTables w (upstreamChip u) := by
  unfold upstreamChip
  repeat' first
    | with_reducible assumption
    | (extract_lets +onlyGivenNames v; subst v)
    | split
    | with_reducible refine KeptTables.update ?_

theorem reportSentChip_loaded {w u : Chip} (hu : KeptTables w u) : KeptTables w (reportSentChip u) := by
  unfold reportSentChip
  repeat' first
    | with_reducible assumption
    | (extract_lets +onlyGivenNames v; subst v)
    | split
    | with_reducible refine KeptTables.update ?_

theorem outIdle_loaded {w u : Chip} (hu : KeptTables w u) : KeptTables w (outIdle u) := by
  unfold outIdle
  repeat' first
    | with_reducible assumption
    | (extract_lets +onlyGivenNames v; subst v)
    | with_reducible refine KeptTables.update ?_

theorem lineSentChip_loaded {w u : Chip} (hu : KeptTables w u) : KeptTables w (lineSentChip u) := by
  unfold lineSentChip
  repeat' first
    | with_reducible assumption
    | with_reducible refine (settle_kept .rfl _).to ?_
    | with_reducible refine (dropHead_kept .rfl _ _).to ?_
    | with_reducible apply outIdle_loaded
    | with_reducible refine (settleAll_kept .rfl).to ?_
    | split

theorem pageSentChip_loaded {w u : Chip} (hu : KeptTables w u) : KeptTables w (pageSentChip u) := by
  unfold pageSentChip
  repeat' first
    | with_reducible assumption
    | with_reducible refine (pageEnd_kept .rfl _ _).to ?_
    | with_reducible refine (settle_kept .rfl _).to ?_
    | with_reducible refine (serveMark_kept .rfl _ _ _).to ?_
    | with_reducible apply outIdle_loaded
    | with_reducible refine (settleAll_kept .rfl).to ?_
    | split

theorem parserTake_loaded {w u : Chip} (hu : KeptTables w u) (b : Byte) : KeptTables w (parserTake b u) := by
  unfold parserTake
  extract_lets x
  refine setParser_loaded ?_ _
  cases x <;> first | exact hu | exact (lineBytes_kept .rfl _ _).to hu

theorem outSentChip_loaded {w u : Chip} (hu : KeptTables w u) : KeptTables w (outSentChip u) := by
  unfold outSentChip
  repeat' first
    | with_reducible apply lineSentChip_loaded hu
    | with_reducible apply pageSentChip_loaded hu
    | split

theorem sendByte_loaded {w u : Chip} (hu : KeptTables w u) : KeptTables w (sendByte u) := by
  unfold sendByte
  repeat' first
    | with_reducible assumption
    | with_reducible apply reportSentChip_loaded
    | with_reducible apply outSentChip_loaded
    | split
    | with_reducible refine KeptTables.update ?_

theorem encodeEndChip_kept {w u : Chip} (hu : Kept w u) : Kept w (encodeEndChip u) := by
  unfold encodeEndChip
  repeat' first
    | with_reducible assumption
    | with_reducible apply recordReady_kept
    | split
    | with_reducible refine Kept.update ?_

theorem atnEndChip_kept {w u : Chip} (hu : Kept w u) : Kept w (atnEndChip u) := by
  unfold atnEndChip
  repeat' first
    | with_reducible assumption
    | (extract_lets +onlyGivenNames v; subst v)
    | with_reducible refine Kept.update ?_

theorem attentionChip_loaded {w u : Chip} (hu : KeptTables w u) (p : List Byte) : KeptTables w (attentionChip p u) := by
  unfold attentionChip
  repeat' first
    | with_reducible assumption
    | intro _
    | with_reducible apply withLength_loaded
    | with_reducible refine (reply_kept .rfl _ _).to ?_
    | with_reducible refine (refuse_kept .rfl _ _).to ?_
    | (extract_lets +onlyGivenNames v; subst v)
    | split
    | with_reducible refine KeptTables.update ?_

theorem queueStatus_kept {w u : Chip} (hu : Kept w u) : Kept w (queueStatus u) := by
  unfold queueStatus
  repeat' first
    | with_reducible assumption
    | with_reducible apply queueRecord_kept
    | with_reducible apply markReported_kept
    | (extract_lets +onlyGivenNames v; subst v)
    | with_reducible refine Kept.update ?_

theorem statusChip_kept {w u : Chip} (hu : Kept w u) (p : List Byte) (doce : Bool) (papx : Bool) : Kept w (statusChip p doce papx u) := by
  unfold statusChip
  repeat' first
    | with_reducible assumption
    | intro _
    | with_reducible apply withLength_kept
    | with_reducible apply queueStatus_kept
    | with_reducible apply reply_kept
    | (extract_lets +onlyGivenNames v; subst v)
    | with_reducible refine Kept.update ?_

theorem directoryChip_loaded {w u : Chip} (hu : KeptTables w u) (p : List Byte) : KeptTables w (directoryChip p u) := by
  unfold directoryChip
  repeat' first
    | with_reducible assumption
    | intro _
    | with_reducible apply withLength_loaded
    | with_reducible refine (refuse_kept .rfl _ _).to ?_
    | with_reducible refine (reply_kept .rfl _ _).to ?_
    | (extract_lets +onlyGivenNames v; first | (refine (fun _ : KeptTables w v => ?_) ?_; rotate_left; subst v; rotate_left; clear_value v) | subst v)
    | split
    | with_reducible refine KeptTables.update ?_

theorem directoryEntryChip_loaded {w u : Chip} (hu : KeptTables w u) : KeptTables w (directoryEntryChip u) := by
  unfold directoryEntryChip
  repeat' first
    | with_reducible assumption
    | with_reducible refine (queueRecord_kept .rfl _).to ?_
    | (extract_lets +onlyGivenNames v; subst v)
    | split
    | with_reducible refine KeptTables.update ?_

theorem setupRule_loaded {w u : Chip} (hu : KeptTables w u) (i : Instr) : KeptTables w (setupRule i u) := by
  unfold setupRule
  repeat' first
    | with_reducible assumption
    | (extract_lets +onlyGivenNames v; subst v)
    | split
    | with_reducible refine KeptTables.update ?_

theorem sleepRule_loaded {w u : Chip} (hu : KeptTables w u) (i : Instr) : KeptTables w (sleepRule i u) := by
  unfold sleepRule
  repeat' first
    | with_reducible assumption
    | with_reducible apply cancelSleep_loaded
    | split

theorem servingRule_loaded {w u : Chip} (hu : KeptTables w u) (i : Instr) : KeptTables w (servingRule i u) := by
  unfold servingRule
  split
  · exact hu
  · split
    · exact endServing_loaded hu
    · exact hu

theorem streamRules_loaded {w u : Chip} (hu : KeptTables w u) (i : Instr) : KeptTables w (streamRules i u) := by
  unfold streamRules
  repeat' first
    | with_reducible assumption
    | with_reducible apply servingRule_loaded
    | with_reducible apply sleepRule_loaded
    | with_reducible apply setupRule_loaded

theorem unknownChip_kept {w u : Chip} (hu : Kept w u) (p : List Byte) : Kept w (unknownChip p u) := by
  unfold unknownChip
  repeat' first
    | with_reducible assumption
    | with_reducible apply refuse_kept

theorem linkRestart_loaded {w u : Chip} (hu : KeptTables w u) : KeptTables w (linkRestart u) := by
  unfold linkRestart
  repeat' first
    | with_reducible assumption
    | (extract_lets +onlyGivenNames v; subst v)
    | split
    | with_reducible refine KeptTables.update ?_

theorem restartRules_loaded {w u : Chip} (hu : KeptTables w u) : KeptTables w (restartRules u) := by
  unfold restartRules
  repeat' first
    | with_reducible assumption
    | with_reducible apply dropChunk_loaded
    | (extract_lets +onlyGivenNames v; first | (refine (fun _ : KeptTables w v => ?_) ?_; rotate_left; subst v; rotate_left; clear_value v) | subst v)
    | split
    | with_reducible refine KeptTables.update ?_

theorem tick_loaded {w u : Chip} (hu : KeptTables w u) : KeptTables w (tick u) := by
  unfold tick
  repeat' first
    | with_reducible assumption
    | (extract_lets +onlyGivenNames v; subst v)
    | split
    | with_reducible refine KeptTables.update ?_

theorem loadEndChip_kept {w u : Chip} (hu : Kept w u) : Kept w (loadEndChip u) := by
  unfold loadEndChip
  repeat' first
    | with_reducible assumption
    | with_reducible apply syncMotor_kept
    | (extract_lets +onlyGivenNames v; subst v)
    | split
    | with_reducible refine Kept.update ?_

theorem strobeEndChip_kept {w u : Chip} (hu : Kept w u) : Kept w (strobeEndChip u) := by
  unfold strobeEndChip
  repeat' first
    | with_reducible assumption
    | split
    | with_reducible refine Kept.update ?_

theorem cutPulseChip_kept {w u : Chip} (hu : Kept w u) : Kept w (cutPulseChip u) := by
  unfold cutPulseChip
  repeat' first
    | with_reducible assumption
    | (extract_lets +onlyGivenNames v; subst v)
    | split
    | with_reducible refine Kept.update ?_

theorem cutFailed_kept {w u : Chip} (hu : Kept w u) (r : ℕ) : Kept w (cutFailed r u) := by
  unfold cutFailed
  repeat' first
    | with_reducible assumption
    | with_reducible apply syncMotor_kept
    | with_reducible apply stopScanFor_kept
    | with_reducible apply queueEvent_kept
    | with_reducible apply haltRoute_kept
    | (extract_lets +onlyGivenNames v; subst v)
    | with_reducible refine Kept.update ?_

theorem cutJudgeChip_kept {w u : Chip} (hu : Kept w u) (papx : Bool) : Kept w (cutJudgeChip papx u) := by
  unfold cutJudgeChip
  repeat' first
    | with_reducible assumption
    | with_reducible apply cutFailed_kept
    | with_reducible apply settle_kept
    | with_reducible apply servePrintMark_kept
    | with_reducible apply endCut_kept
    | (extract_lets +onlyGivenNames v; first | (refine (fun _ : Kept w v => ?_) ?_; rotate_left; subst v; rotate_left; clear_value v) | subst v)
    | split
    | with_reducible refine Kept.update ?_

end Sys2Proof.Machine
end

