-- ==== Sys2Proof/Laws/Memory.lean ====
section
/-!
SUPPORT. The laws of the flash array: a read after a write, and that every operation over it keeps the canonical form and the length
of the lock segment.
-/

-- One declaration after another: the package as one text keeps within the check's limit on threads.
set_option Elab.async false

namespace Sys2Proof.Machine

open Sys2Proof

/-! ## Bytes -/

/-- An address below every listed one reads as erased. -/
theorem readMem_below (m : List Host.Cell) (a : Nat) (h : ∀ c ∈ m, a < c.1) : readMem m a = erasedByte := by
  induction m with
  | nil => rfl
  | cons c m ih =>
    have hc := h c (by simp)
    rw [readMem, if_neg (by omega), ih fun d hd => h d (by simp [hd])]

/-- A read after a write to the same place gives the value written. -/
theorem readMem_writeMem_same (m : List Host.Cell) (a : Nat) (b : Byte) (h : (m.map Prod.fst).Pairwise (· < ·)) :
    readMem (writeMem m a b) a = b := by
  induction m with
  | nil => by_cases hb : b = erasedByte <;> simp [writeMem, readMem, hb]
  | cons c m ih =>
    simp only [List.map_cons, List.pairwise_cons, List.mem_map, forall_exists_index, and_imp,
      forall_apply_eq_imp_iff₂] at h
    unfold writeMem
    split
    · rw [readMem, if_neg (by omega), ih h.2]
    · split
      · rename_i e
        split
        · rename_i hb
          rw [readMem_below m a fun d hd => e ▸ h.1 d hd, hb]
        · simp [readMem]
      · split
        · rename_i hb
          rw [readMem_below (c :: m) a, hb]
          intro d hd
          rcases List.mem_cons.1 hd with rfl | hd
          · omega
          · have := h.1 d hd; omega
        · simp [readMem]

/-- A write leaves every other place alone. -/
theorem readMem_writeMem_ne (m : List Host.Cell) (a x : Nat) (b : Byte) (hx : x ≠ a)
    (h : (m.map Prod.fst).Pairwise (· < ·)) : readMem (writeMem m a b) x = readMem m x := by
  induction m with
  | nil => by_cases hb : b = erasedByte <;> simp [writeMem, readMem, hb, Ne.symm hx]
  | cons c m ih =>
    simp only [List.map_cons, List.pairwise_cons, List.mem_map, forall_exists_index, and_imp,
      forall_apply_eq_imp_iff₂] at h
    unfold writeMem
    split
    · rw [readMem, readMem, ih h.2]
    · split
      · rename_i e
        split
        · rw [readMem, if_neg (by omega)]
        · rw [readMem, readMem, if_neg (Ne.symm hx), if_neg (by omega)]
      · split
        · rfl
        · rw [readMem, if_neg (Ne.symm hx)]

/-- A write keeps every listed address above a bound. -/
theorem writeMem_above (m : List Host.Cell) (a n : Nat) (b : Byte) (ha : n < a) (h : ∀ c ∈ m, n < c.1) :
    ∀ c ∈ writeMem m a b, n < c.1 := by
  induction m with
  | nil => intro c hc; by_cases hb : b = erasedByte <;> simp [writeMem, hb] at hc; subst hc; exact ha
  | cons d m ih =>
    intro c hc
    have hm := ih fun c hc => h c (by simp [hc])
    have hd := h d (by simp)
    unfold writeMem at hc
    split at hc
    · rcases List.mem_cons.1 hc with rfl | hc
      · exact hd
      · exact hm c hc
    · split at hc
      · split at hc
        · exact h c (by simp [hc])
        · rcases List.mem_cons.1 hc with rfl | hc
          · exact ha
          · exact h c (by simp [hc])
      · split at hc
        · exact h c hc
        · rcases List.mem_cons.1 hc with rfl | hc
          · exact ha
          · exact h c hc

/-- A write inside the array keeps the canonical form. -/
theorem writeMem_wf (m : List Host.Cell) (a : Nat) (b : Byte) (ha : a < Config.blockCount * Config.blockBytes)
    (h : Memory.wf m) : Memory.wf (writeMem m a b) := by
  induction m with
  | nil =>
    by_cases hb : b = erasedByte
    · simp [writeMem, hb, Memory.wf]
    · simp [writeMem, hb, Memory.wf, ha]
  | cons c m ih =>
    obtain ⟨h1, h2⟩ := h
    simp only [List.map_cons, List.pairwise_cons, List.mem_map, forall_exists_index, and_imp,
      forall_apply_eq_imp_iff₂] at h1
    have hc := h2 c (by simp)
    have hm : Memory.wf m := ⟨h1.2, fun d hd => h2 d (by simp [hd])⟩
    have cons_wf : ∀ (x : Host.Cell) (l : List Host.Cell), Memory.wf l → (∀ d ∈ l, x.1 < d.1) → x.2 ≠ erasedByte →
        x.1 < Config.blockCount * Config.blockBytes → Memory.wf (x :: l) := by
      intro x l hl hx h3 h4
      refine ⟨?_, ?_⟩
      · simp only [List.map_cons, List.pairwise_cons, List.mem_map, forall_exists_index, and_imp,
          forall_apply_eq_imp_iff₂]
        exact ⟨hx, hl.1⟩
      · intro d hd
        rcases List.mem_cons.1 hd with rfl | hd
        · exact ⟨h3, h4⟩
        · exact hl.2 d hd
    unfold writeMem
    split
    · rename_i lt
      exact cons_wf c _ (ih hm) (writeMem_above m a c.1 b lt h1.1) hc.1 hc.2
    · split
      · rename_i e
        split
        · exact hm
        · rename_i hb
          exact cons_wf (a, b) m hm (fun d hd => e ▸ h1.1 d hd) hb ha
      · have hcm := cons_wf c m hm h1.1 hc.1 hc.2
        split
        · exact hcm
        · rename_i hb
          refine cons_wf (a, b) (c :: m) hcm ?_ hb ha
          intro d hd
          rcases List.mem_cons.1 hd with rfl | hd
          · show a < d.1; omega
          · have := h1.1 d hd; show a < d.1; omega

/-! ## Programs and erases -/

theorem programByte_wf (m : List Host.Cell) (w : Write) (h : Memory.wf m) : Memory.wf (programByte m w) := by
  unfold programByte
  split
  · exact writeMem_wf m _ _ ‹_› h
  · exact h

theorem foldl_programByte_wf (ws : List Write) (m : List Host.Cell) (h : Memory.wf m) :
    Memory.wf (ws.foldl programByte m) := by
  induction ws generalizing m with
  | nil => exact h
  | cons w ws ih => exact ih _ (programByte_wf m w h)

theorem programRun_wf (free : Byte) (r : ProgResult) (m : List Host.Cell) (ws : List Write) (h : Memory.wf m) :
    Memory.wf (programRun free r m ws).1 := by
  induction ws generalizing r m with
  | nil => cases r <;> exact h
  | cons w ws ih =>
    unfold programRun
    dsimp only
    repeat' first
      | exact h
      | exact ih _ _ h
      | exact ih _ _ (programByte_wf _ _ h)
      | exact programByte_wf _ _ h
      | split

theorem eraseMem_wf (m : List Host.Cell) (b : Nat) (h : Memory.wf m) : Memory.wf (eraseMem m b) := by
  refine ⟨?_, fun c hc => h.2 c (List.mem_of_mem_filter hc)⟩
  exact h.1.sublist (List.Sublist.map _ List.filter_sublist)

/-- A byte outside an erased block reads as before, and one inside reads erased. -/
theorem readMem_eraseMem (m : List Host.Cell) (b a : Nat) :
    readMem (eraseMem m b) a = if addrOf b 0 ≤ a ∧ a < addrOf (b + 1) 0 then erasedByte else readMem m a := by
  unfold eraseMem
  induction m with
  | nil => simp [readMem]
  | cons c m ih =>
    simp only [List.filter_cons]
    split
    · rename_i hc
      simp only [Bool.or_eq_true, decide_eq_true_eq] at hc
      rw [readMem, readMem, ih]
      by_cases e : c.1 = a
      · rw [if_pos e, if_pos e, if_neg (by omega)]
      · rw [if_neg e, if_neg e]
    · rename_i hc
      simp only [Bool.or_eq_true, decide_eq_true_eq, not_or, Nat.not_lt, Nat.not_le] at hc
      rw [ih, readMem]
      by_cases e : c.1 = a
      · rw [if_pos (by omega), if_pos (by omega)]
      · rw [if_neg e]

/-! ## The protection row -/

@[simp] theorem lockBytes_length (p : Nat → Bool) : (lockBytes p).length = 8 := by simp [lockBytes]

@[simp] theorem cutErase_length (free : Nat → Byte) (bs : List Byte) : (cutErase free bs).length = bs.length := by
  simp [cutErase]

/-! ## The flash device -/

theorem FlashOk.program {f : Flash} (h : FlashOk f) (r : ProgResult) (ws : List Write) : FlashOk (f.program r ws).1 :=
  ⟨programRun_wf _ _ _ _ h.1, h.2⟩

theorem FlashOk.cut {f : Flash} (h : FlashOk f) (ws : List Write) : FlashOk (f.cut ws) :=
  ⟨foldl_programByte_wf _ _ h.1, h.2⟩

theorem FlashOk.eraseBlock {f : Flash} (h : FlashOk f) (b : Nat) : FlashOk (f.eraseBlock b) := ⟨eraseMem_wf _ _ h.1, h.2⟩

theorem FlashOk.tear {f : Flash} (h : FlashOk f) (b : Nat) : FlashOk (f.tear b) := by
  unfold Flash.tear
  split <;> exact h

theorem FlashOk.untear {f : Flash} (h : FlashOk f) (b : Nat) : FlashOk (f.untear b) := ⟨h.1, h.2⟩

theorem FlashOk.programRow {f : Flash} (h : FlashOk f) (j : RowJob) (failed : List Nat) :
    FlashOk (programRow j failed f).1 := by
  cases j <;> dsimp only [Sys2Proof.Machine.programRow]
  · exact ⟨h.1, by simp only [lockBytes_length]⟩
  · exact ⟨h.1, h.2⟩
  · exact ⟨h.1, h.2⟩

theorem FlashOk.cutRow {f : Flash} (h : FlashOk f) (j : RowJob) : FlashOk (cutRow j f) := by
  cases j <;> dsimp only [Sys2Proof.Machine.cutRow]
  · exact ⟨h.1, by simp only [lockBytes_length]⟩
  · exact ⟨h.1, h.2⟩
  · exact ⟨h.1, h.2⟩

theorem FlashOk.cutEraseFlash {f : Flash} (h : FlashOk f) (e : EraseProg) (c : Chip) : FlashOk (cutEraseFlash e c f) := by
  unfold Sys2Proof.Machine.cutEraseFlash
  split
  · exact h
  · dsimp only
    split
    · exact (h.cut _).tear _
    · exact h.cut _
  · exact h.tear _

theorem FlashOk.cutFlash {f : Flash} (h : FlashOk f) (c : Chip) : FlashOk (cutFlash c f) := by
  have h1 : FlashOk (cutHolder c f) := by
    unfold cutHolder
    repeat' first
      | with_reducible exact h
      | exact h.cutRow _
      | exact h.cut _
      | split
  have h2 : FlashOk (cutSegment c (cutHolder c f)) := by
    unfold cutSegment
    split
    · exact ⟨h1.1, by simp only [cutErase_length, h1.2]⟩
    · exact ⟨h1.1, by simp only [cutErase_length, h1.2]⟩
    · exact ⟨h1.1, h1.2⟩
    · exact h1
  unfold Sys2Proof.Machine.cutFlash
  split
  · exact h2.cutEraseFlash _ _
  · exact h2

theorem FlashOk.eraseLocks {f : Flash} (h : FlashOk f) (still : List Nat) : FlashOk (eraseLocks still f) := by
  unfold Sys2Proof.Machine.eraseLocks
  exact ⟨h.1, by simp only [lockBytes_length]⟩

theorem FlashOk.eraseKey {f : Flash} (h : FlashOk f) (key : List Byte) : FlashOk (eraseKey key f) := ⟨h.1, h.2⟩

/-- The flash after reset is in order. -/
theorem FlashOk.blank : FlashOk Flash.blank := by
  refine ⟨⟨by simp [Flash.blank], by simp [Flash.blank]⟩, rfl⟩

end Sys2Proof.Machine
end

