-- ==== Sys2Proof/Laws/PerInstr.lean ====
section
/-!
SUPPORT. Statements about every command, one lemma for each. `Framed`: the record of a well-formed command is one that the
downstream parser takes whole (R176): its tag is not the fill byte 00h and its payload is at most 600 bytes.
-/

-- One declaration after another: the package as one text keeps within the check's limit on threads.
set_option Elab.async false

namespace Sys2Proof.Laws

open Sys2Proof

/-- The record of a well-formed command has a tag other than fill and at most 600 bytes of payload (R176). -/
def Framed.Statement (i : Instr) : Prop :=
  i.wf = true → ∀ tag p, i.record = some (tag, p) → tag ≠ 0 ∧ p.length ≤ 600

/-- A command that is an event of the machine is no record. -/
theorem framed_event {i : Instr} (h : i.record = none) : Framed.Statement i := by
  intro _ tag p e
  rw [h] at e
  cases e

/-- A record of a fixed tag with a payload in bounds. -/
theorem framed_record {i : Instr} {tag : Byte} {p : List Byte} (h : i.record = some (tag, p)) (t : tag ≠ 0)
    (w : i.wf = true → payloadOk p = true) : Framed.Statement i := by
  intro v tag' p' e
  rw [h] at e
  cases e
  exact ⟨t, of_decide_eq_true (w v)⟩

/-- The second half of a conjunction of checks, or its first. -/
theorem ok_left {a b : Bool} (h : (a && b) = true) : a = true := by
  cases a
  · cases h
  · rfl

theorem ok_right {a b : Bool} (h : (a && b) = true) : b = true := by
  cases a
  · cases h
  · exact h

theorem Framed.powerOnReset (pins : Pins) : Framed.Statement (.powerOnReset pins) := framed_event rfl

theorem Framed.openRoute (p : List Byte) : Framed.Statement (.openRoute p) := framed_record rfl (by decide) id

theorem Framed.close (p : List Byte) : Framed.Statement (.close p) := framed_record rfl (by decide) id

theorem Framed.abort (p : List Byte) : Framed.Statement (.abort p) := framed_record rfl (by decide) id

theorem Framed.redirect (p : List Byte) : Framed.Statement (.redirect p) := framed_record rfl (by decide) id

theorem Framed.rearm (p : List Byte) : Framed.Statement (.rearm p) := framed_record rfl (by decide) id

theorem Framed.loadShading (p : List Byte) : Framed.Statement (.loadShading p) := framed_record rfl (by decide) ok_left

theorem Framed.loadTone (p : List Byte) : Framed.Statement (.loadTone p) := framed_record rfl (by decide) ok_left

theorem Framed.loadDither (p : List Byte) : Framed.Statement (.loadDither p) := framed_record rfl (by decide) ok_left

theorem Framed.loadScanRamp (p : List Byte) : Framed.Statement (.loadScanRamp p) := framed_record rfl (by decide) ok_left

theorem Framed.loadPrintRamp (p : List Byte) : Framed.Statement (.loadPrintRamp p) := framed_record rfl (by decide) ok_left

theorem Framed.loadHeat (p : List Byte) : Framed.Statement (.loadHeat p) := framed_record rfl (by decide) ok_left

theorem Framed.loadPark (p : List Byte) : Framed.Statement (.loadPark p) := framed_record rfl (by decide) ok_left

theorem Framed.loadWake (p : List Byte) : Framed.Statement (.loadWake p) := framed_record rfl (by decide) ok_left

theorem Framed.attentionMode (p : List Byte) : Framed.Statement (.attentionMode p) := framed_record rfl (by decide) id

theorem Framed.statusRequest (p : List Byte) (doce : Bool) (papx : Bool) : Framed.Statement (.statusRequest p doce papx) :=
  framed_record rfl (by decide) id

theorem Framed.restart (p : List Byte) : Framed.Statement (.restart p) := framed_record rfl (by decide) id

theorem Framed.delete (p : List Byte) : Framed.Statement (.delete p) := framed_record rfl (by decide) id

theorem Framed.directoryRequest (p : List Byte) : Framed.Statement (.directoryRequest p) := framed_record rfl (by decide) id

theorem Framed.lockPage (p : List Byte) : Framed.Statement (.lockPage p) := framed_record rfl (by decide) id

theorem Framed.setMasterLock (p : List Byte) : Framed.Statement (.setMasterLock p) := framed_record rfl (by decide) id

theorem Framed.clearLocks (p : List Byte) : Framed.Statement (.clearLocks p) := framed_record rfl (by decide) id

theorem Framed.totalErase (p : List Byte) : Framed.Statement (.totalErase p) := framed_record rfl (by decide) id

theorem Framed.confirm (p : List Byte) : Framed.Statement (.confirm p) := framed_record rfl (by decide) id

theorem Framed.clearStoreStatus (p : List Byte) : Framed.Statement (.clearStoreStatus p) := framed_record rfl (by decide) id

theorem Framed.installBoot (p : List Byte) : Framed.Statement (.installBoot p) := framed_record rfl (by decide) id

theorem Framed.serviceRequest (p : List Byte) : Framed.Statement (.serviceRequest p) := framed_record rfl (by decide) id

theorem Framed.serviceCode (p : List Byte) : Framed.Statement (.serviceCode p) := framed_record rfl (by decide) id

theorem Framed.serviceEnd (p : List Byte) : Framed.Statement (.serviceEnd p) := framed_record rfl (by decide) id

theorem Framed.setCode (p : List Byte) : Framed.Statement (.setCode p) := framed_record rfl (by decide) id

theorem Framed.sleep (p : List Byte) : Framed.Statement (.sleep p) := framed_record rfl (by decide) id

theorem Framed.bootFetch (p : List Byte) : Framed.Statement (.bootFetch p) := framed_record rfl (by decide) id

theorem Framed.unknownDirective (tag : Byte) (p : List Byte) : Framed.Statement (.unknownDirective tag p) := by
  intro v t q e
  have v : (decide (0x10 ≤ tag.toNat ∧ tag ∉ directiveTags) && payloadOk p) = true := v
  obtain ⟨rfl, rfl⟩ := Prod.mk.inj (Option.some.inj e)
  refine ⟨?_, of_decide_eq_true (ok_right v)⟩
  rintro rfl
  exact absurd (of_decide_eq_true (ok_left v)).1 (by decide)

theorem Framed.directiveDiscardedUntaken : Framed.Statement .directiveDiscardedUntaken := framed_event rfl

theorem Framed.heldDirectiveTaken (doce : Bool) (papx : Bool) : Framed.Statement (.heldDirectiveTaken doce papx) :=
  framed_event rfl

theorem Framed.line (length : Nat) (bytes : List Byte) : Framed.Statement (.line length bytes) := by
  intro v tag p e
  have hb : length ≤ Config.maxPayload ∧ bytes.length ≤ length := of_decide_eq_true v
  have hr : (if bytes.length = length then some ((1 : Byte), bytes) else none) = some (tag, p) := e
  split at hr
  · obtain ⟨rfl, rfl⟩ := Prod.mk.inj (Option.some.inj hr)
    exact ⟨by decide, Nat.le_trans hb.2 hb.1⟩
  · cases hr

theorem Framed.pageEnd (p : List Byte) : Framed.Statement (.pageEnd p) := framed_record rfl (by decide) id

theorem Framed.skippedTag (tag : Byte) (p : List Byte) : Framed.Statement (.skippedTag tag p) := by
  intro v t q e
  have v : (decide (0x03 ≤ tag.toNat ∧ tag.toNat ≤ 0x0F) && payloadOk p) = true := v
  obtain ⟨rfl, rfl⟩ := Prod.mk.inj (Option.some.inj e)
  refine ⟨?_, of_decide_eq_true (ok_right v)⟩
  rintro rfl
  exact absurd (of_decide_eq_true (ok_left v)).1 (by decide)

theorem Framed.framingError (tag : Byte) (length : Nat) : Framed.Statement (.framingError tag length) := framed_event rfl

theorem Framed.lselRelease (cut : List Bool) : Framed.Statement (.lselRelease cut) := framed_event rfl

theorem Framed.reportRecordSent : Framed.Statement .reportRecordSent := framed_event rfl

theorem Framed.outboundLineSent : Framed.Statement .outboundLineSent := framed_event rfl

theorem Framed.outboundPageEndSent : Framed.Statement .outboundPageEndSent := framed_event rfl

theorem Framed.linkEncodeEnd : Framed.Statement .linkEncodeEnd := framed_event rfl

theorem Framed.directoryEntry : Framed.Statement .directoryEntry := framed_event rfl

theorem Framed.atnPulseEnd : Framed.Statement .atnPulseEnd := framed_event rfl

theorem Framed.docpChange (present : Bool) : Framed.Statement (.docpChange present) := framed_event rfl

theorem Framed.pickStart (doce : Bool) : Framed.Statement (.pickStart doce) := framed_event rfl

theorem Framed.channelStart (ch : ChannelId) (therm : Byte) : Framed.Statement (.channelStart ch therm) := framed_event rfl

theorem Framed.motorStep (ch : ChannelId) (doce : Bool) (therm : Byte) : Framed.Statement (.motorStep ch doce therm) :=
  framed_event rfl

theorem Framed.holdExpiry (ch : ChannelId) : Framed.Statement (.holdExpiry ch) := framed_event rfl

theorem Framed.captureEnd (samples : List Byte) : Framed.Statement (.captureEnd samples) := framed_event rfl

theorem Framed.interlockTrip : Framed.Statement .interlockTrip := framed_event rfl

theorem Framed.coverClose : Framed.Statement .coverClose := framed_event rfl

theorem Framed.headLoadEnd : Framed.Statement .headLoadEnd := framed_event rfl

theorem Framed.strobeEnd : Framed.Statement .strobeEnd := framed_event rfl

theorem Framed.cutterPulseEnd : Framed.Statement .cutterPulseEnd := framed_event rfl

theorem Framed.cutJudgement (papx : Bool) : Framed.Statement (.cutJudgement papx) := framed_event rfl

theorem Framed.paperOut : Framed.Statement .paperOut := framed_event rfl

theorem Framed.paperIn : Framed.Statement .paperIn := framed_event rfl

theorem Framed.storeReadRequest : Framed.Statement .storeReadRequest := framed_event rfl

theorem Framed.lineReadEnd : Framed.Statement .lineReadEnd := framed_event rfl

theorem Framed.entryProgramEnd (r : ProgResult) : Framed.Statement (.entryProgramEnd r) := framed_event rfl

theorem Framed.claimProgramEnd (r : ProgResult) : Framed.Statement (.claimProgramEnd r) := framed_event rfl

theorem Framed.closeProgramEnd (r : ProgResult) : Framed.Statement (.closeProgramEnd r) := framed_event rfl

theorem Framed.retireProgramEnd (r : ProgResult) : Framed.Statement (.retireProgramEnd r) := framed_event rfl

theorem Framed.relocationCopyEnd (r : ProgResult) : Framed.Statement (.relocationCopyEnd r) := framed_event rfl

theorem Framed.rowProgramEnd (failed : List Nat) : Framed.Statement (.rowProgramEnd failed) := framed_event rfl

theorem Framed.eraseStart : Framed.Statement .eraseStart := framed_event rfl

theorem Framed.erasePulseEnd : Framed.Statement .erasePulseEnd := framed_event rfl

theorem Framed.eraseVerifyEnd (pass : Bool) : Framed.Statement (.eraseVerifyEnd pass) := framed_event rfl

theorem Framed.eraseMinPulseEnd : Framed.Statement .eraseMinPulseEnd := framed_event rfl

theorem Framed.countProgramEnd (r : ProgResult) : Framed.Statement (.countProgramEnd r) := framed_event rfl

theorem Framed.lockSegmentEraseEnd (stillSet : List Nat) : Framed.Statement (.lockSegmentEraseEnd stillSet) :=
  framed_event rfl

theorem Framed.totalEraseLockSegmentEnd (stillSet : List Nat) : Framed.Statement (.totalEraseLockSegmentEnd stillSet) :=
  framed_event rfl

theorem Framed.keySegmentEraseEnd (key : List Byte) : Framed.Statement (.keySegmentEraseEnd key) := framed_event rfl

theorem Framed.scanStart : Framed.Statement .scanStart := framed_event rfl

theorem Framed.scanEnd : Framed.Statement .scanEnd := framed_event rfl

theorem Framed.imageReadEnd : Framed.Statement .imageReadEnd := framed_event rfl

theorem Framed.installMarkProgramEnd (r : ProgResult) : Framed.Statement (.installMarkProgramEnd r) := framed_event rfl

theorem Framed.installRetireStart : Framed.Statement .installRetireStart := framed_event rfl

theorem Framed.serviceWindowExpiry : Framed.Statement .serviceWindowExpiry := framed_event rfl

theorem Framed.servicePulseEnd : Framed.Statement .servicePulseEnd := framed_event rfl

theorem Framed.domainSettled (d : DomainId) (therm : Byte) : Framed.Statement (.domainSettled d therm) := framed_event rfl

theorem Framed.domainHoldExpiry (d : DomainId) : Framed.Statement (.domainHoldExpiry d) := framed_event rfl

theorem Framed.wakeInputChange (pin : SignalPin) (high : Bool) : Framed.Statement (.wakeInputChange pin high) :=
  framed_event rfl

theorem Framed.debounceExpiry (source : WakeSource) : Framed.Statement (.debounceExpiry source) := framed_event rfl

theorem Framed.sleepEntry : Framed.Statement .sleepEntry := framed_event rfl

theorem Framed.secondTick : Framed.Statement .secondTick := framed_event rfl

theorem Framed.wakeTimerExpiry : Framed.Statement .wakeTimerExpiry := framed_event rfl

theorem Framed.mainClockRunning (papp : Bool) (papx : Bool) (doce : Bool) (cover : Bool) : Framed.Statement (.mainClockRunning papp papx doce cover) :=
  framed_event rfl

theorem Framed.wakingEnd : Framed.Statement .wakingEnd := framed_event rfl

theorem Framed.bootHoldRelease : Framed.Statement .bootHoldRelease := framed_event rfl

theorem Framed.lselAssert (doce papx : Bool) (bytes : List Byte) : Framed.Statement (.lselAssert doce papx bytes) :=
  framed_event rfl

theorem Framed.upstreamRecordStart : Framed.Statement .upstreamRecordStart := framed_event rfl

theorem Framed.badStateProgramEnd (r : ProgResult) : Framed.Statement (.badStateProgramEnd r) := framed_event rfl

end Sys2Proof.Laws
end

