-- ==== Sys2Proof/Laws/Settling.lean ====
section
/-!
SUPPORT. What follows at once from a change in a route's queues (`pump`, `settle`, `settleAll`) and from a grant of the flash changes
only what chapters 1 and 6 let it: the relation `Calm`, kept by each operation of Machine/Ops.lean to Machine/Closing.lean on that way.
-/

-- One declaration after another: the package as one text keeps within the check's limit on threads.
set_option Elab.async false

namespace Sys2Proof.Machine

open Sys2Proof

/-- A context with the same halt, endpoints and PAPER OUT stall. -/
def SameRoute (x y : Ctx) : Prop :=
  y.halt = x.halt ∧ y.source = x.source ∧ y.sinks = x.sinks ∧ (Stall.paperOut ∈ y.stalls ↔ Stall.paperOut ∈ x.stalls)

theorem SameRoute.rfl {x : Ctx} : SameRoute x x := ⟨Eq.refl _, Eq.refl _, Eq.refl _, Iff.rfl⟩

theorem SameRoute.of {x y : Ctx} (h : y.halt = x.halt) (s : y.source = x.source) (k : y.sinks = x.sinks)
    (t : y.stalls = x.stalls) : SameRoute x y := ⟨h, s, k, by rw [t]⟩

theorem SameRoute.trans {x y z : Ctx} (h : SameRoute x y) (k : SameRoute y z) : SameRoute x z :=
  ⟨k.1.trans h.1, k.2.1.trans h.2.1, k.2.2.1.trans h.2.2.1, k.2.2.2.trans h.2.2.2⟩

/-- Motion, drive and ramp index of a channel. -/
def Channel.calm (ch : Channel) : Motion × Drive × Nat := (ch.motion, ch.drive, ch.k)

/-- Cut and paper of the head. -/
def Head.calm (h : Head) : CutState × Bool := (h.cut, h.paper)

/-- An operation that holds the whole flash, a LOCK ERASE as one that has begun: a grant may begin it. -/
def WholeOp.begun : WholeOp → WholeOp
  | .lockErase _ => .lockErase true
  | x => x

/-- What holds the whole flash, whether a scan has ended, and the setup-pending mark. -/
def Store.calm (x : Store) : WholeOp × Bool × Setup := (x.op.begun, x.scanned, x.setup)

/-- The contexts of `b` are those of `a`, some of them CLOSED, with halt, endpoints and PAPER OUT stall as they were. -/
def CalmRoutes (a b : List Route) : Prop :=
  ∀ r y, (b.getD r Route.closed).ctx = some y → ∃ x, (a.getD r Route.closed).ctx = some x ∧ SameRoute x y

/-- FREE slots stay FREE. -/
def CalmPool (a b : Pool) : Prop := ∀ n, a.slots.getD n .free = .free → b.slots.getD n .free = .free

/-- The channels' motion and drive, the cut, paper, the whole operations of the store and a run-out stand; FREE slots stay FREE; routes
keep halt, endpoints and PAPER OUT stall or become CLOSED. -/
def Calm (c t : Chip) : Prop :=
  (t.scanCh.calm = c.scanCh.calm ∧ t.printCh.calm = c.printCh.calm ∧ t.head.calm = c.head.calm ∧
    t.store.calm = c.store.calm ∧ t.runOut = c.runOut) ∧
  CalmPool c.pool t.pool ∧ CalmRoutes c.routes t.routes

theorem CalmRoutes.rfl {a : List Route} : CalmRoutes a a := fun _ y h => ⟨y, h, .rfl⟩

theorem CalmRoutes.trans {a b c : List Route} (h : CalmRoutes a b) (k : CalmRoutes b c) : CalmRoutes a c := fun r z e =>
  let ⟨y, hy, s⟩ := k r z e
  let ⟨x, hx, q⟩ := h r y hy
  ⟨x, hx, q.trans s⟩

theorem Calm.rfl {c : Chip} : Calm c c := ⟨⟨Eq.refl _, Eq.refl _, Eq.refl _, Eq.refl _, Eq.refl _⟩, fun _ h => h, .rfl⟩

theorem Calm.trans {a b c : Chip} (h : Calm a b) (k : Calm b c) : Calm a c :=
  ⟨⟨k.1.1.trans h.1.1, k.1.2.1.trans h.1.2.1, k.1.2.2.1.trans h.1.2.2.1, k.1.2.2.2.1.trans h.1.2.2.2.1,
    k.1.2.2.2.2.trans h.1.2.2.2.2⟩, fun n e => k.2.1 n (h.2.1 n e), h.2.2.trans k.2.2⟩

/-- A fold of operations that each are calm. -/
theorem Calm.fold {α : Type} {w u : Chip} {f : Chip → α → Chip} {xs : List α} (h : Calm w u)
    (hf : ∀ c x, Calm w c → Calm w (f c x)) : Calm w (xs.foldl f u) := by
  induction xs generalizing u with
  | nil => exact h
  | cons x xs ih => exact ih (hf _ _ h)

theorem Channel.release_calm (ch : Channel) : ch.release.calm = ch.calm := rfl

theorem Channel.stopFor_calm (cause : StopCause) (ch : Channel) : (ch.stopFor cause).calm = ch.calm := by
  unfold Channel.stopFor
  repeat' split
  all_goals exact Eq.refl _

/-- An update of anything but the pool, the routes, the tables and a run-out. -/
theorem Calm.update {c b : Chip} {scan : Capture} {scanCh printCh : Channel} {head : Head} {linkIn : LinkIn}
    {linkOut : LinkOut} {store : Store} {power : Power} {link : Link} (h : Calm c b)
    (hs : scanCh.calm = b.scanCh.calm := by first | rfl | exact Channel.stopFor_calm _ _ | exact Channel.release_calm _ | dsimp only [Channel.calm])
    (hp : printCh.calm = b.printCh.calm := by first | rfl | exact Channel.stopFor_calm _ _ | exact Channel.release_calm _ | dsimp only [Channel.calm])
    (hh : head.calm = b.head.calm := by first | rfl | dsimp only [Head.calm])
    (ht : store.calm = b.store.calm := by first | rfl | dsimp only [Store.calm]) :
    Calm c { b with scan := scan, scanCh := scanCh, printCh := printCh, head := head, linkIn := linkIn, linkOut := linkOut,
                    store := store, power := power, link := link } :=
  ⟨⟨hs.trans h.1.1, hp.trans h.1.2.1, hh.trans h.1.2.2.1, ht.trans h.1.2.2.2.1, h.1.2.2.2.2⟩, h.2⟩

/-! ## Routes -/

/-- A list in which the record of one route is replaced, its context CLOSED or like the old one. -/
theorem CalmRoutes.set {a : List Route} {r : Nat} {x : Route}
    (h : ∀ y, x.ctx = some y → ∃ z, (a.getD r Route.closed).ctx = some z ∧ SameRoute z y) : CalmRoutes a (a.set r x) := by
  intro n y e
  by_cases k : r = n
  · subst k
    by_cases l : r < a.length
    · exact h y (by simpa [List.getD, l] using e)
    · rw [List.set_eq_of_length_le (Nat.le_of_not_lt l)] at e
      exact ⟨y, e, .rfl⟩
  · exact ⟨y, by simpa [List.getD, List.getElem?_set, k] using e, .rfl⟩

theorem setRoute_calm {w u : Chip} (hu : Calm w u) (r : Nat) (x : Route)
    (hx : ∀ y, x.ctx = some y → ∃ z, ctxOf u r = some z ∧ SameRoute z y) : Calm w (setRoute r x u) :=
  ⟨hu.1, hu.2.1, hu.2.2.trans (CalmRoutes.set hx)⟩

theorem modCtx_calm {w u : Chip} (hu : Calm w u) (r : Nat) (f : Ctx → Ctx) (hf : ∀ x, SameRoute x (f x)) :
    Calm w (modCtx r f u) := by
  unfold modCtx
  split
  · exact hu
  · rename_i x e
    refine setRoute_calm hu r _ fun y k => ?_
    have k : f x = y := Option.some.inj k
    subst k
    exact ⟨x, e, hf x⟩

/-- A map that leaves every context like it was. -/
theorem CalmRoutes.map {a : List Route} {f : Route → Route} (h : ∀ x y, (f x).ctx = some y → ∃ z, x.ctx = some z ∧ SameRoute z y) :
    CalmRoutes a (a.map f) := by
  intro r y e
  cases k : a[r]? with
  | none => simp [List.getD, k, Route.closed] at e
  | some x =>
    simp only [List.getD, List.getElem?_map, k, Option.map_some, Option.getD_some] at e ⊢
    exact h x y e

theorem setQueue_same (x : Ctx) (k : Sink) (q : List Entry) : SameRoute x (x.setQueue k q) := by
  cases k <;> exact .of rfl rfl rfl rfl

theorem push_same (x : Ctx) (e : Entry) : SameRoute x (x.push e) := by
  unfold Ctx.push
  have : ∀ (ks : List Sink) (y : Ctx), SameRoute x y →
      SameRoute x (ks.foldl (fun x k => x.setQueue k (x.queue k ++ [e])) y) := by
    intro ks
    induction ks with
    | nil => exact fun _ h => h
    | cons k ks ih => exact fun y h => ih _ (h.trans (setQueue_same _ _ _))
  exact this _ _ .rfl

theorem recordReady_calm {w u : Chip} (hu : Calm w u) : Calm w (recordReady u) := by
  unfold recordReady
  repeat' first
    | with_reducible assumption
    | (extract_lets +onlyGivenNames v; subst v)
    | split
    | with_reducible refine Calm.update ?_

theorem queueRecord_calm {w u : Chip} (hu : Calm w u) (x : Report) : Calm w (queueRecord x u) := by
  unfold queueRecord
  repeat' first
    | with_reducible assumption
    | with_reducible apply recordReady_calm
    | (extract_lets +onlyGivenNames v; subst v)
    | with_reducible refine Calm.update ?_

theorem markReported_calm {w u : Chip} (hu : Calm w u) (p : Nat → Ctx → Bool) : Calm w (markReported p u) := by
  refine ⟨hu.1, hu.2.1, hu.2.2.trans fun r y e => ⟨y, ?_, .rfl⟩⟩
  have key : ∀ (n : Nat) (x : Route), (match x.ctx with
      | some y => if p n y then { x with haltReported := true } else x
      | none => x).ctx = x.ctx := by
    intro n x
    split
    · split <;> rfl
    · rfl
  unfold markReported at e
  by_cases l : r < u.routes.length
  · simp only [List.getD, List.getElem?_map, List.getElem?_eq_getElem, l, Option.getD_some] at e ⊢
    rw [List.getElem?_eq_getElem (by simpa using l)] at e
    simp only [Option.map_some, Option.getD_some, List.getElem_zip] at e
    exact (key _ _).symm.trans e
  · have l := Nat.le_of_not_lt l
    rw [List.getD_eq_default _ _ (by simpa using l)] at e
    cases e

theorem reportHalts_calm {w u : Chip} (hu : Calm w u) (e : Event) : Calm w (reportHalts e u) := by
  unfold reportHalts
  repeat' first
    | with_reducible assumption
    | with_reducible apply markReported_calm
    | split

theorem queueEvent_calm {w u : Chip} (hu : Calm w u) (e : Event) : Calm w (queueEvent e u) := by
  unfold queueEvent
  repeat' first
    | with_reducible assumption
    | with_reducible apply reportHalts_calm
    | with_reducible apply queueRecord_calm
    | (extract_lets +onlyGivenNames v; subst v)
    | split
    | with_reducible refine Calm.update ?_

theorem queueCredit_calm {w u : Chip} (hu : Calm w u) (r : ℕ) (x : ℕ) : Calm w (queueCredit r x u) := by
  unfold queueCredit
  repeat' first
    | with_reducible assumption
    | with_reducible apply queueRecord_calm
    | (extract_lets +onlyGivenNames v; subst v)
    | split
    | with_reducible refine Calm.update ?_

theorem syncCredit_calm {w u : Chip} (hu : Calm w u) (r : ℕ) : Calm w (syncCredit r u) := by
  unfold syncCredit
  repeat' first
    | with_reducible assumption
    | with_reducible apply queueCredit_calm
    | with_reducible refine modCtx_calm ?_ _ _ (fun x => by first | exact push_same _ _ | exact setQueue_same _ _ _ | exact .of rfl rfl rfl rfl)
    | split

theorem setSlot_calm {w u : Chip} (hu : Calm w u) (n : Nat) (x : Slot) : Calm w (setSlot n x u) := by
  unfold setSlot
  split
  · rename_i h
    refine ⟨hu.1, fun m e => ?_, hu.2.2⟩
    have e := hu.2.1 m e
    by_cases k : n = m
    · subst k
      have hr : none = x.route := by rw [← h, slotAt, e]; rfl
      have hx : x = .free := by cases x <;> first | rfl | cases hr
      subst hx
      by_cases hl : n < u.pool.slots.length <;> simp [List.getD, hl]
    · simpa [List.getD, List.getElem?_set, k] using e
  · exact hu

theorem returnSlot_calm {w u : Chip} (hu : Calm w u) (n : Nat) : Calm w (returnSlot n u) := by
  unfold returnSlot
  split
  · exact hu
  · extract_lets c
    have hc : Calm w c := by
      refine ⟨hu.1, fun m e => ?_, hu.2.2⟩
      have e := hu.2.1 m e
      by_cases k : n = m
      · subst k
        by_cases l : n < u.pool.slots.length
        · simp [c, List.getD, l]
        · simp [c, List.getD, Nat.le_of_not_lt l]
      · simpa [c, List.getD, List.getElem?_set, k] using e
    split
    · exact syncCredit_calm hc _
    · exact hc

theorem returnSlots_calm {w u : Chip} (hu : Calm w u) (ns : List ℕ) : Calm w (returnSlots ns u) := by
  unfold returnSlots
  repeat' first
    | with_reducible assumption
    | intro _
    | with_reducible apply returnSlot_calm
    | with_reducible refine Calm.fold ?_ ?_

theorem dropReference_calm {w u : Chip} (hu : Calm w u) (n : ℕ) : Calm w (dropReference n u) := by
  unfold dropReference
  repeat' first
    | with_reducible assumption
    | with_reducible apply returnSlot_calm
    | with_reducible apply setSlot_calm
    | split

theorem dropStall_calm {w u : Chip} (hu : Calm w u) (r : Nat) : Calm w (dropStall r .storeWait u) :=
  modCtx_calm hu r _ fun x => ⟨rfl, rfl, rfl, by simp [List.mem_filter]⟩

theorem addStall_calm {w u : Chip} (hu : Calm w u) (r : Nat) : Calm w (addStall r .storeWait u) := by
  refine modCtx_calm hu r _ fun x => ?_
  split
  · exact .rfl
  · exact ⟨rfl, rfl, rfl, by simp⟩

theorem dropLamp_calm {w u : Chip} (hu : Calm w u) : Calm w (dropLamp u) := by
  unfold dropLamp
  repeat' first
    | with_reducible assumption
    | (extract_lets +onlyGivenNames v; subst v)
    | split
    | with_reducible refine Calm.update ?_

theorem modBlock_calm {w u : Chip} (hu : Calm w u) (b : ℕ) (f : Block → Block) : Calm w (modBlock b f u) := by
  unfold modBlock
  repeat' first
    | with_reducible assumption
    | (extract_lets +onlyGivenNames v; subst v)
    | with_reducible refine Calm.update ?_

theorem setBlockState_calm {w u : Chip} (hu : Calm w u) (b : ℕ) (st : BlockState) : Calm w (setBlockState b st u) := by
  unfold setBlockState
  repeat' first
    | with_reducible assumption
    | with_reducible apply modBlock_calm

theorem modPage_calm {w u : Chip} (hu : Calm w u) (id : ℕ) (f : Page → Page) : Calm w (modPage id f u) := by
  unfold modPage
  repeat' first
    | with_reducible assumption
    | (extract_lets +onlyGivenNames v; subst v)
    | split
    | with_reducible refine Calm.update ?_

theorem removePage_calm {w u : Chip} (hu : Calm w u) (id : ℕ) : Calm w (removePage id u) := by
  unfold removePage
  repeat' first
    | with_reducible assumption
    | (extract_lets +onlyGivenNames v; subst v)
    | with_reducible refine Calm.update ?_

theorem headContentLost_calm {w u : Chip} (hu : Calm w u) : Calm w (headContentLost u) := by
  unfold headContentLost
  repeat' first
    | with_reducible assumption
    | (extract_lets +onlyGivenNames v; subst v)
    | with_reducible refine Calm.update ?_

theorem dropHeadUse_calm {w u : Chip} (hu : Calm w u) : Calm w (dropHeadUse u) := by
  unfold dropHeadUse
  repeat' first
    | with_reducible assumption
    | with_reducible apply headContentLost_calm
    | (extract_lets +onlyGivenNames v; first | (refine (fun _ : Calm w v => ?_) ?_; rotate_left; subst v; rotate_left; clear_value v) | subst v)
    | split
    | with_reducible refine Calm.update ?_

theorem releaseHead_calm {w u : Chip} (hu : Calm w u) : Calm w (releaseHead u) := by
  unfold releaseHead
  repeat' first
    | with_reducible assumption
    | with_reducible apply dropHeadUse_calm
    | (extract_lets +onlyGivenNames v; subst v)
    | with_reducible refine Calm.update ?_

theorem refreshLoad_calm {w u : Chip} (hu : Calm w u) : Calm w (refreshLoad u) := by
  unfold refreshLoad
  repeat' first
    | with_reducible assumption
    | (extract_lets +onlyGivenNames v; subst v)
    | split
    | with_reducible refine Calm.update ?_

theorem setErase_calm {w u : Chip} (hu : Calm w u) (e : Option EraseProg) : Calm w (setErase e u) := by
  unfold setErase
  repeat' first
    | with_reducible assumption
    | (extract_lets +onlyGivenNames v; subst v)
    | with_reducible refine Calm.update ?_

theorem suspendErase_calm {w u c : Chip} (hu : Calm w u) (e : suspendErase u = some c) : Calm w c := by
  unfold suspendErase at e
  repeat' split at e
  all_goals cases e
  all_goals exact hu

theorem suspendErase_op {u c : Chip} (e : suspendErase u = some c) : c.store.op = u.store.op := by
  unfold suspendErase at e
  repeat' split at e
  all_goals cases e
  all_goals rfl

theorem resumeErase_calm {w u : Chip} (hu : Calm w u) : Calm w (resumeErase u) := by
  unfold resumeErase
  repeat' first
    | with_reducible assumption
    | with_reducible apply setErase_calm
    | split

theorem grant_calm {w u : Chip} (hu : Calm w u) : Calm w (grant u) := by
  unfold grant
  split
  · exact hu
  · split
    · split
      · exact hu
      · split
        · split
          · rename_i e
            exact Calm.update (suspendErase_calm hu e)
          · exact hu
        · split
          · rename_i e
            exact Calm.update (suspendErase_calm hu e)
          · exact hu
        · exact resumeErase_calm hu
    · rename_i ho
      split
      · rename_i c e
        have hc : c.store.op = .lockErase false := (suspendErase_op e).trans ho
        exact Calm.update (suspendErase_calm hu e) (ht := by simp [Store.calm, hc, WholeOp.begun])
      · exact hu
    · exact resumeErase_calm hu
    · exact hu

theorem askRead_calm {w u : Chip} (hu : Calm w u) (j : Job) : Calm w (askRead j u) := by
  unfold askRead
  repeat' first
    | with_reducible assumption
    | with_reducible apply grant_calm
    | (extract_lets +onlyGivenNames v; subst v)
    | with_reducible refine Calm.update ?_

theorem askProgram_calm {w u : Chip} (hu : Calm w u) (j : Job) : Calm w (askProgram j u) := by
  unfold askProgram
  repeat' first
    | with_reducible assumption
    | with_reducible apply grant_calm
    | (extract_lets +onlyGivenNames v; subst v)
    | with_reducible refine Calm.update ?_

theorem freeFlash_calm {w u : Chip} (hu : Calm w u) : Calm w (freeFlash u) := by
  unfold freeFlash
  repeat' first
    | with_reducible assumption
    | with_reducible apply grant_calm
    | (extract_lets +onlyGivenNames v; subst v)
    | with_reducible refine Calm.update ?_

theorem retireBlock_calm {w u : Chip} (hu : Calm w u) (why : RetireFor) (b : ℕ) : Calm w (retireBlock why u b) := by
  unfold retireBlock
  repeat' first
    | with_reducible assumption
    | with_reducible apply askProgram_calm
    | with_reducible apply setBlockState_calm

theorem retireBlocks_calm {w u : Chip} (hu : Calm w u) (why : RetireFor) (bs : List ℕ) : Calm w (retireBlocks why bs u) := by
  unfold retireBlocks
  repeat' first
    | with_reducible assumption
    | intro _
    | with_reducible apply retireBlock_calm
    | with_reducible refine Calm.fold ?_ ?_
    | (extract_lets +onlyGivenNames v; subst v)
    | split
    | with_reducible refine Calm.update ?_

theorem enterQueues_calm {w u : Chip} (hu : Calm w u) (r : ℕ) (e : Entry) : Calm w (enterQueues r e u) := by
  unfold enterQueues
  repeat' first
    | with_reducible assumption
    | with_reducible refine modCtx_calm ?_ _ _ (fun x => by first | exact push_same _ _ | exact setQueue_same _ _ _ | exact .of rfl rfl rfl rfl)
    | with_reducible apply setSlot_calm
    | (extract_lets +onlyGivenNames v; refine (fun _ : Calm w v => ?_) ?_; rotate_left; subst v; rotate_left; clear_value v)
    | split

theorem placeEntry_calm {w u : Chip} (hu : Calm w u) (r : ℕ) (e : Entry) : Calm w (placeEntry r e u) := by
  unfold placeEntry
  repeat' first
    | with_reducible assumption
    | with_reducible apply enterQueues_calm
    | with_reducible refine modCtx_calm ?_ _ _ (fun x => by first | exact push_same _ _ | exact setQueue_same _ _ _ | exact .of rfl rfl rfl rfl)
    | split

theorem moveHold_calm {w u : Chip} (hu : Calm w u) (r : Nat) (es : List Entry) : Calm w (moveHold r es u) := by
  induction es generalizing u with
  | nil => exact modCtx_calm hu _ _ fun _ => .of rfl rfl rfl rfl
  | cons e es ih =>
    unfold moveHold
    repeat' first
      | with_reducible assumption
      | exact modCtx_calm hu _ _ fun _ => .of rfl rfl rfl rfl
      | exact ih (enterQueues_calm hu _ _)
      | split

theorem settleHold_calm {w u : Chip} (hu : Calm w u) (r : ℕ) : Calm w (settleHold r u) := by
  unfold settleHold
  repeat' first
    | with_reducible assumption
    | with_reducible apply moveHold_calm
    | split

theorem pageEnd_calm {w u : Chip} (hu : Calm w u) (r : ℕ) (truncated : Bool) : Calm w (pageEnd r truncated u) := by
  unfold pageEnd
  repeat' first
    | with_reducible assumption
    | with_reducible apply placeEntry_calm
    | with_reducible refine modCtx_calm ?_ _ _ (fun x => by first | exact push_same _ _ | exact setQueue_same _ _ _ | exact .of rfl rfl rfl rfl)
    | split

theorem dropHead_calm {w u : Chip} (hu : Calm w u) (k : Sink) (r : ℕ) : Calm w (dropHead k r u) := by
  unfold dropHead
  repeat' first
    | with_reducible assumption
    | with_reducible apply settleHold_calm
    | with_reducible apply dropReference_calm
    | with_reducible refine modCtx_calm ?_ _ _ (fun x => by first | exact push_same _ _ | exact setQueue_same _ _ _ | exact .of rfl rfl rfl rfl)
    | split

theorem serveMark_calm {w u : Chip} (hu : Calm w u) (k : Sink) (r : Nat) (f : Mark → Mark) : Calm w (serveMark k r f u) := by
  unfold serveMark
  split
  · exact hu
  · split
    · rename_i m rest _
      have ha := modCtx_calm hu r (fun x =>
        let x := x.setQueue k rest
        { x with printQ := putMark (f m) x.printQ, linkQ := putMark (f m) x.linkQ, storeQ := putMark (f m) x.storeQ })
        fun x => (setQueue_same x k rest).trans (.of rfl rfl rfl rfl)
      refine settleHold_calm ?_ _
      split
      · exact ha
      · exact setRoute_calm (queueEvent_calm ha _) _ _ fun y e => ⟨y, e, .rfl⟩
    · exact hu

theorem stopScan_calm {w u : Chip} (hu : Calm w u) (cause : StopCause) : Calm w (stopScan cause u) := by
  unfold stopScan
  repeat' first
    | with_reducible assumption
    | (extract_lets +onlyGivenNames v; subst v)
    | with_reducible refine Calm.update ?_

theorem endScanSource_calm {w u : Chip} (hu : Calm w u) : Calm w (endScanSource u) := by
  unfold endScanSource
  repeat' first
    | with_reducible assumption
    | with_reducible apply dropLamp_calm
    | (extract_lets +onlyGivenNames v; subst v)
    | with_reducible refine Calm.update ?_

theorem dropWaitingStart_calm {w u : Chip} (hu : Calm w u) : Calm w (dropWaitingStart u) := by
  unfold dropWaitingStart returnReservations
  repeat' first
    | with_reducible assumption
    | with_reducible apply returnSlots_calm
    | with_reducible refine modCtx_calm ?_ _ _ (fun x => .of rfl rfl rfl rfl)
    | split

theorem closeScanSource_calm {w u : Chip} (hu : Calm w u) : Calm w (closeScanSource u) := by
  unfold closeScanSource
  repeat' first
    | with_reducible assumption
    | with_reducible apply endScanSource_calm
    | with_reducible apply dropWaitingStart_calm
    | with_reducible apply stopScan_calm
    | split

theorem requestClose_calm {w u : Chip} (hu : Calm w u) (r : ℕ) : Calm w (requestClose r u) := by
  unfold requestClose
  repeat' first
    | with_reducible assumption
    | with_reducible refine modCtx_calm ?_ _ _ (fun x => by first | exact push_same _ _ | exact setQueue_same _ _ _ | exact .of rfl rfl rfl rfl)
    | with_reducible apply closeScanSource_calm
    | with_reducible apply pageEnd_calm
    | (extract_lets +onlyGivenNames v; refine (fun _ : Calm w v => ?_) ?_; rotate_left; subst v; rotate_left; clear_value v)
    | split

theorem setWork_calm {w u : Chip} (hu : Calm w u) (x : Option Work) : Calm w (setWork x u) := by
  unfold setWork
  repeat' first
    | with_reducible assumption
    | (extract_lets +onlyGivenNames v; subst v)
    | with_reducible refine Calm.update ?_

theorem createPage_calm {w u : Chip} (hu : Calm w u) (r : ℕ) (start : Option ℕ) : Calm w (createPage r start u) := by
  unfold createPage
  repeat' first
    | with_reducible assumption
    | with_reducible refine modCtx_calm ?_ _ _ (fun x => by first | exact push_same _ _ | exact setQueue_same _ _ _ | exact .of rfl rfl rfl rfl)
    | (extract_lets +onlyGivenNames v; subst v)
    | split
    | with_reducible refine Calm.update ?_

theorem forgetPage_calm {w u : Chip} (hu : Calm w u) (id : Nat) : Calm w (forgetPage id u) := by
  refine ⟨hu.1, hu.2.1, hu.2.2.trans (CalmRoutes.map fun x y e => ?_)⟩
  split at e
  · rename_i z hz
    split at e
    · have e := Option.some.inj e
      subst e
      exact ⟨z, hz, .of rfl rfl rfl rfl⟩
    · exact ⟨y, e, .rfl⟩
  · exact ⟨y, e, .rfl⟩

theorem endPage_calm {w u : Chip} (hu : Calm w u) (route : Option ℕ) (truncated : Bool) (mark : Option Mark) (id : ℕ) : Calm w (endPage route truncated mark id u) := by
  unfold endPage
  repeat' first
    | with_reducible assumption
    | with_reducible apply forgetPage_calm
    | with_reducible apply setWork_calm
    | with_reducible apply askProgram_calm
    | with_reducible apply setBlockState_calm
    | with_reducible apply retireBlocks_calm
    | with_reducible apply removePage_calm
    | split

theorem meetFull_calm {w u : Chip} (hu : Calm w u) (r : ℕ) (cause : FullCause) : Calm w (meetFull r cause u) := by
  unfold meetFull
  repeat' first
    | with_reducible assumption
    | with_reducible apply queueEvent_calm
    | with_reducible apply dropStall_calm
    | with_reducible refine modCtx_calm ?_ _ _ (fun x => by first | exact push_same _ _ | exact setQueue_same _ _ _ | exact .of rfl rfl rfl rfl)
    | with_reducible apply endPage_calm
    | with_reducible apply setWork_calm
    | with_reducible apply requestClose_calm
    | with_reducible apply dropHead_calm
    | (extract_lets +onlyGivenNames v; subst v)
    | split
    | with_reducible refine Calm.update ?_

theorem claimBlock_calm {w u c : Chip} {id seq n : Nat} {reloc : Bool} (hu : Calm w u)
    (e : claimBlock id seq reloc u = some (n, c)) : Calm w c := by
  unfold claimBlock at e
  split at e
  · cases e
  · simp only [Option.some.injEq, Prod.mk.injEq] at e
    obtain ⟨-, rfl⟩ := e
    repeat' first
      | with_reducible assumption
      | with_reducible apply askProgram_calm
      | with_reducible apply modPage_calm
      | with_reducible apply modBlock_calm
      | split
      | with_reducible refine Calm.update ?_

theorem tryClaim_calm {w u : Chip} (hu : Calm w u) (r : ℕ) : Calm w (tryClaim r u) := by
  unfold tryClaim
  repeat' first
    | with_reducible assumption
    | with_reducible refine claimBlock_calm ?_ ‹_›
    | with_reducible apply meetFull_calm
    | with_reducible apply dropStall_calm
    | with_reducible apply setWork_calm
    | with_reducible apply askProgram_calm
    | with_reducible apply addStall_calm
    | with_reducible apply queueEvent_calm
    | (extract_lets +onlyGivenNames v; first | (refine (fun _ : Calm w v => ?_) ?_; rotate_left; subst v; rotate_left; clear_value v) | subst v)
    | split
    | with_reducible refine Calm.update ?_

theorem placeWork_calm {w u : Chip} (hu : Calm w u) (r : ℕ) (size : ℕ) : Calm w (placeWork r size u) := by
  unfold placeWork
  repeat' first
    | with_reducible assumption
    | with_reducible apply tryClaim_calm
    | with_reducible apply askProgram_calm
    | with_reducible apply setBlockState_calm
    | split

theorem takeEntry_calm {w u : Chip} (hu : Calm w u) (r : ℕ) : Calm w (takeEntry r u) := by
  unfold takeEntry
  repeat' first
    | with_reducible assumption
    | with_reducible apply setWork_calm
    | with_reducible apply placeWork_calm
    | with_reducible apply createPage_calm
    | with_reducible apply meetFull_calm
    | with_reducible apply serveMark_calm
    | with_reducible apply endPage_calm
    | (extract_lets +onlyGivenNames v; first | (refine (fun _ : Calm w v => ?_) ?_; rotate_left; subst v; rotate_left; clear_value v) | subst v)
    | split
    | with_reducible refine Calm.update ?_

theorem drainEntry_calm {w u : Chip} (hu : Calm w u) (r : ℕ) : Calm w (drainEntry r u) := by
  unfold drainEntry
  repeat' first
    | with_reducible assumption
    | with_reducible apply dropHead_calm
    | with_reducible apply serveMark_calm
    | with_reducible refine modCtx_calm ?_ _ _ (fun x => by first | exact push_same _ _ | exact setQueue_same _ _ _ | exact .of rfl rfl rfl rfl)
    | (extract_lets +onlyGivenNames v; subst v)
    | split
    | with_reducible refine Calm.update ?_

theorem fillLane_calm {w u : Chip} (hu : Calm w u) (r : ℕ) : Calm w (fillLane r u) := by
  unfold fillLane
  repeat' first
    | with_reducible assumption
    | (extract_lets +onlyGivenNames v; subst v)
    | split
    | with_reducible refine Calm.update ?_

theorem storeLoop_calm {w u : Chip} (hu : Calm w u) (r n : Nat) : Calm w (storeLoop r n u) := by
  induction n generalizing u with
  | zero => exact hu
  | succ n ih =>
    unfold storeLoop
    repeat' first
      | with_reducible assumption
      | exact ih (drainEntry_calm hu _)
      | exact ih (takeEntry_calm hu _)
      | split

theorem storePump_calm {w u : Chip} (hu : Calm w u) (r : ℕ) : Calm w (storePump r u) := by
  unfold storePump
  repeat' first
    | with_reducible assumption
    | with_reducible apply fillLane_calm
    | with_reducible apply storeLoop_calm
    | split

theorem linkPump_calm {w u : Chip} (hu : Calm w u) : Calm w (linkPump u) := by
  unfold linkPump
  repeat' first
    | with_reducible assumption
    | with_reducible apply recordReady_calm
    | with_reducible apply pageEnd_calm
    | (extract_lets +onlyGivenNames v; subst v)
    | split
    | with_reducible refine Calm.update ?_

theorem syncMotor_calm {w u : Chip} (hu : Calm w u) : Calm w (syncMotor u) := by
  unfold syncMotor
  repeat' first
    | with_reducible assumption
    | (extract_lets +onlyGivenNames v; subst v)
    | split
    | with_reducible refine Calm.update ?_

theorem releaseScan_calm {w u : Chip} (hu : Calm w u) : Calm w (releaseScan u) := by
  unfold releaseScan
  repeat' first
    | with_reducible assumption
    | with_reducible apply dropLamp_calm
    | (extract_lets +onlyGivenNames v; refine (fun _ : Calm w v => ?_) ?_; rotate_left; subst v; rotate_left; clear_value v)
    | with_reducible refine Calm.update ?_

theorem releasePrint_calm {w u : Chip} (hu : Calm w u) : Calm w (releasePrint u) := by
  unfold releasePrint
  repeat' first
    | with_reducible assumption
    | with_reducible apply releaseHead_calm
    | (extract_lets +onlyGivenNames v; refine (fun _ : Calm w v => ?_) ?_; rotate_left; subst v; rotate_left; clear_value v)
    | with_reducible refine Calm.update ?_

theorem closeRoute_calm {w u : Chip} (hu : Calm w u) (r : Nat) (cause : CloseCause) : Calm w (closeRoute r cause u) := by
  unfold closeRoute
  split
  · exact hu
  · extract_lets q a b c
    have ha : Calm w a := setRoute_calm hu _ _ fun y e => by cases e
    have hb : Calm w b := by
      unfold b
      split
      · exact releaseScan_calm ha
      · exact ha
    have hc : Calm w c := by
      unfold c
      split
      · exact releasePrint_calm hb
      · exact hb
    exact queueEvent_calm hc _

theorem closeIfEmpty_calm {w u : Chip} (hu : Calm w u) (r : ℕ) : Calm w (closeIfEmpty r u) := by
  unfold closeIfEmpty
  repeat' first
    | with_reducible assumption
    | with_reducible apply closeRoute_calm
    | split

theorem pump_calm {w u : Chip} (hu : Calm w u) (r : ℕ) : Calm w (pump r u) := by
  unfold pump
  repeat' first
    | with_reducible assumption
    | with_reducible apply closeIfEmpty_calm
    | with_reducible apply refreshLoad_calm
    | with_reducible apply linkPump_calm
    | with_reducible apply storePump_calm

theorem settle_calm {w u : Chip} (hu : Calm w u) (r : ℕ) : Calm w (settle r u) := by
  unfold settle
  repeat' first
    | with_reducible assumption
    | with_reducible apply syncMotor_calm
    | with_reducible apply pump_calm

theorem settleAll_calm {w u : Chip} (hu : Calm w u) : Calm w (settleAll u) := by
  unfold settleAll
  repeat' first
    | with_reducible assumption
    | intro _
    | with_reducible apply syncMotor_calm
    | with_reducible apply pump_calm
    | with_reducible refine Calm.fold ?_ ?_

end Sys2Proof.Machine
end

