-- ==== Sys2Proof/Laws/Whole.lean ====
section
/-!
SUPPORT. What the operations over part and flash together leave alone: the loadable tables stand, and the line pool and the flash
keep their form.
-/

-- One declaration after another: the package as one text keeps within the check's limit on threads.
set_option Elab.async false

namespace Sys2Proof.Machine

open Sys2Proof

/-- The tables stand, and a pool and a flash in order stay in order. -/
def Sound (s t : State) : Prop := KeptTables s.chip t.chip ∧ (FlashOk s.flash → FlashOk t.flash)

theorem Sound.rfl {s : State} : Sound s s := ⟨.rfl, id⟩

theorem Sound.trans {a b c : State} (h : Sound a b) (k : Sound b c) : Sound a c := ⟨h.1.trans k.1, fun x => k.2 (h.2 x)⟩

/-- An operation over the part alone. -/
theorem Sound.onChip {s t : State} {f : Chip → Chip} (h : Sound s t)
    (hf : ∀ c, KeptTables s.chip c → KeptTables s.chip (f c)) : Sound s (t.onChip f) := ⟨hf _ h.1, h.2⟩

/-! ## Jobs -/

theorem endProgram_sound {s : State} (j : Job) (r : ProgResult) (f : Bool → Chip → Chip)
    (hf : ∀ ok c, KeptTables s.chip c → KeptTables s.chip (f ok c)) : Sound s (endProgram j r f s) :=
  ⟨(freeFlash_kept .rfl).to ((settleAll_kept .rfl).to (hf _ _ .rfl)), fun h => h.program _ _⟩

theorem endRead_sound {s : State} (f : Chip → Chip) (hf : ∀ c, KeptTables s.chip c → KeptTables s.chip (f c)) :
    Sound s (endRead f s) :=
  Sound.rfl.onChip fun _ h => (freeFlash_kept .rfl).to ((settleAll_kept .rfl).to (hf _ h))

theorem verifyEnd_sound {s : State} (pass : Bool) : Sound s (verifyEnd pass s) := by
  unfold verifyEnd
  split
  · split
    · split
      · exact ⟨(setErase_kept .rfl _).tables, fun h => h.eraseBlock _⟩
      · split
        · exact Sound.rfl.onChip fun _ h => (grant_kept .rfl).to ((setErase_kept .rfl _).to h)
        · exact Sound.rfl.onChip fun _ h => (settleAll_kept .rfl).to ((eraseFailed_kept .rfl _).to h)
    · exact .rfl
  · exact .rfl

theorem countEnd_sound {s : State} (r : ProgResult) : Sound s (countEnd r s) := by
  unfold countEnd
  split
  · split
    · exact ⟨(countDone_kept .rfl _ _).tables, fun h => h.program _ _⟩
    · exact .rfl
  · exact .rfl

theorem badEnd_sound {s : State} (r : ProgResult) : Sound s (badEnd r s) := by
  unfold badEnd
  split
  · split
    · refine ⟨(eraseOver_kept .rfl _ _).tables, fun h => ?_⟩
      dsimp only
      split
      · exact (h.program _ _).untear _
      · exact (h.program _ _).tear _
    · exact .rfl
  · exact .rfl

theorem lockEraseEnd_sound {s : State} (still : List Nat) : Sound s (lockEraseEnd still s) := by
  unfold lockEraseEnd
  split
  · refine ⟨?_, fun h => h.eraseLocks _⟩
    dsimp only
    exact locksErased_loaded .rfl _
  · exact .rfl

theorem totalLockEnd_sound {s : State} (still : List Nat) : Sound s (totalLockEnd still s) := by
  unfold totalLockEnd
  split
  · exact ⟨readLocks_loaded (KeptTables.update .rfl) _, fun h => h.eraseLocks _⟩
  · exact .rfl

theorem keyEraseEnd_sound {s : State} (key : List Byte) : Sound s (keyEraseEnd key s) := by
  unfold keyEraseEnd
  split
  · refine ⟨?_, fun h => h.eraseKey _⟩
    dsimp only
    exact totalOver_loaded .rfl _
  · exact .rfl

theorem scanEnd_sound {s : State} : Sound s (scanEnd s) := by
  unfold scanEnd
  split
  · refine ⟨?_, fun h => h⟩
    dsimp only
    exact scanDone_loaded .rfl _
  · exact .rfl

/-! ## The end of SERVICE, CONFIRM and RESTART -/

theorem cutLockedErase_sound {s : State} : Sound s (cutLockedErase s) := by
  unfold cutLockedErase
  split
  · split
    · refine ⟨?_, fun h => h.cutEraseFlash _ _⟩
      dsimp only
      split
      · exact (setErase_kept .rfl _).tables
      · exact (joinEraseQueue_kept .rfl _).to ((setBlockState_kept .rfl _ _).to (setErase_kept .rfl _).tables)
    · exact .rfl
  · exact .rfl

theorem cutLockedHolder_sound {s : State} : Sound s (cutLockedHolder s) := by
  unfold cutLockedHolder
  split
  · split
    · exact ⟨dropLocked_loaded (KeptTables.update .rfl) _, fun h => h.cut _⟩
    · exact .rfl
  · exact .rfl

theorem serviceOver_sound {s : State} : Sound s (serviceOver s) := by
  unfold serviceOver
  extract_lets a b d
  have ha : Sound s a := Sound.rfl.onChip fun _ h => setService_loaded h _
  have hb : Sound s b := by
    refine ha.onChip fun c h => ?_
    split
    · exact KeptTables.fold h fun c r h => (abortRoute_kept .rfl _ _).to h
    · exact h
  have hd : Sound s d := (hb.trans cutLockedErase_sound).trans cutLockedHolder_sound
  exact hd.onChip fun c h =>
    (grant_kept .rfl).to ((settleAll_kept .rfl).to ((retryClaim_kept .rfl).to (withdrawLocked_loaded h)))

theorem closeService_sound {s : State} : Sound s (closeService s) := by
  unfold closeService
  split
  · exact serviceOver_sound
  · exact Sound.rfl.onChip fun _ h => setService_loaded h _
  · exact .rfl

theorem serviceEndState_sound {s : State} (p : List Byte) : Sound s (serviceEndState p s) := by
  unfold serviceEndState
  split
  · exact (Sound.rfl.onChip fun _ h => (reply_kept .rfl _ _).to h).trans closeService_sound
  · exact Sound.rfl.onChip fun _ h => (refuse_kept .rfl _ _).to h

theorem sleepEntry_sound {s : State} : Sound s (sleepEntry s) := by
  unfold sleepEntry
  split
  · exact closeService_sound.onChip fun _ h => enterSleep_loaded h
  · exact .rfl

theorem beginSetup_sound {s : State} (k : Setup) : Sound s (beginSetup k s) := by
  unfold beginSetup
  split
  · exact .rfl
  · exact Sound.rfl.onChip fun _ h => (grant_kept .rfl).to (KeptTables.update h)
  · refine ⟨beginTotal_loaded .rfl, fun h => ?_⟩
    dsimp only
    split
    · exact h.cutEraseFlash _ _
    · exact h

theorem confirmState_sound {s : State} (p : List Byte) : Sound s (confirmState p s) := by
  unfold confirmState
  extract_lets k a
  have ha : Sound s a := Sound.rfl.onChip fun _ h => KeptTables.update h
  split
  · exact ha.onChip fun _ h => (refuse_kept .rfl _ _).to h
  · split
    · exact Sound.rfl.onChip fun _ h => (refuse_kept .rfl _ _).to (KeptTables.update h)
    · split
      · exact ha.onChip fun _ h => (refuseProtected_kept .rfl _).to h
      · exact ha.onChip fun _ h => (refuse_kept .rfl _ _).to h
      · exact (ha.onChip fun _ h => (reply_kept .rfl _ _).to h).trans (beginSetup_sound _)

/-- The pool of a reset is in order. -/
theorem PoolOk.default : PoolOk Pool.default := by
  refine ⟨rfl, by decide, fun n => ?_⟩
  have : Pool.default.slots.getD n .free = .free := by
    simp only [Pool.default, List.getD_eq_getElem?_getD, List.getElem?_replicate]
    split <;> rfl
  simp only [this, and_true]
  simp [Pool.default, Config.slotCount]

theorem blocksRestart_loaded {w u : Chip} (hu : KeptTables w u) : KeptTables w (blocksRestart u) := by
  refine ⟨?_, fun _ => PoolOk.default⟩
  rw [← hu.1]
  rfl

theorem restartChip_loaded {w u : Chip} (hu : KeptTables w u) (p : List Byte) : KeptTables w (restartChip p u) := by
  unfold restartChip
  extract_lets c
  have hc : KeptTables w c := blocksRestart_loaded ((reply_kept .rfl _ _).to (linkRestart_loaded hu))
  split
  · exact hc
  · exact (trip_kept .rfl).to hc

theorem restartState_sound {s : State} (p : List Byte) : Sound s (restartState p s) := by
  unfold restartState
  extract_lets c0 c1 a
  have ha : KeptTables s.chip a := by
    subst a
    refine restartRules_loaded ?_
    exact KeptTables.update .rfl
  clear_value a
  split
  · refine ⟨?_, fun h => h.cutFlash _⟩
    dsimp only
    exact restartChip_loaded ha _
  · refine ⟨?_, fun h => h⟩
    dsimp only
    exact (refuse_kept .rfl _ _).to ha

/-! ## Directives (R179) -/

/-- A directive record that ends: what its owner does is sound, so the whole is. -/
theorem arrive_sound {s : State} (i : Instr) (f : State → State) (hf : ∀ t, Sound s t → Sound s (f t)) :
    Sound s (arrive i f s) := by
  unfold arrive
  repeat' split
  · exact .rfl
  · exact .rfl
  · exact hf _ (Sound.rfl.onChip fun _ h => streamRules_loaded h i)
  · exact Sound.rfl.onChip fun _ h => KeptTables.update h

theorem owned_sound {s t : State} (h : Sound s t) (p : List Byte) (f : State → State) (hf : ∀ t, Sound t (f t)) :
    Sound s (owned p f t) := by
  unfold owned
  split
  · exact h.onChip fun _ h => (refuse_kept .rfl _ _).to h
  · exact h.trans (hf t)

theorem ownedChip_sound {s t : State} (h : Sound s t) (p : List Byte) (f : Chip → Chip)
    (hf : ∀ w c, KeptTables w c → KeptTables w (f c)) : Sound s (ownedChip p f t) :=
  owned_sound h p _ fun _ => Sound.rfl.onChip (hf _)

/-- A directive that is taken: the stream rules, then its owner. -/
theorem arrive_taken {s : State} (h : Taken s) (i : Instr) (f : State → State) :
    arrive i f s = f (s.withChip (streamRules i s.chip)) := by
  simp [arrive, h.1, h.2.1, h.2.2, takeDirective, State.onChip]

/-- A directive that is taken, whose owner touches the part alone. -/
theorem ownedChip_taken {s : State} (h : Taken s) (i : Instr) {p : List Byte} (hp : p ≠ []) (f : Chip → Chip) :
    arrive i (ownedChip p f) s = s.withChip (f (streamRules i s.chip)) := by
  rw [arrive_taken h]
  simp [ownedChip, owned, hp, State.onChip, List.isEmpty_iff]

/-- A directive without a reference byte is MALFORMED (R179). -/
theorem ownedChip_empty {s : State} (h : Taken s) (i : Instr) (f : Chip → Chip) :
    arrive i (ownedChip [] f) s = s.withChip (refuse [] .malformed (streamRules i s.chip)) := by
  rw [arrive_taken h]
  simp [ownedChip, owned, State.onChip]

/-- With nothing to watch for, the stream rules do nothing (R137, R156, R170). -/
theorem streamRules_quiet {c : Chip} (h : Quiet c) (i : Instr) : streamRules i c = c := by
  obtain ⟨h1, h2, h3⟩ := h
  have a : setupRule i c = c := by unfold setupRule; split <;> simp [h1]
  have b : sleepRule i c = c := by unfold sleepRule cancelSleep; split <;> simp [h2]
  have d : servingRule i c = c := by unfold servingRule; split <;> simp [h3]
  unfold streamRules
  rw [a, b, d]

/-! ## Bytes exchanged (R175) -/

/-- With LSEL released, or the host off, a byte has no effect. -/
@[simp] theorem exchange_released {s : State} (h : exchanging s.chip = false) (doce papx : Bool) (b : Byte) :
    exchange doce papx s b = s := by
  simp [exchange, h]

/-- With none held there is no held directive to take (R179). -/
@[simp] theorem takeHeld_none {s : State} (h : s.chip.link.held = none) (doce papx : Bool) : takeHeld doce papx s = s := by
  simp [takeHeld, h]

/-- With less than 256 bytes free the held directive waits (R179). -/
theorem takeHeld_waits {s : State} (h : freeBytes s.chip < Config.reportRoom) (doce papx : Bool) : takeHeld doce papx s = s := by
  unfold takeHeld
  split
  · rw [if_neg (Nat.not_le.mpr h)]
  · rfl

/-- What one exchange does (R175, R176, R179): the byte upstream, the held directive, the byte downstream, and the record it ends. -/
theorem exchange_eq {s : State} (h : exchanging s.chip = true) (doce papx : Bool) (b : Byte) :
    exchange doce papx s b =
      let u := takeHeld doce papx (s.onChip sendByte)
      match u.chip.link.parser.ended b with
      | some x => recordEnds doce papx x.1 x.2 (u.onChip (parserTake b))
      | none => u.onChip (parserTake b) := by
  unfold exchange
  exact if_pos h

/-- A byte that ends no record, with no directive held: it goes upstream, and the parser takes it. -/
theorem exchange_within {s : State} (h : exchanging s.chip = true) (doce papx : Bool) (b : Byte)
    (hh : (sendByte s.chip).link.held = none) (hn : (sendByte s.chip).link.parser.ended b = none) :
    exchange doce papx s b = s.withChip (parserTake b (sendByte s.chip)) := by
  rw [exchange_eq h, takeHeld_none (s := s.onChip sendByte) hh]
  simp only [State.onChip, State.withChip] at hn ⊢
  rw [hn]

/-- With nothing to send, and no byte to send again, a byte upstream is fill (R183). -/
@[simp] theorem sendByte_idle {c : Chip} (h : arbitrate c = .idle) (hc : c.link.cut = none) : sendByte c = c := by
  unfold sendByte
  rw [if_pos h, ← hc]

/-- With no byte to send again the arbiter chooses anew between records (R183). -/
theorem arbitrate_fresh {c : Chip} (h : c.link.up = .idle) (hc : c.link.cut = none) : arbitrate c = freshRecord c := by
  simp [arbitrate, h, hc]

/-- A fill byte that a release of LSEL cut is sent again, whatever has become ready since (R175). -/
theorem arbitrate_cutFill {c : Chip} (h : c.link.up = .idle) (hc : c.link.cut = some .idle) : arbitrate c = .idle := by
  simp [arbitrate, h, hc]

/-- So is the first byte of the LINK-out lane's record, before the reports queued since (R175). -/
theorem arbitrate_cutOut {c : Chip} (h : c.link.up = .idle) (hc : c.link.cut = some .out) (ho : linkOutReady c = true) :
    arbitrate c = .out := by
  simp [arbitrate, h, hc, ho]

/-- The byte that a release of LSEL cuts with no record in part is of the record that had been chosen (R175). -/
theorem cutByte_chosen {c : Chip} {bits : List Bool} (h : exchanging c = true) (hb : bits ≠ []) (hu : c.link.up = .idle) :
    cutByte bits c = some (arbitrate c) := by
  simp [cutByte, h, hb, hu]

/-- Bytes given in two commands do what they do in one. -/
theorem execLselAssert_append (doce papx : Bool) (xs ys : List Byte) (s : State) :
    execLselAssert s doce papx (xs ++ ys) = .next (ys.foldl (exchange doce papx) (xs.foldl (exchange doce papx) (s.onChip lselAssertChip))) := by
  simp [execLselAssert, List.foldl_append]

end Sys2Proof.Machine
end

