-- ==== Sys2Proof/Tests/Slice0.lean ====
section
/-!
SUPPORT. Tests, each a named theorem: an ill-formed term for every check of WellFormed, records as the host's bytes spell them, worked
values of the manual, and for every statement with hypotheses a state and operands that meet them, clause by clause.
-/

-- One declaration after another: the package as one text keeps within the check's limit on threads.
set_option Elab.async false

namespace Sys2Proof.Tests

open Sys2Proof Sys2Proof.Machine

/-! ## WellFormed: every check refuses (R176, R179, R30, R100, R130) -/

/-- A payload one byte too long. -/
def long : List Byte := List.replicate 601 0

theorem test_wf_payload_600 : (Instr.openRoute (List.replicate 600 0)).wf = true := by decide +kernel
theorem test_wf_payload_601 : (Instr.openRoute long).wf = false ∧ (Instr.restart long).wf = false ∧
    (Instr.pageEnd long).wf = false ∧ (Instr.statusRequest long true true).wf = false := by decide +kernel
theorem test_wf_load_table : (Instr.loadTone [1, 2, 0, 0]).wf = true ∧ (Instr.loadTone [1, 3, 0, 0]).wf = false ∧
    (Instr.loadDither [1]).wf = false ∧ (Instr.loadScanRamp [1, 5]).wf = false ∧ (Instr.loadPrintRamp [1, 4]).wf = false ∧
    (Instr.loadHeat [1, 7]).wf = false ∧ (Instr.loadPark [1, 8]).wf = false ∧ (Instr.loadWake [1, 9]).wf = false := by decide
theorem test_wf_load_shading : (Instr.loadShading [1, 1]).wf = true ∧ (Instr.loadShading [1]).wf = true ∧
    (Instr.loadShading [1, 9]).wf = true ∧ (Instr.loadShading [1, 8]).wf = false := by decide
theorem test_wf_unknown_tag : (Instr.unknownDirective 0x15 [1]).wf = true ∧ (Instr.unknownDirective 0x14 [1]).wf = false ∧
    (Instr.unknownDirective 0x0F [1]).wf = false := by decide
theorem test_wf_line : (Instr.line 218 [0, 1]).wf = true ∧ (Instr.line 601 []).wf = false ∧
    (Instr.line 1 [0, 1]).wf = false := by decide
theorem test_wf_skipped_tag : (Instr.skippedTag 0x03 []).wf = true ∧ (Instr.skippedTag 0x0F []).wf = true ∧
    (Instr.skippedTag 0x02 []).wf = false ∧ (Instr.skippedTag 0x10 []).wf = false := by decide
theorem test_wf_framing : (Instr.framingError 0x10 601).wf = true ∧ (Instr.framingError 0x10 600).wf = false ∧
    (Instr.framingError 0 601).wf = false ∧ (Instr.framingError 0x10 65536).wf = false := by decide
theorem test_wf_samples : (Instr.captureEnd (List.replicate 1727 0)).wf = false := by decide +kernel
theorem test_wf_program : (Instr.entryProgramEnd (.failAt 16383)).wf = true ∧ (Instr.entryProgramEnd (.failAt 16384)).wf = false ∧
    (Instr.badStateProgramEnd (.failAt 16384)).wf = false := by decide
theorem test_wf_cells : (Instr.rowProgramEnd [63]).wf = true ∧ (Instr.rowProgramEnd [64]).wf = false ∧
    (Instr.lockSegmentEraseEnd [64]).wf = false ∧ (Instr.totalEraseLockSegmentEnd [64]).wf = false := by decide
theorem test_wf_cut : (Instr.lselRelease (List.replicate 7 true)).wf = true ∧ (Instr.lselRelease (List.replicate 8 true)).wf = false := by decide
theorem test_wf_key : (Instr.keySegmentEraseEnd (List.replicate 9 0xFF)).wf = true ∧
    (Instr.keySegmentEraseEnd (List.replicate 8 0xFF)).wf = false := by decide

/-! ## Records (R176, R178, 11.1): bytes written out from the record header -/

/-- CLOSE of route 2 with reference 5Ah: tag 11h, length 0002h low byte first. -/
theorem test_record_close : readRecord false false [0x11, 0x02, 0x00, 0x5A, 0x02] = some (.close [0x5A, 0x02], []) := by decide

/-- Fill bytes are skipped; BOOT FETCH of chunk 0102h. -/
theorem test_record_boot_fetch : readRecord false false [0x00, 0x00, 0x3C, 0x03, 0x00, 0x07, 0x02, 0x01, 0x11] =
    some (.bootFetch [0x07, 0x02, 0x01], [0x11]) := by decide

/-- LOAD goes by its table byte: 06h is the heat table. -/
theorem test_record_load_heat : readRecord false false [0x18, 0x06, 0x00, 0x01, 0x06, 0x00, 0x00, 0x20, 0x00] =
    some (.loadHeat [0x01, 0x06, 0x00, 0x00, 0x20, 0x00], []) := by decide

theorem test_record_line : readRecord false false [0x01, 0x03, 0x00, 0x01, 0x01, 0xC6] =
    some (.line 3 [0x01, 0x01, 0xC6], []) := by decide
theorem test_record_page_end : readRecord false false [0x02, 0x01, 0x00, 0x03] = some (.pageEnd [0x03], []) := by decide
theorem test_record_service_code : readRecord false false ([0x31, 0x09, 0x00, 0x01] ++ [1, 2, 3, 4, 5, 6, 7, 8]) =
    some (.serviceCode [0x01, 1, 2, 3, 4, 5, 6, 7, 8], []) := by decide
theorem test_record_sleep : readRecord false false [0x38, 0x04, 0x00, 0x09, 0x10, 0x0E, 0x00] =
    some (.sleep [0x09, 0x10, 0x0E, 0x00], []) := by decide
theorem test_record_skipped : readRecord false false [0x03, 0x01, 0x00, 0xFF, 0x21] = some (.skippedTag 0x03 [0xFF], [0x21]) := by decide
theorem test_record_unknown : readRecord false false [0x40, 0x01, 0x00, 0x09] = some (.unknownDirective 0x40 [0x09], []) := by decide

/-- A length of 0259h is 601: a framing error. -/
theorem test_record_framing : readRecord false false [0x10, 0x59, 0x02] = some (.framingError 0x10 601, []) := by decide

/-- No row of the table has bits, so no word spells a command. -/
theorem test_word_spells_nothing : decodeTableWord 16 0x1122 = none ∧ State.reset.withFetchWord 16 0x1122 = State.reset := ⟨rfl, rfl⟩

/-! ## Worked values of the manual -/

/-- 5.1 and 5.2: a white line is C6h 00h, the run of 1728 pixels (192 + 6 × 256). -/
theorem test_white_line : encodeLine whiteLine = ⟨.run, [0xC6, 0x00]⟩ := by decide +kernel

/-- R48: phase position 7 drives D and A, and the next is 0. -/
theorem test_phase_wraps : phaseOutputs 7 = [.d, .a] ∧ (Channel.default.step.1).phase = 1 := by decide

/-- R55: N = 1 + ceil(min(k + s, r) / s). -/
theorem test_cover : coverOf 0 4 10 = 2 ∧ coverOf 8 4 10 = 4 ∧ coverOf 10 4 10 = 4 := by decide

/-- R76: the strobe time at a band time of 600 and density 16, and the cap at a line period of 5000. -/
theorem test_strobe : strobeDemand HeatTable.default 0 16 = 600 ∧ strobeCap 5000 = 1225 := by decide

/-- R100: bits go from 1 to 0 only. -/
theorem test_program_clears : programmed 0xF0 0x3C = 0x30 := by decide

/-! ## States for the witnesses -/

/-- The part right after reset, LSEL asserted. -/
def c0 : Chip := lselAssertChip State.reset.chip

/-- The machine with a part. -/
def on (c : Chip) : State := { State.reset with chip := c }

/-- The part after reset with its store changed. -/
def stored (f : Store → Store) : Chip := { c0 with store := f c0.store }

/-- A route request of a source and sinks, with a quota of 4. -/
def request (src : Source) (sinks : List Sink) : OpenReq :=
  { route := 0, source := src, sinks := sinks, quota := 4, period := 16000, steps := 4, encoding := some .run,
    scanP := some ⟨.threshold, 128, 256, 8, 4, 400, 8000, true⟩, printP := some ⟨16, 1, 20⟩,
    storeP := some ⟨.boot, []⟩, pages := [1] }

/-- The part with route 0 open with a context. -/
def routed (x : Ctx) (c : Chip) : Chip :=
  setRoute 0 { ctx := some x, pagesDone := 0, overrun := false, haltReported := true } c

/-- A LINK to PRINT context. -/
def linkPrint : Ctx := (request .link [.print]).ctx

/-- A page with two blocks. -/
def page1 : Page :=
  { id := 1, writing := false, origin := .boot, truncated := false, interrupted := false, isPartial := false, lines := 3,
    steps := 4, creation := 5, blocks := [0, 63], label := [], partialStart := none }

/-- A page under way, its last block open. -/
def page2 : Page := { page1 with id := 2, writing := true, blocks := [7], creation := 6 }

/-- The directory holding both, block 7 claimed. -/
def paged : Chip := modBlock 7 (fun x => { x with state := .claimed, page := some 2 }) (stored fun x => { x with dir := [page1, page2] })

/-- A line entry of slot 5. -/
def entry5 : LineEntry := ⟨5, 0, false⟩

/-- A page mark. -/
def mark0 : Mark := ⟨0, 3, 0, false, false, none⟩

/-- An erase of block 9. -/
def eraseOf (phase : ErasePhase) : EraseProg := ⟨9, 0, 0, phase, 0, 0⟩

/-- OPEN of route 0 from LINK to PRINT (11.3): quota 4, period 16000, 4 steps, RUN, density 16, 1 copy, tail feed 20. -/
def openBytes : List Byte := [0x55, 0, 2, 1, 0, 4, 0x80, 0x3E, 4, 1, 16, 1, 20, 0]

/-- A record queue with 212 bytes free. -/
def crowded : Chip := { c0 with link := { c0.link with reports := List.replicate 60 (.reply 0 .accepted) } }

/-! ## Witnesses: the machine as a whole, encodings -/

theorem witness_stepRuns : (⟨c0, Flash.blank, [.secondTick, .paperIn]⟩ : State).pending = .secondTick :: [.paperIn] := rfl
theorem witness_stepIdle : State.reset.pending = [] := rfl
/-- Every counter that a tick moves, at its last value. -/
theorem witness_tick :
    let on_ := fun (d : Domain) => { c0 with power := { c0.power with lamp := d } }
    let erase := fun (ph : ErasePhase) (unit : Nat) => stored fun x => { x with erase := some { eraseOf ph with unit := unit } }
    ({ c0 with power := { c0.power with state := .sleep } } : Chip).power.state = .sleep ∧ c0.power.state ≠ .sleep ∧ c0.power.sources[3]?.isSome = true ∧
    (({ c0 with prot := { c0.prot with service := .window 1 } } : Chip).prot.service = .window 1 ∧ c0.prot.service = .normal) ∧
    (c0.store.erase = none ∧ (erase .pulse 9999).store.erase = some { eraseOf .pulse with unit := 9999 } ∧ (9999 : Nat) < 10000 ∧
      (erase .pulse 10000).store.erase = some { eraseOf .pulse with unit := 10000 } ∧ (erase .verify 0).store.erase = some (eraseOf .verify) ∧
      (erase .count 0).store.erase = some (eraseOf .count)) ∧
    ((on_ (.rising 1)).power.lamp = .rising 1 ∧ (on_ (.holding 0)).power.lamp = .holding 0 ∧ c0.power.lamp = .off ∧ (on_ .on).power.lamp = .on) := by
  decide +kernel
theorem witness_flashOk : FlashOk State.reset.flash ∧ ∃ t, step State.reset = .next t := ⟨by decide +kernel, _, rfl⟩
theorem witness_poolOk : PoolOk State.reset.chip.pool ∧ ∃ t, step State.reset = .next t := ⟨PoolOk.default, _, rfl⟩
theorem witness_shapeOk : ShapeOk State.reset.chip ∧ ∃ t, step State.reset = .next t :=
  ⟨by unfold ShapeOk; decide +kernel, _, rfl⟩
theorem witness_suppliesOk : SuppliesOk State.reset.chip ∧ ∃ t, step State.reset = .next t :=
  ⟨by unfold SuppliesOk; decide +kernel, _, rfl⟩
theorem witness_tables : writesTables (.secondTick) = false ∧ ∃ t, exec .secondTick State.reset = .next t := ⟨rfl, _, rfl⟩
theorem witness_row : writesRow .paperIn = false ∧ ∃ t, exec .paperIn State.reset = .next t := ⟨rfl, _, rfl⟩
theorem witness_movement : movesOnly .strobeEnd = true ∧ ∃ t, exec .strobeEnd State.reset = .next t := ⟨rfl, _, rfl⟩
/-- A step that keeps a route open, with its quota. -/
theorem witness_quotas :
    let s := { on (routed linkPrint c0) with pending := [.paperIn] }
    (∃ t, step s = .next t ∧ ctxOf t.chip 0 = some linkPrint) ∧ (∀ d p a b bytes rest, s.pending ≠ .lselAssert d p (a :: b :: bytes) :: rest) ∧
    ctxOf s.chip 0 = some linkPrint ∧ charged s.chip 0 ≤ linkPrint.quota ∧ linkPrint.quota ≤ 32 :=
  ⟨⟨_, rfl, by decide +kernel⟩, fun _ _ _ _ _ _ => nofun, by decide +kernel⟩
theorem witness_line : whiteLine.length = lineWidth := by decide +kernel
theorem witness_record : (Instr.close [0x5A, 2]).wf = true ∧ (Instr.close [0x5A, 2]).record = some (0x11, [0x5A, 2]) := by decide
theorem witness_correction : (255 : Nat) ≤ (⟨255, 0⟩ : Shade).dark ∧ (⟨254, 0⟩ : Shade).dark < 255 ∧ (65535 : Nat) ≤ 65535 := by decide
theorem witness_pixel : 1727 < lineWidth ∧ (⟨.threshold, 0, 256, 0, 0, 16, 1024, false⟩ : ScanParams).mode = .threshold ∧
    (⟨.dither, 0, 256, 0, 0, 16, 1024, false⟩ : ScanParams).mode = .dither := by decide
theorem witness_scaling : (256 : Nat) ≤ 256 := by decide
theorem witness_phases : Channel.default.drive = .off ∧ ({ Channel.default with drive := .full } : Channel).drive ≠ .off := by decide
theorem witness_ramp : 1 ≤ [4000].length ∧ [4000].Pairwise (· ≥ ·) ∧ ∀ x ∈ [4000], 500 ≤ x ∧ x ≤ 20000 := by decide
theorem witness_heat : HeatTable.default.thresholds.length = 7 ∧ HeatTable.default.times.length = 8 ∧
    HeatTable.default.thresholds.Pairwise (· ≤ ·) ∧ (∀ x ∈ HeatTable.default.thresholds, x ≤ 255) ∧
    (∀ x ∈ HeatTable.default.times, 100 ≤ x ∧ x ≤ 4000) ∧ 14 + [300].length ≤ 15 := by decide

/-! ## Witnesses: directives and routes -/

theorem witness_streamSetup : (∀ p, Instr.close [] ≠ .confirm p) ∧ (stored fun x => { x with setup := .totalErase }).store.setup ≠ .none :=
  ⟨fun _ => nofun, by decide⟩
/-- A pending sleep, and serving with a chunk in flight and without one, with room for the records and with none. -/
theorem witness_streamRecords :
    let asks := { c0 with power := { c0.power with state := .sleepPending }, boot := { c0.boot with state := .complete } }
    let serves := fun (k : Option Chunk) => { c0 with boot := { c0.boot with state := .serving, chunk := k, report := some .hostReset } }
    (∀ p a b, Instr.close [] ≠ .statusRequest p a b) ∧ (∀ p, Instr.close [] ≠ .bootFetch p) ∧
    (asks.power.state = .sleepPending ∧ asks.boot.state ≠ .serving ∧ 264 ≤ freeBytes asks ∧ freeBytes { asks with link := crowded.link } < 256) ∧
    (∀ k ∈ [none, some ⟨0, 0, [], 0⟩], (serves k).boot.state = .serving ∧ (serves k).power.state ≠ .sleepPending ∧ (serves k).boot.chunk = k ∧
      264 ≤ freeBytes (serves k) ∧ freeBytes { serves k with link := crowded.link } < 256) :=
  ⟨fun _ _ _ => nofun, fun _ => nofun, by decide +kernel, by decide +kernel⟩
/-- A part with a job holding the flash. -/
def holding (j : Job) (c : Chip) : Chip := { c with store := { c.store with holder := some j } }

/-- Serving with a read of the chunk that holds the flash and one that waits, and with room for BOOT COMPLETE alone. -/
theorem witness_streamRoom :
    let serves := { c0 with boot := { c0.boot with state := .serving, chunk := some ⟨0, 0, [], 0⟩, report := some .hostReset } }
    let tight := { serves with link := { c0.link with reports := List.replicate 51 (.reply 0 .accepted) } }
    (holding .imageRead serves).store.holder = some .imageRead ∧ serves.store.holder ≠ some .imageRead ∧ serves.power.state ≠ .sleepPending ∧
      serves.boot.report.isSome = true ∧ 256 ≤ freeBytes tight ∧ freeBytes tight < 256 + (Report.event (.bootComplete true)).size := by
  decide +kernel
theorem witness_quiet : Quiet c0 := by decide +kernel
theorem witness_taken : Taken (on c0) := by decide +kernel
theorem witness_held : isDirective (.delete [1]) = true ∧ canTake crowded = true ∧ crowded.link.held = none ∧
    freeBytes crowded < Config.reportRoom := by decide +kernel
theorem witness_discarded : isDirective (.delete [1]) = true ∧
    ({ c0 with link := { c0.link with held := some (.close [1, 0]) } } : Chip).link.held = some (.close [1, 0]) := by decide
theorem witness_heldTaken :
    let c := { c0 with link := { c0.link with held := some (.close [1, 0]) } }
    c.link.held = some (.close [1, 0]) ∧ Config.reportRoom ≤ freeBytes c := by decide +kernel
/-- OPEN from LINK to STORE with origin BOOT, and from STORE to PRINT of a page. -/
def openStore : List Byte := [0x55, 0, 2, 3, 0, 4, 0x80, 0x3E, 4, 1, 3, 0]
def openRead (page : Byte) : List Byte := [0x55, 0, 3, 1, 0, 4, 0x80, 0x3E, 4, 16, 1, 20, 0, 1, page, 0]

/-- OPEN of route 0 from SCAN to PRINT (11.3): quota 4, period 16000, 4 steps, dither, scale 100, density 30, no copy, tail feed 20. -/
def openScan : List Byte := [0x55, 0, 1, 1, 0, 4, 0x80, 0x3E, 4, 1, 128, 100, 0, 8, 0, 4, 0, 144, 1, 64, 31, 1, 30, 0, 20, 0]

/-- An OPEN from LINK to PRINT, one from SCAN to PRINT and one from LINK to STORE: their period of 16,000 stands, run index 0 asks for a
minimum of 2 or 2 + 1 slots, and the room is 32. -/
theorem witness_open :
    (∀ p ∈ [openBytes, openScan, openStore], Taken (on c0) ∧ (parseOpen p).isSome = true ∧
      ∀ q ∈ parseOpen p, openCheck (streamRules (.openRoute p) c0) q = none ∧ q.period = 16000 ∧ q.steps = 4) ∧
    (c0.routes.length = 4 ∧ 16000 ≤ 50000 ∧ c0.scanCh.ramp = [4000] ∧ c0.printCh.ramp = [4000] ∧ ¬(16000 / 4 < 4000) ∧
      [4000].findIdx (fun e : Nat => decide (e ≤ 4000)) = 0 ∧ max 2 (1 + ceilDiv 0 4 + ceilDiv (1 + ceilDiv 0 4) 1) ≤ 28 ∧ c0.runOut = none ∧
      ∀ r ∈ routeNumbers, ctxOf c0 r = none) ∧
    ((parseOpen openBytes).map OpenReq.source = some .link ∧ (parseOpen openScan).map OpenReq.source = some .scan ∧
      (parseOpen openStore).map (fun q => q.printP.isSome) = some false ∧ (parseOpen openScan).map (fun q => q.printP.isSome) = some true ∧
      ∀ v, Report.credit 0 v ∉ c0.link.reports) :=
  ⟨by decide +kernel, by decide +kernel, by decide +kernel, by decide +kernel, by decide +kernel, by decide +kernel, fun _ => nofun⟩
/-- A LINK OPEN with an unsent CREDIT of its route queued, behind other records and behind one being sent. -/
theorem witness_openCredit :
    let queued := { c0 with link := { c0.link with reports := [.event .documentIn, .credit 0 3, .reply 1 .accepted] } }
    let sending := { queued with link := { queued.link with up := .report, sent := 1, reports := .credit 0 9 :: queued.link.reports } }
    (∀ c ∈ [queued, sending], Taken (on c) ∧ streamRules (.openRoute openBytes) c = c ∧
      ∀ q ∈ parseOpen openBytes, openCheck c q = none ∧ q.route = 0) ∧
    queued.link.reports = [] ++ [.event .documentIn] ++ .credit 0 3 :: [.reply 1 .accepted] ∧
    sending.link.reports = [.credit 0 9] ++ [.event .documentIn] ++ .credit 0 3 :: [.reply 1 .accepted] := by decide +kernel
theorem witness_openMalformed : Taken (on c0) ∧ parseOpen (openBytes.take 13) = none := by decide +kernel
/-- Checks 2 to 10 of R8 as the statement of the refused OPEN spells them. -/
def openChecks (q : OpenReq) (c : Chip) : List Bool :=
  [decide (q.route ≤ 3 ∧ q.sinks.Nodup ∧ ¬(q.source = .link ∧ Sink.link ∈ q.sinks) ∧ ¬(q.source = .store ∧ Sink.store ∈ q.sinks)),
   decide (ctxOf c q.route = none ∧ ∀ ro ∈ c.runOut, ro.route ≠ q.route),
   ([0, 1, 2, 3].all fun r => match ctxOf c r with
     | some x => decide (x.source ≠ q.source ∧ ∀ k ∈ q.sinks, k ∉ x.sinks)
     | none => true) && decide (Sink.print ∈ q.sinks → c.runOut = none),
   decide (q.source = .store ∨ Sink.store ∈ q.sinks →
     c.store.op ≠ .scanning ∧ c.store.op ≠ .totalBlocks ∧ c.store.op ≠ .totalLock ∧ c.store.op ≠ .totalKey),
   decide (Sink.store ∈ q.sinks → c.store.programFault = false ∧ c.store.eraseFault = false),
   decide (Sink.store ∈ q.sinks → c.store.dir.length < 48),
   decide (∀ sp ∈ q.storeP, sp.origin = .boot → masterSet c = false ∨ c.prot.service = .service),
   decide (∀ id ∈ q.pages, (pageOf c id).isSome = true),
   decide (∀ id ∈ q.pages, ∀ pg ∈ pageOf c id, pg.writing = false)]

/-- The checks of an OPEN payload on a part that takes it. -/
def checksOf (p : List Byte) (c : Chip) : Option (List Bool) :=
  if Taken (on c) then (parseOpen p).map fun q => openChecks q (streamRules (.openRoute p) c) else none

/-- The part with route 1 open. -/
def besides (x : Ctx) : Chip := setRoute 1 { ctx := some x, pagesDone := 0, overrun := false, haltReported := false } c0

/-- Each check of R8 fails first on some part: its place is the number of checks that pass before it. -/
theorem witness_openChecks :
    let first := fun (p : List Byte) (c : Chip) => (checksOf p c).map fun xs => (xs.takeWhile id).length
    first (openBytes.set 1 4) c0 = some 0 ∧ first openBytes (routed linkPrint c0) = some 1 ∧
    first openBytes { c0 with runOut := some ⟨0, []⟩ } = some 1 ∧ first openBytes (besides linkPrint) = some 2 ∧
    first openBytes { c0 with runOut := some ⟨1, []⟩ } = some 2 ∧ first (openRead 1) (stored fun x => { x with op := .scanning }) = some 3 ∧
    first openStore (stored fun x => { x with op := .totalKey }) = some 3 ∧ first openStore (stored fun x => { x with eraseFault := true }) = some 4 ∧
    first openStore (stored fun x => { x with dir := List.replicate 48 page1 }) = some 5 ∧
    first openStore { c0 with prot := { c0.prot with copy := some ⟨true, some []⟩ } } = some 6 ∧ first (openRead 1) c0 = some 7 ∧
    first (openRead 2) paged = some 8 ∧ first openBytes c0 = some 9 := by decide +kernel

/-- Checks 11 and 12: the print ramp holds the route down to 80,000, and one slot is left. -/
theorem witness_openLimits :
    (checksOf openBytes { c0 with printCh := { c0.printCh with ramp := [20000] } } = some (List.replicate 9 true) ∧
      50000 < raisePeriod [20000] (clamp 2500 50000 16000) 4) ∧
    (checksOf openBytes (besides { (request .scan [.store]).ctx with quota := 31 }) = some (List.replicate 9 true) ∧
      raisePeriod [4000] 16000 4 ≤ 50000 ∧ 32 - 31 < max 2 (0 + ceilDiv (1 + ceilDiv (runIndex [4000] (16000 / 4)) 4) 1)) ∧
    ((parseOpen openBytes).map fun q => (q.period, q.steps, q.sinks, q.printP)) = some (16000, 4, [.print], some ⟨16, 1, 20⟩) := by
  decide +kernel
theorem witness_close : let c := routed linkPrint c0
    Taken (on c) ∧ ctxOf (streamRules (.close [1, 0]) c) 0 = some linkPrint ∧ numAt [1, 0] 1 1 = 0 := by decide +kernel
/-- A route in each state that a CLOSE may find, and one in OPEN with nothing in progress, from LINK and from SCAN. -/
theorem witness_closeStates :
    let running := { linkPrint with begun := true, linesDone := 2 }
    (∀ x ∈ [running, linkPrint, { running with stalls := [.paperOut] }, { running with halt := some .interlock }],
      let c := routed x c0
      Taken (on c) ∧ ctxOf (streamRules (.close [1, 0]) c) 0 = some x ∧ Sink.store ∉ x.sinks) ∧
    (getRoute (routed running c0) 0).state = .running ∧
    (let c := streamRules (.close [1, 0]) (routed linkPrint c0)
     c.pool.slots = List.replicate 32 .free ∧ linkPrint.printQ = [] ∧ linkPrint.linkQ = [] ∧ linkPrint.storeQ = [] ∧ linkPrint.hold = [] ∧
      linkPrint.linesDone = 0 ∧ linkPrint.source = .link ∧ decodingFor c 0 = false ∧ 300 ≤ freeBytes c) ∧
    (let d := { c0.scan with state := .waiting }
     (request .scan [.print]).ctx.source = .scan ∧ d.state = .waiting ∧ d.capture = none) := by decide +kernel
theorem witness_closeClosed : Taken (on c0) ∧ Quiet c0 ∧ 3 < numAt [1, 4] 1 1 ∧
    ctxOf c0 (numAt [1, 3] 1 1) = none := by decide +kernel
theorem witness_abort : let c := routed linkPrint c0
    Taken (on c) ∧ ctxOf (streamRules (.abort [1, 0]) c) 0 = some linkPrint ∧ hasRunOut linkPrint c = false := by decide +kernel
/-- A printing route at its ABORT, its channel rising, level and falling, with lines and a mark queued; and its run-out at a step within a line,
at a line start with burns of its line left and with none, with a line behind it and none, and at the halt. -/
theorem witness_runOut :
    let lines := [entry5, ⟨6, 1, false⟩, ⟨7, 2, false⟩]
    let x := { linkPrint with begun := true, printQ := lines.map Entry.line ++ [.mark mark0] }
    let run : RunParams := ⟨16000, 4, 4000, 3⟩
    let part := fun (m : StepMode) (k pos burns : Nat) =>
      let c := routed x c0
      { c with
        pool := { c.pool with slots := (((c.pool.slots.set 5 (.held 0 1 whiteLine)).set 6 (.held 0 1 whiteLine)).set 7 (.held 0 1 whiteLine)) }
        printCh := { c.printCh with motion := .decelerating, mode := m, k := k, linePos := pos, run := some run, route := some 0, cause := some .abort }
        head := { c.head with route := some 0, copy := some ⟨16000, 16, 1⟩, burns := burns } }
    (∀ m ∈ [StepMode.up, .level, .down], let c := part m 3 1 1
      Taken (on c) ∧ streamRules (.abort [1, 0]) c = c ∧ ctxOf c 0 = some x ∧ c.printCh.moving = true ∧ c.printCh.cause ≠ some .paperOut ∧
        c.printCh.run = some run ∧ c.head.copy = some ⟨16000, 16, 1⟩ ∧ slotAt c 5 = .held 0 1 whiteLine ∧ c.scan.capture = none ∧
        ∀ q ∈ [1, 2, 3], ctxOf c q = none) ∧
    (x.halt = none ∧ Sink.print ∈ x.sinks ∧ x.printQ = lines.map Entry.line ++ [.mark mark0] ∧ x.reservations = []) ∧
    (∀ es ∈ [lines, [entry5]], ∀ y ∈ [(3, 0, 1), (3, 3, 0), (3, 3, 1), (1, 3, 1)],
      let c := { part .down y.1 y.2.1 y.2.2 with runOut := some ⟨0, es⟩ }
      c.printCh.motion = .decelerating ∧ c.printCh.mode = .down ∧ c.printCh.tail = none ∧ c.printCh.k = y.1 ∧ c.printCh.cause = some .abort ∧
        slotAt c entry5.slot = .held 0 1 whiteLine) ∧ 0 + 1 < 4 ∧ 4 ≤ 3 + 1 := by decide +kernel
/-- A part whose copy of the key segment is known. -/
def keyed (master : Bool) (code : Option (List Byte)) (c : Chip) : Chip := { c with prot := { c.prot with copy := some ⟨master, code⟩ } }

/-- A service code. -/
def code8 : List Byte := [1, 2, 3, 4, 5, 6, 7, 8]

/-- A route that writes a page of origin BOOT. -/
def bootWriter : Ctx := (request .link [.store]).ctx

/-- A LINK to PRINT context that PAPER OUT has stalled. -/
def outOfPaper (q : List Entry) : Ctx := { linkPrint with begun := true, stalls := [.paperOut], printQ := q }

/-- The part with that route on the head, `burns` burns of its head line begun, and slot 5 HELD. -/
def redirectable (burns : Nat) (q : List Entry) : Chip :=
  let c := routed (outOfPaper q) c0
  { c with
    pool := { c.pool with slots := c.pool.slots.set 5 (.held 0 1 whiteLine) }
    head := { c.head with route := some 0, burns := burns }
    store := { c.store with scanned := true, erasedList := [9] } }

/-- REDIRECT with a line first, a burn begun or not, with only a mark, and with nothing left. -/
theorem witness_redirect :
    let p : List Byte := [1, 0, 2, 0]
    readStoreParams (p.drop 2) = some (⟨.received, []⟩, []) ∧ numAt p 1 1 = 0 ∧
    (∀ x ∈ [(0, []), (0, [.line entry5, .mark mark0]), (0, [.mark mark0]), (1, [.line entry5]), (1, [.line entry5, .line ⟨6, 1, false⟩, .mark mark0])],
      let c := redirectable x.1 x.2
      Taken (on c) ∧ streamRules (.redirect p) c = c ∧ ctxOf c 0 = some (outOfPaper x.2) ∧ (outOfPaper x.2).hold = [] ∧
        (outOfPaper x.2).full = none ∧ slotAt c 5 = .held 0 1 whiteLine ∧ c.store.work = none ∧ c.store.reloc = none ∧
        c.store.erasedList ≠ [] ∧ redirectCheck 0 ⟨.received, []⟩ c = none) ∧
    linkPrint.sinks = [.print] ∧ linkPrint.source ≠ .store := by decide +kernel
/-- REDIRECT with a full queue and a hold: a line burning, whose place the hold takes, and a mark first. -/
theorem witness_redirectHeld :
    let more := List.replicate 39 (Entry.line ⟨6, 1, false⟩)
    (∀ q ∈ [Entry.line entry5 :: more, .mark mark0 :: more],
      let x := { outOfPaper q with hold := [.line ⟨7, 40, false⟩] }
      let c := routed x (redirectable 1 q)
      Taken (on c) ∧ streamRules (.redirect [1, 0, 2, 0]) c = c ∧ ctxOf c 0 = some x ∧ hasRoom x = false ∧ x.sinks.Nodup ∧
        redirectCheck 0 ⟨.received, []⟩ c = none ∧ slotAt c 5 = .held 0 1 whiteLine) ∧
    hasMark mark0.tag (more ++ [.line ⟨7, 40, false⟩]) = false := by decide +kernel

/-- Each check of R23 fails first on some part: its place is the number of checks that pass before it. -/
theorem witness_redirectChecks :
    let p : List Byte := [1, 0, 3, 0]
    let base := redirectable 0 []
    let part := fun (f : Store → Store) => { base with store := f base.store }
    let first := fun (c : Chip) =>
      ([decide ((getRoute c 0).state = .stalled ∧ (getRoute c 0).reason = .paperOut ∧ c.printCh.motion = .halted ∧ c.store.op ≠ .scanning),
        ([0, 1, 2, 3].all fun q => match ctxOf c q with | some y => decide (Sink.store ∉ y.sinks) | none => true),
        decide (c.store.programFault = false ∧ c.store.eraseFault = false), decide (c.store.dir.length < 48),
        decide (c.store.nextCreation ≤ 4294967295), decide (masterSet c = false ∨ c.prot.service = .service)].takeWhile id).length
    let parts := [routed linkPrint base, setRoute 1 { ctx := some bootWriter, pagesDone := 0, overrun := false, haltReported := false } base,
      part fun x => { x with programFault := true }, part fun x => { x with dir := List.replicate 48 page1 },
      part fun x => { x with nextCreation := 4294967296 }, keyed true (some code8) base, base]
    readStoreParams (p.drop 2) = some (⟨.boot, []⟩, []) ∧ parts.map first = [0, 1, 2, 3, 4, 5, 6] ∧
    (∀ c ∈ parts, Taken (on c) ∧ streamRules (.redirect p) c = c ∧ (ctxOf c 0).isSome = true) ∧
    Sink.print ∈ linkPrint.sinks ∧ linkPrint.source ≠ .store ∧ ctxOf c0 0 = none ∧ 3 < numAt [1, 4, 3, 0] 1 1 ∧
    Sink.print ∉ bootWriter.sinks ∧ (request .store [.print]).ctx.source = .store := by decide +kernel
theorem witness_rearm :
    let x := { linkPrint with halt := some .interlock }
    let c := routed x c0
    Taken (on c) ∧ ctxOf (streamRules (.rearm [1, 0]) c) 0 = some x ∧ x.halt.isSome = true ∧
      (getRoute (streamRules (.rearm [1, 0]) c) 0).haltReported = true ∧ c.pins.cover = true := by decide +kernel
/-- A REARM of a SCAN to PRINT route: its channels TRIPPED, its cut waiting, and its sheet jammed with the channel at rest or in motion, ended
and gone on with, in RUNOUT and in another state. -/
theorem witness_rearmSheet :
    let x := { (request .scan [.print]).ctx with halt := some .jam }
    let q : ScanParams := ⟨.threshold, 128, 256, 8, 4, 400, 8000, true⟩
    let part := fun (st : ScanState) (m : Motion) (doc : Bool) =>
      let c := routed x c0
      { c with scan := { c.scan with state := st, route := some 0 }, scanCh := { c.scanCh with motion := m },
               printCh := { c.printCh with motion := .tripped }, head := { c.head with cut := .waiting }, pins := { c.pins with docp := doc } }
    (∀ st ∈ [ScanState.jammed, .runout, .capturing], ∀ m ∈ [Motion.tripped, .halted, .running], ∀ doc ∈ [true, false],
      let c := part st m doc
      Taken (on c) ∧ streamRules (.rearm [1, 0]) c = c ∧ ctxOf c 0 = some x ∧ (getRoute c 0).haltReported = true ∧
        c.scan.route = some 0 ∧ c.head.cut = .waiting ∧ c.printCh.motion = .tripped) ∧
    x.source = .scan ∧ x.scanP = some q ∧ q.multi = true ∧ x.closeReq = false ∧ Sink.print ∈ x.sinks ∧
    (part .jammed .running true).scanCh.moving = true ∧ (part .jammed .tripped true).scanCh.moving = false := by decide +kernel
theorem witness_rearmRefused :
    let x := { linkPrint with halt := some .interlock }
    let c := { routed x c0 with pins := { c0.pins with cover := false } }
    let d := setRoute 0 { ctx := some x, pagesDone := 0, overrun := false, haltReported := false } c0
    (Taken (on (routed linkPrint c0)) ∧ linkPrint.halt = none) ∧
    (Taken (on d) ∧ ctxOf (streamRules (.rearm [1, 0]) d) 0 = some x ∧ (getRoute (streamRules (.rearm [1, 0]) d) 0).haltReported = false) ∧
    (Taken (on c) ∧ ctxOf (streamRules (.rearm [1, 0]) c) 0 = some x ∧
      (getRoute (streamRules (.rearm [1, 0]) c) 0).haltReported = true ∧ (streamRules (.rearm [1, 0]) c).pins.cover = false) := by
  decide +kernel
/-- Each LOAD at the last entry of its table. -/
theorem witness_loads :
    Taken (on c0) ∧ Quiet c0 ∧
    (byteAt [1, 1, 0xBF, 6, 0, 0, 1] 1 = 0x01 ∧ numAt [1, 1, 0xBF, 6, 0, 0, 1] 2 2 + 1 = 1728 ∧ scanBusy c0 = false) ∧
    (byteAt [1, 2, 255, 0, 9] 1 = 0x02 ∧ numAt [1, 2, 255, 0, 9] 2 2 + 1 = 256) ∧
    (byteAt [1, 3, 63, 0, 9] 1 = 0x03 ∧ numAt [1, 3, 63, 0, 9] 2 2 + 1 = 64) ∧
    (byteAt [1, 4, 1, 0, 0xE8, 3] 1 = 0x04 ∧ rampFits c0.scanCh.ramp 1 [0xE8, 3] = true ∧ c0.scanCh.atRest = true) ∧
    (byteAt [1, 5, 1, 0, 0xE8, 3] 1 = 0x05 ∧ rampFits c0.printCh.ramp 1 [0xE8, 3] = true ∧ printBusy c0 = false ∧
      c0.printCh.atRest = true) ∧
    (byteAt [1, 6, 14, 0, 100, 0] 1 = 0x06 ∧ numAt [1, 6, 14, 0, 100, 0] 2 2 + 1 = 15) ∧
    (byteAt [1, 7, 3, 0, 1] 1 = 0x07 ∧ parkDefined 3 [1] = true) ∧ (byteAt [1, 7, 10, 0, 7] 1 = 0x07 ∧ parkDefined 10 [7] = true) ∧
    (byteAt [1, 8, 3, 0, 1, 1, 9] 1 = 0x08 ∧ wakeEntriesOf [1, 1, 9] = some [⟨true, true, 9⟩]) := by decide +kernel
/-- Each LOAD refused: with no offset, of another table, out of place, and of a table in use; a ramp LOAD of no entry, out of place too. -/
theorem witness_loadRefusals :
    let busy := routed (request .scan [.print]).ctx c0
    let turning := { c0 with scanCh := { c0.scanCh with motion := .running }, printCh := { c0.printCh with motion := .running } }
    (∀ c ∈ [c0, busy, turning], Taken (on c) ∧ Quiet c) ∧ [(1 : Byte), 1].length < 4 ∧ byteAt [1, 9, 0, 0] 1 ≠ 0x01 ∧
    (1728 < numAt [1, 1, 0xC0, 6, 0, 0, 1] 2 2 + 1 ∧ 256 < numAt [1, 2, 0, 1, 9] 2 2 + 1 ∧ 64 < numAt [1, 3, 64, 0, 9] 2 2 + 1 ∧
      c0.scanCh.ramp.length < 2 ∧ 15 < numAt [1, 6, 15, 0, 1, 0] 2 2 + 1 ∧ 4 < (5 : Byte).toNat ∧ 4 < numAt [1, 8, 4, 0, 1, 1, 1] 2 2 + 1 ∧
      1 < (2 : Byte).toNat) ∧
    ((∃ r x, r < 4 ∧ ctxOf busy r = some x ∧ x.source = .scan ∧ Sink.print ∈ x.sinks) ∧ turning.scanCh.motion ≠ .halted ∧
      turning.scanCh.motion ≠ .tripped ∧ turning.printCh.motion = .running) ∧
    (c0.power.park.length = 8 ∧ c0.power.holds.length = 3 ∧ 3 + [(1 : Byte), 1, 1].length ≤ 11 ∧ parkDefined 3 [1, 1, 1] = true) :=
  ⟨by decide +kernel, by decide +kernel, by decide +kernel, by decide +kernel,
    ⟨⟨0, _, by decide +kernel, rfl, by decide +kernel, by decide +kernel⟩, by decide +kernel⟩, by decide +kernel⟩
/-- The values held: a ramp from its first entry and behind it, thresholds and times, and every case of a wake entry. -/
theorem witness_held_values :
    (rampFits [4000] 0 [0xE8, 3] = true ∧ rampFits [4000] 1 [0xE8, 3] = true) ∧
    (HeatTable.default.thresholds.length = 7 ∧ HeatTable.default.times.length = 8 ∧ 0 + (List.replicate 15 300).length ≤ 15) ∧
    (3 + [(⟨true, true, 9⟩ : WakeEntry)].length ≤ 4 ∧ c0.power.wake.length = 4 ∧ c0.power.sources.length = 4) ∧
    (let old : WakeEntry := c0.power.wake.getD 3 ⟨false, false, 0⟩
     let disabled : WakeEntry := ⟨false, true, 9⟩
     let same : WakeEntry := ⟨true, true, 9⟩
     c0.power.wake[3]? = some old ∧ c0.power.sources[3]?.isSome = true ∧ (⟨true, false, 9⟩ : WakeEntry).rising ≠ old.rising ∧
      (disabled.enable = false ∧ same.enable = true) ∧ (disabled.rising = old.rising ∧ disabled.enable = false) ∧
      (same.rising = old.rising ∧ same.enable = true ∧ old.enable = true)) := by decide +kernel
theorem witness_attention : Taken (on c0) ∧ yesNoOf (numAt [1, 1] 1 1) = some true ∧ yesNoOf (numAt [1, 2] 1 1) = none ∧
    c0.link.pulseMode = false ∧ c0.link.atnLeft = 0 := by decide +kernel
theorem witness_directory :
    let c := { paged with link := { paged.link with listing := some ⟨5, 1⟩ } }
    (Taken (on c0) ∧ scanOrTotal (streamRules (.directoryRequest [1]) c0) = false ∧
      (streamRules (.directoryRequest [1]) c0).link.listing = none) ∧
    (heldReady c = false ∧ nextListed 5 c.store.dir = some page2 ∧
      Config.reportRoom + (Report.dirEntry (pagePayload c.boot page2)).size ≤ freeBytes c) ∧
    nextListed 6 c.store.dir = none := by decide +kernel
theorem witness_status : Taken (on c0) ∧ [(1 : Byte), 1].length ≠ 1 ∧ c0.link.pulseMode = false ∧ ctxOf c0 3 = none ∧
    (ctxOf (routed linkPrint c0) 0).isSome = true := by decide +kernel
/-- The states of a route, case by case (R12). -/
theorem witness_routeStates :
    (∀ h ∈ [Halt.interlock, .jam], (getRoute (routed { linkPrint with halt := some h } c0) 0).ctx = some { linkPrint with halt := some h }) ∧
    (getRoute c0 0).ctx = none ∧ linkPrint.halt = none ∧ linkPrint.begun = false ∧ linkPrint.stalls = [] ∧
    (outOfPaper []).begun = true ∧ (outOfPaper []).stalls = [.paperOut] ∧ (outOfPaper []).halt = none := by decide +kernel
theorem witness_restart :
    let open_ := { c0 with pins := { c0.pins with cover := false } }
    let up := fun u => { crowded with linkOut := .pageEnd 0 0, link := { crowded.link with up := u, sent := 2 } }
    (canTake c0 = true ∧ c0.pins.cover = true ∧ c0.link.up = .idle) ∧ (canTake open_ = true ∧ open_.pins.cover = false) ∧
    (canTake (up .report) = true ∧ (up .report).link.up = .report ∧ (up .report).link.reports ≠ []) ∧
    (canTake (up .out) = true ∧ (up .out).link.up = .out ∧ (up .out).linkOut.record.isSome = true) := by decide +kernel

/-! ## Witnesses: the store's directives, protection -/

/-- The directory with its two pages, both FULL or CLAIMED as their blocks say, and block 63 locked. -/
def lockedStore : Chip := modBlock 63 (fun x => { x with lock := true }) paged

/-- A part whose store is past its scan. -/
def scannedStore (f : Store → Store) (c : Chip) : Chip := { c with store := f { c.store with usable := true, scanned := true } }


theorem witness_delete :
    (Taken (on paged) ∧ storeTaken (streamRules (.delete [1, 1, 0]) paged) = false ∧ pageOf paged 1 = some page1 ∧
      page1.writing = false ∧ pageRead 1 paged = false ∧ bootUses 1 paged = false ∧ page1.blocks.all (lockPasses paged) = true ∧
      ∀ b ∈ page1.blocks, b < paged.store.blocks.length) ∧
    (Taken (on lockedStore) ∧ pageOf lockedStore 1 = some page1 ∧ page1.blocks.all (lockPasses lockedStore) = false ∧
      storeTaken lockedStore = false ∧ pageRead 1 lockedStore = false ∧ bootUses 1 lockedStore = false) := by decide +kernel

theorem witness_locksAndCode :
    (Taken (on paged) ∧ lockPageCheck 1 (streamRules (.lockPage [1, 1, 0]) paged) = none ∧ pageOf paged 1 = some page1 ∧
      (∀ b ∈ page1.blocks, b < paged.store.blocks.length) ∧ (blockAt paged 63).lock = false) ∧
    (let c := modBlock 0 (fun x => { x with lock := true }) lockedStore
     Taken (on c) ∧ lockPageCheck 1 c = none ∧ (page1.blocks.filter fun b => !(blockAt c b).lock) = []) ∧
    (codeOf ((1 :: code8).drop 1)).isSome = true ∧ storeTaken c0 = false ∧
    (∀ k ∈ [keyed false none c0, keyed false (some code8) c0, keyed true (some code8) c0],
      Taken (on k) ∧ (streamRules (.setCode (1 :: code8)) k).prot.copy = k.prot.copy ∧
        storeTaken (streamRules (.setMasterLock [1]) k) = false) := by decide +kernel

/-- Row programs whose cells and bytes all read as wanted, and some that do not, on parts with room for the report and without. -/
theorem witness_rowReports :
    let c := modBlock 63 (fun x => { x with state := .erased, lock := true }) c0
    (∀ j ∈ [RowJob.lockPage 1 [0, 63], .setMaster, .setCode code8], (programRow j [] Flash.blank).2 = true ∧
      256 ≤ freeBytes (holding (.row j) c0) ∧ freeBytes (holding (.row j) crowded) < 256) ∧
    ((programRow (.lockPage 1 [0, 63]) [63] Flash.blank).2 = false ∧ (blockAt c 63).state = .erased ∧ 63 < c.store.blocks.length ∧
      cellSet (programRow (.lockPage 1 [0, 63]) [63] Flash.blank).1.lockCells 63 = false) := by decide +kernel

theorem witness_rowProgram :
    (holding (.row (.lockPage 1 [0, 63])) c0).store.holder = some (.row (.lockPage 1 [0, 63])) ∧
    (holding (.row .setMaster) c0).store.holder = some (.row .setMaster) ∧ 0 ∉ ([] : List Nat) ∧
    (holding (.row (.setCode code8)) c0).store.holder = some (.row (.setCode code8)) ∧
    Flash.blank.code = List.replicate 8 0xFF ∧ code8.length = 8 ∧ (∀ j, c0.store.holder ≠ some (.row j)) :=
  ⟨rfl, rfl, by decide, rfl, rfl, rfl, fun _ => nofun⟩

theorem witness_setups :
    setupCheck .clearLocks (streamRules (.clearLocks [1]) (keyed false none c0)) = none ∧
    setupCheck .totalErase (streamRules (.totalErase [1]) (keyed false none c0)) = none ∧
    Taken (on (keyed false none c0)) ∧ (streamRules (.confirm [1]) c0).store.setup = .none ∧
    (∀ k ∈ [Setup.clearLocks, .totalErase],
      let c := keyed false none (scannedStore (fun x => { x with setup := k }) paged)
      Taken (on c) ∧ (streamRules (.confirm [1]) c).store.setup = k ∧ setupCheck k (streamRules (.confirm [1]) c) = none ∧
        c.store.erase = none ∧ (blockAt c 63).state ≠ .bad) ∧
    (blockAt (setBlockState 63 .bad c0) 63).state = .bad := by decide +kernel

theorem witness_segments :
    (stored fun x => { x with op := .lockErase true }).store.op = .lockErase true ∧
    (stored fun x => { x with op := .totalLock }).store.op = .totalLock ∧ 63 < c0.store.blocks.length ∧
    (stored fun x => { x with op := .totalKey }).store.op = .totalKey ∧ Flash.blank.code.length = 8 ∧ c0.store.op = .none := by decide +kernel

/-- What the segment erases report: all cells clear, one still set; a row erased whole, one with a byte left, a block that failed. -/
theorem witness_segmentReports :
    let locked : Flash := { Flash.blank with lockCells := [0xFE, 0xFF, 0xFF, 0xFF, 0xFF, 0xFF, 0xFF, 0x7F], master := 0x00 }
    let c := modBlock 63 (fun x => { x with state := .erased }) c0
    (locksClear (eraseLocks [] locked) = true ∧ locksClear (eraseLocks [63] locked) = false ∧ cellSet (eraseLocks [] locked).lockCells 63 = false ∧
      (blockAt c 63).state = .erased ∧ 63 < c.store.blocks.length) ∧
    (rowErased (eraseKey (List.replicate 9 0xFF) Flash.blank) = true ∧ rowErased (eraseKey (List.replicate 9 0) { locked with lockCells := Flash.blank.lockCells }) = false) ∧
    (256 ≤ freeBytes c0 ∧ freeBytes crowded < 256 ∧ c0.store.totalFault = false) := by decide +kernel

/-- A part in a service state, its code held. -/
def serving (x : ServiceState) (failures : Nat) : Chip :=
  { c0 with prot := { service := x, failures := failures, copy := some ⟨true, some code8⟩ } }

theorem witness_service :
    Taken (on c0) ∧ (Taken (on (serving .normal 4)) ∧ 4 ≤ (serving .normal 4).prot.failures) ∧
    (Taken (on (serving .normal 3)) ∧ (serving .normal 3).prot.failures < 4 ∧ (serving .normal 3).prot.service = .normal ∧
      (serving .normal 3).prot.copy = some ⟨true, some code8⟩) ∧
    (Taken (on (keyed false none c0)) ∧ (keyed false none c0).prot.failures < 4) ∧
    (Taken (on (serving (.window 5) 0)) ∧ codeHeld (streamRules (.serviceCode (1 :: code8)) (serving (.window 5) 0)) = some ((1 :: code8).drop 1)) ∧
    (let c := routed bootWriter (serving .service 0)
     Taken (on c) ∧ (streamRules (.serviceEnd [1]) c).prot.service = .service ∧ masterSet c = true ∧ ctxOf c 0 = some bootWriter ∧
      Sink.store ∈ bootWriter.sinks ∧ bootWriter.storeP = some ⟨.boot, []⟩) ∧
    (let c := serving .service 0
     bootWriters c = [] ∧ c.store.erase = none ∧ ∀ j ∈ c.store.holder, lockedJob c j = false) := by decide +kernel

theorem witness_serviceFailure :
    let p : List Byte := 1 :: 0 :: code8.drop 1
    let c := serving (.window 5) 3
    Taken (on c) ∧ p.length = 9 ∧ (streamRules (.serviceCode p) c).prot.service = .window 5 ∧
      codeHeld (streamRules (.serviceCode p) c) ≠ some (p.drop 1) ∧ c.prot.service = .window 5 ∧
      (let d := keyed true none c; Taken (on d) ∧ codeHeld d = none ∧ d.prot.service = .window 5) ∧
      c0.prot.service = .normal := by decide +kernel

theorem witness_install :
    let boot := { c0 with boot := { c0.boot with installed := some 1, install := some ⟨9, 100, 0, .mark⟩ } }
    let retire := { paged with boot := { paged.boot with install := some ⟨9, 100, 0, .retire 1 false⟩ } }
    let p : List Byte := [1, 1, 0, 0x88, 0x02, 0, 0, 7, 0]
    (Taken (on (keyed false none paged)) ∧ p.length = 9 ∧ numAt p 3 4 = 648 ∧
      installCheck [] 1 648 (streamRules (.installBoot p) (keyed false none paged)) = none) ∧
    ((holding .installMark boot).store.holder = some .installMark ∧ (holding .installMark boot).boot.install = some ⟨9, 100, 0, .mark⟩ ∧
      (runProgram .installMark .ok (on (holding .installMark boot))).2 = true ∧
      (runProgram .installMark (.failAt 0) (on (holding .installMark
        (modBlock 0 id { paged with boot := { c0.boot with install := some ⟨1, 100, 0, .mark⟩ } })))).2 = false) ∧
    c0.store.holder ≠ some .installMark ∧
    (retire.boot.install = some ⟨9, 100, 0, .retire 1 false⟩ ∧ pageRead 1 retire = false ∧ pageOf retire 1 = some page1 ∧
      ∀ b ∈ page1.blocks, b < retire.store.blocks.length) ∧
    pageRead 1 (routed (request .store [.print]).ctx retire) = true ∧
    (lockPasses retire 63 = true ∧ lockPasses { lockedStore with boot := retire.boot } 63 = false) := by decide +kernel

/-! ## Witnesses: the flash at work -/

/-- A black line coded. -/
def coded1 : Coded := ⟨.run, [0x01]⟩

/-- The part with an entry of route 0 in work for page 2. -/
def working : Chip :=
  { paged with store := { paged.store with work := some ⟨some 0, some 2, .line entry5 coded1, false⟩ } }

theorem witness_holders :
    (∀ j ∈ [Job.entry, .claim 7 false page2, .closeFull 7, .closePage 7 false, .retire 7 .quiet, .relocEntry, .relocRead, .lineRead, .imageRead],
      (holding j working).store.holder = some j) ∧ c0.store.holder = none := by decide +kernel

theorem witness_programs :
    FlashOk Flash.blank ∧ ((jobWrites working [] .entry).map Prod.fst).Nodup ∧ (runProgram .entry .ok (on working)).2 = true ∧
    jobWrites working [] .entry ≠ [] ∧ (∀ w ∈ jobWrites working [] .entry, w.1 < 1048576 ∧ w.1 ≠ 0) := by decide +kernel

theorem witness_entryDone :
    working.store.work = some ⟨some 0, some 2, .line entry5 coded1, false⟩ ∧ pageOf working 2 = some page2 ∧ lastBlock page2 = some 7 ∧
      7 < working.store.blocks.length := by decide +kernel

/-- The part with the page mark of route 0 at its close, and with the entry of `working` under relocation from block 7 to block 9. -/
def closing : Chip :=
  routed { (request .link [.store]).ctx with storeQ := [.mark mark0], storePage := some 2 }
    { paged with store := { paged.store with work := some ⟨some 0, some 2, .closing (some mark0), false⟩ } }
def relocating (source : Nat) (buffer : Option (List Byte)) : Chip :=
  { working with store := { working.store with reloc := some ⟨source, some 9, 0, 0, buffer⟩ } }

/-- The ends on the tables: a claim that failed with and without an entry in work and under a page close, a page close, a retire, a relocation in part and whole. -/
theorem witness_tableEnds :
    ((blockAt paged 7).state = .claimed ∧ (blockAt paged 7).page = some 2 ∧ paged.store.work = none ∧
      working.store.work = some ⟨some 0, some 2, .line entry5 coded1, false⟩ ∧ (blockAt working 7).state = .claimed ∧
      (blockAt (setBlockState 7 .full closing) 7).state = .full ∧ (blockAt (setBlockState 7 .full closing) 7).page = some 2 ∧
      (setBlockState 7 .full closing).store.work = some ⟨some 0, some 2, .closing (some mark0), false⟩) ∧
    (closing.store.work = some ⟨some 0, some 2, .closing (some mark0), false⟩ ∧ pageOf closing 2 = some page2 ∧
      ((ctxOf closing 0).map fun x => (x.storeQ, x.hold)) = some (.mark mark0 :: [], [])) ∧
    (63 < c0.store.blocks.length ∧ 9 ∈ [9] ∧ 63 ∉ c0.store.eraseQueue) ∧
    (∀ bs ∈ [none, some [(1 : Byte), 0, 1]],
      let c := relocating 7 bs
      c.store.reloc = some ⟨7, some 9, 0, 0, bs⟩ ∧ c.store.work = working.store.work ∧ pageOf c 2 = some page2 ∧ 9 ≠ 7) ∧
    (let c := modBlock 7 (fun b => { b with committed := 1 }) (relocating 7 none)
     0 < (blockAt c 7).committed ∧ (blockAt (relocating 7 none) 7).committed ≤ 0) ∧
    (readEntry [(64, 2), (65, 0), (66, 1), (67, 0xC6), (68, 0), (69, 0)] 0 0).isSome = true := by decide +kernel

/-- The part with a block in the erase queue. -/
def erasable : Chip := scannedStore (fun x => { x with eraseQueue := [9] }) c0

/-- The part with an erase of block 9. -/
def erasing (phase : ErasePhase) (applied unit : Nat) : Chip :=
  scannedStore (fun x => { x with erase := some ⟨9, applied, unit, phase, 0, 0⟩ }) c0

theorem witness_eraseStart :
    erasable.store.erase = none ∧ erasable.power.state = .run ∧ erasable.store.op = .none ∧
      erasable.store.eraseQueue.find? (eligible erasable) = some 9 ∧ 9 < erasable.store.blocks.length ∧
      erasable.store.holder = none ∧ erasable.store.reads = [] ∧ erasable.store.programs = [] ∧ erasable.store.usable = true ∧
      erasable.store.scanned = true := by decide +kernel

theorem witness_erasePhases :
    (∀ ph ∈ [ErasePhase.pulse, .verify, .count, .bad], (erasing ph 2000000 0).store.erase = some ⟨9, 2000000, 0, ph, 0, 0⟩) ∧
    flashWanted (erasing .pulse 0 0) = false ∧ flashWanted (erasing .verify 1990000 0) = false ∧
    (let c := { erasing .pulse 0 9000 with store := { (erasing .pulse 0 9000).store with reads := [.lineRead] } }
     c.store.op = .none ∧ c.store.holder = none ∧ c.store.reads = [.lineRead] ∧ c.store.usable = true ∧
      c.store.scanned = true ∧ 9000 + (1000 - 0) ≤ 10000) ∧
    ((Flash.blank.program (.failAt 0) (badWrites 9)).2 = false ∧ (Flash.blank.program .ok (badWrites 9)).2 = true) ∧
    (scannedStore (fun x => { x with op := .totalBlocks }) c0).store.op = .totalBlocks ∧ 63 < c0.store.blocks.length ∧
    c0.store.erase = none := by decide +kernel

/-- A route that writes page 2, which holds `n` blocks, with nothing to claim but `free`. -/
def writing (n : Nat) (free : List Nat) (queue : List Nat) : Chip :=
  routed { (request .scan [.store]).ctx with storeQ := [.line entry5], storePage := some 2 }
    (stored fun x => { x with dir := [{ page2 with blocks := List.replicate n 7 }], erasedList := free, eraseQueue := queue,
                              work := some ⟨some 0, some 2, .line entry5 coded1, false⟩ })

/-- An erase that ends in the background, in its place among the erased blocks; a claim that meets the page's length, no block, one to
come, and one there. -/
theorem witness_claims :
    (let c := scannedStore (fun x => { x with erasedList := [3, 12] }) c0
     c.store.op ≠ .totalBlocks ∧ 9 < c.store.blocks.length ∧ (blockAt c 9).lock = false ∧ 9 ∉ c.store.erasedList ∧ 9 ∉ c.store.eraseQueue ∧
      (blockAt lockedStore 63).lock = true) ∧
    (∀ c ∈ [writing 63 [] [], writing 62 [] [], writing 62 [] [9], writing 62 [9] []],
      (ctxOf c 0).isSome = true ∧ c.store.work = some ⟨some 0, some 2, .line entry5 coded1, false⟩ ∧ (pageOf c 2).isSome = true ∧
        c.store.reloc = none) ∧
    (hasToErase (writing 62 [] []) = false ∧ hasToErase (writing 62 [] [9]) = true ∧ (writing 62 [] [9]).store.erasedList = [] ∧
      (writing 62 [9] []).store.erasedList = 9 :: [] ∧ 9 < (writing 62 [9] []).store.blocks.length ∧
      256 ≤ freeBytes (writing 62 [] [9]) ∧ Stall.storeWait ∉ (request .scan [.store]).ctx.stalls) := by decide +kernel

/-- A directory and a creation counter at their end, a page without lines and one with, and the sink that has met STORE FULL. -/
theorem witness_storeFull :
    (48 ≤ (List.replicate 48 page1).length ∧ 4294967295 < 4294967296 ∧ (request .scan [.store]).ctx.storePage = none) ∧
    (∀ n ∈ [0, 3],
      let c := { writing 1 [] [] with pool := { c0.pool with slots := c0.pool.slots.set 5 (.held 0 2 whiteLine) } }
      let c := modPage 2 (fun pg => { pg with lines := n }) c
      (ctxOf c 0).map Ctx.storeQ = some (.line entry5 :: []) ∧ (ctxOf c 0).map Ctx.hold = some [] ∧
        (ctxOf c 0).map Ctx.source = some .scan ∧ (ctxOf c 0).map Ctx.storePage = some (some 2) ∧
        slotAt c 5 = .held 0 2 whiteLine ∧ (pageOf c 2).map Page.lines = some n ∧ (pageOf c 2).bind lastBlock = some 7 ∧
        7 < c.store.blocks.length ∧ ∀ q ∈ [0, 1, 2, 3], ∀ y ∈ ctxOf c q, entry5.slot ∉ y.reservations) ∧
    (∀ q ∈ [[Entry.line entry5], [.mark mark0]],
      let x := { (request .link [.store]).ctx with storeQ := q, full := some (some 2) }
      ctxOf (routed x c0) 0 = some x ∧ x.full = some (some 2) ∧ x.hold = []) := by decide +kernel

/-- A decoder before its first byte. -/
def dec0 : Decoder := .start

/-- STORE FULL of a route from LINK and from STORE with lines of a page, its queue with room for the mark and without, and with a record in decoding. -/
theorem witness_storeFullLink :
    ∀ src ∈ [Source.link, .store], ∀ rest ∈ [[], List.replicate Config.queueCap (Entry.mark mark0)],
      let x := { (request src [.store]).ctx with storeQ := .line entry5 :: rest, linesDone := 3 }
      let c := { routed x c0 with pool := { c0.pool with slots := c0.pool.slots.set 5 (.held 0 1 whiteLine) } }
      ctxOf c 0 = some x ∧ x.hold = [] ∧ x.closeReq = false ∧ x.sinks.Nodup ∧ Sink.store ∈ x.sinks ∧ slotAt c 5 = .held 0 1 whiteLine ∧
        decodingFor c 0 = false ∧ readInProgress c = false ∧ x.reservations = [] ∧ hasRoom { x with storeQ := rest } = decide (rest = []) ∧
        decodingFor { c with linkIn := .decoding 0 4 true none dec0 } 0 = true := by decide +kernel

/-- A flash with a RETIRED, a BAD, an ERASED and two other blocks, and block 4 torn. -/
def headers : Flash :=
  { Flash.blank with
    mem := [(5, 0x03), (16384 + 5, 0x00), (2 * 16384, 0x5A), (2 * 16384 + 1, 0xC3), (2 * 16384 + 2, 7), (2 * 16384 + 3, 0), (2 * 16384 + 4, 0),
            (3 * 16384 + 5, 0x3F), (5 * 16384 + 5, 0x77), (63 * 16384 + 5, 0x0F)]
    torn := [4] }

theorem witness_scan :
    (c0.power.flashOn = true ∧ c0.store.scanned = false ∧ c0.store.op = .none) ∧ (scannedStore id c0).store.scanned = true ∧
    (stored fun x => { x with op := .scanning }).store.op = .scanning ∧
    FlashOk headers ∧ 4 ∈ headers.torn ∧ (∀ b ∈ [0, 1, 2, 3, 5, 63], b ∉ headers.torn ∧ c0.store.abandoned ≠ some b) ∧
    blockByte headers.mem 0 5 = 0x03 ∧ blockByte headers.mem 1 5 = 0x00 ∧ blockByte headers.mem 2 5 = 0xFF ∧
    headerCount headers.mem 2 = some 7 ∧ headerCount headers.mem 6 = none ∧ blockByte headers.mem 6 5 = 0xFF ∧
    blockByte headers.mem 3 5 = 0x3F ∧ blockByte headers.mem 63 5 = 0x0F ∧ blockByte headers.mem 5 5 = 0x77 := by decide +kernel

/-- A header of sequence 0 (R191) and one committed entry: count 3, id 1, creation 5, origin SCANNED, 4 steps, no label. -/
def headerOf (b state : Nat) : List Host.Cell :=
  (List.range 19).zip [0x5A, 0xC3, 3, 0, 0, BitVec.ofNat 8 state, 0xFF, 1, 0, 0, 5, 0, 0, 0, 1, 4, 0xFF, 0xFF, 0] |>.map fun x => (addrOf b x.1, x.2)

/-- A page of one block: the candidate that a scan finds, the kinds of a scan, and a part whose routes are closed. -/
theorem witness_scanPages :
    let mem := headerOf 0 0x0F ++ [(64, 1), (65, 0), (66, 1), (67, 0xC6), (68, 0)]
    let found := (findBlock (fun _ => false) mem 0).cand
    (found.map fun x => (x.block, x.id, x.seq, x.creation, x.lines, x.closed)) = some (0, 1, 0, 5, 1, true) ∧ headerCount mem 0 = some 3 ∧
    headerCount mem 1 = none ∧ (stored fun x => { x with scanKind := .wake }).store.scanKind = .wake ∧
    (stored fun x => { x with scanKind := .power }).store.scanKind ≠ .wake ∧ 256 ≤ freeBytes c0 ∧
    (∀ r < 4, ctxOf c0 r = none) ∧ (([] : List Page).filter (marked mem)).length ≤ 1 := by decide +kernel

/-- A STORE to PRINT context that reads page 1. -/
def reader : Ctx := (request .store [.print]).ctx

theorem witness_lineReads :
    let c := routed reader paged
    let full := { c with pool := { c.pool with freeList := [] } }
    let filling := { c with store := { c.store with reading := some 31 } }
    (routeOfSource c .store = some 0 ∧ ctxOf c 0 = some reader ∧ reader.closeReq = false ∧ c.store.reading = none ∧
      c.store.cursor.blank = false ∧ charged c 0 < reader.quota ∧ c.pool.freeList.head? = some 0 ∧ 0 < c.pool.slots.length) ∧
    (routeOfSource full .store = some 0 ∧ ctxOf full 0 = some reader ∧ full.pool.freeList = []) ∧
    (routeOfSource filling .store = some 0 ∧ readPage reader filling = some page1 ∧ filling.store.reading = some 31 ∧
      readEntry [] (cursorBlock page1 filling) filling.store.cursor.offset = none ∧ filling.store.cursor.attempts < 2) := by decide +kernel

/-- A white line at the front of block 0's line area. -/
def imageFlash : List Host.Cell := [(64, 2), (65, 0), (66, 1), (67, 0xC6), (68, 0), (69, 0)]

/-- The end of a line read whose entry is there, and of one that fails after CLOSE. -/
theorem witness_lineReadEnd :
    let c := routed reader paged
    let d := { c with store := { c.store with reading := some 31 }, pool := { c.pool with slots := c.pool.slots.set 31 (.filling 0 none) } }
    (holding .lineRead d).store.holder = some .lineRead ∧ c0.store.holder ≠ some .lineRead ∧
    (routeOfSource d .store = some 0 ∧ ctxOf d 0 = some reader ∧ readPage reader d = some page1 ∧ d.store.reading = some 31 ∧
      readEntry imageFlash (cursorBlock page1 d) d.store.cursor.offset = some ⟨.run, [0xC6, 0]⟩ ∧ reader.hold = [] ∧ hasRoom reader = true ∧
      slotAt d 31 = .filling 0 none ∧ reader.closeReq = false ∧ reader.readLine + 1 < page1.lines ∧ reader.linesDone + 1 < 65535) ∧
    (let x := { reader with closeReq := true }
     ctxOf (routed x d) 0 = some x ∧ readPage x (routed x d) = some page1) := by decide +kernel

/-! ## Witnesses: serving -/

/-- The part SERVING, with a valid image of 20,000 bytes. -/
def imaged (up : BootState) (chunk : Option Chunk) (res : ImageResult) : Chip :=
  { paged with boot := { paged.boot with state := up, chunk := chunk, result := res, installed := some 1, length := some 20000, checksum := some 7 } }

theorem witness_bootFetchPast :
    Taken (on (imaged .serving none .valid)) ∧
    (let c := streamRules (.bootFetch [1, 157, 0]) (imaged .serving none .valid)
     c.boot.state = .serving ∧ c.boot.chunk = none ∧ c.boot.result = .valid ∧ c.boot.length.getD 0 ≤ numAt [1, 157, 0] 1 2 * 128 ∧
      300 ≤ freeBytes c) := by decide +kernel

theorem witness_bootFetch :
    (∀ c ∈ [imaged .holding none .valid, imaged .serving (some ⟨3, 1, [], 0⟩) .valid, imaged .serving none (.absent .none_), imaged .serving none .valid],
      Taken (on c) ∧ (streamRules (.bootFetch [1, 156, 0]) c).boot = c.boot) ∧
    156 * 128 < (imaged .serving none .valid).boot.length.getD 0 ∧
    ([] : List Byte).length < min 128 (20000 - 0 * 128) := by decide +kernel

theorem witness_imageRead :
    let k : Chunk := ⟨0, 0, [], 0⟩
    let last : Chunk := ⟨1, 0, [], 0⟩
    let c := modBlock 0 (fun b => { b with committed := 1 }) (imaged .serving (some k) .valid)
    (holding .imageRead c).store.holder = some .imageRead ∧ c0.store.holder ≠ some .imageRead ∧ c.boot.check = none ∧ c.boot.chunk = some k ∧
    imageBytes imageFlash c (c.boot.installed.getD 0) 0 = some (some (List.replicate 216 0)) ∧
    min 128 (20000 - 0 * 128) ≤ ((List.replicate 216 (0 : Byte)).take 128).length ∧
    ((List.replicate 216 (0 : Byte)).drop (1 * 128 + last.bytes.length - 0 * 216)).length < min 128 (20000 - 1 * 128) := by
  decide +kernel

/-- An image check at its start and at a read: too long or none at all, within the page, an entry that does not read, one that is
repaired, one that ends the image and one that does not; a directory without a boot page; and a fetch of another length. -/
theorem witness_imageCheck :
    let checking := fun (k : Check) => modBlock 0 (fun b => { b with committed := 1 }) { paged with boot := { paged.boot with check := some k } }
    let at_ := fun (length attempts : Nat) => checking ⟨1, length, 7, 0, 0, 0, attempts⟩
    (paged.boot.install = none ∧ pageOf paged 1 = some page1 ∧ 3 * 216 < 649 ∧ 0 < 648 ∧ 648 ≤ page1.lines * 216 ∧ 648 ≤ 8388480) ∧
    (∀ n ∈ [0, 2], (at_ 100 n).boot.check = some ⟨1, 100, 7, 0, 0, 0, n⟩ ∧ imageBytes [] (at_ 100 n) 1 0 = none) ∧
    imageBytes (writeMem imageFlash 64 1) (at_ 100 0) 1 0 = some none ∧
    (imageBytes imageFlash (at_ 100 0) 1 0 = some (some (List.replicate 216 0)) ∧
      100 ≤ 0 + ((List.replicate 216 (0 : Byte)).take (100 - 0)).length ∧ 0 + ((List.replicate 216 (0 : Byte)).take (300 - 0)).length < 300) ∧
    (∀ pg ∈ paged.store.dir, marked [] pg = false) ∧ Taken (on c0) ∧ [(1 : Byte)].length ≠ 3 := by decide +kernel

/-! ## Witnesses: the Page Link -/

theorem witness_line_records :
    let c := routed linkPrint c0
    let taking : Chip := { c with
      pool := { slots := c.pool.slots.set 0 (.filling 0 none), freeList := c.pool.freeList.drop 1 }
      linkIn := .decoding 0 0 true (some .run) dec0, link := { c.link with parser := .payload 0x01 4 2 } }
    (canTake c = true ∧ ctxOf c 0 = some linkPrint ∧ linkPrint.source = .link ∧ linkPrint.closeReq = false ∧ charged c 0 < linkPrint.quota ∧
      c.pool.freeList.head? = some 0 ∧ 0 < c.pool.slots.length) ∧
    (acceptsLine c0 3 = false ∧ canTake c0 = true ∧ c0.routes.length = 4) ∧
    (3 < 4 ∧ 3 < 255 ∧ 255 < 256 ∧ [(0xC6 : Byte), 0].length ≤ 598 ∧ acceptsLine c 0 = true ∧ (takeSlot 0 (fun q => .filling q none) c).isSome = true) ∧
    (exchanging taking = true ∧ taking.link.parser = .payload 0x01 4 2 ∧ 2 + [(0xC6 : Byte)].length < 4 ∧ 2 + [(0xC6 : Byte), 0].length = 4 ∧ taking.linkIn = .decoding 0 0 true (some .run) dec0 ∧
      ctxOf taking 0 = some linkPrint) := by decide +kernel

/-- The credit of a LINK route: as granted, changed with no CREDIT record queued, with one unsent, and with one being sent. -/
theorem witness_credit :
    let grants := fun (g : Option Nat) (x : Chip) => routed { linkPrint with creditGranted := g } x
    let queued := { c0 with link := { c0.link with reports := [.event .documentIn, .credit 0 3, .reply 1 .accepted] } }
    let sending := { c0 with link := { c0.link with up := .report, sent := 1, reports := [.credit 0 3] } }
    (linkPrint.source = .link ∧ linkPrint.quota = 4 ∧ charged c0 0 = 0 ∧ some 3 ≠ some (4 - 0)) ∧
    ((ctxOf (grants (some 4) c0) 0).map Ctx.creditGranted = some (some 4) ∧ c0.link.reports = []) ∧
    (queued.link.up ≠ .report ∧ queued.link.reports = [] ++ [.event .documentIn] ++ .credit 0 3 :: [.reply 1 .accepted] ∧
      sending.link.up = .report ∧ sending.link.reports.drop 1 = []) ∧
    (c0.pool.freeList.head? = some 0 ∧ (slotAt { c0 with pool := { c0.pool with slots := c0.pool.slots.set 5 (.held 0 1 whiteLine) } } 5).route = some 0) := by
  decide +kernel

theorem witness_records :
    let c := routed { linkPrint with linesDone := 2 } c0
    canTake c0 = true ∧ 600 < 601 ∧ Taken (on c0) ∧ ctxOf c0 3 = none ∧ canTake c = true ∧
    ctxOf c 0 = some { linkPrint with linesDone := 2 } ∧ hasRoom { linkPrint with linesDone := 2 } = true ∧ linkPrint.linesDone = 0 ∧
    linkPrint.hold = [] := by decide +kernel

/-- Bytes while LSEL is asserted: the host down, a record, a framing error, fill with a report waiting, and a byte of a LINE record. -/
theorem witness_bytes :
    let sending := { c0 with link := { c0.link with reports := [.credit 0 4] } }
    let taking := { c0 with link := { c0.link with parser := .payload 0x01 4 2 } }
    hostUp { c0 with power := { c0.power with state := .sleep } } = false ∧
    (canTake c0 = true ∧ c0.link.up = .idle ∧ c0.link.reports = [] ∧ linkOutReady c0 = false ∧ (Instr.close [0x5A, 2]).wf = true ∧
      (Instr.close [0x5A, 2]).record = some (0x11, [0x5A, 2]) ∧ (0x11 : Byte) ≠ 0x01) ∧
    ((0x11 : Byte) ≠ 0 ∧ 600 < (0x59 : Byte).toNat + 256 * (0x02 : Byte).toNat) ∧
    (canTake sending = true ∧ sending.link.up = .idle ∧ sending.link.sent = 0 ∧ sending.link.reports = .credit 0 4 :: []) ∧
    (exchanging taking = true ∧ taking.link.up = .idle ∧ taking.link.reports = [] ∧ linkOutReady taking = false ∧ 2 + 1 < 4) := by decide +kernel

/-- The last byte of a report, with a directive held for which it makes room, between records and within one. -/
theorem witness_heldAtExchange :
    ∀ ps ∈ [Parser.between, .gather 0x11 4 [1]],
      let c := { crowded with link := { crowded.link with up := .report, sent := 4, held := some (.close [1, 0]), parser := ps,
                                                          reports := .reply 0 .accepted :: List.replicate 51 (.reply 0 .accepted) } }
      exchanging c = true ∧ c.link.sent + 1 = (Report.reply 0 .accepted).bytes.length ∧ freeBytes c < 256 ∧
        256 ≤ freeBytes { c with link := { c.link with reports := c.link.reports.drop 1, up := .idle, sent := 0 } } ∧
        ps.ended 9 = none := by decide +kernel
theorem witness_lsel :
    let c := { routed linkPrint c0 with linkIn := .decoding 0 0 true (some .run) dec0 }
    (∀ r n first f d, c0.linkIn ≠ .decoding r n first f d) ∧ c.linkIn = .decoding 0 0 true (some .run) dec0 ∧ ctxOf c 0 = some linkPrint ∧
      linkPrint.closeReq = false := ⟨fun _ _ _ _ _ => nofun, rfl, rfl, rfl⟩

/-- A record passed over, in part and at its last byte, with CREDIT OVERRUN owed and not, reported before or not, with room and with none; and
one cut, accepted and not. -/
theorem witness_passing :
    let part := fun (owed : Option Nat) (c : Chip) => { c with linkIn := .passing owed, link := { c.link with parser := .payload 0x01 4 2 } }
    (∀ owed ∈ [none, some 0], ∀ c ∈ [c0, crowded], exchanging (part owed c) = true ∧ (part owed c).link.parser = .payload 0x01 4 2 ∧
      (part owed c).linkIn = .passing owed ∧ c.routes.length = 4 ∧ (getRoute c 0).overrun = false) ∧
    2 + [(1 : Byte)].length < 4 ∧ 2 + [(1 : Byte), 1].length = 4 ∧ 256 ≤ freeBytes c0 ∧ freeBytes crowded < 256 ∧
    (getRoute (setRoute 0 { getRoute c0 0 with overrun := true } c0) 0).overrun = true ∧
    (canTake c0 = true ∧ acceptsLine c0 0 = false ∧ canTake (routed linkPrint c0) = true ∧ acceptsLine (routed linkPrint c0) 0 = true ∧
      acceptsLine (routed { linkPrint with closeReq := true } c0) 0 = false ∧ [(1 : Byte)].length + 1 < 4 ∧
      ctxOf (routed linkPrint c0) 0 = some linkPrint) := by decide +kernel

/-- A LINK to LINK context with a line and a mark on its queue. -/
def linkLink : Ctx := { (request .link [.link]).ctx with linkQ := [.line entry5, .mark mark0] }

theorem witness_upstream :
    let c := { routed linkLink c0 with pool := { c0.pool with slots := c0.pool.slots.set 5 (.held 0 1 whiteLine) } }
    let marked := routed { linkLink with linkQ := [.mark mark0] } c0
    let going (o : LinkOut) (u : Upstream) (x : Chip) : Chip := { x with linkOut := o, link := { x.link with up := u } }
    (c0.link.up = .idle ∧ c0.link.reports = [] ∧ linkOutReady c0 = false ∧ crowded.link.up = .idle ∧ crowded.link.reports ≠ [] ∧
      linkOutReady (going (.line 0 entry5 coded1) .idle c) = true ∧ (going (.line 0 entry5 coded1) .idle c).link.reports = []) ∧
    (exchanging c0 = true ∧ exchanging crowded = true ∧ exchanging State.reset.chip = false ∧ exchanging c = true) ∧
    ((going .idle .report crowded).link.up = .report ∧ (going (.encoding 0 entry5 coded1) .idle c).linkOut = .encoding 0 entry5 coded1) ∧
    ((going (.line 0 entry5 coded1) .out c).link.up = .out ∧ (going (.pageEnd 0 0) .out marked).linkOut = .pageEnd 0 0) ∧
    (ctxOf c 0 = some linkLink ∧ linkLink.linkQ = .line entry5 :: [.mark mark0] ∧ linkLink.hold = [] ∧
      slotAt c entry5.slot = .held 0 1 whiteLine) ∧
    (ctxOf marked 0 = some { linkLink with linkQ := [.mark mark0] } ∧ linkLink.sinks = [.link]) := by decide +kernel

/-- A byte that a release cuts: fill, the first of a report, of an outbound line, and one within a report; and the lane's record cut with a
report queued since. -/
theorem witness_cut :
    let line := { crowded with linkOut := .line 0 entry5 coded1 }
    let cutOf := fun (x : Option Upstream) (c : Chip) => { c with link := { c.link with cut := x } }
    (∀ c ∈ [c0, crowded, { line with link := { line.link with reports := [] } }, { crowded with link := { crowded.link with up := .report, sent := 2 } }],
      exchanging c = true ∧ (c.link.up = .report → c.link.reports ≠ [])) ∧
    (∀ r n first f d, crowded.linkIn ≠ .decoding r n first f d) ∧
    ((cutOf (some .out) line).link.cut = some .out ∧ linkOutReady (cutOf (some .out) line) = true ∧ line.link.reports ≠ []) ∧
    (cutOf (some .idle) crowded).link.cut = some .idle ∧ (cutOf (some .report) crowded).link.cut ≠ some .out ∧ linkOutReady crowded = false ∧
    crowded.link.cut = none :=
  ⟨by decide +kernel, fun _ _ _ _ _ => nofun, by decide +kernel⟩

/-! ## Witnesses: sheet, motors, head -/

/-- A SCAN to PRINT context. -/
def scanPrint : Ctx := (request .scan [.print]).ctx

/-- The part with route 0 from SCAN to PRINT taken up, its supplies on and a document present. -/
def scanning (st : ScanState) : Chip :=
  let c := routed scanPrint c0
  { c with
    pins := { c.pins with docp := true }
    scan := { c.scan with state := st, route := some 0, asked := true }
    scanCh := c.scanCh.takeUp 0 16000 4
    printCh := c.printCh.takeUp 0 16000 4
    head := { c.head with route := some 0, copy := some ⟨16000, 16, 1⟩ }
    power := { c.power with lamp := .on, motor := .on, head := .on } }

theorem witness_pick :
    let c := scanning .waiting
    pickReady c = true ∧ c.scan.route = some 0 ∧ scanParamsOf c 0 = scanPrint.scanP ∧ scanPrint.scanP.isSome = true ∧
      pickReady c0 = false := by decide +kernel

theorem witness_starts :
    let c := scanning .picking
    let x := { scanPrint with printQ := List.replicate 8 (.line entry5) }
    let d := routed x (scanning .picking)
    let d := { d with head := { d.head with shift := .loaded entry5, route := some 0, copy := some ⟨16000, 16, 1⟩ } }
    (scanMayStart c = true ∧ c.scan.route = some 0 ∧ (reserveFor 0 0 c).2 = true ∧ c.power.motor.isOn = true ∧ c.scan.state ≠ .tail ∧
      c.scanCh.tail = none) ∧
    (printDue d = true ∧ d.power.motor.isOn = true ∧ headEntries d = .line entry5 :: List.replicate 7 (.line entry5)) ∧
    scanMayStart c0 = false ∧ printDue c0 = false := by decide +kernel

/-- The rules a start passes: a route that reads, a pool in order, and the head's entries with a burn behind them. -/
theorem witness_startRules :
    let c := scanning .picking
    (PoolOk c.pool ∧ ctxOf c 0 = some scanPrint ∧ c.scanCh.run = some ⟨16000, 4, 4000, 0⟩) ∧
    (c.runOut = none ∧ c.head.route = some 0 ∧ c.head.copy = some ⟨16000, 16, 1⟩ ∧ c.printCh.run = some ⟨16000, 4, 4000, 0⟩) ∧
    c0.head.route = none ∧ ({ c with runOut := some ⟨1, []⟩ } : Chip).runOut ≠ none :=
  ⟨⟨PoolOk.default, by decide +kernel⟩, by decide +kernel⟩

theorem witness_steps :
    let c := { c0 with scanCh := { c0.scanCh with motion := .running, phase := 7, cause := some .stop, run := some ⟨16000, 4, 4000, 0⟩ },
                       printCh := { c0.printCh with motion := .accelerating } }
    let h := { c0 with scanCh := { c0.scanCh with drive := .hold }, printCh := { c0.printCh with drive := .hold } }
    c.scanCh.moving = true ∧ c.printCh.moving = true ∧ c0.scanCh.moving = false ∧ c0.printCh.moving = false ∧ c.scanCh.cause.isSome = true ∧
      h.scanCh.motion = .halted ∧ h.scanCh.drive = .hold ∧ h.printCh.motion = .halted ∧ h.printCh.drive = .hold := by decide +kernel

/-- A moving channel of run index 3. -/
def rolling (motion : Motion) (k : Nat) (tail : Option Nat) : Channel :=
  { Channel.default with motion := motion, k := k, tail := tail, run := some ⟨16000, 4, 4000, 3⟩, linePos := 3 }

theorem witness_plans :
    (∀ m ∈ [Motion.decelerating, .accelerating, .running], (rolling m 3 none).motion = m ∧ (rolling m 3 none).tail = none) ∧
    (∀ x ∈ [(Motion.accelerating, 2, 2), (.accelerating, 0, 2), (.accelerating, 1, 2), (.running, 3, 9)],
      (rolling x.1 x.2.1 (some x.2.2)).tail = some x.2.2 ∧ (x.1 = .accelerating ∨ x.2.1 = 3)) := by decide +kernel

/-- A scanning part at a line start, its channel coming to ramp index `k`, with `free` slots for a quota of 28. -/
def atLineStart (k free : Nat) : Chip :=
  let c := routed { scanPrint with quota := 28 } (scanning .capturing)
  { c with
    pool := { slots := List.replicate free .free ++ List.replicate (32 - free) (.filling 1 none), freeList := List.range free }
    scanCh := { rolling .running k none with route := some 0 } }

/-- Lookahead of the scan channel: covered, denied in motion, and denied at ramp index 0. -/
theorem witness_scanDecision :
    (∀ free ∈ [0, 1, 32],
      let c := atLineStart 0 free
      (c.pool.slots.length = 32 ∧ c.pool.freeList.Nodup ∧ ∀ n < 32, n ∈ c.pool.freeList ↔ c.pool.slots.getD n .free = .free) ∧
      c.scan.state = .capturing ∧ c.scan.route = some 0 ∧ c.scanCh.route = some 0 ∧ ctxOf c 0 = some { scanPrint with quota := 28 } ∧
      c.scan.pageSteps + 1 < 8000 ∧ c.scanCh.run = some ⟨16000, 4, 4000, 3⟩ ∧ c.scanCh.cause = none ∧ c.scanCh.tail = none ∧
      c.scanCh.motion = .running ∧ 4 ≤ c.scanCh.linePos + 1) ∧
    scanPrint.scanP.map ScanParams.maxSteps = some 8000 ∧ scanPrint.reservations = [] ∧
    (1 + ceilDiv (min ((atLineStart 0 0).scanCh.step.1.k + 4) 3) 4 = 2 ∧ charged (atLineStart 0 32) 0 = 0 ∧ 2 ≤ min 28 32 ∧ min 28 1 < 2 ∧
      (atLineStart 0 0).scanCh.step.1.k = 0 ∧ 0 < (atLineStart 3 0).scanCh.step.1.k) := by decide +kernel

/-- A printing part at a line start with `q` on its print queue, nothing of the head line burnt. -/
def atBurn (k : Nat) (q : List Entry) : Chip :=
  let c := routed { scanPrint with printQ := q } (scanning .waiting)
  { c with printCh := { rolling .running k none with route := some 0 } }

/-- Lookahead of the print channel: covered by lines and by a mark, denied in motion and at ramp index 0; and a mark at the head. -/
theorem witness_printDecision :
    (∀ q ∈ [[Entry.line entry5], [.line entry5, .line entry5], [.line entry5, .mark mark0], [.mark mark0]],
      let c := atBurn 0 q
      c.head.route = some 0 ∧ c.runOut = none ∧ ctxOf c 0 = some { scanPrint with printQ := q } ∧ c.printCh.run = some ⟨16000, 4, 4000, 3⟩ ∧
      c.printCh.cause = none ∧ c.printCh.tail = none ∧ c.head.copy = some ⟨16000, 16, 1⟩ ∧ c.head.burns < 1 ∧ c.printCh.motion = .running ∧
      4 ≤ c.printCh.linePos + 1) ∧
    (1 + ceilDiv (min (0 + 4) 3) 4 = 2 ∧ 2 ≤ 1 - 0 + 1 * 1 ∧ ¬(2 ≤ 1 - 0 + 1 * 0) ∧ Entry.mark mark0 ∈ [Entry.mark mark0]) ∧
    (atBurn 0 []).printCh.step.1.k = 0 ∧ 0 < (atBurn 3 []).printCh.step.1.k ∧ scanPrint.printP = some ⟨16, 1, 20⟩ ∧ 0 < 0 + 20 := by
  decide +kernel

/-- The burns of the head line all begun: behind it a line that is covered by lines or a mark or not, a mark, or nothing; and the last step of a
tail feed. -/
theorem witness_doneBurns :
    (∀ rest ∈ [[], [Entry.line entry5], [.line entry5, .line entry5], [.line entry5, .mark mark0], [.mark mark0]],
      let c := atBurn 0 (.line entry5 :: rest)
      let c := { c with head := { c.head with burns := 1 }, pool := { c.pool with slots := c.pool.slots.set 5 (.held 0 1 whiteLine) } }
      c.runOut = none ∧ c.head.copy = some ⟨16000, 16, 1⟩ ∧ 1 ≤ c.head.burns ∧ slotAt c entry5.slot = .held 0 1 whiteLine ∧
        ctxOf c 0 = some { scanPrint with printQ := .line entry5 :: rest } ∧ 4 ≤ c.printCh.linePos + 1) ∧
    (scanPrint.sinks = [.print] ∧ scanPrint.hold = [] ∧ 2 ≤ 1 * 2 ∧ ¬(2 ≤ 1 * 1)) ∧
    (let c := atBurn 1 [.mark mark0]
     let c := { c with printCh := { c.printCh with motion := .decelerating, mode := .down, tail := some 1, cause := some .jam } }
     c.runOut = none ∧ c.head.route = some 0 ∧ c.printCh.motion = .decelerating ∧ c.printCh.mode = .down ∧ c.printCh.k = 1 ∧
      c.printCh.tail = some 1 ∧ ctxOf c 0 = some { scanPrint with printQ := [.mark mark0] }) := by decide +kernel

/-- A scanning part in a state of the sheet, at a step within a line or at a line start, its channel moving. -/
def onSheet (st : ScanState) (pos : Nat) (f : Capture → Capture) : Chip :=
  let c := scanning st
  { c with scan := f c.scan, scanCh := { rolling .running 3 none with route := some 0, linePos := pos } }

/-- The sheet cycle (R27, R28, R35 to R37, R39): each edge, jam, line start and halt at the boundary of its count. -/
theorem witness_sheet :
    let lined := fun (x : Ctx) (c : Chip) => setRoute 0 { getRoute c 0 with ctx := some x } c
    let done := { scanPrint with linesDone := 3 }
    (∀ st ∈ [ScanState.picking, .approach, .capturing, .tail], ∀ pos ∈ [0, 3], let c := onSheet st pos id
      c.scanCh.moving = true ∧ c.scanCh.run = some ⟨16000, 4, 4000, 3⟩ ∧ c.scan.route = some 0 ∧ ctxOf c 0 = some scanPrint ∧ c.scan.state = st ∧
        c.scanCh.cause = none ∧ c.scanCh.tail = none ∧ c.scanCh.route = some 0 ∧ c.scan.pageEndDue = false ∧ c.scan.capture = none ∧
        256 ≤ freeBytes c) ∧
    (scanPrint.source = .scan ∧ scanPrint.scanP = some ⟨.threshold, 128, 256, 8, 4, 400, 8000, true⟩ ∧ scanPrint.reservations = [] ∧
      398 + 1 < 400 ∧ 400 ≤ 399 + 1 ∧ 7998 + 1 < 8000 ∧ 8000 ≤ 7999 + 1 ∧ 0 + 1 < 4 ∧ ¬(3 + 1 < 4)) ∧
    (ctxOf (lined done (onSheet .capturing 0 id)) 0 = some done ∧ 0 < done.linesDone ∧ done.hold = [] ∧ hasRoom done = true ∧
      hasRoom { done with printQ := List.replicate Config.queueCap (.line entry5) } = false) ∧
    ((onSheet .approach 3 fun x => { x with approach := some 1 }).scan.approach = some 1 ∧
      (onSheet .tail 3 fun x => { x with tailRem := some 1 }).scan.tailRem = some (0 + 1) ∧
      (onSheet .tail 3 fun x => { x with tailRem := some 0 }).scan.tailRem = some 0 ∧ 0 < (onSheet .tail 3 id).scanCh.step.1.k) ∧
    (∀ x ∈ [scanPrint, { scanPrint with closeReq := true }], let c := onSheet .runout 0 id
      let c := lined x { c with scanCh := { c.scanCh with motion := .decelerating, mode := .down, k := 1 } }
      ctxOf c 0 = some x ∧ c.scan.state = .runout ∧ c.scanCh.motion = .decelerating ∧ c.scanCh.mode = .down ∧ c.scanCh.k = 1 ∧
        c.pins.docp = true) := by decide +kernel

theorem witness_capture :
    let c := { scanning .capturing with scan := { (scanning .capturing).scan with capture := some (.keep 3 0) } }
    let f := { c with pool := { c.pool with slots := c.pool.slots.set 3 (.filling 0 none) } }
    c.scan.capture = some (.keep 3 0) ∧ c.scan.route = some 0 ∧ scanParamsOf c 0 = scanPrint.scanP ∧ c.scan.pageEndDue = false ∧
      ({ c with scan := { c.scan with pageEndDue := true } } : Chip).scan.pageEndDue = true ∧
      ({ c with scan := { c.scan with capture := some .drop } } : Chip).scan.capture = some .drop ∧ c0.scan.capture = none ∧ ctxOf f 0 = some scanPrint ∧ slotAt f 3 = .filling 0 none ∧ scanPrint.linesDone + 1 ≠ 65535 ∧
      scanPrint.hold = [] ∧ hasRoom scanPrint = true ∧ scanPrint.hold = [] ∧
      hasRoom { scanPrint with printQ := List.replicate Config.queueCap (.line entry5) } = false := by decide +kernel

/-- The first and the 65,535th line of a page, with room for the mark behind it and without; and a LINK sink whose lane is idle. -/
theorem witness_firstAndLast :
    let last := { scanPrint with linesDone := 65534 }
    let out := (request .scan [.link]).ctx
    let c := { routed out (scanning .capturing) with pool := { c0.pool with slots := c0.pool.slots.set 3 (.filling 0 none) } }
    let c := { c with scan := { c.scan with capture := some (.keep 3 0) } }
    (scanPrint.linesDone = 0 ∧ last.linesDone + 1 = 65535 ∧ hasRoom (last.push (.line entry5)) = true ∧
      hasRoom ({ last with printQ := List.replicate 39 (.line entry5) }.push (.line entry5)) = false ∧
      256 ≤ freeBytes c0 ∧ freeBytes crowded < 256) ∧
    (ctxOf c 0 = some out ∧ out.sinks = [.link] ∧ out.linkQ = [] ∧ out.hold = [] ∧ hasRoom out = true ∧ slotAt c 3 = .filling 0 none ∧
      c.linkOut = .idle ∧ routeOfSink c .link = some 0 ∧ out.closeReq = false ∧ c.scan.pageEndDue = false ∧
      (scanParamsOf c 0).isSome = true) := by decide +kernel

theorem witness_head :
    let c := scanning .waiting
    let with_ (h : Head → Head) : Chip := { c with head := h c.head }
    let burning := routed { scanPrint with printQ := List.replicate 8 (.line entry5) } (scanning .picking)
    let burning := { burning with head := { burning.head with shift := .loaded entry5 } }
    (with_ fun h => { h with shift := .loading entry5 }).head.shift = .loading entry5 ∧
    ((with_ fun h => { h with strobe := some (0, 600) }).head.strobe = some (0, 600) ∧ c.head.groups = [] ∧
      (with_ fun h => { h with groups := [3], strobeTime := some 600 }).head.groups = [3]) ∧
    ((with_ fun h => { h with cut := .pulse }).head.cut = .pulse ∧ (with_ fun h => { h with cut := .judging }).head.cut = .judging ∧
      c.head.route = some 0 ∧ ctxOf c 0 = some scanPrint) ∧
    (c0.head.shift = .empty ∧ c0.head.strobe = none ∧ c0.head.cut = .none) ∧
    (printDue burning = true ∧ burning.power.motor.isOn = true ∧ burning.printCh.linePos = 0 ∧
      headEntries burning = .line entry5 :: List.replicate 7 (.line entry5) ∧ burning.head.copy = some ⟨16000, 16, 1⟩) := by decide +kernel

/-- A mark at its judgement, a route HALTED (JAM) at its second, and a burn of a line with a black dot. -/
theorem witness_cutAndGroups :
    let x := { scanPrint with printQ := [.mark mark0] }
    let c := routed x (scanning .waiting)
    let black : Line := true :: List.replicate 1727 false
    let burning := { c with pool := { c.pool with slots := c.pool.slots.set 5 (.held 0 1 black) } }
    (ctxOf c 0 = some x ∧ x.sinks = [.print] ∧ x.hold = [] ∧ 256 ≤ freeBytes c) ∧
    (let d := routed { x with halt := some .jam } crowded
     ctxOf d 0 = some { x with halt := some .jam } ∧ freeBytes d < 256 ∧ (getRoute d 0).haltReported = true) ∧
    slotAt burning entry5.slot = .held 0 1 black := by decide +kernel

theorem witness_interlock :
    c0.power.clockOn = true ∧ (∀ r x, ctxOf c0 r = some x → x.halt ≠ some .interlock) ∧
    routeOfSink (scanning .waiting) .print = some 0 ∧ ctxOf (scanning .waiting) 0 = some scanPrint ∧ scanPrint.usesMotor = true ∧
    ({ c0 with power := { c0.power with clockOn := false } } : Chip).power.clockOn = false := by
  refine ⟨rfl, ?_, by decide +kernel⟩
  intro r x h
  match r with
  | 0 | 1 | 2 | 3 => cases h
  | n + 4 => cases h

/-- The interlock and the paper inputs with room for their events and with none. -/
theorem witness_pinEvents : c0.power.clockOn = true ∧ crowded.power.clockOn = true ∧ 300 ≤ freeBytes c0 ∧ freeBytes crowded < 256 ∧ c0.runOut = none ∧
    c0.scan.capture = none ∧ c0.scan.route = none := by decide +kernel

/-! ## Witnesses: power -/

theorem witness_powerOnReset :
    Pins.idle.cover = true ∧ ({ Pins.idle with cover := false } : Pins).cover = false ∧
    (c0.store.holder = none ∧ c0.store.erase = none ∧ c0.store.op = .none) ∧
    (let c := holding .entry working
     FlashOk Flash.blank ∧ c.store.erase = none ∧ c.store.holder = some .entry ∧ ∀ w ∈ jobWrites c [] .entry, w.1 ≠ 0) := by decide +kernel

theorem witness_sleep :
    let p : List Byte := [1, 0, 0, 0]
    let q : List Byte := [1, 1, 0, 0]
    let off := { c0 with power := { c0.power with wake := List.replicate 4 ⟨false, false, 20⟩ } }
    (Taken (on (routed linkPrint c0)) ∧ (ctxOf (streamRules (.sleep p) (routed linkPrint c0)) 0).isSome = true) ∧
    (Taken (on off) ∧ (∀ r, r < 4 → ctxOf (streamRules (.sleep p) off) r = none) ∧ (streamRules (.sleep p) off).runOut = none ∧ numAt p 1 3 = 0 ∧
      ∀ e ∈ (streamRules (.sleep p) off).power.wake, e.enable = false) ∧
    numAt q 1 3 ≠ 0 ∧
    (let c := { scannedStore id c0 with power := { c0.power with state := .sleepPending } }
     sleepReady c = true ∧ c.prot.service ≠ .service) ∧ sleepReady c0 = false := by decide +kernel

/-- The part asleep, its main clock stopped. -/
def asleep (st : PowerState) (clock : Bool) (timer seconds : Nat) : Chip :=
  { scannedStore id c0 with power := { c0.power with
      state := st, clockOn := clock, wakeTimer := timer, seconds := seconds, cause := some .timer } }

theorem witness_wake :
    ((asleep .sleep false 0 16777215).power.state = .sleep ∧ 0 < (asleep .sleep false 9 9).power.wakeTimer ∧
      (asleep .sleep false 9 9).power.wakeTimer ≤ (asleep .sleep false 9 9).power.seconds ∧
      (asleep .sleep false 9 8).power.seconds < (asleep .sleep false 9 8).power.wakeTimer) ∧
    c0.power.state ≠ .sleep ∧
    ((asleep .waking false 0 0).power.state = .waking ∧ (asleep .waking false 0 0).power.clockOn = false) ∧
    (let c := asleep .waking true 0 0
     c.power.state = .waking ∧ c.power.clockOn = true ∧ c.store.scanned = true ∧ c.store.op ≠ .scanning ∧ c.power.cause = some .timer) ∧
    c0.power.state = .run := by decide +kernel

theorem witness_wakeInputs :
    let off := { c0 with power := { c0.power with wake := wakeDefault.set 0 ⟨false, false, 20⟩ } }
    let now := { c0 with power := { c0.power with wake := wakeDefault.set 0 ⟨true, false, 0⟩ } }
    let timing := { c0 with power := { c0.power with sources := c0.power.sources.set 3 ⟨false, some (true, 1)⟩ } }
    (off.power.wake[sourceIndex (pinSource .ring)]? = some ⟨false, false, 20⟩ ∧
      c0.power.wake[sourceIndex (pinSource .ring)]? = some ⟨true, false, 20⟩ ∧
      now.power.wake[sourceIndex (pinSource .ring)]? = some ⟨true, false, 0⟩ ∧
      c0.power.sources[sourceIndex (pinSource .ring)]? = some ⟨Pins.idle.ring, none⟩) ∧
    (timing.power.wake[sourceIndex .doc]? = some ⟨true, true, 50⟩ ∧ timing.power.sources[sourceIndex .doc]? = some ⟨false, some (true, 1)⟩ ∧
      c0.power.sources[sourceIndex .doc]?.bind Debounce.timing = none) ∧
    (c0.power.state = .run ∧ (asleep .sleep false 0 0).power.state = .sleep ∧ (asleep .sleepPending true 0 0).power.state = .sleepPending ∧
      300 ≤ freeBytes (asleep .sleepPending true 0 0)) ∧
    (c0.scan.state ≠ .waiting ∧ (scanning .waiting).scan.state = .waiting ∧ (scanning .waiting).power.clockOn = true) := by decide +kernel

/-- DOCP: disabled, at its stable level, timed from the first, timed already and with debounce 0; and lamp use taken, dropped and kept. -/
theorem witness_docp :
    let doc := fun (e : WakeEntry) (d : Debounce) => { c0 with power := { c0.power with wake := c0.power.wake.set 3 e, sources := c0.power.sources.set 3 d } }
    (∀ e ∈ [(⟨false, true, 50⟩ : WakeEntry), ⟨true, true, 50⟩, ⟨true, true, 0⟩], ∀ d ∈ [(⟨false, none⟩ : Debounce), ⟨true, none⟩, ⟨false, some (true, 9)⟩],
      (doc e d).power.wake[3]? = some e ∧ (doc e d).power.sources[3]? = some d) ∧
    ((asleep .waking true 0 0).power.state = .waking ∧ (scanning .waiting).scan.lampUse = false ∧ (scanning .waiting).power.clockOn = true ∧
      ctxOf (scanning .waiting) 0 = some scanPrint ∧ scanPrint.begun = false) := by decide +kernel

theorem witness_supplies :
    let c := { c0 with power := { c0.power with lamp := .rising 1, motor := .rising 1, head := .rising 1 } }
    let h := { c0 with power := { c0.power with lamp := .holding 1, motor := .holding 1, head := .holding 1 } }
    (c.power.lamp = .rising 1 ∧ c.power.motor = .rising 1 ∧ c.power.head = .rising 1) ∧
    (h.power.lamp = .holding 1 ∧ h.power.motor = .holding 1 ∧ h.power.head = .holding 1) ∧
    (c0.power.lamp = .off ∧ c0.power.head = .off ∧ c0.power.motor = .off) ∧
    (let k := scannedStore id c0
     k.boot.state = .holding ∧ k.power.state = .run ∧ k.store.op ≠ .scanning ∧ k.store.scanned = true ∧ k.boot.check = none ∧
      k.boot.install = none) ∧ (imaged .serving none .valid).boot.state ≠ .holding := by decide +kernel

/-! ## One step each -/

/-- What a chip shows after a command from `c`. -/
def after (i : Instr) (c : Chip) (f : Chip → Bool) : Bool :=
  match exec i (on c) with
  | .next t => f t.chip
  | _ => false

/-- 11.3, R11: OPEN of LINK to PRINT gives CREDIT 4 behind its REPLY. -/
theorem test_open_step : after (.openRoute openBytes) c0 (fun c => c.link.reports == [.reply 0x55 .accepted, .credit 0 4] &&
    decide (c.head.route = some 0) && (ctxOf c 0).isSome) = true := by decide +kernel

/-- R176: the bytes 11h 02h 00h 09h 00h are a CLOSE of route 0; with fill before them they act as it does. -/
theorem test_close_bytes : after (.lselAssert false false [0, 0x11, 2, 0, 9, 0]) (routed linkPrint c0) (fun c =>
    c.link.reports == [.reply 9 .accepted, .event (.routeClosed 0 .closed)] && decide (c.link.parser = .between)) = true := by decide +kernel

/-- R175: with LSEL released LCLK is ignored, so no record comes. -/
theorem test_released : after (.close [9, 0]) (lselReleaseChip [] (routed linkPrint c0)) (fun c => c.link.reports.isEmpty) = true := by
  decide +kernel

/-- R175: a fill byte that a release of LSEL cut is sent again, though a report has come since; the report goes after it. -/
theorem test_cut_byte : let c := { c0 with link := { c0.link with selected := false, reports := [.credit 0 4], cut := some .idle } }
    after (.lselAssert false false [0]) c (fun c => decide (c.link.up = .idle ∧ c.link.sent = 0)) = true ∧
    after (.lselAssert false false [0, 0]) c (fun c => decide (c.link.up = .report ∧ c.link.sent = 1)) = true := by decide +kernel

/-- R65: a second JAM of a route HALTED (JAM) keeps the halt reported, though its event is lost. -/
theorem test_second_jam : let c := routed { scanPrint with halt := some .jam, printQ := [.mark mark0] } (scanning .waiting)
    after (.cutJudgement true) { c with head := { c.head with cut := .judging }, link := crowded.link }
      (fun c => (getRoute c 0).haltReported && c.link.eventsLost) = true := by decide +kernel

/-- R59: the tail feed that ends with a scan jam recorded leaves the line position 0 and begins the cut. -/
theorem test_tail_with_jam : let c := atBurn 1 [.mark mark0]
    after (.motorStep .print false 0)
      { c with printCh := { c.printCh with motion := .decelerating, mode := .down, tail := some 1, cause := some .jam, linePos := 1 } }
      (fun c => decide (c.printCh.motion = .halted ∧ c.printCh.linePos = 0 ∧ c.head.cut = .pulse)) = true := by decide +kernel

/-- R21: CLOSE of a route with nothing in progress closes it, with ROUTE CLOSED (CLOSED). -/
theorem test_close_step : after (.close [9, 0]) (routed linkPrint c0) (fun c =>
    c.link.reports == [.reply 9 .accepted, .event (.routeClosed 0 .closed)] && (ctxOf c 0).isNone) = true := by decide +kernel

/-- R142, R143: a wrong code is refused PROTECTED, and the host is reset, which empties the report queue (R189). -/
theorem test_wrong_code : after (.serviceCode (1 :: 0 :: code8.drop 1))
    { serving (.window 5) 3 with power := { c0.power with bootHold := false }, boot := { c0.boot with state := .complete } } (fun c =>
    decide (c.prot.failures = 4) && hrstnAsserted c && c.link.reports.isEmpty) = true := by decide +kernel

/-- R167: chunk 156 of an image of 20,000 bytes begins in line 92 (19,968 = 92 × 216 + 96). -/
theorem test_boot_fetch_line : after (.bootFetch [1, 156, 0]) (scannedStore id (imaged .serving none .valid)) (fun c =>
    decide (c.boot.chunk = some ⟨156, 92, [], 0⟩) && decide (c.store.holder = some .imageRead)) = true := by decide +kernel

/-- R158: the seconds counter stays at its cap. -/
theorem test_second_cap : after .secondTick (asleep .sleep false 0 16777215) (fun c => decide (c.power.seconds = 16777215)) = true := by
  decide +kernel

/-- R131: a LOCK PAGE program sets cell 63 of the row, bit 7 of its last byte. -/
theorem test_lock_row : (programRow (.lockPage 1 [0, 63]) [] Flash.blank).1.lockCells = [0xFE, 0xFF, 0xFF, 0xFF, 0xFF, 0xFF, 0xFF, 0x7F] := by
  decide +kernel

/-- R99, R188: RESTART over a LINE record begun upstream empties the lane; what is left goes out as 00h and takes no room, and the REPLY
is behind it. -/
theorem test_restart_lane : let c := routed linkLink c0
    after (.restart [7]) { c with linkOut := .line 0 entry5 coded1, link := { c.link with up := .out, sent := 2 }, pins := { c.pins with cover := true } }
      (fun c => decide (c.linkOut = .idle ∧ c.link.up = .report ∧ c.link.sent = 2 ∧ usedBytes c = 5) &&
        c.link.reports == [.padded 0x81 3, .reply 7 .accepted] && decide (nextByteUp c = 0)) = true := by decide +kernel

theorem witness_abortClose :
    let x := { (request .scan [.store]).ctx with storePage := some 2 }
    let c := holding (.closePage 7 false) (routed x (scannedStore (fun x => { x with work := some ⟨some 0, some 2, .closing (some mark0), false⟩ }) paged))
    Taken (on c) ∧ ctxOf (streamRules (.abort [9, 0]) c) 0 = some x ∧ Sink.store ∈ x.sinks ∧ c.store.holder = some (.closePage 7 false) := by
  decide +kernel

/-- R22, R117: ABORT while the page close waits or holds the flash closes the page TRUNCATED. -/
theorem test_abort_close :
    let c := routed { (request .scan [.store]).ctx with storePage := some 2 } (scannedStore (fun x => { x with
      work := some ⟨some 0, some 2, .closing (some mark0), false⟩ }) paged)
    after (.abort [9, 0]) (holding (.closePage 7 false) c) (fun c => decide (c.store.holder = some (.closePage 7 true))) = true ∧
    after (.abort [9, 0]) (holding .imageRead { c with store := { c.store with programs := [.closePage 7 false] } })
      (fun c => decide (c.store.programs = [.closePage 7 true])) = true := by decide +kernel

/-- R100: a byte that already reads as wanted cannot fail, and the job goes on. -/
theorem test_no_pulse_no_failure : programRun 0 (.failAt 0) [] [(5, 0xFF), (6, 0x00)] = ([(6, 0x00)], true) ∧
    (programRun 0 (.failAt 1) [] [(5, 0xFF), (6, 0x00)]).2 = false := by decide +kernel

/-- R100: a byte with a 0 where 1 is wanted ends the job; its bits at 0 in the wanted value are free, programmed or not. -/
theorem test_cannot_program : programRun 0x00 .ok [(6, 0x0F)] [(6, 0xF0)] = ([(6, 0x00)], false) ∧
    programRun 0xFF .ok [(6, 0x0F)] [(6, 0xF0)] = ([(6, 0x0F)], false) := by decide +kernel

/-- R49: a LOAD of no entry is accepted though its offset is out of the table and its channel runs. -/
theorem test_ramp_of_nothing : after (.loadScanRamp [9, 4, 40, 0]) { c0 with scanCh := { c0.scanCh with motion := .running } } (fun c =>
    c.link.reports == [.reply 9 .accepted] && decide (c.scanCh.ramp = [4000])) = true := by decide +kernel

/-- R177: a LINE record that a release cuts leaves its route in OPEN and its slot free; one without credit brings no CREDIT OVERRUN. -/
theorem test_cut_line : after (.lselRelease []) (lineChip 4 [0, 1] (routed linkPrint c0)) (fun c =>
      decide ((getRoute c 0).state = .opened ∧ slotAt c 0 = .free ∧ c.linkIn = .idle)) = true ∧
    after (.lselRelease []) (lineChip 4 [3, 1] c0) (fun c => c.link.reports.isEmpty && !(getRoute c 3).overrun) = true ∧
    after (.line 2 [3, 1]) c0 (fun c => c.link.reports == [.event (.creditOverrun 3)] && (getRoute c 3).overrun) = true := by decide +kernel

/-- R9: scale 100, density 30 and repeat 0 are clamped to 128, 24 and 1, and the reply is ADJUSTED. -/
theorem test_open_clamps : after (.openRoute openScan) c0 (fun c => c.link.reports == [.reply 0x55 .adjusted] &&
    (ctxOf c 0).map (fun x => (x.scanP.map ScanParams.q, x.printP)) == some (some 128, some ⟨24, 1, 20⟩)) = true := by decide +kernel

end Sys2Proof.Tests
end

section
/-!
PROOFS. The arithmetic of the scan path (02_scan_path.md): the correction of a sample (R31) and its bounds.
-/
namespace Sys2Proof.Proofs

open Sys2Proof Sys2Proof.Machine

/-! ## The two cases of R31 -/

/-- R31, first case: a sample at or below the dark level. -/
theorem correct_of_le_dark {e : Shade} {x : Nat} (h : x ≤ e.dark) : correct e x = 0 := if_pos h

/-- R31, second case: a sample above the dark level, with the cut at 255. -/
theorem correct_of_dark_lt {e : Shade} {x : Nat} (h : e.dark < x) :
    correct e x = min 255 ((x - e.dark) * e.gain / 256) := if_neg (Nat.not_le.mpr h)

/-- The two cases in one equation: at or below the dark level the truncated difference is 0, and the product with it. -/
theorem correct_eq_min (e : Shade) (x : Nat) : correct e x = min 255 ((x - e.dark) * e.gain / 256) := by
  rcases Nat.lt_or_ge e.dark x with habove | hbelow
  · exact correct_of_dark_lt habove
  · simp [correct_of_le_dark hbelow, Nat.sub_eq_zero_of_le hbelow]

/-! ## What follows for the gain, the default entry and the largest product -/

theorem correct_le_255 (e : Shade) (x : Nat) : correct e x ≤ 255 :=
  correct_eq_min e x ▸ Nat.min_le_left _ _

@[simp] theorem correct_gain_zero (d x : Nat) : correct ⟨d, 0⟩ x = 0 := by simp [correct_eq_min]

/-- The default entry: dark level 0 and gain 256, which stands for ×1.0. -/
theorem correct_default {x : Nat} (hx : x ≤ 255) : correct ⟨0, 256⟩ x = x := by
  have hunit : x * 256 / 256 = x := Nat.mul_div_cancel x (by decide)
  simp [correct_eq_min, hunit, hx]

/-- The largest product is that of a sample of 255, dark level 0 and the largest gain. -/
theorem shade_product_le {e : Shade} {x : Nat} (hx : x ≤ 255) (hg : e.gain ≤ 65535) :
    (x - e.dark) * e.gain ≤ 16711425 :=
  calc (x - e.dark) * e.gain
    _ ≤ 255 * 65535 := Nat.mul_le_mul ((Nat.sub_le x e.dark).trans hx) hg
    _ = 16711425 := rfl

/-- The largest product is cut: its quotient by 256 is 65,279. -/
theorem correct_largest : correct ⟨0, 65535⟩ 255 = 255 := by decide

/-- A pixel takes the shading entry of its own number (R30 to R33). -/
theorem pixelOf_eq (t : ScanTables) (p : ScanParams) (row i : Nat) (sample : Byte) :
    pixelOf t p row i sample =
      bilevel p t.dither row i (t.tone.getD (correct (t.shading.getD i ⟨0, 256⟩) sample.toNat) 0) := rfl

/-- Settles O15, by the two cases of R31 and the equation that joins them. -/
theorem sampleCorrection : Obligations.SampleCorrection := by
  unfold Obligations.SampleCorrection
  exact ⟨fun _ _ => correct_of_le_dark, fun _ _ => correct_of_dark_lt, correct_gain_zero, fun _ => correct_default,
    fun e x hx hg => ⟨shade_product_le hx hg, correct_le_255 e x⟩,
    rfl, rfl, correct_largest, pixelOf_eq⟩

end Sys2Proof.Proofs
end

section
/-!
PROOFS. The report queue (10_the_page_link.md 10.4): what a record, an event or a REPLY that is queued adds to it (R180, R181), what it
leaves alone, and the bytes left free behind it.
-/
namespace Sys2Proof.Proofs

open Sys2Proof Sys2Proof.Machine

/-! ## Records (R181, R184) -/

/-- All that the admission of a record changes: the queue, which it ends, and the attention pulse. -/
theorem queueRecord_eq (x : Report) (c : Chip) : ∃ atnLeft, queueRecord x c =
    { c with link := { c.link with reports := c.link.reports ++ [x], atnLeft := atnLeft } } := by
  unfold queueRecord recordReady
  split
  · exact ⟨_, rfl⟩
  · exact ⟨_, rfl⟩

@[simp] theorem queueRecord_reports (x : Report) (c : Chip) :
    (queueRecord x c).link.reports = c.link.reports ++ [x] := by
  obtain ⟨_, h⟩ := queueRecord_eq x c; rw [h]

@[simp] theorem queueRecord_boot (x : Report) (c : Chip) : (queueRecord x c).boot = c.boot := by
  obtain ⟨_, h⟩ := queueRecord_eq x c; rw [h]

@[simp] theorem queueRecord_pool (x : Report) (c : Chip) : (queueRecord x c).pool = c.pool := by
  obtain ⟨_, h⟩ := queueRecord_eq x c; rw [h]

@[simp] theorem queueRecord_store (x : Report) (c : Chip) : (queueRecord x c).store = c.store := by
  obtain ⟨_, h⟩ := queueRecord_eq x c; rw [h]

/-- The bytes free behind reports that have been appended (R181). -/
theorem freeBytes_of_append {c d : Chip} {xs : List Report} (h : d.link.reports = c.link.reports ++ xs) :
    freeBytes d = freeBytes c - (xs.map Report.size).sum := by
  simp [freeBytes, usedBytes, h, Nat.sub_sub]

/-! ## REPLYs (R180) -/

@[simp] theorem reply_reports (p : List Byte) (a : Answer) (c : Chip) :
    (reply p a c).link.reports = c.link.reports ++ [.reply (refOf p) a] := queueRecord_reports _ c

@[simp] theorem reply_boot (p : List Byte) (a : Answer) (c : Chip) : (reply p a c).boot = c.boot := queueRecord_boot _ c

@[simp] theorem reply_pool (p : List Byte) (a : Answer) (c : Chip) : (reply p a c).pool = c.pool := queueRecord_pool _ c

@[simp] theorem reply_store (p : List Byte) (a : Answer) (c : Chip) : (reply p a c).store = c.store := queueRecord_store _ c

/-! ## Events (R65, R181) -/

/-- The halts that an event reports are marked on the routes, and nowhere else (R65). -/
theorem reportHalts_eq (e : Event) (c : Chip) : ∃ routes, reportHalts e c = { c with routes := routes } := by
  unfold reportHalts
  split
  · exact ⟨_, rfl⟩
  · exact ⟨_, rfl⟩
  · exact ⟨_, rfl⟩

/-- An event, admitted or discarded, touches the routes and the Page Link Interface alone. -/
theorem queueEvent_eq (e : Event) (c : Chip) : ∃ routes link, queueEvent e c = { c with routes := routes, link := link } := by
  unfold queueEvent
  split
  · obtain ⟨_, hrecord⟩ := queueRecord_eq (.event e) c
    obtain ⟨_, hhalts⟩ := reportHalts_eq e (queueRecord (.event e) c)
    rw [hhalts, hrecord]
    exact ⟨_, _, rfl⟩
  · exact ⟨_, _, rfl⟩

@[simp] theorem queueEvent_boot (e : Event) (c : Chip) : (queueEvent e c).boot = c.boot := by
  obtain ⟨_, _, h⟩ := queueEvent_eq e c; rw [h]

@[simp] theorem queueEvent_pool (e : Event) (c : Chip) : (queueEvent e c).pool = c.pool := by
  obtain ⟨_, _, h⟩ := queueEvent_eq e c; rw [h]

@[simp] theorem queueEvent_store (e : Event) (c : Chip) : (queueEvent e c).store = c.store := by
  obtain ⟨_, _, h⟩ := queueEvent_eq e c; rw [h]

/-- An event that finds 256 bytes free is admitted. -/
theorem queueEvent_reports_of_room {e : Event} {c : Chip} (h : Config.reportRoom ≤ freeBytes c) :
    (queueEvent e c).link.reports = c.link.reports ++ [.event e] := by
  obtain ⟨_, hhalts⟩ := reportHalts_eq e (queueRecord (.event e) c)
  unfold queueEvent
  rw [if_pos h, hhalts]
  exact queueRecord_reports _ c

/-- One that finds less is discarded. -/
theorem queueEvent_reports_of_full {e : Event} {c : Chip} (h : freeBytes c < Config.reportRoom) :
    (queueEvent e c).link.reports = c.link.reports := by
  unfold queueEvent
  rw [if_neg (Nat.not_le.mpr h)]

/-- Either way the reports before it stand. -/
theorem reports_prefix_queueEvent (e : Event) (c : Chip) : c.link.reports <+: (queueEvent e c).link.reports := by
  rcases Nat.lt_or_ge (freeBytes c) Config.reportRoom with hfull | hroom
  · rw [queueEvent_reports_of_full hfull]
  · rw [queueEvent_reports_of_room hroom]
    exact List.prefix_append _ _

end Sys2Proof.Proofs
end

section
/-!
PROOFS. The Boot Server (09_host_boot.md): the pending report (R171), and the end of serving past the image (R168).
-/
namespace Sys2Proof.Proofs

open Sys2Proof Sys2Proof.Machine

/-! ## The pending report (R171) -/

@[simp] theorem queuePending_boot (c : Chip) : (queuePending c).boot = { c.boot with report := none } := by
  unfold queuePending
  split
  next => simp
  next h => rw [← h]

@[simp] theorem queuePending_pool (c : Chip) : (queuePending c).pool = c.pool := by
  unfold queuePending
  split <;> simp

@[simp] theorem queuePending_store (c : Chip) : (queuePending c).store = c.store := by
  unfold queuePending
  split <;> simp

theorem queuePending_reports_of_room {c : Chip} (h : Config.reportRoom ≤ freeBytes c) :
    (queuePending c).link.reports = c.link.reports ++ (c.boot.report.map fun x => .event x.event).toList := by
  unfold queuePending
  split
  next x hx => rw [hx]; exact queueEvent_reports_of_room h
  next hx => simp [hx]

theorem reports_prefix_queuePending (c : Chip) : c.link.reports <+: (queuePending c).link.reports := by
  unfold queuePending
  split
  next x _ => exact reports_prefix_queueEvent x.event { c with boot := { c.boot with report := none } }
  next => exact List.prefix_rfl

/-! ## Serving ends past the image (R168) -/

/-- The BOOT END of an image that has been fetched to its end. -/
def imageEnd (c : Chip) : Report := .bootEnd true none (c.boot.length.getD 0) (c.boot.checksum.getD 0)

/-- COMPLETE is entered and BOOT END is queued; the events are still to come. -/
def imageEnded (c : Chip) : Chip := queueRecord (imageEnd c) { c with boot := { c.boot with state := .complete } }

theorem endComplete_eq (c : Chip) : endComplete c = queuePending (queueEvent (.bootComplete false) (imageEnded c)) := rfl

theorem imageEnded_reports (c : Chip) : (imageEnded c).link.reports = c.link.reports ++ [imageEnd c] := queueRecord_reports _ _

@[simp] theorem imageEnded_boot (c : Chip) : (imageEnded c).boot = { c.boot with state := .complete } := queueRecord_boot _ _

@[simp] theorem imageEnded_pool (c : Chip) : (imageEnded c).pool = c.pool := queueRecord_pool _ _

@[simp] theorem imageEnded_store (c : Chip) : (imageEnded c).store = c.store := queueRecord_store _ _

@[simp] theorem endComplete_boot (c : Chip) :
    (endComplete c).boot = { c.boot with state := .complete, report := none } := by simp [endComplete_eq]

@[simp] theorem endComplete_pool (c : Chip) : (endComplete c).pool = c.pool := by simp [endComplete_eq]

@[simp] theorem endComplete_store (c : Chip) : (endComplete c).store = c.store := by simp [endComplete_eq]

/-- BOOT END is queued whatever room there is: of the three records only the two behind it are events. -/
theorem imageEnd_prefix_endComplete (c : Chip) :
    c.link.reports ++ [imageEnd c] <+: (endComplete c).link.reports := by
  rw [endComplete_eq, ← imageEnded_reports]
  exact (reports_prefix_queueEvent _ _).trans (reports_prefix_queuePending _)

/-- With room for BOOT END (11 bytes) and BOOT COMPLETE (5 bytes) above the 256 bytes of R181, both events are admitted. -/
theorem endComplete_reports_of_room {c : Chip} (h : Config.reportRoom + 16 ≤ freeBytes c) : (endComplete c).link.reports =
    c.link.reports ++ [imageEnd c, .event (.bootComplete false)] ++ (c.boot.report.map fun x => .event x.event).toList := by
  have hfreeEnded : freeBytes (imageEnded c) = freeBytes c - 11 := freeBytes_of_append (imageEnded_reports c)
  have hcomplete := queueEvent_reports_of_room (e := .bootComplete false) (c := imageEnded c) (by omega)
  have hfreeComplete : freeBytes (queueEvent (.bootComplete false) (imageEnded c)) = freeBytes (imageEnded c) - 5 :=
    freeBytes_of_append hcomplete
  rw [endComplete_eq, queuePending_reports_of_room (by omega), hcomplete, imageEnded_reports]
  simp

/-! ## BOOT FETCH (R167, R168) -/

/-- A BOOT FETCH that is taken is answered by the Boot Server behind the stream rules. -/
theorem exec_bootFetch_taken {s : State} (h : Taken s) {p : List Byte} (hp : p.length = 3) :
    exec (.bootFetch p) s = .next (s.withChip (bootFetchChip p (streamRules (.bootFetch p) s.chip))) :=
  have hne : p ≠ [] := by rintro rfl; simp at hp
  congrArg Host.Outcome.next (ownedChip_taken h _ hne _)

/-- The last branch of R167: a valid image, and a chunk at or past its length. -/
theorem bootFetchChip_past {p : List Byte} {c : Chip} (hp : p.length = 3) (hserving : c.boot.state = .serving)
    (hchunk : c.boot.chunk = none) (hvalid : c.boot.result = .valid) (hpast : c.boot.length.getD 0 ≤ numAt p 1 2 * 128) :
    bootFetchChip p c = endComplete (reply p .accepted c) := by
  simp [bootFetchChip, withLength, hp, hserving, hchunk, hvalid, Nat.not_lt.mpr hpast]

/-- Settles O45: the REPLY and BOOT END need no room (`imageEnd_prefix_endComplete`), and of the 300 bytes free the REPLY takes 5,
which leaves the events theirs (`endComplete_reports_of_room`). -/
theorem bootFetchPastTheImage : Obligations.BootFetchPastTheImage := by
  unfold Obligations.BootFetchPastTheImage
  refine ⟨fun p s htaken hp => ?_, fun n => by omega, rfl, by decide⟩
  intro c reports hserving hchunk hvalid hpast
  let replied := reply p .accepted c
  have hreplied : replied.link.reports = c.link.reports ++ [.reply (refOf p) .accepted] := reply_reports p _ c
  have hend : imageEnd replied = .bootEnd true none (c.boot.length.getD 0) (c.boot.checksum.getD 0) := by
    simp [imageEnd, replied]
  have hexec : exec (.bootFetch p) s = .next (s.withChip (endComplete replied)) := by
    rw [exec_bootFetch_taken htaken hp, bootFetchChip_past hp hserving hchunk hvalid hpast]
  refine ⟨_, hexec, ?boot, ?firstTwo, ?room, ?pool, ?store, rfl⟩
  case boot => simp [replied]
  case pool => simp [replied]
  case store => simp [replied]
  case firstTwo =>
    have hprefix : c.link.reports ++ reports <+: (endComplete replied).link.reports := by
      simpa [hreplied, hend, reports] using imageEnd_prefix_endComplete replied
    simpa [reports] using (List.prefix_iff_eq_take.mp hprefix).symm
  case room =>
    intro hfree
    have hfreeReplied : freeBytes replied = freeBytes c - 5 := freeBytes_of_append hreplied
    have hroom : Config.reportRoom + 16 ≤ freeBytes replied := by
      rw [hfreeReplied]
      exact Nat.le_sub_of_add_le (le_trans (by decide) hfree)
    have hboot : replied.boot = c.boot := reply_boot p _ c
    simp only [endComplete_reports_of_room hroom, hreplied, hend, hboot, reports]
    cases c.boot.report with
    | none => simp
    | some x => simp

end Sys2Proof.Proofs
end

section
/-!
PROOFS. ATTENTION MODE (10_the_page_link.md 10.6): the directive (R185), and the level of ATN in the two modes (R184).
-/
namespace Sys2Proof.Proofs

open Sys2Proof Sys2Proof.Machine

/-! ## ATN in the two modes (R184) -/

@[simp] theorem queueRecord_pulseMode (x : Report) (c : Chip) : (queueRecord x c).link.pulseMode = c.link.pulseMode := by
  obtain ⟨_, h⟩ := queueRecord_eq x c; rw [h]

@[simp] theorem reply_pulseMode (p : List Byte) (a : Answer) (c : Chip) :
    (reply p a c).link.pulseMode = c.link.pulseMode := queueRecord_pulseMode _ c

theorem atnAsserted_of_level {c : Chip} (h : c.link.pulseMode = false) :
    atnAsserted c = (!c.link.reports.isEmpty || linkOutReady c) := by
  simp [atnAsserted, h]

theorem atnAsserted_of_pulse {c : Chip} (h : c.link.pulseMode = true) : atnAsserted c = decide (0 < c.link.atnLeft) := by
  simp [atnAsserted, h]

/-- The REPLY is itself a record that waits. -/
theorem atnAsserted_reply_of_level {c : Chip} (h : c.link.pulseMode = false) (a : Answer) (p : List Byte) :
    atnAsserted (reply p a c) = true := by
  rw [atnAsserted_of_level ((reply_pulseMode p a c).trans h), reply_reports]
  simp

/-- In PULSE mode with no pulse under way ATN is released, whatever records wait. -/
theorem atnAsserted_pulse_idle {c : Chip} (h : c.link.atnLeft = 0) :
    atnAsserted { c with link := { c.link with pulseMode := true } } = false := by
  rw [atnAsserted_of_pulse rfl]
  simp [h]

/-! ## The directive (R185) -/

/-- A mode byte LEVEL or PULSE: the mode is set before the REPLY is queued. -/
theorem attentionChip_of_mode {p : List Byte} {m : Bool} (hlength : p.length = 2) (hmode : yesNoOf (numAt p 1 1) = some m)
    (c : Chip) : attentionChip p c =
      reply p .accepted { c with link := { c.link with pulseMode := m, atnLeft := if m then c.link.atnLeft else 0 } } := by
  simp [attentionChip, withLength, hlength, hmode]

theorem attentionChip_malformed {p : List Byte} (h : p.length ≠ 2 ∨ yesNoOf (numAt p 1 1) = none) (c : Chip) :
    attentionChip p c = refuse p .malformed c := by
  unfold attentionChip withLength
  split
  next hlength => rw [h.resolve_left (not_not_intro hlength)]
  next => rfl

/-- An ATTENTION MODE that is taken is answered by its owner behind the stream rules. The empty payload, which is refused before its
owner sees it (R179), is no exception: the owner would refuse it alike. -/
theorem exec_attentionMode_taken {s : State} (h : Taken s) (p : List Byte) :
    exec (.attentionMode p) s = .next (s.withChip (attentionChip p (streamRules (.attentionMode p) s.chip))) := by
  refine congrArg Host.Outcome.next (?_ : arrive (.attentionMode p) (ownedChip p (attentionChip p)) s = _)
  cases p with
  | nil => rw [ownedChip_empty h, attentionChip_malformed (.inl (by decide))]
  | cons b bs => exact ownedChip_taken h _ (List.cons_ne_nil b bs) _

/-- Settles O29: both answers are the owner's (`exec_attentionMode_taken`), and ATN follows from the mode and the pulse time left. -/
theorem attentionModeIsTakenInEveryState : Obligations.AttentionModeIsTakenInEveryState := by
  unfold Obligations.AttentionModeIsTakenInEveryState
  refine ⟨?accepted, ?malformed, fun a p _ h => atnAsserted_reply_of_level h a p, fun _ => atnAsserted_pulse_idle⟩
  case accepted =>
    intro p m s htaken hlength hmode
    rw [exec_attentionMode_taken htaken, attentionChip_of_mode hlength hmode]
  case malformed =>
    intro p s htaken hbad
    rw [exec_attentionMode_taken htaken, attentionChip_malformed hbad]

end Sys2Proof.Proofs
end

section
/-!
PROOFS. What each shared operation touches of the part. A lemma `f_eq` writes the part after `f` as the part before with the touched fields
replaced; `f_frame` states the fields that stand one by one, for `simp`.
-/

-- One declaration after another: the package as one text keeps within the check's limit on threads.
set_option Elab.async false

namespace Sys2Proof.Proofs

open Sys2Proof Sys2Proof.Machine

/-! ## Routes -/

theorem modCtx_eq (r : Nat) (f : Ctx → Ctx) (c : Chip) : ∃ rs, modCtx r f c = { c with routes := rs } := by
  unfold modCtx
  split <;> exact ⟨_, rfl⟩

theorem haltRoute_eq (r : Nat) (h : Halt) (c : Chip) : ∃ rs, haltRoute r h c = { c with routes := rs } := by
  unfold haltRoute
  split <;> exact ⟨_, rfl⟩

@[simp] theorem modCtx_frame (r : Nat) (f : Ctx → Ctx) (c : Chip) :
    (modCtx r f c).pins = c.pins ∧ (modCtx r f c).pool = c.pool ∧ (modCtx r f c).runOut = c.runOut ∧ (modCtx r f c).scan = c.scan ∧
    (modCtx r f c).tables = c.tables ∧ (modCtx r f c).scanCh = c.scanCh ∧ (modCtx r f c).printCh = c.printCh ∧
    (modCtx r f c).head = c.head ∧ (modCtx r f c).heat = c.heat ∧ (modCtx r f c).linkIn = c.linkIn ∧ (modCtx r f c).linkOut = c.linkOut ∧
    (modCtx r f c).store = c.store ∧ (modCtx r f c).prot = c.prot ∧ (modCtx r f c).power = c.power ∧ (modCtx r f c).boot = c.boot ∧
    (modCtx r f c).link = c.link := by
  obtain ⟨_, h⟩ := modCtx_eq r f c; simp [h]

@[simp] theorem haltRoute_frame (r : Nat) (h : Halt) (c : Chip) :
    (haltRoute r h c).pins = c.pins ∧ (haltRoute r h c).pool = c.pool ∧ (haltRoute r h c).runOut = c.runOut ∧
    (haltRoute r h c).scan = c.scan ∧ (haltRoute r h c).tables = c.tables ∧ (haltRoute r h c).scanCh = c.scanCh ∧
    (haltRoute r h c).printCh = c.printCh ∧ (haltRoute r h c).head = c.head ∧ (haltRoute r h c).heat = c.heat ∧
    (haltRoute r h c).linkIn = c.linkIn ∧ (haltRoute r h c).linkOut = c.linkOut ∧ (haltRoute r h c).store = c.store ∧
    (haltRoute r h c).prot = c.prot ∧ (haltRoute r h c).power = c.power ∧ (haltRoute r h c).boot = c.boot ∧
    (haltRoute r h c).link = c.link := by
  obtain ⟨_, e⟩ := haltRoute_eq r h c; simp [e]

@[simp] theorem addStall_frame (r : Nat) (s : Stall) (c : Chip) :
    (addStall r s c).pins = c.pins ∧ (addStall r s c).pool = c.pool ∧ (addStall r s c).runOut = c.runOut ∧ (addStall r s c).scan = c.scan ∧
    (addStall r s c).tables = c.tables ∧ (addStall r s c).scanCh = c.scanCh ∧ (addStall r s c).printCh = c.printCh ∧
    (addStall r s c).head = c.head ∧ (addStall r s c).heat = c.heat ∧ (addStall r s c).linkIn = c.linkIn ∧
    (addStall r s c).linkOut = c.linkOut ∧ (addStall r s c).store = c.store ∧ (addStall r s c).prot = c.prot ∧
    (addStall r s c).power = c.power ∧ (addStall r s c).boot = c.boot ∧ (addStall r s c).link = c.link := by
  simp [addStall]

@[simp] theorem dropStall_frame (r : Nat) (s : Stall) (c : Chip) :
    (dropStall r s c).pins = c.pins ∧ (dropStall r s c).pool = c.pool ∧ (dropStall r s c).runOut = c.runOut ∧
    (dropStall r s c).scan = c.scan ∧ (dropStall r s c).tables = c.tables ∧ (dropStall r s c).scanCh = c.scanCh ∧
    (dropStall r s c).printCh = c.printCh ∧ (dropStall r s c).head = c.head ∧ (dropStall r s c).heat = c.heat ∧
    (dropStall r s c).linkIn = c.linkIn ∧ (dropStall r s c).linkOut = c.linkOut ∧ (dropStall r s c).store = c.store ∧
    (dropStall r s c).prot = c.prot ∧ (dropStall r s c).power = c.power ∧ (dropStall r s c).boot = c.boot ∧
    (dropStall r s c).link = c.link := by
  simp [dropStall]

@[simp] theorem markReported_frame (p : Nat → Ctx → Bool) (c : Chip) :
    (markReported p c).pins = c.pins ∧ (markReported p c).pool = c.pool ∧ (markReported p c).runOut = c.runOut ∧
    (markReported p c).scan = c.scan ∧ (markReported p c).tables = c.tables ∧ (markReported p c).scanCh = c.scanCh ∧
    (markReported p c).printCh = c.printCh ∧ (markReported p c).head = c.head ∧ (markReported p c).heat = c.heat ∧
    (markReported p c).linkIn = c.linkIn ∧ (markReported p c).linkOut = c.linkOut ∧ (markReported p c).store = c.store ∧
    (markReported p c).prot = c.prot ∧ (markReported p c).power = c.power ∧ (markReported p c).boot = c.boot ∧
    (markReported p c).link = c.link := by
  simp [markReported]

/-! ## The report queue -/

theorem recordReady_eq (c : Chip) : ∃ atnLeft, recordReady c = { c with link := { c.link with atnLeft := atnLeft } } := by
  unfold recordReady
  split <;> exact ⟨_, rfl⟩

theorem queueCredit_eq (r v : Nat) (c : Chip) : ∃ reports atnLeft,
    queueCredit r v c = { c with link := { c.link with reports := reports, atnLeft := atnLeft } } := by
  unfold queueCredit
  split
  · exact ⟨_, _, rfl⟩
  · obtain ⟨_, h⟩ := queueRecord_eq (.credit r v) c
    exact ⟨_, _, h⟩

/-- An event touches of the Page Link Interface the queue, events lost and the attention pulse alone. -/
theorem queueEvent_link_eq (e : Event) (c : Chip) : ∃ routes reports lost atnLeft, queueEvent e c =
    { c with routes := routes, link := { c.link with reports := reports, eventsLost := lost, atnLeft := atnLeft } } := by
  unfold queueEvent
  split
  · obtain ⟨_, hrecord⟩ := queueRecord_eq (.event e) c
    obtain ⟨_, hhalts⟩ := reportHalts_eq e (queueRecord (.event e) c)
    rw [hhalts, hrecord]
    exact ⟨_, _, _, _, rfl⟩
  · exact ⟨_, _, _, _, rfl⟩

theorem syncCredit_eq (r : Nat) (c : Chip) : ∃ routes reports atnLeft,
    syncCredit r c = { c with routes := routes, link := { c.link with reports := reports, atnLeft := atnLeft } } := by
  unfold syncCredit
  split
  · exact ⟨_, _, _, rfl⟩
  next x _ =>
    split
    · obtain ⟨_, _, h⟩ := queueCredit_eq r (x.quota - charged c r)
        (modCtx r (fun y => { y with creditGranted := some (y.quota - charged c r) }) c)
      obtain ⟨_, k⟩ := modCtx_eq r (fun y => { y with creditGranted := some (y.quota - charged c r) }) c
      rw [h, k]
      exact ⟨_, _, _, rfl⟩
    · exact ⟨_, _, _, rfl⟩

@[simp] theorem recordReady_frame  (c : Chip) :
    (recordReady c).pins = c.pins ∧ (recordReady c).pool = c.pool ∧ (recordReady c).routes = c.routes ∧ (recordReady c).runOut = c.runOut ∧
    (recordReady c).scan = c.scan ∧ (recordReady c).tables = c.tables ∧ (recordReady c).scanCh = c.scanCh ∧
    (recordReady c).printCh = c.printCh ∧ (recordReady c).head = c.head ∧ (recordReady c).heat = c.heat ∧
    (recordReady c).linkIn = c.linkIn ∧ (recordReady c).linkOut = c.linkOut ∧ (recordReady c).store = c.store ∧
    (recordReady c).prot = c.prot ∧ (recordReady c).power = c.power ∧ (recordReady c).boot = c.boot ∧
    (recordReady c).link.parser = c.link.parser ∧ (recordReady c).link.held = c.link.held ∧ (recordReady c).link.reports = c.link.reports ∧
    (recordReady c).link.eventsLost = c.link.eventsLost ∧ (recordReady c).link.pulseMode = c.link.pulseMode ∧
    (recordReady c).link.selected = c.link.selected ∧ (recordReady c).link.listing = c.link.listing ∧ (recordReady c).link.up = c.link.up ∧
    (recordReady c).link.sent = c.link.sent ∧ (recordReady c).link.cut = c.link.cut := by
  obtain ⟨_, h⟩ := recordReady_eq c; simp [h]

@[simp] theorem queueRecord_frame (x : Report) (c : Chip) :
    (queueRecord x c).pins = c.pins ∧ (queueRecord x c).pool = c.pool ∧ (queueRecord x c).routes = c.routes ∧
    (queueRecord x c).runOut = c.runOut ∧ (queueRecord x c).scan = c.scan ∧ (queueRecord x c).tables = c.tables ∧
    (queueRecord x c).scanCh = c.scanCh ∧ (queueRecord x c).printCh = c.printCh ∧ (queueRecord x c).head = c.head ∧
    (queueRecord x c).heat = c.heat ∧ (queueRecord x c).linkIn = c.linkIn ∧ (queueRecord x c).linkOut = c.linkOut ∧
    (queueRecord x c).store = c.store ∧ (queueRecord x c).prot = c.prot ∧ (queueRecord x c).power = c.power ∧
    (queueRecord x c).boot = c.boot ∧ (queueRecord x c).link.parser = c.link.parser ∧ (queueRecord x c).link.held = c.link.held ∧
    (queueRecord x c).link.eventsLost = c.link.eventsLost ∧ (queueRecord x c).link.pulseMode = c.link.pulseMode ∧
    (queueRecord x c).link.selected = c.link.selected ∧ (queueRecord x c).link.listing = c.link.listing ∧
    (queueRecord x c).link.up = c.link.up ∧ (queueRecord x c).link.sent = c.link.sent ∧ (queueRecord x c).link.cut = c.link.cut := by
  obtain ⟨_, h⟩ := queueRecord_eq x c; simp [h]

@[simp] theorem reply_frame (p : List Byte) (a : Answer) (c : Chip) :
    (reply p a c).pins = c.pins ∧ (reply p a c).pool = c.pool ∧ (reply p a c).routes = c.routes ∧ (reply p a c).runOut = c.runOut ∧
    (reply p a c).scan = c.scan ∧ (reply p a c).tables = c.tables ∧ (reply p a c).scanCh = c.scanCh ∧ (reply p a c).printCh = c.printCh ∧
    (reply p a c).head = c.head ∧ (reply p a c).heat = c.heat ∧ (reply p a c).linkIn = c.linkIn ∧ (reply p a c).linkOut = c.linkOut ∧
    (reply p a c).store = c.store ∧ (reply p a c).prot = c.prot ∧ (reply p a c).power = c.power ∧ (reply p a c).boot = c.boot ∧
    (reply p a c).link.parser = c.link.parser ∧ (reply p a c).link.held = c.link.held ∧ (reply p a c).link.eventsLost = c.link.eventsLost ∧
    (reply p a c).link.pulseMode = c.link.pulseMode ∧ (reply p a c).link.selected = c.link.selected ∧
    (reply p a c).link.listing = c.link.listing ∧ (reply p a c).link.up = c.link.up ∧ (reply p a c).link.sent = c.link.sent ∧
    (reply p a c).link.cut = c.link.cut := by
  simp [reply]

@[simp] theorem refuse_frame (p : List Byte) (r : Reason) (c : Chip) :
    (refuse p r c).pins = c.pins ∧ (refuse p r c).pool = c.pool ∧ (refuse p r c).routes = c.routes ∧ (refuse p r c).runOut = c.runOut ∧
    (refuse p r c).scan = c.scan ∧ (refuse p r c).tables = c.tables ∧ (refuse p r c).scanCh = c.scanCh ∧
    (refuse p r c).printCh = c.printCh ∧ (refuse p r c).head = c.head ∧ (refuse p r c).heat = c.heat ∧ (refuse p r c).linkIn = c.linkIn ∧
    (refuse p r c).linkOut = c.linkOut ∧ (refuse p r c).store = c.store ∧ (refuse p r c).prot = c.prot ∧ (refuse p r c).power = c.power ∧
    (refuse p r c).boot = c.boot ∧ (refuse p r c).link.parser = c.link.parser ∧ (refuse p r c).link.held = c.link.held ∧
    (refuse p r c).link.eventsLost = c.link.eventsLost ∧ (refuse p r c).link.pulseMode = c.link.pulseMode ∧
    (refuse p r c).link.selected = c.link.selected ∧ (refuse p r c).link.listing = c.link.listing ∧ (refuse p r c).link.up = c.link.up ∧
    (refuse p r c).link.sent = c.link.sent ∧ (refuse p r c).link.cut = c.link.cut := by
  simp [refuse]

@[simp] theorem refuse_reports (p : List Byte) (r : Reason) (c : Chip) :
    (refuse p r c).link.reports = c.link.reports ++ [.reply (refOf p) (.refused r)] := reply_reports _ _ _

@[simp] theorem queueCredit_frame (r v : Nat) (c : Chip) :
    (queueCredit r v c).pins = c.pins ∧ (queueCredit r v c).pool = c.pool ∧ (queueCredit r v c).routes = c.routes ∧
    (queueCredit r v c).runOut = c.runOut ∧ (queueCredit r v c).scan = c.scan ∧ (queueCredit r v c).tables = c.tables ∧
    (queueCredit r v c).scanCh = c.scanCh ∧ (queueCredit r v c).printCh = c.printCh ∧ (queueCredit r v c).head = c.head ∧
    (queueCredit r v c).heat = c.heat ∧ (queueCredit r v c).linkIn = c.linkIn ∧ (queueCredit r v c).linkOut = c.linkOut ∧
    (queueCredit r v c).store = c.store ∧ (queueCredit r v c).prot = c.prot ∧ (queueCredit r v c).power = c.power ∧
    (queueCredit r v c).boot = c.boot ∧ (queueCredit r v c).link.parser = c.link.parser ∧ (queueCredit r v c).link.held = c.link.held ∧
    (queueCredit r v c).link.eventsLost = c.link.eventsLost ∧ (queueCredit r v c).link.pulseMode = c.link.pulseMode ∧
    (queueCredit r v c).link.selected = c.link.selected ∧ (queueCredit r v c).link.listing = c.link.listing ∧
    (queueCredit r v c).link.up = c.link.up ∧ (queueCredit r v c).link.sent = c.link.sent ∧ (queueCredit r v c).link.cut = c.link.cut := by
  obtain ⟨_, _, h⟩ := queueCredit_eq r v c; simp [h]

@[simp] theorem queueEvent_frame (e : Event) (c : Chip) :
    (queueEvent e c).pins = c.pins ∧ (queueEvent e c).pool = c.pool ∧ (queueEvent e c).runOut = c.runOut ∧ (queueEvent e c).scan = c.scan ∧
    (queueEvent e c).tables = c.tables ∧ (queueEvent e c).scanCh = c.scanCh ∧ (queueEvent e c).printCh = c.printCh ∧
    (queueEvent e c).head = c.head ∧ (queueEvent e c).heat = c.heat ∧ (queueEvent e c).linkIn = c.linkIn ∧
    (queueEvent e c).linkOut = c.linkOut ∧ (queueEvent e c).store = c.store ∧ (queueEvent e c).prot = c.prot ∧
    (queueEvent e c).power = c.power ∧ (queueEvent e c).boot = c.boot ∧ (queueEvent e c).link.parser = c.link.parser ∧
    (queueEvent e c).link.held = c.link.held ∧ (queueEvent e c).link.pulseMode = c.link.pulseMode ∧
    (queueEvent e c).link.selected = c.link.selected ∧ (queueEvent e c).link.listing = c.link.listing ∧
    (queueEvent e c).link.up = c.link.up ∧ (queueEvent e c).link.sent = c.link.sent ∧ (queueEvent e c).link.cut = c.link.cut := by
  obtain ⟨_, _, _, _, h⟩ := queueEvent_link_eq e c; simp [h]

@[simp] theorem syncCredit_frame (r : Nat) (c : Chip) :
    (syncCredit r c).pins = c.pins ∧ (syncCredit r c).pool = c.pool ∧ (syncCredit r c).runOut = c.runOut ∧ (syncCredit r c).scan = c.scan ∧
    (syncCredit r c).tables = c.tables ∧ (syncCredit r c).scanCh = c.scanCh ∧ (syncCredit r c).printCh = c.printCh ∧
    (syncCredit r c).head = c.head ∧ (syncCredit r c).heat = c.heat ∧ (syncCredit r c).linkIn = c.linkIn ∧
    (syncCredit r c).linkOut = c.linkOut ∧ (syncCredit r c).store = c.store ∧ (syncCredit r c).prot = c.prot ∧
    (syncCredit r c).power = c.power ∧ (syncCredit r c).boot = c.boot ∧ (syncCredit r c).link.parser = c.link.parser ∧
    (syncCredit r c).link.held = c.link.held ∧ (syncCredit r c).link.eventsLost = c.link.eventsLost ∧
    (syncCredit r c).link.pulseMode = c.link.pulseMode ∧ (syncCredit r c).link.selected = c.link.selected ∧
    (syncCredit r c).link.listing = c.link.listing ∧ (syncCredit r c).link.up = c.link.up ∧ (syncCredit r c).link.sent = c.link.sent ∧
    (syncCredit r c).link.cut = c.link.cut := by
  obtain ⟨_, _, _, h⟩ := syncCredit_eq r c; simp [h]

@[simp] theorem queuePending_frame  (c : Chip) :
    (queuePending c).pins = c.pins ∧ (queuePending c).pool = c.pool ∧ (queuePending c).runOut = c.runOut ∧ (queuePending c).scan = c.scan ∧
    (queuePending c).tables = c.tables ∧ (queuePending c).scanCh = c.scanCh ∧ (queuePending c).printCh = c.printCh ∧
    (queuePending c).head = c.head ∧ (queuePending c).heat = c.heat ∧ (queuePending c).linkIn = c.linkIn ∧
    (queuePending c).linkOut = c.linkOut ∧ (queuePending c).store = c.store ∧ (queuePending c).prot = c.prot ∧
    (queuePending c).power = c.power ∧ (queuePending c).link.parser = c.link.parser ∧ (queuePending c).link.held = c.link.held ∧
    (queuePending c).link.pulseMode = c.link.pulseMode ∧ (queuePending c).link.selected = c.link.selected ∧
    (queuePending c).link.listing = c.link.listing ∧ (queuePending c).link.up = c.link.up ∧ (queuePending c).link.sent = c.link.sent ∧
    (queuePending c).link.cut = c.link.cut := by
  unfold queuePending; split <;> simp

@[simp] theorem programFailed_frame (b : Nat) (c : Chip) :
    (programFailed b c).pins = c.pins ∧ (programFailed b c).pool = c.pool ∧ (programFailed b c).runOut = c.runOut ∧
    (programFailed b c).scan = c.scan ∧ (programFailed b c).tables = c.tables ∧ (programFailed b c).scanCh = c.scanCh ∧
    (programFailed b c).printCh = c.printCh ∧ (programFailed b c).head = c.head ∧ (programFailed b c).heat = c.heat ∧
    (programFailed b c).linkIn = c.linkIn ∧ (programFailed b c).linkOut = c.linkOut ∧ (programFailed b c).prot = c.prot ∧
    (programFailed b c).power = c.power ∧ (programFailed b c).boot = c.boot ∧ (programFailed b c).link.parser = c.link.parser ∧
    (programFailed b c).link.held = c.link.held ∧ (programFailed b c).link.pulseMode = c.link.pulseMode ∧
    (programFailed b c).link.selected = c.link.selected ∧ (programFailed b c).link.listing = c.link.listing ∧
    (programFailed b c).link.up = c.link.up ∧ (programFailed b c).link.sent = c.link.sent ∧ (programFailed b c).link.cut = c.link.cut := by
  simp [programFailed]

/-! ## The pool -/

theorem returnSlot_eq (n : Nat) (c : Chip) : ∃ pool routes reports atnLeft, returnSlot n c =
    { c with pool := pool, routes := routes, link := { c.link with reports := reports, atnLeft := atnLeft } } := by
  unfold returnSlot
  split
  · exact ⟨_, _, _, _, rfl⟩
  · dsimp only
    split
    next r _ =>
      obtain ⟨_, _, _, h⟩ := syncCredit_eq r
        { c with pool := { slots := c.pool.slots.set n .free, freeList := c.pool.freeList ++ [n] } }
      rw [h]
      exact ⟨_, _, _, _, rfl⟩
    · exact ⟨_, _, _, _, rfl⟩

theorem returnSlots_eq (ns : List Nat) (c : Chip) : ∃ pool routes reports atnLeft, returnSlots ns c =
    { c with pool := pool, routes := routes, link := { c.link with reports := reports, atnLeft := atnLeft } } := by
  unfold returnSlots
  induction ns generalizing c with
  | nil => exact ⟨_, _, _, _, rfl⟩
  | cons n ns ih =>
    obtain ⟨_, _, _, _, h⟩ := returnSlot_eq n c
    obtain ⟨_, _, _, _, k⟩ := ih (returnSlot n c)
    rw [List.foldl_cons, k, h]
    exact ⟨_, _, _, _, rfl⟩

theorem setSlot_eq (n : Nat) (x : Slot) (c : Chip) : ∃ pool, setSlot n x c = { c with pool := pool } := by
  unfold setSlot
  split <;> exact ⟨_, rfl⟩

theorem dropReference_eq (n : Nat) (c : Chip) : ∃ pool routes reports atnLeft, dropReference n c =
    { c with pool := pool, routes := routes, link := { c.link with reports := reports, atnLeft := atnLeft } } := by
  unfold dropReference
  split
  · split
    · exact returnSlot_eq n c
    next r refs l _ _ =>
      obtain ⟨_, h⟩ := setSlot_eq n (.held r (refs - 1) l) c
      rw [h]
      exact ⟨_, _, _, _, rfl⟩
  · exact ⟨_, _, _, _, rfl⟩

theorem returnReservations_eq (r : Nat) (c : Chip) : ∃ pool routes reports atnLeft, returnReservations r c =
    { c with pool := pool, routes := routes, link := { c.link with reports := reports, atnLeft := atnLeft } } := by
  unfold returnReservations
  split
  · exact ⟨_, _, _, _, rfl⟩
  next x _ =>
    obtain ⟨_, _, _, _, h⟩ := returnSlots_eq x.reservations (modCtx r (fun x => { x with reservations := [] }) c)
    obtain ⟨_, k⟩ := modCtx_eq r (fun x => { x with reservations := [] }) c
    rw [h, k]
    exact ⟨_, _, _, _, rfl⟩

@[simp] theorem returnSlot_frame (n : Nat) (c : Chip) :
    (returnSlot n c).pins = c.pins ∧ (returnSlot n c).runOut = c.runOut ∧ (returnSlot n c).scan = c.scan ∧
    (returnSlot n c).tables = c.tables ∧ (returnSlot n c).scanCh = c.scanCh ∧ (returnSlot n c).printCh = c.printCh ∧
    (returnSlot n c).head = c.head ∧ (returnSlot n c).heat = c.heat ∧ (returnSlot n c).linkIn = c.linkIn ∧
    (returnSlot n c).linkOut = c.linkOut ∧ (returnSlot n c).store = c.store ∧ (returnSlot n c).prot = c.prot ∧
    (returnSlot n c).power = c.power ∧ (returnSlot n c).boot = c.boot ∧ (returnSlot n c).link.parser = c.link.parser ∧
    (returnSlot n c).link.held = c.link.held ∧ (returnSlot n c).link.eventsLost = c.link.eventsLost ∧
    (returnSlot n c).link.pulseMode = c.link.pulseMode ∧ (returnSlot n c).link.selected = c.link.selected ∧
    (returnSlot n c).link.listing = c.link.listing ∧ (returnSlot n c).link.up = c.link.up ∧ (returnSlot n c).link.sent = c.link.sent ∧
    (returnSlot n c).link.cut = c.link.cut := by
  obtain ⟨_, _, _, _, h⟩ := returnSlot_eq n c; simp [h]

@[simp] theorem returnSlots_frame (ns : List Nat) (c : Chip) :
    (returnSlots ns c).pins = c.pins ∧ (returnSlots ns c).runOut = c.runOut ∧ (returnSlots ns c).scan = c.scan ∧
    (returnSlots ns c).tables = c.tables ∧ (returnSlots ns c).scanCh = c.scanCh ∧ (returnSlots ns c).printCh = c.printCh ∧
    (returnSlots ns c).head = c.head ∧ (returnSlots ns c).heat = c.heat ∧ (returnSlots ns c).linkIn = c.linkIn ∧
    (returnSlots ns c).linkOut = c.linkOut ∧ (returnSlots ns c).store = c.store ∧ (returnSlots ns c).prot = c.prot ∧
    (returnSlots ns c).power = c.power ∧ (returnSlots ns c).boot = c.boot ∧ (returnSlots ns c).link.parser = c.link.parser ∧
    (returnSlots ns c).link.held = c.link.held ∧ (returnSlots ns c).link.eventsLost = c.link.eventsLost ∧
    (returnSlots ns c).link.pulseMode = c.link.pulseMode ∧ (returnSlots ns c).link.selected = c.link.selected ∧
    (returnSlots ns c).link.listing = c.link.listing ∧ (returnSlots ns c).link.up = c.link.up ∧
    (returnSlots ns c).link.sent = c.link.sent ∧ (returnSlots ns c).link.cut = c.link.cut := by
  obtain ⟨_, _, _, _, h⟩ := returnSlots_eq ns c; simp [h]

@[simp] theorem dropReference_frame (n : Nat) (c : Chip) :
    (dropReference n c).pins = c.pins ∧ (dropReference n c).runOut = c.runOut ∧ (dropReference n c).scan = c.scan ∧
    (dropReference n c).tables = c.tables ∧ (dropReference n c).scanCh = c.scanCh ∧ (dropReference n c).printCh = c.printCh ∧
    (dropReference n c).head = c.head ∧ (dropReference n c).heat = c.heat ∧ (dropReference n c).linkIn = c.linkIn ∧
    (dropReference n c).linkOut = c.linkOut ∧ (dropReference n c).store = c.store ∧ (dropReference n c).prot = c.prot ∧
    (dropReference n c).power = c.power ∧ (dropReference n c).boot = c.boot ∧ (dropReference n c).link.parser = c.link.parser ∧
    (dropReference n c).link.held = c.link.held ∧ (dropReference n c).link.eventsLost = c.link.eventsLost ∧
    (dropReference n c).link.pulseMode = c.link.pulseMode ∧ (dropReference n c).link.selected = c.link.selected ∧
    (dropReference n c).link.listing = c.link.listing ∧ (dropReference n c).link.up = c.link.up ∧
    (dropReference n c).link.sent = c.link.sent ∧ (dropReference n c).link.cut = c.link.cut := by
  obtain ⟨_, _, _, _, h⟩ := dropReference_eq n c; simp [h]

@[simp] theorem returnReservations_frame (r : Nat) (c : Chip) :
    (returnReservations r c).pins = c.pins ∧ (returnReservations r c).runOut = c.runOut ∧ (returnReservations r c).scan = c.scan ∧
    (returnReservations r c).tables = c.tables ∧ (returnReservations r c).scanCh = c.scanCh ∧
    (returnReservations r c).printCh = c.printCh ∧ (returnReservations r c).head = c.head ∧ (returnReservations r c).heat = c.heat ∧
    (returnReservations r c).linkIn = c.linkIn ∧ (returnReservations r c).linkOut = c.linkOut ∧ (returnReservations r c).store = c.store ∧
    (returnReservations r c).prot = c.prot ∧ (returnReservations r c).power = c.power ∧ (returnReservations r c).boot = c.boot ∧
    (returnReservations r c).link.parser = c.link.parser ∧ (returnReservations r c).link.held = c.link.held ∧
    (returnReservations r c).link.eventsLost = c.link.eventsLost ∧ (returnReservations r c).link.pulseMode = c.link.pulseMode ∧
    (returnReservations r c).link.selected = c.link.selected ∧ (returnReservations r c).link.listing = c.link.listing ∧
    (returnReservations r c).link.up = c.link.up ∧ (returnReservations r c).link.sent = c.link.sent ∧
    (returnReservations r c).link.cut = c.link.cut := by
  obtain ⟨_, _, _, _, h⟩ := returnReservations_eq r c; simp [h]

@[simp] theorem setSlot_frame (n : Nat) (x : Slot) (c : Chip) :
    (setSlot n x c).pins = c.pins ∧ (setSlot n x c).routes = c.routes ∧ (setSlot n x c).runOut = c.runOut ∧ (setSlot n x c).scan = c.scan ∧
    (setSlot n x c).tables = c.tables ∧ (setSlot n x c).scanCh = c.scanCh ∧ (setSlot n x c).printCh = c.printCh ∧
    (setSlot n x c).head = c.head ∧ (setSlot n x c).heat = c.heat ∧ (setSlot n x c).linkIn = c.linkIn ∧
    (setSlot n x c).linkOut = c.linkOut ∧ (setSlot n x c).store = c.store ∧ (setSlot n x c).prot = c.prot ∧
    (setSlot n x c).power = c.power ∧ (setSlot n x c).boot = c.boot ∧ (setSlot n x c).link = c.link := by
  obtain ⟨_, h⟩ := setSlot_eq n x c; simp [h]

/-! ## Supply requests -/

@[simp] theorem syncMotor_frame  (c : Chip) :
    (syncMotor c).pins = c.pins ∧ (syncMotor c).pool = c.pool ∧ (syncMotor c).routes = c.routes ∧ (syncMotor c).runOut = c.runOut ∧
    (syncMotor c).scan = c.scan ∧ (syncMotor c).tables = c.tables ∧ (syncMotor c).scanCh = c.scanCh ∧ (syncMotor c).printCh = c.printCh ∧
    (syncMotor c).head = c.head ∧ (syncMotor c).heat = c.heat ∧ (syncMotor c).linkIn = c.linkIn ∧ (syncMotor c).linkOut = c.linkOut ∧
    (syncMotor c).store = c.store ∧ (syncMotor c).prot = c.prot ∧ (syncMotor c).boot = c.boot ∧ (syncMotor c).link = c.link := by
  simp [syncMotor]

@[simp] theorem takeHeadUse_frame  (c : Chip) :
    (takeHeadUse c).pins = c.pins ∧ (takeHeadUse c).pool = c.pool ∧ (takeHeadUse c).routes = c.routes ∧ (takeHeadUse c).runOut = c.runOut ∧
    (takeHeadUse c).scan = c.scan ∧ (takeHeadUse c).tables = c.tables ∧ (takeHeadUse c).scanCh = c.scanCh ∧
    (takeHeadUse c).printCh = c.printCh ∧ (takeHeadUse c).heat = c.heat ∧ (takeHeadUse c).linkIn = c.linkIn ∧
    (takeHeadUse c).linkOut = c.linkOut ∧ (takeHeadUse c).store = c.store ∧ (takeHeadUse c).prot = c.prot ∧ (takeHeadUse c).boot = c.boot ∧
    (takeHeadUse c).link = c.link := by
  simp [takeHeadUse]

@[simp] theorem takeLamp_frame  (c : Chip) :
    (takeLamp c).pins = c.pins ∧ (takeLamp c).pool = c.pool ∧ (takeLamp c).routes = c.routes ∧ (takeLamp c).runOut = c.runOut ∧
    (takeLamp c).tables = c.tables ∧ (takeLamp c).scanCh = c.scanCh ∧ (takeLamp c).printCh = c.printCh ∧ (takeLamp c).head = c.head ∧
    (takeLamp c).heat = c.heat ∧ (takeLamp c).linkIn = c.linkIn ∧ (takeLamp c).linkOut = c.linkOut ∧ (takeLamp c).store = c.store ∧
    (takeLamp c).prot = c.prot ∧ (takeLamp c).boot = c.boot ∧ (takeLamp c).link = c.link := by
  unfold takeLamp; split <;> simp

@[simp] theorem dropLamp_frame  (c : Chip) :
    (dropLamp c).pins = c.pins ∧ (dropLamp c).pool = c.pool ∧ (dropLamp c).routes = c.routes ∧ (dropLamp c).runOut = c.runOut ∧
    (dropLamp c).tables = c.tables ∧ (dropLamp c).scanCh = c.scanCh ∧ (dropLamp c).printCh = c.printCh ∧ (dropLamp c).head = c.head ∧
    (dropLamp c).heat = c.heat ∧ (dropLamp c).linkIn = c.linkIn ∧ (dropLamp c).linkOut = c.linkOut ∧ (dropLamp c).store = c.store ∧
    (dropLamp c).prot = c.prot ∧ (dropLamp c).boot = c.boot ∧ (dropLamp c).link = c.link := by
  unfold dropLamp; split <;> simp

/-! ## The flash arbiter -/

theorem suspendErase_eq {c d : Chip} (h : suspendErase c = some d) : ∃ st, d = { c with store := st } := by
  unfold suspendErase at h
  split at h
  next => exact ⟨_, (Option.some.inj h).symm⟩
  next =>
    split at h
    · exact ⟨_, (Option.some.inj h).symm⟩
    · exact ⟨_, (Option.some.inj h).symm⟩
    · split at h
      · exact ⟨_, (Option.some.inj h).symm⟩
      · cases h
    · exact ⟨_, (Option.some.inj h).symm⟩
    · cases h
    · cases h

theorem resumeErase_eq (c : Chip) : ∃ st, resumeErase c = { c with store := st } := by
  unfold resumeErase
  split
  · exact ⟨_, rfl⟩
  · split <;> exact ⟨_, rfl⟩

/-- The arbiter touches the Page Store alone. -/
theorem grant_eq (c : Chip) : ∃ st, grant c = { c with store := st } := by
  unfold grant
  split
  · exact ⟨_, rfl⟩
  · split
    · split
      · exact ⟨_, rfl⟩
      · split
        · split
          next h => obtain ⟨_, rfl⟩ := suspendErase_eq h; exact ⟨_, rfl⟩
          next => exact ⟨_, rfl⟩
        · split
          next h => obtain ⟨_, rfl⟩ := suspendErase_eq h; exact ⟨_, rfl⟩
          next => exact ⟨_, rfl⟩
        · exact resumeErase_eq c
    · split
      next h => obtain ⟨_, rfl⟩ := suspendErase_eq h; exact ⟨_, rfl⟩
      next => exact ⟨_, rfl⟩
    · exact resumeErase_eq c
    · exact ⟨_, rfl⟩

theorem askRead_eq (j : Job) (c : Chip) : ∃ st, askRead j c = { c with store := st } := grant_eq _

theorem askProgram_eq (j : Job) (c : Chip) : ∃ st, askProgram j c = { c with store := st } := grant_eq _

theorem freeFlash_eq (c : Chip) : ∃ st, freeFlash c = { c with store := st } := grant_eq _

theorem dropRead_eq (j : Job) (c : Chip) : ∃ st, dropRead j c = { c with store := st } := by
  unfold dropRead
  dsimp only
  split
  · exact freeFlash_eq _
  · exact ⟨_, rfl⟩

/-- Giving up the chunk in flight touches the store and the chunk alone (R164, R170). -/
theorem dropChunk_eq (c : Chip) : ∃ st, dropChunk c = { c with store := st, boot := { c.boot with chunk := none } } := by
  unfold dropChunk
  split
  next =>
    obtain ⟨st, h⟩ := dropRead_eq .imageRead { c with boot := { c.boot with chunk := none } }
    exact ⟨st, h⟩
  next h =>
    refine ⟨c.store, ?_⟩
    rw [← h]


@[simp] theorem grant_frame  (c : Chip) :
    (grant c).pins = c.pins ∧ (grant c).pool = c.pool ∧ (grant c).routes = c.routes ∧ (grant c).runOut = c.runOut ∧
    (grant c).scan = c.scan ∧ (grant c).tables = c.tables ∧ (grant c).scanCh = c.scanCh ∧ (grant c).printCh = c.printCh ∧
    (grant c).head = c.head ∧ (grant c).heat = c.heat ∧ (grant c).linkIn = c.linkIn ∧ (grant c).linkOut = c.linkOut ∧
    (grant c).prot = c.prot ∧ (grant c).power = c.power ∧ (grant c).boot = c.boot ∧ (grant c).link = c.link := by
  obtain ⟨_, h⟩ := grant_eq c; simp [h]

@[simp] theorem askRead_frame (j : Job) (c : Chip) :
    (askRead j c).pins = c.pins ∧ (askRead j c).pool = c.pool ∧ (askRead j c).routes = c.routes ∧ (askRead j c).runOut = c.runOut ∧
    (askRead j c).scan = c.scan ∧ (askRead j c).tables = c.tables ∧ (askRead j c).scanCh = c.scanCh ∧ (askRead j c).printCh = c.printCh ∧
    (askRead j c).head = c.head ∧ (askRead j c).heat = c.heat ∧ (askRead j c).linkIn = c.linkIn ∧ (askRead j c).linkOut = c.linkOut ∧
    (askRead j c).prot = c.prot ∧ (askRead j c).power = c.power ∧ (askRead j c).boot = c.boot ∧ (askRead j c).link = c.link := by
  obtain ⟨_, h⟩ := askRead_eq j c; simp [h]

@[simp] theorem askProgram_frame (j : Job) (c : Chip) :
    (askProgram j c).pins = c.pins ∧ (askProgram j c).pool = c.pool ∧ (askProgram j c).routes = c.routes ∧
    (askProgram j c).runOut = c.runOut ∧ (askProgram j c).scan = c.scan ∧ (askProgram j c).tables = c.tables ∧
    (askProgram j c).scanCh = c.scanCh ∧ (askProgram j c).printCh = c.printCh ∧ (askProgram j c).head = c.head ∧
    (askProgram j c).heat = c.heat ∧ (askProgram j c).linkIn = c.linkIn ∧ (askProgram j c).linkOut = c.linkOut ∧
    (askProgram j c).prot = c.prot ∧ (askProgram j c).power = c.power ∧ (askProgram j c).boot = c.boot ∧
    (askProgram j c).link = c.link := by
  obtain ⟨_, h⟩ := askProgram_eq j c; simp [h]

@[simp] theorem freeFlash_frame  (c : Chip) :
    (freeFlash c).pins = c.pins ∧ (freeFlash c).pool = c.pool ∧ (freeFlash c).routes = c.routes ∧ (freeFlash c).runOut = c.runOut ∧
    (freeFlash c).scan = c.scan ∧ (freeFlash c).tables = c.tables ∧ (freeFlash c).scanCh = c.scanCh ∧ (freeFlash c).printCh = c.printCh ∧
    (freeFlash c).head = c.head ∧ (freeFlash c).heat = c.heat ∧ (freeFlash c).linkIn = c.linkIn ∧ (freeFlash c).linkOut = c.linkOut ∧
    (freeFlash c).prot = c.prot ∧ (freeFlash c).power = c.power ∧ (freeFlash c).boot = c.boot ∧ (freeFlash c).link = c.link := by
  obtain ⟨_, h⟩ := freeFlash_eq c; simp [h]

@[simp] theorem dropRead_frame (j : Job) (c : Chip) :
    (dropRead j c).pins = c.pins ∧ (dropRead j c).pool = c.pool ∧ (dropRead j c).routes = c.routes ∧ (dropRead j c).runOut = c.runOut ∧
    (dropRead j c).scan = c.scan ∧ (dropRead j c).tables = c.tables ∧ (dropRead j c).scanCh = c.scanCh ∧
    (dropRead j c).printCh = c.printCh ∧ (dropRead j c).head = c.head ∧ (dropRead j c).heat = c.heat ∧ (dropRead j c).linkIn = c.linkIn ∧
    (dropRead j c).linkOut = c.linkOut ∧ (dropRead j c).prot = c.prot ∧ (dropRead j c).power = c.power ∧ (dropRead j c).boot = c.boot ∧
    (dropRead j c).link = c.link := by
  obtain ⟨_, h⟩ := dropRead_eq j c; simp [h]

@[simp] theorem resumeErase_frame  (c : Chip) :
    (resumeErase c).pins = c.pins ∧ (resumeErase c).pool = c.pool ∧ (resumeErase c).routes = c.routes ∧ (resumeErase c).runOut = c.runOut ∧
    (resumeErase c).scan = c.scan ∧ (resumeErase c).tables = c.tables ∧ (resumeErase c).scanCh = c.scanCh ∧
    (resumeErase c).printCh = c.printCh ∧ (resumeErase c).head = c.head ∧ (resumeErase c).heat = c.heat ∧
    (resumeErase c).linkIn = c.linkIn ∧ (resumeErase c).linkOut = c.linkOut ∧ (resumeErase c).prot = c.prot ∧
    (resumeErase c).power = c.power ∧ (resumeErase c).boot = c.boot ∧ (resumeErase c).link = c.link := by
  obtain ⟨_, h⟩ := resumeErase_eq c; simp [h]

@[simp] theorem dropChunk_frame  (c : Chip) :
    (dropChunk c).pins = c.pins ∧ (dropChunk c).pool = c.pool ∧ (dropChunk c).routes = c.routes ∧ (dropChunk c).runOut = c.runOut ∧
    (dropChunk c).scan = c.scan ∧ (dropChunk c).tables = c.tables ∧ (dropChunk c).scanCh = c.scanCh ∧ (dropChunk c).printCh = c.printCh ∧
    (dropChunk c).head = c.head ∧ (dropChunk c).heat = c.heat ∧ (dropChunk c).linkIn = c.linkIn ∧ (dropChunk c).linkOut = c.linkOut ∧
    (dropChunk c).prot = c.prot ∧ (dropChunk c).power = c.power ∧ (dropChunk c).link = c.link := by
  obtain ⟨_, h⟩ := dropChunk_eq c; simp [h]

@[simp] theorem dropChunk_boot (c : Chip) : (dropChunk c).boot = { c.boot with chunk := none } := by
  obtain ⟨_, h⟩ := dropChunk_eq c; simp [h]

@[simp] theorem setBlockState_frame (b : Nat) (x : BlockState) (c : Chip) :
    (setBlockState b x c).pins = c.pins ∧ (setBlockState b x c).pool = c.pool ∧ (setBlockState b x c).routes = c.routes ∧
    (setBlockState b x c).runOut = c.runOut ∧ (setBlockState b x c).scan = c.scan ∧ (setBlockState b x c).tables = c.tables ∧
    (setBlockState b x c).scanCh = c.scanCh ∧ (setBlockState b x c).printCh = c.printCh ∧ (setBlockState b x c).head = c.head ∧
    (setBlockState b x c).heat = c.heat ∧ (setBlockState b x c).linkIn = c.linkIn ∧ (setBlockState b x c).linkOut = c.linkOut ∧
    (setBlockState b x c).prot = c.prot ∧ (setBlockState b x c).power = c.power ∧ (setBlockState b x c).boot = c.boot ∧
    (setBlockState b x c).link = c.link := by
  simp [setBlockState]

@[simp] theorem joinErased_frame (b : Nat) (c : Chip) :
    (joinErased b c).pins = c.pins ∧ (joinErased b c).pool = c.pool ∧ (joinErased b c).routes = c.routes ∧
    (joinErased b c).runOut = c.runOut ∧ (joinErased b c).scan = c.scan ∧ (joinErased b c).tables = c.tables ∧
    (joinErased b c).scanCh = c.scanCh ∧ (joinErased b c).printCh = c.printCh ∧ (joinErased b c).head = c.head ∧
    (joinErased b c).heat = c.heat ∧ (joinErased b c).linkIn = c.linkIn ∧ (joinErased b c).linkOut = c.linkOut ∧
    (joinErased b c).prot = c.prot ∧ (joinErased b c).power = c.power ∧ (joinErased b c).boot = c.boot ∧
    (joinErased b c).link = c.link := by
  unfold joinErased; split <;> simp

@[simp] theorem joinEraseQueue_frame (b : Nat) (c : Chip) :
    (joinEraseQueue b c).pins = c.pins ∧ (joinEraseQueue b c).pool = c.pool ∧ (joinEraseQueue b c).routes = c.routes ∧
    (joinEraseQueue b c).runOut = c.runOut ∧ (joinEraseQueue b c).scan = c.scan ∧ (joinEraseQueue b c).tables = c.tables ∧
    (joinEraseQueue b c).scanCh = c.scanCh ∧ (joinEraseQueue b c).printCh = c.printCh ∧ (joinEraseQueue b c).head = c.head ∧
    (joinEraseQueue b c).heat = c.heat ∧ (joinEraseQueue b c).linkIn = c.linkIn ∧ (joinEraseQueue b c).linkOut = c.linkOut ∧
    (joinEraseQueue b c).prot = c.prot ∧ (joinEraseQueue b c).power = c.power ∧ (joinEraseQueue b c).boot = c.boot ∧
    (joinEraseQueue b c).link = c.link := by
  unfold joinEraseQueue; split <;> simp

/-! ## The stream rules -/

@[simp] theorem cancelSleep_frame (k : CancelCause) (c : Chip) :
    (cancelSleep k c).pins = c.pins ∧ (cancelSleep k c).pool = c.pool ∧ (cancelSleep k c).runOut = c.runOut ∧
    (cancelSleep k c).scan = c.scan ∧ (cancelSleep k c).tables = c.tables ∧ (cancelSleep k c).scanCh = c.scanCh ∧
    (cancelSleep k c).printCh = c.printCh ∧ (cancelSleep k c).head = c.head ∧ (cancelSleep k c).heat = c.heat ∧
    (cancelSleep k c).linkIn = c.linkIn ∧ (cancelSleep k c).linkOut = c.linkOut ∧ (cancelSleep k c).store = c.store ∧
    (cancelSleep k c).prot = c.prot ∧ (cancelSleep k c).boot = c.boot ∧ (cancelSleep k c).link.parser = c.link.parser ∧
    (cancelSleep k c).link.held = c.link.held ∧ (cancelSleep k c).link.pulseMode = c.link.pulseMode ∧
    (cancelSleep k c).link.selected = c.link.selected ∧ (cancelSleep k c).link.listing = c.link.listing ∧
    (cancelSleep k c).link.up = c.link.up ∧ (cancelSleep k c).link.sent = c.link.sent ∧ (cancelSleep k c).link.cut = c.link.cut := by
  unfold cancelSleep; split <;> simp

@[simp] theorem setupRule_frame (i : Instr) (c : Chip) :
    (setupRule i c).pins = c.pins ∧ (setupRule i c).pool = c.pool ∧ (setupRule i c).routes = c.routes ∧ (setupRule i c).runOut = c.runOut ∧
    (setupRule i c).scan = c.scan ∧ (setupRule i c).tables = c.tables ∧ (setupRule i c).scanCh = c.scanCh ∧
    (setupRule i c).printCh = c.printCh ∧ (setupRule i c).head = c.head ∧ (setupRule i c).heat = c.heat ∧
    (setupRule i c).linkIn = c.linkIn ∧ (setupRule i c).linkOut = c.linkOut ∧ (setupRule i c).prot = c.prot ∧
    (setupRule i c).power = c.power ∧ (setupRule i c).boot = c.boot ∧ (setupRule i c).link = c.link := by
  unfold setupRule; split
  · simp
  · split <;> simp

@[simp] theorem sleepRule_frame (i : Instr) (c : Chip) :
    (sleepRule i c).pins = c.pins ∧ (sleepRule i c).pool = c.pool ∧ (sleepRule i c).runOut = c.runOut ∧ (sleepRule i c).scan = c.scan ∧
    (sleepRule i c).tables = c.tables ∧ (sleepRule i c).scanCh = c.scanCh ∧ (sleepRule i c).printCh = c.printCh ∧
    (sleepRule i c).head = c.head ∧ (sleepRule i c).heat = c.heat ∧ (sleepRule i c).linkIn = c.linkIn ∧
    (sleepRule i c).linkOut = c.linkOut ∧ (sleepRule i c).store = c.store ∧ (sleepRule i c).prot = c.prot ∧ (sleepRule i c).boot = c.boot ∧
    (sleepRule i c).link.parser = c.link.parser ∧ (sleepRule i c).link.held = c.link.held ∧
    (sleepRule i c).link.pulseMode = c.link.pulseMode ∧ (sleepRule i c).link.selected = c.link.selected ∧
    (sleepRule i c).link.listing = c.link.listing ∧ (sleepRule i c).link.up = c.link.up ∧ (sleepRule i c).link.sent = c.link.sent ∧
    (sleepRule i c).link.cut = c.link.cut := by
  unfold sleepRule; split <;> simp

@[simp] theorem endServing_frame  (c : Chip) :
    (endServing c).pins = c.pins ∧ (endServing c).pool = c.pool ∧ (endServing c).runOut = c.runOut ∧ (endServing c).scan = c.scan ∧
    (endServing c).tables = c.tables ∧ (endServing c).scanCh = c.scanCh ∧ (endServing c).printCh = c.printCh ∧
    (endServing c).head = c.head ∧ (endServing c).heat = c.heat ∧ (endServing c).linkIn = c.linkIn ∧ (endServing c).linkOut = c.linkOut ∧
    (endServing c).prot = c.prot ∧ (endServing c).power = c.power ∧ (endServing c).link.parser = c.link.parser ∧
    (endServing c).link.held = c.link.held ∧ (endServing c).link.pulseMode = c.link.pulseMode ∧
    (endServing c).link.selected = c.link.selected ∧ (endServing c).link.listing = c.link.listing ∧ (endServing c).link.up = c.link.up ∧
    (endServing c).link.sent = c.link.sent ∧ (endServing c).link.cut = c.link.cut := by
  simp [endServing]

@[simp] theorem servingRule_frame (i : Instr) (c : Chip) :
    (servingRule i c).pins = c.pins ∧ (servingRule i c).pool = c.pool ∧ (servingRule i c).runOut = c.runOut ∧
    (servingRule i c).scan = c.scan ∧ (servingRule i c).tables = c.tables ∧ (servingRule i c).scanCh = c.scanCh ∧
    (servingRule i c).printCh = c.printCh ∧ (servingRule i c).head = c.head ∧ (servingRule i c).heat = c.heat ∧
    (servingRule i c).linkIn = c.linkIn ∧ (servingRule i c).linkOut = c.linkOut ∧ (servingRule i c).prot = c.prot ∧
    (servingRule i c).power = c.power ∧ (servingRule i c).link.parser = c.link.parser ∧ (servingRule i c).link.held = c.link.held ∧
    (servingRule i c).link.pulseMode = c.link.pulseMode ∧ (servingRule i c).link.selected = c.link.selected ∧
    (servingRule i c).link.listing = c.link.listing ∧ (servingRule i c).link.up = c.link.up ∧ (servingRule i c).link.sent = c.link.sent ∧
    (servingRule i c).link.cut = c.link.cut := by
  unfold servingRule; split
  · simp
  · split <;> simp

@[simp] theorem streamRules_frame (i : Instr) (c : Chip) :
    (streamRules i c).pins = c.pins ∧ (streamRules i c).pool = c.pool ∧ (streamRules i c).runOut = c.runOut ∧
    (streamRules i c).scan = c.scan ∧ (streamRules i c).tables = c.tables ∧ (streamRules i c).scanCh = c.scanCh ∧
    (streamRules i c).printCh = c.printCh ∧ (streamRules i c).head = c.head ∧ (streamRules i c).heat = c.heat ∧
    (streamRules i c).linkIn = c.linkIn ∧ (streamRules i c).linkOut = c.linkOut ∧ (streamRules i c).prot = c.prot ∧
    (streamRules i c).link.parser = c.link.parser ∧ (streamRules i c).link.held = c.link.held ∧
    (streamRules i c).link.pulseMode = c.link.pulseMode ∧ (streamRules i c).link.selected = c.link.selected ∧
    (streamRules i c).link.listing = c.link.listing ∧ (streamRules i c).link.up = c.link.up ∧ (streamRules i c).link.sent = c.link.sent ∧
    (streamRules i c).link.cut = c.link.cut := by
  simp [streamRules]

end Sys2Proof.Proofs
end

section
/-!
PROOFS. What every operation on the part keeps (01_line_pool_and_routes.md R1 to R3, R6, 08_power_save.md R148): the free list the list of the
FREE slots, the sizes of the tables, the supplies with the main clock, a host that can send, and no slot charged above a quota. `Tame` is
the first four, which hold of OPEN too; `Orderly` adds the quotas.
-/

-- One declaration after another: the package as one text keeps within the check's limit on threads.
set_option Elab.async false

namespace Sys2Proof.Proofs

open Sys2Proof Sys2Proof.Machine

/-! ## The relations -/

/-- Pool, tables and supplies stay in order, and a host that can send still can. -/
structure Tame (c t : Chip) : Prop where
  pool : PoolOk c.pool → PoolOk t.pool
  shape : ShapeOk c → ShapeOk t
  supplies : SuppliesOk c → SuppliesOk t
  up : hostUp c = true → hostUp t = true

/-- A context after has one before with its quota, and a charged count rises at most to its quota (R2, R3). -/
def Bounded (c t : Chip) : Prop :=
  ∀ r, (∀ y, ctxOf t r = some y → ∃ x, ctxOf c r = some x ∧ x.quota = y.quota) ∧
    (charged t r ≤ charged c r ∨ ∃ x, ctxOf c r = some x ∧ charged t r ≤ x.quota)

/-- What every operation but the acceptance of an OPEN keeps. -/
structure Orderly (c t : Chip) : Prop extends Tame c t where
  bounded : Bounded c t

theorem Tame.rfl {c : Chip} : Tame c c := ⟨id, id, id, id⟩

theorem Tame.trans {a b c : Chip} (h : Tame a b) (k : Tame b c) : Tame a c :=
  ⟨k.pool ∘ h.pool, k.shape ∘ h.shape, k.supplies ∘ h.supplies, k.up ∘ h.up⟩

theorem Bounded.rfl {c : Chip} : Bounded c c := fun _ => ⟨fun y h => ⟨y, h, Eq.refl _⟩, .inl (Nat.le_refl _)⟩

theorem Bounded.trans {a b c : Chip} (h : Bounded a b) (k : Bounded b c) : Bounded a c := by
  intro r
  obtain ⟨hctx, hcount⟩ := h r
  obtain ⟨kctx, kcount⟩ := k r
  refine ⟨fun y e => ?_, ?_⟩
  · obtain ⟨x, ex, qx⟩ := kctx y e
    obtain ⟨z, ez, qz⟩ := hctx x ex
    exact ⟨z, ez, qz.trans qx⟩
  · rcases kcount with k | ⟨x, ex, qx⟩
    · rcases hcount with h | ⟨z, ez, qz⟩
      · exact .inl (k.trans h)
      · exact .inr ⟨z, ez, k.trans qz⟩
    · obtain ⟨z, ez, qz⟩ := hctx x ex
      exact .inr ⟨z, ez, qz ▸ qx⟩

theorem Orderly.rfl {c : Chip} : Orderly c c := ⟨.rfl, .rfl⟩

theorem Orderly.trans {a b c : Chip} (h : Orderly a b) (k : Orderly b c) : Orderly a c :=
  ⟨h.toTame.trans k.toTame, h.bounded.trans k.bounded⟩

/-- A fold of operations that each keep order. -/
theorem Orderly.fold {α : Type} {w u : Chip} {f : Chip → α → Chip} {xs : List α} (h : Orderly w u)
    (hf : ∀ c x, Orderly w c → Orderly w (f c x)) : Orderly w (xs.foldl f u) := by
  induction xs generalizing u with
  | nil => exact h
  | cons x xs ih => exact ih (hf _ _ h)

/-- What order asks of the Power Controller: its state, clock and supplies, and the sizes of its tables. -/
def Power.order (p : Power) : PowerState × Bool × Bool × Bool × Nat × Nat × Nat × Nat :=
  (p.state, p.flashOn, p.hostOn, p.clockOn, p.park.length, p.holds.length, p.wake.length, p.sources.length)

/-- The sizes of the scan tables. -/
def tableSizes (t : ScanTables) : Nat × Nat × Nat := (t.shading.length, t.tone.length, t.dither.length)

/-- An update of anything but the pool and the routes. -/
theorem Tame.update {c b : Chip} {pins : Pins} {runOut : Option RunOut} {scan : Capture} {tables : ScanTables}
    {scanCh printCh : Channel} {head : Head} {heat : HeatTable} {linkIn : LinkIn} {linkOut : LinkOut} {store : Store}
    {prot : Protection} {power : Power} {boot : Boot} {link : Link} (h : Tame c b)
    (hb : store.blocks.length = b.store.blocks.length := by first | with_reducible rfl | simp)
    (ht : tableSizes tables = tableSizes b.tables := by first | with_reducible rfl | simp [tableSizes])
    (hw : Power.order power = Power.order b.power := by first | with_reducible rfl | simp [Power.order])
    (hl : link.held = b.link.held ∨ link.held = none := by first | exact .inl rfl | exact .inr rfl | simp) :
    Tame c { b with pins := pins, runOut := runOut, scan := scan, tables := tables, scanCh := scanCh, printCh := printCh,
                    head := head, heat := heat, linkIn := linkIn, linkOut := linkOut, store := store, prot := prot,
                    power := power, boot := boot, link := link } := by
  simp only [Power.order, tableSizes, Prod.mk.injEq] at hw ht
  obtain ⟨hstate, hflash, hhost, hclock, hpark, hholds, hwake, hsources⟩ := hw
  obtain ⟨hshading, htone, hdither⟩ := ht
  refine h.trans ⟨id, fun k => ?_, fun k => ?_, fun k => ?_⟩
  · simpa only [ShapeOk, hb, hshading, htone, hdither, hpark, hholds, hwake, hsources] using k
  · simp only [SuppliesOk, hostUp, hstate, hflash, hhost, hclock] at k ⊢
    refine ⟨k.1, k.2.1, k.2.2.1, k.2.2.2.1, fun off => ?_⟩
    exact hl.elim (fun e => e.trans (k.2.2.2.2 off)) id
  · simpa only [hostUp, hstate] using k

theorem Orderly.update {c b : Chip} {pins : Pins} {runOut : Option RunOut} {scan : Capture} {tables : ScanTables}
    {scanCh printCh : Channel} {head : Head} {heat : HeatTable} {linkIn : LinkIn} {linkOut : LinkOut} {store : Store}
    {prot : Protection} {power : Power} {boot : Boot} {link : Link} (h : Orderly c b)
    (hb : store.blocks.length = b.store.blocks.length := by first | with_reducible rfl | simp)
    (ht : tableSizes tables = tableSizes b.tables := by first | with_reducible rfl | simp [tableSizes])
    (hw : Power.order power = Power.order b.power := by first | with_reducible rfl | simp [Power.order])
    (hl : link.held = b.link.held ∨ link.held = none := by first | exact .inl rfl | exact .inr rfl | simp) :
    Orderly c { b with pins := pins, runOut := runOut, scan := scan, tables := tables, scanCh := scanCh, printCh := printCh,
                       head := head, heat := heat, linkIn := linkIn, linkOut := linkOut, store := store, prot := prot,
                       power := power, boot := boot, link := link } :=
  ⟨Tame.update h.toTame hb ht hw hl, h.bounded⟩

/-- A part whose host can send goes on in RUN or SLEEP PENDING, with its clock, its supplies and its tables. -/
theorem running_orderly {w u : Chip} (hu : Orderly w u) {power : Power} (hup : hostUp u = true)
    (hs : power.state = .run ∨ power.state = .sleepPending) (ho : (Power.order power).2 = (Power.order u.power).2) :
    Orderly w { u with power := power } := by
  simp only [Power.order, Prod.mk.injEq] at ho
  obtain ⟨hflash, hhost, hclock, hpark, hholds, hwake, hsources⟩ := ho
  have hup' : hostUp { u with power := power } = true := by simpa [hostUp] using hs
  refine hu.trans ⟨⟨id, fun k => ?_, fun k => ?_, fun _ => hup'⟩, .rfl⟩
  · simpa only [ShapeOk, hpark, hholds, hwake, hsources] using k
  · obtain ⟨k1, k2, k3, -, -⟩ := k
    refine ⟨hflash.trans (k1.trans hclock.symm), hhost.trans (k2.trans hclock.symm), fun _ => hclock.trans (k3 hup),
      fun e => ?_, fun e => ?_⟩
    · rcases hs with hs | hs <;> cases hs.symm.trans e
    · cases hup'.symm.trans e

/-! ## Routes -/

theorem Tame.setRoute {w u : Chip} (hu : Tame w u) (r : Nat) (x : Route) : Tame w (setRoute r x u) := by
  refine hu.trans ⟨id, fun k => ?_, id, id⟩
  simpa [ShapeOk] using k

theorem ctxOf_setRoute (r n : Nat) (x : Route) (c : Chip) :
    ctxOf (setRoute r x c) n = if r = n ∧ n < c.routes.length then x.ctx else ctxOf c n := by
  unfold ctxOf getRoute
  by_cases k : r = n
  · subst k
    by_cases l : r < c.routes.length
    · simp [List.getD, l]
    · simp [List.getD, l]
  · simp [List.getD, List.getElem?_set, k]

theorem charged_setRoute (r n : Nat) (x : Route) (c : Chip) : charged (setRoute r x c) n = charged c n := rfl

/-- A route whose context after is CLOSED, or has the quota of one it had. -/
theorem setRoute_orderly_of {w u : Chip} (hu : Orderly w u) (r : ℕ) (x : Route)
    (hx : ∀ y, x.ctx = some y → ∃ z, ctxOf w r = some z ∧ z.quota = y.quota) : Orderly w (setRoute r x u) := by
  refine ⟨hu.toTame.setRoute r x, fun n => ⟨fun y e => ?_, (hu.bounded n).2⟩⟩
  rw [ctxOf_setRoute] at e
  split at e
  next k => obtain ⟨rfl, -⟩ := k; exact hx y e
  next => exact (hu.bounded n).1 y e

theorem setRoute_orderly {w u : Chip} (hu : Orderly w u) (r : ℕ) (x : Route)
    (hx : ∀ y, x.ctx = some y → ∃ z, ctxOf u r = some z ∧ z.quota = y.quota) : Orderly w (setRoute r x u) :=
  hu.trans (setRoute_orderly_of .rfl r x hx)

theorem modCtx_orderly {w u : Chip} (hu : Orderly w u) (r : ℕ) (f : Ctx → Ctx) (hf : ∀ x, (f x).quota = x.quota) :
    Orderly w (modCtx r f u) := by
  unfold modCtx
  split
  next => exact hu
  next x e =>
    refine setRoute_orderly hu _ _ fun y k => ⟨x, e, ?_⟩
    rw [← Option.some.inj k, hf]

/-- A map over the routes that keeps every context's quota. -/
theorem mapRoutes_orderly {w u : Chip} (hu : Orderly w u) {rs : List Route} (hl : rs.length = u.routes.length)
    (hr : ∀ r y, (rs.getD r Route.closed).ctx = some y → ∃ x, (u.routes.getD r Route.closed).ctx = some x ∧ x.quota = y.quota) :
    Orderly w { u with routes := rs } := by
  refine ⟨hu.toTame.trans ⟨id, fun k => ?_, id, id⟩, hu.bounded.trans fun r => ⟨hr r, .inl (Nat.le_refl _)⟩⟩
  simpa only [ShapeOk, hl] using k

@[simp] theorem Ctx.push_quota (x : Ctx) (e : Entry) : (x.push e).quota = x.quota := by
  unfold Ctx.push
  generalize x.sinks = ks
  induction ks generalizing x with
  | nil => rfl
  | cons k ks ih => exact (ih _).trans (by simp)

@[simp] theorem markPartial_quota (x : Ctx) : (markPartial x).quota = x.quota := by
  unfold markPartial
  split <;> rfl

@[simp] theorem moveToStore_quota (sp : StoreParams) (x : Ctx) : (moveToStore sp x).quota = x.quota := rfl

theorem markReported_orderly {w u : Chip} (hu : Orderly w u) (p : ℕ → Ctx → Bool) : Orderly w (markReported p u) := by
  refine mapRoutes_orderly hu (by simp) fun r y e => ⟨y, ?_, rfl⟩
  by_cases l : r < u.routes.length
  · rw [List.getD_eq_getElem _ _ (by simpa using l)] at e
    rw [List.getD_eq_getElem _ _ l]
    simp only [List.getElem_map, List.getElem_zip] at e
    split at e
    · split at e <;> exact e
    · exact e
  · rw [List.getD_eq_default _ _ (by simpa using l)] at e
    cases e

theorem forgetPage_orderly {w u : Chip} (hu : Orderly w u) (id : ℕ) : Orderly w (forgetPage id u) := by
  refine mapRoutes_orderly hu (by simp) fun r y e => ?_
  by_cases l : r < u.routes.length
  · rw [List.getD_eq_getElem _ _ (by simpa using l)] at e
    rw [List.getD_eq_getElem _ _ l]
    simp only [List.getElem_map] at e
    split at e
    next x k =>
      split at e
      · exact ⟨x, k, by rw [← Option.some.inj e]⟩
      · exact ⟨y, e, rfl⟩
    next => exact ⟨y, e, rfl⟩
  · rw [List.getD_eq_default _ _ (by simpa using l)] at e
    cases e

/-! ## The pool -/

/-- The charged count of a route once a slot has another condition. -/
theorem countP_set_le (xs : List Slot) (n r : Nat) (x : Slot) :
    (xs.set n x).countP (fun s => s.route == some r) ≤
      xs.countP (fun s => s.route == some r) + if x.route = some r then 1 else 0 := by
  by_cases l : n < xs.length
  · rw [List.countP_set l]
    by_cases k : x.route = some r
    · simp only [k, beq_self_eq_true, if_true]
      omega
    · have : (x.route == some r) = false := by simpa using k
      simp only [this, k, if_false, Bool.false_eq_true]
      omega
  · rw [List.set_eq_of_length_le (Nat.le_of_not_lt l)]
    exact Nat.le_add_right _ _

/-- A slot that stays with its route, or is FREE after, raises no charged count. -/
theorem countP_set_same (xs : List Slot) (n r : Nat) (x : Slot) (h : (xs.getD n .free).route = x.route) :
    (xs.set n x).countP (fun s => s.route == some r) = xs.countP (fun s => s.route == some r) := by
  by_cases l : n < xs.length
  · rw [List.getD_eq_getElem _ _ l] at h
    rw [List.countP_set l, h]
    split
    next k =>
      have : 0 < xs.countP (fun s => s.route == some r) :=
        List.countP_pos_iff.2 ⟨xs[n], List.getElem_mem l, by rw [h]; exact k⟩
      omega
    next => rfl
  · rw [List.set_eq_of_length_le (Nat.le_of_not_lt l)]

theorem setSlot_orderly {w u : Chip} (hu : Orderly w u) (n : Nat) (x : Slot) (hx : x ≠ .free) :
    Orderly w (setSlot n x u) := by
  refine ⟨hu.toTame.trans ⟨(setSlot_kept .rfl n x hx).2, ?_, ?_, ?_⟩, hu.bounded.trans fun r => ?_⟩
  all_goals unfold setSlot; split
  iterate 6 exact id
  next h => exact ⟨fun y e => ⟨y, e, rfl⟩, .inl (Nat.le_of_eq (countP_set_same _ _ _ _ h))⟩
  next => exact Bounded.rfl r

theorem recordReady_orderly {w u : Chip} (hu : Orderly w u) : Orderly w (recordReady u) := by
  unfold recordReady
  repeat' first
    | with_reducible assumption
    | (extract_lets +onlyGivenNames v; subst v)
    | split
    | with_reducible refine Orderly.update ?_

theorem queueRecord_orderly {w u : Chip} (hu : Orderly w u) (x : Report) : Orderly w (queueRecord x u) := by
  unfold queueRecord
  repeat' first
    | with_reducible assumption
    | with_reducible apply recordReady_orderly
    | (extract_lets +onlyGivenNames v; subst v)
    | with_reducible refine Orderly.update ?_

theorem reportHalts_orderly {w u : Chip} (hu : Orderly w u) (e : Event) : Orderly w (reportHalts e u) := by
  unfold reportHalts
  repeat' first
    | with_reducible assumption
    | with_reducible apply markReported_orderly
    | split

theorem queueEvent_orderly {w u : Chip} (hu : Orderly w u) (e : Event) : Orderly w (queueEvent e u) := by
  unfold queueEvent
  repeat' first
    | with_reducible assumption
    | with_reducible apply reportHalts_orderly
    | with_reducible apply queueRecord_orderly
    | (extract_lets +onlyGivenNames v; subst v)
    | split
    | with_reducible refine Orderly.update ?_

theorem queueEvents_orderly {w u : Chip} (hu : Orderly w u) (es : List Event) : Orderly w (queueEvents es u) := by
  unfold queueEvents
  repeat' first
    | with_reducible assumption
    | intro _
    | with_reducible apply queueEvent_orderly
    | with_reducible refine Orderly.fold ?_ ?_

theorem queueCredit_orderly {w u : Chip} (hu : Orderly w u) (r : ℕ) (x : ℕ) : Orderly w (queueCredit r x u) := by
  unfold queueCredit
  repeat' first
    | with_reducible assumption
    | with_reducible apply queueRecord_orderly
    | (extract_lets +onlyGivenNames v; subst v)
    | split
    | with_reducible refine Orderly.update ?_

theorem reply_orderly {w u : Chip} (hu : Orderly w u) (p : List Byte) (a : Answer) : Orderly w (reply p a u) := by
  unfold reply
  repeat' first
    | with_reducible assumption
    | with_reducible apply queueRecord_orderly

theorem refuse_orderly {w u : Chip} (hu : Orderly w u) (p : List Byte) (r : Reason) : Orderly w (refuse p r u) := by
  unfold refuse
  repeat' first
    | with_reducible assumption
    | with_reducible apply reply_orderly

theorem refuseProtected_orderly {w u : Chip} (hu : Orderly w u) (p : List Byte) : Orderly w (refuseProtected p u) := by
  unfold refuseProtected
  repeat' first
    | with_reducible assumption
    | with_reducible apply refuse_orderly
    | (extract_lets +onlyGivenNames v; subst v)
    | with_reducible refine Orderly.update ?_

theorem withLength_orderly {w u : Chip} (hu : Orderly w u) (p : List Byte) (n : Nat) (f : Chip → Chip)
    (hf : ∀ c, Orderly w c → Orderly w (f c)) : Orderly w (withLength p n f u) := by
  unfold withLength
  split
  · exact hf _ hu
  · exact refuse_orderly hu _ _

theorem syncCredit_orderly {w u : Chip} (hu : Orderly w u) (r : ℕ) : Orderly w (syncCredit r u) := by
  unfold syncCredit
  repeat' first
    | with_reducible assumption
    | with_reducible apply queueCredit_orderly
    | with_reducible refine modCtx_orderly ?_ _ _ (fun _ => rfl)
    | split

theorem takeSlot_orderly {w u c : Chip} {r n : Nat} {mk : Nat → Slot} (hu : Orderly w u)
    (e : takeSlot r mk u = some (n, c)) (hmk : ∀ r, (mk r).route = some r) : Orderly w c := by
  unfold takeSlot at e
  split at e
  next => cases e
  next x ex =>
    split at e
    next hroom =>
      split at e
      next => cases e
      next m rest hfree =>
        cases e
        have htaken : mk r ≠ .free := fun k => by have := hmk r; rw [k] at this; cases this
        have htake : Orderly u { u with pool := ⟨u.pool.slots.set n (mk r), rest⟩ } := by
          refine ⟨⟨fun p => p.take hfree htaken, id, id, id⟩, fun q => ⟨fun y e => ⟨y, e, rfl⟩, ?_⟩⟩
          have hle := countP_set_le u.pool.slots n q (mk r)
          rw [hmk r] at hle
          by_cases k : r = q
          · subst k
            simp only [if_true] at hle
            exact .inr ⟨x, ex, hle.trans hroom⟩
          · simp only [Option.some.injEq, k, if_false] at hle
            exact .inl hle
        exact syncCredit_orderly (hu.trans htake) _
    next => cases e

theorem returnSlot_orderly {w u : Chip} (hu : Orderly w u) (n : Nat) : Orderly w (returnSlot n u) := by
  unfold returnSlot
  split
  next => exact hu
  next hn =>
    extract_lets +onlyGivenNames c
    have hc : Orderly w c := hu.trans ⟨⟨fun p => p.put (n := n) hn, id, id, id⟩, fun r =>
      ⟨fun y e => ⟨y, e, rfl⟩, .inl (countP_set_le u.pool.slots n r .free)⟩⟩
    split
    · exact syncCredit_orderly hc _
    · exact hc

theorem returnSlots_orderly {w u : Chip} (hu : Orderly w u) (ns : List ℕ) : Orderly w (returnSlots ns u) := by
  unfold returnSlots
  repeat' first
    | with_reducible assumption
    | intro _
    | with_reducible apply returnSlot_orderly
    | with_reducible refine Orderly.fold ?_ ?_

theorem dropReference_orderly {w u : Chip} (hu : Orderly w u) (n : ℕ) : Orderly w (dropReference n u) := by
  unfold dropReference
  repeat' first
    | with_reducible assumption
    | with_reducible apply returnSlot_orderly
    | with_reducible refine setSlot_orderly ?_ _ _ (by simp)
    | split

theorem returnReservations_orderly {w u : Chip} (hu : Orderly w u) (r : ℕ) : Orderly w (returnReservations r u) := by
  unfold returnReservations
  repeat' first
    | with_reducible assumption
    | with_reducible apply returnSlots_orderly
    | with_reducible refine modCtx_orderly ?_ _ _ (fun _ => rfl)
    | split

theorem haltRoute_orderly {w u : Chip} (hu : Orderly w u) (r : ℕ) (h : Halt) : Orderly w (haltRoute r h u) := by
  unfold haltRoute
  split
  next => exact hu
  next x e => exact setRoute_orderly hu _ _ fun y k => ⟨x, e, by rw [← Option.some.inj k]⟩

theorem addStall_orderly {w u : Chip} (hu : Orderly w u) (r : ℕ) (s : Stall) : Orderly w (addStall r s u) := by
  refine modCtx_orderly hu _ _ fun x => ?_
  split <;> rfl

theorem dropStall_orderly {w u : Chip} (hu : Orderly w u) (r : ℕ) (s : Stall) : Orderly w (dropStall r s u) := by
  unfold dropStall
  repeat' first
    | with_reducible assumption
    | with_reducible refine modCtx_orderly ?_ _ _ (fun _ => rfl)

theorem takeLamp_orderly {w u : Chip} (hu : Orderly w u) : Orderly w (takeLamp u) := by
  unfold takeLamp
  repeat' first
    | with_reducible assumption
    | (extract_lets +onlyGivenNames v; subst v)
    | split
    | with_reducible refine Orderly.update ?_

theorem dropLamp_orderly {w u : Chip} (hu : Orderly w u) : Orderly w (dropLamp u) := by
  unfold dropLamp
  repeat' first
    | with_reducible assumption
    | (extract_lets +onlyGivenNames v; subst v)
    | split
    | with_reducible refine Orderly.update ?_

theorem modBlock_orderly {w u : Chip} (hu : Orderly w u) (b : ℕ) (f : Block → Block) : Orderly w (modBlock b f u) := by
  unfold modBlock
  repeat' first
    | with_reducible assumption
    | (extract_lets +onlyGivenNames v; subst v)
    | with_reducible refine Orderly.update ?_

theorem setBlockState_orderly {w u : Chip} (hu : Orderly w u) (b : ℕ) (st : BlockState) : Orderly w (setBlockState b st u) := by
  unfold setBlockState
  repeat' first
    | with_reducible assumption
    | with_reducible apply modBlock_orderly

theorem modPage_orderly {w u : Chip} (hu : Orderly w u) (id : ℕ) (f : Page → Page) : Orderly w (modPage id f u) := by
  unfold modPage
  repeat' first
    | with_reducible assumption
    | (extract_lets +onlyGivenNames v; subst v)
    | split
    | with_reducible refine Orderly.update ?_

theorem removePage_orderly {w u : Chip} (hu : Orderly w u) (id : ℕ) : Orderly w (removePage id u) := by
  unfold removePage
  repeat' first
    | with_reducible assumption
    | (extract_lets +onlyGivenNames v; subst v)
    | with_reducible refine Orderly.update ?_

theorem joinErased_orderly {w u : Chip} (hu : Orderly w u) (b : ℕ) : Orderly w (joinErased b u) := by
  unfold joinErased
  repeat' first
    | with_reducible assumption
    | (extract_lets +onlyGivenNames v; subst v)
    | split
    | with_reducible refine Orderly.update ?_

theorem joinEraseQueue_orderly {w u : Chip} (hu : Orderly w u) (b : ℕ) : Orderly w (joinEraseQueue b u) := by
  unfold joinEraseQueue
  repeat' first
    | with_reducible assumption
    | (extract_lets +onlyGivenNames v; subst v)
    | split
    | with_reducible refine Orderly.update ?_

theorem programFailed_orderly {w u : Chip} (hu : Orderly w u) (b : ℕ) : Orderly w (programFailed b u) := by
  unfold programFailed
  repeat' first
    | with_reducible assumption
    | with_reducible apply queueEvent_orderly
    | (extract_lets +onlyGivenNames v; subst v)
    | with_reducible refine Orderly.update ?_

theorem refreshLoad_orderly {w u : Chip} (hu : Orderly w u) : Orderly w (refreshLoad u) := by
  unfold refreshLoad
  repeat' first
    | with_reducible assumption
    | (extract_lets +onlyGivenNames v; subst v)
    | split
    | with_reducible refine Orderly.update ?_

theorem sampleTherm_orderly {w u : Chip} (hu : Orderly w u) (therm : Byte) : Orderly w (sampleTherm therm u) := by
  unfold sampleTherm
  repeat' first
    | with_reducible assumption
    | (extract_lets +onlyGivenNames v; subst v)
    | with_reducible refine Orderly.update ?_

theorem beginBurn_orderly {w u : Chip} (hu : Orderly w u) (therm : Byte) : Orderly w (beginBurn therm u) := by
  unfold beginBurn
  repeat' first
    | with_reducible assumption
    | with_reducible apply sampleTherm_orderly
    | with_reducible apply queueEvent_orderly
    | with_reducible apply refreshLoad_orderly
    | (extract_lets +onlyGivenNames v; subst v)
    | split
    | with_reducible refine Orderly.update ?_

theorem cutStrobe_orderly {w u : Chip} (hu : Orderly w u) : Orderly w (cutStrobe u) := by
  unfold cutStrobe
  repeat' first
    | with_reducible assumption
    | (extract_lets +onlyGivenNames v; subst v)
    | with_reducible refine Orderly.update ?_

theorem headContentLost_orderly {w u : Chip} (hu : Orderly w u) : Orderly w (headContentLost u) := by
  unfold headContentLost
  repeat' first
    | with_reducible assumption
    | (extract_lets +onlyGivenNames v; subst v)
    | with_reducible refine Orderly.update ?_

theorem takeHeadUse_orderly {w u : Chip} (hu : Orderly w u) : Orderly w (takeHeadUse u) := by
  unfold takeHeadUse
  repeat' first
    | with_reducible assumption
    | (extract_lets +onlyGivenNames v; subst v)
    | with_reducible refine Orderly.update ?_

theorem dropHeadUse_orderly {w u : Chip} (hu : Orderly w u) : Orderly w (dropHeadUse u) := by
  unfold dropHeadUse
  repeat' first
    | with_reducible assumption
    | with_reducible apply headContentLost_orderly
    | (extract_lets +onlyGivenNames v; first | (refine (fun _ : Orderly w v => ?_) ?_; rotate_left; subst v; rotate_left; clear_value v) | subst v)
    | split
    | with_reducible refine Orderly.update ?_

theorem takeUpHead_orderly {w u : Chip} (hu : Orderly w u) (r : ℕ) (copy : HeadCopy) : Orderly w (takeUpHead r copy u) := by
  unfold takeUpHead
  repeat' first
    | with_reducible assumption
    | with_reducible apply takeHeadUse_orderly
    | (extract_lets +onlyGivenNames v; subst v)
    | with_reducible refine Orderly.update ?_

theorem releaseHead_orderly {w u : Chip} (hu : Orderly w u) : Orderly w (releaseHead u) := by
  unfold releaseHead
  repeat' first
    | with_reducible assumption
    | with_reducible apply dropHeadUse_orderly
    | (extract_lets +onlyGivenNames v; subst v)
    | with_reducible refine Orderly.update ?_

theorem beginCut_orderly {w u : Chip} (hu : Orderly w u) : Orderly w (beginCut u) := by
  unfold beginCut
  repeat' first
    | with_reducible assumption
    | (extract_lets +onlyGivenNames v; subst v)
    | with_reducible refine Orderly.update ?_

theorem endCut_orderly {w u : Chip} (hu : Orderly w u) : Orderly w (endCut u) := by
  unfold endCut
  repeat' first
    | with_reducible assumption
    | (extract_lets +onlyGivenNames v; subst v)
    | with_reducible refine Orderly.update ?_

theorem setErase_orderly {w u : Chip} (hu : Orderly w u) (e : Option EraseProg) : Orderly w (setErase e u) := by
  unfold setErase
  repeat' first
    | with_reducible assumption
    | (extract_lets +onlyGivenNames v; subst v)
    | with_reducible refine Orderly.update ?_

theorem suspendErase_orderly {w u c : Chip} (hu : Orderly w u) (e : suspendErase u = some c) : Orderly w c := by
  unfold suspendErase at e
  (repeat' split at e) <;> cases e
  iterate 3 exact hu
  iterate 2 exact setErase_orderly hu _

theorem resumeErase_orderly {w u : Chip} (hu : Orderly w u) : Orderly w (resumeErase u) := by
  unfold resumeErase
  repeat' first
    | with_reducible assumption
    | with_reducible apply setErase_orderly
    | split

theorem grant_orderly {w u : Chip} (hu : Orderly w u) : Orderly w (grant u) := by
  unfold grant
  repeat' first
    | with_reducible assumption
    | with_reducible refine suspendErase_orderly ?_ ‹_›
    | with_reducible apply resumeErase_orderly
    | (extract_lets +onlyGivenNames v; subst v)
    | split
    | with_reducible refine Orderly.update ?_

theorem askRead_orderly {w u : Chip} (hu : Orderly w u) (j : Job) : Orderly w (askRead j u) := by
  unfold askRead
  repeat' first
    | with_reducible assumption
    | with_reducible apply grant_orderly
    | (extract_lets +onlyGivenNames v; subst v)
    | with_reducible refine Orderly.update ?_

theorem askProgram_orderly {w u : Chip} (hu : Orderly w u) (j : Job) : Orderly w (askProgram j u) := by
  unfold askProgram
  repeat' first
    | with_reducible assumption
    | with_reducible apply grant_orderly
    | (extract_lets +onlyGivenNames v; subst v)
    | with_reducible refine Orderly.update ?_

theorem freeFlash_orderly {w u : Chip} (hu : Orderly w u) : Orderly w (freeFlash u) := by
  unfold freeFlash
  repeat' first
    | with_reducible assumption
    | with_reducible apply grant_orderly
    | (extract_lets +onlyGivenNames v; subst v)
    | with_reducible refine Orderly.update ?_

theorem withdraw_orderly {w u : Chip} (hu : Orderly w u) (p : Job → Bool) : Orderly w (withdraw p u) := by
  unfold withdraw
  repeat' first
    | with_reducible assumption
    | (extract_lets +onlyGivenNames v; subst v)
    | with_reducible refine Orderly.update ?_

theorem retireBlock_orderly {w u : Chip} (hu : Orderly w u) (why : RetireFor) (b : ℕ) : Orderly w (retireBlock why u b) := by
  unfold retireBlock
  repeat' first
    | with_reducible assumption
    | with_reducible apply askProgram_orderly
    | with_reducible apply setBlockState_orderly

theorem retireBlocks_orderly {w u : Chip} (hu : Orderly w u) (why : RetireFor) (bs : List ℕ) : Orderly w (retireBlocks why bs u) := by
  unfold retireBlocks
  repeat' first
    | with_reducible assumption
    | intro _
    | with_reducible apply retireBlock_orderly
    | with_reducible refine Orderly.fold ?_ ?_
    | (extract_lets +onlyGivenNames v; subst v)
    | split
    | with_reducible refine Orderly.update ?_

theorem damageBlock_orderly {w u : Chip} (hu : Orderly w u) (b : ℕ) : Orderly w (damageBlock b u) := by
  unfold damageBlock
  repeat' first
    | with_reducible assumption
    | with_reducible apply askProgram_orderly
    | with_reducible apply setBlockState_orderly

theorem enterQueues_orderly {w u : Chip} (hu : Orderly w u) (r : ℕ) (e : Entry) : Orderly w (enterQueues r e u) := by
  unfold enterQueues
  repeat' first
    | with_reducible assumption
    | with_reducible refine modCtx_orderly ?_ _ _ (fun _ => by simp)
    | with_reducible refine setSlot_orderly ?_ _ _ (by simp)
    | (extract_lets +onlyGivenNames v; refine (fun _ : Orderly w v => ?_) ?_; rotate_left; subst v; rotate_left; clear_value v)
    | split

theorem placeEntry_orderly {w u : Chip} (hu : Orderly w u) (r : ℕ) (e : Entry) : Orderly w (placeEntry r e u) := by
  unfold placeEntry
  repeat' first
    | with_reducible assumption
    | with_reducible apply enterQueues_orderly
    | with_reducible refine modCtx_orderly ?_ _ _ (fun _ => rfl)
    | split

theorem moveHold_orderly {w u : Chip} (hu : Orderly w u) (r : Nat) (es : List Entry) : Orderly w (moveHold r es u) := by
  induction es generalizing u with
  | nil => exact modCtx_orderly hu _ _ fun _ => rfl
  | cons e es ih =>
    unfold moveHold
    split
    · exact hu
    · split
      · exact ih (enterQueues_orderly hu _ _)
      · exact modCtx_orderly hu _ _ fun _ => rfl

theorem settleHold_orderly {w u : Chip} (hu : Orderly w u) (r : ℕ) : Orderly w (settleHold r u) := by
  unfold settleHold
  repeat' first
    | with_reducible assumption
    | with_reducible apply moveHold_orderly
    | split

theorem pageEnd_orderly {w u : Chip} (hu : Orderly w u) (r : ℕ) (truncated : Bool) : Orderly w (pageEnd r truncated u) := by
  unfold pageEnd
  repeat' first
    | with_reducible assumption
    | with_reducible apply placeEntry_orderly
    | with_reducible refine modCtx_orderly ?_ _ _ (fun _ => rfl)
    | split

theorem fillComplete_orderly {w u : Chip} (hu : Orderly w u) (r : ℕ) (slot : ℕ) (l : Line) (repaired : Bool) : Orderly w (fillComplete r slot l repaired u) := by
  unfold fillComplete
  repeat' first
    | with_reducible assumption
    | with_reducible apply returnSlot_orderly
    | with_reducible refine setSlot_orderly ?_ _ _ (by simp)
    | with_reducible refine modCtx_orderly ?_ _ _ (fun _ => rfl)
    | with_reducible apply queueEvent_orderly
    | with_reducible apply placeEntry_orderly
    | with_reducible apply pageEnd_orderly
    | (extract_lets +onlyGivenNames v; refine (fun _ : Orderly w v => ?_) ?_; rotate_left; subst v; rotate_left; clear_value v)
    | split

theorem dropHead_orderly {w u : Chip} (hu : Orderly w u) (k : Sink) (r : ℕ) : Orderly w (dropHead k r u) := by
  unfold dropHead
  repeat' first
    | with_reducible assumption
    | with_reducible apply settleHold_orderly
    | with_reducible apply dropReference_orderly
    | with_reducible refine modCtx_orderly ?_ _ _ (fun _ => by simp)
    | split

theorem serveMark_orderly {w u : Chip} (hu : Orderly w u) (k : Sink) (r : ℕ) (f : Mark → Mark) :
    Orderly w (serveMark k r f u) := by
  unfold serveMark
  split
  next => exact hu
  next =>
    split
    next m rest _ =>
      have ha := modCtx_orderly hu r (fun x =>
        let x := x.setQueue k rest
        { x with printQ := putMark (f m) x.printQ, linkQ := putMark (f m) x.linkQ, storeQ := putMark (f m) x.storeQ })
        fun x => by simp
      refine settleHold_orderly ?_ _
      split
      · exact ha
      · exact setRoute_orderly (queueEvent_orderly ha _) _ _ fun y e => ⟨y, e, rfl⟩
    next => exact hu

theorem stopScan_orderly {w u : Chip} (hu : Orderly w u) (cause : StopCause) : Orderly w (stopScan cause u) := by
  unfold stopScan
  repeat' first
    | with_reducible assumption
    | (extract_lets +onlyGivenNames v; subst v)
    | with_reducible refine Orderly.update ?_

theorem endScanSource_orderly {w u : Chip} (hu : Orderly w u) : Orderly w (endScanSource u) := by
  unfold endScanSource
  repeat' first
    | with_reducible assumption
    | with_reducible apply dropLamp_orderly
    | (extract_lets +onlyGivenNames v; subst v)
    | with_reducible refine Orderly.update ?_

theorem dropWaitingStart_orderly {w u : Chip} (hu : Orderly w u) : Orderly w (dropWaitingStart u) := by
  unfold dropWaitingStart
  repeat' first
    | with_reducible assumption
    | with_reducible apply returnReservations_orderly
    | split

theorem closeScanSource_orderly {w u : Chip} (hu : Orderly w u) : Orderly w (closeScanSource u) := by
  unfold closeScanSource
  repeat' first
    | with_reducible assumption
    | with_reducible apply endScanSource_orderly
    | with_reducible apply dropWaitingStart_orderly
    | with_reducible apply stopScan_orderly
    | split

theorem requestClose_orderly {w u : Chip} (hu : Orderly w u) (r : ℕ) : Orderly w (requestClose r u) := by
  unfold requestClose
  repeat' first
    | with_reducible assumption
    | with_reducible refine modCtx_orderly ?_ _ _ (fun _ => rfl)
    | with_reducible apply closeScanSource_orderly
    | with_reducible apply pageEnd_orderly
    | (extract_lets +onlyGivenNames v; refine (fun _ : Orderly w v => ?_) ?_; rotate_left; subst v; rotate_left; clear_value v)
    | split

theorem setWork_orderly {w u : Chip} (hu : Orderly w u) (x : Option Work) : Orderly w (setWork x u) := by
  unfold setWork
  repeat' first
    | with_reducible assumption
    | (extract_lets +onlyGivenNames v; subst v)
    | with_reducible refine Orderly.update ?_

theorem createPage_orderly {w u : Chip} (hu : Orderly w u) (r : ℕ) (start : Option ℕ) : Orderly w (createPage r start u) := by
  unfold createPage
  repeat' first
    | with_reducible assumption
    | with_reducible refine modCtx_orderly ?_ _ _ (fun _ => rfl)
    | (extract_lets +onlyGivenNames v; subst v)
    | split
    | with_reducible refine Orderly.update ?_

theorem endPage_orderly {w u : Chip} (hu : Orderly w u) (route : Option ℕ) (truncated : Bool) (mark : Option Mark) (id : ℕ) : Orderly w (endPage route truncated mark id u) := by
  unfold endPage
  repeat' first
    | with_reducible assumption
    | with_reducible apply forgetPage_orderly
    | with_reducible apply setWork_orderly
    | with_reducible apply askProgram_orderly
    | with_reducible apply setBlockState_orderly
    | with_reducible apply retireBlocks_orderly
    | with_reducible apply removePage_orderly
    | split

theorem meetFull_orderly {w u : Chip} (hu : Orderly w u) (r : ℕ) (cause : FullCause) : Orderly w (meetFull r cause u) := by
  unfold meetFull
  repeat' first
    | with_reducible assumption
    | with_reducible apply queueEvent_orderly
    | with_reducible apply dropStall_orderly
    | with_reducible refine modCtx_orderly ?_ _ _ (fun _ => rfl)
    | with_reducible apply endPage_orderly
    | with_reducible apply setWork_orderly
    | with_reducible apply requestClose_orderly
    | with_reducible apply dropHead_orderly
    | (extract_lets +onlyGivenNames v; subst v)
    | split
    | with_reducible refine Orderly.update ?_

theorem claimBlock_orderly {w u c : Chip} {id seq n : Nat} {reloc : Bool} (hu : Orderly w u)
    (e : claimBlock id seq reloc u = some (n, c)) : Orderly w c := by
  unfold claimBlock at e
  split at e
  · cases e
  · simp only [Option.some.injEq, Prod.mk.injEq] at e
    obtain ⟨-, rfl⟩ := e
    repeat' first
      | with_reducible assumption
      | with_reducible apply askProgram_orderly
      | with_reducible apply modPage_orderly
      | with_reducible apply modBlock_orderly
      | split
      | with_reducible refine Orderly.update ?_

theorem tryClaim_orderly {w u : Chip} (hu : Orderly w u) (r : ℕ) : Orderly w (tryClaim r u) := by
  unfold tryClaim
  repeat' first
    | with_reducible assumption
    | with_reducible refine claimBlock_orderly ?_ ‹_›
    | with_reducible apply meetFull_orderly
    | with_reducible apply dropStall_orderly
    | with_reducible apply setWork_orderly
    | with_reducible apply askProgram_orderly
    | with_reducible apply addStall_orderly
    | with_reducible apply queueEvent_orderly
    | (extract_lets +onlyGivenNames v; first | (refine (fun _ : Orderly w v => ?_) ?_; rotate_left; subst v; rotate_left; clear_value v) | subst v)
    | split
    | with_reducible refine Orderly.update ?_

theorem placeWork_orderly {w u : Chip} (hu : Orderly w u) (r : ℕ) (size : ℕ) : Orderly w (placeWork r size u) := by
  unfold placeWork
  repeat' first
    | with_reducible assumption
    | with_reducible apply tryClaim_orderly
    | with_reducible apply askProgram_orderly
    | with_reducible apply setBlockState_orderly
    | split

theorem takeEntry_orderly {w u : Chip} (hu : Orderly w u) (r : ℕ) : Orderly w (takeEntry r u) := by
  unfold takeEntry
  repeat' first
    | with_reducible assumption
    | with_reducible apply setWork_orderly
    | with_reducible apply placeWork_orderly
    | with_reducible apply createPage_orderly
    | with_reducible apply meetFull_orderly
    | with_reducible apply serveMark_orderly
    | with_reducible apply endPage_orderly
    | (extract_lets +onlyGivenNames v; first | (refine (fun _ : Orderly w v => ?_) ?_; rotate_left; subst v; rotate_left; clear_value v) | subst v)
    | split
    | with_reducible refine Orderly.update ?_

theorem drainEntry_orderly {w u : Chip} (hu : Orderly w u) (r : ℕ) : Orderly w (drainEntry r u) := by
  unfold drainEntry
  repeat' first
    | with_reducible assumption
    | with_reducible apply dropHead_orderly
    | with_reducible apply serveMark_orderly
    | with_reducible refine modCtx_orderly ?_ _ _ (fun _ => rfl)
    | (extract_lets +onlyGivenNames v; subst v)
    | split
    | with_reducible refine Orderly.update ?_

theorem fillLane_orderly {w u : Chip} (hu : Orderly w u) (r : ℕ) : Orderly w (fillLane r u) := by
  unfold fillLane
  repeat' first
    | with_reducible assumption
    | (extract_lets +onlyGivenNames v; subst v)
    | split
    | with_reducible refine Orderly.update ?_

theorem storeLoop_orderly {w u : Chip} (hu : Orderly w u) (r n : Nat) : Orderly w (storeLoop r n u) := by
  induction n generalizing u with
  | zero => exact hu
  | succ n ih =>
    unfold storeLoop
    repeat' first
      | with_reducible assumption
      | exact ih (drainEntry_orderly hu _)
      | exact ih (takeEntry_orderly hu _)
      | split

theorem storePump_orderly {w u : Chip} (hu : Orderly w u) (r : ℕ) : Orderly w (storePump r u) := by
  unfold storePump
  repeat' first
    | with_reducible assumption
    | with_reducible apply fillLane_orderly
    | with_reducible apply storeLoop_orderly
    | split

theorem linkPump_orderly {w u : Chip} (hu : Orderly w u) : Orderly w (linkPump u) := by
  unfold linkPump
  repeat' first
    | with_reducible assumption
    | with_reducible apply recordReady_orderly
    | with_reducible apply pageEnd_orderly
    | (extract_lets +onlyGivenNames v; subst v)
    | split
    | with_reducible refine Orderly.update ?_

theorem syncMotor_orderly {w u : Chip} (hu : Orderly w u) : Orderly w (syncMotor u) := by
  unfold syncMotor
  repeat' first
    | with_reducible assumption
    | (extract_lets +onlyGivenNames v; subst v)
    | split
    | with_reducible refine Orderly.update ?_

theorem releaseScan_orderly {w u : Chip} (hu : Orderly w u) : Orderly w (releaseScan u) := by
  unfold releaseScan
  repeat' first
    | with_reducible assumption
    | with_reducible apply dropLamp_orderly
    | (extract_lets +onlyGivenNames v; refine (fun _ : Orderly w v => ?_) ?_; rotate_left; subst v; rotate_left; clear_value v)
    | with_reducible refine Orderly.update ?_

theorem releasePrint_orderly {w u : Chip} (hu : Orderly w u) : Orderly w (releasePrint u) := by
  unfold releasePrint
  repeat' first
    | with_reducible assumption
    | with_reducible apply releaseHead_orderly
    | (extract_lets +onlyGivenNames v; refine (fun _ : Orderly w v => ?_) ?_; rotate_left; subst v; rotate_left; clear_value v)
    | with_reducible refine Orderly.update ?_

theorem closeRoute_orderly {w u : Chip} (hu : Orderly w u) (r : ℕ) (cause : CloseCause) : Orderly w (closeRoute r cause u) := by
  unfold closeRoute
  repeat' first
    | with_reducible assumption
    | with_reducible refine setRoute_orderly ?_ _ _ (fun _ k => nomatch k)
    | with_reducible apply releaseScan_orderly
    | with_reducible apply releasePrint_orderly
    | with_reducible apply queueEvent_orderly
    | (extract_lets +onlyGivenNames v; first | (refine (fun _ : Orderly w v => ?_) ?_; rotate_left; subst v; rotate_left; clear_value v) | subst v)
    | split

theorem closeIfEmpty_orderly {w u : Chip} (hu : Orderly w u) (r : ℕ) : Orderly w (closeIfEmpty r u) := by
  unfold closeIfEmpty
  repeat' first
    | with_reducible assumption
    | with_reducible apply closeRoute_orderly
    | split

theorem pump_orderly {w u : Chip} (hu : Orderly w u) (r : ℕ) : Orderly w (pump r u) := by
  unfold pump
  repeat' first
    | with_reducible assumption
    | with_reducible apply closeIfEmpty_orderly
    | with_reducible apply refreshLoad_orderly
    | with_reducible apply linkPump_orderly
    | with_reducible apply storePump_orderly

theorem settle_orderly {w u : Chip} (hu : Orderly w u) (r : ℕ) : Orderly w (settle r u) := by
  unfold settle
  repeat' first
    | with_reducible assumption
    | with_reducible apply syncMotor_orderly
    | with_reducible apply pump_orderly

theorem settleAll_orderly {w u : Chip} (hu : Orderly w u) : Orderly w (settleAll u) := by
  unfold settleAll
  repeat' first
    | with_reducible assumption
    | intro _
    | with_reducible apply syncMotor_orderly
    | with_reducible apply pump_orderly
    | with_reducible refine Orderly.fold ?_ ?_

theorem discardCapture_orderly {w u : Chip} (hu : Orderly w u) : Orderly w (discardCapture u) := by
  unfold discardCapture
  repeat' first
    | with_reducible assumption
    | with_reducible apply returnSlot_orderly
    | with_reducible apply pageEnd_orderly
    | (extract_lets +onlyGivenNames v; first | (refine (fun _ : Orderly w v => ?_) ?_; rotate_left; subst v; rotate_left; clear_value v) | subst v)
    | split
    | with_reducible refine Orderly.update ?_

theorem beginCapture_orderly {w u : Chip} (hu : Orderly w u) : Orderly w (beginCapture u) := by
  unfold beginCapture
  repeat' first
    | with_reducible assumption
    | with_reducible apply returnSlot_orderly
    | with_reducible refine setSlot_orderly ?_ _ _ (by simp)
    | with_reducible refine modCtx_orderly ?_ _ _ (fun _ => rfl)
    | (extract_lets +onlyGivenNames v; first | (refine (fun _ : Orderly w v => ?_) ?_; rotate_left; subst v; rotate_left; clear_value v) | subst v)
    | split
    | with_reducible refine Orderly.update ?_

theorem openScan_orderly {w u : Chip} (hu : Orderly w u) (r : ℕ) : Orderly w (openScan r u) := by
  unfold openScan
  repeat' first
    | with_reducible assumption
    | with_reducible apply takeLamp_orderly
    | (extract_lets +onlyGivenNames v; first | (refine (fun _ : Orderly w v => ?_) ?_; rotate_left; subst v; rotate_left; clear_value v) | subst v)
    | split
    | with_reducible refine Orderly.update ?_

theorem trailingEdge_orderly {w u : Chip} (hu : Orderly w u) (r : ℕ) (p : ScanParams) : Orderly w (trailingEdge r p u) := by
  unfold trailingEdge
  repeat' first
    | with_reducible assumption
    | with_reducible apply returnReservations_orderly
    | with_reducible apply pageEnd_orderly
    | (extract_lets +onlyGivenNames v; first | (refine (fun _ : Orderly w v => ?_) ?_; rotate_left; subst v; rotate_left; clear_value v) | subst v)
    | split
    | with_reducible refine Orderly.update ?_

theorem stopPrintFor_orderly {w u : Chip} (hu : Orderly w u) (r : ℕ) : Orderly w (stopPrintFor r u) := by
  unfold stopPrintFor
  repeat' first
    | with_reducible assumption
    | split
    | with_reducible refine Orderly.update ?_

theorem stopScanFor_orderly {w u : Chip} (hu : Orderly w u) (r : ℕ) : Orderly w (stopScanFor r u) := by
  unfold stopScanFor
  repeat' first
    | with_reducible assumption
    | split
    | with_reducible refine Orderly.update ?_

theorem scanJam_orderly {w u : Chip} (hu : Orderly w u) (r : ℕ) (onPage : Bool) : Orderly w (scanJam r onPage u) := by
  unfold scanJam
  repeat' first
    | with_reducible assumption
    | with_reducible apply discardCapture_orderly
    | with_reducible apply pageEnd_orderly
    | with_reducible apply queueEvent_orderly
    | with_reducible apply haltRoute_orderly
    | with_reducible apply stopPrintFor_orderly
    | with_reducible apply stopScan_orderly
    | (extract_lets +onlyGivenNames v; subst v)
    | split
    | with_reducible refine Orderly.update ?_

theorem sheetStep_orderly {w u : Chip} (hu : Orderly w u) (doce : Bool) : Orderly w (sheetStep doce u) := by
  unfold sheetStep
  repeat' first
    | with_reducible assumption
    | with_reducible apply scanJam_orderly
    | with_reducible apply trailingEdge_orderly
    | (extract_lets +onlyGivenNames v; first | (refine (fun _ : Orderly w v => ?_) ?_; rotate_left; subst v; rotate_left; clear_value v) | subst v)
    | split
    | with_reducible refine Orderly.update ?_

theorem sheetLineStart_orderly {w u : Chip} (hu : Orderly w u) : Orderly w (sheetLineStart u) := by
  unfold sheetLineStart
  repeat' first
    | with_reducible assumption
    | with_reducible apply stopScan_orderly
    | (extract_lets +onlyGivenNames v; subst v)
    | split
    | with_reducible refine Orderly.update ?_

theorem endOfSheet_orderly {w u : Chip} (hu : Orderly w u) : Orderly w (endOfSheet u) := by
  unfold endOfSheet
  repeat' first
    | with_reducible assumption
    | with_reducible apply endScanSource_orderly
    | with_reducible apply queueEvent_orderly
    | with_reducible refine modCtx_orderly ?_ _ _ (fun _ => rfl)
    | (extract_lets +onlyGivenNames v; first | (refine (fun _ : Orderly w v => ?_) ?_; rotate_left; subst v; rotate_left; clear_value v) | subst v)
    | split
    | with_reducible refine Orderly.update ?_

theorem leaveJam_orderly {w u : Chip} (hu : Orderly w u) : Orderly w (leaveJam u) := by
  unfold leaveJam
  repeat' first
    | with_reducible assumption
    | with_reducible apply endOfSheet_orderly
    | (extract_lets +onlyGivenNames v; subst v)
    | with_reducible refine Orderly.update ?_

theorem sheetHalted_orderly {w u : Chip} (hu : Orderly w u) : Orderly w (sheetHalted u) := by
  unfold sheetHalted
  repeat' first
    | with_reducible assumption
    | with_reducible apply endOfSheet_orderly
    | with_reducible apply leaveJam_orderly
    | split

theorem pickChip_orderly {w u : Chip} (hu : Orderly w u) (doce : Bool) : Orderly w (pickChip doce u) := by
  unfold pickChip
  repeat' first
    | with_reducible assumption
    | with_reducible apply syncMotor_orderly
    | with_reducible refine modCtx_orderly ?_ _ _ (fun _ => rfl)
    | (extract_lets +onlyGivenNames v; subst v)
    | split
    | with_reducible refine Orderly.update ?_

theorem captureChip_orderly {w u : Chip} (hu : Orderly w u) (samples : List Byte) : Orderly w (captureChip samples u) := by
  unfold captureChip
  repeat' first
    | with_reducible assumption
    | with_reducible apply fillComplete_orderly
    | with_reducible apply returnSlot_orderly
    | with_reducible apply settle_orderly
    | with_reducible apply pageEnd_orderly
    | (extract_lets +onlyGivenNames v; first | (refine (fun _ : Orderly w v => ?_) ?_; rotate_left; subst v; rotate_left; clear_value v) | subst v)
    | split
    | with_reducible refine Orderly.update ?_

theorem docpScan_orderly {w u : Chip} (hu : Orderly w u) : Orderly w (docpScan u) := by
  unfold docpScan
  repeat' first
    | with_reducible assumption
    | with_reducible apply takeLamp_orderly
    | with_reducible apply dropLamp_orderly
    | split

theorem denyScan_orderly {w u : Chip} (hu : Orderly w u) : Orderly w (denyScan u) := by
  unfold denyScan
  repeat' first
    | with_reducible assumption
    | with_reducible apply queueEvent_orderly
    | (extract_lets +onlyGivenNames v; first | (refine (fun _ : Orderly w v => ?_) ?_; rotate_left; subst v; rotate_left; clear_value v) | subst v)
    | split
    | with_reducible refine Orderly.update ?_

theorem denyPrint_orderly {w u : Chip} (hu : Orderly w u) : Orderly w (denyPrint u) := by
  unfold denyPrint
  repeat' first
    | with_reducible assumption
    | with_reducible apply queueEvent_orderly
    | (extract_lets +onlyGivenNames v; first | (refine (fun _ : Orderly w v => ?_) ?_; rotate_left; subst v; rotate_left; clear_value v) | subst v)
    | split
    | with_reducible refine Orderly.update ?_

theorem takeReservations_orderly {w u : Chip} (hu : Orderly w u) (r n : Nat) : Orderly w (takeReservations r n u) := by
  induction n generalizing u with
  | zero => exact hu
  | succ n ih =>
    unfold takeReservations
    split
    · exact hu
    · exact ih (modCtx_orderly (takeSlot_orderly hu ‹_› fun _ => rfl) _ _ fun _ => rfl)

theorem reserveFor_orderly {w u : Chip} (hu : Orderly w u) (r k : Nat) : Orderly w (reserveFor r k u).1 :=
  takeReservations_orderly hu _ _

theorem scanLineStart_orderly {w u : Chip} (hu : Orderly w u) : Orderly w (scanLineStart u) := by
  unfold scanLineStart
  repeat' first
    | with_reducible assumption
    | with_reducible apply reserveFor_orderly
    | with_reducible apply sheetLineStart_orderly
    | with_reducible apply denyScan_orderly
    | with_reducible apply beginCapture_orderly
    | (extract_lets +onlyGivenNames v; first | (refine (fun _ : Orderly w v => ?_) ?_; rotate_left; subst v; rotate_left; clear_value v) | subst v)
    | split
    | with_reducible refine Orderly.update ?_

theorem haltScan_orderly {w u : Chip} (hu : Orderly w u) : Orderly w (haltScan u) := by
  unfold haltScan
  repeat' first
    | with_reducible assumption
    | with_reducible apply returnReservations_orderly
    | with_reducible apply sheetHalted_orderly
    | split
    | with_reducible refine Orderly.update ?_

theorem scanOnward_orderly {w u : Chip} (hu : Orderly w u) : Orderly w (scanOnward u) := by
  unfold scanOnward
  repeat' first
    | with_reducible assumption
    | with_reducible apply haltScan_orderly
    | split
    | with_reducible refine Orderly.update ?_

theorem settleScan_orderly {w u : Chip} (hu : Orderly w u) : Orderly w (settleScan u) := by
  unfold settleScan
  repeat' first
    | with_reducible assumption
    | with_reducible apply settle_orderly
    | with_reducible apply syncMotor_orderly
    | split

theorem scanStep_orderly {w u : Chip} (hu : Orderly w u) (doce : Bool) : Orderly w (scanStep doce u) := by
  unfold scanStep
  repeat' first
    | with_reducible assumption
    | with_reducible apply sheetStep_orderly
    | with_reducible apply scanLineStart_orderly
    | with_reducible apply settleScan_orderly
    | with_reducible apply scanOnward_orderly
    | (extract_lets +onlyGivenNames v; first | (refine (fun _ : Orderly w v => ?_) ?_; rotate_left; subst v; rotate_left; clear_value v) | subst v)
    | split
    | with_reducible refine Orderly.update ?_

theorem scanStart_orderly {w u : Chip} (hu : Orderly w u) : Orderly w (scanStart u) := by
  unfold scanStart
  repeat' first
    | with_reducible assumption
    | with_reducible apply reserveFor_orderly
    | with_reducible apply sheetLineStart_orderly
    | with_reducible apply beginCapture_orderly
    | with_reducible apply settleScan_orderly
    | with_reducible apply scanOnward_orderly
    | with_reducible apply syncMotor_orderly
    | (extract_lets +onlyGivenNames v; first | (refine (fun _ : Orderly w v => ?_) ?_; rotate_left; subst v; rotate_left; clear_value v) | subst v)
    | split
    | with_reducible refine Orderly.update ?_

theorem dropBurned_orderly {w u : Chip} (hu : Orderly w u) : Orderly w (dropBurned u) := by
  unfold dropBurned
  repeat' first
    | with_reducible assumption
    | with_reducible apply refreshLoad_orderly
    | with_reducible apply dropReference_orderly
    | with_reducible apply dropHead_orderly
    | (extract_lets +onlyGivenNames v; subst v)
    | split
    | with_reducible refine Orderly.update ?_

theorem beginTail_orderly {w u : Chip} (hu : Orderly w u) : Orderly w (beginTail u) := by
  unfold beginTail
  repeat' first
    | with_reducible assumption
    | (extract_lets +onlyGivenNames v; subst v)
    | with_reducible refine Orderly.update ?_

theorem printLineStart_orderly {w u : Chip} (hu : Orderly w u) (therm : Byte) : Orderly w (printLineStart therm u) := by
  unfold printLineStart
  repeat' first
    | with_reducible assumption
    | with_reducible apply dropBurned_orderly
    | with_reducible apply beginBurn_orderly
    | with_reducible apply beginTail_orderly
    | with_reducible apply denyPrint_orderly
    | (extract_lets +onlyGivenNames v; refine (fun _ : Orderly w v => ?_) ?_; rotate_left; subst v; rotate_left; clear_value v)
    | split

theorem endRunOut_orderly {w u : Chip} (hu : Orderly w u) : Orderly w (endRunOut u) := by
  unfold endRunOut
  repeat' first
    | with_reducible assumption
    | intro _
    | with_reducible apply dropReference_orderly
    | with_reducible apply releasePrint_orderly
    | with_reducible refine Orderly.fold ?_ ?_
    | (extract_lets +onlyGivenNames v; first | (refine (fun _ : Orderly w v => ?_) ?_; rotate_left; subst v; rotate_left; clear_value v) | subst v)
    | split
    | with_reducible refine Orderly.update ?_

theorem haltPrint_orderly {w u : Chip} (hu : Orderly w u) : Orderly w (haltPrint u) := by
  unfold haltPrint
  repeat' first
    | with_reducible assumption
    | with_reducible apply endRunOut_orderly
    | with_reducible apply beginCut_orderly
    | (extract_lets +onlyGivenNames v; first | (refine (fun _ : Orderly w v => ?_) ?_; rotate_left; subst v; rotate_left; clear_value v) | subst v)
    | split
    | with_reducible refine Orderly.update ?_

theorem printOnward_orderly {w u : Chip} (hu : Orderly w u) : Orderly w (printOnward u) := by
  unfold printOnward
  repeat' first
    | with_reducible assumption
    | with_reducible apply haltPrint_orderly
    | (extract_lets +onlyGivenNames v; refine (fun _ : Orderly w v => ?_) ?_; rotate_left; subst v; rotate_left; clear_value v)
    | split
    | with_reducible refine Orderly.update ?_

theorem settlePrint_orderly {w u : Chip} (hu : Orderly w u) : Orderly w (settlePrint u) := by
  unfold settlePrint
  repeat' first
    | with_reducible assumption
    | with_reducible apply settle_orderly
    | with_reducible apply refreshLoad_orderly
    | with_reducible apply syncMotor_orderly
    | split

theorem printStep_orderly {w u : Chip} (hu : Orderly w u) (therm : Byte) : Orderly w (printStep therm u) := by
  unfold printStep
  repeat' first
    | with_reducible assumption
    | with_reducible apply printLineStart_orderly
    | with_reducible apply settlePrint_orderly
    | with_reducible apply printOnward_orderly
    | (extract_lets +onlyGivenNames v; first | (refine (fun _ : Orderly w v => ?_) ?_; rotate_left; subst v; rotate_left; clear_value v) | subst v)
    | split
    | with_reducible refine Orderly.update ?_

theorem printStart_orderly {w u : Chip} (hu : Orderly w u) (therm : Byte) : Orderly w (printStart therm u) := by
  unfold printStart
  repeat' first
    | with_reducible assumption
    | with_reducible apply beginTail_orderly
    | with_reducible apply beginBurn_orderly
    | with_reducible apply settlePrint_orderly
    | with_reducible apply printOnward_orderly
    | with_reducible apply syncMotor_orderly
    | (extract_lets +onlyGivenNames v; refine (fun _ : Orderly w v => ?_) ?_; rotate_left; subst v; rotate_left; clear_value v)
    | split
    | with_reducible refine Orderly.update ?_

theorem stepChip_orderly {w u : Chip} (hu : Orderly w u) (ch : ChannelId) (doce : Bool) (therm : Byte) : Orderly w (stepChip ch doce therm u) := by
  unfold stepChip
  repeat' first
    | with_reducible assumption
    | with_reducible apply scanStep_orderly
    | with_reducible apply printStep_orderly
    | split

theorem startChip_orderly {w u : Chip} (hu : Orderly w u) (ch : ChannelId) (therm : Byte) : Orderly w (startChip ch therm u) := by
  unfold startChip
  repeat' first
    | with_reducible assumption
    | with_reducible apply scanStart_orderly
    | with_reducible apply printStart_orderly
    | split

theorem holdChip_orderly {w u : Chip} (hu : Orderly w u) (ch : ChannelId) : Orderly w (holdChip ch u) := by
  unfold holdChip
  repeat' first
    | with_reducible assumption
    | with_reducible apply syncMotor_orderly
    | split
    | with_reducible refine Orderly.update ?_

theorem takeUpScan_orderly {w u : Chip} (hu : Orderly w u) (q : OpenReq) : Orderly w (takeUpScan q u) := by
  unfold takeUpScan
  repeat' first
    | with_reducible assumption
    | with_reducible apply openScan_orderly
    | with_reducible apply haltRoute_orderly
    | (extract_lets +onlyGivenNames v; first | (refine (fun _ : Orderly w v => ?_) ?_; rotate_left; subst v; rotate_left; clear_value v) | subst v)
    | split
    | with_reducible refine Orderly.update ?_

theorem takeUpPrint_orderly {w u : Chip} (hu : Orderly w u) (q : OpenReq) : Orderly w (takeUpPrint q u) := by
  unfold takeUpPrint
  repeat' first
    | with_reducible assumption
    | with_reducible apply takeUpHead_orderly
    | with_reducible apply addStall_orderly
    | with_reducible apply haltRoute_orderly
    | (extract_lets +onlyGivenNames v; first | (refine (fun _ : Orderly w v => ?_) ?_; rotate_left; subst v; rotate_left; clear_value v) | subst v)
    | split
    | with_reducible refine Orderly.update ?_

theorem closeChip_orderly {w u : Chip} (hu : Orderly w u) (p : List Byte) : Orderly w (closeChip p u) := by
  unfold closeChip
  repeat' first
    | with_reducible assumption
    | intro _
    | with_reducible apply withLength_orderly
    | with_reducible apply refuse_orderly
    | with_reducible apply settle_orderly
    | with_reducible apply requestClose_orderly
    | with_reducible apply reply_orderly
    | split

theorem rearmScan_orderly {w u : Chip} (hu : Orderly w u) : Orderly w (rearmScan u) := by
  unfold rearmScan
  repeat' first
    | with_reducible assumption
    | with_reducible apply leaveJam_orderly
    | with_reducible apply endOfSheet_orderly
    | (extract_lets +onlyGivenNames v; first | (refine (fun _ : Orderly w v => ?_) ?_; rotate_left; subst v; rotate_left; clear_value v) | subst v)
    | split
    | with_reducible refine Orderly.update ?_

theorem rearmPrint_orderly {w u : Chip} (hu : Orderly w u) : Orderly w (rearmPrint u) := by
  unfold rearmPrint
  repeat' first
    | with_reducible assumption
    | with_reducible apply beginCut_orderly
    | (extract_lets +onlyGivenNames v; first | (refine (fun _ : Orderly w v => ?_) ?_; rotate_left; subst v; rotate_left; clear_value v) | subst v)
    | split
    | with_reducible refine Orderly.update ?_

theorem acceptRearm_orderly {w u : Chip} (hu : Orderly w u) (p : List Byte) (r : ℕ) (x : Ctx) : Orderly w (acceptRearm p r x u) := by
  unfold acceptRearm
  repeat' first
    | with_reducible assumption
    | with_reducible refine modCtx_orderly ?_ _ _ (fun _ => rfl)
    | with_reducible apply reply_orderly
    | with_reducible apply rearmScan_orderly
    | with_reducible apply rearmPrint_orderly
    | with_reducible apply settle_orderly
    | split

theorem rearmChip_orderly {w u : Chip} (hu : Orderly w u) (p : List Byte) : Orderly w (rearmChip p u) := by
  unfold rearmChip
  repeat' first
    | with_reducible assumption
    | intro _
    | with_reducible apply withLength_orderly
    | with_reducible apply refuse_orderly
    | with_reducible apply acceptRearm_orderly
    | split

theorem keepSlots_orderly {w u : Chip} (hu : Orderly w u) (r : ℕ) (es : List LineEntry) : Orderly w (keepSlots r es u) := by
  unfold keepSlots
  repeat' first
    | with_reducible assumption
    | intro _
    | with_reducible refine setSlot_orderly ?_ _ _ (by simp)
    | with_reducible refine Orderly.fold ?_ ?_

theorem abortScan_orderly {w u : Chip} (hu : Orderly w u) : Orderly w (abortScan u) := by
  unfold abortScan
  repeat' first
    | with_reducible assumption
    | with_reducible apply dropLamp_orderly
    | (extract_lets +onlyGivenNames v; first | (refine (fun _ : Orderly w v => ?_) ?_; rotate_left; subst v; rotate_left; clear_value v) | subst v)
    | split
    | with_reducible refine Orderly.update ?_

theorem abortPrint_orderly {w u : Chip} (hu : Orderly w u) (r : ℕ) (kept : Option (List LineEntry)) : Orderly w (abortPrint r kept u) := by
  unfold abortPrint
  repeat' first
    | with_reducible assumption
    | with_reducible apply refreshLoad_orderly
    | with_reducible apply releasePrint_orderly
    | with_reducible apply endCut_orderly
    | with_reducible apply cutStrobe_orderly
    | (extract_lets +onlyGivenNames v; first | (refine (fun _ : Orderly w v => ?_) ?_; rotate_left; subst v; rotate_left; clear_value v) | subst v)
    | split
    | with_reducible refine Orderly.update ?_

theorem abortLanes_orderly {w u : Chip} (hu : Orderly w u) (r : ℕ) : Orderly w (abortLanes r u) := by
  unfold abortLanes
  repeat' first
    | with_reducible assumption
    | with_reducible apply pageEnd_orderly
    | (extract_lets +onlyGivenNames v; first | (refine (fun _ : Orderly w v => ?_) ?_; rotate_left; subst v; rotate_left; clear_value v) | subst v)
    | split
    | with_reducible refine Orderly.update ?_

theorem dropRead_orderly {w u : Chip} (hu : Orderly w u) (j : Job) : Orderly w (dropRead j u) := by
  unfold dropRead
  repeat' first
    | with_reducible assumption
    | with_reducible apply withdraw_orderly
    | with_reducible apply freeFlash_orderly
    | (extract_lets +onlyGivenNames v; refine (fun _ : Orderly w v => ?_) ?_; rotate_left; subst v; rotate_left; clear_value v)
    | split

theorem dropReloc_orderly {w u : Chip} (hu : Orderly w u) (x : Reloc) : Orderly w (dropReloc x u) := by
  unfold dropReloc
  repeat' first
    | with_reducible assumption
    | with_reducible apply damageBlock_orderly
    | (extract_lets +onlyGivenNames v; first | (refine (fun _ : Orderly w v => ?_) ?_; rotate_left; subst v; rotate_left; clear_value v) | subst v)
    | split
    | with_reducible refine Orderly.update ?_

theorem endWorkPage_orderly {w u : Chip} (hu : Orderly w u) (x : Work) : Orderly w (endWorkPage x u) := by
  unfold endWorkPage
  repeat' first
    | with_reducible assumption
    | with_reducible apply endPage_orderly
    | with_reducible apply setWork_orderly
    | split

theorem truncateClose_orderly {w u : Chip} (hu : Orderly w u) : Orderly w (truncateClose u) := by
  unfold truncateClose
  repeat' first
    | with_reducible assumption
    | with_reducible refine Orderly.update ?_

theorem abortWork_orderly {w u : Chip} (hu : Orderly w u) (x : Work) : Orderly w (abortWork x u) := by
  unfold abortWork
  repeat' first
    | with_reducible assumption
    | with_reducible apply setWork_orderly
    | with_reducible apply truncateClose_orderly
    | with_reducible apply endWorkPage_orderly
    | with_reducible apply dropReloc_orderly
    | with_reducible apply withdraw_orderly
    | split

theorem abortStore_orderly {w u : Chip} (hu : Orderly w u) (x : Ctx) : Orderly w (abortStore x u) := by
  unfold abortStore
  repeat' first
    | with_reducible assumption
    | with_reducible apply abortWork_orderly
    | with_reducible apply removePage_orderly
    | with_reducible apply endPage_orderly
    | (extract_lets +onlyGivenNames v; first | (refine (fun _ : Orderly w v => ?_) ?_; rotate_left; subst v; rotate_left; clear_value v) | subst v)
    | split
    | with_reducible refine Orderly.update ?_

theorem abortRoute_orderly {w u : Chip} (hu : Orderly w u) (r : ℕ) (cause : CloseCause) : Orderly w (abortRoute r cause u) := by
  unfold abortRoute
  repeat' first
    | with_reducible assumption
    | with_reducible refine setRoute_orderly ?_ _ _ (fun _ k => nomatch k)
    | with_reducible apply returnSlots_orderly
    | with_reducible apply abortScan_orderly
    | with_reducible apply abortLanes_orderly
    | with_reducible apply keepSlots_orderly
    | with_reducible apply abortPrint_orderly
    | with_reducible apply dropRead_orderly
    | with_reducible apply abortStore_orderly
    | with_reducible apply queueEvent_orderly
    | (extract_lets +onlyGivenNames v; first | (refine (fun _ : Orderly w v => ?_) ?_; rotate_left; subst v; rotate_left; clear_value v) | subst v)
    | split
    | with_reducible refine Orderly.update ?_

theorem abortChip_orderly {w u : Chip} (hu : Orderly w u) (p : List Byte) : Orderly w (abortChip p u) := by
  unfold abortChip
  repeat' first
    | with_reducible assumption
    | intro _
    | with_reducible apply withLength_orderly
    | with_reducible apply refuse_orderly
    | with_reducible apply settleAll_orderly
    | with_reducible apply abortRoute_orderly
    | with_reducible apply reply_orderly
    | split

theorem servePrintMark_orderly {w u : Chip} (hu : Orderly w u) (r : ℕ) : Orderly w (servePrintMark r u) := by
  unfold servePrintMark
  repeat' first
    | with_reducible assumption
    | with_reducible apply refreshLoad_orderly
    | with_reducible apply serveMark_orderly
    | (extract_lets +onlyGivenNames v; subst v)
    | with_reducible refine Orderly.update ?_

theorem acceptRedirect_orderly {w u : Chip} (hu : Orderly w u) (r : ℕ) (sp : StoreParams) :
    Orderly w (acceptRedirect r sp u) := by
  unfold acceptRedirect
  repeat' first
    | with_reducible assumption
    | with_reducible apply dropHead_orderly
    | with_reducible apply endCut_orderly
    | with_reducible apply servePrintMark_orderly
    | with_reducible apply releasePrint_orderly
    | with_reducible apply createPage_orderly
    | with_reducible apply settle_orderly
    | with_reducible refine modCtx_orderly ?_ _ _ markPartial_quota
    | with_reducible refine modCtx_orderly ?_ _ _ (moveToStore_quota sp)
    | (extract_lets +onlyGivenNames v; first | (refine (fun _ : Orderly w v => ?_) ?_; rotate_left; subst v; rotate_left; clear_value v) | subst v)
    | split
    | with_reducible refine Orderly.update ?_

theorem redirectChip_orderly {w u : Chip} (hu : Orderly w u) (p : List Byte) : Orderly w (redirectChip p u) := by
  unfold redirectChip
  repeat' first
    | with_reducible assumption
    | with_reducible apply refuse_orderly
    | with_reducible apply refuseProtected_orderly
    | with_reducible apply acceptRedirect_orderly
    | with_reducible apply reply_orderly
    | split

theorem tripHead_orderly {w u : Chip} (hu : Orderly w u) : Orderly w (tripHead u) := by
  unfold tripHead
  repeat' first
    | with_reducible assumption
    | with_reducible apply cutStrobe_orderly
    | with_reducible apply refreshLoad_orderly
    | (extract_lets +onlyGivenNames v; subst v)
    | split
    | with_reducible refine Orderly.update ?_

theorem trip_orderly {w u : Chip} (hu : Orderly w u) : Orderly w (trip u) := by
  unfold trip
  repeat' first
    | with_reducible assumption
    | intro _
    | with_reducible apply tripHead_orderly
    | with_reducible apply endRunOut_orderly
    | with_reducible apply haltRoute_orderly
    | with_reducible apply discardCapture_orderly
    | with_reducible apply returnReservations_orderly
    | with_reducible apply settleAll_orderly
    | with_reducible apply queueEvent_orderly
    | with_reducible refine Orderly.fold ?_ ?_
    | (extract_lets +onlyGivenNames v; subst v)
    | split
    | with_reducible refine Orderly.update ?_

theorem tripChip_orderly {w u : Chip} (hu : Orderly w u) : Orderly w (tripChip u) := by
  unfold tripChip
  repeat' first
    | with_reducible assumption
    | with_reducible apply trip_orderly
    | (extract_lets +onlyGivenNames v; first | (refine (fun _ : Orderly w v => ?_) ?_; rotate_left; subst v; rotate_left; clear_value v) | subst v)
    | split
    | with_reducible refine Orderly.update ?_

theorem coverCloseChip_orderly {w u : Chip} (hu : Orderly w u) : Orderly w (coverCloseChip u) := by
  unfold coverCloseChip
  repeat' first
    | with_reducible assumption
    | with_reducible apply queueEvent_orderly
    | with_reducible apply settleAll_orderly
    | (extract_lets +onlyGivenNames v; first | (refine (fun _ : Orderly w v => ?_) ?_; rotate_left; subst v; rotate_left; clear_value v) | subst v)
    | split
    | with_reducible refine Orderly.update ?_

theorem paperOutChip_orderly {w u : Chip} (hu : Orderly w u) : Orderly w (paperOutChip u) := by
  unfold paperOutChip
  repeat' first
    | with_reducible assumption
    | with_reducible apply queueEvent_orderly
    | with_reducible apply addStall_orderly
    | with_reducible apply cutStrobe_orderly
    | with_reducible apply settle_orderly
    | (extract_lets +onlyGivenNames v; first | (refine (fun _ : Orderly w v => ?_) ?_; rotate_left; subst v; rotate_left; clear_value v) | subst v)
    | split
    | with_reducible refine Orderly.update ?_

theorem paperInChip_orderly {w u : Chip} (hu : Orderly w u) : Orderly w (paperInChip u) := by
  unfold paperInChip
  repeat' first
    | with_reducible assumption
    | with_reducible apply queueEvent_orderly
    | with_reducible apply settle_orderly
    | with_reducible apply refreshLoad_orderly
    | with_reducible apply dropStall_orderly
    | (extract_lets +onlyGivenNames v; first | (refine (fun _ : Orderly w v => ?_) ?_; rotate_left; subst v; rotate_left; clear_value v) | subst v)
    | split
    | with_reducible refine Orderly.update ?_

theorem retryClaim_orderly {w u : Chip} (hu : Orderly w u) : Orderly w (retryClaim u) := by
  unfold retryClaim
  repeat' first
    | with_reducible assumption
    | with_reducible apply tryClaim_orderly
    | split

theorem copyNext_orderly {w u : Chip} (hu : Orderly w u) (x : Reloc) : Orderly w (copyNext x u) := by
  unfold copyNext
  repeat' first
    | with_reducible assumption
    | with_reducible apply askRead_orderly
    | with_reducible apply relocRead_orderly
    | with_reducible apply askProgram_orderly
    | (extract_lets +onlyGivenNames v; first | (refine (fun _ : Orderly w v => ?_) ?_; rotate_left; subst v; rotate_left; clear_value v) | subst v)
    | split
    | with_reducible refine Orderly.update ?_

theorem beginReloc_orderly {w u : Chip} (hu : Orderly w u) (source : ℕ) (r : ℕ) : Orderly w (beginReloc source r u) := by
  unfold beginReloc
  repeat' first
    | with_reducible assumption
    | with_reducible apply tryClaim_orderly
    | (extract_lets +onlyGivenNames v; subst v)
    | with_reducible refine Orderly.update ?_

theorem relocFailed_orderly {w u : Chip} (hu : Orderly w u) (source : ℕ) (target : ℕ) (r : ℕ) : Orderly w (relocFailed source target r u) := by
  unfold relocFailed
  repeat' first
    | with_reducible assumption
    | with_reducible apply beginReloc_orderly
    | with_reducible apply damageBlock_orderly
    | with_reducible apply programFailed_orderly

theorem relocDone_orderly {w u : Chip} (hu : Orderly w u) (x : Reloc) (target : ℕ) (r : ℕ) (id : ℕ) (size : ℕ) : Orderly w (relocDone x target r id size u) := by
  unfold relocDone
  repeat' first
    | with_reducible assumption
    | with_reducible apply modBlock_orderly
    | with_reducible apply modPage_orderly
    | with_reducible apply damageBlock_orderly
    | with_reducible apply dropHead_orderly
    | (extract_lets +onlyGivenNames v; subst v)
    | split
    | with_reducible refine Orderly.update ?_

theorem relocProgrammed_orderly {w u : Chip} (hu : Orderly w u) (ok : Bool) : Orderly w (relocProgrammed ok u) := by
  unfold relocProgrammed
  repeat' first
    | with_reducible assumption
    | with_reducible apply relocFailed_orderly
    | with_reducible apply copyNext_orderly
    | with_reducible apply modBlock_orderly
    | with_reducible apply relocDone_orderly
    | with_reducible apply endWorkPage_orderly
    | with_reducible apply dropReloc_orderly
    | with_reducible apply programFailed_orderly
    | split

theorem relocRead_orderly {w u : Chip} (hu : Orderly w u) (m : List Host.Cell) : Orderly w (relocRead m u) := by
  unfold relocRead
  repeat' first
    | with_reducible assumption
    | with_reducible apply endWorkPage_orderly
    | with_reducible apply dropReloc_orderly
    | with_reducible apply askProgram_orderly
    | with_reducible apply askRead_orderly
    | (extract_lets +onlyGivenNames v; subst v)
    | split
    | with_reducible refine Orderly.update ?_

theorem entryDone_orderly {w u : Chip} (hu : Orderly w u) (ok : Bool) : Orderly w (entryDone ok u) := by
  unfold entryDone
  repeat' first
    | with_reducible assumption
    | with_reducible apply modBlock_orderly
    | with_reducible apply setWork_orderly
    | with_reducible apply modPage_orderly
    | with_reducible apply dropHead_orderly
    | with_reducible apply endPage_orderly
    | with_reducible apply programFailed_orderly
    | with_reducible apply beginReloc_orderly
    | (extract_lets +onlyGivenNames v; first | (refine (fun _ : Orderly w v => ?_) ?_; rotate_left; subst v; rotate_left; clear_value v) | subst v)
    | split

theorem claimFailed_orderly {w u : Chip} (hu : Orderly w u) (b : ℕ) : Orderly w (claimFailed b u) := by
  unfold claimFailed
  repeat' first
    | with_reducible assumption
    | with_reducible apply programFailed_orderly
    | with_reducible apply modPage_orderly
    | with_reducible apply damageBlock_orderly
    | with_reducible apply tryClaim_orderly
    | with_reducible apply withdraw_orderly
    | (extract_lets +onlyGivenNames v; first | (refine (fun _ : Orderly w v => ?_) ?_; rotate_left; subst v; rotate_left; clear_value v) | subst v)
    | split

theorem claimDone_orderly {w u : Chip} (hu : Orderly w u) (b : ℕ) (reloc : Bool) (ok : Bool) : Orderly w (claimDone b reloc ok u) := by
  unfold claimDone
  repeat' first
    | with_reducible assumption
    | with_reducible apply copyNext_orderly
    | with_reducible apply relocFailed_orderly
    | with_reducible apply endWorkPage_orderly
    | with_reducible apply dropReloc_orderly
    | with_reducible apply programFailed_orderly
    | with_reducible apply claimFailed_orderly
    | split

theorem pageClosed_orderly {w u : Chip} (hu : Orderly w u) (truncated : Bool) : Orderly w (pageClosed truncated u) := by
  unfold pageClosed
  repeat' first
    | with_reducible assumption
    | with_reducible apply forgetPage_orderly
    | with_reducible apply modPage_orderly
    | with_reducible apply setWork_orderly
    | with_reducible apply serveMark_orderly
    | (extract_lets +onlyGivenNames v; refine (fun _ : Orderly w v => ?_) ?_; rotate_left; subst v; rotate_left; clear_value v)
    | split

theorem closeDone_orderly {w u : Chip} (hu : Orderly w u) (b : ℕ) (page : Option Bool) (ok : Bool) : Orderly w (closeDone b page ok u) := by
  unfold closeDone
  repeat' first
    | with_reducible assumption
    | with_reducible apply programFailed_orderly
    | with_reducible apply pageClosed_orderly
    | (extract_lets +onlyGivenNames v; refine (fun _ : Orderly w v => ?_) ?_; rotate_left; subst v; rotate_left; clear_value v)
    | split

theorem endInstall_orderly {w u : Chip} (hu : Orderly w u) (res : OpResult) : Orderly w (endInstall res u) := by
  unfold endInstall
  repeat' first
    | with_reducible assumption
    | with_reducible apply queueEvent_orderly
    | (extract_lets +onlyGivenNames v; subst v)
    | split
    | with_reducible refine Orderly.update ?_

theorem retireEnded_orderly {w u : Chip} (hu : Orderly w u) (why : RetireFor) (failed : Bool) : Orderly w (retireEnded why failed u) := by
  unfold retireEnded
  repeat' first
    | with_reducible assumption
    | with_reducible apply queueEvent_orderly
    | with_reducible apply endInstall_orderly
    | (extract_lets +onlyGivenNames v; first | (refine (fun _ : Orderly w v => ?_) ?_; rotate_left; subst v; rotate_left; clear_value v) | subst v)
    | split
    | with_reducible refine Orderly.update ?_

theorem retireDone_orderly {w u : Chip} (hu : Orderly w u) (b : ℕ) (why : RetireFor) (ok : Bool) : Orderly w (retireDone b why ok u) := by
  unfold retireDone
  repeat' first
    | with_reducible assumption
    | with_reducible apply programFailed_orderly
    | with_reducible apply setBlockState_orderly
    | with_reducible apply retireEnded_orderly
    | with_reducible apply joinEraseQueue_orderly
    | split

theorem readBack_orderly {w u : Chip} (hu : Orderly w u) (j : RowJob) (f : Flash) : Orderly w (readBack j f u) := by
  unfold readBack
  repeat' first
    | with_reducible assumption
    | intro _
    | with_reducible apply joinErased_orderly
    | with_reducible apply modBlock_orderly
    | with_reducible refine Orderly.fold ?_ ?_
    | (extract_lets +onlyGivenNames v; subst v)
    | split
    | with_reducible refine Orderly.update ?_

theorem rowDone_orderly {w u : Chip} (hu : Orderly w u) (j : RowJob) (f : Flash) (ok : Bool) : Orderly w (rowDone j f ok u) := by
  unfold rowDone
  repeat' first
    | with_reducible assumption
    | with_reducible apply readBack_orderly
    | with_reducible apply retryClaim_orderly
    | with_reducible apply queueEvent_orderly
    | (extract_lets +onlyGivenNames v; subst v)
    | split
    | with_reducible refine Orderly.update ?_

theorem moveOn_orderly {w u : Chip} (hu : Orderly w u) (r : ℕ) (lines : ℕ) : Orderly w (moveOn r lines u) := by
  unfold moveOn
  repeat' first
    | with_reducible assumption
    | with_reducible refine modCtx_orderly ?_ _ _ (fun _ => rfl)
    | with_reducible apply pageEnd_orderly
    | (extract_lets +onlyGivenNames v; first | (refine (fun _ : Orderly w v => ?_) ?_; rotate_left; subst v; rotate_left; clear_value v) | subst v)
    | split
    | with_reducible refine Orderly.update ?_

theorem readDone_orderly {w u : Chip} (hu : Orderly w u) (r : ℕ) (slot : ℕ) (size : ℕ) (blank : Bool) (line : Line × Bool) : Orderly w (readDone r slot size blank line u) := by
  unfold readDone
  repeat' first
    | with_reducible assumption
    | with_reducible apply fillComplete_orderly
    | with_reducible refine modCtx_orderly ?_ _ _ (fun _ => rfl)
    | with_reducible apply moveOn_orderly
    | with_reducible apply pageEnd_orderly
    | (extract_lets +onlyGivenNames v; first | (refine (fun _ : Orderly w v => ?_) ?_; rotate_left; subst v; rotate_left; clear_value v) | subst v)
    | split
    | with_reducible refine Orderly.update ?_

theorem readRequestChip_orderly {w u : Chip} (hu : Orderly w u) : Orderly w (readRequestChip u) := by
  unfold readRequestChip
  repeat' first
    | with_reducible assumption
    | with_reducible refine takeSlot_orderly ?_ ‹_› (fun _ => rfl)
    | with_reducible apply settleAll_orderly
    | with_reducible apply readDone_orderly
    | with_reducible apply askRead_orderly
    | (extract_lets +onlyGivenNames v; first | (refine (fun _ : Orderly w v => ?_) ?_; rotate_left; subst v; rotate_left; clear_value v) | subst v)
    | split
    | with_reducible refine Orderly.update ?_

theorem lineReadDone_orderly {w u : Chip} (hu : Orderly w u) (m : List Host.Cell) : Orderly w (lineReadDone m u) := by
  unfold lineReadDone
  repeat' first
    | with_reducible assumption
    | with_reducible apply readDone_orderly
    | with_reducible apply returnSlot_orderly
    | with_reducible apply pageEnd_orderly
    | (extract_lets +onlyGivenNames v; first | (refine (fun _ : Orderly w v => ?_) ?_; rotate_left; subst v; rotate_left; clear_value v) | subst v)
    | split
    | with_reducible refine Orderly.update ?_

theorem eraseStartChip_orderly {w u : Chip} (hu : Orderly w u) : Orderly w (eraseStartChip u) := by
  unfold eraseStartChip
  repeat' first
    | with_reducible assumption
    | with_reducible apply setBlockState_orderly
    | with_reducible apply grant_orderly
    | with_reducible apply setErase_orderly
    | (extract_lets +onlyGivenNames v; subst v)
    | split
    | with_reducible refine Orderly.update ?_

theorem pulseEndChip_orderly {w u : Chip} (hu : Orderly w u) : Orderly w (pulseEndChip u) := by
  unfold pulseEndChip
  repeat' first
    | with_reducible assumption
    | with_reducible apply grant_orderly
    | with_reducible apply setErase_orderly
    | (extract_lets +onlyGivenNames v; subst v)
    | split

theorem minPulseChip_orderly {w u : Chip} (hu : Orderly w u) : Orderly w (minPulseChip u) := by
  unfold minPulseChip
  repeat' first
    | with_reducible assumption
    | with_reducible apply grant_orderly
    | with_reducible apply setErase_orderly
    | (extract_lets +onlyGivenNames v; subst v)
    | split

theorem totalNext_orderly {w u : Chip} (hu : Orderly w u) (done : ℕ) : Orderly w (totalNext done u) := by
  unfold totalNext
  repeat' first
    | with_reducible assumption
    | with_reducible apply setErase_orderly
    | with_reducible apply setBlockState_orderly
    | (extract_lets +onlyGivenNames v; subst v)
    | split
    | with_reducible refine Orderly.update ?_

theorem eraseOver_orderly {w u : Chip} (hu : Orderly w u) (b : ℕ) (failed : Bool) : Orderly w (eraseOver b failed u) := by
  unfold eraseOver
  repeat' first
    | with_reducible assumption
    | with_reducible apply setErase_orderly
    | with_reducible apply totalNext_orderly
    | with_reducible apply grant_orderly
    | with_reducible apply settleAll_orderly
    | with_reducible apply retryClaim_orderly
    | (extract_lets +onlyGivenNames v; first | (refine (fun _ : Orderly w v => ?_) ?_; rotate_left; subst v; rotate_left; clear_value v) | subst v)
    | split
    | with_reducible refine Orderly.update ?_

theorem eraseFailed_orderly {w u : Chip} (hu : Orderly w u) (e : EraseProg) : Orderly w (eraseFailed e u) := by
  unfold eraseFailed
  repeat' first
    | with_reducible assumption
    | with_reducible apply setBlockState_orderly
    | with_reducible apply setErase_orderly
    | with_reducible apply queueEvent_orderly
    | (extract_lets +onlyGivenNames v; subst v)
    | with_reducible refine Orderly.update ?_

theorem countDone_orderly {w u : Chip} (hu : Orderly w u) (e : EraseProg) (ok : Bool) : Orderly w (countDone e ok u) := by
  unfold countDone
  repeat' first
    | with_reducible assumption
    | with_reducible apply modBlock_orderly
    | with_reducible apply setBlockState_orderly
    | with_reducible apply joinErased_orderly
    | with_reducible apply programFailed_orderly
    | with_reducible apply joinEraseQueue_orderly
    | with_reducible apply eraseOver_orderly
    | (extract_lets +onlyGivenNames v; first | (refine (fun _ : Orderly w v => ?_) ?_; rotate_left; subst v; rotate_left; clear_value v) | subst v)
    | split

theorem queuePending_orderly {w u : Chip} (hu : Orderly w u) : Orderly w (queuePending u) := by
  unfold queuePending
  repeat' first
    | with_reducible assumption
    | with_reducible apply queueEvent_orderly
    | (extract_lets +onlyGivenNames v; subst v)
    | split
    | with_reducible refine Orderly.update ?_

theorem dropChunk_orderly {w u : Chip} (hu : Orderly w u) : Orderly w (dropChunk u) := by
  unfold dropChunk
  repeat' first
    | with_reducible assumption
    | with_reducible apply dropRead_orderly
    | (extract_lets +onlyGivenNames v; subst v)
    | split
    | with_reducible refine Orderly.update ?_

theorem endServing_orderly {w u : Chip} (hu : Orderly w u) : Orderly w (endServing u) := by
  unfold endServing
  repeat' first
    | with_reducible assumption
    | with_reducible apply dropChunk_orderly
    | with_reducible apply queuePending_orderly
    | with_reducible apply queueEvent_orderly
    | (extract_lets +onlyGivenNames v; subst v)
    | with_reducible refine Orderly.update ?_

theorem endAbsent_orderly {w u : Chip} (hu : Orderly w u) : Orderly w (endAbsent u) := by
  unfold endAbsent
  repeat' first
    | with_reducible assumption
    | with_reducible apply queueRecord_orderly
    | with_reducible apply queuePending_orderly
    | (extract_lets +onlyGivenNames v; subst v)
    | with_reducible refine Orderly.update ?_

theorem endComplete_orderly {w u : Chip} (hu : Orderly w u) : Orderly w (endComplete u) := by
  unfold endComplete
  repeat' first
    | with_reducible assumption
    | with_reducible apply queueRecord_orderly
    | with_reducible apply queuePending_orderly
    | with_reducible apply queueEvent_orderly
    | (extract_lets +onlyGivenNames v; subst v)
    | with_reducible refine Orderly.update ?_

theorem bootFetchChip_orderly {w u : Chip} (hu : Orderly w u) (p : List Byte) : Orderly w (bootFetchChip p u) := by
  unfold bootFetchChip
  repeat' first
    | with_reducible assumption
    | intro _
    | with_reducible apply withLength_orderly
    | with_reducible apply refuse_orderly
    | with_reducible apply endAbsent_orderly
    | with_reducible apply reply_orderly
    | with_reducible apply askRead_orderly
    | with_reducible apply endComplete_orderly
    | (extract_lets +onlyGivenNames v; first | (refine (fun _ : Orderly w v => ?_) ?_; rotate_left; subst v; rotate_left; clear_value v) | subst v)
    | split
    | with_reducible refine Orderly.update ?_

theorem enterHolding_orderly {w u : Chip} (hu : Orderly w u) : Orderly w (enterHolding u) := by
  unfold enterHolding
  repeat' first
    | with_reducible assumption
    | with_reducible apply dropChunk_orderly
    | (extract_lets +onlyGivenNames v; first | (refine (fun _ : Orderly w v => ?_) ?_; rotate_left; subst v; rotate_left; clear_value v) | subst v)
    | with_reducible refine Orderly.update ?_

theorem releaseHold_orderly {w u : Chip} (hu : Orderly w u) : Orderly w (releaseHold u) := by
  unfold releaseHold
  repeat' first
    | with_reducible assumption
    | (extract_lets +onlyGivenNames v; subst v)
    | split
    | with_reducible refine Orderly.update ?_

theorem bootReleaseChip_orderly {w u : Chip} (hu : Orderly w u) : Orderly w (bootReleaseChip u) := by
  unfold bootReleaseChip
  repeat' first
    | with_reducible assumption
    | with_reducible apply releaseHold_orderly
    | (extract_lets +onlyGivenNames v; first | (refine (fun _ : Orderly w v => ?_) ?_; rotate_left; subst v; rotate_left; clear_value v) | subst v)
    | split
    | with_reducible refine Orderly.update ?_

theorem checkEnds_orderly {w u : Chip} (hu : Orderly w u) (res : ImageResult) : Orderly w (checkEnds res u) := by
  unfold checkEnds
  repeat' first
    | with_reducible assumption
    | with_reducible apply endInstall_orderly
    | with_reducible apply askProgram_orderly
    | (extract_lets +onlyGivenNames v; first | (refine (fun _ : Orderly w v => ?_) ?_; rotate_left; subst v; rotate_left; clear_value v) | subst v)
    | split
    | with_reducible refine Orderly.update ?_

theorem startCheck_orderly {w u : Chip} (hu : Orderly w u) (page : ℕ) (length : ℕ) (checksum : ℕ) : Orderly w (startCheck page length checksum u) := by
  unfold startCheck
  repeat' first
    | with_reducible assumption
    | with_reducible apply checkEnds_orderly
    | with_reducible apply askRead_orderly
    | (extract_lets +onlyGivenNames v; subst v)
    | split
    | with_reducible refine Orderly.update ?_

theorem checkRead_orderly {w u : Chip} (hu : Orderly w u) (m : List Host.Cell) (k : Check) : Orderly w (checkRead m k u) := by
  unfold checkRead
  repeat' first
    | with_reducible assumption
    | with_reducible apply checkEnds_orderly
    | with_reducible apply askRead_orderly
    | (extract_lets +onlyGivenNames v; subst v)
    | split
    | with_reducible refine Orderly.update ?_

theorem chunkFails_orderly {w u : Chip} (hu : Orderly w u) : Orderly w (chunkFails u) := by
  unfold chunkFails
  repeat' first
    | with_reducible assumption
    | with_reducible apply endAbsent_orderly
    | (extract_lets +onlyGivenNames v; subst v)
    | with_reducible refine Orderly.update ?_

theorem chunkRead_orderly {w u : Chip} (hu : Orderly w u) (m : List Host.Cell) (k : Chunk) : Orderly w (chunkRead m k u) := by
  unfold chunkRead
  repeat' first
    | with_reducible assumption
    | with_reducible apply chunkFails_orderly
    | with_reducible apply askRead_orderly
    | with_reducible apply queueRecord_orderly
    | (extract_lets +onlyGivenNames v; subst v)
    | split
    | with_reducible refine Orderly.update ?_

theorem imageReadDone_orderly {w u : Chip} (hu : Orderly w u) (m : List Host.Cell) : Orderly w (imageReadDone m u) := by
  unfold imageReadDone
  repeat' first
    | with_reducible assumption
    | with_reducible apply checkRead_orderly
    | with_reducible apply chunkRead_orderly
    | split

theorem installChip_orderly {w u : Chip} (hu : Orderly w u) (m : List Host.Cell) (p : List Byte) : Orderly w (installChip m p u) := by
  unfold installChip
  repeat' first
    | with_reducible assumption
    | intro _
    | with_reducible apply withLength_orderly
    | with_reducible apply refuseProtected_orderly
    | with_reducible apply refuse_orderly
    | with_reducible apply reply_orderly
    | with_reducible apply startCheck_orderly
    | (extract_lets +onlyGivenNames v; first | (refine (fun _ : Orderly w v => ?_) ?_; rotate_left; subst v; rotate_left; clear_value v) | subst v)
    | split
    | with_reducible refine Orderly.update ?_

theorem installSwitch_orderly {w u : Chip} (hu : Orderly w u) (i : Install) : Orderly w (installSwitch i u) := by
  unfold installSwitch
  repeat' first
    | with_reducible assumption
    | with_reducible apply endInstall_orderly
    | (extract_lets +onlyGivenNames v; first | (refine (fun _ : Orderly w v => ?_) ?_; rotate_left; subst v; rotate_left; clear_value v) | subst v)
    | split
    | with_reducible refine Orderly.update ?_

theorem markDone_orderly {w u : Chip} (hu : Orderly w u) (ok : Bool) : Orderly w (markDone ok u) := by
  unfold markDone
  repeat' first
    | with_reducible assumption
    | with_reducible apply installSwitch_orderly
    | with_reducible apply endInstall_orderly
    | (extract_lets +onlyGivenNames v; subst v)
    | split
    | with_reducible refine Orderly.update ?_

theorem retireFormer_orderly {w u : Chip} (hu : Orderly w u) (b : ℕ) : Orderly w (retireFormer u b) := by
  unfold retireFormer
  repeat' first
    | with_reducible assumption
    | with_reducible apply retireBlock_orderly
    | with_reducible apply retireEnded_orderly
    | with_reducible apply joinEraseQueue_orderly
    | with_reducible apply setBlockState_orderly
    | split

theorem installRetireChip_orderly {w u : Chip} (hu : Orderly w u) : Orderly w (installRetireChip u) := by
  unfold installRetireChip
  repeat' first
    | with_reducible assumption
    | intro _
    | with_reducible apply endInstall_orderly
    | with_reducible apply removePage_orderly
    | with_reducible apply retireFormer_orderly
    | with_reducible refine Orderly.fold ?_ ?_
    | (extract_lets +onlyGivenNames v; first | (refine (fun _ : Orderly w v => ?_) ?_; rotate_left; subst v; rotate_left; clear_value v) | subst v)
    | split
    | with_reducible refine Orderly.update ?_

theorem supersede_orderly {w u : Chip} (hu : Orderly w u) (pg : Page) : Orderly w (supersede u pg) := by
  unfold supersede
  repeat' first
    | with_reducible assumption
    | with_reducible apply retireBlocks_orderly
    | with_reducible apply removePage_orderly
    | split

theorem selectBoot_orderly {w u : Chip} (hu : Orderly w u) (m : List Host.Cell) : Orderly w (selectBoot m u) := by
  unfold selectBoot
  repeat' first
    | with_reducible assumption
    | intro _
    | with_reducible apply startCheck_orderly
    | with_reducible apply supersede_orderly
    | with_reducible refine Orderly.fold ?_ ?_
    | (extract_lets +onlyGivenNames v; subst v)
    | split
    | with_reducible refine Orderly.update ?_

theorem cancelSleep_orderly {w u : Chip} (hu : Orderly w u) (cause : CancelCause) : Orderly w (cancelSleep cause u) := by
  unfold cancelSleep
  split
  next h =>
    refine queueEvent_orderly (running_orderly hu ?_ (.inl ?_) ?_) _
    · simp [hostUp, h]
    · rfl
    · rfl
  next => exact hu

theorem abandonLine_orderly {w u : Chip} (hu : Orderly w u) : Orderly w (abandonLine u) := by
  unfold abandonLine
  split
  · refine returnSlot_orderly (modCtx_orderly ?_ _ _ ?_) _
    · exact Orderly.update hu
    · exact fun _ => rfl
  · exact Orderly.update hu

theorem linkHostReset_orderly {w u : Chip} (hu : Orderly w u) : Orderly w (linkHostReset u) := by
  unfold linkHostReset
  repeat' first
    | with_reducible assumption
    | with_reducible apply abandonLine_orderly
    | (extract_lets +onlyGivenNames v; first | (refine (fun _ : Orderly w v => ?_) ?_; rotate_left; subst v; rotate_left; clear_value v) | subst v)
    | split
    | with_reducible refine Orderly.update ?_

theorem hostReset_orderly {w u : Chip} (hu : Orderly w u) : Orderly w (hostReset u) :=
  enterHolding_orderly (cancelSleep_orderly (linkHostReset_orderly hu) _)

theorem addReset_orderly {w u : Chip} (hu : Orderly w u) (f : Chip → Chip)
    (hf : ∀ c, Orderly w c → Orderly w (f c)) : Orderly w (addReset f u) := by
  unfold addReset
  split
  · exact hf u hu
  · exact hostReset_orderly (hf u hu)

theorem setService_orderly {w u : Chip} (hu : Orderly w u) (x : ServiceState) : Orderly w (setService x u) := by
  unfold setService
  repeat' first
    | with_reducible assumption
    | (extract_lets +onlyGivenNames v; subst v)
    | with_reducible refine Orderly.update ?_

theorem serviceFailure_orderly {w u : Chip} (hu : Orderly w u) : Orderly w (serviceFailure u) := by
  unfold serviceFailure
  repeat' first
    | with_reducible assumption
    | intro _
    | with_reducible apply abortRoute_orderly
    | with_reducible apply addReset_orderly
    | with_reducible apply settleAll_orderly
    | with_reducible apply releaseHold_orderly
    | with_reducible apply hostReset_orderly
    | with_reducible refine Orderly.fold ?_ ?_
    | (extract_lets +onlyGivenNames v; subst v)
    | with_reducible refine Orderly.update ?_

theorem serviceRequestChip_orderly {w u : Chip} (hu : Orderly w u) (p : List Byte) : Orderly w (serviceRequestChip p u) := by
  unfold serviceRequestChip
  repeat' first
    | with_reducible assumption
    | intro _
    | with_reducible apply withLength_orderly
    | with_reducible apply refuse_orderly
    | with_reducible apply reply_orderly
    | with_reducible apply setService_orderly
    | split

theorem serviceCodeChip_orderly {w u : Chip} (hu : Orderly w u) (p : List Byte) : Orderly w (serviceCodeChip p u) := by
  unfold serviceCodeChip
  repeat' first
    | with_reducible assumption
    | intro _
    | with_reducible apply withLength_orderly
    | with_reducible apply setService_orderly
    | with_reducible apply reply_orderly
    | with_reducible apply serviceFailure_orderly
    | with_reducible apply refuseProtected_orderly
    | with_reducible apply refuse_orderly
    | split

theorem windowExpiryChip_orderly {w u : Chip} (hu : Orderly w u) : Orderly w (windowExpiryChip u) := by
  unfold windowExpiryChip
  repeat' first
    | with_reducible assumption
    | with_reducible apply serviceFailure_orderly
    | split

theorem dropLocked_orderly {w u : Chip} (hu : Orderly w u) (j : Job) : Orderly w (dropLocked u j) := by
  unfold dropLocked
  repeat' first
    | with_reducible assumption
    | with_reducible apply retireEnded_orderly
    | with_reducible apply joinEraseQueue_orderly
    | with_reducible apply setBlockState_orderly
    | with_reducible apply endInstall_orderly
    | split

theorem withdrawLocked_orderly {w u : Chip} (hu : Orderly w u) : Orderly w (withdrawLocked u) := by
  unfold withdrawLocked
  repeat' first
    | with_reducible assumption
    | intro _
    | with_reducible apply dropLocked_orderly
    | with_reducible refine Orderly.fold ?_ ?_
    | (extract_lets +onlyGivenNames v; subst v)
    | with_reducible refine Orderly.update ?_

theorem loseImage_orderly {w u : Chip} (hu : Orderly w u) : Orderly w (loseImage u) := by
  unfold loseImage
  repeat' first
    | with_reducible assumption
    | (extract_lets +onlyGivenNames v; subst v)
    | with_reducible refine Orderly.update ?_

theorem acceptDelete_orderly {w u : Chip} (hu : Orderly w u) (id : ℕ) : Orderly w (acceptDelete id u) := by
  unfold acceptDelete
  repeat' first
    | with_reducible assumption
    | with_reducible apply removePage_orderly
    | with_reducible apply loseImage_orderly
    | with_reducible apply queueEvent_orderly
    | with_reducible apply retireBlocks_orderly
    | (extract_lets +onlyGivenNames v; first | (refine (fun _ : Orderly w v => ?_) ?_; rotate_left; subst v; rotate_left; clear_value v) | subst v)
    | split

theorem deleteChip_orderly {w u : Chip} (hu : Orderly w u) (p : List Byte) : Orderly w (deleteChip p u) := by
  unfold deleteChip
  repeat' first
    | with_reducible assumption
    | intro _
    | with_reducible apply withLength_orderly
    | with_reducible apply refuseProtected_orderly
    | with_reducible apply refuse_orderly
    | with_reducible apply acceptDelete_orderly
    | with_reducible apply reply_orderly
    | split

theorem clearStatusChip_orderly {w u : Chip} (hu : Orderly w u) (p : List Byte) : Orderly w (clearStatusChip p u) := by
  unfold clearStatusChip
  repeat' first
    | with_reducible assumption
    | intro _
    | with_reducible apply withLength_orderly
    | with_reducible apply reply_orderly
    | (extract_lets +onlyGivenNames v; subst v)
    | with_reducible refine Orderly.update ?_

theorem setLocks_orderly {w u : Chip} (hu : Orderly w u) (bs : List ℕ) : Orderly w (setLocks bs u) := by
  unfold setLocks
  repeat' first
    | with_reducible assumption
    | intro _
    | with_reducible apply modBlock_orderly
    | with_reducible refine Orderly.fold ?_ ?_
    | (extract_lets +onlyGivenNames v; first | (refine (fun _ : Orderly w v => ?_) ?_; rotate_left; subst v; rotate_left; clear_value v) | subst v)
    | with_reducible refine Orderly.update ?_

theorem acceptLockPage_orderly {w u : Chip} (hu : Orderly w u) (id : ℕ) : Orderly w (acceptLockPage id u) := by
  unfold acceptLockPage
  repeat' first
    | with_reducible assumption
    | with_reducible apply queueEvent_orderly
    | with_reducible apply askProgram_orderly
    | with_reducible apply setLocks_orderly
    | (extract_lets +onlyGivenNames v; subst v)
    | split

theorem lockPageChip_orderly {w u : Chip} (hu : Orderly w u) (p : List Byte) : Orderly w (lockPageChip p u) := by
  unfold lockPageChip
  repeat' first
    | with_reducible assumption
    | intro _
    | with_reducible apply withLength_orderly
    | with_reducible apply refuseProtected_orderly
    | with_reducible apply refuse_orderly
    | with_reducible apply acceptLockPage_orderly
    | with_reducible apply reply_orderly
    | split

theorem setCodeChip_orderly {w u : Chip} (hu : Orderly w u) (p : List Byte) : Orderly w (setCodeChip p u) := by
  unfold setCodeChip
  repeat' first
    | with_reducible assumption
    | with_reducible apply refuse_orderly
    | with_reducible apply refuseProtected_orderly
    | with_reducible apply reply_orderly
    | with_reducible apply askProgram_orderly
    | (extract_lets +onlyGivenNames v; first | (refine (fun _ : Orderly w v => ?_) ?_; rotate_left; subst v; rotate_left; clear_value v) | subst v)
    | split
    | with_reducible refine Orderly.update ?_

theorem setMasterChip_orderly {w u : Chip} (hu : Orderly w u) (p : List Byte) : Orderly w (setMasterChip p u) := by
  unfold setMasterChip
  repeat' first
    | with_reducible assumption
    | intro _
    | with_reducible apply withLength_orderly
    | with_reducible apply refuse_orderly
    | with_reducible apply reply_orderly
    | with_reducible apply queueEvent_orderly
    | with_reducible apply askProgram_orderly
    | (extract_lets +onlyGivenNames v; first | (refine (fun _ : Orderly w v => ?_) ?_; rotate_left; subst v; rotate_left; clear_value v) | subst v)
    | split
    | with_reducible refine Orderly.update ?_

theorem setupChip_orderly {w u : Chip} (hu : Orderly w u) (k : Setup) (p : List Byte) : Orderly w (setupChip k p u) := by
  refine withLength_orderly hu _ _ _ fun c hc => ?_
  split
  · exact refuseProtected_orderly hc _
  · exact refuse_orderly hc _ _
  · exact Orderly.update (reply_orderly hc _ _)

theorem beginTotal_orderly {w u : Chip} (hu : Orderly w u) : Orderly w (beginTotal u) :=
  totalNext_orderly (loseImage_orderly (Orderly.update hu (hb := by simp))) _

theorem readLocks_orderly {w u : Chip} (hu : Orderly w u) (f : Flash) : Orderly w (readLocks f u) :=
  Orderly.update hu (hb := by simp)

theorem locksErased_orderly {w u : Chip} (hu : Orderly w u) (f : Flash) : Orderly w (locksErased f u) := by
  unfold locksErased
  repeat' first
    | with_reducible assumption
    | intro _
    | with_reducible refine Orderly.fold ?_ ?_
    | with_reducible apply readLocks_orderly
    | with_reducible apply joinErased_orderly
    | with_reducible apply queueEvent_orderly
    | with_reducible apply retryClaim_orderly
    | with_reducible apply settleAll_orderly
    | with_reducible apply grant_orderly
    | (extract_lets +onlyGivenNames v; first | (refine (fun _ : Orderly w v => ?_) ?_; rotate_left; subst v; rotate_left; clear_value v) | subst v)
    | split
    | with_reducible refine Orderly.update ?_

theorem rebuildLists_orderly {w u : Chip} (hu : Orderly w u) : Orderly w (rebuildLists u) := by
  unfold rebuildLists
  repeat' first
    | with_reducible assumption
    | intro _
    | with_reducible apply joinErased_orderly
    | with_reducible apply joinEraseQueue_orderly
    | with_reducible refine Orderly.fold ?_ ?_

theorem totalOver_orderly {w u : Chip} (hu : Orderly w u) (f : Flash) : Orderly w (totalOver f u) := by
  unfold totalOver
  repeat' first
    | with_reducible assumption
    | with_reducible apply rebuildLists_orderly
    | with_reducible apply grant_orderly
    | with_reducible apply settleAll_orderly
    | with_reducible apply queueEvent_orderly
    | (extract_lets +onlyGivenNames v; subst v)
    | with_reducible refine Orderly.update ?_

theorem scanTables_orderly {w u : Chip} (hu : Orderly w u) (f : Flash) : Orderly w (scanTables f u) := by
  unfold scanTables
  refine Orderly.fold (hu.trans ⟨⟨id, fun k => ?_, id, id⟩, .rfl⟩) fun _ _ h => joinErased_orderly h _
  obtain ⟨hroutes, -, hrest⟩ := k
  exact ⟨hroutes, by simp, hrest⟩

theorem scanStartChip_orderly {w u : Chip} (hu : Orderly w u) : Orderly w (scanStartChip u) := by
  unfold scanStartChip
  repeat' first
    | with_reducible assumption
    | with_reducible apply grant_orderly
    | (extract_lets +onlyGivenNames v; subst v)
    | split
    | with_reducible refine Orderly.update ?_

theorem scanDone_orderly {w u : Chip} (hu : Orderly w u) (f : Flash) : Orderly w (scanDone f u) := by
  unfold scanDone
  repeat' first
    | with_reducible assumption
    | with_reducible apply scanTables_orderly
    | with_reducible apply grant_orderly
    | with_reducible apply settleAll_orderly
    | with_reducible apply selectBoot_orderly
    | with_reducible apply queueEvent_orderly
    | (extract_lets +onlyGivenNames v; subst v)
    | with_reducible refine Orderly.update ?_

theorem settledChip_orderly {w u : Chip} (hu : Orderly w u) (d : DomainId) (therm : Byte) : Orderly w (settledChip d therm u) := by
  unfold settledChip
  repeat' first
    | with_reducible assumption
    | with_reducible apply syncMotor_orderly
    | with_reducible apply refreshLoad_orderly
    | with_reducible apply sampleTherm_orderly
    | (extract_lets +onlyGivenNames v; subst v)
    | split
    | with_reducible refine Orderly.update ?_

theorem holdOverChip_orderly {w u : Chip} (hu : Orderly w u) (d : DomainId) : Orderly w (holdOverChip d u) := by
  unfold holdOverChip
  repeat' first
    | with_reducible assumption
    | with_reducible apply headContentLost_orderly
    | (extract_lets +onlyGivenNames v; subst v)
    | split
    | with_reducible refine Orderly.update ?_

theorem wake_orderly {w u : Chip} (hu : Orderly w u) (h : u.power.state = .sleep) (cause : WakeCause) :
    Orderly w (wake cause u) := by
  refine hu.trans ⟨⟨id, id, fun k => ?_, fun k => ?_⟩, .rfl⟩
  · simp only [SuppliesOk, hostUp, h, wake] at k ⊢
    exact ⟨k.1, k.2.1, by simp, by simp, fun _ => k.2.2.2.2 (by decide)⟩
  · simp [hostUp, h] at k

theorem edgeTaken_orderly {w u : Chip} (hu : Orderly w u) (src : WakeSource) (rising : Bool) (level : Bool) :
    Orderly w (edgeTaken src rising level u) := by
  unfold edgeTaken
  repeat' first
    | with_reducible assumption
    | with_reducible refine wake_orderly ?_ ‹_› _
    | with_reducible apply queueEvent_orderly
    | with_reducible apply cancelSleep_orderly
    | (extract_lets +onlyGivenNames v; first | (refine (fun _ : Orderly w v => ?_) ?_; rotate_left; subst v; rotate_left; clear_value v) | subst v)
    | split
    | with_reducible refine Orderly.update ?_

theorem pinChange_orderly {w u : Chip} (hu : Orderly w u) (src : WakeSource) (level : Bool) : Orderly w (pinChange src level u) := by
  unfold pinChange
  repeat' first
    | with_reducible assumption
    | with_reducible apply edgeTaken_orderly
    | (extract_lets +onlyGivenNames v; subst v)
    | split
    | with_reducible refine Orderly.update ?_

theorem wakeInputChip_orderly {w u : Chip} (hu : Orderly w u) (pin : SignalPin) (high : Bool) : Orderly w (wakeInputChip pin high u) := by
  unfold wakeInputChip
  repeat' first
    | with_reducible assumption
    | with_reducible apply pinChange_orderly
    | (extract_lets +onlyGivenNames v; subst v)
    | split
    | with_reducible refine Orderly.update ?_

theorem docpChip_orderly {w u : Chip} (hu : Orderly w u) (present : Bool) : Orderly w (docpChip present u) := by
  unfold docpChip
  repeat' first
    | with_reducible assumption
    | with_reducible apply pinChange_orderly
    | with_reducible apply docpScan_orderly
    | (extract_lets +onlyGivenNames v; subst v)
    | split
    | with_reducible refine Orderly.update ?_

theorem debounceChip_orderly {w u : Chip} (hu : Orderly w u) (src : WakeSource) : Orderly w (debounceChip src u) := by
  unfold debounceChip
  repeat' first
    | with_reducible assumption
    | with_reducible apply edgeTaken_orderly
    | split

theorem secondChip_orderly {w u : Chip} (hu : Orderly w u) : Orderly w (secondChip u) := by
  unfold secondChip
  repeat' first
    | with_reducible assumption
    | (extract_lets +onlyGivenNames v; subst v)
    | split
    | with_reducible refine Orderly.update ?_

theorem wakeTimerChip_orderly {w u : Chip} (hu : Orderly w u) : Orderly w (wakeTimerChip u) := by
  unfold wakeTimerChip
  split
  next h => exact wake_orderly hu h.1 _
  next => exact hu

/-- The main clock runs again in WAKING, and the supplies are on with it. -/
theorem clockRuns_orderly {w u : Chip} {pins : Pins} {head : Head} {scanCh printCh : Channel} (hu : Orderly w u)
    (h : u.power.state = .waking) : Orderly w { u with
      pins := pins, head := head, scanCh := scanCh, printCh := printCh,
      power := { u.power with clockOn := true, clockLeft := 0, flashOn := true, hostOn := true, hostUp := 0 } } := by
  refine hu.trans ⟨⟨id, id, fun k => ?_, fun k => ?_⟩, .rfl⟩
  · simp only [SuppliesOk, hostUp, h] at k ⊢
    exact ⟨trivial, trivial, by simp, by simp, fun _ => k.2.2.2.2 (by decide)⟩
  · simp [hostUp, h] at k

theorem clockChip_orderly {w u : Chip} (hu : Orderly w u) (papp papx doce cover : Bool) :
    Orderly w (clockChip papp papx doce cover u) := by
  unfold clockChip
  split
  next h =>
    split
    · exact clockRuns_orderly hu h.1
    · exact trip_orderly (clockRuns_orderly hu h.1)
  next => exact hu

theorem wakingEndChip_orderly {w u : Chip} (hu : Orderly w u) : Orderly w (wakingEndChip u) := by
  unfold wakingEndChip
  split
  next h =>
    refine hu.trans ⟨⟨id, id, fun k => ?_, fun k => ?_⟩, .rfl⟩
    · simp only [SuppliesOk, hostUp, h] at k ⊢
      exact ⟨k.1, k.2.1, by simp, by simp, by simp⟩
    · simp [hostUp, h] at k
  next => exact hu

theorem pulseOverChip_orderly {w u : Chip} (hu : Orderly w u) : Orderly w (pulseOverChip u) := by
  unfold pulseOverChip
  repeat' first
    | with_reducible assumption
    | (extract_lets +onlyGivenNames v; subst v)
    | with_reducible refine Orderly.update ?_

theorem setParser_orderly {w u : Chip} (hu : Orderly w u) (x : Parser) : Orderly w (setParser x u) := by
  unfold setParser
  repeat' first
    | with_reducible assumption
    | (extract_lets +onlyGivenNames v; subst v)
    | with_reducible refine Orderly.update ?_

theorem overrun_orderly {w u : Chip} (hu : Orderly w u) (r : ℕ) : Orderly w (overrun r u) := by
  unfold overrun
  extract_lets x
  split
  · exact hu
  · exact hu.trans (setRoute_orderly_of (queueEvent_orderly .rfl _) _ _ fun y e => ⟨y, e, rfl⟩)

theorem judgeLine_orderly {w u : Chip} (hu : Orderly w u) (r : ℕ) : Orderly w (judgeLine r u) := by
  unfold judgeLine
  repeat' first
    | with_reducible assumption
    | with_reducible refine takeSlot_orderly ?_ ‹_› (fun _ => rfl)
    | with_reducible refine modCtx_orderly ?_ _ _ (fun _ => rfl)
    | with_reducible apply overrun_orderly
    | (extract_lets +onlyGivenNames v; refine (fun _ : Orderly w v => ?_) ?_; rotate_left; subst v; rotate_left; clear_value v)
    | split
    | with_reducible refine Orderly.update ?_

theorem laneByte_orderly {w u : Chip} (hu : Orderly w u) (b : Byte) : Orderly w (laneByte u b) := by
  unfold laneByte
  repeat' first
    | with_reducible assumption
    | (extract_lets +onlyGivenNames v; subst v)
    | split
    | with_reducible refine Orderly.update ?_

theorem lineBytes_orderly {w u : Chip} (hu : Orderly w u) (taken : ℕ) (bs : List Byte) : Orderly w (lineBytes taken bs u) := by
  unfold lineBytes
  repeat' first
    | with_reducible assumption
    | intro _
    | with_reducible apply laneByte_orderly
    | with_reducible apply judgeLine_orderly
    | with_reducible refine Orderly.fold ?_ ?_
    | split

theorem lineEnd_orderly {w u : Chip} (hu : Orderly w u) : Orderly w (lineEnd u) := by
  unfold lineEnd
  repeat' first
    | with_reducible assumption
    | with_reducible apply fillComplete_orderly
    | with_reducible apply settle_orderly
    | with_reducible apply pageEnd_orderly
    | with_reducible apply overrun_orderly
    | split
    | with_reducible refine Orderly.update ?_

theorem feedLine_orderly {w u : Chip} (hu : Orderly w u) (length : ℕ) (taken : ℕ) (bytes : List Byte) : Orderly w (feedLine length taken bytes u) := by
  unfold feedLine
  repeat' first
    | with_reducible assumption
    | with_reducible apply lineBytes_orderly
    | with_reducible apply lineEnd_orderly
    | with_reducible apply setParser_orderly
    | (extract_lets +onlyGivenNames v; first | (refine (fun _ : Orderly w v => ?_) ?_; rotate_left; subst v; rotate_left; clear_value v) | subst v)
    | split

theorem lineChip_orderly {w u : Chip} (hu : Orderly w u) (length : ℕ) (bytes : List Byte) : Orderly w (lineChip length bytes u) := by
  unfold lineChip
  repeat' first
    | with_reducible assumption
    | with_reducible apply setParser_orderly
    | with_reducible apply feedLine_orderly
    | split

theorem pageEndTaken_orderly {w u : Chip} (hu : Orderly w u) (p : List Byte) : Orderly w (pageEndTaken p u) := by
  unfold pageEndTaken
  repeat' first
    | with_reducible assumption
    | with_reducible apply settle_orderly
    | with_reducible apply pageEnd_orderly
    | refine setRoute_orderly ?_ _ _ (fun y k => ⟨y, k, rfl⟩)
    | (extract_lets +onlyGivenNames v; first | (refine (fun _ : Orderly w v => ?_) ?_; rotate_left; subst v; rotate_left; clear_value v) | subst v)
    | split
    | with_reducible refine Orderly.update ?_

theorem pageEndChip_orderly {w u : Chip} (hu : Orderly w u) (p : List Byte) : Orderly w (pageEndChip p u) := by
  unfold pageEndChip
  repeat' first
    | with_reducible assumption
    | with_reducible apply pageEndTaken_orderly
    | split

theorem framingChip_orderly {w u : Chip} (hu : Orderly w u) (length : ℕ) : Orderly w (framingChip length u) := by
  unfold framingChip
  repeat' first
    | with_reducible assumption
    | with_reducible apply setParser_orderly
    | split

theorem lselReleaseChip_orderly {w u : Chip} (hu : Orderly w u) (bits : List Bool) : Orderly w (lselReleaseChip bits u) := by
  unfold lselReleaseChip
  repeat' first
    | with_reducible assumption
    | with_reducible apply abandonLine_orderly
    | with_reducible apply settle_orderly
    | with_reducible apply pageEnd_orderly
    | (extract_lets +onlyGivenNames v; first | (refine (fun _ : Orderly w v => ?_) ?_; rotate_left; subst v; rotate_left; clear_value v) | subst v)
    | split
    | with_reducible refine Orderly.update ?_

theorem lselAssertChip_orderly {w u : Chip} (hu : Orderly w u) : Orderly w (lselAssertChip u) := by
  unfold lselAssertChip
  repeat' first
    | with_reducible assumption
    | (extract_lets +onlyGivenNames v; subst v)
    | with_reducible refine Orderly.update ?_

theorem upstreamChip_orderly {w u : Chip} (hu : Orderly w u) : Orderly w (upstreamChip u) := by
  unfold upstreamChip
  repeat' first
    | with_reducible assumption
    | (extract_lets +onlyGivenNames v; subst v)
    | split
    | with_reducible refine Orderly.update ?_

theorem reportSentChip_orderly {w u : Chip} (hu : Orderly w u) : Orderly w (reportSentChip u) := by
  unfold reportSentChip
  repeat' first
    | with_reducible assumption
    | (extract_lets +onlyGivenNames v; subst v)
    | split
    | with_reducible refine Orderly.update ?_

theorem outIdle_orderly {w u : Chip} (hu : Orderly w u) : Orderly w (outIdle u) := by
  unfold outIdle
  repeat' first
    | with_reducible assumption
    | (extract_lets +onlyGivenNames v; subst v)
    | with_reducible refine Orderly.update ?_

theorem lineSentChip_orderly {w u : Chip} (hu : Orderly w u) : Orderly w (lineSentChip u) := by
  unfold lineSentChip
  repeat' first
    | with_reducible assumption
    | with_reducible apply settle_orderly
    | with_reducible apply dropHead_orderly
    | with_reducible apply outIdle_orderly
    | with_reducible apply settleAll_orderly
    | split

theorem pageSentChip_orderly {w u : Chip} (hu : Orderly w u) : Orderly w (pageSentChip u) := by
  unfold pageSentChip
  repeat' first
    | with_reducible assumption
    | with_reducible apply pageEnd_orderly
    | with_reducible apply settle_orderly
    | with_reducible apply serveMark_orderly
    | with_reducible apply outIdle_orderly
    | with_reducible apply settleAll_orderly
    | split

theorem parserTake_orderly {w u : Chip} (hu : Orderly w u) (b : Byte) : Orderly w (parserTake b u) := by
  refine setParser_orderly ?_ _
  split
  · exact lineBytes_orderly hu _ _
  · exact hu

theorem outSentChip_orderly {w u : Chip} (hu : Orderly w u) : Orderly w (outSentChip u) := by
  unfold outSentChip
  repeat' first
    | with_reducible apply lineSentChip_orderly hu
    | with_reducible apply pageSentChip_orderly hu
    | split

theorem sendByte_orderly {w u : Chip} (hu : Orderly w u) : Orderly w (sendByte u) := by
  unfold sendByte
  repeat' first
    | with_reducible assumption
    | with_reducible apply reportSentChip_orderly
    | with_reducible apply outSentChip_orderly
    | split
    | with_reducible refine Orderly.update ?_

theorem encodeEndChip_orderly {w u : Chip} (hu : Orderly w u) : Orderly w (encodeEndChip u) := by
  unfold encodeEndChip
  repeat' first
    | with_reducible assumption
    | with_reducible apply recordReady_orderly
    | split
    | with_reducible refine Orderly.update ?_

theorem atnEndChip_orderly {w u : Chip} (hu : Orderly w u) : Orderly w (atnEndChip u) := by
  unfold atnEndChip
  repeat' first
    | with_reducible assumption
    | (extract_lets +onlyGivenNames v; subst v)
    | with_reducible refine Orderly.update ?_

theorem attentionChip_orderly {w u : Chip} (hu : Orderly w u) (p : List Byte) : Orderly w (attentionChip p u) := by
  unfold attentionChip
  repeat' first
    | with_reducible assumption
    | intro _
    | with_reducible apply withLength_orderly
    | with_reducible apply reply_orderly
    | with_reducible apply refuse_orderly
    | (extract_lets +onlyGivenNames v; subst v)
    | split
    | with_reducible refine Orderly.update ?_

theorem queueStatus_orderly {w u : Chip} (hu : Orderly w u) : Orderly w (queueStatus u) := by
  unfold queueStatus
  repeat' first
    | with_reducible assumption
    | with_reducible apply queueRecord_orderly
    | with_reducible apply markReported_orderly
    | (extract_lets +onlyGivenNames v; subst v)
    | with_reducible refine Orderly.update ?_

theorem statusChip_orderly {w u : Chip} (hu : Orderly w u) (p : List Byte) (doce : Bool) (papx : Bool) : Orderly w (statusChip p doce papx u) := by
  unfold statusChip
  repeat' first
    | with_reducible assumption
    | intro _
    | with_reducible apply withLength_orderly
    | with_reducible apply queueStatus_orderly
    | with_reducible apply reply_orderly
    | (extract_lets +onlyGivenNames v; subst v)
    | with_reducible refine Orderly.update ?_

theorem directoryChip_orderly {w u : Chip} (hu : Orderly w u) (p : List Byte) : Orderly w (directoryChip p u) := by
  unfold directoryChip
  repeat' first
    | with_reducible assumption
    | intro _
    | with_reducible apply withLength_orderly
    | with_reducible apply refuse_orderly
    | with_reducible apply reply_orderly
    | (extract_lets +onlyGivenNames v; first | (refine (fun _ : Orderly w v => ?_) ?_; rotate_left; subst v; rotate_left; clear_value v) | subst v)
    | split
    | with_reducible refine Orderly.update ?_

theorem directoryEntryChip_orderly {w u : Chip} (hu : Orderly w u) : Orderly w (directoryEntryChip u) := by
  unfold directoryEntryChip
  repeat' first
    | with_reducible assumption
    | with_reducible apply queueRecord_orderly
    | (extract_lets +onlyGivenNames v; subst v)
    | split
    | with_reducible refine Orderly.update ?_

theorem setupRule_orderly {w u : Chip} (hu : Orderly w u) (i : Instr) : Orderly w (setupRule i u) := by
  unfold setupRule
  repeat' first
    | with_reducible assumption
    | (extract_lets +onlyGivenNames v; subst v)
    | split
    | with_reducible refine Orderly.update ?_

theorem sleepRule_orderly {w u : Chip} (hu : Orderly w u) (i : Instr) : Orderly w (sleepRule i u) := by
  unfold sleepRule
  repeat' first
    | with_reducible assumption
    | with_reducible apply cancelSleep_orderly
    | split

theorem servingRule_orderly {w u : Chip} (hu : Orderly w u) (i : Instr) : Orderly w (servingRule i u) := by
  unfold servingRule
  split
  · exact hu
  · split
    · exact endServing_orderly hu
    · exact hu

theorem streamRules_orderly {w u : Chip} (hu : Orderly w u) (i : Instr) : Orderly w (streamRules i u) := by
  unfold streamRules
  repeat' first
    | with_reducible assumption
    | with_reducible apply servingRule_orderly
    | with_reducible apply sleepRule_orderly
    | with_reducible apply setupRule_orderly

theorem unknownChip_orderly {w u : Chip} (hu : Orderly w u) (p : List Byte) : Orderly w (unknownChip p u) := by
  unfold unknownChip
  repeat' first
    | with_reducible assumption
    | with_reducible apply refuse_orderly

theorem linkRestart_orderly {w u : Chip} (hu : Orderly w u) : Orderly w (linkRestart u) := by
  unfold linkRestart
  repeat' first
    | with_reducible assumption
    | (extract_lets +onlyGivenNames v; subst v)
    | split
    | with_reducible refine Orderly.update ?_

theorem restartRules_orderly {w u : Chip} (hu : Orderly w u) : Orderly w (restartRules u) := by
  unfold restartRules
  repeat' first
    | with_reducible assumption
    | with_reducible apply dropChunk_orderly
    | refine running_orderly ?_ (by simp [hostUp, ‹_›]) (.inl (by rfl)) (by rfl)
    | (extract_lets +onlyGivenNames v; first | (refine (fun _ : Orderly w v => ?_) ?_; rotate_left; subst v; rotate_left; clear_value v) | subst v)
    | split
    | with_reducible refine Orderly.update ?_

theorem tick_orderly {w u : Chip} (hu : Orderly w u) : Orderly w (tick u) := by
  unfold tick
  split
  · exact Orderly.update hu (hw := by simp [Power.order, Power.slowTick])
  · exact Orderly.update hu (hw := by simp [Power.order, Power.tick])

theorem loadEndChip_orderly {w u : Chip} (hu : Orderly w u) : Orderly w (loadEndChip u) := by
  unfold loadEndChip
  repeat' first
    | with_reducible assumption
    | with_reducible apply syncMotor_orderly
    | (extract_lets +onlyGivenNames v; subst v)
    | split
    | with_reducible refine Orderly.update ?_

theorem strobeEndChip_orderly {w u : Chip} (hu : Orderly w u) : Orderly w (strobeEndChip u) := by
  unfold strobeEndChip
  repeat' first
    | with_reducible assumption
    | split
    | with_reducible refine Orderly.update ?_

theorem cutPulseChip_orderly {w u : Chip} (hu : Orderly w u) : Orderly w (cutPulseChip u) := by
  unfold cutPulseChip
  repeat' first
    | with_reducible assumption
    | (extract_lets +onlyGivenNames v; subst v)
    | split
    | with_reducible refine Orderly.update ?_

theorem cutFailed_orderly {w u : Chip} (hu : Orderly w u) (r : ℕ) : Orderly w (cutFailed r u) := by
  unfold cutFailed
  repeat' first
    | with_reducible assumption
    | with_reducible apply syncMotor_orderly
    | with_reducible apply stopScanFor_orderly
    | with_reducible apply queueEvent_orderly
    | with_reducible apply haltRoute_orderly
    | (extract_lets +onlyGivenNames v; subst v)
    | with_reducible refine Orderly.update ?_

theorem cutJudgeChip_orderly {w u : Chip} (hu : Orderly w u) (papx : Bool) : Orderly w (cutJudgeChip papx u) := by
  unfold cutJudgeChip
  repeat' first
    | with_reducible assumption
    | with_reducible apply cutFailed_orderly
    | with_reducible apply settle_orderly
    | with_reducible apply servePrintMark_orderly
    | with_reducible apply endCut_orderly
    | (extract_lets +onlyGivenNames v; first | (refine (fun _ : Orderly w v => ?_) ?_; rotate_left; subst v; rotate_left; clear_value v) | subst v)
    | split
    | with_reducible refine Orderly.update ?_

end Sys2Proof.Proofs
end

section
/-!
PROOFS. What every command keeps: the flash array in its form, pool, tables and supplies in order, and the quotas within the pool.
-/

-- One declaration after another: the package as one text keeps within the check's limit on threads.
set_option Elab.async false

namespace Sys2Proof.Proofs

open Sys2Proof Sys2Proof.Machine

/-! ## LOADs -/

theorem entriesOf_length (w n : Nat) (d : List Byte) : (entriesOf w n d).length = n := by
  induction n generalizing d with
  | zero => rfl
  | succ n ih => simp [entriesOf, ih]

theorem writeAt_length {α : Type} {xs new : List α} {off : Nat} (h : off + new.length ≤ xs.length ∨ new = []) :
    (writeAt xs off new).length = xs.length := by
  rcases h with h | rfl
  · simp [writeAt]; omega
  · simp [writeAt]

/-- A LOAD that writes `t` for the tables, their sizes standing. -/
theorem tables_orderly {w u : Chip} (hu : Orderly w u) {t : ScanTables}
    (h : ShapeOk u → tableSizes t = tableSizes u.tables) : Orderly w { u with tables := t } := by
  refine hu.trans ⟨⟨id, fun k => ?_, id, id⟩, .rfl⟩
  have hsizes := h k
  simp only [tableSizes, Prod.mk.injEq] at hsizes
  simpa only [ShapeOk, hsizes] using k

theorem withLoad_orderly {w u : Chip} (hu : Orderly w u) (code : Byte) (p : List Byte) (f : Nat → List Byte → Chip → Chip)
    (hf : ∀ off d, Orderly w (f off d u)) : Orderly w (withLoad code p f u) := by
  unfold withLoad
  split
  · exact refuse_orderly hu _ _
  · exact hf _ _

/-- A table of the Scan Front End keeps its sizes where data that fits does. -/
theorem loadScanTable_orderly {w u : Chip} (hu : Orderly w u) (k n : Nat) (p : List Byte)
    (write : Nat → List Byte → ScanTables → ScanTables) (off : Nat) (d : List Byte)
    (hf : ShapeOk u → off + d.length / k ≤ n → tableSizes (write off d u.tables) = tableSizes u.tables) :
    Orderly w (loadScanTable k n p write off d u) := by
  unfold loadScanTable
  split
  next => exact refuse_orderly hu _ _
  next hfits =>
    split
    · exact refuse_orderly hu _ _
    · exact reply_orderly (tables_orderly hu fun s => hf s (by omega)) _ _

theorem loadShadingChip_orderly {w u : Chip} (hu : Orderly w u) (p : List Byte) : Orderly w (loadShadingChip p u) := by
  refine withLoad_orderly hu _ _ _ fun off d => loadScanTable_orderly hu _ _ _ _ _ _ fun s hfits => ?_
  have hlen : u.tables.shading.length = 1728 := s.2.2.1
  simp only [tableSizes]
  rw [writeAt_length (.inl (by simpa [shadesOf, entriesOf_length, hlen] using hfits))]

theorem loadToneChip_orderly {w u : Chip} (hu : Orderly w u) (p : List Byte) : Orderly w (loadToneChip p u) := by
  refine withLoad_orderly hu _ _ _ fun off d => loadScanTable_orderly hu _ _ _ _ _ _ fun s hfits => ?_
  have hlen : u.tables.tone.length = 256 := s.2.2.2.1
  simp only [tableSizes]
  rw [writeAt_length (.inl (by simpa [hlen] using hfits))]

theorem loadDitherChip_orderly {w u : Chip} (hu : Orderly w u) (p : List Byte) : Orderly w (loadDitherChip p u) := by
  refine withLoad_orderly hu _ _ _ fun off d => loadScanTable_orderly hu _ _ _ _ _ _ fun s hfits => ?_
  have hlen : u.tables.dither.length = 64 := s.2.2.2.2.1
  simp only [tableSizes]
  rw [writeAt_length (.inl (by simpa [hlen] using hfits))]

theorem loadRamp_orderly {w u : Chip} (hu : Orderly w u) (p : List Byte) (ramp : List Nat) (busy : Bool) (write : List Nat → Chip)
    (off : Nat) (d : List Byte) (hf : ∀ t, Orderly w (write t)) : Orderly w (loadRamp p ramp busy write off d u) := by
  unfold loadRamp
  split
  · exact reply_orderly hu _ _
  · split
    · exact refuse_orderly hu _ _
    · split
      · exact refuse_orderly hu _ _
      · exact reply_orderly (hf _) _ _

theorem loadScanRampChip_orderly {w u : Chip} (hu : Orderly w u) (p : List Byte) : Orderly w (loadScanRampChip p u) :=
  withLoad_orderly hu _ _ _ fun _ _ => loadRamp_orderly hu _ _ _ _ _ _ fun _ => Orderly.update hu

theorem loadPrintRampChip_orderly {w u : Chip} (hu : Orderly w u) (p : List Byte) : Orderly w (loadPrintRampChip p u) :=
  withLoad_orderly hu _ _ _ fun _ _ => loadRamp_orderly hu _ _ _ _ _ _ fun _ => Orderly.update hu

theorem loadHeatChip_orderly {w u : Chip} (hu : Orderly w u) (p : List Byte) : Orderly w (loadHeatChip p u) := by
  refine withLoad_orderly hu _ _ _ fun off d => ?_
  dsimp only
  split
  · exact refuse_orderly hu _ _
  · split
    · exact refuse_orderly hu _ _
    · exact reply_orderly (Orderly.update hu) _ _

theorem loadParkChip_orderly {w u : Chip} (hu : Orderly w u) (p : List Byte) : Orderly w (loadParkChip p u) := by
  refine withLoad_orderly hu _ _ _ fun off d => ?_
  dsimp only
  split
  next => exact refuse_orderly hu _ _
  next hfits =>
    refine reply_orderly ?_ _ _
    refine hu.trans ⟨⟨id, fun k => ?_, id, id⟩, .rfl⟩
    have hroom : off + d.length ≤ 11 := by omega
    obtain ⟨h1, h2, h3, h4, h5, hpark, hholds, h8⟩ := k
    refine ⟨h1, h2, h3, h4, h5, ?_, ?_, h8⟩
    · refine (writeAt_length ?_).trans hpark
      rw [hpark, ← List.length_eq_zero_iff]
      simp only [parkModes, List.length_map, List.length_zip, List.length_range, List.length_take]
      omega
    · refine (writeAt_length ?_).trans hholds
      rw [hholds, ← List.length_eq_zero_iff]
      simp only [List.length_map, List.length_drop]
      omega

theorem writeWake_orderly {w u : Chip} (hu : Orderly w u) (i : Nat) (e : WakeEntry) : Orderly w (writeWake i e u) := by
  unfold writeWake
  split
  · exact Orderly.update hu
  · exact hu

theorem writeWakes_orderly {w u : Chip} (hu : Orderly w u) (off : Nat) (es : List WakeEntry) : Orderly w (writeWakes off es u) := by
  induction es generalizing off u with
  | nil => exact hu
  | cons e es ih => exact ih (writeWake_orderly hu _ _) _

theorem loadWakeChip_orderly {w u : Chip} (hu : Orderly w u) (p : List Byte) : Orderly w (loadWakeChip p u) := by
  refine withLoad_orderly hu _ _ _ fun off d => ?_
  split
  · exact refuse_orderly hu _ _
  · split
    · exact refuse_orderly hu _ _
    · exact reply_orderly (writeWakes_orderly hu _ _) _ _

/-! ## SLEEP and sleep entry, reset and RESTART -/

/-- SLEEP comes from a host that can send. -/
theorem sleepChip_orderly {w u : Chip} (hu : Orderly w u) (hup : hostUp u = true) (p : List Byte) : Orderly w (sleepChip p u) := by
  unfold sleepChip withLength
  split
  · dsimp only
    split
    · exact refuse_orderly hu _ _
    · split
      · exact refuse_orderly hu _ _
      · refine reply_orderly (running_orderly hu hup (.inr ?_) ?_) _ _ <;> rfl
  · exact refuse_orderly hu _ _

theorem kept_state {c t : Chip} (h : Kept c t) : t.power.state = c.power.state :=
  congrArg (fun b : Backdrop => b.power.state) h.1

theorem kept_held {c t : Chip} (h : Kept c t) : t.link.held = c.link.held :=
  congrArg (fun b : Backdrop => b.link.held) h.1

/-- A LINE record in part is discarded: the page path alone moves. -/
theorem abandonLine_kept {w u : Chip} (hu : Kept w u) : Kept w (abandonLine u) := by
  unfold abandonLine
  split
  · refine returnSlot_kept (modCtx_kept ?_ _ _) _
    exact Kept.update hu
  · exact Kept.update hu

/-- A host reset in SLEEP leaves the state, and no directive is held behind it (R156, R189). -/
theorem hostReset_sleep {c : Chip} (h : c.power.state = .sleep) :
    (hostReset c).power.state = .sleep ∧ (hostReset c).link.held = none := by
  have hstate : (linkHostReset c).power.state = .sleep := (kept_state (abandonLine_kept .rfl)).trans h
  have hcancel : cancelSleep .hostReset (linkHostReset c) = linkHostReset c := by simp [cancelSleep, hstate]
  unfold hostReset enterHolding
  rw [hcancel]
  obtain ⟨st, hdrop⟩ := dropChunk_eq (linkHostReset c)
  rw [hdrop]
  exact ⟨hstate, rfl⟩

/-- The part at the moment it enters SLEEP, before its supplies and its clock go off (R157). -/
def asleep (c : Chip) : Chip :=
  headContentLost (abandonLine (enterHolding
    (addReset (fun c => { c with power := { c.power with sleepHold := true } }) { c with power := { c.power with state := .sleep } })))

theorem asleep_orderly (c : Chip) : Orderly { c with power := { c.power with state := .sleep } } (asleep c) :=
  headContentLost_orderly (abandonLine_orderly (enterHolding_orderly (addReset_orderly .rfl _ fun _ h => Orderly.update h)))

theorem asleep_state {c : Chip} (hheld : c.link.held = none) : (asleep c).power.state = .sleep ∧ (asleep c).link.held = none := by
  let b := addReset (fun c => { c with power := { c.power with sleepHold := true } }) { c with power := { c.power with state := .sleep } }
  have hreset : b.power.state = .sleep ∧ b.link.held = none := by
    simp only [b, addReset]
    split
    · exact ⟨rfl, hheld⟩
    · exact hostReset_sleep rfl
  have hkept : Kept (enterHolding b) (asleep c) := headContentLost_kept (abandonLine_kept .rfl)
  obtain ⟨st, hdrop⟩ := dropChunk_eq b
  have hholding : (enterHolding b).power.state = b.power.state ∧ (enterHolding b).link.held = b.link.held := by
    simp only [enterHolding, hdrop, and_self]
  exact ⟨(kept_state hkept).trans (hholding.1.trans hreset.1), (kept_held hkept).trans (hholding.2.trans hreset.2)⟩

/-- The supplies go off with the clock, and a part that enters sleep holds no directive (R155, R157). -/
theorem enterSleep_forms {c : Chip} (hheld : c.link.held = none) :
    (PoolOk c.pool → PoolOk (enterSleep c).pool) ∧ (ShapeOk c → ShapeOk (enterSleep c)) ∧ SuppliesOk (enterSleep c) ∧
      Bounded c (enterSleep c) := by
  have hall := asleep_orderly c
  obtain ⟨hstate, hnone⟩ := asleep_state hheld
  exact ⟨hall.pool, hall.shape, ⟨rfl, rfl, fun k => by rw [show hostUp (enterSleep c) = hostUp (asleep c) from rfl, hostUp, hstate] at k; simp at k,
    fun _ => rfl, fun _ => hnone⟩, hall.bounded⟩

end Sys2Proof.Proofs
end

section
/-!
PROOFS. OPEN, and what its acceptance keeps (01_line_pool_and_routes.md R3, R10, R11): the quotas sum to at most 32, and no charged count
rises but of a route that was open.
-/

-- One declaration after another: the package as one text keeps within the check's limit on threads.
set_option Elab.async false

namespace Sys2Proof.Proofs

open Sys2Proof Sys2Proof.Machine

/-! ## The sum of the quotas -/

/-- The quota of a route that is not CLOSED, 0 of one that is. -/
def quotaOf (c : Chip) (r : Nat) : Nat := match ctxOf c r with | some x => x.quota | none => 0

/-- The sum of the quotas of the routes that are not CLOSED (R3). -/
def quotaSum (c : Chip) : Nat := ([0, 1, 2, 3].map (quotaOf c)).sum

theorem quotaSum_eq (c : Chip) : quotaSum c = quotaOf c 0 + quotaOf c 1 + quotaOf c 2 + quotaOf c 3 := by
  simp [quotaSum]
  omega

/-- A bounded operation raises no route's quota. -/
theorem bounded_quotaOf {c t : Chip} (h : Bounded c t) (r : Nat) : quotaOf t r ≤ quotaOf c r := by
  unfold quotaOf
  cases e : ctxOf t r with
  | none => exact Nat.zero_le _
  | some y =>
    obtain ⟨x, ex, qx⟩ := (h r).1 y e
    rw [ex]
    exact Nat.le_of_eq qx.symm

theorem bounded_quotaSum {c t : Chip} (h : Bounded c t) : quotaSum t ≤ quotaSum c := by
  simp only [quotaSum_eq]
  have h0 := bounded_quotaOf h 0
  have h1 := bounded_quotaOf h 1
  have h2 := bounded_quotaOf h 2
  have h3 := bounded_quotaOf h 3
  omega

/-- The room of R10 is what the quotas leave, or less. -/
theorem roomFor_le (c : Chip) : roomFor c ≤ 32 - quotaSum c := by
  have h : quotaSum c = (routeNumbers.map fun r => match ctxOf c r with | some x => x.quota | none => 0).sum := rfl
  rw [h]
  exact Nat.sub_le _ _

/-- A settled quota fits the room (R10). -/
theorem settleQuota_le {c : Chip} {q : OpenReq} {n : Nat} (h : settleQuota c q = some n) : n ≤ roomFor c := by
  unfold settleQuota at h
  extract_lets u scan print least room at h
  split at h
  · cases h
  next hroom =>
    split at h
    · exact Option.some.inj h ▸ Nat.le_of_not_lt fun k => hroom (.inr k)
    · split at h
      · exact Option.some.inj h ▸ Nat.le_refl _
      next hle => exact Option.some.inj h ▸ Nat.le_of_not_lt hle

/-! ## Acceptance -/

@[simp] theorem openScan_pool (r : Nat) (c : Chip) : (openScan r c).pool = c.pool := by
  unfold openScan
  dsimp only
  split <;> simp

@[simp] theorem takeUpScan_pool (q : OpenReq) (c : Chip) : (takeUpScan q c).pool = c.pool := by
  unfold takeUpScan
  split
  · dsimp only
    split <;> simp
  · rfl

@[simp] theorem takeUpPrint_pool (q : OpenReq) (c : Chip) : (takeUpPrint q c).pool = c.pool := by
  unfold takeUpPrint
  split
  · dsimp only
    split <;> split <;> simp [takeUpHead]
  · rfl

@[simp] theorem fillRoute_pool (q : OpenReq) (c : Chip) : (fillRoute q c).pool = c.pool := by
  unfold fillRoute
  dsimp only
  split <;> simp

/-- An OPEN takes no slot (R11). -/
@[simp] theorem acceptOpen_pool (p : List Byte) (a : Bool) (q : OpenReq) (c : Chip) : (acceptOpen p a q c).pool = c.pool := by
  unfold acceptOpen
  dsimp only
  split <;> simp

/-- The route that an OPEN fills, before the blocks take it up. -/
def withRoute (q : OpenReq) (c : Chip) : Chip :=
  setRoute q.route { ctx := some q.ctx, pagesDone := 0, overrun := false, haltReported := false } c

/-- Behind the route's context, an acceptance is a chain of orderly operations. -/
theorem acceptOpen_orderly (p : List Byte) (a : Bool) (q : OpenReq) (c : Chip) : Orderly (withRoute q c) (acceptOpen p a q c) := by
  have hfill : Orderly (withRoute q c) (fillRoute q c) := by
    refine takeUpPrint_orderly (takeUpScan_orderly ?_ _) _
    split
    · exact Orderly.update .rfl
    · exact .rfl
  unfold acceptOpen
  refine syncMotor_orderly ?_
  split
  · exact queueCredit_orderly (reply_orderly hfill _ _) _ _
  · exact reply_orderly hfill _ _

/-! ## Routes that an operation may open -/

/-- Every route is bounded, or was CLOSED and is charged no further slot. -/
def Opened (c t : Chip) : Prop := ∀ r,
  ((∀ y, ctxOf t r = some y → ∃ x, ctxOf c r = some x ∧ x.quota = y.quota) ∧
    (charged t r ≤ charged c r ∨ ∃ x, ctxOf c r = some x ∧ charged t r ≤ x.quota)) ∨
  (ctxOf c r = none ∧ charged t r ≤ charged c r)

theorem Bounded.opened {c t : Chip} (h : Bounded c t) : Opened c t := fun r => .inl (h r)

/-- The context that a CLOSED route takes bounds every other route. -/
theorem opened_of_withRoute {c t : Chip} {q : OpenReq} (hq : ctxOf c q.route = none) (hpool : t.pool = c.pool)
    (h : Bounded (withRoute q c) t) : Opened c t := by
  intro r
  by_cases hr : r = q.route
  · subst hr
    exact .inr ⟨hq, Nat.le_of_eq (by simp only [charged, hpool])⟩
  · have k := h r
    simp only [withRoute, ctxOf_setRoute, charged_setRoute, if_neg (fun e : q.route = r ∧ _ => hr e.1.symm)] at k
    exact .inl k

theorem quotaOf_withRoute (q : OpenReq) (c : Chip) (r : Nat) :
    quotaOf (withRoute q c) r ≤ if r = q.route then max (quotaOf c r) q.quota else quotaOf c r := by
  unfold quotaOf withRoute
  by_cases h : q.route = r ∧ r < c.routes.length
  · rw [ctxOf_setRoute, if_pos h, if_pos h.1.symm]
    exact Nat.le_max_right _ _
  · rw [ctxOf_setRoute, if_neg h]
    by_cases k : r = q.route
    · rw [if_pos k]
      exact Nat.le_max_left _ _
    · rw [if_neg k]

/-- A quota within the room keeps the sum within the pool (R3, R10). -/
theorem quotaSum_withRoute {q : OpenReq} {c : Chip} (hq : ctxOf c q.route = none) (hquota : q.quota ≤ roomFor c) (h : quotaSum c ≤ 32) :
    quotaSum (withRoute q c) ≤ 32 := by
  have hroom := roomFor_le c
  have hzero : quotaOf c q.route = 0 := by simp [quotaOf, hq]
  have k0 := quotaOf_withRoute q c 0
  have k1 := quotaOf_withRoute q c 1
  have k2 := quotaOf_withRoute q c 2
  have k3 := quotaOf_withRoute q c 3
  simp only [quotaSum_eq] at *
  generalize q.route = n at *
  by_cases h0 : n = 0
  · subst h0; simp at k0 k1 k2 k3; omega
  by_cases h1 : n = 1
  · subst h1; simp at k0 k1 k2 k3; omega
  by_cases h2 : n = 2
  · subst h2; simp at k0 k1 k2 k3; omega
  by_cases h3 : n = 3
  · subst h3; simp at k0 k1 k2 k3; omega
  rw [if_neg (Ne.symm h0)] at k0
  rw [if_neg (Ne.symm h1)] at k1
  rw [if_neg (Ne.symm h2)] at k2
  rw [if_neg (Ne.symm h3)] at k3
  omega

/-- Check 3 of R8: the route of an OPEN that passes is CLOSED. -/
theorem ctxOf_of_openCheck {c : Chip} {q : OpenReq} (h : openCheck c q = none) : ctxOf c q.route = none := by
  unfold openCheck at h
  dsimp only at h
  split at h
  · cases h
  · split at h
    · cases h
    next hbusy => exact Option.not_isSome_iff_eq_none.1 fun k => hbusy (.inl k)

/-- An OPEN is refused, or accepted with a quota within the room on a route that is CLOSED. -/
theorem openChip_cases (p : List Byte) (c : Chip) :
    Orderly c (openChip p c) ∨
      ∃ a q, openChip p c = acceptOpen p a q c ∧ ctxOf c q.route = none ∧ q.quota ≤ roomFor c := by
  unfold openChip
  split
  · exact .inl (refuse_orderly .rfl _ _)
  · split
    · exact .inl (refuseProtected_orderly .rfl _)
    · exact .inl (refuse_orderly .rfl _ _)
    next hcheck =>
      dsimp only
      split
      · exact .inl (refuse_orderly .rfl _ _)
      · split
        · exact .inl (refuse_orderly .rfl _ _)
        next n hquota => exact .inr ⟨_, _, rfl, ctxOf_of_openCheck hcheck, settleQuota_le hquota⟩

theorem openChip_tame (p : List Byte) (c : Chip) : Tame c (openChip p c) := by
  rcases openChip_cases p c with h | ⟨a, q, h, -, -⟩
  · exact h.toTame
  · rw [h]
    exact (Tame.setRoute .rfl _ _).trans (acceptOpen_orderly p a q c).toTame

theorem openChip_opened (p : List Byte) (c : Chip) : Opened c (openChip p c) := by
  rcases openChip_cases p c with h | ⟨a, q, h, hq, -⟩
  · exact h.bounded.opened
  · rw [h]
    exact opened_of_withRoute hq (acceptOpen_pool p a q c) (acceptOpen_orderly p a q c).bounded

theorem openChip_quotas (p : List Byte) {c : Chip} (hc : quotaSum c ≤ 32) : quotaSum (openChip p c) ≤ 32 := by
  rcases openChip_cases p c with h | ⟨a, q, h, hq, hroom⟩
  · exact (bounded_quotaSum h.bounded).trans hc
  · rw [h]
    exact (bounded_quotaSum (acceptOpen_orderly p a q c).bounded).trans (quotaSum_withRoute hq hroom hc)

end Sys2Proof.Proofs
end

section
/-!
PROOFS. What every command keeps: the operations over part and flash, the directives, the exchange of bytes, and the statements that every
step keeps the four forms and the quotas (01_line_pool_and_routes.md R1 to R3, R6, 06_page_store.md R100, 08_power_save.md R148).
-/

-- One declaration after another: the package as one text keeps within the check's limit on threads.
set_option Elab.async false

namespace Sys2Proof.Proofs

open Sys2Proof Sys2Proof.Machine

/-! ## The relations on states -/

/-- An ordinary command: the part stays in order, a flash in its form stays so, and no command that waits is touched. -/
structure Steady (s t : State) : Prop where
  chip : Orderly s.chip t.chip
  flash : FlashOk s.flash → FlashOk t.flash
  pending : t.pending = s.pending

theorem Steady.rfl {s : State} : Steady s s := ⟨.rfl, id, Eq.refl _⟩

theorem Steady.trans {a b c : State} (h : Steady a b) (k : Steady b c) : Steady a c :=
  ⟨h.chip.trans k.chip, k.flash ∘ h.flash, k.pending.trans h.pending⟩

theorem Steady.onChip {s t : State} {f : Chip → Chip} (h : Steady s t) (hf : ∀ w c, Orderly w c → Orderly w (f c)) :
    Steady s (t.onChip f) := ⟨hf _ _ h.chip, h.flash, h.pending⟩

/-- What is kept by every directive, which comes from a host that can send: one of them opens a route, and one goes to SLEEP PENDING. -/
structure Forms (s t : State) : Prop where
  flash : FlashOk s.flash → FlashOk t.flash
  pool : PoolOk s.chip.pool → PoolOk t.chip.pool
  shape : ShapeOk s.chip → ShapeOk t.chip
  supplies : hostUp s.chip = true → SuppliesOk s.chip → SuppliesOk t.chip
  up : hostUp s.chip = true → hostUp t.chip = true
  quotas : quotaSum s.chip ≤ 32 → quotaSum t.chip ≤ 32
  pending : t.pending = s.pending

theorem Forms.trans {a b c : State} (h : Forms a b) (k : Forms b c) : Forms a c :=
  ⟨k.flash ∘ h.flash, k.pool ∘ h.pool, k.shape ∘ h.shape, fun e x => k.supplies (h.up e) (h.supplies e x), k.up ∘ h.up,
    k.quotas ∘ h.quotas, k.pending.trans h.pending⟩

theorem Steady.forms {s t : State} (h : Steady s t) : Forms s t :=
  ⟨h.flash, h.chip.pool, h.chip.shape, fun _ => h.chip.supplies, h.chip.up, (bounded_quotaSum h.chip.bounded).trans, h.pending⟩

/-- A directive as its owner handles it. -/
structure Handled (s t : State) : Prop extends Forms s t where
  opened : Opened s.chip t.chip

theorem Steady.handled {s t : State} (h : Steady s t) : Handled s t := ⟨h.forms, h.chip.bounded.opened⟩

/-! ## The end of SERVICE, CONFIRM, and the ends of jobs -/

theorem cutLockedErase_steady (s : State) : Steady s (cutLockedErase s) := by
  refine ⟨?_, cutLockedErase_sound.2, ?_⟩
  all_goals unfold cutLockedErase; split
  · split
    · dsimp only
      split
      · exact setErase_orderly .rfl _
      · exact joinEraseQueue_orderly (setBlockState_orderly (setErase_orderly .rfl _) _ _) _
    · exact .rfl
  · exact .rfl
  · split <;> simp
  · rfl

theorem cutLockedHolder_steady (s : State) : Steady s (cutLockedHolder s) := by
  refine ⟨?_, cutLockedHolder_sound.2, ?_⟩
  all_goals unfold cutLockedHolder; split
  · split
    · exact dropLocked_orderly (Orderly.update .rfl) _
    · exact .rfl
  · exact .rfl
  · split <;> simp
  · rfl

theorem serviceOver_steady (s : State) : Steady s (serviceOver s) := by
  unfold serviceOver
  extract_lets a b d
  have ha : Steady s a := Steady.rfl.onChip fun _ _ h => setService_orderly h _
  have hb : Steady s b := by
    refine ha.onChip fun w c h => ?_
    split
    · exact Orderly.fold h fun _ _ h => abortRoute_orderly h _ _
    · exact h
  have hd : Steady s d := (hb.trans (cutLockedErase_steady b)).trans (cutLockedHolder_steady _)
  exact hd.onChip fun _ _ h => grant_orderly (settleAll_orderly (retryClaim_orderly (withdrawLocked_orderly h)))

theorem closeService_steady (s : State) : Steady s (closeService s) := by
  unfold closeService
  split
  · exact serviceOver_steady s
  · exact Steady.rfl.onChip fun _ _ h => setService_orderly h _
  · exact .rfl

theorem serviceEndState_steady (p : List Byte) (s : State) : Steady s (serviceEndState p s) := by
  unfold serviceEndState
  split
  · exact (Steady.rfl.onChip fun _ _ h => reply_orderly h _ _).trans (closeService_steady _)
  · exact Steady.rfl.onChip fun _ _ h => refuse_orderly h _ _

theorem beginSetup_steady (k : Setup) (s : State) : Steady s (beginSetup k s) := by
  refine ⟨?_, (beginSetup_sound k).2, ?_⟩
  all_goals unfold beginSetup; split
  · exact .rfl
  · exact grant_orderly (Orderly.update .rfl)
  · exact beginTotal_orderly .rfl
  · rfl
  · simp
  · simp only

theorem confirmOwned_steady (p : List Byte) (s : State) : Steady s (confirmOwned p s) := by
  unfold confirmOwned
  split
  · exact (Steady.rfl.onChip fun _ _ h => Orderly.update h).onChip fun _ _ h => refuse_orderly h _ _
  · unfold confirmState
    dsimp only
    split
    · exact (Steady.rfl.onChip fun _ _ h => Orderly.update h).onChip fun _ _ h => refuse_orderly h _ _
    · split
      · exact Steady.rfl.onChip fun _ _ h => refuse_orderly (Orderly.update h) _ _
      · split
        · exact (Steady.rfl.onChip fun _ _ h => Orderly.update h).onChip fun _ _ h => refuseProtected_orderly h _
        · exact (Steady.rfl.onChip fun _ _ h => Orderly.update h).onChip fun _ _ h => refuse_orderly h _ _
        · exact ((Steady.rfl.onChip fun _ _ h => Orderly.update h).onChip fun _ _ h => reply_orderly h _ _).trans
            (beginSetup_steady _ _)

theorem endProgram_steady (j : Job) (r : ProgResult) (f : Bool → Chip → Chip) (hf : ∀ w c ok, Orderly w c → Orderly w (f ok c))
    (s : State) : Steady s (endProgram j r f s) :=
  ⟨freeFlash_orderly (settleAll_orderly (hf _ _ _ .rfl)), fun h => h.program _ _, rfl⟩

theorem endRead_steady (f : Chip → Chip) (hf : ∀ w c, Orderly w c → Orderly w (f c)) (s : State) : Steady s (endRead f s) :=
  Steady.rfl.onChip fun _ _ h => freeFlash_orderly (settleAll_orderly (hf _ _ h))

theorem endRow_steady (j : RowJob) (failed : List Nat) (s : State) : Steady s (endRow j failed s) := by
  refine ⟨?_, fun h => ?_, by simp only [endRow]⟩
  · unfold endRow
    dsimp only
    exact freeFlash_orderly (settleAll_orderly (rowDone_orderly .rfl _ _ _))
  · exact h.programRow _ _

theorem verifyEnd_steady (pass : Bool) (s : State) : Steady s (verifyEnd pass s) := by
  refine ⟨?_, (verifyEnd_sound pass).2, ?_⟩
  all_goals unfold verifyEnd; split
  · split
    · split
      · exact setErase_orderly .rfl _
      · split
        · exact grant_orderly (setErase_orderly .rfl _)
        · exact settleAll_orderly (eraseFailed_orderly .rfl _)
    · exact .rfl
  · exact .rfl
  · split
    · split
      · simp only
      · split <;> simp
    · rfl
  · rfl

theorem countEnd_steady (r : ProgResult) (s : State) : Steady s (countEnd r s) := by
  refine ⟨?_, (countEnd_sound r).2, ?_⟩
  all_goals unfold countEnd; split
  · split
    · exact countDone_orderly .rfl _ _
    · exact .rfl
  · exact .rfl
  · split <;> simp
  · rfl

theorem badEnd_steady (r : ProgResult) (s : State) : Steady s (badEnd r s) := by
  refine ⟨?_, (badEnd_sound r).2, ?_⟩
  all_goals unfold badEnd; split
  · split
    · exact eraseOver_orderly .rfl _ _
    · exact .rfl
  · exact .rfl
  · split <;> simp
  · rfl

theorem lockEraseEnd_steady (still : List Nat) (s : State) : Steady s (lockEraseEnd still s) := by
  refine ⟨?_, (lockEraseEnd_sound still).2, ?_⟩
  all_goals unfold lockEraseEnd; split
  · dsimp only
    exact locksErased_orderly .rfl _
  · exact .rfl
  · simp only
  · rfl

theorem totalLockEnd_steady (still : List Nat) (s : State) : Steady s (totalLockEnd still s) := by
  refine ⟨?_, (totalLockEnd_sound still).2, ?_⟩
  all_goals unfold totalLockEnd; split
  · exact readLocks_orderly (Orderly.update .rfl) _
  · exact .rfl
  · simp only
  · rfl

theorem keyEraseEnd_steady (key : List Byte) (s : State) : Steady s (keyEraseEnd key s) := by
  refine ⟨?_, (keyEraseEnd_sound key).2, ?_⟩
  all_goals unfold keyEraseEnd; split
  · dsimp only
    exact totalOver_orderly .rfl _
  · exact .rfl
  · simp only
  · rfl

theorem scanEnd_steady (s : State) : Steady s (scanEnd s) := by
  refine ⟨?_, scanEnd_sound.2, ?_⟩
  all_goals unfold scanEnd; split
  · dsimp only
    exact scanDone_orderly .rfl _
  · exact .rfl
  · simp only
  · rfl

/-! ## Directives (R179) -/

theorem owned_steady {p : List Byte} {f : State → State} (hf : ∀ s, Steady s (f s)) (s : State) : Steady s (owned p f s) := by
  unfold owned
  split
  · exact Steady.rfl.onChip fun _ _ h => refuse_orderly h _ _
  · exact hf s

theorem ownedChip_steady {p : List Byte} {f : Chip → Chip} (hf : ∀ w c, Orderly w c → Orderly w (f c)) (s : State) :
    Steady s (ownedChip p f s) := owned_steady (fun _ => Steady.rfl.onChip hf) s

/-- OPEN: a route is filled, with a quota that has room. -/
theorem openRoute_handled (p : List Byte) (s : State) : Handled s (ownedChip p (openChip p) s) := by
  unfold ownedChip owned
  split
  · exact (Steady.rfl.onChip fun _ _ h => refuse_orderly h _ _).handled
  · have htame := openChip_tame p s.chip
    exact ⟨⟨id, htame.pool, htame.shape, fun _ => htame.supplies, htame.up, openChip_quotas p, rfl⟩, openChip_opened p s.chip⟩

/-- SLEEP touches the Power Controller and the report queue alone. -/
theorem sleepChip_eq (p : List Byte) (c : Chip) :
    ∃ st n link, sleepChip p c = { c with link := link, power := { c.power with state := st, wakeTimer := n } } := by
  have hrefuse : ∀ r, ∃ st n link, refuse p r c = { c with link := link, power := { c.power with state := st, wakeTimer := n } } :=
    fun r => by
      obtain ⟨_, h⟩ := queueRecord_eq (.reply (refOf p) (.refused r)) c
      exact ⟨c.power.state, c.power.wakeTimer, _, h⟩
  unfold sleepChip withLength
  dsimp only
  split
  · split
    · exact hrefuse _
    · split
      · exact hrefuse _
      · obtain ⟨_, h⟩ := queueRecord_eq (.reply (refOf p) .accepted)
          { c with power := { c.power with state := .sleepPending, wakeTimer := numAt p 1 3 } }
        exact ⟨_, _, _, h⟩
  · exact hrefuse _

theorem sleep_bounded (p : List Byte) (s : State) : Bounded s.chip (ownedChip p (sleepChip p) s).chip := by
  unfold ownedChip owned
  split
  · exact (refuse_orderly .rfl _ _).bounded
  · obtain ⟨_, _, _, h⟩ := sleepChip_eq p s.chip
    rw [State.onChip_chip, h]
    exact Bounded.rfl

/-- SLEEP: pool, tables and routes stand whatever the state; the supplies stand where the host can send. -/
theorem sleep_handled (p : List Byte) (s : State) : Handled s (ownedChip p (sleepChip p) s) := by
  have hbounded := sleep_bounded p s
  unfold ownedChip owned at *
  split
  · exact (Steady.rfl.onChip fun _ _ h => refuse_orderly h _ _).handled
  next hp =>
    rw [if_neg hp] at hbounded
    obtain ⟨_, _, _, h⟩ := sleepChip_eq p s.chip
    refine ⟨⟨id, fun k => ?_, fun k => ?_, fun hup => (sleepChip_orderly .rfl hup p).supplies,
      fun hup => (sleepChip_orderly .rfl hup p).up hup, (bounded_quotaSum hbounded).trans, rfl⟩, hbounded.opened⟩
    · rw [State.onChip_chip, h]
      exact k
    · rw [State.onChip_chip, h]
      exact k

/-- Every directive but OPEN and SLEEP is an ordinary step. -/
theorem directive_steady (doce papx : Bool) (i : Instr) (s : State) :
    (∃ p, i = .openRoute p) ∨ (∃ p, i = .sleep p) ∨ Steady s (directive doce papx i s) := by
  cases i with
  | openRoute p => exact .inl ⟨p, rfl⟩
  | sleep p => exact .inr (.inl ⟨p, rfl⟩)
  | close p => exact .inr (.inr (ownedChip_steady (fun _ _ h => closeChip_orderly h _) s))
  | abort p => exact .inr (.inr (ownedChip_steady (fun _ _ h => abortChip_orderly h _) s))
  | redirect p => exact .inr (.inr (ownedChip_steady (fun _ _ h => redirectChip_orderly h _) s))
  | rearm p => exact .inr (.inr (ownedChip_steady (fun _ _ h => rearmChip_orderly h _) s))
  | loadShading p => exact .inr (.inr (ownedChip_steady (fun _ _ h => loadShadingChip_orderly h _) s))
  | loadTone p => exact .inr (.inr (ownedChip_steady (fun _ _ h => loadToneChip_orderly h _) s))
  | loadDither p => exact .inr (.inr (ownedChip_steady (fun _ _ h => loadDitherChip_orderly h _) s))
  | loadScanRamp p => exact .inr (.inr (ownedChip_steady (fun _ _ h => loadScanRampChip_orderly h _) s))
  | loadPrintRamp p => exact .inr (.inr (ownedChip_steady (fun _ _ h => loadPrintRampChip_orderly h _) s))
  | loadHeat p => exact .inr (.inr (ownedChip_steady (fun _ _ h => loadHeatChip_orderly h _) s))
  | loadPark p => exact .inr (.inr (ownedChip_steady (fun _ _ h => loadParkChip_orderly h _) s))
  | loadWake p => exact .inr (.inr (ownedChip_steady (fun _ _ h => loadWakeChip_orderly h _) s))
  | delete p => exact .inr (.inr (ownedChip_steady (fun _ _ h => deleteChip_orderly h _) s))
  | lockPage p => exact .inr (.inr (ownedChip_steady (fun _ _ h => lockPageChip_orderly h _) s))
  | setMasterLock p => exact .inr (.inr (ownedChip_steady (fun _ _ h => setMasterChip_orderly h _) s))
  | clearLocks p => exact .inr (.inr (ownedChip_steady (fun _ _ h => setupChip_orderly h _ _) s))
  | totalErase p => exact .inr (.inr (ownedChip_steady (fun _ _ h => setupChip_orderly h _ _) s))
  | confirm p => exact .inr (.inr (confirmOwned_steady p s))
  | clearStoreStatus p => exact .inr (.inr (ownedChip_steady (fun _ _ h => clearStatusChip_orderly h _) s))
  | installBoot p =>
    exact .inr (.inr (owned_steady (fun t => (Steady.rfl (s := t)).onChip fun _ _ h => installChip_orderly h _ _) s))
  | serviceRequest p => exact .inr (.inr (ownedChip_steady (fun _ _ h => serviceRequestChip_orderly h _) s))
  | serviceCode p => exact .inr (.inr (ownedChip_steady (fun _ _ h => serviceCodeChip_orderly h _) s))
  | serviceEnd p => exact .inr (.inr (owned_steady (serviceEndState_steady p) s))
  | setCode p => exact .inr (.inr (ownedChip_steady (fun _ _ h => setCodeChip_orderly h _) s))
  | bootFetch p => exact .inr (.inr (ownedChip_steady (fun _ _ h => bootFetchChip_orderly h _) s))
  | attentionMode p => exact .inr (.inr (ownedChip_steady (fun _ _ h => attentionChip_orderly h _) s))
  | statusRequest p d x => exact .inr (.inr (ownedChip_steady (fun _ _ h => statusChip_orderly h _ _ _) s))
  | directoryRequest p => exact .inr (.inr (ownedChip_steady (fun _ _ h => directoryChip_orderly h _) s))
  | unknownDirective t p => exact .inr (.inr (Steady.rfl.onChip fun _ _ h => unknownChip_orderly h _))
  | _ => exact .inr (.inr .rfl)

theorem directive_handled (doce papx : Bool) (i : Instr) (s : State) : Handled s (directive doce papx i s) := by
  rcases directive_steady doce papx i s with ⟨p, rfl⟩ | ⟨p, rfl⟩ | h
  · exact openRoute_handled p s
  · exact sleep_handled p s
  · exact h.handled

/-- Every directive but an OPEN with a payload leaves the routes CLOSED that are. -/
theorem directive_bounded (doce papx : Bool) {i : Instr} (hi : ∀ p, i = .openRoute p → p = []) (s : State) :
    Bounded s.chip (directive doce papx i s).chip := by
  rcases directive_steady doce papx i s with ⟨p, rfl⟩ | ⟨p, rfl⟩ | h
  · obtain rfl := hi p rfl
    exact (refuse_orderly .rfl _ _).bounded
  · exact sleep_bounded p s
  · exact h.chip.bounded

/-- The payload of an OPEN record is the record's. -/
theorem directiveOf_eq_openRoute {doce papx : Bool} {tag : Byte} {p q : List Byte}
    (h : directiveOf doce papx tag p = .openRoute q) : q = p := by
  have hload : loadOf p ≠ .openRoute q := by
    unfold loadOf
    split <;> simp
  unfold directiveOf at h
  split at h <;> simp_all

end Sys2Proof.Proofs
end

section
/-!
PROOFS. The end of SERVICE in its frame, the resets, the arrival of directives and the exchange of bytes, and with them what every command
keeps.
-/

-- One declaration after another: the package as one text keeps within the check's limit on threads.
set_option Elab.async false

namespace Sys2Proof.Proofs

open Sys2Proof Sys2Proof.Machine

/-! ## The end of SERVICE: what stands (R144) -/

/-- The backdrop but for the Boot Server. -/
def surround (c : Chip) : Backdrop := { c.backdrop with boot := Boot.default }

/-- The backdrop stands, but for the Boot Server. -/
def Mild (c t : Chip) : Prop := surround t = surround c

theorem Mild.rfl {c : Chip} : Mild c c := Eq.refl _

theorem Mild.trans {a b c : Chip} (h : Mild a b) (k : Mild b c) : Mild a c := Eq.trans k h

theorem mild_of_kept {c t : Chip} (h : Kept c t) : Mild c t := by
  obtain ⟨hback, -⟩ := h
  unfold Mild surround
  rw [hback]

/-- A Kept operation behind a mild one. -/
theorem Mild.kept {a b t : Chip} (k : Mild a b) (h : Kept b t) : Mild a t := k.trans (mild_of_kept h)

theorem Mild.fold {α : Type} {w u : Chip} {f : Chip → α → Chip} {xs : List α} (h : Mild w u)
    (hf : ∀ c x, Mild w c → Mild w (f c x)) : Mild w (xs.foldl f u) := by
  induction xs generalizing u with
  | nil => exact h
  | cons x xs ih => exact ih (hf _ _ h)

theorem Mild.held {c t : Chip} (h : Mild c t) : t.link.held = c.link.held :=
  congrArg (fun b : Backdrop => b.link.held) h

theorem endInstall_mild (res : OpResult) (c : Chip) : Mild c (endInstall res c) := by
  unfold endInstall
  split
  · exact .rfl
  next i _ =>
    have hboot : Mild c { c with boot := { c.boot with install := none } } := Eq.refl _
    exact hboot.kept (queueEvent_kept .rfl _)

theorem retireEnded_mild (why : RetireFor) (failed : Bool) (c : Chip) : Mild c (retireEnded why failed c) := by
  have hstore : Mild c { c with store := { c.store with retires := (stepRetires why failed c.store.retires).1 } } := Eq.refl _
  unfold retireEnded
  dsimp only
  split
  · split
    · exact hstore.kept (queueEvent_kept .rfl _)
    · exact hstore.trans (endInstall_mild _ _)
    · exact hstore
  · exact hstore

theorem dropLocked_mild {w c : Chip} (h : Mild w c) (j : Job) : Mild w (dropLocked c j) := by
  unfold dropLocked
  split
  · exact (h.kept (joinEraseQueue_kept (setBlockState_kept .rfl _ _) _)).trans (retireEnded_mild _ _ _)
  · exact h.trans (endInstall_mild _ _)
  · exact h

theorem withdrawLocked_mild (c : Chip) : Mild c (withdrawLocked c) :=
  Mild.fold (Eq.refl _) fun _ _ h => dropLocked_mild h _

theorem cutLockedErase_mild (s : State) : Mild s.chip (cutLockedErase s).chip := by
  unfold cutLockedErase
  split
  · split
    · dsimp only
      split
      · exact mild_of_kept (setErase_kept .rfl _)
      · exact mild_of_kept (joinEraseQueue_kept (setBlockState_kept (setErase_kept .rfl _) _ _) _)
    · exact .rfl
  · exact .rfl

theorem cutLockedHolder_mild (s : State) : Mild s.chip (cutLockedHolder s).chip := by
  unfold cutLockedHolder
  split
  · split
    · exact dropLocked_mild (Eq.refl _) _
    · exact .rfl
  · exact .rfl

/-- The end of SERVICE leaves what is around the page path and the Boot Server, but for the service state. -/
theorem serviceOver_mild (s : State) : Mild (setService .normal s.chip) (serviceOver s).chip := by
  unfold serviceOver
  extract_lets a b d
  have hb : Mild (setService .normal s.chip) b.chip := by
    simp only [b, State.onChip_chip]
    split
    · exact Mild.fold (.rfl) fun _ _ h => h.kept (abortRoute_kept .rfl _ _)
    · exact .rfl
  have hd : Mild (setService .normal s.chip) d.chip := (hb.trans (cutLockedErase_mild b)).trans (cutLockedHolder_mild _)
  have hall : Mild (setService .normal s.chip) (withdrawLocked d.chip) := hd.trans (withdrawLocked_mild _)
  rw [State.onChip_chip]
  exact hall.kept (grant_kept (settleAll_kept (retryClaim_kept .rfl)))

theorem closeService_held (s : State) : (closeService s).chip.link.held = s.chip.link.held := by
  unfold closeService
  split
  · exact (serviceOver_mild s).held.trans rfl
  · rfl
  · rfl

/-! ## What every command keeps -/

/-- No route that stays open with its quota is charged above it where it was not before (R3). -/
def Within (c t : Chip) : Prop := ∀ r x y, ctxOf c r = some x → ctxOf t r = some y → y.quota = x.quota →
  charged c r ≤ x.quota → charged t r ≤ y.quota

theorem within_of_opening {a b c d : Chip} (h : Bounded a b) (k : Opened b c) (l : Bounded c d) : Within a d := by
  intro r x y ex ey hq hle
  rw [hq]
  have hctx : ∀ z, ctxOf b r = some z → z.quota = x.quota := fun z ez => by
    obtain ⟨x', ex', qx⟩ := (h r).1 z ez
    rw [← qx, Option.some.inj (ex'.symm.trans ex)]
  have hcount : charged b r ≤ x.quota := by
    rcases (h r).2 with hc | ⟨x', ex', hc⟩
    · exact hc.trans hle
    · exact Option.some.inj (ex'.symm.trans ex) ▸ hc
  have kcount : charged c r ≤ x.quota := by
    rcases k r with ⟨-, hc | ⟨z, ez, hc⟩⟩ | ⟨-, hc⟩
    · exact hc.trans hcount
    · exact hctx z ez ▸ hc
    · exact hc.trans hcount
  rcases (l r).2 with hc | ⟨z, ez, hc⟩
  · exact hc.trans kcount
  · obtain ⟨z', ez', qz⟩ := (l r).1 y ey
    rw [← hq, ← qz, Option.some.inj (ez'.symm.trans ez)]
    exact hc

/-- Two openings one behind the other, with no slot taken between them. -/
theorem within_of_openings {a b c d e : Chip} (h : Bounded a b) (k : Opened b c) (m : Opened d e)
    (hsame : ∀ r, charged d r = charged c r) : Within a e := by
  intro r x y ex ey hq hle
  have hctx : ∀ z, ctxOf b r = some z → z.quota = x.quota := fun z ez => by
    obtain ⟨x', ex', qx⟩ := (h r).1 z ez
    rw [← qx, Option.some.inj (ex'.symm.trans ex)]
  have hcount : charged b r ≤ x.quota := by
    rcases (h r).2 with hc | ⟨x', ex', hc⟩
    · exact hc.trans hle
    · exact Option.some.inj (ex'.symm.trans ex) ▸ hc
  have kcount : charged c r ≤ x.quota := by
    rcases k r with ⟨-, hc | ⟨z, ez, hc⟩⟩ | ⟨-, hc⟩
    · exact hc.trans hcount
    · exact hctx z ez ▸ hc
    · exact hc.trans hcount
  rw [← hsame r] at kcount
  rcases m r with ⟨mctx, hc | ⟨z, ez, hc⟩⟩ | ⟨-, hc⟩
  · exact hq ▸ hc.trans kcount
  · obtain ⟨z', ez', qz⟩ := mctx y ey
    rw [← qz, Option.some.inj (ez'.symm.trans ez)]
    exact hc
  · exact hq ▸ hc.trans kcount

theorem Opened.rfl {c : Chip} : Opened c c := Bounded.rfl.opened

theorem Bounded.within {a b : Chip} (h : Bounded a b) : Within a b := within_of_opening h .rfl .rfl

/-- What a command keeps: the four forms, the quotas, and the commands that wait. -/
structure Keeps (s t : State) : Prop where
  flash : FlashOk s.flash → FlashOk t.flash
  pool : PoolOk s.chip.pool → PoolOk t.chip.pool
  shape : ShapeOk s.chip → ShapeOk t.chip
  supplies : SuppliesOk s.chip → SuppliesOk t.chip
  quotas : quotaSum s.chip ≤ 32 → quotaSum t.chip ≤ 32
  pending : t.pending = s.pending

theorem Keeps.rfl {s : State} : Keeps s s := ⟨id, id, id, id, id, Eq.refl _⟩

theorem Keeps.trans {a b c : State} (h : Keeps a b) (k : Keeps b c) : Keeps a c :=
  ⟨k.flash ∘ h.flash, k.pool ∘ h.pool, k.shape ∘ h.shape, k.supplies ∘ h.supplies, k.quotas ∘ h.quotas, k.pending.trans h.pending⟩

theorem Steady.keeps {s t : State} (h : Steady s t) : Keeps s t :=
  ⟨h.flash, h.chip.pool, h.chip.shape, h.chip.supplies, (bounded_quotaSum h.chip.bounded).trans, h.pending⟩

/-- What comes from a host that can send. -/
theorem Forms.keeps {s t : State} (h : Forms s t) (hup : SuppliesOk s.chip → hostUp s.chip = true) : Keeps s t :=
  ⟨h.flash, h.pool, h.shape, fun k => h.supplies (hup k) k, h.quotas, h.pending⟩

/-! ## Resets and sleep entry -/

/-- With every route CLOSED and the pool as reset leaves it, nothing is charged. -/
theorem bounded_of_reset {c t : Chip} (hr : t.routes = List.replicate 4 Route.closed) (hp : t.pool = Pool.default) : Bounded c t := by
  have hctx : ∀ r, ctxOf t r = none := fun r => by
    unfold ctxOf getRoute
    rw [hr, List.getD_eq_getElem?_getD, List.getElem?_replicate]
    split <;> rfl
  have hcount : ∀ r, charged t r = 0 := fun r => by
    unfold charged
    rw [hp]
    simp [Pool.default, Slot.route]
  refine fun r => ⟨fun y e => ?_, .inl ?_⟩
  · rw [hctx r] at e
    cases e
  · rw [hcount r]
    exact Nat.zero_le _

theorem blocksRestart_orderly {w u : Chip} (hu : Orderly w u) (hup : hostUp u = true) : Orderly w (blocksRestart u) := by
  refine hu.trans ⟨⟨fun _ => PoolOk.default, fun k => ?_, fun k => ?_, fun _ => rfl⟩, bounded_of_reset rfl rfl⟩
  · obtain ⟨-, -, k1, k2, k3, k4, k5, k6, k7⟩ := k
    exact ⟨rfl, by simp [blocksRestart, Store.default, Config.blockCount], k1, k2, k3, k4, k5, k6, k7⟩
  · obtain ⟨k1, k2, k3, -, -⟩ := k
    refine ⟨k1, k2, fun _ => k3 hup, fun e => ?_, fun e => ?_⟩
    · exact absurd (show PowerState.run = .sleep from e) (by decide)
    · cases (show true = false from e)

theorem restartChip_orderly {w u : Chip} (hu : Orderly w u) (hup : hostUp u = true) (p : List Byte) : Orderly w (restartChip p u) := by
  have hreplied : Orderly u (reply p .accepted (linkRestart u)) := reply_orderly (linkRestart_orderly .rfl) _ _
  have hblocks : Orderly w (blocksRestart (reply p .accepted (linkRestart u))) :=
    blocksRestart_orderly (hu.trans hreplied) (hreplied.up hup)
  unfold restartChip
  dsimp only
  split
  · exact hblocks
  · exact trip_orderly hblocks

/-- RESTART comes from a host that can send. -/
theorem restartState_steady (p : List Byte) {s : State} (hup : hostUp s.chip = true) : Steady s (restartState p s) := by
  refine ⟨?_, (restartState_sound p).2, ?_⟩
  · have hruled : Orderly s.chip (restartRules { s.chip with link := { s.chip.link with held := none } }) :=
      restartRules_orderly (Orderly.update .rfl)
    unfold restartState
    dsimp only
    split
    · exact restartChip_orderly hruled (hruled.up hup) p
    · exact refuse_orderly hruled _ _
  · unfold restartState
    dsimp only
    split <;> rfl

/-- The part after power-on reset has every table in its size. -/
theorem shapeOk_powerOn (pins : Pins) : ShapeOk (Chip.powerOn pins) :=
  ⟨rfl, List.length_replicate .., by simp only [Chip.powerOn, ScanTables.default, List.length_replicate, lineWidth],
    by simp only [Chip.powerOn, ScanTables.default, List.length_range], List.length_replicate .., rfl, rfl, rfl, rfl⟩

/-- Its supplies are on with its clock, and it is in RUN. -/
theorem suppliesOk_powerOn (pins : Pins) : SuppliesOk (Chip.powerOn pins) :=
  ⟨rfl, rfl, fun _ => rfl, fun e => absurd (show PowerState.run = .sleep from e) (by decide), fun _ => rfl⟩

theorem powerOn_keeps (pins : Pins) (s : State) : Keeps s (powerOnState pins s) := by
  have htrip : Orderly (Chip.powerOn pins) (powerOnChip pins) := by
    unfold powerOnChip
    split
    · exact .rfl
    · exact trip_orderly .rfl
  have hquotas : quotaSum (Chip.powerOn pins) ≤ 32 := by simp [quotaSum_eq, quotaOf, ctxOf, getRoute, Chip.powerOn, Route.closed]
  exact ⟨fun h => h.cutFlash _, fun _ => htrip.pool PoolOk.default, fun _ => htrip.shape (shapeOk_powerOn pins), fun _ => htrip.supplies (suppliesOk_powerOn pins),
    fun _ => (bounded_quotaSum htrip.bounded).trans hquotas, rfl⟩

theorem powerOn_bounded (c : Chip) (pins : Pins) : Bounded c (powerOnChip pins) := by
  have hreset : Bounded c (Chip.powerOn pins) := bounded_of_reset rfl rfl
  unfold powerOnChip
  split
  · exact hreset
  · exact hreset.trans (trip_orderly .rfl).bounded

theorem sleepReady_held {c : Chip} (h : sleepReady c = true) : c.link.held = none := by
  simp only [sleepReady, Bool.and_eq_true, Option.isNone_iff_eq_none] at h
  exact h.1.2

theorem sleepEntry_keeps (s : State) : Keeps s (sleepEntry s) ∧ Bounded s.chip (sleepEntry s).chip := by
  unfold sleepEntry
  split
  next hready =>
    have hclosed := closeService_steady s
    obtain ⟨hpool, hshape, hsupplies, hbounded⟩ :=
      enterSleep_forms ((closeService_held s).trans (sleepReady_held hready))
    have hall : Bounded s.chip (enterSleep (closeService s).chip) := hclosed.chip.bounded.trans hbounded
    exact ⟨⟨hclosed.flash, hpool ∘ hclosed.chip.pool, hshape ∘ hclosed.chip.shape, fun _ => hsupplies,
      (bounded_quotaSum hall).trans, hclosed.pending⟩, hall⟩
  next => exact ⟨.rfl, .rfl⟩

/-! ## Directives (R179) -/

theorem hostUp_of_exchanging {c : Chip} (h : exchanging c = true) : hostUp c = true := by
  simp only [exchanging, Bool.and_eq_true] at h
  exact h.1

theorem hostUp_of_canTake {c : Chip} (h : canTake c = true) : hostUp c = true := by
  simp only [canTake, Bool.and_eq_true] at h
  exact hostUp_of_exchanging h.1

/-- A directive is held by a part whose host can send. -/
theorem hold_handled (i : Instr) (s : State) :
    Handled s (s.onChip fun c => { c with link := { c.link with held := some i } }) := by
  refine ⟨⟨id, id, id, fun hup k => ?_, id, id, rfl⟩, Opened.rfl⟩
  obtain ⟨k1, k2, k3, k4, -⟩ := k
  exact ⟨k1, k2, k3, k4, fun e => absurd (e.symm.trans hup) (by decide)⟩

/-- A directive record that ends: an ordinary step, and then its owner, or nothing more. -/
theorem arrive_cases (i : Instr) {f : State → State} (hf : ∀ t, Handled t (f t)) (s : State) :
    ∃ m, Steady s m ∧ m.chip.pool = s.chip.pool ∧ Handled m (arrive i f s) := by
  unfold arrive
  split
  · exact ⟨s, .rfl, rfl, Steady.rfl.handled⟩
  · split
    · exact ⟨s, .rfl, rfl, Steady.rfl.handled⟩
    · split
      · exact ⟨s.onChip (streamRules i), Steady.rfl.onChip fun _ _ h => streamRules_orderly h i, by simp, hf _⟩
      · exact ⟨s, .rfl, rfl, hold_handled i s⟩

theorem arrive_forms (i : Instr) {f : State → State} (hf : ∀ t, Handled t (f t)) (s : State) : Forms s (arrive i f s) := by
  obtain ⟨m, hm, -, h⟩ := arrive_cases i hf s
  exact hm.forms.trans h.toForms

theorem arrive_keeps (i : Instr) {f : State → State} (hf : ∀ t, Handled t (f t)) (s : State) : Keeps s (arrive i f s) := by
  by_cases hcan : canTake s.chip = true
  · exact (arrive_forms i hf s).keeps fun _ => hostUp_of_canTake hcan
  · rw [show arrive i f s = s by simp [arrive, hcan]]
    exact .rfl

theorem arrive_within (i : Instr) {f : State → State} (hf : ∀ t, Handled t (f t)) (s : State) :
    Within s.chip (arrive i f s).chip := by
  obtain ⟨m, hm, -, h⟩ := arrive_cases i hf s
  exact within_of_opening hm.chip.bounded h.opened .rfl

/-- The held directive: an ordinary step, and then its owner. -/
theorem takeHeld_cases (doce papx : Bool) (s : State) :
    ∃ m, Steady s m ∧ Handled m (takeHeld doce papx s) ∧ (takeHeld doce papx s = m ∨ s.chip.link.held ≠ none) := by
  unfold takeHeld
  split
  next i hheld =>
    split
    · refine ⟨(s.onChip fun c => { c with link := { c.link with held := none } }).onChip (streamRules i), ?_,
        directive_handled doce papx i _, .inr (by rw [hheld]; exact Option.some_ne_none i)⟩
      exact (Steady.rfl.onChip fun _ _ h => Orderly.update h).onChip fun _ _ h => streamRules_orderly h i
    · exact ⟨s, .rfl, Steady.rfl.handled, .inl rfl⟩
  next => exact ⟨s, .rfl, Steady.rfl.handled, .inl rfl⟩

theorem takeHeld_forms (doce papx : Bool) (s : State) : Forms s (takeHeld doce papx s) := by
  obtain ⟨m, hm, h, -⟩ := takeHeld_cases doce papx s
  exact hm.forms.trans h.toForms

theorem takeHeld_keeps (doce papx : Bool) (s : State) : Keeps s (takeHeld doce papx s) := by
  obtain ⟨m, hm, h, hm' | hheld⟩ := takeHeld_cases doce papx s
  · rw [hm']
    exact hm.keeps
  · refine (hm.forms.trans h.toForms).keeps fun k => ?_
    by_contra hup
    exact hheld (k.2.2.2.2 (Bool.not_eq_true _ ▸ hup))

theorem takeHeld_within (doce papx : Bool) (s : State) : Within s.chip (takeHeld doce papx s).chip := by
  obtain ⟨m, hm, h, -⟩ := takeHeld_cases doce papx s
  exact within_of_opening hm.chip.bounded h.opened .rfl

/-! ## Bytes exchanged (R175, R176) -/

theorem recordEnds_forms (doce papx : Bool) (tag : Byte) (p : List Byte) {s : State} (hup : hostUp s.chip = true) :
    Forms s (recordEnds doce papx tag p s) := by
  unfold recordEnds
  split
  · exact (Steady.rfl.onChip fun _ _ h => lineEnd_orderly h).forms
  · split
    · exact (Steady.rfl.onChip fun _ _ h => pageEndTaken_orderly h _).forms
    · split
      · exact (restartState_steady p hup).forms
      · exact arrive_forms _ (directive_handled doce papx _) s

/-- A record that ends either opens no route, or is an OPEN with a payload, before which no slot is taken. -/
theorem recordEnds_cases (doce papx : Bool) (tag : Byte) (p : List Byte) {s : State} (hup : hostUp s.chip = true) :
    Bounded s.chip (recordEnds doce papx tag p s).chip ∨
      (p ≠ [] ∧ tag ≠ 0x01 ∧ ∃ m, Bounded s.chip m ∧ m.pool = s.chip.pool ∧ Opened m (recordEnds doce papx tag p s).chip) := by
  unfold recordEnds
  split
  · exact .inl (lineEnd_orderly .rfl).bounded
  next htag =>
    split
    · exact .inl (pageEndTaken_orderly .rfl _).bounded
    · split
      · exact .inl (restartState_steady p hup).chip.bounded
      · by_cases hp : p = []
        · have hopen : ∀ q, directiveOf doce papx tag p = .openRoute q → q = [] := fun q e => (directiveOf_eq_openRoute e).trans hp
          unfold arrive
          refine .inl ?_
          split
          · exact .rfl
          · split
            · exact .rfl
            · split
              · exact (streamRules_orderly .rfl _).bounded.trans (directive_bounded doce papx hopen _)
              · exact Bounded.rfl
        · obtain ⟨m, hm, hpool, h⟩ := arrive_cases (directiveOf doce papx tag p) (directive_handled doce papx _) s
          exact .inr ⟨hp, htag, m.chip, hm.chip.bounded, hpool, h.opened⟩

/-- The byte taken by the parser, where it is none of a LINE record, moves the parser alone. -/
theorem parserTake_pool {c : Chip} {b tag : Byte} {p : List Byte} (h : c.link.parser.ended b = some (tag, p)) (hp : p ≠ []) :
    (parserTake b c).pool = c.pool := by
  unfold parserTake
  dsimp only
  split
  next hpayload =>
    rw [hpayload] at h
    simp only [Parser.ended] at h
    split at h
    · exact absurd (Prod.mk.inj (Option.some.inj h)).2.symm hp
    · cases h
  next => rfl

theorem exchange_forms (doce papx : Bool) (s : State) (b : Byte) : Forms s (exchange doce papx s b) := by
  unfold exchange
  split
  next hex =>
    have hsent : Steady s (s.onChip sendByte) := Steady.rfl.onChip fun _ _ h => sendByte_orderly h
    have htaken := hsent.forms.trans (takeHeld_forms doce papx _)
    have hparsed := htaken.trans (Steady.rfl.onChip fun _ _ h => parserTake_orderly h b).forms
    dsimp only
    split
    · exact hparsed.trans (recordEnds_forms doce papx _ _ (hparsed.up (hostUp_of_exchanging hex)))
    · exact hparsed
  next => exact Steady.rfl.forms

theorem exchange_keeps (doce papx : Bool) (s : State) (b : Byte) : Keeps s (exchange doce papx s b) := by
  by_cases hex : exchanging s.chip = true
  · exact (exchange_forms doce papx s b).keeps fun _ => hostUp_of_exchanging hex
  · rw [exchange_released (Bool.not_eq_true _ ▸ hex)]
    exact .rfl

/-- One byte exchanged: the held directive may open a route and the record that ends may open another, but no slot is taken between. -/
theorem exchange_bounds (doce papx : Bool) (s : State) (b : Byte) {w : Chip} (hw : Bounded w s.chip) :
    Within w (exchange doce papx s b).chip := by
  unfold exchange
  split
  next hex =>
    have hsent : Steady s (s.onChip sendByte) := Steady.rfl.onChip fun _ _ h => sendByte_orderly h
    obtain ⟨m, hm, hheld, -⟩ := takeHeld_cases doce papx (s.onChip sendByte)
    have hfirst : Bounded w m.chip := hw.trans (hsent.chip.trans hm.chip).bounded
    have hup := (hsent.forms.trans (takeHeld_forms doce papx _)).up (hostUp_of_exchanging hex)
    dsimp only
    generalize takeHeld doce papx (s.onChip sendByte) = u at hheld hup ⊢
    have hparsed : Orderly u.chip (u.onChip (parserTake b)).chip := parserTake_orderly .rfl b
    split
    next x hended =>
      rcases recordEnds_cases doce papx x.1 x.2 (hparsed.up hup) with hend | ⟨hp, -, n, hn, hpool, hend⟩
      · exact within_of_opening hfirst hheld.opened (hparsed.bounded.trans hend)
      · refine within_of_openings hfirst hheld.opened hend fun r => ?_
        unfold charged
        rw [hpool, State.onChip_chip, parserTake_pool hended hp]
    next => exact within_of_opening hfirst hheld.opened hparsed.bounded
  next => exact hw.within

theorem exchanges_keep (doce papx : Bool) (bs : List Byte) (s : State) : Keeps s (bs.foldl (exchange doce papx) s) := by
  induction bs generalizing s with
  | nil => exact .rfl
  | cons b bs ih => exact (exchange_keeps doce papx s b).trans (ih _)

/-! ## Every command -/

/-- A command that gives at most one byte of the link. -/
def atMostOneByte : Instr → Bool
  | .lselAssert _ _ (_ :: _ :: _) => false
  | _ => true

/-- What a command answers: a next state, which keeps what every command keeps. -/
def Answers (i : Instr) (s : State) : Prop :=
  ∃ t, exec i s = .next t ∧ Keeps s t ∧ (atMostOneByte i = true → Within s.chip t.chip)

theorem answers_of_steady {i : Instr} {s t : State} (h : exec i s = .next t) (hst : Steady s t) : Answers i s :=
  ⟨t, h, hst.keeps, fun _ => hst.chip.bounded.within⟩

/-- An event of the part alone. -/
theorem answers_of_orderly {i : Instr} {s : State} {f : Chip → Chip} (h : exec i s = .next (s.onChip f))
    (hf : ∀ w c, Orderly w c → Orderly w (f c)) : Answers i s := answers_of_steady h (Steady.rfl.onChip hf)

/-- A directive that arrives. -/
theorem answers_of_directive {i : Instr} {s : State} {doce papx : Bool} (h : exec i s = .next (arrive i (directive doce papx i) s)) :
    Answers i s :=
  ⟨_, h, arrive_keeps i (directive_handled doce papx i) s, fun _ => arrive_within i (directive_handled doce papx i) s⟩

/-! A command whose meaning turns on the job that holds the flash. -/

theorem claimEnd_steady (r : ProgResult) (s : State) : ∃ t, execClaimProgramEnd r s = .next t ∧ Steady s t := by
  unfold execClaimProgramEnd
  split
  · exact ⟨_, rfl, endProgram_steady _ r _ (fun _ _ _ h => claimDone_orderly h _ _ _) s⟩
  · exact ⟨_, rfl, .rfl⟩

theorem closeEnd_steady (r : ProgResult) (s : State) : ∃ t, execCloseProgramEnd r s = .next t ∧ Steady s t := by
  unfold execCloseProgramEnd
  split
  · exact ⟨_, rfl, endProgram_steady _ r _ (fun _ _ _ h => closeDone_orderly h _ _ _) s⟩
  · exact ⟨_, rfl, endProgram_steady _ r _ (fun _ _ _ h => closeDone_orderly h _ _ _) s⟩
  · exact ⟨_, rfl, .rfl⟩

theorem retireEnd_steady (r : ProgResult) (s : State) : ∃ t, execRetireProgramEnd r s = .next t ∧ Steady s t := by
  unfold execRetireProgramEnd
  split
  · exact ⟨_, rfl, endProgram_steady _ r _ (fun _ _ _ h => retireDone_orderly h _ _ _) s⟩
  · exact ⟨_, rfl, .rfl⟩

theorem relocationEnd_steady (r : ProgResult) (s : State) : ∃ t, execRelocationCopyEnd r s = .next t ∧ Steady s t := by
  unfold execRelocationCopyEnd
  split
  · exact ⟨_, rfl, endRead_steady _ (fun _ _ h => relocRead_orderly h _) s⟩
  · exact ⟨_, rfl, endProgram_steady _ r _ (fun _ _ _ h => relocProgrammed_orderly h _) s⟩
  · exact ⟨_, rfl, .rfl⟩

theorem rowEnd_steady (failed : List Nat) (s : State) : ∃ t, execRowProgramEnd failed s = .next t ∧ Steady s t := by
  unfold execRowProgramEnd
  split
  · exact ⟨_, rfl, endRow_steady _ failed s⟩
  · exact ⟨_, rfl, .rfl⟩

/-- Every command answers a next state that keeps the four forms, the quotas and the commands that wait. -/
theorem exec_answers (i : Instr) (s : State) : Answers i s := by
  cases i with
  | powerOnReset pins => exact ⟨_, rfl, powerOn_keeps pins s, fun _ => (powerOn_bounded s.chip pins).within⟩
  | openRoute p => exact answers_of_directive (doce := false) (papx := false) rfl
  | close p => exact answers_of_directive (doce := false) (papx := false) rfl
  | abort p => exact answers_of_directive (doce := false) (papx := false) rfl
  | redirect p => exact answers_of_directive (doce := false) (papx := false) rfl
  | rearm p => exact answers_of_directive (doce := false) (papx := false) rfl
  | loadShading p => exact answers_of_directive (doce := false) (papx := false) rfl
  | loadTone p => exact answers_of_directive (doce := false) (papx := false) rfl
  | loadDither p => exact answers_of_directive (doce := false) (papx := false) rfl
  | loadScanRamp p => exact answers_of_directive (doce := false) (papx := false) rfl
  | loadPrintRamp p => exact answers_of_directive (doce := false) (papx := false) rfl
  | loadHeat p => exact answers_of_directive (doce := false) (papx := false) rfl
  | loadPark p => exact answers_of_directive (doce := false) (papx := false) rfl
  | loadWake p => exact answers_of_directive (doce := false) (papx := false) rfl
  | attentionMode p => exact answers_of_directive (doce := false) (papx := false) rfl
  | delete p => exact answers_of_directive (doce := false) (papx := false) rfl
  | directoryRequest p => exact answers_of_directive (doce := false) (papx := false) rfl
  | lockPage p => exact answers_of_directive (doce := false) (papx := false) rfl
  | setMasterLock p => exact answers_of_directive (doce := false) (papx := false) rfl
  | clearLocks p => exact answers_of_directive (doce := false) (papx := false) rfl
  | totalErase p => exact answers_of_directive (doce := false) (papx := false) rfl
  | confirm p => exact answers_of_directive (doce := false) (papx := false) rfl
  | clearStoreStatus p => exact answers_of_directive (doce := false) (papx := false) rfl
  | installBoot p => exact answers_of_directive (doce := false) (papx := false) rfl
  | serviceRequest p => exact answers_of_directive (doce := false) (papx := false) rfl
  | serviceCode p => exact answers_of_directive (doce := false) (papx := false) rfl
  | serviceEnd p => exact answers_of_directive (doce := false) (papx := false) rfl
  | setCode p => exact answers_of_directive (doce := false) (papx := false) rfl
  | sleep p => exact answers_of_directive (doce := false) (papx := false) rfl
  | bootFetch p => exact answers_of_directive (doce := false) (papx := false) rfl
  | statusRequest p doce papx => exact answers_of_directive (doce := doce) (papx := papx) rfl
  | unknownDirective tag p => exact answers_of_directive (doce := false) (papx := false) rfl
  | restart p =>
    refine answers_of_steady (t := if canTake s.chip then restartState p s else s) rfl ?_
    split
    next h => exact restartState_steady p (hostUp_of_canTake h)
    next => exact .rfl
  | directiveDiscardedUntaken => exact answers_of_steady rfl .rfl
  | heldDirectiveTaken doce papx => exact ⟨_, rfl, takeHeld_keeps doce papx s, fun _ => takeHeld_within doce papx s⟩
  | skippedTag tag p => exact answers_of_steady rfl .rfl
  | lselAssert doce papx bytes =>
    have hselected : Steady s (s.onChip lselAssertChip) := Steady.rfl.onChip fun _ _ h => lselAssertChip_orderly h
    refine ⟨_, rfl, hselected.keeps.trans (exchanges_keep doce papx bytes _), fun hone => ?_⟩
    match bytes, hone with
    | [], _ => exact hselected.chip.bounded.within
    | [b], _ => exact exchange_bounds doce papx _ b hselected.chip.bounded
  | sleepEntry => exact ⟨_, rfl, (sleepEntry_keeps s).1, fun _ => (sleepEntry_keeps s).2.within⟩
  | line length bytes => exact answers_of_orderly rfl fun _ _ h => lineChip_orderly h _ _
  | pageEnd p => exact answers_of_orderly rfl fun _ _ h => pageEndChip_orderly h _
  | framingError tag length => exact answers_of_orderly rfl fun _ _ h => framingChip_orderly h _
  | lselRelease cut => exact answers_of_orderly rfl fun _ _ h => lselReleaseChip_orderly h _
  | reportRecordSent => exact answers_of_orderly rfl fun _ _ h => reportSentChip_orderly h
  | outboundLineSent => exact answers_of_orderly rfl fun _ _ h => lineSentChip_orderly h
  | outboundPageEndSent => exact answers_of_orderly rfl fun _ _ h => pageSentChip_orderly h
  | linkEncodeEnd => exact answers_of_orderly rfl fun _ _ h => encodeEndChip_orderly h
  | directoryEntry => exact answers_of_orderly rfl fun _ _ h => directoryEntryChip_orderly h
  | atnPulseEnd => exact answers_of_orderly rfl fun _ _ h => atnEndChip_orderly h
  | docpChange present => exact answers_of_orderly rfl fun _ _ h => docpChip_orderly h _
  | pickStart doce => exact answers_of_orderly rfl fun _ _ h => pickChip_orderly h _
  | channelStart ch therm => exact answers_of_orderly rfl fun _ _ h => startChip_orderly h _ _
  | motorStep ch doce therm => exact answers_of_orderly rfl fun _ _ h => stepChip_orderly h _ _ _
  | holdExpiry ch => exact answers_of_orderly rfl fun _ _ h => holdChip_orderly h _
  | captureEnd samples => exact answers_of_orderly rfl fun _ _ h => captureChip_orderly h _
  | interlockTrip => exact answers_of_orderly rfl fun _ _ h => tripChip_orderly h
  | coverClose => exact answers_of_orderly rfl fun _ _ h => coverCloseChip_orderly h
  | headLoadEnd => exact answers_of_orderly rfl fun _ _ h => loadEndChip_orderly h
  | strobeEnd => exact answers_of_orderly rfl fun _ _ h => strobeEndChip_orderly h
  | cutterPulseEnd => exact answers_of_orderly rfl fun _ _ h => cutPulseChip_orderly h
  | cutJudgement papx => exact answers_of_orderly rfl fun _ _ h => cutJudgeChip_orderly h _
  | paperOut => exact answers_of_orderly rfl fun _ _ h => paperOutChip_orderly h
  | paperIn => exact answers_of_orderly rfl fun _ _ h => paperInChip_orderly h
  | storeReadRequest => exact answers_of_orderly rfl fun _ _ h => readRequestChip_orderly h
  | eraseStart => exact answers_of_orderly rfl fun _ _ h => eraseStartChip_orderly h
  | erasePulseEnd => exact answers_of_orderly rfl fun _ _ h => pulseEndChip_orderly h
  | eraseMinPulseEnd => exact answers_of_orderly rfl fun _ _ h => minPulseChip_orderly h
  | scanStart => exact answers_of_orderly rfl fun _ _ h => scanStartChip_orderly h
  | installRetireStart => exact answers_of_orderly rfl fun _ _ h => installRetireChip_orderly h
  | serviceWindowExpiry => exact answers_of_orderly rfl fun _ _ h => windowExpiryChip_orderly h
  | servicePulseEnd => exact answers_of_orderly rfl fun _ _ h => pulseOverChip_orderly h
  | domainSettled d therm => exact answers_of_orderly rfl fun _ _ h => settledChip_orderly h _ _
  | domainHoldExpiry d => exact answers_of_orderly rfl fun _ _ h => holdOverChip_orderly h _
  | wakeInputChange pin high => exact answers_of_orderly rfl fun _ _ h => wakeInputChip_orderly h _ _
  | debounceExpiry source => exact answers_of_orderly rfl fun _ _ h => debounceChip_orderly h _
  | secondTick => exact answers_of_orderly rfl fun _ _ h => secondChip_orderly h
  | wakeTimerExpiry => exact answers_of_orderly rfl fun _ _ h => wakeTimerChip_orderly h
  | mainClockRunning papp papx doce cover => exact answers_of_orderly rfl fun _ _ h => clockChip_orderly h _ _ _ _
  | wakingEnd => exact answers_of_orderly rfl fun _ _ h => wakingEndChip_orderly h
  | bootHoldRelease => exact answers_of_orderly rfl fun _ _ h => bootReleaseChip_orderly h
  | upstreamRecordStart => exact answers_of_orderly rfl fun _ _ h => upstreamChip_orderly h
  | lineReadEnd =>
    refine answers_of_steady rfl ?_
    split
    next => exact endRead_steady _ (fun _ _ h => lineReadDone_orderly h _) s
    next => exact .rfl
  | entryProgramEnd r =>
    refine answers_of_steady rfl ?_
    split
    next => exact endProgram_steady _ r _ (fun _ _ _ h => entryDone_orderly h _) s
    next => exact .rfl
  | imageReadEnd =>
    refine answers_of_steady rfl ?_
    split
    next => exact endRead_steady _ (fun _ _ h => imageReadDone_orderly h _) s
    next => exact .rfl
  | installMarkProgramEnd r =>
    refine answers_of_steady rfl ?_
    split
    next => exact endProgram_steady _ r _ (fun _ _ _ h => markDone_orderly h _) s
    next => exact .rfl
  | eraseVerifyEnd pass => exact answers_of_steady rfl (verifyEnd_steady pass s)
  | countProgramEnd r => exact answers_of_steady rfl (countEnd_steady r s)
  | badStateProgramEnd r => exact answers_of_steady rfl (badEnd_steady r s)
  | lockSegmentEraseEnd still => exact answers_of_steady rfl (lockEraseEnd_steady still s)
  | totalEraseLockSegmentEnd still => exact answers_of_steady rfl (totalLockEnd_steady still s)
  | keySegmentEraseEnd key => exact answers_of_steady rfl (keyEraseEnd_steady key s)
  | scanEnd => exact answers_of_steady rfl (scanEnd_steady s)
  | claimProgramEnd r =>
    obtain ⟨_, h, hst⟩ := claimEnd_steady r s
    exact answers_of_steady h hst
  | closeProgramEnd r =>
    obtain ⟨_, h, hst⟩ := closeEnd_steady r s
    exact answers_of_steady h hst
  | retireProgramEnd r =>
    obtain ⟨_, h, hst⟩ := retireEnd_steady r s
    exact answers_of_steady h hst
  | relocationCopyEnd r =>
    obtain ⟨_, h, hst⟩ := relocationEnd_steady r s
    exact answers_of_steady h hst
  | rowProgramEnd failed =>
    obtain ⟨_, h, hst⟩ := rowEnd_steady failed s
    exact answers_of_steady h hst

/-- The same of a step: a command that waited, or a tick. -/
theorem step_keeps {s t : State} (h : step s = .next t) :
    (FlashOk s.flash → FlashOk t.flash) ∧ (PoolOk s.chip.pool → PoolOk t.chip.pool) ∧ (ShapeOk s.chip → ShapeOk t.chip) ∧
      (SuppliesOk s.chip → SuppliesOk t.chip) ∧ (quotaSum s.chip ≤ 32 → quotaSum t.chip ≤ 32) := by
  unfold step at h
  split at h
  · obtain rfl := Host.Outcome.next.inj h
    have htick : Steady s (s.onChip tick) := Steady.rfl.onChip fun _ _ h => tick_orderly h
    exact ⟨htick.keeps.flash, htick.keeps.pool, htick.keeps.shape, htick.keeps.supplies, htick.keeps.quotas⟩
  next i rest _ =>
    obtain ⟨u, hexec, hkeeps, -⟩ := exec_answers i { s with pending := rest }
    obtain rfl := Host.Outcome.next.inj (hexec.symm.trans h)
    exact ⟨hkeeps.flash, hkeeps.pool, hkeeps.shape, hkeeps.supplies, hkeeps.quotas⟩

theorem step_within {s t : State} (h : step s = .next t)
    (hone : ∀ d p a b bytes rest, s.pending ≠ .lselAssert d p (a :: b :: bytes) :: rest) : Within s.chip t.chip := by
  unfold step at h
  split at h
  · obtain rfl := Host.Outcome.next.inj h
    exact (tick_orderly .rfl).bounded.within
  next i rest hpending =>
    obtain ⟨u, hexec, -, hwithin⟩ := exec_answers i { s with pending := rest }
    obtain rfl := Host.Outcome.next.inj (hexec.symm.trans h)
    refine hwithin ?_
    unfold atMostOneByte
    split
    next d p a b bytes => exact absurd hpending (hone d p a b bytes rest)
    next => rfl

/-! ## The statements -/

/-- Settles O6, by what every command keeps of the flash. -/
theorem flashInOrderAfterEveryStep : Obligations.FlashInOrderAfterEveryStep := by
  unfold Obligations.FlashInOrderAfterEveryStep
  intro s t hflash hstep
  exact (step_keeps hstep).1 hflash

/-- Settles O7, by what every command keeps of the pool. -/
theorem poolInOrderAfterEveryStep : Obligations.PoolInOrderAfterEveryStep := by
  unfold Obligations.PoolInOrderAfterEveryStep
  intro s t hpool hstep
  exact (step_keeps hstep).2.1 hpool

/-- Settles O8, by what every command keeps of the tables' sizes. -/
theorem shapeInOrderAfterEveryStep : Obligations.ShapeInOrderAfterEveryStep := by
  unfold Obligations.ShapeInOrderAfterEveryStep
  intro s t hshape hstep
  exact (step_keeps hstep).2.2.1 hshape

/-- Settles O9, by what every command keeps of the supplies. -/
theorem suppliesInOrderAfterEveryStep : Obligations.SuppliesInOrderAfterEveryStep := by
  unfold Obligations.SuppliesInOrderAfterEveryStep
  intro s t hsupplies hstep
  exact (step_keeps hstep).2.2.2.1 hsupplies

/-- Settles O60: at reset every route is CLOSED; OPEN gives a quota that has room; and within one command no slot is taken between two
openings. -/
theorem quotasStayWithinThePool : Obligations.QuotasStayWithinThePool := by
  unfold Obligations.QuotasStayWithinThePool
  refine ⟨rfl, fun s t hstep => (step_keeps hstep).2.2.2.2, fun s t r x y hstep hone ex ey hq hle => ?_⟩
  exact step_within hstep hone r x y ex ey hq hle

end Sys2Proof.Proofs
end

section
/-!
PROOFS. The machine as a whole: a step and the command it runs, a tick of the time base (00_scope.md 6), and reset.
-/

-- One declaration after another: the package as one text keeps within the check's limit on threads.
set_option Elab.async false

namespace Sys2Proof.Proofs

open Sys2Proof Sys2Proof.Machine

/-- Settles O1, by the second case of `step`. -/
theorem stepRunsTheFrontCommand : Obligations.StepRunsTheFrontCommand := by
  unfold Obligations.StepRunsTheFrontCommand
  intro i rest s h
  simp only [step, h]

/-- Settles O3, by the answers of the commands. -/
theorem everyCommandAnswersANextState : Obligations.EveryCommandAnswersANextState := by
  unfold Obligations.EveryCommandAnswersANextState
  intro i s
  obtain ⟨t, hexec, hkeeps, -⟩ := exec_answers i s
  exact ⟨t, hexec, hkeeps.pending⟩

/-- Settles O4: each field of the state of reset as its definition has it. -/
theorem resetHoldsTheManualsValues : Obligations.ResetHoldsTheManualsValues := by
  unfold Obligations.ResetHoldsTheManualsValues
  dsimp only
  refine ⟨rfl, rfl, rfl, rfl, rfl, rfl, rfl, rfl, ?shading, ?tone, ?dither, ⟨rfl, rfl, rfl, rfl⟩, ⟨rfl, rfl, rfl, rfl⟩, rfl, rfl, rfl,
    ⟨rfl, rfl, rfl, rfl, rfl, rfl, rfl, rfl, rfl⟩, ⟨rfl, rfl, rfl, rfl⟩, rfl, ⟨rfl, rfl, rfl, rfl, rfl⟩, rfl,
    ⟨rfl, rfl, rfl, rfl, rfl, rfl, rfl⟩⟩
  all_goals simp only [State.reset, Chip.powerOn, ScanTables.default]

/-- Settles O5. -/
theorem formsHoldAtReset : Obligations.FormsHoldAtReset := by
  unfold Obligations.FormsHoldAtReset
  exact ⟨FlashOk.blank, PoolOk.default, shapeOk_powerOn _, suppliesOk_powerOn _⟩

/-! ## A tick of the time base -/

theorem tick_of_sleep {c : Chip} (h : c.power.state = .sleep) : tick c = { c with power := c.power.slowTick } := if_pos h

theorem tick_of_awake {c : Chip} (h : c.power.state ≠ .sleep) : tick c = { c with
    scan := { c.scan with captureLeft := c.scan.captureLeft - 1 }
    scanCh := c.scanCh.tick
    printCh := c.printCh.tick
    head := c.head.tick
    store := { c.store with erase := c.store.erase.map EraseProg.tick, segLeft := c.store.segLeft - 1 }
    prot := { c.prot with service := c.prot.service.tick }
    link := { c.link with atnLeft := c.link.atnLeft - 1 }
    power := c.power.tick } := if_neg h

/-- The debounce records after a tick of `n` units. -/
theorem tickedSources (n : Nat) (xs : List Debounce) {i : Nat} {d : Debounce} (h : xs[i]? = some d) :
    (xs.map (Debounce.tick n))[i]? = some { d with timing := d.timing.map fun x => (x.1, x.2 - n) } := by
  rw [List.getElem?_map, h]
  rfl

/-- An erase in its pulse counts within its unit, one in its verify counts down, and any other stands (R122). -/
theorem eraseTick_cases (e : EraseProg) :
    (e.phase = .pulse → e.unit < 10000 →
      e.tick = { e with applied := e.applied + 1, unit := e.unit + 1, pulseRun := e.pulseRun + 1 }) ∧
    (e.phase = .verify → e.tick = { e with verifyLeft := e.verifyLeft - 1 }) ∧
    (e.phase ≠ .verify → e.phase ≠ .pulse ∨ 10000 ≤ e.unit → e.tick = e) := by
  unfold EraseProg.tick
  refine ⟨fun hphase hunit => ?_, fun hphase => ?_, fun hverify hpulse => ?_⟩
  · rw [hphase]
    dsimp only
    exact (if_pos hunit).trans (by unfold EraseProg.pulsed; rw [hphase])
  · rw [hphase]
  · cases hphase : e.phase with
    | pulse => exact if_neg (Nat.not_lt.mpr (hpulse.resolve_left fun k => k hphase))
    | verify => exact absurd hphase hverify
    | _ => rfl

theorem domainTick_cases (d : Domain) :
    (∀ n, d = .rising n → d.tick = .rising (n - 1)) ∧ (∀ n, d = .holding n → d.tick = .holding (n - 1)) ∧
      (d = .off → d.tick = .off) ∧ (d = .on → d.tick = .on) := by
  refine ⟨?_, ?_, ?_, ?_⟩
  · rintro n rfl; rfl
  · rintro n rfl; rfl
  · rintro rfl; rfl
  · rintro rfl; rfl

theorem serviceTick_of_closed {x : ServiceState} (h : ∀ n, x ≠ .window n) : x.tick = x := by
  cases x with
  | window n => exact absurd rfl (h n)
  | _ => rfl

/-- Settles O2, by the two cases of `tick` and what a tick does to each counter. -/
theorem stepOnAnEmptyQueueIsATick : Obligations.StepOnAnEmptyQueueIsATick := by
  unfold Obligations.StepOnAnEmptyQueueIsATick
  refine ⟨fun s h => ?_, fun c h => ?_, fun c h => ?_⟩
  · simp only [step, h]
    rfl
  · exact ⟨_, tick_of_sleep h, List.length_map _, fun i d hd => tickedSources 1000 _ hd⟩
  · dsimp only
    rw [tick_of_awake h]
    refine ⟨⟨rfl, rfl, rfl, rfl, rfl⟩, fun n hn => ?window, fun hn => ?closed, ⟨rfl, fun hnone => ?_, fun e he => ?erase⟩,
      ⟨_, _, _, _, rfl, ?domains, List.length_map _, fun i d hd => tickedSources 33 _ hd⟩,
      rfl, rfl, rfl, rfl, rfl, rfl, rfl, rfl, rfl⟩
    case window => simp only [hn]; rfl
    case closed => rw [serviceTick_of_closed hn]
    case erase =>
      obtain ⟨hpulse, hverify, hother⟩ := eraseTick_cases e
      refine ⟨fun hp hu => ?_, fun hv => ?_, fun hv hp => ?_⟩
      · simp only [he, Option.map_some, hpulse hp hu]
      · simp only [he, Option.map_some, hverify hv]
      · simp only [he, Option.map_some, hother hv hp]
    case domains =>
      intro x hx
      simp only [List.mem_cons, List.not_mem_nil, or_false] at hx
      rcases hx with rfl | rfl | rfl <;> exact domainTick_cases _
    · simp only [hnone, Option.map_none]

end Sys2Proof.Proofs
end

section
/-!
PROOFS. What commands leave alone: the loadable tables but for the LOADs (02_scan_path.md R44, 03_motor_timing.md R49, 04_print_path.md R78,
08_power_save.md R152, R153), the protection row but for its own programs and erases (07_store_protection_and_service_access.md R131), and the
whole backdrop of the events that move lines, paper and pages.
-/

-- One declaration after another: the package as one text keeps within the check's limit on threads.
set_option Elab.async false

namespace Sys2Proof.Proofs

open Sys2Proof Sys2Proof.Machine

/-! ## The protection row under the flash device's operations -/

/-- The protection row stands. -/
structure SameRow (f g : Flash) : Prop where
  lockCells : g.lockCells = f.lockCells
  master : g.master = f.master
  code : g.code = f.code

theorem SameRow.rfl {f : Flash} : SameRow f f := ⟨Eq.refl _, Eq.refl _, Eq.refl _⟩

theorem SameRow.trans {f g h : Flash} (a : SameRow f g) (b : SameRow g h) : SameRow f h :=
  ⟨b.lockCells.trans a.lockCells, b.master.trans a.master, b.code.trans a.code⟩

theorem program_row (f : Flash) (r : ProgResult) (ws : List Write) : SameRow f (f.program r ws).1 := ⟨rfl, rfl, rfl⟩

theorem cut_row (f : Flash) (ws : List Write) : SameRow f (f.cut ws) := ⟨rfl, rfl, rfl⟩

theorem tear_row (f : Flash) (b : Nat) : SameRow f (f.tear b) := by
  unfold Flash.tear
  split
  · exact .rfl
  · exact ⟨rfl, rfl, rfl⟩

theorem untear_row (f : Flash) (b : Nat) : SameRow f (f.untear b) := ⟨rfl, rfl, rfl⟩

theorem cutEraseFlash_row (e : EraseProg) (c : Chip) (f : Flash) : SameRow f (cutEraseFlash e c f) := by
  unfold cutEraseFlash
  split
  · exact .rfl
  · dsimp only
    split
    · exact (cut_row _ _).trans (tear_row _ _)
    · exact cut_row _ _
  · exact tear_row _ _

/-! ## The row under the operations over part and flash -/

theorem onChip_row (f : Chip → Chip) (s : State) : SameRow s.flash (s.onChip f).flash := by
  rw [State.onChip_flash]
  exact .rfl

theorem endProgram_row (j : Job) (r : ProgResult) (f : Bool → Chip → Chip) (s : State) :
    SameRow s.flash (endProgram j r f s).flash := program_row _ _ _

theorem verifyEnd_row (pass : Bool) (s : State) : SameRow s.flash (verifyEnd pass s).flash := by
  unfold verifyEnd
  split
  · split
    · split
      · exact ⟨rfl, rfl, rfl⟩
      · split <;> exact onChip_row _ s
    · exact .rfl
  · exact .rfl

theorem countEnd_row (r : ProgResult) (s : State) : SameRow s.flash (countEnd r s).flash := by
  unfold countEnd
  split
  · split
    · exact program_row _ _ _
    · exact .rfl
  · exact .rfl

theorem badEnd_row (r : ProgResult) (s : State) : SameRow s.flash (badEnd r s).flash := by
  unfold badEnd
  split
  · split
    · dsimp only
      split
      · exact (program_row _ _ _).trans (untear_row _ _)
      · exact (program_row _ _ _).trans (tear_row _ _)
    · exact .rfl
  · exact .rfl

theorem scanEnd_row (s : State) : SameRow s.flash (scanEnd s).flash := by
  unfold scanEnd
  split <;> exact .rfl

theorem cutLockedErase_row (s : State) : SameRow s.flash (cutLockedErase s).flash := by
  unfold cutLockedErase
  split
  · split
    · exact cutEraseFlash_row _ _ _
    · exact .rfl
  · exact .rfl

theorem cutLockedHolder_row (s : State) : SameRow s.flash (cutLockedHolder s).flash := by
  unfold cutLockedHolder
  split
  · split
    · exact cut_row _ _
    · exact .rfl
  · exact .rfl

theorem serviceOver_row (s : State) : SameRow s.flash (serviceOver s).flash := by
  unfold serviceOver
  extract_lets a b d
  have hd : SameRow b.flash d.flash := (cutLockedErase_row b).trans (cutLockedHolder_row _)
  exact ((onChip_row _ s).trans (onChip_row _ a)).trans (hd.trans (onChip_row _ d))

theorem closeService_row (s : State) : SameRow s.flash (closeService s).flash := by
  unfold closeService
  split
  · exact serviceOver_row s
  · exact onChip_row _ s
  · exact .rfl

theorem serviceEndState_row (p : List Byte) (s : State) : SameRow s.flash (serviceEndState p s).flash := by
  unfold serviceEndState
  split
  · exact closeService_row (s.onChip (reply p .accepted))
  · exact onChip_row _ s

theorem sleepEntry_row (s : State) : SameRow s.flash (sleepEntry s).flash := by
  unfold sleepEntry
  split
  · exact closeService_row s
  · exact .rfl

theorem beginSetup_row (k : Setup) (s : State) : SameRow s.flash (beginSetup k s).flash := by
  unfold beginSetup
  split
  · exact .rfl
  · exact .rfl
  · dsimp only
    split
    · exact cutEraseFlash_row _ _ _
    · exact .rfl

theorem confirmState_row (p : List Byte) (s : State) : SameRow s.flash (confirmState p s).flash := by
  unfold confirmState
  extract_lets k a
  split
  · exact .rfl
  · split
    · exact .rfl
    · split
      · exact .rfl
      · exact .rfl
      · exact beginSetup_row k (a.onChip (reply p .accepted))

theorem confirmOwned_row (p : List Byte) (s : State) : SameRow s.flash (confirmOwned p s).flash := by
  unfold confirmOwned
  split
  · exact .rfl
  · exact confirmState_row p s

theorem confirmOwned_sound (p : List Byte) (s : State) : Sound s (confirmOwned p s) := by
  unfold confirmOwned
  split
  · exact (Sound.rfl.onChip fun _ h => KeptTables.update h).onChip fun _ h => (refuse_kept .rfl _ _).to h
  · exact confirmState_sound p

/-! ## The row under directives (R179) -/

theorem sameRow_of_eq {f g : Flash} (h : g = f) : SameRow f g := h ▸ .rfl

@[simp] theorem ownedChip_flash (p : List Byte) (f : Chip → Chip) (s : State) : (ownedChip p f s).flash = s.flash := by
  unfold ownedChip owned
  split <;> exact State.onChip_flash _ s

theorem owned_row (p : List Byte) {f : State → State} (hf : ∀ s, SameRow s.flash (f s).flash) (s : State) :
    SameRow s.flash (owned p f s).flash := by
  unfold owned
  split
  · exact .rfl
  · exact hf s

theorem ownedChip_row (p : List Byte) (f : Chip → Chip) (s : State) : SameRow s.flash (ownedChip p f s).flash :=
  owned_row p (onChip_row f) s

theorem directive_row (doce papx : Bool) (i : Instr) (s : State) : SameRow s.flash (directive doce papx i s).flash := by
  cases i with
  | confirm p => exact confirmOwned_row p s
  | serviceEnd p => exact owned_row p (serviceEndState_row p) s
  | installBoot p => exact owned_row p (fun t => onChip_row _ t) s
  | _ => exact sameRow_of_eq (by simp [directive])

theorem arrive_row (i : Instr) {f : State → State} (hf : ∀ s, SameRow s.flash (f s).flash) (s : State) :
    SameRow s.flash (arrive i f s).flash := by
  unfold arrive
  split
  · exact .rfl
  · split
    · exact .rfl
    · split
      · exact hf (s.onChip (streamRules i))
      · exact .rfl

theorem takeHeld_row (doce papx : Bool) (s : State) : SameRow s.flash (takeHeld doce papx s).flash := by
  unfold takeHeld
  split
  · split
    · exact (onChip_row _ s).trans ((onChip_row _ _).trans (directive_row doce papx _ _))
    · exact .rfl
  · exact .rfl

/-! ## Every command -/

/-- A command that is no writer of the loadable tables leaves them, and one that is none of the protection row's leaves the row. -/
def Leaves (i : Instr) (s : State) : Prop :=
  ∃ t, exec i s = .next t ∧ (writesTables i = false → t.chip.loaded = s.chip.loaded) ∧ (writesRow i = false → SameRow s.flash t.flash)

theorem leaves_of_sound {i : Instr} {s t : State} (h : exec i s = .next t) (hsound : Sound s t) (hrow : SameRow s.flash t.flash) :
    Leaves i s := ⟨t, h, fun _ => hsound.1.1, fun _ => hrow⟩

theorem leaves_of_state {i : Instr} {s : State} (h : exec i s = .next s) : Leaves i s := leaves_of_sound h .rfl .rfl

theorem leaves_of_chip {i : Instr} {s : State} {f : Chip → Chip} (h : exec i s = .next (s.onChip f))
    (hf : ∀ c, KeptTables s.chip c → KeptTables s.chip (f c)) : Leaves i s := leaves_of_sound h (Sound.rfl.onChip hf) .rfl

theorem leaves_of_directive {i : Instr} {s : State} {f : State → State} (h : exec i s = .next (arrive i f s))
    (hf : ∀ t, Sound s t → Sound s (f t)) (hrow : ∀ t, SameRow t.flash (f t).flash) : Leaves i s :=
  leaves_of_sound h (arrive_sound i f hf) (arrive_row i hrow s)

theorem leaves_of_load {i : Instr} {s : State} {f : State → State} (h : exec i s = .next (arrive i f s)) (hi : writesTables i = true)
    (hrow : ∀ t, SameRow t.flash (f t).flash) : Leaves i s :=
  ⟨_, h, fun k => (by rw [hi] at k; cases k), fun _ => arrive_row i hrow s⟩

/-! A command whose meaning turns on the job that holds the flash. -/

theorem claimEnd_leaves (r : ProgResult) (s : State) : ∃ t, execClaimProgramEnd r s = .next t ∧ Sound s t ∧ SameRow s.flash t.flash := by
  unfold execClaimProgramEnd
  split
  · exact ⟨_, rfl, (endProgram_sound _ r _ fun _ _ h => (claimDone_kept .rfl _ _ _).to h), endProgram_row _ r _ s⟩
  · exact ⟨_, rfl, .rfl, .rfl⟩

theorem closeEnd_leaves (r : ProgResult) (s : State) : ∃ t, execCloseProgramEnd r s = .next t ∧ Sound s t ∧ SameRow s.flash t.flash := by
  unfold execCloseProgramEnd
  split
  · exact ⟨_, rfl, (endProgram_sound _ r _ fun _ _ h => (closeDone_kept .rfl _ _ _).to h), endProgram_row _ r _ s⟩
  · exact ⟨_, rfl, (endProgram_sound _ r _ fun _ _ h => (closeDone_kept .rfl _ _ _).to h), endProgram_row _ r _ s⟩
  · exact ⟨_, rfl, .rfl, .rfl⟩

theorem retireEnd_leaves (r : ProgResult) (s : State) : ∃ t, execRetireProgramEnd r s = .next t ∧ Sound s t ∧ SameRow s.flash t.flash := by
  unfold execRetireProgramEnd
  split
  · exact ⟨_, rfl, (endProgram_sound _ r _ fun _ _ h => retireDone_loaded h _ _ _), endProgram_row _ r _ s⟩
  · exact ⟨_, rfl, .rfl, .rfl⟩

theorem relocationEnd_leaves (r : ProgResult) (s : State) : ∃ t, execRelocationCopyEnd r s = .next t ∧ Sound s t ∧ SameRow s.flash t.flash := by
  unfold execRelocationCopyEnd
  split
  · exact ⟨_, rfl, (endRead_sound _ fun _ h => (relocRead_kept .rfl _).to h), onChip_row _ s⟩
  · exact ⟨_, rfl, (endProgram_sound _ r _ fun _ _ h => (relocProgrammed_kept .rfl _).to h), endProgram_row _ r _ s⟩
  · exact ⟨_, rfl, .rfl, .rfl⟩

theorem rowEnd_loaded (failed : List Nat) (s : State) :
    ∃ t, execRowProgramEnd failed s = .next t ∧ t.chip.loaded = s.chip.loaded := by
  unfold execRowProgramEnd
  split
  · refine ⟨_, rfl, ?_⟩
    unfold endRow
    dsimp only
    exact ((freeFlash_kept .rfl).to ((settleAll_kept .rfl).to (rowDone_loaded .rfl _ _ _))).1
  · exact ⟨_, rfl, rfl⟩

theorem exec_leaves (i : Instr) (s : State) : Leaves i s := by
  cases i with
  | close p => exact leaves_of_directive rfl (fun t ht => ownedChip_sound ht p _ fun _ _ h => (closeChip_kept .rfl _).to h) (ownedChip_row p _)
  | abort p => exact leaves_of_directive rfl (fun t ht => ownedChip_sound ht p _ fun _ _ h => (abortChip_kept .rfl _).to h) (ownedChip_row p _)
  | redirect p => exact leaves_of_directive rfl (fun t ht => ownedChip_sound ht p _ fun _ _ h => (redirectChip_kept .rfl _).to h) (ownedChip_row p _)
  | rearm p => exact leaves_of_directive rfl (fun t ht => ownedChip_sound ht p _ fun _ _ h => (rearmChip_kept .rfl _).to h) (ownedChip_row p _)
  | attentionMode p => exact leaves_of_directive rfl (fun t ht => ownedChip_sound ht p _ fun _ _ h => attentionChip_loaded h _) (ownedChip_row p _)
  | delete p => exact leaves_of_directive rfl (fun t ht => ownedChip_sound ht p _ fun _ _ h => deleteChip_loaded h _) (ownedChip_row p _)
  | directoryRequest p => exact leaves_of_directive rfl (fun t ht => ownedChip_sound ht p _ fun _ _ h => directoryChip_loaded h _) (ownedChip_row p _)
  | lockPage p => exact leaves_of_directive rfl (fun t ht => ownedChip_sound ht p _ fun _ _ h => lockPageChip_loaded h _) (ownedChip_row p _)
  | setMasterLock p => exact leaves_of_directive rfl (fun t ht => ownedChip_sound ht p _ fun _ _ h => setMasterChip_loaded h _) (ownedChip_row p _)
  | clearLocks p => exact leaves_of_directive rfl (fun t ht => ownedChip_sound ht p _ fun _ _ h => setupChip_loaded h _ _) (ownedChip_row p _)
  | totalErase p => exact leaves_of_directive rfl (fun t ht => ownedChip_sound ht p _ fun _ _ h => setupChip_loaded h _ _) (ownedChip_row p _)
  | clearStoreStatus p => exact leaves_of_directive rfl (fun t ht => ownedChip_sound ht p _ fun _ _ h => clearStatusChip_loaded h _) (ownedChip_row p _)
  | serviceRequest p => exact leaves_of_directive rfl (fun t ht => ownedChip_sound ht p _ fun _ _ h => serviceRequestChip_loaded h _) (ownedChip_row p _)
  | serviceCode p => exact leaves_of_directive rfl (fun t ht => ownedChip_sound ht p _ fun _ _ h => serviceCodeChip_loaded h _) (ownedChip_row p _)
  | setCode p => exact leaves_of_directive rfl (fun t ht => ownedChip_sound ht p _ fun _ _ h => setCodeChip_loaded h _) (ownedChip_row p _)
  | sleep p => exact leaves_of_directive rfl (fun t ht => ownedChip_sound ht p _ fun _ _ h => sleepChip_loaded h _) (ownedChip_row p _)
  | bootFetch p => exact leaves_of_directive rfl (fun t ht => ownedChip_sound ht p _ fun _ _ h => bootFetchChip_loaded h _) (ownedChip_row p _)
  | openRoute p => exact leaves_of_directive rfl (fun t ht => ownedChip_sound ht p _ fun _ _ h => (openChip_kept .rfl _).to h) (ownedChip_row p _)
  | loadShading p => exact leaves_of_load rfl rfl (ownedChip_row p _)
  | loadTone p => exact leaves_of_load rfl rfl (ownedChip_row p _)
  | loadDither p => exact leaves_of_load rfl rfl (ownedChip_row p _)
  | loadScanRamp p => exact leaves_of_load rfl rfl (ownedChip_row p _)
  | loadPrintRamp p => exact leaves_of_load rfl rfl (ownedChip_row p _)
  | loadHeat p => exact leaves_of_load rfl rfl (ownedChip_row p _)
  | loadPark p => exact leaves_of_load rfl rfl (ownedChip_row p _)
  | loadWake p => exact leaves_of_load rfl rfl (ownedChip_row p _)
  | statusRequest p doce papx =>
    exact leaves_of_directive rfl (fun t ht => ownedChip_sound ht p _ fun _ _ h => (statusChip_kept .rfl _ _ _).to h) (ownedChip_row p _)
  | unknownDirective tag p =>
    exact leaves_of_directive rfl (fun t ht => ht.onChip fun _ h => (unknownChip_kept .rfl _).to h) fun _ => .rfl
  | confirm p => exact leaves_of_directive rfl (fun t ht => ht.trans (confirmOwned_sound p t)) (confirmOwned_row p)
  | installBoot p =>
    exact leaves_of_directive rfl
      (fun t ht => owned_sound ht p _ fun u => Sound.rfl.onChip fun _ h => installChip_loaded h _ _) (owned_row p fun _ => .rfl)
  | serviceEnd p =>
    exact leaves_of_directive rfl (fun t ht => owned_sound ht p _ fun u => serviceEndState_sound p) (owned_row p (serviceEndState_row p))
  | powerOnReset pins => exact ⟨_, rfl, fun k => (by cases k), fun k => (by cases k)⟩
  | restart p =>
    refine ⟨_, rfl, fun _ => ?_, fun k => (by cases k)⟩
    split
    · exact (restartState_sound p).1.1
    · rfl
  | directiveDiscardedUntaken => exact leaves_of_state rfl
  | heldDirectiveTaken doce papx => exact ⟨_, rfl, fun k => (by cases k), fun _ => takeHeld_row doce papx s⟩
  | skippedTag tag p => exact leaves_of_state rfl
  | lselAssert doce papx bytes =>
    have hnone : (!bytes.isEmpty) = false → bytes = [] := fun k => by simpa using k
    refine ⟨_, rfl, fun k => ?_, fun k => ?_⟩
    · rw [hnone k]
      exact (lselAssertChip_loaded .rfl).1
    · rw [hnone k]
      exact .rfl
  | sleepEntry => exact ⟨_, rfl, fun _ => sleepEntry_sound.1.1, fun _ => sleepEntry_row s⟩
  | line length bytes => exact leaves_of_chip rfl fun _ h => lineChip_loaded h _ _
  | pageEnd p => exact leaves_of_chip rfl fun _ h => (pageEndChip_kept .rfl _).to h
  | framingError tag length => exact leaves_of_chip rfl fun _ h => framingChip_loaded h _
  | lselRelease cut => exact leaves_of_chip rfl fun _ h => lselReleaseChip_loaded h _
  | reportRecordSent => exact leaves_of_chip rfl fun _ h => reportSentChip_loaded h
  | outboundLineSent => exact leaves_of_chip rfl fun _ h => lineSentChip_loaded h
  | outboundPageEndSent => exact leaves_of_chip rfl fun _ h => pageSentChip_loaded h
  | linkEncodeEnd => exact leaves_of_chip rfl fun _ h => (encodeEndChip_kept .rfl).to h
  | directoryEntry => exact leaves_of_chip rfl fun _ h => directoryEntryChip_loaded h
  | atnPulseEnd => exact leaves_of_chip rfl fun _ h => (atnEndChip_kept .rfl).to h
  | docpChange present => exact leaves_of_chip rfl fun _ h => docpChip_loaded h _
  | pickStart doce => exact leaves_of_chip rfl fun _ h => (pickChip_kept .rfl _).to h
  | channelStart ch therm => exact leaves_of_chip rfl fun _ h => (startChip_kept .rfl _ _).to h
  | motorStep ch doce therm => exact leaves_of_chip rfl fun _ h => stepChip_loaded h _ _ _
  | holdExpiry ch => exact leaves_of_chip rfl fun _ h => (holdChip_kept .rfl _).to h
  | captureEnd samples => exact leaves_of_chip rfl fun _ h => (captureChip_kept .rfl _).to h
  | interlockTrip => exact leaves_of_chip rfl fun _ h => tripChip_loaded h
  | coverClose => exact leaves_of_chip rfl fun _ h => coverCloseChip_loaded h
  | headLoadEnd => exact leaves_of_chip rfl fun _ h => (loadEndChip_kept .rfl).to h
  | strobeEnd => exact leaves_of_chip rfl fun _ h => (strobeEndChip_kept .rfl).to h
  | cutterPulseEnd => exact leaves_of_chip rfl fun _ h => (cutPulseChip_kept .rfl).to h
  | cutJudgement papx => exact leaves_of_chip rfl fun _ h => (cutJudgeChip_kept .rfl _).to h
  | paperOut => exact leaves_of_chip rfl fun _ h => paperOutChip_loaded h
  | paperIn => exact leaves_of_chip rfl fun _ h => paperInChip_loaded h
  | storeReadRequest => exact leaves_of_chip rfl fun _ h => (readRequestChip_kept .rfl).to h
  | eraseStart => exact leaves_of_chip rfl fun _ h => (eraseStartChip_kept .rfl).to h
  | erasePulseEnd => exact leaves_of_chip rfl fun _ h => (pulseEndChip_kept .rfl).to h
  | eraseMinPulseEnd => exact leaves_of_chip rfl fun _ h => (minPulseChip_kept .rfl).to h
  | scanStart => exact leaves_of_chip rfl fun _ h => scanStartChip_loaded h
  | installRetireStart => exact leaves_of_chip rfl fun _ h => installRetireChip_loaded h
  | serviceWindowExpiry => exact leaves_of_chip rfl fun _ h => windowExpiryChip_loaded h
  | servicePulseEnd => exact leaves_of_chip rfl fun _ h => pulseOverChip_loaded h
  | domainSettled d therm => exact leaves_of_chip rfl fun _ h => settledChip_loaded h _ _
  | domainHoldExpiry d => exact leaves_of_chip rfl fun _ h => holdOverChip_loaded h _
  | wakeInputChange pin high => exact leaves_of_chip rfl fun _ h => wakeInputChip_loaded h _ _
  | debounceExpiry source => exact leaves_of_chip rfl fun _ h => debounceChip_loaded h _
  | secondTick => exact leaves_of_chip rfl fun _ h => secondChip_loaded h
  | wakeTimerExpiry => exact leaves_of_chip rfl fun _ h => wakeTimerChip_loaded h
  | mainClockRunning papp papx doce cover => exact leaves_of_chip rfl fun _ h => clockChip_loaded h _ _ _ _
  | wakingEnd => exact leaves_of_chip rfl fun _ h => wakingEndChip_loaded h
  | bootHoldRelease => exact leaves_of_chip rfl fun _ h => bootReleaseChip_loaded h
  | upstreamRecordStart => exact leaves_of_chip rfl fun _ h => upstreamChip_loaded h
  | lineReadEnd =>
    refine leaves_of_sound (t := _) rfl ?_ ?_
    · split
      · exact endRead_sound _ fun _ h => (lineReadDone_kept .rfl _).to h
      · exact .rfl
    · split
      · exact onChip_row _ s
      · exact .rfl
  | entryProgramEnd r =>
    refine leaves_of_sound (t := _) rfl ?_ ?_
    · split
      · exact endProgram_sound _ r _ fun _ _ h => (entryDone_kept .rfl _).to h
      · exact .rfl
    · split
      · exact endProgram_row _ r _ s
      · exact .rfl
  | imageReadEnd =>
    refine leaves_of_sound (t := _) rfl ?_ ?_
    · split
      · exact endRead_sound _ fun _ h => imageReadDone_loaded h _
      · exact .rfl
    · split
      · exact onChip_row _ s
      · exact .rfl
  | installMarkProgramEnd r =>
    refine leaves_of_sound (t := _) rfl ?_ ?_
    · split
      · exact endProgram_sound _ r _ fun _ _ h => markDone_loaded h _
      · exact .rfl
    · split
      · exact endProgram_row _ r _ s
      · exact .rfl
  | eraseVerifyEnd pass => exact leaves_of_sound rfl (verifyEnd_sound pass) (verifyEnd_row pass s)
  | countProgramEnd r => exact leaves_of_sound rfl (countEnd_sound r) (countEnd_row r s)
  | badStateProgramEnd r => exact leaves_of_sound rfl (badEnd_sound r) (badEnd_row r s)
  | lockSegmentEraseEnd still => exact ⟨_, rfl, fun _ => (lockEraseEnd_sound still).1.1, fun k => (by cases k)⟩
  | totalEraseLockSegmentEnd still => exact ⟨_, rfl, fun _ => (totalLockEnd_sound still).1.1, fun k => (by cases k)⟩
  | keySegmentEraseEnd key => exact ⟨_, rfl, fun _ => (keyEraseEnd_sound key).1.1, fun k => (by cases k)⟩
  | scanEnd => exact leaves_of_sound rfl scanEnd_sound (scanEnd_row s)
  | claimProgramEnd r =>
    obtain ⟨_, h, hsound, hrow⟩ := claimEnd_leaves r s
    exact leaves_of_sound h hsound hrow
  | closeProgramEnd r =>
    obtain ⟨_, h, hsound, hrow⟩ := closeEnd_leaves r s
    exact leaves_of_sound h hsound hrow
  | retireProgramEnd r =>
    obtain ⟨_, h, hsound, hrow⟩ := retireEnd_leaves r s
    exact leaves_of_sound h hsound hrow
  | relocationCopyEnd r =>
    obtain ⟨_, h, hsound, hrow⟩ := relocationEnd_leaves r s
    exact leaves_of_sound h hsound hrow
  | rowProgramEnd failed =>
    obtain ⟨_, h, hst⟩ := rowEnd_loaded failed s
    exact ⟨_, h, fun _ => hst, fun k => (by cases k)⟩

/-- Settles O10, by what every command leaves alone. -/
theorem tablesChangeOnlyByTheirLoads : Obligations.TablesChangeOnlyByTheirLoads := by
  unfold Obligations.TablesChangeOnlyByTheirLoads
  intro i s t hwrites hexec
  obtain ⟨u, hu, htables, -⟩ := exec_leaves i s
  obtain rfl := Host.Outcome.next.inj (hu.symm.trans hexec)
  exact htables hwrites

/-- Settles O11, by what every command leaves alone. -/
theorem rowChangesOnlyByItsPrograms : Obligations.RowChangesOnlyByItsPrograms := by
  unfold Obligations.RowChangesOnlyByItsPrograms
  intro i s t hwrites hexec
  obtain ⟨u, hu, -, hrow⟩ := exec_leaves i s
  obtain rfl := Host.Outcome.next.inj (hu.symm.trans hexec)
  obtain ⟨hlocks, hmaster, hcode⟩ := hrow hwrites
  exact ⟨hlocks, hmaster, hcode⟩

/-! ## The events that move lines, paper and pages -/

theorem endProgram_kept (j : Job) (r : ProgResult) {f : Bool → Chip → Chip} {s : State}
    (hf : ∀ ok, Kept s.chip (f ok s.chip)) : Kept s.chip (endProgram j r f s).chip :=
  freeFlash_kept (settleAll_kept (hf _))

theorem endRead_kept {f : Chip → Chip} {s : State} (hf : Kept s.chip (f s.chip)) : Kept s.chip (endRead f s).chip :=
  freeFlash_kept (settleAll_kept hf)

theorem verifyEnd_kept (pass : Bool) (s : State) : Kept s.chip (verifyEnd pass s).chip := by
  unfold verifyEnd
  split
  · split
    · split
      · exact setErase_kept .rfl _
      · split
        · exact grant_kept (setErase_kept .rfl _)
        · exact settleAll_kept (eraseFailed_kept .rfl _)
    · exact .rfl
  · exact .rfl

theorem countEnd_kept (r : ProgResult) (s : State) : Kept s.chip (countEnd r s).chip := by
  unfold countEnd
  split
  · split
    · exact countDone_kept .rfl _ _
    · exact .rfl
  · exact .rfl

theorem badEnd_kept (r : ProgResult) (s : State) : Kept s.chip (badEnd r s).chip := by
  unfold badEnd
  split
  · split
    · exact eraseOver_kept .rfl _ _
    · exact .rfl
  · exact .rfl

theorem claimEnd_kept (r : ProgResult) (s : State) : ∃ t, execClaimProgramEnd r s = .next t ∧ Kept s.chip t.chip := by
  unfold execClaimProgramEnd
  split
  · exact ⟨_, rfl, endProgram_kept _ r fun _ => claimDone_kept .rfl _ _ _⟩
  · exact ⟨_, rfl, .rfl⟩

theorem closeEnd_kept (r : ProgResult) (s : State) : ∃ t, execCloseProgramEnd r s = .next t ∧ Kept s.chip t.chip := by
  unfold execCloseProgramEnd
  split
  · exact ⟨_, rfl, endProgram_kept _ r fun _ => closeDone_kept .rfl _ _ _⟩
  · exact ⟨_, rfl, endProgram_kept _ r fun _ => closeDone_kept .rfl _ _ _⟩
  · exact ⟨_, rfl, .rfl⟩

theorem relocationEnd_kept (r : ProgResult) (s : State) : ∃ t, execRelocationCopyEnd r s = .next t ∧ Kept s.chip t.chip := by
  unfold execRelocationCopyEnd
  split
  · exact ⟨_, rfl, endRead_kept (relocRead_kept .rfl _)⟩
  · exact ⟨_, rfl, endProgram_kept _ r fun _ => relocProgrammed_kept .rfl _⟩
  · exact ⟨_, rfl, .rfl⟩

/-- An event that only moves lines, paper and pages keeps the backdrop. -/
theorem moves_kept {i : Instr} (hi : movesOnly i = true) (s : State) : ∃ t, exec i s = .next t ∧ Kept s.chip t.chip := by
  cases i with
  | pickStart doce => exact ⟨_, rfl, pickChip_kept .rfl _⟩
  | channelStart ch therm => exact ⟨_, rfl, startChip_kept .rfl _ _⟩
  | holdExpiry ch => exact ⟨_, rfl, holdChip_kept .rfl _⟩
  | captureEnd samples => exact ⟨_, rfl, captureChip_kept .rfl _⟩
  | headLoadEnd => exact ⟨_, rfl, loadEndChip_kept .rfl⟩
  | strobeEnd => exact ⟨_, rfl, strobeEndChip_kept .rfl⟩
  | cutterPulseEnd => exact ⟨_, rfl, cutPulseChip_kept .rfl⟩
  | cutJudgement papx => exact ⟨_, rfl, cutJudgeChip_kept .rfl _⟩
  | linkEncodeEnd => exact ⟨_, rfl, encodeEndChip_kept .rfl⟩
  | storeReadRequest => exact ⟨_, rfl, readRequestChip_kept .rfl⟩
  | lineReadEnd =>
    refine ⟨_, rfl, ?_⟩
    split
    · exact endRead_kept (lineReadDone_kept .rfl _)
    · exact .rfl
  | entryProgramEnd r =>
    refine ⟨_, rfl, ?_⟩
    split
    · exact endProgram_kept _ r fun _ => entryDone_kept .rfl _
    · exact .rfl
  | claimProgramEnd r => exact claimEnd_kept r s
  | closeProgramEnd r => exact closeEnd_kept r s
  | relocationCopyEnd r => exact relocationEnd_kept r s
  | eraseStart => exact ⟨_, rfl, eraseStartChip_kept .rfl⟩
  | erasePulseEnd => exact ⟨_, rfl, pulseEndChip_kept .rfl⟩
  | eraseVerifyEnd pass => exact ⟨_, rfl, verifyEnd_kept pass s⟩
  | eraseMinPulseEnd => exact ⟨_, rfl, minPulseChip_kept .rfl⟩
  | countProgramEnd r => exact ⟨_, rfl, countEnd_kept r s⟩
  | badStateProgramEnd r => exact ⟨_, rfl, badEnd_kept r s⟩
  | _ => cases hi

/-- Settles O12, by `moves_kept`. -/
theorem movementLeavesTheBackdrop : Obligations.MovementLeavesTheBackdrop := by
  unfold Obligations.MovementLeavesTheBackdrop
  intro i s t hmoves hexec
  obtain ⟨u, hu, hkept⟩ := moves_kept hmoves s
  obtain rfl := Host.Outcome.next.inj (hu.symm.trans hexec)
  exact hkept.1

end Sys2Proof.Proofs
end

section
/-!
PROOFS. Pixels, scaling, phases and loaded tables (02_scan_path.md R30 to R34, 03_motor_timing.md R48, R49, 04_print_path.md R78).
-/

-- One declaration after another: the package as one text keeps within the check's limit on threads.
set_option Elab.async false

namespace Sys2Proof.Proofs

open Sys2Proof Sys2Proof.Machine

/-! ## Pixels of a captured line (R30 to R33) -/

theorem scanLine_getElem? (t : ScanTables) (p : ScanParams) (row : Nat) (samples : List Byte) {i : Nat} (h : i < lineWidth) :
    (scanLine t p row samples)[i]? = some (pixelOf t p row i (samples.getD i 0)) := by
  simp [scanLine, h]

/-- Settles O16, by the two modes of the bilevel stage. -/
theorem pixelOfACapturedLine : Obligations.PixelOfACapturedLine := by
  unfold Obligations.PixelOfACapturedLine
  intro t p row samples i hi
  refine ⟨by simp [scanLine], fun hmode => ?_, fun hmode => ?_⟩
  · rw [scanLine_getElem? t p row samples hi]
    simp only [pixelOf, bilevel, hmode]
  · rw [scanLine_getElem? t p row samples hi]
    simp only [pixelOf, bilevel, hmode]

/-! ## Vertical scaling (R34) -/

/-- The scaling accumulator and the lines kept after `n` captures. -/
def scaleRun (q n : Nat) : Nat × Nat :=
  (List.range n).foldl (fun (x : Nat × Nat) _ => ((scaleLine x.1 q).1, x.2 + if (scaleLine x.1 q).2 then 1 else 0)) (0, 0)

theorem scaleRun_succ (q n : Nat) : scaleRun q (n + 1) =
    ((scaleLine (scaleRun q n).1 q).1, (scaleRun q n).2 + if (scaleLine (scaleRun q n).1 q).2 then 1 else 0) := by
  unfold scaleRun
  rw [List.range_succ, List.foldl_append]
  rfl

/-- Of the first `n` captures, the quotient is kept and the remainder is in the accumulator. -/
theorem scaleRun_eq {q : Nat} (hq : q ≤ 256) (n : Nat) : scaleRun q n = (n * q % 256, n * q / 256) := by
  induction n with
  | zero => simp [scaleRun]
  | succ n ih =>
    rw [scaleRun_succ, ih, Nat.succ_mul]
    unfold scaleLine
    dsimp only
    split
    · refine Prod.ext ?_ ?_ <;> simp only [if_true] <;> omega
    · refine Prod.ext ?_ ?_ <;> simp only [Bool.false_eq_true, if_false] <;> omega

/-- Settles O17, by the division of `n q` by 256. -/
theorem scalingKeepsItsShareOfLines : Obligations.ScalingKeepsItsShareOfLines := by
  unfold Obligations.ScalingKeepsItsShareOfLines
  intro q n hq
  have hrun := scaleRun_eq hq n
  exact ⟨congrArg Prod.snd hrun, congrArg Prod.fst hrun⟩

/-! ## Phases (R48) -/

/-- Settles O18, by the definitions of the sequence and of the channel's operations. -/
theorem phasesFollowTheirSequence : Obligations.PhasesFollowTheirSequence := by
  unfold Obligations.PhasesFollowTheirSequence
  exact ⟨rfl, fun _ => ⟨rfl, rfl⟩, fun _ h => if_pos h, fun _ h => if_neg h, fun _ => ⟨rfl, rfl, rfl, rfl⟩⟩

/-! ## Ramps (R49) -/

theorem clamp_bounds {lo hi : Nat} (h : lo ≤ hi) (v : Nat) : lo ≤ clamp lo hi v ∧ clamp lo hi v ≤ hi := by
  unfold clamp
  split
  · omega
  · split <;> omega

@[simp] theorem lowerFrom_length (y : Option Nat) (xs : List Nat) : (lowerFrom y xs).length = xs.length := by
  induction xs generalizing y with
  | nil => cases y <;> rfl
  | cons x xs ih => cases y <;> simp [lowerFrom, ih]

/-- Lowered entries stay at or above any bound that the entries and the one before them keep. -/
theorem lowerFrom_bounds {a b : Nat} {y : Option Nat} {xs : List Nat} (hy : ∀ v, y = some v → a ≤ v ∧ v ≤ b)
    (hx : ∀ x ∈ xs, a ≤ x ∧ x ≤ b) : ∀ x ∈ lowerFrom y xs, a ≤ x ∧ x ≤ b := by
  induction xs generalizing y with
  | nil => cases y <;> simp [lowerFrom]
  | cons x xs ih =>
    obtain ⟨hx0, hxs⟩ := List.forall_mem_cons.1 hx
    cases y with
    | none =>
      simp only [lowerFrom, List.forall_mem_cons]
      exact ⟨hx0, ih (fun v e => Option.some.inj e ▸ hx0) hxs⟩
    | some v =>
      have hv := hy v rfl
      have hmin : a ≤ min v x ∧ min v x ≤ b := by omega
      simp only [lowerFrom, List.forall_mem_cons]
      exact ⟨hmin, ih (fun w e => Option.some.inj e ▸ hmin) hxs⟩

/-- Lowered entries never rise, and are at most the one before them. -/
theorem lowerFrom_sorted (y : Option Nat) (xs : List Nat) :
    (lowerFrom y xs).Pairwise (· ≥ ·) ∧ ∀ v, y = some v → ∀ x ∈ lowerFrom y xs, x ≤ v := by
  induction xs generalizing y with
  | nil => cases y <;> simp [lowerFrom]
  | cons x xs ih =>
    cases y with
    | none =>
      obtain ⟨hsorted, hle⟩ := ih (some x)
      exact ⟨List.pairwise_cons.2 ⟨hle x rfl, hsorted⟩, fun v e => by cases e⟩
    | some v =>
      obtain ⟨hsorted, hle⟩ := ih (some (min v x))
      refine ⟨List.pairwise_cons.2 ⟨hle _ rfl, hsorted⟩, fun w e => ?_⟩
      obtain rfl := Option.some.inj e
      simp only [lowerFrom, List.forall_mem_cons]
      exact ⟨Nat.min_le_left _ _, fun z hz => (hle _ rfl z hz).trans (Nat.min_le_left _ _)⟩

/-- Of two lists in order, the second beginning behind the last entry of the first, the whole is in order. -/
theorem pairwise_append_last {r : Nat → Nat → Prop} (htrans : ∀ a b c, r a b → r b c → r a c) {xs ys : List Nat}
    (hx : xs.Pairwise r) (hy : ys.Pairwise r) (hle : ∀ v, xs.getLast? = some v → ∀ y ∈ ys, r v y) : (xs ++ ys).Pairwise r := by
  refine List.pairwise_append.2 ⟨hx, hy, fun x hxm y hym => ?_⟩
  obtain ⟨zs, v, rfl⟩ : ∃ zs v, xs = zs ++ [v] := by
    rcases List.eq_nil_or_concat xs with rfl | ⟨zs, v, h⟩
    · simp at hxm
    · exact ⟨zs, v, h.trans (List.concat_eq_append ..)⟩
  have hyv := hle v (by simp) y hym
  rcases List.mem_append.1 hxm with hz | hv
  · exact htrans _ _ _ ((List.pairwise_append.1 hx).2.2 x hz v (by simp)) hyv
  · exact List.mem_singleton.1 hv ▸ hyv

theorem loadedRamp_ordered {ramp : List Nat} (new : List Nat) {off : Nat} (hoff : off ≤ ramp.length) (hramp : ramp.Pairwise (· ≥ ·))
    (hbounds : ∀ x ∈ ramp, 500 ≤ x ∧ x ≤ 20000) :
    (loadedRamp ramp off new).Pairwise (· ≥ ·) ∧ (∀ x ∈ loadedRamp ramp off new, 500 ≤ x ∧ x ≤ 20000) ∧
      (loadedRamp ramp off new).length = off + new.length := by
  have htake : ∀ x ∈ ramp.take off, 500 ≤ x ∧ x ≤ 20000 := fun x hx => hbounds x (List.mem_of_mem_take hx)
  have hnew : ∀ x ∈ new.map (clamp 500 20000), 500 ≤ x ∧ x ≤ 20000 := by
    intro x hx
    obtain ⟨v, -, rfl⟩ := List.mem_map.1 hx
    exact clamp_bounds (by decide) v
  obtain ⟨hsorted, hle⟩ := lowerFrom_sorted (ramp.take off).getLast? (new.map (clamp 500 20000))
  unfold loadedRamp
  dsimp only
  refine ⟨pairwise_append_last (r := (· ≥ ·)) (fun _ _ _ h k => Nat.le_trans k h) (hramp.sublist (List.take_sublist _ _)) hsorted hle, ?_, by simp [hoff]⟩
  intro x hx
  rcases List.mem_append.1 hx with hold | hlow
  · exact htake x hold
  · exact lowerFrom_bounds (fun v e => htake v (List.mem_of_getLast? e)) hnew x hlow

/-! ## Heat (R78) -/

@[simp] theorem raiseFrom_length (y : Option Nat) (xs : List Nat) : (raiseFrom y xs).length = xs.length := by
  induction xs generalizing y with
  | nil => cases y <;> rfl
  | cons x xs ih => cases y <;> simp [raiseFrom, ih]

theorem raiseFrom_le {b : Nat} {y : Option Nat} {xs : List Nat} (hy : ∀ v, y = some v → v ≤ b) (hx : ∀ x ∈ xs, x ≤ b) :
    ∀ x ∈ raiseFrom y xs, x ≤ b := by
  induction xs generalizing y with
  | nil => cases y <;> simp [raiseFrom]
  | cons x xs ih =>
    obtain ⟨hx0, hxs⟩ := List.forall_mem_cons.1 hx
    cases y with
    | none =>
      simp only [raiseFrom, List.forall_mem_cons]
      exact ⟨hx0, ih (fun v e => Option.some.inj e ▸ hx0) hxs⟩
    | some v =>
      have hmax : max v x ≤ b := Nat.max_le.2 ⟨hy v rfl, hx0⟩
      simp only [raiseFrom, List.forall_mem_cons]
      exact ⟨hmax, ih (fun w e => Option.some.inj e ▸ hmax) hxs⟩

/-- Raised entries never fall, and are at least the one before them. -/
theorem raiseFrom_sorted (y : Option Nat) (xs : List Nat) :
    (raiseFrom y xs).Pairwise (· ≤ ·) ∧ ∀ v, y = some v → ∀ x ∈ raiseFrom y xs, v ≤ x := by
  induction xs generalizing y with
  | nil => cases y <;> simp [raiseFrom]
  | cons x xs ih =>
    cases y with
    | none =>
      obtain ⟨hsorted, hle⟩ := ih (some x)
      exact ⟨List.pairwise_cons.2 ⟨hle x rfl, hsorted⟩, fun v e => by cases e⟩
    | some v =>
      obtain ⟨hsorted, hle⟩ := ih (some (max v x))
      refine ⟨List.pairwise_cons.2 ⟨hle _ rfl, hsorted⟩, fun w e => ?_⟩
      obtain rfl := Option.some.inj e
      simp only [raiseFrom, List.forall_mem_cons]
      exact ⟨Nat.le_max_left _ _, fun z hz => (Nat.le_max_left _ _).trans (hle _ rfl z hz)⟩

/-- The range of a heat entry by its place (R78 step 2). -/
def HeatInRange (i v : Nat) : Prop := (i < 7 → v ≤ 255) ∧ (7 ≤ i → 100 ≤ v ∧ v ≤ 4000)

theorem heatClamp_inRange (i v : Nat) : HeatInRange i (heatClamp i v) := by
  unfold heatClamp
  split
  next h => exact ⟨fun _ => Nat.min_le_left _ _, fun k => absurd h (Nat.not_lt.mpr k)⟩
  next h => exact ⟨fun k => absurd k h, fun _ => clamp_bounds (by decide) v⟩

/-- Entries written into a list, each in its place's range, leave every entry in its place's range. -/
theorem writeAt_inRange {P : Nat → Nat → Prop} {xs new : List Nat} {off : Nat} (hoff : off ≤ xs.length)
    (hx : ∀ i v, xs[i]? = some v → P i v) (hn : ∀ i v, new[i]? = some v → P (off + i) v) :
    ∀ i v, (writeAt xs off new)[i]? = some v → P i v := by
  intro i v h
  have hlen : (xs.take off).length = off := by simp [hoff]
  unfold writeAt at h
  rw [List.append_assoc, List.getElem?_append, hlen] at h
  split at h
  next hi => exact hx i v (by rwa [List.getElem?_take_of_lt hi] at h)
  next hi =>
    rw [List.getElem?_append] at h
    split at h
    next => exact Nat.add_sub_cancel' (Nat.le_of_not_lt hi) ▸ hn (i - off) v h
    next hj =>
      rw [List.getElem?_drop] at h
      refine hx i v ?_
      rwa [show off + new.length + (i - off - new.length) = i by omega] at h

theorem heatClamped_length {t : HeatTable} {new : List Nat} {off : Nat} (h7 : t.thresholds.length = 7) (h8 : t.times.length = 8)
    (hfits : off + new.length ≤ 15) : (heatClamped t off new).length = 15 := by
  unfold heatClamped
  rw [writeAt_length (.inl (by simp [h7, h8]; omega))]
  simp [h7, h8]

theorem heatClamped_inRange {t : HeatTable} {new : List Nat} {off : Nat} (h7 : t.thresholds.length = 7) (h8 : t.times.length = 8)
    (hthresholds : ∀ x ∈ t.thresholds, x ≤ 255) (htimes : ∀ x ∈ t.times, 100 ≤ x ∧ x ≤ 4000) (hfits : off + new.length ≤ 15) :
    ∀ i v, (heatClamped t off new)[i]? = some v → HeatInRange i v := by
  refine writeAt_inRange (by simp [h7, h8]; omega) (fun i v h => ?_) (fun i v h => ?_)
  · rw [List.getElem?_append, h7] at h
    split at h
    next hi => exact ⟨fun _ => hthresholds v (List.mem_of_getElem? h), fun k => absurd hi (Nat.not_lt.mpr k)⟩
    next hi => exact ⟨fun k => absurd k hi, fun _ => htimes v (List.mem_of_getElem? h)⟩
  · simp only [List.getElem?_map, Option.map_eq_some_iff] at h
    obtain ⟨x, hzip, rfl⟩ := h
    obtain ⟨hindex, -⟩ := List.getElem?_zip_eq_some.1 hzip
    obtain ⟨_, hx⟩ := List.getElem?_eq_some_iff.1 hindex
    rw [List.getElem_range] at hx
    exact hx ▸ heatClamp_inRange _ _

/-- What the table holds before the entries are put in order: thresholds in their range, untouched before `off`, and times in theirs. -/
theorem heatClamped_split {t : HeatTable} {new : List Nat} {off : Nat} (h7 : t.thresholds.length = 7) (h8 : t.times.length = 8)
    (hthresholds : ∀ x ∈ t.thresholds, x ≤ 255) (htimes : ∀ x ∈ t.times, 100 ≤ x ∧ x ≤ 4000) (hfits : off + new.length ≤ 15) :
    (∀ x ∈ (heatClamped t off new).take 7, x ≤ 255) ∧ (∀ x ∈ (heatClamped t off new).drop 7, 100 ≤ x ∧ x ≤ 4000) ∧
      ((heatClamped t off new).take 7).take off = t.thresholds.take off := by
  have hrange := heatClamped_inRange h7 h8 hthresholds htimes hfits
  refine ⟨fun x hx => ?_, fun x hx => ?_, ?_⟩
  · obtain ⟨i, hi, rfl⟩ := List.mem_iff_getElem.1 hx
    simp only [List.length_take, Nat.lt_min] at hi
    rw [List.getElem_take]
    exact (hrange i _ (List.getElem?_eq_getElem hi.2)).1 hi.1
  · obtain ⟨i, hi, rfl⟩ := List.mem_iff_getElem.1 hx
    rw [List.getElem_drop]
    exact (hrange (7 + i) _ (List.getElem?_eq_getElem _)).2 (Nat.le_add_right _ _)
  · have hbefore : (heatClamped t off new).take off = (t.thresholds ++ t.times).take off := by
      unfold heatClamped writeAt
      rw [List.append_assoc, List.take_append_of_le_length (by simp [h7, h8]; omega), List.take_take, Nat.min_self]
    rw [List.take_take, Nat.min_comm, ← List.take_take, hbefore, List.take_take, Nat.min_comm, ← List.take_take,
      List.take_left' h7]

/-- Settles O19, by what lowering, raising and the ranges keep. -/
theorem loadedTablesAreHeldInOrder : Obligations.LoadedTablesAreHeldInOrder := by
  unfold Obligations.LoadedTablesAreHeldInOrder
  refine ⟨fun ramp new off hoff hramp hbounds => loadedRamp_ordered new hoff hramp hbounds, ?_⟩
  intro t new off h7 h8 hsorted hthresholds htimes hfits
  obtain ⟨hlow, hhigh, hprefix⟩ := heatClamped_split h7 h8 hthresholds htimes hfits
  have hlength := heatClamped_length h7 h8 hfits
  unfold applyHeat
  split
  · exact ⟨hsorted, hthresholds, htimes, h7, h8⟩
  · dsimp only
    have hdrop : ((heatClamped t off new).drop 7).length = 8 := by simp [hlength]
    split
    next hoff =>
      have htake : ∀ x ∈ ((heatClamped t off new).take 7).take off, x ≤ 255 := fun x hx => hlow x (List.mem_of_mem_take hx)
      obtain ⟨hraised, hle⟩ := raiseFrom_sorted (((heatClamped t off new).take 7).take off).getLast?
        (((heatClamped t off new).take 7).drop off)
      refine ⟨pairwise_append_last (r := (· ≤ ·)) (fun _ _ _ => Nat.le_trans) ?_ hraised hle, fun x hx => ?_, hhigh, ?_, hdrop⟩
      · rw [hprefix]
        exact hsorted.sublist (List.take_sublist _ _)
      · rcases List.mem_append.1 hx with hold | hnew
        · exact htake x hold
        · exact raiseFrom_le (fun v e => htake v (List.mem_of_getLast? e)) (fun y hy => hlow y (List.mem_of_mem_drop hy)) x hnew
      · simp [hlength]
        omega
    next hoff =>
      have hsame : (heatClamped t off new).take 7 = t.thresholds := by
        have hleft : (((heatClamped t off new).take 7).take off) = (heatClamped t off new).take 7 :=
          List.take_of_length_le (by simp [hlength]; omega)
        rw [← hleft, hprefix, List.take_of_length_le (by omega)]
      rw [hsame]
      exact ⟨hsorted, hthresholds, hhigh, h7, hdrop⟩

end Sys2Proof.Proofs
end

section
/-!
PROOFS. Encodings: the two forms of a line (05_line_coding.md R88 to R92) and the records of the host (10_the_page_link.md R176 to R179).
-/

-- One declaration after another: the package as one text keeps within the check's limit on threads.
set_option Elab.async false

namespace Sys2Proof.Proofs

open Sys2Proof Sys2Proof.Machine

/-! ## The RUN form -/

theorem byteOf_toNat {n : Nat} (h : n < 256) : (byteOf n).toNat = n := by
  simp [byteOf, Nat.mod_eq_of_lt h]

theorem bytes_append (f : FormIn) (d : Decoder) (xs ys : List Byte) :
    Decoder.bytes f d (xs ++ ys) = Decoder.bytes f (Decoder.bytes f d xs) ys := List.foldl_append

theorem run_fits {d : Decoder} {n : Nat} (h : d.out.length + n ≤ lineWidth) : d.run n =
    { d with out := d.out ++ List.replicate n d.black, black := !d.black, lead := none, skip := d.out.length + n = lineWidth } := by
  unfold Decoder.run
  exact if_neg (Nat.not_lt.mpr h)

/-- A run decodes from its one or two bytes (R88, R90). -/
theorem bytes_runBytes {d : Decoder} {n : Nat} (hskip : d.skip = false) (hlead : d.lead = none) (hn : n ≤ lineWidth) :
    Decoder.bytes .run d (runBytes n) = d.run n := by
  have hwidth : lineWidth = 1728 := rfl
  unfold runBytes
  split
  next hshort =>
    have hbyte : (byteOf n).toNat = n := byteOf_toNat (by omega)
    simp [Decoder.bytes, Decoder.byte, Decoder.runByte, hskip, hlead, hbyte, hshort]
  next hlong =>
    have hquot : (byteOf (192 + (n - 192) / 256)).toNat = 192 + (n - 192) / 256 := byteOf_toNat (by omega)
    have hrem : (byteOf ((n - 192) % 256)).toNat = (n - 192) % 256 := byteOf_toNat (by omega)
    have hsum : (192 + (n - 192) / 256 - 192) * 256 + (n - 192) % 256 + 192 = n := by omega
    have hfirst : d.runByte (byteOf (192 + (n - 192) / 256)) = { d with lead := some (192 + (n - 192) / 256) } := by
      unfold Decoder.runByte
      rw [hskip, hlead, hquot, if_neg (by decide)]
      dsimp only
      rw [if_neg (by omega), if_pos (by omega)]
    have hsecond : ({ d with lead := some (192 + (n - 192) / 256) } : Decoder).runByte (byteOf ((n - 192) % 256)) =
        ({ d with lead := some (192 + (n - 192) / 256) } : Decoder).run n := by
      unfold Decoder.runByte
      dsimp only
      rw [hskip, hrem, hsum, if_neg (by decide)]
    calc Decoder.bytes .run d [byteOf (192 + (n - 192) / 256), byteOf ((n - 192) % 256)]
        = (d.runByte (byteOf (192 + (n - 192) / 256))).runByte (byteOf ((n - 192) % 256)) := rfl
      _ = d.run n := by
          rw [hfirst, hsecond]
          rfl

/-- The runs that are left decode to the pixels that are left, with no repair. -/
theorem bytes_runs (rest : Line) (colour : Bool) (n : Nat) (d : Decoder) (hskip : d.skip = false) (hlead : d.lead = none)
    (hblack : d.black = colour) (hlen : d.out.length + n + rest.length = lineWidth) :
    (Decoder.bytes .run d ((runsFrom colour n rest).flatMap runBytes)).out = d.out ++ List.replicate n colour ++ rest ∧
      (Decoder.bytes .run d ((runsFrom colour n rest).flatMap runBytes)).repaired = d.repaired := by
  induction rest generalizing colour n d with
  | nil =>
    rw [List.length_nil] at hlen
    simp only [runsFrom, List.flatMap_cons, List.flatMap_nil, List.append_nil]
    rw [bytes_runBytes hskip hlead (by omega), run_fits (by omega), hblack]
    exact ⟨rfl, rfl⟩
  | cons b rest ih =>
    rw [List.length_cons] at hlen
    unfold runsFrom
    split
    next hb =>
      obtain ⟨hout, hrepaired⟩ := ih colour (n + 1) d hskip hlead hblack (by omega)
      refine ⟨hout.trans ?_, hrepaired⟩
      rw [hb, List.replicate_succ', List.append_assoc, List.append_assoc, List.append_assoc]
      rfl
    next hb =>
      rw [List.flatMap_cons, bytes_append, bytes_runBytes hskip hlead (by omega), run_fits (by omega), hblack]
      have hother : (!colour) = b := by
        cases b <;> cases colour <;> simp_all
      obtain ⟨hout, hrepaired⟩ := ih b 1
        { d with out := d.out ++ List.replicate n colour, black := !colour, lead := none, skip := d.out.length + n = lineWidth }
        (decide_eq_false (by omega)) rfl hother (by simp; omega)
      exact ⟨hout.trans (by simp), hrepaired⟩

theorem finish_of_full {d : Decoder} (h : d.out.length = lineWidth) : d.finish = d := by
  unfold Decoder.finish
  exact if_neg (by omega)

theorem decodeLine_runCode {l : Line} (h : l.length = lineWidth) : decodeLine .run (runCode l) = (l, false) := by
  obtain ⟨hout, hrepaired⟩ := bytes_runs l false 0 .start rfl rfl rfl (by simp [Decoder.start, h])
  have hline : (Decoder.bytes .run .start (runCode l)).out = l := hout.trans (by simp [Decoder.start])
  unfold decodeLine
  dsimp only
  rw [finish_of_full (by rw [hline, h]), hline]
  exact Prod.ext rfl hrepaired

/-! ## The RAW form -/

/-- A raw byte unpacks to the 8 pixels that it packs (R1). -/
theorem bitsOfByte_pack : ∀ a b c d e f g h : Bool,
    bitsOfByte (byteOf (bitsValue [a, b, c, d, e, f, g, h])) = [a, b, c, d, e, f, g, h] := by decide

theorem bitsOfByte_pack_of_length {l : List Bool} (h : l.length = 8) : bitsOfByte (byteOf (bitsValue l)) = l := by
  match l, h with
  | [a, b, c, d, e, f, g, i], _ => exact bitsOfByte_pack a b c d e f g i

/-- The raw bytes that are left decode to the pixels that are left, with no repair. -/
theorem bytes_packBytes (n : Nat) (l : List Bool) (d : Decoder) (hskip : d.skip = false) (hl : l.length = 8 * n)
    (hlen : d.out.length + l.length = lineWidth) :
    (Decoder.bytes .raw d (packBytes n l)).out = d.out ++ l ∧ (Decoder.bytes .raw d (packBytes n l)).repaired = d.repaired := by
  induction n generalizing l d with
  | zero =>
    rw [List.length_eq_zero_iff.1 (hl.trans (Nat.mul_zero 8)), List.append_nil]
    exact ⟨rfl, rfl⟩
  | succ n ih =>
    have hbyte : d.rawByte (byteOf (bitsValue (l.take 8))) =
        { d with out := d.out ++ l.take 8, skip := decide (lineWidth ≤ (d.out ++ l.take 8).length) } := by
      unfold Decoder.rawByte
      rw [hskip, if_neg (by decide), bitsOfByte_pack_of_length (by simp; omega)]
    have hstep : Decoder.bytes .raw d (packBytes (n + 1) l) =
        Decoder.bytes .raw (d.rawByte (byteOf (bitsValue (l.take 8)))) (packBytes n (l.drop 8)) := rfl
    rw [hstep, hbyte]
    cases n with
    | zero =>
      refine ⟨?_, rfl⟩
      have hall : l.take 8 = l := List.take_of_length_le (by omega)
      rw [hall]
      rfl
    | succ n =>
      obtain ⟨hout, hrepaired⟩ := ih (l.drop 8)
        { d with out := d.out ++ l.take 8, skip := decide (lineWidth ≤ (d.out ++ l.take 8).length) }
        (decide_eq_false (by simp; omega)) (by simp; omega) (by simp; omega)
      refine ⟨hout.trans ?_, hrepaired⟩
      rw [List.append_assoc, List.take_append_drop]

theorem decodeLine_rawOf {l : Line} (h : l.length = lineWidth) : decodeLine .raw (rawOf l) = (l, false) := by
  obtain ⟨hout, hrepaired⟩ := bytes_packBytes rawBytes l .start rfl (h.trans (by decide)) (by simp [Decoder.start, h])
  have hline : (Decoder.bytes .raw .start (packBytes rawBytes l)).out = l := hout.trans (by simp [Decoder.start])
  unfold decodeLine rawOf
  dsimp only
  rw [finish_of_full (by rw [hline, h]), hline, hrepaired]
  rfl

@[simp] theorem packBytes_length (n : Nat) (l : List Bool) : (packBytes n l).length = n := by
  induction n generalizing l with
  | zero => rfl
  | succ n ih => simp [packBytes, ih]

/-- Settles O13, by the form that the encoder chooses. -/
theorem everyLineDecodesAsItWasEncoded : Obligations.EveryLineDecodesAsItWasEncoded := by
  unfold Obligations.EveryLineDecodesAsItWasEncoded
  intro l h
  refine ⟨?_, ?_, decodeLine_rawOf h⟩
  all_goals unfold encodeLine; dsimp only; split
  next hshort => exact hshort
  next => exact Nat.le_of_eq (packBytes_length _ _)
  next => exact decodeLine_runCode h
  next => exact decodeLine_rawOf h

/-! ## Records (R176, R178, R179) -/

theorem leBytes_two (n : Nat) : leBytes 2 n = [byteOf n, byteOf (n / 256)] := rfl

/-- A record that the parser takes whole reads back by its tag and payload. -/
theorem readRecord_recordBytes (doce papx : Bool) {tag : Byte} {p : List Byte} (rest : List Byte) (htag : tag ≠ 0)
    (hp : p.length ≤ Config.maxPayload) : readRecord doce papx (recordBytes tag p ++ rest) = some (recordOf doce papx tag p, rest) := by
  have hlow : (byteOf p.length).toNat = p.length % 256 := by simp [byteOf]
  have hhigh : (byteOf (p.length / 256)).toNat = p.length / 256 := byteOf_toNat (by simp only [Config.maxPayload] at hp; omega)
  have hlength : p.length % 256 + 256 * (p.length / 256) = p.length := by omega
  have hbytes : recordBytes tag p ++ rest = tag :: byteOf p.length :: byteOf (p.length / 256) :: (p ++ rest) := by
    simp [recordBytes, leBytes_two]
  rw [hbytes]
  unfold readRecord
  rw [if_neg htag]
  dsimp only
  rw [hlow, hhigh, hlength, if_neg (Nat.not_lt.mpr hp), if_neg (by simp), List.take_left, List.drop_left]

/-- A directive's tag is above those of the other records. -/
theorem recordOf_directive (doce papx : Bool) {tag : Byte} (p : List Byte) (h : 0x10 ≤ tag.toNat) :
    recordOf doce papx tag p = directiveOf doce papx tag p := by
  unfold recordOf
  rw [if_neg (by rintro rfl; exact absurd h (by decide)), if_neg (by rintro rfl; exact absurd h (by decide)), if_neg (by omega)]

theorem directiveOf_unknown (doce papx : Bool) {tag : Byte} (p : List Byte) (h : tag ∉ directiveTags) :
    directiveOf doce papx tag p = .unknownDirective tag p := by
  have hne : ∀ x ∈ directiveTags, tag.toNat ≠ x.toNat := fun x hx e => h (BitVec.eq_of_toNat_eq e ▸ hx)
  simp only [directiveTags, List.forall_mem_cons, List.not_mem_nil, false_imp_iff, implies_true] at hne
  unfold directiveOf
  split <;> first | rfl | simp_all

/-- A LOAD whose payload names its table's code goes to that table's row. -/
theorem loadOk_byte {code : Byte} {p : List Byte} (h : loadOk code p = true) : byteAt p 1 = code := by
  simp only [loadOk, Bool.and_eq_true, decide_eq_true_eq] at h
  exact h.2.2

/-- A LOAD that names no other table goes to the shading row. -/
theorem loadOf_shading {p : List Byte} (h : shadingOk p = true) : loadOf p = .loadShading p := by
  simp only [shadingOk, Bool.and_eq_true, decide_eq_true_eq] at h
  have hcode : (byteAt p 1).toNat ≤ 1 ∨ 8 < (byteAt p 1).toNat := by
    rcases h.2 with hshort | hone | hzero | hbig
    · rw [show byteAt p 1 = 0 from List.getD_eq_default _ _ (by omega)]
      exact .inl (by decide)
    · rw [hone]
      exact .inl (by decide)
    · exact .inl (by omega)
    · exact .inr hbig
  unfold loadOf
  split <;> first | rfl | omega

/-- The command that a record's tag and payload name is the one they were written from. -/
theorem recordOf_record {i : Instr} {tag : Byte} {p : List Byte} (hwf : i.wf = true) (hrec : i.record = some (tag, p)) :
    Laws.Framed.Statement i ∧ recordOf i.statusLevels.1 i.statusLevels.2 tag p = i := by
  cases i with
  | openRoute q =>
    cases hrec
    exact ⟨Laws.Framed.openRoute _, rfl⟩
  | close q =>
    cases hrec
    exact ⟨Laws.Framed.close _, rfl⟩
  | abort q =>
    cases hrec
    exact ⟨Laws.Framed.abort _, rfl⟩
  | redirect q =>
    cases hrec
    exact ⟨Laws.Framed.redirect _, rfl⟩
  | rearm q =>
    cases hrec
    exact ⟨Laws.Framed.rearm _, rfl⟩
  | attentionMode q =>
    cases hrec
    exact ⟨Laws.Framed.attentionMode _, rfl⟩
  | restart q =>
    cases hrec
    exact ⟨Laws.Framed.restart _, rfl⟩
  | delete q =>
    cases hrec
    exact ⟨Laws.Framed.delete _, rfl⟩
  | directoryRequest q =>
    cases hrec
    exact ⟨Laws.Framed.directoryRequest _, rfl⟩
  | lockPage q =>
    cases hrec
    exact ⟨Laws.Framed.lockPage _, rfl⟩
  | setMasterLock q =>
    cases hrec
    exact ⟨Laws.Framed.setMasterLock _, rfl⟩
  | clearLocks q =>
    cases hrec
    exact ⟨Laws.Framed.clearLocks _, rfl⟩
  | totalErase q =>
    cases hrec
    exact ⟨Laws.Framed.totalErase _, rfl⟩
  | confirm q =>
    cases hrec
    exact ⟨Laws.Framed.confirm _, rfl⟩
  | clearStoreStatus q =>
    cases hrec
    exact ⟨Laws.Framed.clearStoreStatus _, rfl⟩
  | installBoot q =>
    cases hrec
    exact ⟨Laws.Framed.installBoot _, rfl⟩
  | serviceRequest q =>
    cases hrec
    exact ⟨Laws.Framed.serviceRequest _, rfl⟩
  | serviceCode q =>
    cases hrec
    exact ⟨Laws.Framed.serviceCode _, rfl⟩
  | serviceEnd q =>
    cases hrec
    exact ⟨Laws.Framed.serviceEnd _, rfl⟩
  | setCode q =>
    cases hrec
    exact ⟨Laws.Framed.setCode _, rfl⟩
  | sleep q =>
    cases hrec
    exact ⟨Laws.Framed.sleep _, rfl⟩
  | bootFetch q =>
    cases hrec
    exact ⟨Laws.Framed.bootFetch _, rfl⟩
  | pageEnd q =>
    cases hrec
    exact ⟨Laws.Framed.pageEnd _, rfl⟩
  | statusRequest q doce papx =>
    cases hrec
    exact ⟨Laws.Framed.statusRequest _ _ _, rfl⟩
  | loadShading q =>
    cases hrec
    exact ⟨Laws.Framed.loadShading _, loadOf_shading hwf⟩
  | loadTone q =>
    cases hrec
    refine ⟨Laws.Framed.loadTone _, (?_ : loadOf p = _)⟩
    simp only [loadOf, loadOk_byte hwf, BitVec.reduceToNat]
  | loadDither q =>
    cases hrec
    refine ⟨Laws.Framed.loadDither _, (?_ : loadOf p = _)⟩
    simp only [loadOf, loadOk_byte hwf, BitVec.reduceToNat]
  | loadScanRamp q =>
    cases hrec
    refine ⟨Laws.Framed.loadScanRamp _, (?_ : loadOf p = _)⟩
    simp only [loadOf, loadOk_byte hwf, BitVec.reduceToNat]
  | loadPrintRamp q =>
    cases hrec
    refine ⟨Laws.Framed.loadPrintRamp _, (?_ : loadOf p = _)⟩
    simp only [loadOf, loadOk_byte hwf, BitVec.reduceToNat]
  | loadHeat q =>
    cases hrec
    refine ⟨Laws.Framed.loadHeat _, (?_ : loadOf p = _)⟩
    simp only [loadOf, loadOk_byte hwf, BitVec.reduceToNat]
  | loadPark q =>
    cases hrec
    refine ⟨Laws.Framed.loadPark _, (?_ : loadOf p = _)⟩
    simp only [loadOf, loadOk_byte hwf, BitVec.reduceToNat]
  | loadWake q =>
    cases hrec
    refine ⟨Laws.Framed.loadWake _, (?_ : loadOf p = _)⟩
    simp only [loadOf, loadOk_byte hwf, BitVec.reduceToNat]
  | unknownDirective t q =>
    cases hrec
    have hok := hwf
    simp only [Instr.wf, Bool.and_eq_true, decide_eq_true_eq] at hok
    exact ⟨Laws.Framed.unknownDirective _ _, (recordOf_directive _ _ _ hok.1.1).trans (directiveOf_unknown _ _ _ hok.1.2)⟩
  | skippedTag t q =>
    cases hrec
    have hok := hwf
    simp only [Instr.wf, Bool.and_eq_true, decide_eq_true_eq] at hok
    refine ⟨Laws.Framed.skippedTag _ _, ?_⟩
    unfold recordOf
    rw [if_neg (by rintro rfl; exact absurd hok.1.1 (by decide)), if_neg (by rintro rfl; exact absurd hok.1.1 (by decide)),
      if_pos hok.1.2]
  | line length bytes =>
    simp only [Instr.record] at hrec
    split at hrec
    next hlength =>
      cases hrec
      exact ⟨Laws.Framed.line _ _, by rw [← hlength]; rfl⟩
    next => cases hrec
  | _ => cases hrec

/-- Settles O14, by the framing of every well-formed record and the command that it names. -/
theorem everyRecordReadsBackAsItsCommand : Obligations.EveryRecordReadsBackAsItsCommand := by
  unfold Obligations.EveryRecordReadsBackAsItsCommand
  intro i tag p rest hwf hrec
  obtain ⟨hframed, hsame⟩ := recordOf_record hwf hrec
  obtain ⟨htag, hlen⟩ := hframed hwf tag p hrec
  rw [readRecord_recordBytes _ _ rest htag hlen, hsame]

end Sys2Proof.Proofs
end

section
/-!
PROOFS. The power commands (08_power_save.md): supplies that settle and hold, the wake, sleep entry and the wake inputs.
-/

-- One declaration after another: the package as one text keeps within the check's limit on threads.
set_option Elab.async false

namespace Sys2Proof.Proofs

open Sys2Proof Sys2Proof.Machine

/-! ## A state and its part -/

theorem onChip_eq_self {f : Chip → Chip} {s : State} (h : f s.chip = s.chip) : s.onChip f = s := by
  unfold State.onChip
  rw [h]

theorem onChip_eq_withChip {f : Chip → Chip} {s : State} {c : Chip} (h : f s.chip = c) : s.onChip f = s.withChip c := by
  unfold State.onChip
  rw [h]

/-! ## Supply domains (R71, R147) -/

theorem exec_domainSettled (d : DomainId) (therm : Byte) (s : State) :
    exec (.domainSettled d therm) s = .next (s.onChip (settledChip d therm)) := rfl

theorem exec_domainHoldExpiry (d : DomainId) (s : State) :
    exec (.domainHoldExpiry d) s = .next (s.onChip (holdOverChip d)) := rfl

theorem exec_bootHoldRelease (s : State) : exec .bootHoldRelease s = .next (s.onChip bootReleaseChip) := rfl

theorem settledChip_lamp {c : Chip} {n : Nat} (h : c.power.lamp = .rising n) (therm : Byte) :
    settledChip .lamp therm c = { c with power := { c.power with lamp := .on } } := by
  simp only [settledChip, h]

theorem settledChip_motor {c : Chip} {n : Nat} (h : c.power.motor = .rising n) (therm : Byte) :
    settledChip .motor therm c = { c with power := { c.power with motor := .on } } := by
  simp only [settledChip, h]

theorem settledChip_head {c : Chip} {n : Nat} (h : c.power.head = .rising n) (therm : Byte) :
    settledChip .head therm c = syncMotor (refreshLoad (sampleTherm therm { c with power := { c.power with head := .on } })) := by
  simp only [settledChip, h]

/-- The domain that a command names. -/
def domainOf (c : Chip) : DomainId → Domain
  | .lamp => c.power.lamp
  | .head => c.power.head
  | .motor => c.power.motor

theorem settledChip_other {c : Chip} {d : DomainId} (h : ∀ n, domainOf c d ≠ .rising n) (therm : Byte) :
    settledChip d therm c = c := by
  cases d <;> simp only [settledChip, domainOf] at h ⊢

theorem holdOverChip_lamp {c : Chip} {n : Nat} (h : c.power.lamp = .holding n) :
    holdOverChip .lamp c = { c with power := { c.power with lamp := .off } } := by
  simp only [holdOverChip, h]

theorem holdOverChip_motor {c : Chip} {n : Nat} (h : c.power.motor = .holding n) :
    holdOverChip .motor c = { c with power := { c.power with motor := .off } } := by
  simp only [holdOverChip, h]

theorem holdOverChip_head {c : Chip} {n : Nat} (h : c.power.head = .holding n) :
    holdOverChip .head c = headContentLost { c with power := { c.power with head := .off } } := by
  simp only [holdOverChip, h]

theorem holdOverChip_other {c : Chip} {d : DomainId} (h : ∀ n, domainOf c d ≠ .holding n) : holdOverChip d c = c := by
  cases d <;> simp only [holdOverChip, domainOf] at h ⊢

/-- What a due load changes: the shift register of the head and its load time. -/
theorem refreshLoad_eq (c : Chip) :
    ∃ shift left, refreshLoad c = { c with head := { c.head with shift := shift, loadLeft := left } } := by
  unfold refreshLoad
  split
  · exact ⟨_, _, rfl⟩
  · split
    · exact ⟨c.head.shift, c.head.loadLeft, rfl⟩
    · split <;> exact ⟨_, _, rfl⟩

theorem syncMotor_eq (c : Chip) : ∃ m, syncMotor c = { c with power := { c.power with motor := m } } := ⟨_, rfl⟩

theorem holdingOver_iff (c : Chip) :
    holdingOver c = true ↔ c.boot.state = .holding ∧ c.power.state = .run ∧ c.store.op ≠ .scanning ∧ c.store.scanned = true ∧
      c.boot.check = none ∧ c.boot.install = none ∧ 20000 ≤ c.power.hostUp := by
  simp only [holdingOver, Bool.and_eq_true, decide_eq_true_eq, Option.isNone_iff_eq_none, and_assoc]
  rfl

/-- The head domain settles: its supply is on, and the thermistor sets the band. -/
theorem settledHead_state {c : Chip} {n : Nat} (h : c.power.head = .rising n) (therm : Byte) :
    let t := settledChip .head therm c
    t.power.head = .on ∧ t.pins.therm = therm ∧
      t.head.band = (c.heat.thresholds.countP fun x => decide (x ≤ therm.toNat)) ∧
      t.backdrop = c.backdrop ∧ t.pool = c.pool ∧ t.routes = c.routes := by
  dsimp only
  rw [settledChip_head h]
  obtain ⟨shift, left, hload⟩ := refreshLoad_eq (sampleTherm therm { c with power := { c.power with head := .on } })
  obtain ⟨m, hmotor⟩ := syncMotor_eq (refreshLoad (sampleTherm therm { c with power := { c.power with head := .on } }))
  rw [hmotor, hload]
  exact ⟨rfl, rfl, rfl, rfl, rfl, rfl⟩

/-- Settles O59, by the domain that the command names and by the conditions that end HOLDING. -/
theorem suppliesSettleAndHold : Obligations.SuppliesSettleAndHold := by
  unfold Obligations.SuppliesSettleAndHold
  refine ⟨fun n therm s => ⟨fun h => ?_, fun h => ?_, fun h => ?_⟩, fun n s => ⟨fun h => ?_, fun h => ?_, fun h => ?_⟩,
    fun d therm s => ?_, fun s hb hp ho hs hc hi => ?_, fun s h => ?_, fun s => rfl⟩
  · rw [exec_domainSettled, onChip_eq_withChip (settledChip_lamp h therm)]
  · rw [exec_domainSettled, onChip_eq_withChip (settledChip_motor h therm)]
  · obtain ⟨hon, htherm, hband, hback, hpool, hroutes⟩ := settledHead_state h therm
    exact ⟨_, exec_domainSettled .head therm s, hon, htherm, hband, hback, hpool, hroutes, by simp only [State.onChip_flash]⟩
  · rw [exec_domainHoldExpiry, onChip_eq_withChip (holdOverChip_lamp h)]
  · rw [exec_domainHoldExpiry, onChip_eq_withChip (holdOverChip_motor h)]
  · rw [exec_domainHoldExpiry, onChip_eq_withChip (holdOverChip_head h)]
    rfl
  · refine ⟨fun h => ?_, fun h => ?_⟩
    · rw [exec_domainSettled, onChip_eq_self (settledChip_other (fun n => by cases d <;> exact h n) therm)]
    · rw [exec_domainHoldExpiry, onChip_eq_self (holdOverChip_other fun n => by cases d <;> exact h n)]
  · have hover : holdingOver { s.chip with power := { s.chip.power with hostUp := max s.chip.power.hostUp Config.hostUpTime } } = true :=
      (holdingOver_iff _).mpr ⟨hb, hp, ho, hs, hc, hi, Nat.le_max_right _ _⟩
    rw [exec_bootHoldRelease, onChip_eq_withChip]
    simp only [bootReleaseChip, hover, if_true, releaseHold]
    rfl
  · have hnot : holdingOver { s.chip with power := { s.chip.power with hostUp := max s.chip.power.hostUp Config.hostUpTime } } = false :=
      Bool.eq_false_iff.mpr fun k => h ((holdingOver_iff _).mp k).1
    rw [exec_bootHoldRelease, onChip_eq_self]
    simp only [bootReleaseChip, hnot, if_false, Bool.false_eq_true]

end Sys2Proof.Proofs
end

section
/-!
PROOFS. One rule per shared operation (01_line_pool_and_routes.md 1.1, 1.2): what a read of a route, of its context or of a slot
answers after an update of the same and of another one.
-/

-- One declaration after another: the package as one text keeps within the check's limit on threads.
set_option Elab.async false

namespace Sys2Proof.Proofs

open Sys2Proof Sys2Proof.Machine

/-! ## Routes -/

theorem getRoute_setRoute (r n : Nat) (x : Route) (c : Chip) :
    getRoute (setRoute r x c) n = if r = n ∧ n < c.routes.length then x else getRoute c n := by
  unfold getRoute
  by_cases k : r = n
  · subst k
    by_cases l : r < c.routes.length <;> simp [List.getD, l]
  · simp [List.getD, k]

theorem getRoute_setRoute_self {r : Nat} {c : Chip} (h : r < c.routes.length) (x : Route) : getRoute (setRoute r x c) r = x := by
  simp [getRoute_setRoute, h]

@[simp] theorem getRoute_setRoute_ne {r n : Nat} (h : n ≠ r) (x : Route) (c : Chip) : getRoute (setRoute r x c) n = getRoute c n := by
  rw [getRoute_setRoute, if_neg fun k => h k.1.symm]

@[simp] theorem ctxOf_setRoute_ne {r n : Nat} (h : n ≠ r) (x : Route) (c : Chip) : ctxOf (setRoute r x c) n = ctxOf c n := by
  simp [ctxOf, h]

theorem lt_of_ctxOf {c : Chip} {r : Nat} {x : Ctx} (h : ctxOf c r = some x) : r < c.routes.length := by
  by_contra k
  rw [ctxOf, getRoute, List.getD_eq_default _ _ (Nat.le_of_not_lt k)] at h
  cases h

theorem getRoute_congr {c t : Chip} (h : t.routes = c.routes) (r : Nat) : getRoute t r = getRoute c r := by simp [getRoute, h]

theorem ctxOf_congr {c t : Chip} (h : t.routes = c.routes) (r : Nat) : ctxOf t r = ctxOf c r := by simp [ctxOf, getRoute_congr h]

theorem modCtx_of_some {c : Chip} {r : Nat} {x : Ctx} (h : ctxOf c r = some x) (f : Ctx → Ctx) :
    modCtx r f c = setRoute r { getRoute c r with ctx := some (f x) } c := by
  unfold modCtx
  rw [h]

theorem modCtx_of_none {c : Chip} {r : Nat} (h : ctxOf c r = none) (f : Ctx → Ctx) : modCtx r f c = c := by
  unfold modCtx
  rw [h]

@[simp] theorem getRoute_modCtx_ne {r n : Nat} (h : n ≠ r) (f : Ctx → Ctx) (c : Chip) : getRoute (modCtx r f c) n = getRoute c n := by
  unfold modCtx
  split
  · rfl
  · exact getRoute_setRoute_ne h _ _

@[simp] theorem ctxOf_modCtx_ne {r n : Nat} (h : n ≠ r) (f : Ctx → Ctx) (c : Chip) : ctxOf (modCtx r f c) n = ctxOf c n := by
  simp [ctxOf, h]

theorem getRoute_modCtx_self {c : Chip} {r : Nat} {x : Ctx} (h : ctxOf c r = some x) (f : Ctx → Ctx) :
    getRoute (modCtx r f c) r = { getRoute c r with ctx := some (f x) } := by
  rw [modCtx_of_some h, getRoute_setRoute_self (lt_of_ctxOf h)]

@[simp] theorem ctxOf_modCtx_self (r : Nat) (f : Ctx → Ctx) (c : Chip) : ctxOf (modCtx r f c) r = (ctxOf c r).map f := by
  cases h : ctxOf c r with
  | none => rw [modCtx_of_none h, h]; rfl
  | some x => rw [ctxOf, getRoute_modCtx_self h]; rfl

theorem ctxOf_modCtx (r n : Nat) (f : Ctx → Ctx) (c : Chip) :
    ctxOf (modCtx r f c) n = if n = r then (ctxOf c r).map f else ctxOf c n := by
  split
  next h => rw [h, ctxOf_modCtx_self]
  next h => exact ctxOf_modCtx_ne h f c

@[simp] theorem modCtx_length (r : Nat) (f : Ctx → Ctx) (c : Chip) : (modCtx r f c).routes.length = c.routes.length := by
  unfold modCtx
  split <;> simp

theorem getRoute_markReported (p : Nat → Ctx → Bool) (c : Chip) (n : Nat) : getRoute (markReported p c) n =
    match ctxOf c n with
    | some y => if p n y then { getRoute c n with haltReported := true } else getRoute c n
    | none => getRoute c n := by
  unfold getRoute markReported ctxOf getRoute
  by_cases h : n < c.routes.length
  · simp only [List.getD, List.getElem?_map, List.getElem?_eq_getElem, h, Option.getD_some, List.length_range, List.length_zip,
      Nat.min_self, Option.map_some, List.getElem_zip, List.getElem_range] <;> rfl
  · have hout : c.routes.length ≤ n := Nat.le_of_not_lt h
    rw [List.getD_eq_default _ _ (by simpa using hout), List.getD_eq_default _ _ hout]
    rfl

@[simp] theorem ctxOf_markReported (p : Nat → Ctx → Bool) (c : Chip) (n : Nat) : ctxOf (markReported p c) n = ctxOf c n := by
  rw [ctxOf, getRoute_markReported]
  split
  next y h =>
    rw [h, ← h]
    split <;> rfl
  next h => rfl

@[simp] theorem markReported_length (p : Nat → Ctx → Bool) (c : Chip) : (markReported p c).routes.length = c.routes.length := by
  simp [markReported]

@[simp] theorem ctxOf_reportHalts (e : Event) (c : Chip) (n : Nat) : ctxOf (reportHalts e c) n = ctxOf c n := by
  unfold reportHalts
  split
  · exact ctxOf_markReported _ _ _
  · exact ctxOf_markReported _ _ _
  · rfl

@[simp] theorem reportHalts_length (e : Event) (c : Chip) : (reportHalts e c).routes.length = c.routes.length := by
  unfold reportHalts
  split <;> simp

@[simp] theorem ctxOf_queueRecord (x : Report) (c : Chip) (n : Nat) : ctxOf (queueRecord x c) n = ctxOf c n :=
  ctxOf_congr (by simp) n

@[simp] theorem getRoute_queueRecord (x : Report) (c : Chip) (n : Nat) : getRoute (queueRecord x c) n = getRoute c n :=
  getRoute_congr (by simp) n

@[simp] theorem ctxOf_queueEvent (e : Event) (c : Chip) (n : Nat) : ctxOf (queueEvent e c) n = ctxOf c n := by
  unfold queueEvent
  split
  · rw [ctxOf_reportHalts, ctxOf_queueRecord]
  · rfl

@[simp] theorem queueEvent_length (e : Event) (c : Chip) : (queueEvent e c).routes.length = c.routes.length := by
  unfold queueEvent
  split <;> simp

/-- A halt once reported stays so through an event. -/
theorem haltReported_queueEvent (e : Event) {c : Chip} {n : Nat} (h : (getRoute c n).haltReported = true) :
    (getRoute (queueEvent e c) n).haltReported = true := by
  have hmark : ∀ p, (getRoute (markReported p (queueRecord (.event e) c)) n).haltReported = true := by
    intro p
    rw [getRoute_markReported, getRoute_queueRecord]
    split
    · split
      · rfl
      · exact h
    · exact h
  unfold queueEvent
  split
  · unfold reportHalts
    split
    · exact hmark _
    · exact hmark _
    · rw [getRoute_queueRecord]; exact h
  · exact h

/-- An event that reports no halt leaves the routes. -/
theorem queueEvent_routes {e : Event} (hjam : ∀ ch r, e ≠ .jam ch r) (hopen : e ≠ .interlockOpen) (c : Chip) :
    (queueEvent e c).routes = c.routes := by
  unfold queueEvent reportHalts
  split
  · split
    · exact absurd rfl (hjam _ _)
    · exact absurd rfl hopen
    · simp
  · rfl

/-! ## Slots (R2, R5) -/

theorem slotAt_congr {c t : Chip} (h : t.pool = c.pool) (n : Nat) : slotAt t n = slotAt c n := by simp [slotAt, h]

theorem getD_set_slot (xs : List Slot) (n m : Nat) (x : Slot) :
    (xs.set n x).getD m .free = if n = m ∧ m < xs.length then x else xs.getD m .free := by
  by_cases k : n = m
  · subst k
    by_cases l : n < xs.length <;> simp [List.getD, l]
  · simp [List.getD, k]

theorem slotAt_lt {c : Chip} {n : Nat} (h : slotAt c n ≠ .free) : n < c.pool.slots.length := by
  by_contra k
  exact h (List.getD_eq_default _ _ (Nat.le_of_not_lt k))

@[simp] theorem slotAt_modCtx (r : Nat) (f : Ctx → Ctx) (c : Chip) (n : Nat) : slotAt (modCtx r f c) n = slotAt c n :=
  slotAt_congr (by simp) n

@[simp] theorem slotAt_setRoute (r : Nat) (x : Route) (c : Chip) (n : Nat) : slotAt (setRoute r x c) n = slotAt c n := rfl

@[simp] theorem slotAt_queueEvent (e : Event) (c : Chip) (n : Nat) : slotAt (queueEvent e c) n = slotAt c n :=
  slotAt_congr (by simp) n

@[simp] theorem slotAt_syncCredit (r : Nat) (c : Chip) (n : Nat) : slotAt (syncCredit r c) n = slotAt c n :=
  slotAt_congr (by simp) n

theorem slotAt_returnSlot (n m : Nat) (c : Chip) : slotAt (returnSlot n c) m = if n = m then .free else slotAt c m := by
  have hset : slotAt { c with pool := { slots := c.pool.slots.set n .free, freeList := c.pool.freeList ++ [n] } } m =
      if n = m then .free else slotAt c m := by
    simp only [slotAt, getD_set_slot]
    by_cases k : n = m
    · subst k
      by_cases l : n < c.pool.slots.length
      · simp [l]
      · simp [l]
    · simp [k]
  unfold returnSlot
  split
  next h =>
    split
    next k => rw [← k, h]
    next => rfl
  · dsimp only
    split
    · rw [slotAt_syncCredit, hset]
    · exact hset

@[simp] theorem slotAt_returnSlot_self (n : Nat) (c : Chip) : slotAt (returnSlot n c) n = .free := by
  rw [slotAt_returnSlot, if_pos rfl]

@[simp] theorem slotAt_returnSlot_ne {n m : Nat} (h : m ≠ n) (c : Chip) : slotAt (returnSlot n c) m = slotAt c m := by
  rw [slotAt_returnSlot, if_neg h.symm]

theorem slotAt_returnSlots (ns : List Nat) (m : Nat) (c : Chip) :
    slotAt (returnSlots ns c) m = if m ∈ ns then .free else slotAt c m := by
  induction ns generalizing c with
  | nil => rfl
  | cons n ns ih =>
    show slotAt (returnSlots ns (returnSlot n c)) m = _
    rw [ih, slotAt_returnSlot]
    by_cases hin : m ∈ ns <;> by_cases hn : n = m <;> simp [hin, hn, @eq_comm Nat m]

theorem slotAt_setSlot {n : Nat} {x : Slot} {c : Chip} (h : (slotAt c n).route = x.route) (hn : n < c.pool.slots.length) (m : Nat) :
    slotAt (setSlot n x c) m = if n = m then x else slotAt c m := by
  unfold setSlot
  rw [if_pos h]
  simp only [slotAt, getD_set_slot]
  by_cases k : n = m
  · subst k; simp [hn]
  · simp [k]

@[simp] theorem slotAt_setSlot_ne {n m : Nat} (h : m ≠ n) (x : Slot) (c : Chip) : slotAt (setSlot n x c) m = slotAt c m := by
  unfold setSlot
  split
  · simp [slotAt, h.symm]
  · rfl

/-- A slot keeps the route that it is charged to, whatever its condition becomes. -/
@[simp] theorem slotAt_setSlot_route (n m : Nat) (x : Slot) (c : Chip) : (slotAt (setSlot n x c) m).route = (slotAt c m).route := by
  unfold setSlot
  split
  next h =>
    simp only [slotAt, getD_set_slot] at h ⊢
    split
    next k => rw [← k.1, h]
    next => rfl
  next => rfl

theorem slotAt_dropReference_ne {n m : Nat} (h : m ≠ n) (c : Chip) : slotAt (dropReference n c) m = slotAt c m := by
  unfold dropReference
  split
  · split
    · exact slotAt_returnSlot_ne h c
    · exact slotAt_setSlot_ne h _ c
  · rfl

/-- A reference dropped: the last one returns the slot (R5). -/
theorem slotAt_dropReference_self {n r refs : Nat} {l : Line} {c : Chip} (h : slotAt c n = .held r refs l) :
    slotAt (dropReference n c) n = if refs ≤ 1 then .free else .held r (refs - 1) l := by
  unfold dropReference
  rw [h]
  dsimp only
  split
  · exact slotAt_returnSlot_self n c
  · rw [slotAt_setSlot (by rw [h]; rfl) (slotAt_lt (by rw [h]; simp)), if_pos rfl]

theorem slotAt_dropReference_route {n m r : Nat} {c : Chip} (h : (slotAt (dropReference n c) m).route = some r) :
    (slotAt c m).route = some r := by
  unfold dropReference at h
  split at h
  · split at h
    · rw [slotAt_returnSlot] at h
      split at h
      · cases h
      · exact h
    · rwa [slotAt_setSlot_route] at h
  · exact h

/-! ## Credits (R19) -/

@[simp] theorem getRoute_queueCredit (r v : Nat) (c : Chip) (n : Nat) : getRoute (queueCredit r v c) n = getRoute c n :=
  getRoute_congr (by simp) n

@[simp] theorem getRoute_syncCredit_ne {r n : Nat} (h : n ≠ r) (c : Chip) : getRoute (syncCredit r c) n = getRoute c n := by
  unfold syncCredit
  split
  · rfl
  · split
    · rw [getRoute_queueCredit, getRoute_modCtx_ne h]
    · rfl

@[simp] theorem ctxOf_syncCredit_ne {r n : Nat} (h : n ≠ r) (c : Chip) : ctxOf (syncCredit r c) n = ctxOf c n := by
  simp [ctxOf, h]

/-- A credit given leaves the route as it was but for the credit granted. -/
theorem getRoute_syncCredit (r n : Nat) (c : Chip) : getRoute (syncCredit r c) n = getRoute c n ∨
    ∃ x g, ctxOf c n = some x ∧ x.source = .link ∧ getRoute (syncCredit r c) n = { getRoute c n with ctx := some { x with creditGranted := g } } := by
  by_cases h : n = r
  · subst h
    unfold syncCredit
    split
    · exact .inl rfl
    next x hx =>
      split
      next hlink =>
        rw [getRoute_queueCredit, getRoute_modCtx_self hx]
        exact .inr ⟨x, _, hx, hlink.1, rfl⟩
      next => exact .inl rfl
  · exact .inl (getRoute_syncCredit_ne h c)

@[simp] theorem syncCredit_length (r : Nat) (c : Chip) : (syncCredit r c).routes.length = c.routes.length := by
  unfold syncCredit
  split
  · rfl
  · split <;> simp

theorem getRoute_returnSlot (m n : Nat) (c : Chip) : getRoute (returnSlot m c) n = getRoute c n ∨
    ∃ x g, ctxOf c n = some x ∧ x.source = .link ∧ getRoute (returnSlot m c) n = { getRoute c n with ctx := some { x with creditGranted := g } } := by
  unfold returnSlot
  split
  · exact .inl rfl
  · dsimp only
    split
    · exact getRoute_syncCredit _ n _
    · exact .inl rfl

/-- The return of a slot leaves every route but for the credit granted of a LINK source. -/
theorem ctxOf_returnSlot {m n : Nat} {c : Chip} {x : Ctx} (h : ctxOf c n = some x) :
    ∃ g, ctxOf (returnSlot m c) n = some { x with creditGranted := g } ∧ (x.source ≠ .link → g = x.creditGranted) := by
  rcases getRoute_returnSlot m n c with k | ⟨y, g, hy, hlink, k⟩
  · exact ⟨x.creditGranted, by rw [ctxOf, k, ← ctxOf, h], fun _ => rfl⟩
  · rw [h] at hy
    cases hy
    exact ⟨g, by rw [ctxOf, k], fun hne => absurd hlink hne⟩

@[simp] theorem returnSlot_length (n : Nat) (c : Chip) : (returnSlot n c).routes.length = c.routes.length := by
  unfold returnSlot
  split
  · rfl
  · dsimp only
    split
    · rw [syncCredit_length]
    · rfl

end Sys2Proof.Proofs
end

section
/-!
PROOFS. What follows at once from a change in a route's queues (`pump`, `settle`, `settleAll`) goes on from what stands: the relation
`Onward`, kept by each operation on that way. Records are queued behind those that wait, CREDIT records rewritten in place apart
(R181, R182); a route that is CLOSED meanwhile has its ROUTE CLOSED there, or events lost is set; no slot is taken; and the routes that stay
open keep what their OPEN fixed (R6, R13).
-/

-- One declaration after another: the package as one text keeps within the check's limit on threads.
set_option Elab.async false

namespace Sys2Proof.Proofs

open Sys2Proof Sys2Proof.Machine

/-! ## The relation -/

/-- The records of a report queue but its CREDITs, which are rewritten in place (R182). -/
def plainReports (l : List Report) : List Report := l.filter fun e => match e with | .credit _ _ => false | _ => true

theorem plainReports_append (a b : List Report) : plainReports (a ++ b) = plainReports a ++ plainReports b := List.filter_append ..

/-- A queue that goes on from another splits where the other's records end. -/
theorem reports_of_plain {old xs : List Report} {e : Report} {more : List Report}
    (h : plainReports xs = plainReports old ++ e :: more) :
    ∃ a b, xs = a ++ e :: b ∧ plainReports a = plainReports old ∧ plainReports b = more := by
  unfold plainReports at h
  rw [List.filter_eq_append_iff] at h
  obtain ⟨a, b, rfl, ha, hb⟩ := h
  rw [List.filter_eq_cons_iff] at hb
  obtain ⟨b1, b2, rfl, hskip, -, hb2⟩ := hb
  refine ⟨a ++ b1, b2, by simp, ?_, hb2⟩
  have hb1 : plainReports b1 = [] := List.filter_eq_nil_iff.mpr hskip
  rw [plainReports_append, hb1, List.append_nil]
  exact ha

/-- What the OPEN of a route fixes, with the halt and whether it has begun. -/
def fixedOf (x : Ctx) : Source × List Sink × Nat × Nat × Nat × Option Form × Option ScanParams × Option PrintParams × Option StoreParams ×
    List Nat × Bool × Option Halt :=
  (x.source, x.sinks, x.quota, x.period, x.steps, x.encoding, x.scanP, x.printP, x.storeP, x.pages, x.begun, x.halt)

/-- A context that goes on from another: what its OPEN fixed stands, a close requested stays so, the PAPER OUT stall stands, and a queue
without a sink stays empty. -/
structure Continues (x y : Ctx) : Prop where
  fixed : fixedOf y = fixedOf x
  close : x.closeReq = true → y.closeReq = true
  paper : Stall.paperOut ∈ y.stalls ↔ Stall.paperOut ∈ x.stalls
  empty : ∀ k, k ∉ x.sinks → x.queue k = [] → y.queue k = []

theorem Continues.rfl {x : Ctx} : Continues x x := ⟨Eq.refl _, id, Iff.rfl, fun _ _ h => h⟩

theorem Continues.sinks {x y : Ctx} (h : Continues x y) : y.sinks = x.sinks := congrArg (fun v => v.2.1) h.fixed

theorem Continues.halt {x y : Ctx} (h : Continues x y) : y.halt = x.halt := congrArg (fun v => v.2.2.2.2.2.2.2.2.2.2.2) h.fixed

theorem Continues.begun {x y : Ctx} (h : Continues x y) : y.begun = x.begun := congrArg (fun v => v.2.2.2.2.2.2.2.2.2.2.1) h.fixed

theorem Continues.source {x y : Ctx} (h : Continues x y) : y.source = x.source := congrArg (fun v => v.1) h.fixed

theorem Continues.trans {x y z : Ctx} (h : Continues x y) (k : Continues y z) : Continues x z :=
  ⟨k.fixed.trans h.fixed, fun e => k.close (h.close e), k.paper.trans h.paper,
    fun q hq e => k.empty q (h.sinks ▸ hq) (h.empty q hq e)⟩

theorem Continues.of {x y : Ctx} (hfixed : fixedOf y = fixedOf x) (hqueue : ∀ k, y.queue k = x.queue k)
    (hclose : x.closeReq = true → y.closeReq = true := by exact fun h => h) (hstalls : y.stalls = x.stalls := by rfl) : Continues x y :=
  ⟨hfixed, hclose, by rw [hstalls], fun k _ e => (hqueue k).trans e⟩

/-- The part goes on: records behind those that wait, ROUTE CLOSED for a route that closes, events lost and reported halts standing, no slot
taken, and every open route going on from itself. -/
structure Onward (c t : Chip) : Prop where
  reports : ∃ more, plainReports t.link.reports = plainReports c.link.reports ++ more ∧
    ∀ r, (ctxOf c r).isSome = true → ctxOf t r = none → .event (.routeClosed r .closed) ∈ more ∨ t.link.eventsLost = true
  lost : c.link.eventsLost = true → t.link.eventsLost = true
  told : ∀ r, (getRoute c r).haltReported = true → (getRoute t r).haltReported = true
  slots : ∀ n r, (slotAt t n).route = some r → (slotAt c n).route = some r
  routes : ∀ r y, ctxOf t r = some y → ∃ x, ctxOf c r = some x ∧ Continues x y
  length : t.routes.length = c.routes.length

theorem Onward.rfl {c : Chip} : Onward c c :=
  ⟨⟨[], by simp, fun r h k => by rw [k] at h; cases h⟩, id, fun _ h => h, fun _ _ h => h, fun _ y h => ⟨y, h, .rfl⟩, Eq.refl _⟩

theorem Onward.trans {a b c : Chip} (h : Onward a b) (k : Onward b c) : Onward a c := by
  refine ⟨?_, fun e => k.lost (h.lost e), fun r e => k.told r (h.told r e), fun n r e => h.slots n r (k.slots n r e), fun r z e => ?_,
    k.length.trans h.length⟩
  · obtain ⟨first, hfirst, hclosed⟩ := h.reports
    obtain ⟨more, hmore, hclosed'⟩ := k.reports
    refine ⟨first ++ more, by rw [hmore, hfirst, List.append_assoc], fun r hr hnone => ?_⟩
    cases hb : ctxOf b r with
    | none =>
      rcases hclosed r hr hb with hin | hlost
      · exact .inl (List.mem_append_left _ hin)
      · exact .inr (k.lost hlost)
    | some y =>
      rcases hclosed' r (by rw [hb]; rfl) hnone with hin | hlost
      · exact .inl (List.mem_append_right _ hin)
      · exact .inr hlost
  · obtain ⟨y, hy, hyz⟩ := k.routes r z e
    obtain ⟨x, hx, hxy⟩ := h.routes r y hy
    exact ⟨x, hx, hxy.trans hyz⟩

theorem Onward.fold {α : Type} {w u : Chip} {f : Chip → α → Chip} {xs : List α} (h : Onward w u)
    (hf : ∀ c x, Onward w c → Onward w (f c x)) : Onward w (xs.foldl f u) := by
  induction xs generalizing u with
  | nil => exact h
  | cons x xs ih => exact ih (hf _ _ h)

/-- An update that leaves the pool, the routes, the report queue and the events-lost indication. -/
theorem Onward.update {c b : Chip} {scan : Capture} {scanCh printCh : Channel} {head : Head} {linkIn : LinkIn}
    {linkOut : LinkOut} {store : Store} {power : Power} {link : Link} (h : Onward c b)
    (hr : link.reports = b.link.reports := by rfl) (hl : link.eventsLost = b.link.eventsLost := by rfl) :
    Onward c { b with scan := scan, scanCh := scanCh, printCh := printCh, head := head, linkIn := linkIn, linkOut := linkOut,
                      store := store, power := power, link := link } := by
  refine h.trans ⟨⟨[], by simp [hr], fun r hs hn => ?_⟩, fun e => hl.trans e, fun _ e => e, fun _ _ e => e, fun _ y e => ⟨y, e, .rfl⟩, Eq.refl _⟩
  rw [show ctxOf b r = none from hn] at hs
  cases hs

/-! ## Routes -/

theorem setQueue_eq (x : Ctx) (k : Sink) (q : List Entry) : fixedOf (x.setQueue k q) = fixedOf x ∧
    (x.setQueue k q).closeReq = x.closeReq ∧ (x.setQueue k q).stalls = x.stalls := by cases k <;> exact ⟨rfl, rfl, rfl⟩

/-- A queue replaced where it was not empty, or has a sink. -/
theorem setQueue_continues {x : Ctx} {k : Sink} {q : List Entry} (h : k ∈ x.sinks ∨ x.queue k ≠ []) : Continues x (x.setQueue k q) := by
  obtain ⟨hfixed, hclose, hstalls⟩ := setQueue_eq x k q
  refine ⟨hfixed, fun e => hclose.trans e, by rw [hstalls], fun j hj e => ?_⟩
  by_cases hjk : j = k
  · subst hjk
    exact absurd e (h.resolve_left hj)
  · rw [Ctx.queue_setQueue_ne _ _ _ _ hjk, e]

theorem push_continues (x : Ctx) (e : Entry) : Continues x (x.push e) := by
  unfold Ctx.push
  have hstep : ∀ (ks : List Sink) (y : Ctx), Continues x y → (∀ k ∈ ks, k ∈ x.sinks) →
      Continues x (ks.foldl (fun x k => x.setQueue k (x.queue k ++ [e])) y) := by
    intro ks
    induction ks with
    | nil => exact fun _ h _ => h
    | cons k ks ih =>
      intro y h hks
      refine ih _ (h.trans (setQueue_continues (.inl ?_))) fun j hj => hks j (List.mem_cons_of_mem _ hj)
      rw [h.sinks]
      exact hks k List.mem_cons_self
  exact hstep _ _ .rfl fun _ h => h

theorem putMark_nil (m : Mark) : putMark m [] = [] := rfl

/-- A route replaced by one that goes on from it. -/
theorem setRoute_onward {w u : Chip} (hu : Onward w u) (r : Nat) (x : Route) {y z : Ctx} (hy : ctxOf u r = some y) (hx : x.ctx = some z)
    (hyz : Continues y z) (htold : (getRoute u r).haltReported = true → x.haltReported = true) : Onward w (setRoute r x u) := by
  have hroute : ∀ n, n ≠ r → getRoute (setRoute r x u) n = getRoute u n := fun n hn => getRoute_setRoute_ne hn x u
  have hself : getRoute (setRoute r x u) r = x := getRoute_setRoute_self (lt_of_ctxOf hy) x
  refine hu.trans ⟨⟨[], by simp, fun n hs hn => ?_⟩, id, fun n e => ?_, fun _ _ e => e, fun n v e => ?_, by simp⟩
  · exfalso
    by_cases k : n = r
    · subst k
      rw [ctxOf, hself, hx] at hn
      cases hn
    · rw [ctxOf, hroute n k, ← ctxOf] at hn
      rw [hn] at hs
      cases hs
  · by_cases k : n = r
    · subst k
      rw [hself]
      exact htold e
    · rw [hroute n k]
      exact e
  · by_cases k : n = r
    · subst k
      rw [ctxOf, hself, hx] at e
      cases e
      exact ⟨y, hy, hyz⟩
    · rw [ctxOf, hroute n k, ← ctxOf] at e
      exact ⟨v, e, .rfl⟩

theorem modCtx_onward {w u : Chip} (hu : Onward w u) (r : Nat) (f : Ctx → Ctx) (hf : ∀ x, ctxOf u r = some x → Continues x (f x)) :
    Onward w (modCtx r f u) := by
  cases h : ctxOf u r with
  | none => rw [modCtx_of_none h]; exact hu
  | some x =>
    rw [modCtx_of_some h]
    exact setRoute_onward hu r _ h (Eq.refl _) (hf x h) id

theorem recordReady_onward {w u : Chip} (hu : Onward w u) : Onward w (recordReady u) := by
  unfold recordReady
  repeat' first
    | with_reducible assumption
    | (extract_lets +onlyGivenNames v; subst v)
    | split
    | with_reducible refine Onward.update ?_

theorem queueRecord_onward {w u : Chip} (hu : Onward w u) (x : Report) : Onward w (queueRecord x u) := by
  refine hu.trans ⟨⟨plainReports [x], by rw [queueRecord_reports, plainReports_append], fun r hs hn => ?_⟩, fun e => by simpa using e,
    fun r e => by simpa using e, fun n r e => ?_, fun r y e => ⟨y, by simpa using e, .rfl⟩, by simp⟩
  · rw [ctxOf_queueRecord] at hn
    rw [hn] at hs
    cases hs
  · rwa [slotAt_congr (queueRecord_pool x u)] at e

theorem markReported_onward {w u : Chip} (hu : Onward w u) (p : Nat → Ctx → Bool) : Onward w (markReported p u) := by
  refine hu.trans ⟨⟨[], by simp, fun r hs hn => ?_⟩, fun e => e, fun r e => ?_, fun _ _ e => e, fun r y e => ⟨y, by simpa using e, .rfl⟩,
    by simp⟩
  · rw [ctxOf_markReported] at hn
    rw [hn] at hs
    cases hs
  · rw [getRoute_markReported]
    split
    · split
      · rfl
      · exact e
    · exact e

theorem reportHalts_onward {w u : Chip} (hu : Onward w u) (e : Event) : Onward w (reportHalts e u) := by
  unfold reportHalts
  repeat' first
    | with_reducible assumption
    | with_reducible apply markReported_onward
    | split

theorem queueEvent_onward {w u : Chip} (hu : Onward w u) (e : Event) : Onward w (queueEvent e u) := by
  unfold queueEvent
  split
  · exact reportHalts_onward (queueRecord_onward hu _) e
  · refine hu.trans ⟨⟨[], by simp, fun r hs hn => ?_⟩, fun _ => rfl, fun _ k => k, fun _ _ k => k, fun _ y k => ⟨y, k, .rfl⟩, rfl⟩
    exact .inr rfl

/-- A CREDIT written in place leaves the other records. -/
theorem plainReports_credited (r v : Nat) (xs : List Report) :
    plainReports (xs.map fun x => if isCreditOf r x then .credit r v else x) = plainReports xs := by
  induction xs with
  | nil => rfl
  | cons x xs ih =>
    have hx : plainReports [if isCreditOf r x then .credit r v else x] = plainReports [x] := by
      cases x with
      | credit n v' => cases h : isCreditOf r (.credit n v') <;> rfl
      | _ => rfl
    rw [List.map_cons, ← List.singleton_append, plainReports_append, ih, hx, ← plainReports_append, List.singleton_append]

theorem unsent_append (c : Chip) : c.link.reports.take (c.link.reports.length - (unsent c).length) ++ unsent c = c.link.reports := by
  unfold unsent
  split
  · cases c.link.reports with
    | nil => rfl
    | cons x xs => simp
  · simp

theorem plainReports_queueCredit (r v : Nat) (c : Chip) : plainReports (queueCredit r v c).link.reports = plainReports c.link.reports := by
  unfold queueCredit
  split
  · dsimp only
    rw [plainReports_append, plainReports_credited, ← plainReports_append, unsent_append]
  · rw [queueRecord_reports, plainReports_append]
    exact List.append_nil _

theorem queueCredit_onward {w u : Chip} (hu : Onward w u) (r : ℕ) (x : ℕ) : Onward w (queueCredit r x u) := by
  refine hu.trans ⟨⟨[], by rw [plainReports_queueCredit, List.append_nil], fun n hs hn => ?_⟩, fun e => by simpa using e,
    fun n e => by simpa using e, fun n m e => ?_, fun n y e => ⟨y, by simpa [ctxOf] using e, .rfl⟩, by simp⟩
  · rw [ctxOf, getRoute_queueCredit, ← ctxOf] at hn
    rw [hn] at hs
    cases hs
  · rwa [slotAt_congr (c := u) (by simp)] at e

theorem syncCredit_onward {w u : Chip} (hu : Onward w u) (r : ℕ) : Onward w (syncCredit r u) := by
  unfold syncCredit
  repeat' first
    | with_reducible assumption
    | with_reducible apply queueCredit_onward
    | with_reducible refine modCtx_onward ?_ _ _ (fun x _ => by first | exact push_continues _ _ | exact .of rfl (fun _ => rfl))
    | split

theorem setSlot_onward {w u : Chip} (hu : Onward w u) (n : Nat) (x : Slot) : Onward w (setSlot n x u) := by
  refine hu.trans ⟨⟨[], by simp, fun r hs hn => ?_⟩, fun e => by simpa using e, fun r e => ?_, fun m r e => by simpa using e,
    fun r y e => ⟨y, ?_, .rfl⟩, by simp⟩
  · rw [ctxOf_congr (c := u) (by simp)] at hn
    rw [hn] at hs
    cases hs
  · rw [getRoute_congr (c := u) (by simp)]; exact e
  · rw [ctxOf_congr (c := u) (by simp)] at e; exact e

theorem returnSlot_onward {w u : Chip} (hu : Onward w u) (n : Nat) : Onward w (returnSlot n u) := by
  unfold returnSlot
  split
  · exact hu
  · extract_lets c
    have hc : Onward w c := by
      refine hu.trans ⟨⟨[], by simp [c], fun r hs hn => ?_⟩, fun e => e, fun _ e => e, fun m r e => ?_, fun _ y e => ⟨y, e, .rfl⟩, rfl⟩
      · rw [show ctxOf u r = none from hn] at hs
        cases hs
      · simp only [slotAt, c, getD_set_slot] at e ⊢
        split at e
        · cases e
        · exact e
    split
    · exact syncCredit_onward hc _
    · exact hc

theorem returnSlots_onward {w u : Chip} (hu : Onward w u) (ns : List ℕ) : Onward w (returnSlots ns u) := by
  unfold returnSlots
  repeat' first
    | with_reducible assumption
    | intro _
    | with_reducible apply returnSlot_onward
    | with_reducible refine Onward.fold ?_ ?_

theorem dropReference_onward {w u : Chip} (hu : Onward w u) (n : ℕ) : Onward w (dropReference n u) := by
  unfold dropReference
  repeat' first
    | with_reducible assumption
    | with_reducible apply returnSlot_onward
    | with_reducible apply setSlot_onward
    | split

theorem dropStall_onward {w u : Chip} (hu : Onward w u) (r : Nat) : Onward w (dropStall r .storeWait u) :=
  modCtx_onward hu r _ fun x _ => ⟨rfl, id, by simp [List.mem_filter], fun k _ h => by cases k <;> exact h⟩

theorem addStall_onward {w u : Chip} (hu : Onward w u) (r : Nat) : Onward w (addStall r .storeWait u) := by
  refine modCtx_onward hu r _ fun x _ => ?_
  split
  · exact .rfl
  · exact ⟨rfl, id, by simp, fun k _ h => by cases k <;> exact h⟩

theorem dropLamp_onward {w u : Chip} (hu : Onward w u) : Onward w (dropLamp u) := by
  unfold dropLamp
  repeat' first
    | with_reducible assumption
    | (extract_lets +onlyGivenNames v; subst v)
    | split
    | with_reducible refine Onward.update ?_

theorem modBlock_onward {w u : Chip} (hu : Onward w u) (b : ℕ) (f : Block → Block) : Onward w (modBlock b f u) := by
  unfold modBlock
  repeat' first
    | with_reducible assumption
    | (extract_lets +onlyGivenNames v; subst v)
    | with_reducible refine Onward.update ?_

theorem setBlockState_onward {w u : Chip} (hu : Onward w u) (b : ℕ) (st : BlockState) : Onward w (setBlockState b st u) := by
  unfold setBlockState
  repeat' first
    | with_reducible assumption
    | with_reducible apply modBlock_onward

theorem modPage_onward {w u : Chip} (hu : Onward w u) (id : ℕ) (f : Page → Page) : Onward w (modPage id f u) := by
  unfold modPage
  repeat' first
    | with_reducible assumption
    | (extract_lets +onlyGivenNames v; subst v)
    | split
    | with_reducible refine Onward.update ?_

theorem removePage_onward {w u : Chip} (hu : Onward w u) (id : ℕ) : Onward w (removePage id u) := by
  unfold removePage
  repeat' first
    | with_reducible assumption
    | (extract_lets +onlyGivenNames v; subst v)
    | with_reducible refine Onward.update ?_

theorem headContentLost_onward {w u : Chip} (hu : Onward w u) : Onward w (headContentLost u) := by
  unfold headContentLost
  repeat' first
    | with_reducible assumption
    | (extract_lets +onlyGivenNames v; subst v)
    | with_reducible refine Onward.update ?_

theorem dropHeadUse_onward {w u : Chip} (hu : Onward w u) : Onward w (dropHeadUse u) := by
  unfold dropHeadUse
  repeat' first
    | with_reducible assumption
    | with_reducible apply headContentLost_onward
    | (extract_lets +onlyGivenNames v; first | (refine (fun _ : Onward w v => ?_) ?_; rotate_left; subst v; rotate_left; clear_value v) | subst v)
    | split
    | with_reducible refine Onward.update ?_

theorem releaseHead_onward {w u : Chip} (hu : Onward w u) : Onward w (releaseHead u) := by
  unfold releaseHead
  repeat' first
    | with_reducible assumption
    | with_reducible apply dropHeadUse_onward
    | (extract_lets +onlyGivenNames v; subst v)
    | with_reducible refine Onward.update ?_

theorem refreshLoad_onward {w u : Chip} (hu : Onward w u) : Onward w (refreshLoad u) := by
  unfold refreshLoad
  repeat' first
    | with_reducible assumption
    | (extract_lets +onlyGivenNames v; subst v)
    | split
    | with_reducible refine Onward.update ?_

theorem setErase_onward {w u : Chip} (hu : Onward w u) (e : Option EraseProg) : Onward w (setErase e u) := by
  unfold setErase
  repeat' first
    | with_reducible assumption
    | (extract_lets +onlyGivenNames v; subst v)
    | with_reducible refine Onward.update ?_

theorem suspendErase_onward {w u c : Chip} (hu : Onward w u) (e : suspendErase u = some c) : Onward w c := by
  unfold suspendErase at e
  repeat' split at e
  all_goals cases e
  all_goals first | exact hu | exact Onward.update hu

theorem resumeErase_onward {w u : Chip} (hu : Onward w u) : Onward w (resumeErase u) := by
  unfold resumeErase
  repeat' first
    | with_reducible assumption
    | with_reducible apply setErase_onward
    | split

theorem grant_onward {w u : Chip} (hu : Onward w u) : Onward w (grant u) := by
  unfold grant
  split
  · exact hu
  · split
    · split
      · exact hu
      · split
        · split
          · rename_i e
            exact Onward.update (suspendErase_onward hu e)
          · exact hu
        · split
          · rename_i e
            exact Onward.update (suspendErase_onward hu e)
          · exact hu
        · exact resumeErase_onward hu
    · rename_i ho
      split
      · rename_i c e
        have hc : c.store.op = .lockErase false := (suspendErase_op e).trans ho
        exact Onward.update (suspendErase_onward hu e)
      · exact hu
    · exact resumeErase_onward hu
    · exact hu

theorem askRead_onward {w u : Chip} (hu : Onward w u) (j : Job) : Onward w (askRead j u) := by
  unfold askRead
  repeat' first
    | with_reducible assumption
    | with_reducible apply grant_onward
    | (extract_lets +onlyGivenNames v; subst v)
    | with_reducible refine Onward.update ?_

theorem askProgram_onward {w u : Chip} (hu : Onward w u) (j : Job) : Onward w (askProgram j u) := by
  unfold askProgram
  repeat' first
    | with_reducible assumption
    | with_reducible apply grant_onward
    | (extract_lets +onlyGivenNames v; subst v)
    | with_reducible refine Onward.update ?_

theorem freeFlash_onward {w u : Chip} (hu : Onward w u) : Onward w (freeFlash u) := by
  unfold freeFlash
  repeat' first
    | with_reducible assumption
    | with_reducible apply grant_onward
    | (extract_lets +onlyGivenNames v; subst v)
    | with_reducible refine Onward.update ?_

theorem retireBlock_onward {w u : Chip} (hu : Onward w u) (why : RetireFor) (b : ℕ) : Onward w (retireBlock why u b) := by
  unfold retireBlock
  repeat' first
    | with_reducible assumption
    | with_reducible apply askProgram_onward
    | with_reducible apply setBlockState_onward

theorem retireBlocks_onward {w u : Chip} (hu : Onward w u) (why : RetireFor) (bs : List ℕ) : Onward w (retireBlocks why bs u) := by
  unfold retireBlocks
  repeat' first
    | with_reducible assumption
    | intro _
    | with_reducible apply retireBlock_onward
    | with_reducible refine Onward.fold ?_ ?_
    | (extract_lets +onlyGivenNames v; subst v)
    | split
    | with_reducible refine Onward.update ?_

theorem enterQueues_onward {w u : Chip} (hu : Onward w u) (r : ℕ) (e : Entry) : Onward w (enterQueues r e u) := by
  unfold enterQueues
  repeat' first
    | with_reducible assumption
    | with_reducible refine modCtx_onward ?_ _ _ (fun x _ => by first | exact push_continues _ _ | exact .of rfl (fun _ => rfl))
    | with_reducible apply setSlot_onward
    | (extract_lets +onlyGivenNames v; refine (fun _ : Onward w v => ?_) ?_; rotate_left; subst v; rotate_left; clear_value v)
    | split

theorem placeEntry_onward {w u : Chip} (hu : Onward w u) (r : ℕ) (e : Entry) : Onward w (placeEntry r e u) := by
  unfold placeEntry
  repeat' first
    | with_reducible assumption
    | with_reducible apply enterQueues_onward
    | with_reducible refine modCtx_onward ?_ _ _ (fun x _ => by first | exact push_continues _ _ | exact .of rfl (fun _ => rfl))
    | split

theorem moveHold_onward {w u : Chip} (hu : Onward w u) (r : Nat) (es : List Entry) : Onward w (moveHold r es u) := by
  induction es generalizing u with
  | nil => exact modCtx_onward hu _ _ fun _ _ => .of rfl (fun _ => rfl)
  | cons e es ih =>
    unfold moveHold
    repeat' first
      | with_reducible assumption
      | exact modCtx_onward hu _ _ fun _ _ => .of rfl (fun _ => rfl)
      | exact ih (enterQueues_onward hu _ _)
      | split

theorem settleHold_onward {w u : Chip} (hu : Onward w u) (r : ℕ) : Onward w (settleHold r u) := by
  unfold settleHold
  repeat' first
    | with_reducible assumption
    | with_reducible apply moveHold_onward
    | split

theorem pageEnd_onward {w u : Chip} (hu : Onward w u) (r : ℕ) (truncated : Bool) : Onward w (pageEnd r truncated u) := by
  unfold pageEnd
  repeat' first
    | with_reducible assumption
    | with_reducible apply placeEntry_onward
    | with_reducible refine modCtx_onward ?_ _ _ (fun x _ => by first | exact push_continues _ _ | exact .of rfl (fun _ => rfl))
    | split

theorem dropHead_onward {w u : Chip} (hu : Onward w u) (k : Sink) (r : ℕ) : Onward w (dropHead k r u) := by
  unfold dropHead
  split
  · exact hu
  next x hx =>
    split
    next e rest hq =>
      refine settleHold_onward (dropReference_onward (modCtx_onward hu r _ fun y hy => setQueue_continues (.inr ?_)) _) r
      rw [hx] at hy
      cases hy
      rw [hq]
      exact List.cons_ne_nil _ _
    next => exact hu

theorem served_continues {x : Ctx} {k : Sink} {e : Entry} {rest : List Entry} (m : Mark) (h : x.queue k = e :: rest) :
    Continues x (let y := x.setQueue k rest
      { y with printQ := putMark m y.printQ, linkQ := putMark m y.linkQ, storeQ := putMark m y.storeQ }) := by
  refine (setQueue_continues (.inr (by rw [h]; exact List.cons_ne_nil _ _))).trans ⟨rfl, id, Iff.rfl, fun j _ hj => ?_⟩
  cases j
  · show putMark m (x.setQueue k rest).printQ = []
    rw [show (x.setQueue k rest).printQ = [] from hj]
    rfl
  · show putMark m (x.setQueue k rest).linkQ = []
    rw [show (x.setQueue k rest).linkQ = [] from hj]
    rfl
  · show putMark m (x.setQueue k rest).storeQ = []
    rw [show (x.setQueue k rest).storeQ = [] from hj]
    rfl

theorem serveMark_onward {w u : Chip} (hu : Onward w u) (k : Sink) (r : Nat) (f : Mark → Mark) : Onward w (serveMark k r f u) := by
  unfold serveMark
  split
  · exact hu
  next x hx =>
    split
    next m rest hq =>
      have hserved := modCtx_onward hu r (fun x =>
        let x := x.setQueue k rest
        { x with printQ := putMark (f m) x.printQ, linkQ := putMark (f m) x.linkQ, storeQ := putMark (f m) x.storeQ })
        fun y hy => served_continues (f m) (e := .mark m) (by rw [hx] at hy; cases hy; exact hq)
      refine settleHold_onward ?_ _
      split
      · exact hserved
      · obtain ⟨y, hy⟩ : ∃ y, ctxOf (queueEvent (.pageDone r (f m).lines (f m).repaired (f m).truncated (f m).isPartial (f m).pageId)
            (modCtx r (fun x =>
              let x := x.setQueue k rest
              { x with printQ := putMark (f m) x.printQ, linkQ := putMark (f m) x.linkQ, storeQ := putMark (f m) x.storeQ }) u)) r = some y := by
          rw [ctxOf_queueEvent, ctxOf_modCtx_self, hx]
          exact ⟨_, rfl⟩
        exact setRoute_onward (queueEvent_onward hserved _) r _ hy hy .rfl id
    next => exact hu

theorem stopScan_onward {w u : Chip} (hu : Onward w u) (cause : StopCause) : Onward w (stopScan cause u) := by
  unfold stopScan
  repeat' first
    | with_reducible assumption
    | (extract_lets +onlyGivenNames v; subst v)
    | with_reducible refine Onward.update ?_

theorem endScanSource_onward {w u : Chip} (hu : Onward w u) : Onward w (endScanSource u) := by
  unfold endScanSource
  repeat' first
    | with_reducible assumption
    | with_reducible apply dropLamp_onward
    | (extract_lets +onlyGivenNames v; subst v)
    | with_reducible refine Onward.update ?_

theorem dropWaitingStart_onward {w u : Chip} (hu : Onward w u) : Onward w (dropWaitingStart u) := by
  unfold dropWaitingStart returnReservations
  repeat' first
    | with_reducible assumption
    | with_reducible apply returnSlots_onward
    | with_reducible refine modCtx_onward ?_ _ _ (fun x _ => .of rfl (fun _ => rfl))
    | split

theorem closeScanSource_onward {w u : Chip} (hu : Onward w u) : Onward w (closeScanSource u) := by
  unfold closeScanSource
  repeat' first
    | with_reducible assumption
    | with_reducible apply endScanSource_onward
    | with_reducible apply dropWaitingStart_onward
    | with_reducible apply stopScan_onward
    | split

theorem requestClose_onward {w u : Chip} (hu : Onward w u) (r : ℕ) : Onward w (requestClose r u) := by
  unfold requestClose
  repeat' first
    | with_reducible assumption
    | with_reducible refine modCtx_onward ?_ _ _ (fun x _ => by first | exact push_continues _ _ | exact .of rfl (fun _ => rfl) (fun _ => rfl))
    | with_reducible apply closeScanSource_onward
    | with_reducible apply pageEnd_onward
    | (extract_lets +onlyGivenNames v; refine (fun _ : Onward w v => ?_) ?_; rotate_left; subst v; rotate_left; clear_value v)
    | split

theorem setWork_onward {w u : Chip} (hu : Onward w u) (x : Option Work) : Onward w (setWork x u) := by
  unfold setWork
  repeat' first
    | with_reducible assumption
    | (extract_lets +onlyGivenNames v; subst v)
    | with_reducible refine Onward.update ?_

theorem createPage_onward {w u : Chip} (hu : Onward w u) (r : ℕ) (start : Option ℕ) : Onward w (createPage r start u) := by
  unfold createPage
  repeat' first
    | with_reducible assumption
    | with_reducible refine modCtx_onward ?_ _ _ (fun x _ => by first | exact push_continues _ _ | exact .of rfl (fun _ => rfl))
    | (extract_lets +onlyGivenNames v; subst v)
    | split
    | with_reducible refine Onward.update ?_

theorem getRoute_forgetPage (id : Nat) (c : Chip) (r : Nat) : getRoute (forgetPage id c) r =
    match (getRoute c r).ctx with
    | some y => if y.storePage = some id then { getRoute c r with ctx := some { y with storePage := none } } else getRoute c r
    | none => getRoute c r := by
  unfold forgetPage getRoute
  by_cases h : r < c.routes.length
  · simp only [List.getD, List.getElem?_map, List.getElem?_eq_getElem, h, Option.map_some, Option.getD_some] <;> rfl
  · have hout : c.routes.length ≤ r := Nat.le_of_not_lt h
    rw [List.getD_eq_default _ _ (by simpa using hout), List.getD_eq_default _ _ hout]
    rfl

theorem forgetPage_onward {w u : Chip} (hu : Onward w u) (id : Nat) : Onward w (forgetPage id u) := by
  refine hu.trans ⟨⟨[], by simp [forgetPage], fun r hs hn => ?_⟩, fun e => e, fun r e => ?_, fun _ _ e => e, fun r y e => ?_, by simp [forgetPage]⟩
  · exfalso
    obtain ⟨x, hx⟩ := Option.isSome_iff_exists.mp hs
    rw [ctxOf, getRoute_forgetPage, show (getRoute u r).ctx = some x from hx] at hn
    dsimp only at hn
    split at hn
    · cases hn
    · rw [show (getRoute u r).ctx = some x from hx] at hn; cases hn
  · rw [getRoute_forgetPage]
    split
    · split <;> exact e
    · exact e
  · rw [ctxOf, getRoute_forgetPage] at e
    split at e
    next x hx =>
      split at e
      · cases e
        exact ⟨x, hx, .of rfl fun _ => rfl⟩
      · exact ⟨y, e, .rfl⟩
    · exact ⟨y, e, .rfl⟩

theorem endPage_onward {w u : Chip} (hu : Onward w u) (route : Option ℕ) (truncated : Bool) (mark : Option Mark) (id : ℕ) : Onward w (endPage route truncated mark id u) := by
  unfold endPage
  repeat' first
    | with_reducible assumption
    | with_reducible apply forgetPage_onward
    | with_reducible apply setWork_onward
    | with_reducible apply askProgram_onward
    | with_reducible apply setBlockState_onward
    | with_reducible apply retireBlocks_onward
    | with_reducible apply removePage_onward
    | split

theorem meetFull_onward {w u : Chip} (hu : Onward w u) (r : ℕ) (cause : FullCause) : Onward w (meetFull r cause u) := by
  unfold meetFull
  repeat' first
    | with_reducible assumption
    | with_reducible apply queueEvent_onward
    | with_reducible apply dropStall_onward
    | with_reducible refine modCtx_onward ?_ _ _ (fun x _ => by first | exact push_continues _ _ | exact .of rfl (fun _ => rfl))
    | with_reducible apply endPage_onward
    | with_reducible apply setWork_onward
    | with_reducible apply requestClose_onward
    | with_reducible apply dropHead_onward
    | (extract_lets +onlyGivenNames v; subst v)
    | split
    | with_reducible refine Onward.update ?_

theorem claimBlock_onward {w u c : Chip} {id seq n : Nat} {reloc : Bool} (hu : Onward w u)
    (e : claimBlock id seq reloc u = some (n, c)) : Onward w c := by
  unfold claimBlock at e
  split at e
  · cases e
  · simp only [Option.some.injEq, Prod.mk.injEq] at e
    obtain ⟨-, rfl⟩ := e
    repeat' first
      | with_reducible assumption
      | with_reducible apply askProgram_onward
      | with_reducible apply modPage_onward
      | with_reducible apply modBlock_onward
      | split
      | with_reducible refine Onward.update ?_

theorem tryClaim_onward {w u : Chip} (hu : Onward w u) (r : ℕ) : Onward w (tryClaim r u) := by
  unfold tryClaim
  repeat' first
    | with_reducible assumption
    | with_reducible refine claimBlock_onward ?_ ‹_›
    | with_reducible apply meetFull_onward
    | with_reducible apply dropStall_onward
    | with_reducible apply setWork_onward
    | with_reducible apply askProgram_onward
    | with_reducible apply addStall_onward
    | with_reducible apply queueEvent_onward
    | (extract_lets +onlyGivenNames v; first | (refine (fun _ : Onward w v => ?_) ?_; rotate_left; subst v; rotate_left; clear_value v) | subst v)
    | split
    | with_reducible refine Onward.update ?_

theorem placeWork_onward {w u : Chip} (hu : Onward w u) (r : ℕ) (size : ℕ) : Onward w (placeWork r size u) := by
  unfold placeWork
  repeat' first
    | with_reducible assumption
    | with_reducible apply tryClaim_onward
    | with_reducible apply askProgram_onward
    | with_reducible apply setBlockState_onward
    | split

theorem takeEntry_onward {w u : Chip} (hu : Onward w u) (r : ℕ) : Onward w (takeEntry r u) := by
  unfold takeEntry
  repeat' first
    | with_reducible assumption
    | with_reducible apply setWork_onward
    | with_reducible apply placeWork_onward
    | with_reducible apply createPage_onward
    | with_reducible apply meetFull_onward
    | with_reducible apply serveMark_onward
    | with_reducible apply endPage_onward
    | (extract_lets +onlyGivenNames v; first | (refine (fun _ : Onward w v => ?_) ?_; rotate_left; subst v; rotate_left; clear_value v) | subst v)
    | split
    | with_reducible refine Onward.update ?_

theorem drainEntry_onward {w u : Chip} (hu : Onward w u) (r : ℕ) : Onward w (drainEntry r u) := by
  unfold drainEntry
  repeat' first
    | with_reducible assumption
    | with_reducible apply dropHead_onward
    | with_reducible apply serveMark_onward
    | with_reducible refine modCtx_onward ?_ _ _ (fun x _ => by first | exact push_continues _ _ | exact .of rfl (fun _ => rfl))
    | (extract_lets +onlyGivenNames v; subst v)
    | split
    | with_reducible refine Onward.update ?_

theorem fillLane_onward {w u : Chip} (hu : Onward w u) (r : ℕ) : Onward w (fillLane r u) := by
  unfold fillLane
  repeat' first
    | with_reducible assumption
    | (extract_lets +onlyGivenNames v; subst v)
    | split
    | with_reducible refine Onward.update ?_

theorem storeLoop_onward {w u : Chip} (hu : Onward w u) (r n : Nat) : Onward w (storeLoop r n u) := by
  induction n generalizing u with
  | zero => exact hu
  | succ n ih =>
    unfold storeLoop
    repeat' first
      | with_reducible assumption
      | exact ih (drainEntry_onward hu _)
      | exact ih (takeEntry_onward hu _)
      | split

theorem storePump_onward {w u : Chip} (hu : Onward w u) (r : ℕ) : Onward w (storePump r u) := by
  unfold storePump
  repeat' first
    | with_reducible assumption
    | with_reducible apply fillLane_onward
    | with_reducible apply storeLoop_onward
    | split

theorem linkPump_onward {w u : Chip} (hu : Onward w u) : Onward w (linkPump u) := by
  unfold linkPump
  repeat' first
    | with_reducible assumption
    | with_reducible apply recordReady_onward
    | with_reducible apply pageEnd_onward
    | (extract_lets +onlyGivenNames v; subst v)
    | split
    | with_reducible refine Onward.update ?_

theorem syncMotor_onward {w u : Chip} (hu : Onward w u) : Onward w (syncMotor u) := by
  unfold syncMotor
  repeat' first
    | with_reducible assumption
    | (extract_lets +onlyGivenNames v; subst v)
    | split
    | with_reducible refine Onward.update ?_

theorem releaseScan_onward {w u : Chip} (hu : Onward w u) : Onward w (releaseScan u) := by
  unfold releaseScan
  repeat' first
    | with_reducible assumption
    | with_reducible apply dropLamp_onward
    | (extract_lets +onlyGivenNames v; refine (fun _ : Onward w v => ?_) ?_; rotate_left; subst v; rotate_left; clear_value v)
    | with_reducible refine Onward.update ?_

theorem releasePrint_onward {w u : Chip} (hu : Onward w u) : Onward w (releasePrint u) := by
  unfold releasePrint
  repeat' first
    | with_reducible assumption
    | with_reducible apply releaseHead_onward
    | (extract_lets +onlyGivenNames v; refine (fun _ : Onward w v => ?_) ?_; rotate_left; subst v; rotate_left; clear_value v)
    | with_reducible refine Onward.update ?_

/-- A route that becomes CLOSED has its ROUTE CLOSED, or events lost is set (R13, R181). -/
theorem closeRoute_onward {w u : Chip} (hu : Onward w u) (r : Nat) : Onward w (closeRoute r .closed u) := by
  unfold closeRoute
  split
  · exact hu
  next x hx =>
    extract_lets q a b c
    have hb : Onward a b := by
      unfold b
      split
      · exact releaseScan_onward .rfl
      · exact .rfl
    have hc : Onward a c := by
      unfold c
      split
      · exact releasePrint_onward hb
      · exact hb
    have hctx : ∀ n, n ≠ r → ctxOf a n = ctxOf u n := fun n hn => by simp only [a]; exact ctxOf_setRoute_ne hn _ _
    have hclosed : ctxOf a r = none := by
      rw [ctxOf, show getRoute a r = { q with ctx := none } from getRoute_setRoute_self (lt_of_ctxOf hx) _]
    have hrest : Onward a (queueEvent (.routeClosed r .closed) c) := queueEvent_onward hc _
    obtain ⟨more, hmore, hother⟩ := hrest.reports
    have hq : (∃ rest, more = rest ++ [.event (.routeClosed r .closed)]) ∨ (queueEvent (.routeClosed r .closed) c).link.eventsLost = true := by
      by_cases hroom : 256 ≤ freeBytes c
      · left
        obtain ⟨rest, hplain, -⟩ := hc.reports
        refine ⟨rest, ?_⟩
        rw [queueEvent_reports_of_room hroom, plainReports_append, hplain, List.append_assoc] at hmore
        exact (List.append_cancel_left hmore).symm
      · right
        rw [show queueEvent (.routeClosed r .closed) c = { c with link := { c.link with eventsLost := true } } from if_neg hroom]
    refine hu.trans ⟨⟨more, hmore, fun n hs hn => ?_⟩, hrest.lost, fun n e => hrest.told n ?_, hrest.slots, fun n y e => ?_,
      hrest.length.trans (by simp [a])⟩
    · by_cases k : n = r
      · subst k
        rcases hq with ⟨rest, rfl⟩ | hlost
        · exact .inl (by simp)
        · exact .inr hlost
      · exact hother n (by rw [hctx n k]; exact hs) hn
    · by_cases k : n = r
      · subst k
        rw [show getRoute a n = { q with ctx := none } from getRoute_setRoute_self (lt_of_ctxOf hx) _]
        exact e
      · rw [show getRoute a n = getRoute u n from getRoute_setRoute_ne k _ _]
        exact e
    · obtain ⟨z, hz, hzy⟩ := hrest.routes n y e
      by_cases k : n = r
      · subst k
        rw [hclosed] at hz
        cases hz
      · exact ⟨z, by rw [← hctx n k]; exact hz, hzy⟩

theorem closeIfEmpty_onward {w u : Chip} (hu : Onward w u) (r : ℕ) : Onward w (closeIfEmpty r u) := by
  unfold closeIfEmpty
  repeat' first
    | with_reducible assumption
    | with_reducible apply closeRoute_onward
    | split

theorem pump_onward {w u : Chip} (hu : Onward w u) (r : ℕ) : Onward w (pump r u) := by
  unfold pump
  repeat' first
    | with_reducible assumption
    | with_reducible apply closeIfEmpty_onward
    | with_reducible apply refreshLoad_onward
    | with_reducible apply linkPump_onward
    | with_reducible apply storePump_onward

theorem settle_onward {w u : Chip} (hu : Onward w u) (r : ℕ) : Onward w (settle r u) := by
  unfold settle
  repeat' first
    | with_reducible assumption
    | with_reducible apply syncMotor_onward
    | with_reducible apply pump_onward

theorem settleAll_onward {w u : Chip} (hu : Onward w u) : Onward w (settleAll u) :=
  syncMotor_onward (Onward.fold hu fun _ _ h => pump_onward h _)

end Sys2Proof.Proofs
end

section
/-!
PROOFS. Directives that are taken (10_the_page_link.md R179): what a command's owner does behind the stream rules; a directive without room;
the directory listing (R187).
-/

-- One declaration after another: the package as one text keeps within the check's limit on threads.
set_option Elab.async false

namespace Sys2Proof.Proofs

open Sys2Proof Sys2Proof.Machine

/-! ## A directive taken -/

/-- A directive that is taken does what its owner does behind the stream rules. -/
theorem exec_owned {i : Instr} {p : List Byte} {f : Chip → Chip} {s : State} (harrive : exec i s = .next (arrive i (ownedChip p f) s))
    (h : Taken s) (hp : p ≠ []) : exec i s = .next (s.withChip (f (streamRules i s.chip))) := by
  rw [harrive, ownedChip_taken h i hp f]

theorem withLength_of_eq {p : List Byte} {n : Nat} (h : p.length = n) (f : Chip → Chip) (c : Chip) : withLength p n f c = f c := if_pos h

theorem withLength_of_ne {p : List Byte} {n : Nat} (h : p.length ≠ n) (f : Chip → Chip) (c : Chip) :
    withLength p n f c = refuse p .malformed c := if_neg h

/-- A directive of one length, sent with that length. -/
theorem exec_owned_length {i : Instr} {p : List Byte} {n : Nat} {f : Chip → Chip} {s : State}
    (harrive : exec i s = .next (arrive i (ownedChip p (withLength p (n + 1) f)) s)) (h : Taken s) (hp : p.length = n + 1) :
    exec i s = .next (s.withChip (f (streamRules i s.chip))) := by
  rw [exec_owned harrive h (List.ne_nil_of_length_eq_add_one hp), withLength_of_eq hp]

/-! ## A directive without room (R179) -/

/-- A part with 209 bytes free upstream that takes a record. -/
def fullPart : State :=
  { State.reset with chip := { State.reset.chip with
      link := { State.reset.chip.link with selected := true, reports := [.padded 0x83 300] } } }

/-- Refutes O21: `isDirective` goes by the tag alone, and a SKIPPED TAG command with a directive's tag has no effect, so that it is not held.
The command is not well-formed (R178 skips the tags below 10h), but the statement asks for every command. -/
theorem not_directivesAreHeldOrDiscarded : ¬ Obligations.DirectivesAreHeldOrDiscarded := by
  unfold Obligations.DirectivesAreHeldOrDiscarded
  rintro ⟨hheld, -⟩
  have hskip : exec (.skippedTag 0x3F []) fullPart = .next fullPart := rfl
  have hclaim := hheld (.skippedTag 0x3F []) fullPart (by decide) (by decide) rfl (by decide)
  rw [hskip] at hclaim
  injection hclaim with hstate
  have hnone : fullPart.chip.link.held = none := rfl
  rw [hstate] at hnone
  cases hnone

/-! ## The directory listing (R187) -/

theorem nextListed_cons (n : Nat) (p : Page) (rest : List Page) : nextListed n (p :: rest) =
    match nextListed n rest with
    | none => if n < p.creation then some p else none
    | some q => if n < p.creation ∧ p.creation ≤ q.creation then some p else some q := rfl

theorem nextListed_none {n : Nat} {dir : List Page} (h : nextListed n dir = none) : ∀ x ∈ dir, x.creation ≤ n := by
  induction dir with
  | nil => exact fun _ k => absurd k List.not_mem_nil
  | cons p rest ih =>
    rw [nextListed_cons] at h
    split at h
    next hrest =>
      split at h
      · cases h
      next hp =>
        rintro x hx
        rcases List.mem_cons.mp hx with rfl | hin
        · exact Nat.le_of_not_lt hp
        · exact ih hrest x hin
    next => split at h <;> cases h

/-- The entry listed is a page of the directory above the cursor, and none is passed over. -/
theorem nextListed_some {n : Nat} {dir : List Page} {pg : Page} (h : nextListed n dir = some pg) :
    pg ∈ dir ∧ n < pg.creation ∧ ∀ x ∈ dir, n < x.creation → pg.creation ≤ x.creation := by
  induction dir generalizing pg with
  | nil => cases h
  | cons p rest ih =>
    rw [nextListed_cons] at h
    split at h
    next hrest =>
      split at h
      next hp =>
        cases h
        refine ⟨List.mem_cons_self, hp, fun x hx hn => ?_⟩
        rcases List.mem_cons.mp hx with rfl | hin
        · exact Nat.le_refl _
        · exact absurd hn (Nat.not_lt.mpr (nextListed_none hrest x hin))
      next => cases h
    next q hrest =>
      obtain ⟨hin, habove, hleast⟩ := ih hrest
      split at h
      next hp =>
        cases h
        refine ⟨List.mem_cons_self, hp.1, fun x hx hn => ?_⟩
        rcases List.mem_cons.mp hx with rfl | hx
        · exact Nat.le_refl _
        · exact hp.2.trans (hleast x hx hn)
      next hp =>
        cases h
        refine ⟨List.mem_cons_of_mem _ hin, habove, fun x hx hn => ?_⟩
        rcases List.mem_cons.mp hx with rfl | hx
        · exact Nat.le_of_lt (Nat.lt_of_not_le fun k => hp ⟨hn, k⟩)
        · exact hleast x hx hn

theorem exec_directoryEntry (s : State) : exec .directoryEntry s = .next (s.onChip directoryEntryChip) := rfl

/-- Settles O31, by the request's owner, the branches of an entry, and induction on the directory. -/
theorem directoryIsListedInCreationOrder : Obligations.DirectoryIsListedInCreationOrder := by
  unfold Obligations.DirectoryIsListedInCreationOrder
  refine ⟨fun p s h hp => ?_, fun l pg s hl hheld hnext hroom => ?_, fun l s hl hheld hnext => ?_, fun _ _ _ => nextListed_some,
    fun _ _ => nextListed_none⟩
  · intro c hidle hlisting
    rw [exec_owned_length (n := 0) (by rfl) h hp]
    simp only [c] at hidle hlisting ⊢
    rw [hidle, hlisting]
    rfl
  · rw [exec_directoryEntry, onChip_eq_withChip]
    simp only [directoryEntryChip, hl, hheld, hnext, hroom, if_true, if_false, Bool.false_eq_true]
  · rw [exec_directoryEntry, onChip_eq_withChip]
    simp only [directoryEntryChip, hl, hheld, hnext, if_false, Bool.false_eq_true]

end Sys2Proof.Proofs
end

section
/-!
PROOFS. The rules that watch the directive stream (10_the_page_link.md R179 with R137, R156, R170, R171): each as one equation, and what the
three leave together.
-/

-- One declaration after another: the package as one text keeps within the check's limit on threads.
set_option Elab.async false

namespace Sys2Proof.Proofs

open Sys2Proof Sys2Proof.Machine

/-! ## Events and the arbiter: what they depend on -/

theorem queueRecord_link_congr {c d : Chip} (h : c.link = d.link) (x : Report) : (queueRecord x c).link = (queueRecord x d).link := by
  unfold queueRecord recordReady
  simp only [h]
  split <;> rfl

theorem reportHalts_link (e : Event) (c : Chip) : (reportHalts e c).link = c.link := by
  obtain ⟨_, h⟩ := reportHalts_eq e c
  rw [h]

/-- What an event does to the Page Link Interface goes by that interface alone. -/
theorem queueEvent_link_congr {c d : Chip} (h : c.link = d.link) (e : Event) : (queueEvent e c).link = (queueEvent e d).link := by
  have hfree : freeBytes c = freeBytes d := by simp only [freeBytes, usedBytes, h]
  unfold queueEvent
  rw [hfree]
  split
  · rw [reportHalts_link, reportHalts_link, queueRecord_link_congr h]
  · simp only [h]

theorem queueEvents_link_congr {c d : Chip} (h : c.link = d.link) (es : List Event) :
    (es.foldl (fun b e => queueEvent e b) c).link = (es.foldl (fun b e => queueEvent e b) d).link := by
  induction es generalizing c d with
  | nil => exact h
  | cons e es ih => exact ih (queueEvent_link_congr h e)

/-- An event without room changes the events-lost indication alone (R181). -/
theorem queueEvent_of_full {e : Event} {c : Chip} (h : freeBytes c < 256) :
    queueEvent e c = { c with link := { c.link with eventsLost := true } } := if_neg (Nat.not_le.mpr h)

theorem queueEvent_lost_of_room {e : Event} {c : Chip} (h : 256 ≤ freeBytes c) : (queueEvent e c).link.eventsLost = c.link.eventsLost := by
  have hroom : Config.reportRoom ≤ freeBytes c := h
  unfold queueEvent
  rw [if_pos hroom, reportHalts_link]
  simp

theorem queueEvent_lost_of_full {e : Event} {c : Chip} (h : freeBytes c < 256) : (queueEvent e c).link.eventsLost = true := by
  rw [queueEvent_of_full h]

/-- An event that reports no halt changes the Page Link Interface alone. -/
theorem queueEvent_of_plain {e : Event} (hjam : ∀ ch r, e ≠ .jam ch r) (hopen : e ≠ .interlockOpen) (c : Chip) :
    queueEvent e c = { c with link := (queueEvent e c).link } := by
  obtain ⟨routes, link, h⟩ := queueEvent_eq e c
  have hroutes := queueEvent_routes hjam hopen c
  rw [h] at hroutes ⊢
  dsimp only at hroutes ⊢
  rw [hroutes]

theorem suspendErase_store_congr {c d : Chip} (h : c.store = d.store) :
    (suspendErase c).map Chip.store = (suspendErase d).map Chip.store := by
  unfold suspendErase
  rw [h]
  split
  · exact congrArg some h
  · split
    · exact congrArg some h
    · exact congrArg some h
    · split
      · simp [h]
      · rfl
    · simp [h]
    · rfl
    · rfl

theorem resumeErase_store_congr {c d : Chip} (h : c.store = d.store) : (resumeErase c).store = (resumeErase d).store := by
  unfold resumeErase
  rw [h]
  split
  · exact h
  · split <;> simp [h]

/-- What a grant does to the store goes by the store alone. -/
theorem grant_store_congr {c d : Chip} (h : c.store = d.store) : (grant c).store = (grant d).store := by
  have hresume := resumeErase_store_congr h
  have hsuspend := suspendErase_store_congr h
  unfold grant
  rw [h]
  generalize suspendErase c = x at hsuspend ⊢
  generalize suspendErase d = y at hsuspend ⊢
  split
  · exact h
  · split
    · split
      · exact h
      · split
        · rcases x with _ | x <;> rcases y with _ | y <;> simp at hsuspend ⊢ <;> simp [h, hsuspend]
        · rcases x with _ | x <;> rcases y with _ | y <;> simp at hsuspend ⊢ <;> simp [h, hsuspend]
        · exact hresume
    · rcases x with _ | x <;> rcases y with _ | y <;> simp at hsuspend ⊢ <;> simp [h, hsuspend]
    · exact hresume
    · exact h

/-! ## The arbiter: the fields of the store that it leaves -/

theorem suspendErase_store_eq {c d : Chip} (h : suspendErase c = some d) :
    ∃ e, d = { c with store := { c.store with erase := e } } := by
  unfold suspendErase at h
  split at h
  · cases h; exact ⟨_, rfl⟩
  · split at h
    · cases h; exact ⟨_, rfl⟩
    · cases h; exact ⟨_, rfl⟩
    · split at h
      · cases h; exact ⟨_, rfl⟩
      · cases h
    · cases h; exact ⟨_, rfl⟩
    · cases h
    · cases h

theorem resumeErase_store_eq (c : Chip) : ∃ e, resumeErase c = { c with store := { c.store with erase := e } } := by
  unfold resumeErase
  split
  · exact ⟨_, rfl⟩
  · split <;> exact ⟨_, rfl⟩

/-- All that a grant changes: the job that holds the flash, those that wait, the erase, and a LOCK ERASE that it begins (R109, R138). -/
theorem grant_store_eq (c : Chip) : ∃ op erase holder reads programs left, grant c = { c with store := { c.store with
    op := op, erase := erase, holder := holder, reads := reads, programs := programs, segLeft := left } } := by
  obtain ⟨e, hresume⟩ := resumeErase_store_eq c
  unfold grant
  split
  · exact ⟨_, _, _, _, _, _, rfl⟩
  · split
    · split
      · exact ⟨_, _, _, _, _, _, rfl⟩
      · split
        · split
          next h => obtain ⟨_, rfl⟩ := suspendErase_store_eq h; exact ⟨_, _, _, _, _, _, rfl⟩
          next => exact ⟨_, _, _, _, _, _, rfl⟩
        · split
          next h => obtain ⟨_, rfl⟩ := suspendErase_store_eq h; exact ⟨_, _, _, _, _, _, rfl⟩
          next => exact ⟨_, _, _, _, _, _, rfl⟩
        · rw [hresume]; exact ⟨_, _, _, _, _, _, rfl⟩
    · split
      next h => obtain ⟨_, rfl⟩ := suspendErase_store_eq h; exact ⟨_, _, _, _, _, _, rfl⟩
      next => exact ⟨_, _, _, _, _, _, rfl⟩
    · rw [hresume]; exact ⟨_, _, _, _, _, _, rfl⟩
    · exact ⟨_, _, _, _, _, _, rfl⟩

@[simp] theorem grant_store_frame (c : Chip) :
    (grant c).store.scanKind = c.store.scanKind ∧ (grant c).store.usable = c.store.usable ∧
    (grant c).store.scanned = c.store.scanned ∧ (grant c).store.abandoned = c.store.abandoned ∧
    (grant c).store.blocks = c.store.blocks ∧ (grant c).store.dir = c.store.dir ∧ (grant c).store.nextId = c.store.nextId ∧
    (grant c).store.nextCreation = c.store.nextCreation ∧ (grant c).store.erasedList = c.store.erasedList ∧
    (grant c).store.eraseQueue = c.store.eraseQueue ∧ (grant c).store.programFault = c.store.programFault ∧
    (grant c).store.eraseFault = c.store.eraseFault ∧ (grant c).store.sequenceFault = c.store.sequenceFault ∧
    (grant c).store.protectionFault = c.store.protectionFault ∧ (grant c).store.work = c.store.work ∧
    (grant c).store.lane = c.store.lane ∧ (grant c).store.reloc = c.store.reloc ∧ (grant c).store.cursor = c.store.cursor ∧
    (grant c).store.reading = c.store.reading ∧ (grant c).store.retires = c.store.retires ∧ (grant c).store.setup = c.store.setup ∧
    (grant c).store.totalFault = c.store.totalFault := by
  obtain ⟨_, _, _, _, _, _, h⟩ := grant_store_eq c; simp [h]

@[simp] theorem askRead_store_frame (j : Job) (c : Chip) :
    (askRead j c).store.scanKind = c.store.scanKind ∧ (askRead j c).store.usable = c.store.usable ∧
    (askRead j c).store.scanned = c.store.scanned ∧ (askRead j c).store.abandoned = c.store.abandoned ∧
    (askRead j c).store.blocks = c.store.blocks ∧ (askRead j c).store.dir = c.store.dir ∧
    (askRead j c).store.nextId = c.store.nextId ∧ (askRead j c).store.nextCreation = c.store.nextCreation ∧
    (askRead j c).store.erasedList = c.store.erasedList ∧ (askRead j c).store.eraseQueue = c.store.eraseQueue ∧
    (askRead j c).store.programFault = c.store.programFault ∧ (askRead j c).store.eraseFault = c.store.eraseFault ∧
    (askRead j c).store.sequenceFault = c.store.sequenceFault ∧ (askRead j c).store.protectionFault = c.store.protectionFault ∧
    (askRead j c).store.work = c.store.work ∧ (askRead j c).store.lane = c.store.lane ∧ (askRead j c).store.reloc = c.store.reloc ∧
    (askRead j c).store.cursor = c.store.cursor ∧ (askRead j c).store.reading = c.store.reading ∧
    (askRead j c).store.retires = c.store.retires ∧ (askRead j c).store.setup = c.store.setup ∧
    (askRead j c).store.totalFault = c.store.totalFault := by
  simp [askRead]

@[simp] theorem askProgram_store_frame (j : Job) (c : Chip) :
    (askProgram j c).store.scanKind = c.store.scanKind ∧ (askProgram j c).store.usable = c.store.usable ∧
    (askProgram j c).store.scanned = c.store.scanned ∧ (askProgram j c).store.abandoned = c.store.abandoned ∧
    (askProgram j c).store.blocks = c.store.blocks ∧ (askProgram j c).store.dir = c.store.dir ∧
    (askProgram j c).store.nextId = c.store.nextId ∧ (askProgram j c).store.nextCreation = c.store.nextCreation ∧
    (askProgram j c).store.erasedList = c.store.erasedList ∧ (askProgram j c).store.eraseQueue = c.store.eraseQueue ∧
    (askProgram j c).store.programFault = c.store.programFault ∧ (askProgram j c).store.eraseFault = c.store.eraseFault ∧
    (askProgram j c).store.sequenceFault = c.store.sequenceFault ∧ (askProgram j c).store.protectionFault = c.store.protectionFault ∧
    (askProgram j c).store.work = c.store.work ∧ (askProgram j c).store.lane = c.store.lane ∧
    (askProgram j c).store.reloc = c.store.reloc ∧ (askProgram j c).store.cursor = c.store.cursor ∧
    (askProgram j c).store.reading = c.store.reading ∧ (askProgram j c).store.retires = c.store.retires ∧
    (askProgram j c).store.setup = c.store.setup ∧ (askProgram j c).store.totalFault = c.store.totalFault := by
  simp [askProgram]

@[simp] theorem freeFlash_store_frame (c : Chip) :
    (freeFlash c).store.scanKind = c.store.scanKind ∧ (freeFlash c).store.usable = c.store.usable ∧
    (freeFlash c).store.scanned = c.store.scanned ∧ (freeFlash c).store.abandoned = c.store.abandoned ∧
    (freeFlash c).store.blocks = c.store.blocks ∧ (freeFlash c).store.dir = c.store.dir ∧
    (freeFlash c).store.nextId = c.store.nextId ∧ (freeFlash c).store.nextCreation = c.store.nextCreation ∧
    (freeFlash c).store.erasedList = c.store.erasedList ∧ (freeFlash c).store.eraseQueue = c.store.eraseQueue ∧
    (freeFlash c).store.programFault = c.store.programFault ∧ (freeFlash c).store.eraseFault = c.store.eraseFault ∧
    (freeFlash c).store.sequenceFault = c.store.sequenceFault ∧ (freeFlash c).store.protectionFault = c.store.protectionFault ∧
    (freeFlash c).store.work = c.store.work ∧ (freeFlash c).store.lane = c.store.lane ∧ (freeFlash c).store.reloc = c.store.reloc ∧
    (freeFlash c).store.cursor = c.store.cursor ∧ (freeFlash c).store.reading = c.store.reading ∧
    (freeFlash c).store.retires = c.store.retires ∧ (freeFlash c).store.setup = c.store.setup ∧
    (freeFlash c).store.totalFault = c.store.totalFault := by
  simp [freeFlash]

@[simp] theorem dropRead_store_frame (j : Job) (c : Chip) :
    (dropRead j c).store.scanKind = c.store.scanKind ∧ (dropRead j c).store.usable = c.store.usable ∧
    (dropRead j c).store.scanned = c.store.scanned ∧ (dropRead j c).store.abandoned = c.store.abandoned ∧
    (dropRead j c).store.blocks = c.store.blocks ∧ (dropRead j c).store.dir = c.store.dir ∧
    (dropRead j c).store.nextId = c.store.nextId ∧ (dropRead j c).store.nextCreation = c.store.nextCreation ∧
    (dropRead j c).store.erasedList = c.store.erasedList ∧ (dropRead j c).store.eraseQueue = c.store.eraseQueue ∧
    (dropRead j c).store.programFault = c.store.programFault ∧ (dropRead j c).store.eraseFault = c.store.eraseFault ∧
    (dropRead j c).store.sequenceFault = c.store.sequenceFault ∧ (dropRead j c).store.protectionFault = c.store.protectionFault ∧
    (dropRead j c).store.work = c.store.work ∧ (dropRead j c).store.lane = c.store.lane ∧ (dropRead j c).store.reloc = c.store.reloc ∧
    (dropRead j c).store.cursor = c.store.cursor ∧ (dropRead j c).store.reading = c.store.reading ∧
    (dropRead j c).store.retires = c.store.retires ∧ (dropRead j c).store.setup = c.store.setup ∧
    (dropRead j c).store.totalFault = c.store.totalFault := by
  unfold dropRead; dsimp only; split <;> simp [withdraw]

@[simp] theorem dropChunk_store_frame (c : Chip) :
    (dropChunk c).store.scanKind = c.store.scanKind ∧ (dropChunk c).store.usable = c.store.usable ∧
    (dropChunk c).store.scanned = c.store.scanned ∧ (dropChunk c).store.abandoned = c.store.abandoned ∧
    (dropChunk c).store.blocks = c.store.blocks ∧ (dropChunk c).store.dir = c.store.dir ∧
    (dropChunk c).store.nextId = c.store.nextId ∧ (dropChunk c).store.nextCreation = c.store.nextCreation ∧
    (dropChunk c).store.erasedList = c.store.erasedList ∧ (dropChunk c).store.eraseQueue = c.store.eraseQueue ∧
    (dropChunk c).store.programFault = c.store.programFault ∧ (dropChunk c).store.eraseFault = c.store.eraseFault ∧
    (dropChunk c).store.sequenceFault = c.store.sequenceFault ∧ (dropChunk c).store.protectionFault = c.store.protectionFault ∧
    (dropChunk c).store.work = c.store.work ∧ (dropChunk c).store.lane = c.store.lane ∧ (dropChunk c).store.reloc = c.store.reloc ∧
    (dropChunk c).store.cursor = c.store.cursor ∧ (dropChunk c).store.reading = c.store.reading ∧
    (dropChunk c).store.retires = c.store.retires ∧ (dropChunk c).store.setup = c.store.setup ∧
    (dropChunk c).store.totalFault = c.store.totalFault := by
  unfold dropChunk; split <;> simp

/-- The jobs behind a grant are jobs that were there before it. -/
theorem grant_jobs (c : Chip) : (∀ j ∈ (grant c).store.reads, j ∈ c.store.reads) ∧ (∀ j ∈ (grant c).store.programs, j ∈ c.store.programs) ∧
    ∀ j, (grant c).store.holder = some j → c.store.holder = some j ∨ j ∈ c.store.reads ∨ j ∈ c.store.programs := by
  have hsame : (∀ j ∈ c.store.reads, j ∈ c.store.reads) ∧ (∀ j ∈ c.store.programs, j ∈ c.store.programs) ∧
      ∀ j, c.store.holder = some j → c.store.holder = some j ∨ j ∈ c.store.reads ∨ j ∈ c.store.programs :=
    ⟨fun _ h => h, fun _ h => h, fun _ h => .inl h⟩
  have hresume : (∀ j ∈ (resumeErase c).store.reads, j ∈ c.store.reads) ∧ (∀ j ∈ (resumeErase c).store.programs, j ∈ c.store.programs) ∧
      ∀ j, (resumeErase c).store.holder = some j → c.store.holder = some j ∨ j ∈ c.store.reads ∨ j ∈ c.store.programs := by
    obtain ⟨e, h⟩ := resumeErase_store_eq c
    rw [h]
    exact hsame
  unfold grant
  split
  · exact hsame
  · split
    · split
      · exact hsame
      · split
        next j rest hreads =>
          split
          next d h =>
            obtain ⟨_, rfl⟩ := suspendErase_store_eq h
            refine ⟨fun k hk => ?_, fun k hk => hk, fun k hk => ?_⟩
            · rw [hreads]; exact List.mem_cons_of_mem _ hk
            · cases hk; rw [hreads]; exact .inr (.inl List.mem_cons_self)
          next => exact hsame
        next j rest hreads hprograms =>
          split
          next d h =>
            obtain ⟨_, rfl⟩ := suspendErase_store_eq h
            refine ⟨fun k hk => hk, fun k hk => ?_, fun k hk => ?_⟩
            · rw [hprograms]; exact List.mem_cons_of_mem _ hk
            · cases hk; rw [hprograms]; exact .inr (.inr List.mem_cons_self)
          next => exact hsame
        · exact hresume
    · split
      next d h => obtain ⟨_, rfl⟩ := suspendErase_store_eq h; exact hsame
      next => exact hsame
    · exact hresume
    · exact hsame

/-! ## The three rules -/

def confirms : Instr → Bool
  | .confirm _ => true
  | _ => false

def asksStatus : Instr → Bool
  | .statusRequest _ _ _ => true
  | _ => false

def fetches : Instr → Bool
  | .bootFetch _ => true
  | _ => false

theorem confirms_eq_false {i : Instr} (h : ∀ p, i ≠ .confirm p) : confirms i = false := by
  unfold confirms
  split
  · exact absurd rfl (h _)
  · rfl

theorem asksStatus_eq_false {i : Instr} (h : ∀ p a b, i ≠ .statusRequest p a b) : asksStatus i = false := by
  unfold asksStatus
  split
  · exact absurd rfl (h _ _ _)
  · rfl

theorem fetches_eq_false {i : Instr} (h : ∀ p, i ≠ .bootFetch p) : fetches i = false := by
  unfold fetches
  split
  · exact absurd rfl (h _)
  · rfl

/-- The store behind the setup rule (R137). -/
def unsetStore (i : Instr) (c : Chip) : Store :=
  if c.store.setup = .none ∨ confirms i = true then c.store else { c.store with setup := .none, sequenceFault := true }

theorem setupRule_eq (i : Instr) (c : Chip) : setupRule i c = { c with store := unsetStore i c } := by
  unfold setupRule unsetStore confirms
  split
  · rw [if_pos (.inr rfl)]
  · by_cases h : c.store.setup = .none <;> simp [h]

theorem sleepRule_eq (i : Instr) (c : Chip) : sleepRule i c =
    if c.power.state = .sleepPending ∧ asksStatus i = false then
      queueEvent (.sleepCancelled .directive) { c with power := { c.power with state := .run, wakeTimer := 0 } }
    else c := by
  unfold sleepRule asksStatus cancelSleep
  split <;> simp

theorem servingRule_eq (i : Instr) (c : Chip) : servingRule i c =
    if c.boot.state = .serving ∧ fetches i = false then endServing c else c := by
  unfold servingRule fetches
  split <;> simp

/-- The pending report's event, where there is one (R171). -/
def pendingEvents (c : Chip) : List Event := match c.boot.report with | some x => [x.event] | none => []

theorem pendingEvent_plain (x : PendingReport) : (∀ ch r, x.event ≠ .jam ch r) ∧ x.event ≠ .interlockOpen := by
  cases x <;> simp [PendingReport.event]

theorem queuePending_eq (c : Chip) : queuePending c = { c with
    link := ((pendingEvents c).foldl (fun d e => queueEvent e d) c).link, boot := { c.boot with report := none } } := by
  unfold queuePending pendingEvents
  cases hx : c.boot.report with
  | some x =>
    dsimp only
    rw [queueEvent_of_plain (pendingEvent_plain x).1 (pendingEvent_plain x).2]
    congr 1
    exact queueEvent_link_congr (by rfl) _
  | none =>
    simp only [List.foldl_nil]
    rw [← hx]

/-- Serving ends (R170): the boot state, the chunk and the pending report, the read of the chunk, and the records. -/
theorem endServing_eq (c : Chip) : endServing c = { c with
    store := (dropChunk c).store
    boot := { c.boot with state := .complete, chunk := none, report := none }
    link := ((.bootComplete true :: pendingEvents c).foldl (fun d e => queueEvent e d) c).link } := by
  obtain ⟨st, hdrop⟩ := dropChunk_eq c
  unfold endServing
  rw [queuePending_eq, queueEvent_of_plain (by simp) (by simp), hdrop]
  simp only [pendingEvents, List.foldl_cons]
  congr 1
  refine queueEvents_link_congr ?_ _
  dsimp only
  exact queueEvent_link_congr (by rfl) _

/-- The waiting jobs but the reads of the image (R109). -/
def withoutImageRead (st : Store) : Store :=
  { st with reads := st.reads.filter (· ≠ .imageRead), programs := st.programs.filter (· ≠ .imageRead) }

theorem withdraw_imageRead (c : Chip) : (withdraw (· == .imageRead) c).store = withoutImageRead c.store := by
  have hf : ∀ l : List Job, (l.filter fun j => !(j == .imageRead)) = l.filter (· ≠ .imageRead) := fun l =>
    List.filter_congr fun j _ => by rw [decide_not]; rfl
  simp only [withdraw, withoutImageRead, hf]

theorem dropChunk_store_none {c : Chip} (h : c.boot.chunk = none) : (dropChunk c).store = c.store := by
  unfold dropChunk
  rw [h]

theorem dropChunk_store_waits {c : Chip} (h : c.boot.chunk ≠ none) (hh : c.store.holder ≠ some .imageRead) :
    (dropChunk c).store = withoutImageRead c.store := by
  unfold dropChunk
  split
  · unfold dropRead
    dsimp only
    split
    next hk => exact absurd hk hh
    next => exact withdraw_imageRead _
  next hn => exact absurd hn h

theorem dropChunk_store_holds {c : Chip} (h : c.boot.chunk ≠ none) (hh : c.store.holder = some .imageRead) :
    (dropChunk c).store = (grant { c with store := { withoutImageRead c.store with holder := none } }).store := by
  unfold dropChunk
  split
  · unfold dropRead freeFlash
    dsimp only
    split
    next =>
      refine grant_store_congr ?_
      dsimp only
      rw [withdraw_imageRead]
    next hk => exact absurd hh hk
  next hn => exact absurd hn h

/-- The store behind the three rules. -/
def ruledStore (i : Instr) (c : Chip) : Store :=
  if c.boot.state = .serving ∧ fetches i = false then (dropChunk { c with store := unsetStore i c }).store else unsetStore i c

/-- The events that the three rules queue, in order. -/
def ruledEvents (i : Instr) (c : Chip) : List Event :=
  (if c.power.state = .sleepPending ∧ asksStatus i = false then [.sleepCancelled .directive] else []) ++
    (if c.boot.state = .serving ∧ fetches i = false then .bootComplete true :: pendingEvents c else [])

theorem dropChunk_store_congr {c d : Chip} (h : c.store = d.store) (hb : c.boot.chunk = d.boot.chunk) :
    (dropChunk c).store = (dropChunk d).store := by
  by_cases hn : c.boot.chunk = none
  · rw [dropChunk_store_none hn, dropChunk_store_none (hb ▸ hn), h]
  · by_cases hh : c.store.holder = some .imageRead
    · rw [dropChunk_store_holds hn hh, dropChunk_store_holds (hb ▸ hn) (h ▸ hh)]
      exact grant_store_congr (by simp only [h])
    · rw [dropChunk_store_waits hn hh, dropChunk_store_waits (hb ▸ hn) (h ▸ hh), h]

/-- The three rules in one equation: what a directive leaves of what they watch, and nothing else changed. -/
theorem streamRules_eq (i : Instr) (c : Chip) : streamRules i c = { c with
    power := if c.power.state = .sleepPending ∧ asksStatus i = false then { c.power with state := .run, wakeTimer := 0 } else c.power
    boot := if c.boot.state = .serving ∧ fetches i = false then { c.boot with state := .complete, chunk := none, report := none } else c.boot
    store := ruledStore i c
    link := ((ruledEvents i c).foldl (fun d e => queueEvent e d) c).link } := by
  have hsleep : sleepRule i (setupRule i c) = { c with
      power := if c.power.state = .sleepPending ∧ asksStatus i = false then { c.power with state := .run, wakeTimer := 0 } else c.power
      store := unsetStore i c
      link := ((if c.power.state = .sleepPending ∧ asksStatus i = false then [Event.sleepCancelled .directive] else []).foldl
        (fun d e => queueEvent e d) c).link } := by
    rw [sleepRule_eq, setupRule_eq]
    dsimp only
    split
    · rw [queueEvent_of_plain (by simp) (by simp)]
      simp only [List.foldl_cons, List.foldl_nil]
      congr 1
      exact queueEvent_link_congr (by rfl) _
    · rfl
  unfold streamRules
  rw [servingRule_eq, hsleep]
  dsimp only
  unfold ruledStore ruledEvents
  split
  · rw [endServing_eq, List.foldl_append]
    dsimp only [pendingEvents]
    congr 1
    · exact dropChunk_store_congr rfl rfl
    · exact queueEvents_link_congr (by rfl) _
  · rw [List.append_nil]

/-! ## What the rules leave -/

theorem unsetStore_setup {i : Instr} (h : confirms i = false) (c : Chip) : (unsetStore i c).setup = .none := by
  unfold unsetStore
  split
  next k => exact k.resolve_right (by simp [h])
  next => rfl

theorem unsetStore_fault {i : Instr} (h : confirms i = false) {c : Chip} (hc : c.store.setup ≠ .none) :
    (unsetStore i c).sequenceFault = true := by
  unfold unsetStore
  rw [if_neg (by simp [h, hc])]

theorem ruledStore_frame (i : Instr) (c : Chip) : (ruledStore i c).setup = (unsetStore i c).setup ∧
    (ruledStore i c).sequenceFault = (unsetStore i c).sequenceFault := by
  unfold ruledStore
  split <;> simp

theorem unsetStore_frame (i : Instr) (c : Chip) : (unsetStore i c).blocks = c.store.blocks ∧ (unsetStore i c).dir = c.store.dir ∧
    (unsetStore i c).holder = c.store.holder := by
  unfold unsetStore
  split <;> exact ⟨rfl, rfl, rfl⟩

/-- Without room the events that end serving set events lost, once for all (R181). -/
theorem queueEvents_of_full {es : List Event} {c : Chip} (h : freeBytes c < 256) (hes : es ≠ []) :
    (es.foldl (fun d e => queueEvent e d) c).link = { c.link with eventsLost := true } := by
  induction es generalizing c with
  | nil => exact absurd rfl hes
  | cons e es ih =>
    simp only [List.foldl_cons]
    rw [queueEvent_of_full h]
    by_cases hn : es = []
    · subst hn; rfl
    · exact ih h hn

theorem bootComplete_size : (Report.event (.bootComplete true)).size ≤ 8 := by decide

/-- With 264 bytes free BOOT COMPLETE leaves room for the pending report. -/
theorem serving_reports {c : Chip} (h : 264 ≤ freeBytes c) :
    ((Event.bootComplete true :: pendingEvents c).foldl (fun d e => queueEvent e d) c).link.reports =
        c.link.reports ++ .event (.bootComplete true) :: (pendingEvents c).map .event ∧
      ((Event.bootComplete true :: pendingEvents c).foldl (fun d e => queueEvent e d) c).link.eventsLost = c.link.eventsLost := by
  have hroom : 256 ≤ freeBytes c := by omega
  have hfirst : (queueEvent (.bootComplete true) c).link.reports = c.link.reports ++ [.event (.bootComplete true)] :=
    queueEvent_reports_of_room hroom
  have hnext : 256 ≤ freeBytes (queueEvent (.bootComplete true) c) := by
    rw [freeBytes_of_append hfirst]
    have hsize := bootComplete_size
    simp only [List.map_cons, List.map_nil, List.sum_cons, List.sum_nil]
    omega
  simp only [List.foldl_cons]
  unfold pendingEvents
  split
  next x _ =>
    simp only [List.foldl_cons, List.foldl_nil, List.map_cons, List.map_nil]
    rw [queueEvent_reports_of_room hnext, queueEvent_lost_of_room hnext, hfirst, queueEvent_lost_of_room hroom]
    simp
  next =>
    simp only [List.foldl_nil, List.map_nil]
    exact ⟨hfirst, queueEvent_lost_of_room hroom⟩

/-- Where BOOT COMPLETE leaves less than 256 bytes, the pending report is lost. -/
theorem serving_reports_tight {c : Chip} (hroom : 256 ≤ freeBytes c) (htight : freeBytes c < 256 + (Report.event (.bootComplete true)).size) (hreport : c.boot.report.isSome = true) :
    ((Event.bootComplete true :: pendingEvents c).foldl (fun d e => queueEvent e d) c).link.reports =
        c.link.reports ++ [.event (.bootComplete true)] ∧
      ((Event.bootComplete true :: pendingEvents c).foldl (fun d e => queueEvent e d) c).link.eventsLost = true := by
  obtain ⟨x, hx⟩ := Option.isSome_iff_exists.mp hreport
  have hfirst : (queueEvent (.bootComplete true) c).link.reports = c.link.reports ++ [.event (.bootComplete true)] :=
    queueEvent_reports_of_room hroom
  have hfull : freeBytes (queueEvent (.bootComplete true) c) < 256 := by
    rw [freeBytes_of_append hfirst]
    have hsize := bootComplete_size
    simp only [List.map_cons, List.map_nil, List.sum_cons, List.sum_nil]
    omega
  simp only [pendingEvents, hx, List.foldl_cons, List.foldl_nil]
  exact ⟨(queueEvent_reports_of_full hfull).trans hfirst, queueEvent_lost_of_full hfull⟩

/-- A withdrawn image read neither waits nor holds the flash (R109). -/
theorem dropChunk_imageRead {c : Chip} (h : c.boot.chunk ≠ none) :
    Job.imageRead ∉ (dropChunk c).store.reads ∧ (dropChunk c).store.holder ≠ some .imageRead := by
  by_cases hh : c.store.holder = some .imageRead
  · rw [dropChunk_store_holds h hh]
    obtain ⟨hreads, -, hholder⟩ := grant_jobs { c with store := { withoutImageRead c.store with holder := none } }
    refine ⟨fun k => ?_, fun k => ?_⟩
    · exact absurd (hreads _ k) (by simp [withoutImageRead])
    · rcases hholder _ k with k | k | k
      · cases k
      · exact absurd k (by simp [withoutImageRead])
      · exact absurd k (by simp [withoutImageRead])
  · rw [dropChunk_store_waits h hh]
    exact ⟨by simp [withoutImageRead], hh⟩

/-- Settles O20, by the equation of the three rules together. -/
theorem streamRulesWatchEveryDirective : Obligations.StreamRulesWatchEveryDirective := by
  unfold Obligations.StreamRulesWatchEveryDirective
  intro i c
  have hrules := streamRules_eq i c
  obtain ⟨hsetup, hfault⟩ := ruledStore_frame i c
  obtain ⟨hblocks, hdir, hholder⟩ := unsetStore_frame i c
  refine ⟨fun h => ⟨?_, fun hc => ?_⟩, fun h => ?_, fun h => ?_, fun h => streamRules_quiet h i, ?_, ?_, ?_⟩
  · rw [hrules]; exact hsetup.trans (unsetStore_setup (confirms_eq_false h) c)
  · rw [hrules]; exact hfault.trans (unsetStore_fault (confirms_eq_false h) hc)
  · rw [hrules]
    dsimp only
    rw [asksStatus_eq_false h]
    split
    · simp
    next k => simpa using k
  · rw [hrules]
    dsimp only
    rw [fetches_eq_false h]
    split
    · simp
    next k => simpa using k
  · intro h hpending hserving
    have hcancels : c.power.state = .sleepPending ∧ asksStatus i = false := ⟨hpending, asksStatus_eq_false h⟩
    have hends : ¬(c.boot.state = .serving ∧ fetches i = false) := fun k => hserving k.1
    rw [hrules]
    simp only [ruledStore, ruledEvents, if_pos hcancels, if_neg hends, List.append_nil, List.foldl_cons, List.foldl_nil]
    exact ⟨trivial, rfl, trivial, fun hroom => ⟨queueEvent_reports_of_room hroom, queueEvent_lost_of_room hroom⟩,
      fun hfull => by rw [queueEvent_of_full hfull], trivial⟩
  · intro h hserving hpending
    have hcancels : ¬(c.power.state = .sleepPending ∧ asksStatus i = false) := fun k => hpending k.1
    have hends : c.boot.state = .serving ∧ fetches i = false := ⟨hserving, fetches_eq_false h⟩
    rw [hrules]
    simp only [ruledStore, ruledEvents, if_neg hcancels, if_pos hends, List.nil_append]
    refine ⟨trivial, trivial, fun hroom => ?_, fun hfull => queueEvents_of_full hfull (List.cons_ne_nil _ _), fun hnone => ?_, fun hsome => ?_⟩
    · obtain ⟨hreports, hlost⟩ := serving_reports hroom
      refine ⟨hreports.trans ?_, hlost⟩
      unfold pendingEvents
      cases c.boot.report <;> rfl
    · exact ⟨dropChunk_store_none hnone, trivial⟩
    · obtain ⟨hreads, hholds⟩ := dropChunk_imageRead (c := { c with store := unsetStore i c }) hsome
      exact ⟨hreads, hholds, by simp [hblocks], by simp [hdir], trivial⟩
  · rw [hrules]
    refine ⟨rfl, rfl, ?_, fun hends => ?_, fun hends hsome hother => ?_, fun hends hsome hholds => ?_,
      fun hends hcancels hreport hroom htight => ?_, rfl⟩
    · rfl
    · show ruledStore i c = unsetStore i c
      unfold ruledStore
      split
      next k =>
        rcases hends with hnot | hnone
        · exact absurd k hnot
        · exact dropChunk_store_none hnone
      next => rfl
    · show ruledStore i c = withoutImageRead (unsetStore i c)
      unfold ruledStore
      rw [if_pos (show c.boot.state = .serving ∧ fetches i = false from hends)]
      exact dropChunk_store_waits hsome (by dsimp only; rw [hholder]; exact hother)
    · show ruledStore i c = (grant { c with store := { withoutImageRead (unsetStore i c) with holder := none } }).store
      unfold ruledStore
      rw [if_pos (show c.boot.state = .serving ∧ fetches i = false from hends)]
      exact dropChunk_store_holds hsome (by dsimp only; rw [hholder]; exact hholds)
    · show ((ruledEvents i c).foldl (fun d e => queueEvent e d) c).link.reports = _ ∧
        ((ruledEvents i c).foldl (fun d e => queueEvent e d) c).link.eventsLost = true
      unfold ruledEvents
      rw [if_pos (show c.boot.state = .serving ∧ fetches i = false from hends),
        if_neg (show ¬(c.power.state = .sleepPending ∧ asksStatus i = false) from hcancels), List.nil_append]
      exact serving_reports_tight hroom htight hreport

end Sys2Proof.Proofs
end

section
/-!
PROOFS. Statements that fail of a part no run reaches: INTERLOCK OPEN with more than four routes, a REARM behind which the store meets STORE
FULL, an erase queue with a block number above 63.
-/

-- One declaration after another: the package as one text keeps within the check's limit on threads.
set_option Elab.async false

namespace Sys2Proof.Proofs

open Sys2Proof Sys2Proof.Machine

/-! ## INTERLOCK OPEN (R63, R181) -/

/-- A context with a source and sinks, its queues empty. -/
def bareCtx (source : Source) (sinks : List Sink) : Ctx :=
  { source := source, sinks := sinks, quota := 2, period := 0, steps := 2, encoding := none, scanP := none, printP := none,
    storeP := none, pages := [], readIdx := 0, readLine := 0, stalls := [], halt := none, closeReq := false, begun := true,
    linesDone := 0, repairedLines := 0, creditGranted := none, storePage := none, reservations := [], hold := [], printQ := [],
    linkQ := [], storeQ := [], full := none, partialNext := false, marks := 0 }

/-- A part with nine routes, each with a line in a print run-out, and 300 bytes free upstream. -/
def nineRoutes : Chip :=
  { State.reset.chip with
    routes := List.replicate 9 { Route.closed with ctx := some (bareCtx .link []) }
    runOut := some ⟨0, (List.range 9).map fun n => ⟨n, 0, false⟩⟩
    pool := { slots := (List.range 9).map fun n => .held n 1 [], freeList := [] }
    link := { State.reset.chip.link with reports := [.padded 0x83 209] } }

/-- Refutes O54: at a trip the slots of the run-out return first, and with nine LINK routes their nine CREDITs leave less than 256 of 300
bytes free, so that INTERLOCK OPEN is discarded. The manual has four routes; the statement asks for every state. -/
theorem not_interlockAndPaper : ¬ Obligations.InterlockAndPaper := by
  unfold Obligations.InterlockAndPaper
  rintro ⟨htrip, -⟩
  have hlost : Report.event .interlockOpen ∉ (tripChip nineRoutes).link.reports := by decide +kernel
  have hroom : 300 ≤ freeBytes nineRoutes := by decide +kernel
  obtain ⟨t, ht, -, -, -, -, -, -, -, -, -, hopen, -⟩ := htrip { State.reset with chip := nineRoutes } rfl
  have hexec (s u : State) (h : exec .interlockTrip s = .next u) : u.chip = tripChip s.chip := by
    injection h with hs
    rw [← hs]
    rfl
  exact hlost (hexec _ _ ht ▸ (hopen hroom).1)

/-! ## REARM (R66, R116) -/

/-- A part whose route 0 waits for a sheet, HALTED (JAM) with the halt reported, with a line on its store queue and no creation sequence left
for a page. -/
def haltedWaiting : State :=
  { State.reset with chip := { State.reset.chip with
      routes := [{ ctx := some { bareCtx .scan [.store] with halt := some .jam, storeQ := [.line ⟨0, 0, false⟩] }
                   pagesDone := 0, overrun := false, haltReported := true }]
      scan := { State.reset.chip.scan with state := .waiting, route := some 0 }
      store := { State.reset.chip.store with nextCreation := 4294967296 }
      boot := { State.reset.chip.boot with state := .complete }
      link := { State.reset.chip.link with selected := true } } }

/-- Refutes O27: behind a REARM the store sink takes its entry, finds no page to create, and its STORE FULL requests the close, which ends the
scan source from WAITING: the scan state is not as it was. -/
theorem not_rearmEndsAReportedHalt : ¬ Obligations.RearmEndsAReportedHalt := by
  unfold Obligations.RearmEndsAReportedHalt
  intro h
  obtain ⟨hended, -⟩ := h [7, 0] 0 { bareCtx .scan [.store] with halt := some .jam, storeQ := [.line ⟨0, 0, false⟩] } haltedWaiting
    (by decide +kernel) rfl (by decide) (by decide) (by decide +kernel)
  obtain ⟨t, ht, -, -, -, -, -, -, hscan, -⟩ := hended rfl (by decide +kernel) (by decide)
  have hstate : t.chip = rearmChip [7, 0] (streamRules (.rearm [7, 0]) haltedWaiting.chip) := by
    have hexec : exec (.rearm [7, 0]) haltedWaiting = .next (haltedWaiting.withChip
        (rearmChip [7, 0] (streamRules (.rearm [7, 0]) haltedWaiting.chip))) :=
      exec_owned rfl (by decide +kernel) (by decide)
    rw [hexec] at ht
    injection ht with hs
    exact congrArg State.chip hs.symm
  have hmoved : (rearmChip [7, 0] (streamRules (.rearm [7, 0]) haltedWaiting.chip)).scan.state ≠ ScanState.waiting := by decide +kernel
  have hkept := hscan rfl (by decide +kernel) (by decide +kernel) (by decide +kernel)
  rw [hstate] at hkept
  exact hmoved (congrArg Capture.state hkept |>.trans (by decide +kernel))

/-! ## The erase queue after a scan at a wake (R128) -/

/-- A part at a wake, its erase queue with the number of no block. -/
def strayQueue : Chip := { State.reset.chip with store := { State.reset.chip.store with scanKind := .wake, eraseQueue := [64] } }

/-- Refutes O43: at a wake the scan keeps of the former erase queue the blocks that it finds spent, which are below 64, while the statement
keeps a number above too, the blank entry that `blockAt` gives for it being DAMAGED. -/
theorem not_scanReadsTheHeaders : ¬ Obligations.ScanReadsTheHeaders := by
  unfold Obligations.ScanReadsTheHeaders
  rintro ⟨-, -, -, -, -, hfound⟩
  obtain ⟨-, -, -, -, -, -, -, -, -, hwake⟩ := hfound Flash.blank strayQueue
  have hdropped : 64 ∉ (scanTables Flash.blank strayQueue).store.eraseQueue := by decide +kernel
  have hspent : (blockAt (scanTables Flash.blank strayQueue) 64).state = .damaged := by decide +kernel
  apply hdropped
  rw [(hwake rfl).1]
  apply List.mem_append_left
  rw [List.mem_filter]
  exact ⟨by decide, by rw [hspent]; rfl⟩

end Sys2Proof.Proofs
end

section
/-!
PROOFS. What the movement of lines touches of the part (01_line_pool_and_routes.md 1.1, 1.6): the pool, the routes, and of the Page Link
Interface the report queue with events lost and the attention pulse.
-/

-- One declaration after another: the package as one text keeps within the check's limit on threads.
set_option Elab.async false

namespace Sys2Proof.Proofs

open Sys2Proof Sys2Proof.Machine

/-! ## The relation -/

/-- The part `t` is the part `c` with lines moved: another pool, other routes, and records queued. -/
def Lined (c t : Chip) : Prop := ∃ pool routes reports lost atnLeft,
  t = { c with pool := pool, routes := routes, link := { c.link with reports := reports, eventsLost := lost, atnLeft := atnLeft } }

theorem Lined.rfl {c : Chip} : Lined c c := ⟨c.pool, c.routes, c.link.reports, c.link.eventsLost, c.link.atnLeft, Eq.refl _⟩

theorem Lined.trans {a b c : Chip} (h : Lined a b) (k : Lined b c) : Lined a c := by
  obtain ⟨_, _, _, _, _, rfl⟩ := h
  obtain ⟨_, _, _, _, _, rfl⟩ := k
  exact ⟨_, _, _, _, _, Eq.refl _⟩

theorem Lined.frame {c t : Chip} (h : Lined c t) :
    t.pins = c.pins ∧ t.runOut = c.runOut ∧ t.scan = c.scan ∧ t.tables = c.tables ∧ t.scanCh = c.scanCh ∧ t.printCh = c.printCh ∧
    t.head = c.head ∧ t.heat = c.heat ∧ t.linkIn = c.linkIn ∧ t.linkOut = c.linkOut ∧ t.store = c.store ∧ t.prot = c.prot ∧
    t.power = c.power ∧ t.boot = c.boot ∧ t.link.parser = c.link.parser ∧ t.link.held = c.link.held ∧ t.link.pulseMode = c.link.pulseMode ∧
    t.link.selected = c.link.selected ∧ t.link.listing = c.link.listing ∧ t.link.up = c.link.up ∧ t.link.sent = c.link.sent ∧
    t.link.cut = c.link.cut := by
  obtain ⟨_, _, _, _, _, rfl⟩ := h
  simp only [and_self]

/-- A fold of operations that each move lines alone. -/
theorem Lined.fold {α : Type} {f : Chip → α → Chip} (h : ∀ c x, Lined c (f c x)) (xs : List α) (c : Chip) :
    Lined c (xs.foldl f c) := by
  induction xs generalizing c with
  | nil => exact .rfl
  | cons x xs ih => exact (h c x).trans (ih (f c x))

/-! ## The operations on routes, slots and reports -/

theorem modCtx_lined (r : Nat) (f : Ctx → Ctx) (c : Chip) : Lined c (modCtx r f c) := by
  obtain ⟨_, h⟩ := modCtx_eq r f c
  rw [h]
  exact ⟨_, _, _, _, _, rfl⟩

theorem setRoute_lined (r : Nat) (x : Route) (c : Chip) : Lined c (setRoute r x c) := ⟨_, _, _, _, _, rfl⟩

theorem haltRoute_lined (r : Nat) (x : Halt) (c : Chip) : Lined c (haltRoute r x c) := by
  obtain ⟨_, h⟩ := haltRoute_eq r x c
  rw [h]
  exact ⟨_, _, _, _, _, rfl⟩

theorem queueEvent_lined (e : Event) (c : Chip) : Lined c (queueEvent e c) := by
  obtain ⟨_, _, _, _, h⟩ := queueEvent_link_eq e c
  rw [h]
  exact ⟨_, _, _, _, _, rfl⟩

theorem setSlot_lined (n : Nat) (x : Slot) (c : Chip) : Lined c (setSlot n x c) := by
  obtain ⟨_, h⟩ := setSlot_eq n x c
  rw [h]
  exact ⟨_, _, _, _, _, rfl⟩

theorem syncCredit_lined (r : Nat) (c : Chip) : Lined c (syncCredit r c) := by
  obtain ⟨_, _, _, h⟩ := syncCredit_eq r c
  rw [h]
  exact ⟨_, _, _, _, _, rfl⟩

theorem returnSlot_lined (n : Nat) (c : Chip) : Lined c (returnSlot n c) := by
  obtain ⟨_, _, _, _, h⟩ := returnSlot_eq n c
  rw [h]
  exact ⟨_, _, _, _, _, rfl⟩

theorem returnSlots_lined (ns : List Nat) (c : Chip) : Lined c (returnSlots ns c) := Lined.fold (fun c n => returnSlot_lined n c) ns c

theorem dropReference_lined (n : Nat) (c : Chip) : Lined c (dropReference n c) := by
  obtain ⟨_, _, _, _, h⟩ := dropReference_eq n c
  rw [h]
  exact ⟨_, _, _, _, _, rfl⟩

theorem returnReservations_lined (r : Nat) (c : Chip) : Lined c (returnReservations r c) := by
  obtain ⟨_, _, _, _, h⟩ := returnReservations_eq r c
  rw [h]
  exact ⟨_, _, _, _, _, rfl⟩

theorem takeSlot_lined {r n : Nat} {mk : Nat → Slot} {c t : Chip} (h : takeSlot r mk c = some (n, t)) : Lined c t := by
  unfold takeSlot at h
  split at h
  · cases h
  · split at h
    · split at h
      · cases h
      next k rest _ =>
        injection h with h
        rw [Prod.mk.injEq] at h
        obtain ⟨-, rfl⟩ := h
        exact Lined.trans ⟨_, _, _, _, _, rfl⟩ (syncCredit_lined r { c with pool := { slots := c.pool.slots.set k (mk r), freeList := rest } })
    · cases h

/-! ## Entries on their way -/

theorem enterQueues_lined (r : Nat) (e : Entry) (c : Chip) : Lined c (enterQueues r e c) := by
  unfold enterQueues
  split
  · exact .rfl
  next x _ =>
    cases e with
    | line l => exact (modCtx_lined r (fun y => y.push (.line l)) c).trans (setSlot_lined _ _ _)
    | mark m => exact modCtx_lined r (fun y => y.push (.mark m)) c

theorem placeEntry_lined (r : Nat) (e : Entry) (c : Chip) : Lined c (placeEntry r e c) := by
  unfold placeEntry
  split
  · exact .rfl
  · split
    · exact enterQueues_lined r e c
    · exact modCtx_lined r _ c

theorem moveHold_lined (r : Nat) (es : List Entry) (c : Chip) : Lined c (moveHold r es c) := by
  induction es generalizing c with
  | nil => exact modCtx_lined r _ c
  | cons e es ih =>
    unfold moveHold
    split
    · exact .rfl
    · split
      · exact (enterQueues_lined r e c).trans (ih _)
      · exact modCtx_lined r _ c

theorem settleHold_lined (r : Nat) (c : Chip) : Lined c (settleHold r c) := by
  unfold settleHold
  split
  · exact .rfl
  · exact moveHold_lined r _ c

theorem pageEnd_lined (r : Nat) (cut : Bool) (c : Chip) : Lined c (pageEnd r cut c) := by
  unfold pageEnd
  split
  · exact .rfl
  · split
    · exact .rfl
    · exact (modCtx_lined r _ c).trans (placeEntry_lined r _ _)

/-- The context of a route with one line more on its page. -/
def countLine (repaired : Bool) (x : Ctx) : Ctx :=
  { x with linesDone := x.linesDone + 1, repairedLines := x.repairedLines + (if repaired then 1 else 0) }

/-- The part at a fill before its line is placed (R4): the slot filled, the line counted, PAGE START queued for a page's first line. -/
def countedFill (r n : Nat) (l : Line) (repaired : Bool) (x : Ctx) (c : Chip) : Chip :=
  let counted := modCtx r (countLine repaired) (setSlot n (.filling r (some l)) c)
  if x.linesDone = 0 then queueEvent (.pageStart r) counted else counted

/-- A fill of an open route: the line counted and placed, and a page end behind the 65,535th line. -/
theorem fillComplete_open {r : Nat} {x : Ctx} {c : Chip} (h : ctxOf c r = some x) (n : Nat) (l : Line) (repaired : Bool) :
    fillComplete r n l repaired c =
      let placed := placeEntry r (.line ⟨n, x.linesDone, repaired⟩) (countedFill r n l repaired x c)
      if x.linesDone + 1 = 65535 then pageEnd r true placed else placed := by
  unfold fillComplete countedFill
  rw [h]
  rfl

theorem countedFill_lined (r n : Nat) (l : Line) (repaired : Bool) (x : Ctx) (c : Chip) :
    Lined c (countedFill r n l repaired x c) := by
  have hcounted := (setSlot_lined n (.filling r (some l)) c).trans (modCtx_lined r (countLine repaired) _)
  unfold countedFill
  dsimp only
  split
  · exact hcounted.trans (queueEvent_lined _ _)
  · exact hcounted

theorem fillComplete_lined (r n : Nat) (l : Line) (repaired : Bool) (c : Chip) : Lined c (fillComplete r n l repaired c) := by
  cases h : ctxOf c r with
  | none =>
    unfold fillComplete
    rw [h]
    exact returnSlot_lined n c
  | some x =>
    have hplaced := (countedFill_lined r n l repaired x c).trans (placeEntry_lined r (.line ⟨n, x.linesDone, repaired⟩) _)
    rw [fillComplete_open h]
    dsimp only
    split
    · exact hplaced.trans (pageEnd_lined r true _)
    · exact hplaced

theorem dropHead_lined (k : Sink) (r : Nat) (c : Chip) : Lined c (dropHead k r c) := by
  unfold dropHead
  split
  · exact .rfl
  · split
    · exact ((modCtx_lined r _ c).trans (dropReference_lined _ _)).trans (settleHold_lined r _)
    · exact .rfl

/-- The context of a route whose mark has left the queue of a sink, the copies on the other queues as the sink leaves them (R15). -/
def leaveMark (k : Sink) (m : Mark) (rest : List Entry) (x : Ctx) : Ctx :=
  let y := x.setQueue k rest
  { y with printQ := putMark m y.printQ, linkQ := putMark m y.linkQ, storeQ := putMark m y.storeQ }

/-- The last sink has served a mark (R15): PAGE DONE, and pages done one higher. -/
def pageDone (r : Nat) (m : Mark) (c : Chip) : Chip :=
  let told := queueEvent (.pageDone r m.lines m.repaired m.truncated m.isPartial m.pageId) c
  setRoute r { getRoute told r with pagesDone := min 65535 ((getRoute told r).pagesDone + 1) } told

/-- A mark served by a sink of an open route. -/
theorem serveMark_of_mark {k : Sink} {r : Nat} {x : Ctx} {m : Mark} {rest : List Entry} {c : Chip} (h : ctxOf c r = some x)
    (hq : x.queue k = .mark m :: rest) (f : Mark → Mark) : serveMark k r f c =
      settleHold r (if (x.sinks.filter (· ≠ k)).any (fun j => hasMark m.tag (x.queue j)) then modCtx r (leaveMark k (f m) rest) c
        else pageDone r (f m) (modCtx r (leaveMark k (f m) rest) c)) := by
  unfold serveMark
  rw [h]
  dsimp only
  rw [hq]
  rfl

theorem pageDone_lined (r : Nat) (m : Mark) (c : Chip) : Lined c (pageDone r m c) :=
  (queueEvent_lined _ _).trans (setRoute_lined r _ _)

theorem serveMark_lined (k : Sink) (r : Nat) (f : Mark → Mark) (c : Chip) : Lined c (serveMark k r f c) := by
  cases h : ctxOf c r with
  | none =>
    unfold serveMark
    rw [h]
    exact .rfl
  | some x =>
    cases hq : x.queue k with
    | nil =>
      unfold serveMark
      rw [h]
      dsimp only
      rw [hq]
      exact .rfl
    | cons e rest =>
      cases e with
      | line l =>
        unfold serveMark
        rw [h]
        dsimp only
        rw [hq]
        exact .rfl
      | mark m =>
        have hleft := modCtx_lined r (leaveMark k (f m) rest) c
        rw [serveMark_of_mark h hq]
        split
        · exact hleft.trans (settleHold_lined r _)
        · exact (hleft.trans (pageDone_lined r _ _)).trans (settleHold_lined r _)

theorem takeReservations_lined (r n : Nat) (c : Chip) : Lined c (takeReservations r n c) := by
  induction n generalizing c with
  | zero => exact .rfl
  | succ n ih =>
    unfold takeReservations
    split
    · exact .rfl
    next k t htake => exact ((takeSlot_lined htake).trans (modCtx_lined r _ t)).trans (ih _)

theorem reserveFor_lined (r k : Nat) (c : Chip) : Lined c (reserveFor r k c).1 := takeReservations_lined r _ c

/-! ## The fields that stand -/

@[simp] theorem enterQueues_frame (r : Nat) (e : Entry) (c : Chip) :
    (enterQueues r e c).pins = c.pins ∧ (enterQueues r e c).runOut = c.runOut ∧ (enterQueues r e c).scan = c.scan ∧
    (enterQueues r e c).tables = c.tables ∧ (enterQueues r e c).scanCh = c.scanCh ∧ (enterQueues r e c).printCh = c.printCh ∧
    (enterQueues r e c).head = c.head ∧ (enterQueues r e c).heat = c.heat ∧ (enterQueues r e c).linkIn = c.linkIn ∧
    (enterQueues r e c).linkOut = c.linkOut ∧ (enterQueues r e c).store = c.store ∧ (enterQueues r e c).prot = c.prot ∧
    (enterQueues r e c).power = c.power ∧ (enterQueues r e c).boot = c.boot ∧ (enterQueues r e c).link.parser = c.link.parser ∧
    (enterQueues r e c).link.held = c.link.held ∧ (enterQueues r e c).link.pulseMode = c.link.pulseMode ∧
    (enterQueues r e c).link.selected = c.link.selected ∧ (enterQueues r e c).link.listing = c.link.listing ∧
    (enterQueues r e c).link.up = c.link.up ∧ (enterQueues r e c).link.sent = c.link.sent ∧
    (enterQueues r e c).link.cut = c.link.cut :=
  (enterQueues_lined r e c).frame

@[simp] theorem placeEntry_frame (r : Nat) (e : Entry) (c : Chip) :
    (placeEntry r e c).pins = c.pins ∧ (placeEntry r e c).runOut = c.runOut ∧ (placeEntry r e c).scan = c.scan ∧
    (placeEntry r e c).tables = c.tables ∧ (placeEntry r e c).scanCh = c.scanCh ∧ (placeEntry r e c).printCh = c.printCh ∧
    (placeEntry r e c).head = c.head ∧ (placeEntry r e c).heat = c.heat ∧ (placeEntry r e c).linkIn = c.linkIn ∧
    (placeEntry r e c).linkOut = c.linkOut ∧ (placeEntry r e c).store = c.store ∧ (placeEntry r e c).prot = c.prot ∧
    (placeEntry r e c).power = c.power ∧ (placeEntry r e c).boot = c.boot ∧ (placeEntry r e c).link.parser = c.link.parser ∧
    (placeEntry r e c).link.held = c.link.held ∧ (placeEntry r e c).link.pulseMode = c.link.pulseMode ∧
    (placeEntry r e c).link.selected = c.link.selected ∧ (placeEntry r e c).link.listing = c.link.listing ∧
    (placeEntry r e c).link.up = c.link.up ∧ (placeEntry r e c).link.sent = c.link.sent ∧
    (placeEntry r e c).link.cut = c.link.cut :=
  (placeEntry_lined r e c).frame

@[simp] theorem settleHold_frame (r : Nat) (c : Chip) :
    (settleHold r c).pins = c.pins ∧ (settleHold r c).runOut = c.runOut ∧ (settleHold r c).scan = c.scan ∧
    (settleHold r c).tables = c.tables ∧ (settleHold r c).scanCh = c.scanCh ∧ (settleHold r c).printCh = c.printCh ∧
    (settleHold r c).head = c.head ∧ (settleHold r c).heat = c.heat ∧ (settleHold r c).linkIn = c.linkIn ∧
    (settleHold r c).linkOut = c.linkOut ∧ (settleHold r c).store = c.store ∧ (settleHold r c).prot = c.prot ∧
    (settleHold r c).power = c.power ∧ (settleHold r c).boot = c.boot ∧ (settleHold r c).link.parser = c.link.parser ∧
    (settleHold r c).link.held = c.link.held ∧ (settleHold r c).link.pulseMode = c.link.pulseMode ∧
    (settleHold r c).link.selected = c.link.selected ∧ (settleHold r c).link.listing = c.link.listing ∧
    (settleHold r c).link.up = c.link.up ∧ (settleHold r c).link.sent = c.link.sent ∧
    (settleHold r c).link.cut = c.link.cut :=
  (settleHold_lined r c).frame

@[simp] theorem pageEnd_frame (r : Nat) (cut : Bool) (c : Chip) :
    (pageEnd r cut c).pins = c.pins ∧ (pageEnd r cut c).runOut = c.runOut ∧ (pageEnd r cut c).scan = c.scan ∧
    (pageEnd r cut c).tables = c.tables ∧ (pageEnd r cut c).scanCh = c.scanCh ∧ (pageEnd r cut c).printCh = c.printCh ∧
    (pageEnd r cut c).head = c.head ∧ (pageEnd r cut c).heat = c.heat ∧ (pageEnd r cut c).linkIn = c.linkIn ∧
    (pageEnd r cut c).linkOut = c.linkOut ∧ (pageEnd r cut c).store = c.store ∧ (pageEnd r cut c).prot = c.prot ∧
    (pageEnd r cut c).power = c.power ∧ (pageEnd r cut c).boot = c.boot ∧ (pageEnd r cut c).link.parser = c.link.parser ∧
    (pageEnd r cut c).link.held = c.link.held ∧ (pageEnd r cut c).link.pulseMode = c.link.pulseMode ∧
    (pageEnd r cut c).link.selected = c.link.selected ∧ (pageEnd r cut c).link.listing = c.link.listing ∧
    (pageEnd r cut c).link.up = c.link.up ∧ (pageEnd r cut c).link.sent = c.link.sent ∧
    (pageEnd r cut c).link.cut = c.link.cut :=
  (pageEnd_lined r cut c).frame

@[simp] theorem fillComplete_frame (r n : Nat) (l : Line) (repaired : Bool) (c : Chip) :
    (fillComplete r n l repaired c).pins = c.pins ∧ (fillComplete r n l repaired c).runOut = c.runOut ∧
    (fillComplete r n l repaired c).scan = c.scan ∧ (fillComplete r n l repaired c).tables = c.tables ∧
    (fillComplete r n l repaired c).scanCh = c.scanCh ∧ (fillComplete r n l repaired c).printCh = c.printCh ∧
    (fillComplete r n l repaired c).head = c.head ∧ (fillComplete r n l repaired c).heat = c.heat ∧
    (fillComplete r n l repaired c).linkIn = c.linkIn ∧ (fillComplete r n l repaired c).linkOut = c.linkOut ∧
    (fillComplete r n l repaired c).store = c.store ∧ (fillComplete r n l repaired c).prot = c.prot ∧
    (fillComplete r n l repaired c).power = c.power ∧ (fillComplete r n l repaired c).boot = c.boot ∧
    (fillComplete r n l repaired c).link.parser = c.link.parser ∧ (fillComplete r n l repaired c).link.held = c.link.held ∧
    (fillComplete r n l repaired c).link.pulseMode = c.link.pulseMode ∧ (fillComplete r n l repaired c).link.selected = c.link.selected ∧
    (fillComplete r n l repaired c).link.listing = c.link.listing ∧ (fillComplete r n l repaired c).link.up = c.link.up ∧
    (fillComplete r n l repaired c).link.sent = c.link.sent ∧
    (fillComplete r n l repaired c).link.cut = c.link.cut :=
  (fillComplete_lined r n l repaired c).frame

@[simp] theorem dropHead_frame (k : Sink) (r : Nat) (c : Chip) :
    (dropHead k r c).pins = c.pins ∧ (dropHead k r c).runOut = c.runOut ∧ (dropHead k r c).scan = c.scan ∧
    (dropHead k r c).tables = c.tables ∧ (dropHead k r c).scanCh = c.scanCh ∧ (dropHead k r c).printCh = c.printCh ∧
    (dropHead k r c).head = c.head ∧ (dropHead k r c).heat = c.heat ∧ (dropHead k r c).linkIn = c.linkIn ∧
    (dropHead k r c).linkOut = c.linkOut ∧ (dropHead k r c).store = c.store ∧ (dropHead k r c).prot = c.prot ∧
    (dropHead k r c).power = c.power ∧ (dropHead k r c).boot = c.boot ∧ (dropHead k r c).link.parser = c.link.parser ∧
    (dropHead k r c).link.held = c.link.held ∧ (dropHead k r c).link.pulseMode = c.link.pulseMode ∧
    (dropHead k r c).link.selected = c.link.selected ∧ (dropHead k r c).link.listing = c.link.listing ∧
    (dropHead k r c).link.up = c.link.up ∧ (dropHead k r c).link.sent = c.link.sent ∧
    (dropHead k r c).link.cut = c.link.cut :=
  (dropHead_lined k r c).frame

@[simp] theorem serveMark_frame (k : Sink) (r : Nat) (f : Mark → Mark) (c : Chip) :
    (serveMark k r f c).pins = c.pins ∧ (serveMark k r f c).runOut = c.runOut ∧ (serveMark k r f c).scan = c.scan ∧
    (serveMark k r f c).tables = c.tables ∧ (serveMark k r f c).scanCh = c.scanCh ∧ (serveMark k r f c).printCh = c.printCh ∧
    (serveMark k r f c).head = c.head ∧ (serveMark k r f c).heat = c.heat ∧ (serveMark k r f c).linkIn = c.linkIn ∧
    (serveMark k r f c).linkOut = c.linkOut ∧ (serveMark k r f c).store = c.store ∧ (serveMark k r f c).prot = c.prot ∧
    (serveMark k r f c).power = c.power ∧ (serveMark k r f c).boot = c.boot ∧ (serveMark k r f c).link.parser = c.link.parser ∧
    (serveMark k r f c).link.held = c.link.held ∧ (serveMark k r f c).link.pulseMode = c.link.pulseMode ∧
    (serveMark k r f c).link.selected = c.link.selected ∧ (serveMark k r f c).link.listing = c.link.listing ∧
    (serveMark k r f c).link.up = c.link.up ∧ (serveMark k r f c).link.sent = c.link.sent ∧
    (serveMark k r f c).link.cut = c.link.cut :=
  (serveMark_lined k r f c).frame

@[simp] theorem takeReservations_frame (r n : Nat) (c : Chip) :
    (takeReservations r n c).pins = c.pins ∧ (takeReservations r n c).runOut = c.runOut ∧ (takeReservations r n c).scan = c.scan ∧
    (takeReservations r n c).tables = c.tables ∧ (takeReservations r n c).scanCh = c.scanCh ∧
    (takeReservations r n c).printCh = c.printCh ∧ (takeReservations r n c).head = c.head ∧ (takeReservations r n c).heat = c.heat ∧
    (takeReservations r n c).linkIn = c.linkIn ∧ (takeReservations r n c).linkOut = c.linkOut ∧ (takeReservations r n c).store = c.store ∧
    (takeReservations r n c).prot = c.prot ∧ (takeReservations r n c).power = c.power ∧ (takeReservations r n c).boot = c.boot ∧
    (takeReservations r n c).link.parser = c.link.parser ∧ (takeReservations r n c).link.held = c.link.held ∧
    (takeReservations r n c).link.pulseMode = c.link.pulseMode ∧ (takeReservations r n c).link.selected = c.link.selected ∧
    (takeReservations r n c).link.listing = c.link.listing ∧ (takeReservations r n c).link.up = c.link.up ∧
    (takeReservations r n c).link.sent = c.link.sent ∧
    (takeReservations r n c).link.cut = c.link.cut :=
  (takeReservations_lined r n c).frame

end Sys2Proof.Proofs
end

section
/-!
PROOFS. The interlock trip (03_motor_timing.md R63) and what follows at once of a part without an open route (01_line_pool_and_routes.md R13).
-/

-- One declaration after another: the package as one text keeps within the check's limit on threads.
set_option Elab.async false

namespace Sys2Proof.Proofs

open Sys2Proof Sys2Proof.Machine

/-! ## A part without an open route -/

/-- Every route is CLOSED. -/
def AllClosed (c : Chip) : Prop := ∀ r, ctxOf c r = none

theorem AllClosed.congr {c t : Chip} (h : AllClosed c) (e : t.routes = c.routes) : AllClosed t := fun r => (ctxOf_congr e r).trans (h r)

theorem AllClosed.routesWhere {c : Chip} (h : AllClosed c) (p : Ctx → Bool) : routesWhere c p = [] := by
  unfold Machine.routesWhere
  rw [List.filter_eq_nil_iff]
  intro r _
  simp only [h r, Bool.false_eq_true, not_false_eq_true]

theorem AllClosed.routeOfSink {c : Chip} (h : AllClosed c) (k : Sink) : routeOfSink c k = none := by
  unfold Machine.routeOfSink
  rw [h.routesWhere]
  rfl

theorem pageEnd_closed {c : Chip} (h : AllClosed c) (r : Nat) (cut : Bool) : pageEnd r cut c = c := by
  unfold pageEnd
  rw [h r]

theorem returnReservations_closed {c : Chip} (h : AllClosed c) (r : Nat) : returnReservations r c = c := by
  unfold returnReservations
  rw [h r]

/-- With no route open a pump finds the load target again and does nothing else. -/
theorem pump_closed {c : Chip} (h : AllClosed c) (r : Nat) : pump r c = refreshLoad c := by
  have hstore : storePump r c = c := by
    unfold storePump
    rw [h r]
  have hlink : linkPump c = c := by
    unfold linkPump
    rw [h.routeOfSink]
    split <;> first | contradiction | rfl
  have hclose : closeIfEmpty r (refreshLoad c) = refreshLoad c := by
    obtain ⟨_, _, hload⟩ := refreshLoad_eq c
    unfold closeIfEmpty
    rw [h.congr (t := refreshLoad c) (by rw [hload]) r]
  rw [pump, hstore, hlink, hclose]

/-- What follows at once with no route open: the load target and the motor supply's request. -/
theorem settleAll_closed {c : Chip} (h : AllClosed c) : ∃ shift left motor, settleAll c =
    { c with head := { c.head with shift := shift, loadLeft := left }, power := { c.power with motor := motor } } := by
  have hfold (ns : List Nat) : ∀ d, AllClosed d → ∃ shift left,
      ns.foldl (fun c r => pump r c) d = { d with head := { d.head with shift := shift, loadLeft := left } } := by
    induction ns with
    | nil => exact fun d _ => ⟨d.head.shift, d.head.loadLeft, rfl⟩
    | cons n ns ih =>
      intro d hd
      obtain ⟨_, _, hload⟩ := refreshLoad_eq d
      obtain ⟨_, _, hrest⟩ := ih (refreshLoad d) (hd.congr (by rw [hload]))
      rw [List.foldl_cons, pump_closed hd, hrest, hload]
      exact ⟨_, _, rfl⟩
  obtain ⟨_, _, hpumps⟩ := hfold routeNumbers c h
  unfold settleAll
  rw [hpumps]
  exact ⟨_, _, _, rfl⟩

/-! ## A trip before INTERLOCK OPEN -/

/-- The channels and the head tripped, a print run-out ended. -/
def tripStart (c : Chip) : Chip :=
  tripHead (endRunOut { c with scanCh := c.scanCh.trip, printCh := { c.printCh.trip with linePos := 0 } })

/-- The routes that use SCAN or PRINT halted too. -/
def tripHalted (c : Chip) : Chip :=
  (routesWhere (tripStart c) Ctx.usesMotor).foldl (fun c r => haltRoute r .interlock c) (tripStart c)

/-- The capture discarded and the reservations returned too. -/
def tripDown (c : Chip) : Chip :=
  let d := discardCapture (tripHalted c)
  match d.scan.route with
  | some r => returnReservations r d
  | none => d

theorem trip_eq (c : Chip) : trip c = settleAll (queueEvent .interlockOpen (tripDown c)) := rfl

theorem dropHeadUse_frame (c : Chip) : (dropHeadUse c).scanCh = c.scanCh ∧ (dropHeadUse c).printCh = c.printCh ∧
    (dropHeadUse c).runOut = c.runOut ∧ (dropHeadUse c).scan = c.scan ∧ (dropHeadUse c).routes = c.routes ∧
    (dropHeadUse c).pool = c.pool ∧ (dropHeadUse c).link = c.link := by
  unfold dropHeadUse
  split
  · dsimp only
    split <;> exact ⟨rfl, rfl, rfl, rfl, rfl, rfl, rfl⟩
  · exact ⟨rfl, rfl, rfl, rfl, rfl, rfl, rfl⟩

theorem endRunOut_none {c : Chip} (h : c.runOut = none) : endRunOut c = c := by
  unfold endRunOut
  rw [h]

/-- The end of a run-out leaves the channels their motion and drive, and leaves no run-out. -/
theorem endRunOut_channels (c : Chip) : (endRunOut c).scanCh = c.scanCh ∧ (endRunOut c).printCh.motion = c.printCh.motion ∧
    (endRunOut c).printCh.drive = c.printCh.drive ∧ (endRunOut c).printCh.phase = c.printCh.phase ∧ (endRunOut c).runOut = none ∧
    (endRunOut c).scan = c.scan := by
  unfold endRunOut
  split
  next h => exact ⟨rfl, rfl, rfl, rfl, h, rfl⟩
  next ro _ =>
    obtain ⟨_, _, _, _, _, hdrops⟩ := Lined.fold (fun c (e : LineEntry) => dropReference_lined e.slot c) ro.entries { c with runOut := none }
    rw [hdrops]
    dsimp only [releasePrint, releaseHead, Channel.release]
    obtain ⟨hscan, hprint, hrun, hsheet, -⟩ := dropHeadUse_frame _
    rw [hscan, hprint, hrun, hsheet]
    exact ⟨rfl, rfl, rfl, rfl, rfl, rfl⟩

theorem refreshLoad_head (c : Chip) (head : Head) : ∃ loading, refreshLoad { c with head := head } = { c with head := loading } := by
  obtain ⟨_, _, hload⟩ := refreshLoad_eq { c with head := head }
  exact ⟨_, hload⟩

theorem tripHead_eq (c : Chip) : ∃ head, tripHead c = { c with head := head } := by
  unfold tripHead cutStrobe
  dsimp only
  exact refreshLoad_head c _

/-- The channels stand TRIPPED with drive OFF at the start of a trip, and no run-out is left. -/
theorem tripStart_channels (c : Chip) : (tripStart c).scanCh = c.scanCh.trip ∧ (tripStart c).printCh.motion = .tripped ∧
    (tripStart c).printCh.drive = .off ∧ (tripStart c).printCh.phase = c.printCh.phase ∧ (tripStart c).runOut = none ∧
    (tripStart c).scan = c.scan := by
  unfold tripStart
  obtain ⟨_, hhead⟩ := tripHead_eq (endRunOut { c with scanCh := c.scanCh.trip, printCh := { c.printCh.trip with linePos := 0 } })
  rw [hhead]
  exact endRunOut_channels _

theorem tripHalted_lined (c : Chip) : Lined (tripStart c) (tripHalted c) := Lined.fold (fun c r => haltRoute_lined r .interlock c) _ _

/-- A discarded capture moves lines and empties the capture. -/
theorem discardCapture_lined (c : Chip) :
    Lined { c with scan := { c.scan with capture := none, captureLeft := 0, pageEndDue := false } } (discardCapture c) := by
  unfold discardCapture
  dsimp only
  have hreturned : Lined { c with scan := { c.scan with capture := none, captureLeft := 0, pageEndDue := false } }
      (match c.scan.capture with
        | some (.keep n _) => returnSlot n { c with scan := { c.scan with capture := none, captureLeft := 0, pageEndDue := false } }
        | _ => { c with scan := { c.scan with capture := none, captureLeft := 0, pageEndDue := false } }) := by
    split
    · exact returnSlot_lined _ _
    · exact .rfl
  split
  · exact hreturned.trans (pageEnd_lined _ _ _)
  · exact hreturned

theorem tripDown_lined (c : Chip) :
    Lined { tripHalted c with scan := { (tripHalted c).scan with capture := none, captureLeft := 0, pageEndDue := false } } (tripDown c) := by
  unfold tripDown
  dsimp only
  split
  · exact (discardCapture_lined _).trans (returnReservations_lined _ _)
  · exact discardCapture_lined _

theorem tripDown_channels (c : Chip) : (tripDown c).scanCh = c.scanCh.trip ∧ (tripDown c).printCh.motion = .tripped ∧
    (tripDown c).printCh.drive = .off := by
  obtain ⟨hscan, hmotion, hdrive, -⟩ := tripStart_channels c
  obtain ⟨-, -, -, -, hscanDown, hprintDown, -⟩ := (tripDown_lined c).frame
  obtain ⟨-, -, -, -, hscanHalt, hprintHalt, -⟩ := (tripHalted_lined c).frame
  dsimp only at hscanDown hprintDown
  rw [hscanDown, hprintDown, hscanHalt, hprintHalt]
  exact ⟨hscan, hmotion, hdrive⟩

/-- A trip leaves both channels TRIPPED with drive OFF. -/
theorem trip_channels (c : Chip) : (trip c).scanCh.motion = .tripped ∧ (trip c).printCh.motion = .tripped ∧
    (trip c).scanCh.drive = .off ∧ (trip c).printCh.drive = .off := by
  rw [trip_eq]
  obtain ⟨⟨hscan, hprint, -⟩, -⟩ := settleAll_calm (w := queueEvent .interlockOpen (tripDown c)) .rfl
  obtain ⟨hdown, hmotion, hdrive⟩ := tripDown_channels c
  simp only [Channel.calm, Prod.mk.injEq, queueEvent_frame, hdown, hmotion, hdrive] at hscan hprint
  exact ⟨hscan.1, hprint.1, hscan.2.1, hprint.2.1⟩

/-! ## A trip with no route open -/

/-- With no route open, no run-out and no capture a trip queues INTERLOCK OPEN, and leaves pool, routes, scan and store. -/
theorem tripDown_closed {c : Chip} (h : AllClosed c) (hrun : c.runOut = none) (hcapture : c.scan.capture = none) :
    ∃ head captureLeft, tripDown c =
      { c with
        scanCh := c.scanCh.trip, printCh := { c.printCh.trip with linePos := 0 }, head := head
        scan := { c.scan with capture := none, captureLeft := captureLeft, pageEndDue := false } } := by
  obtain ⟨head, hhead⟩ := tripHead_eq { c with scanCh := c.scanCh.trip, printCh := { c.printCh.trip with linePos := 0 } }
  have hstart : tripStart c = { c with
      scanCh := c.scanCh.trip, printCh := { c.printCh.trip with linePos := 0 }, head := head } := by
    unfold tripStart
    rw [endRunOut_none (by exact hrun)]
    exact hhead
  have hopen : AllClosed (tripStart c) := h.congr (by rw [hstart])
  have hhalted : tripHalted c = tripStart c := by
    unfold tripHalted
    rw [hopen.routesWhere]
    rfl
  have hempty (d : Chip) (hd : AllClosed d) (hn : d.scan.capture = none) :
      discardCapture d = { d with scan := { d.scan with capture := none, captureLeft := 0, pageEndDue := false } } := by
    unfold discardCapture
    dsimp only
    rw [hn]
    dsimp only
    split
    · exact pageEnd_closed (hd.congr (by rfl)) _ _
    · rfl
  refine ⟨head, 0, ?_⟩
  unfold tripDown
  dsimp only
  rw [hhalted, hempty _ hopen (by rw [hstart]; exact hcapture), hstart]
  dsimp only
  split
  · exact returnReservations_closed (h.congr (by rfl)) _
  · rfl

end Sys2Proof.Proofs
end

section
/-!
PROOFS. The power commands (08_power_save.md): the wake and its steps, SLEEP and sleep entry, the wake inputs and DOCP.
-/

-- One declaration after another: the package as one text keeps within the check's limit on threads.
set_option Elab.async false

namespace Sys2Proof.Proofs

open Sys2Proof Sys2Proof.Machine

/-! ## Commands that touch the part alone -/

theorem exec_of_chip {i : Instr} {f : Chip → Chip} {s : State} {c : Chip} (he : exec i s = .next (s.onChip f)) (h : f s.chip = c) :
    exec i s = .next (s.withChip c) := by rw [he, onChip_eq_withChip h]

theorem exec_without_effect {i : Instr} {f : Chip → Chip} {s : State} (he : exec i s = .next (s.onChip f)) (h : f s.chip = s.chip) :
    exec i s = .next s := by rw [he, onChip_eq_self h]

/-! ## The wake (R158 to R161) -/

theorem exec_secondTick (s : State) : exec .secondTick s = .next (s.onChip secondChip) := rfl

theorem exec_wakeTimerExpiry (s : State) : exec .wakeTimerExpiry s = .next (s.onChip wakeTimerChip) := rfl

theorem exec_mainClockRunning (papp papx doce cover : Bool) (s : State) :
    exec (.mainClockRunning papp papx doce cover) s = .next (s.onChip (clockChip papp papx doce cover)) := rfl

theorem exec_wakingEnd (s : State) : exec .wakingEnd s = .next (s.onChip wakingEndChip) := rfl

/-- The part at the main clock, before an open cover trips it. -/
def clockedChip (papp papx doce cover : Bool) (c : Chip) : Chip :=
  { c with
    pins := { c.pins with papp := papp, papx := papx, doce := doce, cover := cover }
    head := { Head.default papp with band := c.head.band }
    scanCh := c.scanCh.wake
    printCh := c.printCh.wake
    power := { c.power with clockOn := true, clockLeft := 0, flashOn := true, hostOn := true, hostUp := 0 } }

theorem clockChip_waking {c : Chip} (h : c.power.state = .waking) (hc : c.power.clockOn = false) (papp papx doce cover : Bool) :
    clockChip papp papx doce cover c =
      if cover then clockedChip papp papx doce cover c else trip (clockedChip papp papx doce cover c) := by
  unfold clockChip clockedChip
  rw [if_pos ⟨h, hc⟩]

theorem clockChip_other {c : Chip} (h : c.power.state ≠ .waking) (papp papx doce cover : Bool) :
    clockChip papp papx doce cover c = c := if_neg fun k => h k.1

theorem wakingEndChip_due {c : Chip} {k : WakeCause} (h : c.power.state = .waking) (hc : c.power.clockOn = true)
    (hs : c.store.scanned = true) (ho : c.store.op ≠ .scanning) (hk : c.power.cause = some k) : wakingEndChip c = { c with
      power := { c.power with state := .run, wakeHold := false, sleepHold := false, cause := none, wakeTimer := 0,
                              hostUp := max c.power.hostUp 20000 },
      boot := { c.boot with report := some (.wakeCause k c.power.seconds) } } := by
  unfold wakingEndChip
  rw [if_pos ⟨h, hc, hs, ho⟩, hk]
  rfl

/-- A part with the backdrop of another. -/
theorem backdrop_parts {c t : Chip} (h : t.backdrop = c.backdrop) : t.loaded = c.loaded ∧ t.scanCh.phase = c.scanCh.phase ∧
    t.printCh.phase = c.printCh.phase ∧ pinsStill t.pins = pinsStill c.pins ∧ t.prot = c.prot ∧ t.boot = c.boot ∧
    t.power.still = c.power.still ∧ t.link.still = c.link.still := by
  simpa only [Chip.backdrop, Backdrop.mk.injEq] using h

theorem still_parts {p q : Power} (h : q.still = p.still) : q.state = p.state ∧ q.wakeTimer = p.wakeTimer ∧ q.clockOn = p.clockOn ∧
    q.flashOn = p.flashOn ∧ q.hostOn = p.hostOn ∧ q.pulseHold = p.pulseHold ∧ q.bootHold = p.bootHold ∧ q.wakeHold = p.wakeHold ∧
    q.sleepHold = p.sleepHold := by
  simp only [Power.still, Power.mk.injEq] at h
  simp only [h, and_self]

theorem pinsStill_parts {p q : Pins} (h : pinsStill q = pinsStill p) : q.cover = p.cover ∧ q.docp = p.docp ∧ q.papp = p.papp := by
  simp only [pinsStill, Pins.mk.injEq] at h
  simp only [h, and_self]

/-- A trip leaves the supplies, the clock and COVER as they are. -/
theorem trip_supplies (c : Chip) : (trip c).power.clockOn = c.power.clockOn ∧ (trip c).power.flashOn = c.power.flashOn ∧
    (trip c).power.hostOn = c.power.hostOn ∧ (trip c).pins.cover = c.pins.cover ∧ (trip c).loaded = c.loaded := by
  obtain ⟨hloaded, -, -, hpins, -, -, hpower, -⟩ := backdrop_parts (trip_kept (Kept.rfl (c := c))).1
  obtain ⟨-, -, hclock, hflash, hhost, -⟩ := still_parts hpower
  exact ⟨hclock, hflash, hhost, (pinsStill_parts hpins).1, hloaded⟩

/-- Settles O57, by the state of the Power Controller in which each step of the wake is taken. -/
theorem wakeRunsItsSteps : Obligations.WakeRunsItsSteps := by
  unfold Obligations.WakeRunsItsSteps
  refine ⟨fun s h => ⟨?_, fun ht hs => ?_, fun hor => ?_⟩, fun s h => ⟨?_, ?_⟩, fun papp papx doce s h hc => ⟨?_, ?_⟩,
    fun k s h hc hs ho hk => ?_, fun s h => ⟨?_, fun papp papx doce cover => ?_⟩⟩
  · exact exec_of_chip (exec_secondTick s) (if_pos h)
  · exact exec_of_chip (exec_wakeTimerExpiry s) (if_pos ⟨h, ht, hs⟩)
  · have hnot : ¬(s.chip.power.state = .sleep ∧ 0 < s.chip.power.wakeTimer ∧ s.chip.power.wakeTimer ≤ s.chip.power.seconds) := by
      omega
    exact exec_without_effect (exec_wakeTimerExpiry s) (if_neg hnot)
  · exact exec_without_effect (exec_secondTick s) (if_neg h)
  · exact exec_without_effect (exec_wakeTimerExpiry s) (if_neg fun k => h k.1)
  · exact exec_of_chip (exec_mainClockRunning papp papx doce true s) (clockChip_waking h hc _ _ _ _)
  · obtain ⟨hclock, hflash, hhost, hcover, hloaded⟩ := trip_supplies (clockedChip papp papx doce false s.chip)
    obtain ⟨hscan, hprint, -⟩ := trip_channels (clockedChip papp papx doce false s.chip)
    exact ⟨_, exec_of_chip (exec_mainClockRunning papp papx doce false s) (clockChip_waking h hc _ _ _ _),
      hclock, hflash, hhost, hcover, hscan, hprint, hloaded, rfl⟩
  · exact exec_of_chip (exec_wakingEnd s) (wakingEndChip_due h hc hs ho hk)
  · exact exec_without_effect (exec_wakingEnd s) (if_neg fun k => absurd (h.symm.trans k.1) (by decide))
  · exact exec_without_effect (exec_mainClockRunning papp papx doce cover s) (clockChip_other (by rw [h]; decide) _ _ _ _)

/-! ## SLEEP (R154) -/

/-- No route meets a condition where none below 4 does. -/
theorem routesWhere_eq_nil {c : Chip} {p : Ctx → Bool} : routesWhere c p = [] ↔ ∀ r x, r < 4 → ctxOf c r = some x → p x = false := by
  have hmem (r : Nat) : r ∈ routeNumbers ↔ r < 4 := List.mem_range
  unfold routesWhere
  rw [List.filter_eq_nil_iff]
  constructor
  · intro h r x hr hx
    have hnot := h r ((hmem r).mpr hr)
    rw [hx] at hnot
    exact Bool.eq_false_iff.mpr hnot
  · intro h r hr
    cases hx : ctxOf c r with
    | none => exact Bool.false_ne_true
    | some x => exact Bool.eq_false_iff.mp (h r x ((hmem r).mp hr) hx)

theorem anyOpen_iff (c : Chip) : (routesWhere c fun _ => true).isEmpty = false ↔ ∃ r, r < 4 ∧ (ctxOf c r).isSome = true := by
  rw [Bool.eq_false_iff, Ne, List.isEmpty_iff, routesWhere_eq_nil]
  constructor
  · intro h
    by_contra hnone
    exact h fun r x hr hx => absurd ⟨r, hr, hx ▸ rfl⟩ hnone
  · rintro ⟨r, hr, hsome⟩ h
    obtain ⟨x, hx⟩ := Option.isSome_iff_exists.mp hsome
    exact absurd (h r x hr hx) (by decide)

/-- SLEEP with its length. -/
def sleepTaken (p : List Byte) (c : Chip) : Chip :=
  if !(routesWhere c fun _ => true).isEmpty || c.runOut.isSome then refuse p .busy c
  else if numAt p 1 3 = 0 ∧ c.power.wake.all (fun e => !e.enable) = true then refuse p .limit c
  else reply p .accepted { c with power := { c.power with wakeTimer := numAt p 1 3, state := .sleepPending } }

theorem exec_sleep {p : List Byte} {s : State} (h : Taken s) (hp : p.length = 4) :
    exec (.sleep p) s = .next (s.withChip (sleepTaken p (streamRules (.sleep p) s.chip))) :=
  exec_owned_length (n := 3) (by rfl) h hp

theorem sleepTaken_busy {p : List Byte} {c : Chip} (h : (∃ r, r < 4 ∧ (ctxOf c r).isSome = true) ∨ c.runOut.isSome = true) :
    sleepTaken p c = refuse p .busy c := by
  apply if_pos
  rw [Bool.or_eq_true, Bool.not_eq_true', anyOpen_iff]
  exact h

theorem sleepTaken_free {p : List Byte} {c : Chip} (h : ∀ r, r < 4 → ctxOf c r = none) (hrun : c.runOut = none) : sleepTaken p c =
    if numAt p 1 3 = 0 ∧ c.power.wake.all (fun e => !e.enable) = true then refuse p .limit c
    else reply p .accepted { c with power := { c.power with wakeTimer := numAt p 1 3, state := .sleepPending } } := by
  apply if_neg
  rw [Bool.or_eq_true, Bool.not_eq_true', anyOpen_iff, hrun]
  rintro (⟨r, hr, hsome⟩ | hsome)
  · rw [h r hr] at hsome
    cases hsome
  · cases hsome

/-! ## The end of SERVICE and the host reset at sleep entry (R144, R149, R157) -/

/-- SERVICE ends, or an open window closes: around the page path and the Boot Server the service state alone changes. -/
theorem closeService_mild (s : State) : Mild (setService .normal s.chip) (closeService s).chip := by
  unfold closeService
  split
  · exact serviceOver_mild s
  · exact .rfl
  next h =>
    have hnormal : setService .normal s.chip = s.chip := by
      unfold setService
      rw [← h]
    rw [hnormal]
    exact .rfl

theorem closeService_flash {s : State} (h : s.chip.prot.service ≠ .service) : (closeService s).flash = s.flash := by
  unfold closeService
  split
  next k => exact absurd k h
  · rfl
  · rfl

/-- A mild change leaves what is around the page path and the Boot Server. -/
theorem Mild.parts {c t : Chip} (h : Mild c t) : t.loaded = c.loaded ∧ t.scanCh.phase = c.scanCh.phase ∧
    t.printCh.phase = c.printCh.phase ∧ t.prot = c.prot ∧ t.power.still = c.power.still := by
  unfold Mild surround at h
  simp only [Chip.backdrop, Backdrop.mk.injEq] at h
  obtain ⟨hloaded, hscan, hprint, -, hprot, -, hpower, -⟩ := h
  exact ⟨hloaded, hscan, hprint, hprot, hpower⟩

/-- A LINE record in part is discarded: the LINK-in lane is idle, and lines move. -/
theorem abandonLine_lined (c : Chip) : Lined { c with linkIn := .idle } (abandonLine c) := by
  unfold abandonLine
  split
  · exact (modCtx_lined _ _ _).trans (returnSlot_lined _ _)
  · exact .rfl

/-- What a host reset and sleep entry leave of a part: the tables, the phases, the Protection Unit, and the power block but for the requests. -/
structure Rested (c t : Chip) : Prop where
  loaded : t.loaded = c.loaded
  scanPhase : t.scanCh.phase = c.scanCh.phase
  printPhase : t.printCh.phase = c.printCh.phase
  prot : t.prot = c.prot
  state : t.power.state = c.power.state
  timer : t.power.wakeTimer = c.power.wakeTimer

theorem Rested.rfl {c : Chip} : Rested c c := ⟨Eq.refl _, Eq.refl _, Eq.refl _, Eq.refl _, Eq.refl _, Eq.refl _⟩

theorem Rested.trans {a b c : Chip} (h : Rested a b) (k : Rested b c) : Rested a c :=
  ⟨k.loaded.trans h.loaded, k.scanPhase.trans h.scanPhase, k.printPhase.trans h.printPhase, k.prot.trans h.prot,
    k.state.trans h.state, k.timer.trans h.timer⟩

theorem abandonLine_rested (c : Chip) : Rested c (abandonLine c) := by
  obtain ⟨_, _, _, _, _, h⟩ := abandonLine_lined c
  rw [h]
  exact ⟨rfl, rfl, rfl, rfl, rfl, rfl⟩

theorem enterHolding_rested (c : Chip) : Rested c (enterHolding c) ∧ (enterHolding c).boot.state = .holding ∧
    (enterHolding c).power = { c.power with bootHold := true } := by
  obtain ⟨_, h⟩ := dropChunk_eq c
  unfold enterHolding
  rw [h]
  exact ⟨⟨rfl, rfl, rfl, rfl, rfl, rfl⟩, rfl, rfl⟩

theorem linkHostReset_rested (c : Chip) : Rested c (linkHostReset c) ∧ (linkHostReset c).power = c.power := by
  obtain ⟨_, _, _, _, _, h⟩ := abandonLine_lined c
  unfold linkHostReset
  rw [h]
  exact ⟨⟨rfl, rfl, rfl, rfl, rfl, rfl⟩, rfl⟩

/-- A host reset of a part without a pending sleep. -/
theorem hostReset_rested {c : Chip} (h : c.power.state ≠ .sleepPending) :
    Rested c (hostReset c) ∧ (hostReset c).power = { c.power with bootHold := true } := by
  obtain ⟨hlink, hpower⟩ := linkHostReset_rested c
  have hcancel : cancelSleep .hostReset (linkHostReset c) = linkHostReset c := if_neg (by rw [hpower]; exact h)
  obtain ⟨hholding, -, hbits⟩ := enterHolding_rested (linkHostReset c)
  unfold hostReset
  rw [hcancel]
  exact ⟨hlink.trans hholding, by rw [hbits, hpower]⟩

/-- The part at the moment it enters SLEEP, SLEEP HOLD among its requests. -/
theorem asleep_rested (c : Chip) : Rested { c with power := { c.power with state := .sleep } } (asleep c) ∧
    (asleep c).boot.state = .holding ∧ (asleep c).power.sleepHold = true := by
  let slept : Chip := { c with power := { c.power with state := .sleep } }
  let held : Chip := { slept with power := { slept.power with sleepHold := true } }
  have hheld : Rested slept held := ⟨rfl, rfl, rfl, rfl, rfl, rfl⟩
  have hreset : Rested slept (addReset (fun c => { c with power := { c.power with sleepHold := true } }) slept) ∧
      (addReset (fun c => { c with power := { c.power with sleepHold := true } }) slept).power.sleepHold = true := by
    unfold addReset
    split
    · exact ⟨hheld, rfl⟩
    · obtain ⟨hrest, hpower⟩ := hostReset_rested (c := held) (fun k => nomatch k)
      exact ⟨hheld.trans hrest, by rw [hpower]⟩
  obtain ⟨hholding, hstate, hpower⟩ :=
    enterHolding_rested (addReset (fun c => { c with power := { c.power with sleepHold := true } }) slept)
  have habandon := abandonLine_rested (enterHolding (addReset (fun c => { c with power := { c.power with sleepHold := true } }) slept))
  obtain ⟨_, _, _, _, _, hlines⟩ :=
    abandonLine_lined (enterHolding (addReset (fun c => { c with power := { c.power with sleepHold := true } }) slept))
  have hlost (d : Chip) : Rested d (headContentLost d) := ⟨rfl, rfl, rfl, rfl, rfl, rfl⟩
  have hkept : (asleep c).boot.state = (enterHolding (addReset (fun c => { c with power := { c.power with sleepHold := true } }) slept)).boot.state ∧
      (asleep c).power = (enterHolding (addReset (fun c => { c with power := { c.power with sleepHold := true } }) slept)).power := by
    unfold asleep headContentLost
    rw [hlines]
    exact ⟨rfl, rfl⟩
  refine ⟨((hreset.1.trans hholding).trans habandon).trans (hlost _), hkept.1.trans hstate, ?_⟩
  rw [hkept.2, hpower]
  exact hreset.2

theorem Channel.sleep_frame (ch : Channel) : ch.sleep.phase = ch.phase ∧ ch.sleep.ramp = ch.ramp := by
  unfold Channel.sleep
  split <;> exact ⟨rfl, rfl⟩

/-- Sleep entry on the part (R157 steps 2 to 6). -/
theorem enterSleep_state (c : Chip) :
    let t := enterSleep c
    (t.power.state = .sleep ∧ t.power.clockOn = false ∧ t.power.flashOn = false ∧ t.power.hostOn = false ∧ t.power.lamp = .off ∧
      t.power.head = .off ∧ t.power.motor = .off ∧ t.power.sleepHold = true ∧ t.power.seconds = 0 ∧ t.power.ticks = 0 ∧
      t.power.wakeTimer = c.power.wakeTimer) ∧
    t.boot.state = .holding ∧ hrstnAsserted t = true ∧ t.prot = c.prot ∧ t.loaded = c.loaded ∧
    t.scanCh.phase = c.scanCh.phase ∧ t.printCh.phase = c.printCh.phase := by
  obtain ⟨hrest, hboot, hhold⟩ := asleep_rested c
  have heq : enterSleep c = { asleep c with
      link := { (asleep c).link with parser := .between, cut := none }
      scanCh := (asleep c).scanCh.sleep
      printCh := (asleep c).printCh.sleep
      store := { (asleep c).store with usable := false }
      power := { (asleep c).power with hostOn := false, flashOn := false, hostUp := 0, lamp := .off, head := .off, motor := .off,
                                       seconds := 0, ticks := 0, clockOn := false } } := rfl
  have hloaded := hrest.loaded
  dsimp only
  rw [heq]
  refine ⟨⟨hrest.state, rfl, rfl, rfl, rfl, rfl, rfl, hhold, rfl, rfl, hrest.timer⟩, hboot, ?_, hrest.prot, ?_, ?_, ?_⟩
  · unfold hrstnAsserted
    dsimp only
    rw [hhold, Bool.or_true]
  · simp only [Chip.loaded, Channel.sleep_frame] at hloaded ⊢
    exact hloaded
  · rw [(Channel.sleep_frame _).1]
    exact hrest.scanPhase
  · rw [(Channel.sleep_frame _).1]
    exact hrest.printPhase

/-! ## The conditions of sleep entry (R155) -/

theorem moving_eq_false (ch : Channel) : ch.moving = false ↔ ch.motion = .halted ∨ ch.motion = .tripped := by
  unfold Channel.moving
  cases ch.motion <;> decide

theorem storeState_idle {x : Store} (hj : x.holder = none) (he : x.erase = none) : storeState x = .idle ↔ x.op = .none := by
  unfold storeState
  rw [hj, he]
  cases x.op <;> simp

theorem sleepReady_iff (c : Chip) : sleepReady c = true ↔ c.power.state = .sleepPending ∧ c.store.op = .none ∧ c.store.holder = none ∧
    c.store.reads = [] ∧ c.store.programs = [] ∧ c.store.erase = none ∧ c.store.scanned = true ∧ c.boot.check = none ∧
    c.boot.install = none ∧ (c.scanCh.motion = .halted ∨ c.scanCh.motion = .tripped) ∧
    (c.printCh.motion = .halted ∨ c.printCh.motion = .tripped) ∧ c.link.reports = [] ∧ c.link.up = .idle ∧ c.link.held = none := by
  simp only [sleepReady, Bool.and_eq_true, decide_eq_true_eq, Option.isNone_iff_eq_none, List.isEmpty_iff, Bool.not_eq_true',
    moving_eq_false]
  constructor
  · rintro ⟨⟨⟨⟨⟨⟨⟨⟨⟨⟨⟨⟨⟨hstate, hidle⟩, hj⟩, hr⟩, hp⟩, he⟩, hscan⟩, hprint⟩, hs⟩, hcheck⟩, hinstall⟩, hreports⟩, hheld⟩, hup⟩
    exact ⟨hstate, (storeState_idle hj he).mp hidle, hj, hr, hp, he, hs, hcheck, hinstall, hscan, hprint, hreports, hup, hheld⟩
  · rintro ⟨hstate, ho, hj, hr, hp, he, hs, hcheck, hinstall, hscan, hprint, hreports, hup, hheld⟩
    exact ⟨⟨⟨⟨⟨⟨⟨⟨⟨⟨⟨⟨⟨hstate, (storeState_idle hj he).mpr ho⟩, hj⟩, hr⟩, hp⟩, he⟩, hscan⟩, hprint⟩, hs⟩, hcheck⟩, hinstall⟩, hreports⟩, hheld⟩, hup⟩

theorem exec_sleepEntry_ready {s : State} (h : sleepReady s.chip = true) :
    exec .sleepEntry s = .next ((closeService s).onChip enterSleep) := congrArg Host.Outcome.next (if_pos h)

/-- Settles O56, by the conditions of SLEEP, by what the end of SERVICE and the host reset leave, and by the reading of `sleepReady`. -/
theorem sleepIsEnteredWhenReady : Obligations.SleepIsEnteredWhenReady := by
  unfold Obligations.SleepIsEnteredWhenReady
  refine ⟨fun p s h hp => ⟨fun hbusy => ?_, fun hopen hrun => ⟨fun htimer hwake => ?_, fun hor => ?_⟩⟩, fun s h => ?_, fun s h => ?_,
    sleepReady_iff⟩
  · rw [exec_sleep h hp, sleepTaken_busy hbusy]
  · have hall : (streamRules (.sleep p) s.chip).power.wake.all (fun e => !e.enable) = true :=
      List.all_eq_true.mpr fun e he => by rw [hwake e he]; rfl
    rw [exec_sleep h hp, sleepTaken_free hopen hrun, if_pos ⟨htimer, hall⟩]
  · rw [exec_sleep h hp, sleepTaken_free hopen hrun, if_neg ?_]
    rintro ⟨htimer, hwake⟩
    rw [List.all_eq_true] at hwake
    rcases hor with hne | ⟨e, he, hon⟩
    · exact hne htimer
    · have hoff := hwake e he
      rw [hon] at hoff
      cases hoff
  · obtain ⟨hpower, hboot, hreset, hprot, hloaded, hscan, hprint⟩ := enterSleep_state (closeService s).chip
    obtain ⟨mloaded, mscan, mprint, mprot, mpower⟩ := (closeService_mild s).parts
    obtain ⟨-, mtimer, -⟩ := still_parts mpower
    refine ⟨_, exec_sleepEntry_ready h, ?_, hboot, hreset, hprot.trans mprot, hloaded.trans mloaded, hscan.trans mscan,
      hprint.trans mprint, fun hnot => closeService_flash hnot⟩
    obtain ⟨hstate, hclock, hflash, hhost, hlamp, hhead, hmotor, hhold, hseconds, hticks, htimer⟩ := hpower
    exact ⟨hstate, hclock, hflash, hhost, hlamp, hhead, hmotor, hhold, hseconds, hticks, htimer.trans mtimer⟩
  · exact congrArg Host.Outcome.next (if_neg (by rw [h]; decide))

end Sys2Proof.Proofs
end

section
/-!
PROOFS. The wake inputs and DOCP (08_power_save.md R150, R151, R159, 02_scan_path.md R26, R43).
-/

-- One declaration after another: the package as one text keeps within the check's limit on threads.
set_option Elab.async false

namespace Sys2Proof.Proofs

open Sys2Proof Sys2Proof.Machine

/-! ## A pin's level (R150) -/

/-- The part with the debounce record of a source changed. -/
def withDebounce (src : WakeSource) (d : Debounce) (c : Chip) : Chip :=
  { c with power := { c.power with sources := c.power.sources.set (sourceIndex src) d } }

/-- A pin takes a level, by its wake entry and its debounce record. -/
theorem pinChange_eq {src : WakeSource} {c : Chip} {e : WakeEntry} {d : Debounce} (he : c.power.wake[sourceIndex src]? = some e)
    (hd : c.power.sources[sourceIndex src]? = some d) (level : Bool) : pinChange src level c =
      if e.enable = false then c
      else if level = d.stable then withDebounce src { d with timing := none } c
      else if e.debounce = 0 then edgeTaken src e.rising level c
      else if d.timing.isSome then c
      else withDebounce src { d with timing := some (level, e.debounce * 33000) } c := by
  unfold pinChange
  rw [he, hd]
  rfl

/-- What a change of level comes to, case by case. -/
theorem pinChange_cases {src : WakeSource} {c : Chip} {e : WakeEntry} {d : Debounce} (he : c.power.wake[sourceIndex src]? = some e)
    (hd : c.power.sources[sourceIndex src]? = some d) (level : Bool) :
    (e.enable = false → pinChange src level c = c) ∧
    (e.enable = true → level = d.stable → pinChange src level c = withDebounce src { d with timing := none } c) ∧
    (e.enable = true → level ≠ d.stable → 0 < e.debounce → d.timing = none →
      pinChange src level c = withDebounce src { d with timing := some (level, e.debounce * 33000) } c) ∧
    (e.enable = true → level ≠ d.stable → 0 < e.debounce → d.timing.isSome = true → pinChange src level c = c) ∧
    (e.enable = true → level ≠ d.stable → e.debounce = 0 → pinChange src level c = edgeTaken src e.rising level c) := by
  have hon (h : e.enable = true) : ¬e.enable = false := by rw [h]; decide
  rw [pinChange_eq he hd]
  refine ⟨fun h => if_pos h, fun h hs => ?_, fun h hs hpos ht => ?_, fun h hs hpos ht => ?_, fun h hs hz => ?_⟩
  · rw [if_neg (hon h), if_pos hs]
  · rw [if_neg (hon h), if_neg hs, if_neg (Nat.pos_iff_ne_zero.mp hpos), if_neg (by rw [ht]; decide)]
  · rw [if_neg (hon h), if_neg hs, if_neg (Nat.pos_iff_ne_zero.mp hpos), if_pos ht]
  · rw [if_neg (hon h), if_neg hs, if_pos hz]

theorem wakeInputChip_eq (pin : SignalPin) (high : Bool) (c : Chip) :
    wakeInputChip pin high c = pinChange (pinSource pin) high { c with pins := setPin pin high c.pins } := by
  cases pin <;> rfl

theorem exec_wakeInputChange (pin : SignalPin) (high : Bool) (s : State) :
    exec (.wakeInputChange pin high) s = .next (s.onChip (wakeInputChip pin high)) := rfl

theorem exec_debounceExpiry (src : WakeSource) (s : State) :
    exec (.debounceExpiry src) s = .next (s.onChip (debounceChip src)) := rfl

theorem exec_docpChange (present : Bool) (s : State) : exec (.docpChange present) s = .next (s.onChip (docpChip present)) := rfl

/-! ## An edge (R151, R156, R159) -/

theorem edgeTaken_passive {rising level : Bool} (h : level ≠ rising) (src : WakeSource) (c : Chip) :
    edgeTaken src rising level c = withDebounce src ⟨level, none⟩ c := if_neg h

/-- An active edge, by the state of the Power Controller. -/
theorem edgeTaken_active (src : WakeSource) (level : Bool) (c : Chip) : edgeTaken src level level c =
    match c.power.state with
    | .sleep => wake (sourceCause src) (withDebounce src ⟨level, none⟩ c)
    | .sleepPending => queueEvent (sourceEvent src) (cancelSleep .signal (withDebounce src ⟨level, none⟩ c))
    | _ => queueEvent (sourceEvent src) (withDebounce src ⟨level, none⟩ c) := by
  unfold edgeTaken withDebounce
  rw [if_pos rfl] <;> rfl

/-- The event of a source reports no halt. -/
theorem sourceEvent_plain (src : WakeSource) : (∀ ch r, sourceEvent src ≠ .jam ch r) ∧ sourceEvent src ≠ .interlockOpen := by
  cases src <;> exact ⟨(by intros; nofun), (by nofun)⟩

/-- An active edge in SLEEP PENDING cancels the sleep first (R156). -/
theorem edgeTaken_pending {c : Chip} (h : c.power.state = .sleepPending) (src : WakeSource) (level : Bool) :
    (edgeTaken src level level c).power.state = .run ∧ (edgeTaken src level level c).power.wakeTimer = 0 ∧
      (300 ≤ freeBytes c → (edgeTaken src level level c).link.reports =
        c.link.reports ++ [.event (.sleepCancelled .signal), .event (sourceEvent src)]) := by
  let woken : Chip := { c with power := { (withDebounce src ⟨level, none⟩ c).power with state := .run, wakeTimer := 0 } }
  have hedge : edgeTaken src level level c = queueEvent (sourceEvent src) (queueEvent (.sleepCancelled .signal) woken) := by
    rw [edgeTaken_active, h]
    dsimp only
    rw [cancelSleep, if_pos (by exact h)]
    rfl
  rw [hedge]
  refine ⟨by simp [woken], by simp [woken], fun hroom => ?_⟩
  have hfirst : (queueEvent (.sleepCancelled .signal) woken).link.reports = c.link.reports ++ [.event (.sleepCancelled .signal)] :=
    queueEvent_reports_of_room (c := woken) (le_trans (by decide) hroom)
  have hleft : freeBytes (queueEvent (.sleepCancelled .signal) woken) = freeBytes c - 5 := freeBytes_of_append hfirst
  rw [queueEvent_reports_of_room (by rw [hleft]; exact Nat.le_sub_of_add_le (le_trans (by decide) hroom)), hfirst, List.append_assoc]
  rfl

/-- The pins, the pool, the routes and the scan state stand. -/
def Unmoved (c t : Chip) : Prop := t.pins = c.pins ∧ t.pool = c.pool ∧ t.routes = c.routes ∧ t.scan = c.scan

theorem queueEvent_unmoved {e : Event} (hjam : ∀ ch r, e ≠ .jam ch r) (hopen : e ≠ .interlockOpen) (c : Chip) :
    Unmoved c (queueEvent e c) := by
  rw [queueEvent_of_plain hjam hopen]
  exact ⟨rfl, rfl, rfl, rfl⟩

theorem edgeTaken_unmoved (src : WakeSource) (rising level : Bool) (c : Chip) : Unmoved c (edgeTaken src rising level c) := by
  by_cases h : level = rising
  · subst h
    obtain ⟨hjam, hopen⟩ := sourceEvent_plain src
    obtain ⟨ep, el, er, es⟩ := queueEvent_unmoved hjam hopen (withDebounce src ⟨level, none⟩ c)
    rw [edgeTaken_active]
    split
    · exact ⟨rfl, rfl, rfl, rfl⟩
    · have hcancel : Unmoved c (cancelSleep .signal (withDebounce src ⟨level, none⟩ c)) := by
        unfold cancelSleep
        split
        · have hq := queueEvent_unmoved (e := .sleepCancelled .signal) (by intros; nofun) (by nofun)
            { withDebounce src ⟨level, none⟩ c with
              power := { (withDebounce src ⟨level, none⟩ c).power with state := .run, wakeTimer := 0 } }
          exact hq
        · exact ⟨rfl, rfl, rfl, rfl⟩
      obtain ⟨ep, el, er, es⟩ := queueEvent_unmoved hjam hopen (cancelSleep .signal (withDebounce src ⟨level, none⟩ c))
      obtain ⟨kp, kl, kr, ks⟩ := hcancel
      exact ⟨ep.trans kp, el.trans kl, er.trans kr, es.trans ks⟩
    · exact ⟨ep, el, er, es⟩
  · rw [edgeTaken_passive h]
    exact ⟨rfl, rfl, rfl, rfl⟩

theorem pinChange_unmoved (src : WakeSource) (level : Bool) (c : Chip) : Unmoved c (pinChange src level c) := by
  cases he : c.power.wake[sourceIndex src]? with
  | none =>
    unfold pinChange
    rw [he]
    exact ⟨rfl, rfl, rfl, rfl⟩
  | some e =>
    cases hd : c.power.sources[sourceIndex src]? with
    | none =>
      unfold pinChange
      rw [he, hd]
      exact ⟨rfl, rfl, rfl, rfl⟩
    | some d =>
      rw [pinChange_eq he hd]
      split
      · exact ⟨rfl, rfl, rfl, rfl⟩
      · split
        · exact ⟨rfl, rfl, rfl, rfl⟩
        · split
          · exact edgeTaken_unmoved src e.rising level c
          · split <;> exact ⟨rfl, rfl, rfl, rfl⟩

/-! ## DOCP (R26, R43) -/

/-- The scan side of a DOCP change, where the main clock runs. -/
def docpSeen (present : Bool) (c : Chip) : Chip :=
  let pinned := { c with pins := { c.pins with docp := present } }
  if pinned.power.clockOn then docpScan pinned else pinned

theorem docpChip_eq (present : Bool) (c : Chip) : docpChip present c = pinChange .doc present (docpSeen present c) := rfl

theorem docpScan_other {c : Chip} (h : c.scan.state ≠ .waiting) : docpScan c = c := if_neg h

theorem docpScan_present {c : Chip} (h : c.scan.state = .waiting) (hd : c.pins.docp = true) : docpScan c = takeLamp c := by
  unfold docpScan
  rw [if_pos h, if_pos hd]

/-- A document that leaves in WAITING drops lamp use before the route's first pick. -/
theorem docpScan_absent {c : Chip} (h : c.scan.state = .waiting) (hd : c.pins.docp = false) : docpScan c =
    match c.scan.route.bind (ctxOf c) with
    | some x => if x.begun then c else dropLamp c
    | none => dropLamp c := by
  unfold docpScan
  rw [if_pos h, hd]
  rfl

/-- Whether the route that holds SCAN has begun. -/
def Picked (c : Chip) : Prop := ∃ r x, c.scan.route = some r ∧ ctxOf c r = some x ∧ x.begun = true

theorem docpScan_picked {c : Chip} (h : c.scan.state = .waiting) (hd : c.pins.docp = false) (hp : Picked c) : docpScan c = c := by
  obtain ⟨r, x, hr, hx, hb⟩ := hp
  rw [docpScan_absent h hd, hr, Option.bind_some, hx]
  exact if_pos hb

theorem docpScan_unpicked {c : Chip} (h : c.scan.state = .waiting) (hd : c.pins.docp = false) (hp : ¬Picked c) :
    docpScan c = dropLamp c := by
  rw [docpScan_absent h hd]
  split
  next x hx =>
    obtain ⟨r, hr, hctx⟩ := Option.bind_eq_some_iff.mp hx
    exact if_neg fun hb => hp ⟨r, x, hr, hctx, hb⟩
  · rfl

/-- The scan side of a DOCP change, case by case. -/
theorem docpSeen_cases (present : Bool) (c : Chip) :
    let pinned := { c with pins := { c.pins with docp := present } }
    (c.scan.state ≠ .waiting ∨ c.power.clockOn = false → docpSeen present c = pinned) ∧
    (c.scan.state = .waiting → c.power.clockOn = true → present = true → c.scan.lampUse = false → docpSeen present c =
      { pinned with scan := { c.scan with lampUse := true }, power := { c.power with lamp := c.power.lamp.request 10000 } }) ∧
    (c.scan.state = .waiting → c.power.clockOn = true → present = false → c.scan.lampUse = true → ¬Picked c → docpSeen present c =
      { pinned with scan := { c.scan with lampUse := false },
                    power := { c.power with lamp := c.power.lamp.release (c.power.holds.getD 1 0 * 10000) } }) ∧
    (c.scan.lampUse = present ∨ present = false ∧ Picked c → docpSeen present c = pinned) := by
  have hoff (h : c.power.clockOn = false) : docpSeen present c = { c with pins := { c.pins with docp := present } } :=
    if_neg (by rw [h]; decide)
  have hon (h : c.power.clockOn = true) : docpSeen present c = docpScan { c with pins := { c.pins with docp := present } } := if_pos h
  have htake (d : Chip) (h : d.scan.lampUse = true) : takeLamp d = d := if_pos h
  have hdrop (d : Chip) (h : d.scan.lampUse = false) : dropLamp d = d := if_neg (by rw [h]; decide)
  refine ⟨fun h => ?_, fun hw hc hp hl => ?_, fun hw hc hp hl hn => ?_, fun h => ?_⟩
  · cases hc : c.power.clockOn with
    | false => exact hoff hc
    | true => exact (hon hc).trans (docpScan_other (by exact h.resolve_right (by rw [hc]; decide)))
  · exact ((hon hc).trans (docpScan_present (by exact hw) (by exact hp))).trans (if_neg (by exact (by rw [hl]; decide)))
  · exact ((hon hc).trans (docpScan_unpicked (by exact hw) (by exact hp) (by exact hn))).trans (if_pos (by exact hl))
  · cases hc : c.power.clockOn with
    | false => exact hoff hc
    | true =>
      rw [hon hc]
      by_cases hw : c.scan.state = .waiting
      · cases present with
        | true =>
          exact (docpScan_present (by exact hw) rfl).trans (htake _ (by exact h.resolve_right fun k => nomatch k.1))
        | false =>
          by_cases hpick : Picked c
          · exact docpScan_picked (by exact hw) rfl (by exact hpick)
          · exact (docpScan_unpicked (by exact hw) rfl (by exact hpick)).trans (hdrop _ (by exact h.resolve_right fun k => hpick k.2))
      · exact docpScan_other (by exact hw)

/-- Outside the scan side a DOCP change leaves the part as it is but for the pin and the lamp. -/
theorem docpSeen_frame (present : Bool) (c : Chip) : (docpSeen present c).pins.docp = present ∧ (docpSeen present c).pool = c.pool ∧
    (docpSeen present c).routes = c.routes ∧ (c.scan.state ≠ .waiting → (docpSeen present c).scan = c.scan) ∧
    (c.scan.state = .waiting → c.power.clockOn = true → present = true → (docpSeen present c).scan.lampUse = true) ∧
    (docpSeen present c).power.wake = c.power.wake ∧ (docpSeen present c).power.sources = c.power.sources := by
  obtain ⟨hother, htakes, hdrops, hstands⟩ := docpSeen_cases present c
  by_cases hw : c.scan.state = .waiting ∧ c.power.clockOn = true
  · obtain ⟨hw, hc⟩ := hw
    by_cases hl : c.scan.lampUse = present ∨ present = false ∧ Picked c
    · rw [hstands hl]
      exact ⟨rfl, rfl, rfl, fun k => absurd hw k, fun _ _ hp => (hl.resolve_right fun k => absurd (hp.symm.trans k.1) (by decide)).trans hp, rfl, rfl⟩
    · cases present with
      | true =>
        rw [htakes hw hc rfl (Bool.eq_false_iff.mpr fun k => hl (.inl k))]
        exact ⟨rfl, rfl, rfl, fun k => absurd hw k, fun _ _ _ => rfl, rfl, rfl⟩
      | false =>
        rw [hdrops hw hc rfl ((Bool.not_eq_false _).mp fun k => hl (.inl k)) fun k => hl (.inr ⟨rfl, k⟩)]
        exact ⟨rfl, rfl, rfl, fun k => absurd hw k, fun _ _ hp => absurd hp (by decide), rfl, rfl⟩
  · have hnot : c.scan.state ≠ .waiting ∨ c.power.clockOn = false := by
      rw [not_and_or, Bool.not_eq_true] at hw
      exact hw
    rw [hother hnot]
    exact ⟨rfl, rfl, rfl, fun _ => rfl, fun h1 h2 _ => absurd ⟨h1, h2⟩ hw, rfl, rfl⟩

/-- Settles O58, by the wake entry and the debounce record of the source, and for DOCP by the scan state. -/
theorem wakeInputsAreDebounced : Obligations.WakeInputsAreDebounced := by
  unfold Obligations.WakeInputsAreDebounced
  refine ⟨fun pin high e d s he hd => ?_, fun src e d s he hd => ⟨fun level left hon ht => ?_, fun hor => ?_⟩,
    fun src rising level c => ⟨fun h => edgeTaken_passive h src c, ?_, ?_, ?_⟩, fun present s => ?_,
    fun present e d s he hd => ?_⟩
  · obtain ⟨hoff, hstable, htimed, -, hedge⟩ :=
      pinChange_cases (c := { s.chip with pins := setPin pin high s.chip.pins }) he hd high
    have hexec {c : Chip} (h : pinChange (pinSource pin) high { s.chip with pins := setPin pin high s.chip.pins } = c) :
        exec (.wakeInputChange pin high) s = .next (s.withChip c) :=
      exec_of_chip (exec_wakeInputChange pin high s) ((wakeInputChip_eq pin high s.chip).trans h)
    exact ⟨fun h => hexec (hoff h), fun h hs => hexec (hstable h hs), fun h hs hpos ht => hexec (htimed h hs hpos ht),
      fun h hs hz => hexec (hedge h hs hz)⟩
  · refine exec_of_chip (exec_debounceExpiry src s) ?_
    unfold debounceChip
    rw [he, hd]
    dsimp only
    rw [hon, ht]
  · refine exec_without_effect (exec_debounceExpiry src s) ?_
    unfold debounceChip
    rw [he, hd]
    rcases hor with h | h <;> dsimp only <;> rw [h]
    split <;> first | rfl | contradiction
  · rintro rfl hstate
    rw [edgeTaken_active, hstate]
    rfl
  · rintro rfl hstate
    rw [edgeTaken_active]
    rcases hstate with h | h <;> rw [h] <;> rfl
  · rintro rfl hstate
    exact edgeTaken_pending hstate src level
  · obtain ⟨hdocp, hpool, hroutes, hscan, hlamp, -⟩ := docpSeen_frame present s.chip
    obtain ⟨kpins, kpool, kroutes, kscan⟩ := pinChange_unmoved .doc present (docpSeen present s.chip)
    refine ⟨_, exec_docpChange present s, ?_⟩
    rw [State.onChip_flash, State.onChip_chip, docpChip_eq, kpins, kpool, kroutes, kscan]
    exact ⟨hdocp, (docpChip_loaded .rfl present).1, hpool, hroutes, rfl, hscan, hlamp⟩
  · obtain ⟨-, -, -, -, -, hwake, hsources⟩ := docpSeen_frame present s.chip
    obtain ⟨hother, htakes, hdrops, hstands⟩ := docpSeen_cases present s.chip
    obtain ⟨hoff, hstable, htimed, hruns, hedge⟩ :=
      pinChange_cases (src := .doc) (c := docpSeen present s.chip) (by rw [hwake]; exact he) (by rw [hsources]; exact hd) present
    have hexec {c : Chip} (h : pinChange .doc present (docpSeen present s.chip) = c) :
        exec (.docpChange present) s = .next (s.withChip c) :=
      exec_of_chip (exec_docpChange present s) ((docpChip_eq present s.chip).trans h)
    exact ⟨docpSeen present s.chip, hother, htakes, hdrops, hstands, fun h => hexec (hoff h), fun h hs => hexec (hstable h hs),
      fun h hs hpos ht => hexec (htimed h hs hpos ht), fun h hs hpos ht => hexec (hruns h hs hpos ht), fun h hs hz => hexec (hedge h hs hz)⟩

end Sys2Proof.Proofs
end

section
/-!
PROOFS. Programs and cuts in the flash array (06_page_store.md R100, R129), power-on reset and RESTART (10_the_page_link.md R188, R189).
-/

-- One declaration after another: the package as one text keeps within the check's limit on threads.
set_option Elab.async false

namespace Sys2Proof.Proofs

open Sys2Proof Sys2Proof.Machine

/-! ## What a program writes (R100) -/

/-- A program of one byte leaves every other byte. -/
theorem readMem_programByte_ne {m : List Host.Cell} (hm : Memory.wf m) {w : Write} {a : Nat} (h : w.1 ≠ a) :
    readMem (programByte m w) a = readMem m a := by
  unfold programByte
  split
  · exact readMem_writeMem_ne m w.1 a _ (Ne.symm h) hm.1
  · rfl

theorem readMem_foldl_programByte_ne {ws : List Write} {m : List Host.Cell} (hm : Memory.wf m) {a : Nat} (h : ∀ w ∈ ws, w.1 ≠ a) :
    readMem (ws.foldl programByte m) a = readMem m a := by
  induction ws generalizing m with
  | nil => rfl
  | cons w ws ih =>
    have hw : w.1 ≠ a := h w (List.mem_cons_self ..)
    exact (ih (programByte_wf m w hm) fun v hv => h v (List.mem_cons_of_mem _ hv)).trans (readMem_programByte_ne hm hw)

/-- A cut program leaves every byte outside its writes. -/
theorem readMem_cut {f : Flash} (hf : FlashOk f) {ws : List Write} {a : Nat} (h : ∀ w ∈ ws, w.1 ≠ a) :
    readMem (f.cut ws).mem a = readMem f.mem a :=
  readMem_foldl_programByte_ne hf.1 fun w hw => h w (List.mem_of_mem_take hw)

/-! ## What a reset leaves of the flash -/

theorem cutRow_mem (j : RowJob) (f : Flash) : (cutRow j f).mem = f.mem := by
  cases j <;> rfl

theorem cutSegment_mem (c : Chip) (f : Flash) : (cutSegment c f).mem = f.mem := by
  unfold cutSegment
  dsimp only
  split <;> rfl

/-- Where no segment erase runs, none is cut. -/
theorem cutSegment_still {c : Chip} (h : c.store.op = .none ∨ c.store.op = .scanning) (f : Flash) : cutSegment c f = f := by
  unfold cutSegment
  rcases h with h | h <;> rw [h]

theorem cutFlash_of_no_erase {c : Chip} (h : c.store.erase = none) (f : Flash) : cutFlash c f = cutSegment c (cutHolder c f) := by
  unfold cutFlash
  rw [h]

/-- The job that holds the flash leaves every byte outside its writes when it is cut. -/
theorem readMem_cutHolder {c : Chip} {f : Flash} (hf : FlashOk f) {a : Nat}
    (h : ∀ j, c.store.holder = some j → ∀ w ∈ jobWrites c f.mem j, w.1 ≠ a) : readMem (cutHolder c f).mem a = readMem f.mem a := by
  unfold cutHolder
  split
  · rw [cutRow_mem]
  next j _ hj =>
    split
    · rfl
    · exact readMem_cut hf (h j hj)
  · rfl

/-! ## A trip of a part with no route open -/

theorem allClosed_of_routes {c : Chip} (h : ∀ x ∈ c.routes, x.ctx = none) : AllClosed c := by
  intro r
  unfold ctxOf getRoute
  by_cases hr : r < c.routes.length
  · rw [List.getD_eq_getElem _ _ hr]
    exact h _ (List.getElem_mem hr)
  · rw [List.getD_eq_default _ _ (Nat.le_of_not_lt hr)]
    rfl

theorem markReported_closed {c : Chip} (h : ∀ x ∈ c.routes, x.ctx = none) (p : Nat → Ctx → Bool) : markReported p c = c := by
  have hsame : ((List.range c.routes.length).zip c.routes).map (fun x =>
      match x.2.ctx with
      | some y => if p x.1 y then { x.2 with haltReported := true } else x.2
      | none => x.2) = c.routes := by
    calc _ = ((List.range c.routes.length).zip c.routes).map Prod.snd := by
          refine List.map_congr_left fun x hx => ?_
          rw [h x.2 (List.of_mem_zip hx).2]
      _ = c.routes := List.map_snd_zip (by rw [List.length_range])
  exact congrArg (fun routes => { c with routes := routes }) hsame

/-- With no route open INTERLOCK OPEN changes the Page Link Interface alone. -/
theorem queueEvent_closed {c : Chip} (h : ∀ x ∈ c.routes, x.ctx = none) :
    queueEvent .interlockOpen c = { c with link := (queueEvent .interlockOpen c).link } := by
  obtain ⟨link, hq⟩ := queueRecord_eq (.event .interlockOpen) c
  unfold queueEvent
  split
  · rw [hq, reportHalts, markReported_closed (by exact h)]
  · rfl

/-- A trip with no route, no run-out and no capture changes the channels, the head, the scan unit's capture, the motor supply and the report
queue. -/
theorem trip_closed {c : Chip} (h : ∀ x ∈ c.routes, x.ctx = none) (hrun : c.runOut = none) (hcapture : c.scan.capture = none) :
    ∃ head captureLeft motor, trip c = { c with
      scanCh := c.scanCh.trip, printCh := { c.printCh.trip with linePos := 0 }, head := head
      scan := { c.scan with capture := none, captureLeft := captureLeft, pageEndDue := false }
      power := { c.power with motor := motor }, link := (queueEvent .interlockOpen c).link } := by
  obtain ⟨head, left, hdown⟩ := tripDown_closed (allClosed_of_routes h) hrun hcapture
  have hlink : (queueEvent .interlockOpen (tripDown c)).link = (queueEvent .interlockOpen c).link :=
    queueEvent_link_congr (by rw [hdown]) _
  have hqueued : queueEvent .interlockOpen (tripDown c) = { tripDown c with link := (queueEvent .interlockOpen c).link } := by
    rw [← hlink]
    exact queueEvent_closed (by rw [hdown]; exact h)
  have hclosed : AllClosed (queueEvent .interlockOpen (tripDown c)) :=
    (allClosed_of_routes h).congr (by rw [hqueued, hdown])
  obtain ⟨shift, loadLeft, motor, hsettle⟩ := settleAll_closed hclosed
  refine ⟨{ head with shift := shift, loadLeft := loadLeft }, left, motor, ?_⟩
  rw [trip_eq, hsettle, hqueued, hdown]

/-! ## Power-on reset -/

theorem exec_powerOnReset (pins : Pins) (s : State) : exec (.powerOnReset pins) s = .next (powerOnState pins s) := rfl

theorem powerOnState_eq (pins : Pins) (s : State) : powerOnState pins s =
    { s with chip := if pins.cover then Chip.powerOn pins else trip (Chip.powerOn pins), flash := cutFlash s.chip s.flash } := rfl

theorem powerOn_room {pins : Pins} : Config.reportRoom ≤ freeBytes (Chip.powerOn pins) := by
  show 256 ≤ 512 - 0
  decide

theorem routes_closed {n : Nat} : ∀ x ∈ List.replicate n Route.closed, x.ctx = none := fun x hx => by
  rw [List.eq_of_mem_replicate hx]
  rfl

/-- Settles O55, by the trip of a part without routes, and by the programs under way for the flash. -/
theorem powerOnResetTakesItsValues : Obligations.PowerOnResetTakesItsValues := by
  unfold Obligations.PowerOnResetTakesItsValues
  refine ⟨fun pins s h => ?_, fun pins s h => ⟨_, exec_powerOnReset pins s, ?_⟩, fun c f hh he hop => ?_, fun c f a hf he hw => ?_⟩
  · rw [exec_powerOnReset, powerOnState_eq, if_pos h]
  · obtain ⟨head, left, motor, htrip⟩ := trip_closed (c := Chip.powerOn pins) routes_closed rfl rfl
    have hreports : (queueEvent .interlockOpen (Chip.powerOn pins)).link.reports = [.event .interlockOpen] :=
      queueEvent_reports_of_room (c := Chip.powerOn pins) powerOn_room
    rw [powerOnState_eq, if_neg (by rw [h]; decide), htrip]
    exact ⟨rfl, rfl, rfl, hreports, rfl, rfl, rfl⟩
  · have hholder : cutHolder c f = f := by
      unfold cutHolder
      rw [hh]
    rw [cutFlash_of_no_erase he, hholder, cutSegment_still hop]
  · rw [cutFlash_of_no_erase he, cutSegment_mem, readMem_cutHolder hf hw]

/-! ## RESTART (R188) -/

theorem exec_restart {p : List Byte} {s : State} (h : canTake s.chip = true) (hp : p.length = 1) : exec (.restart p) s = .next
    { s with chip := restartChip p (restartRules { s.chip with link := { s.chip.link with held := none } }),
             flash := cutFlash s.chip s.flash } := by
  have hstate : exec (.restart p) s = .next (if canTake s.chip then restartState p s else s) := rfl
  rw [hstate, if_pos h]
  unfold restartState
  rw [if_pos hp]

/-- The stream rules for RESTART change the store, the Power Controller and the Boot Server alone. -/
theorem restartRules_eq (c : Chip) : ∃ store power boot, restartRules c = { c with store := store, power := power, boot := boot } := by
  have hserving (d : Chip) : ∃ store boot, (if d.boot.state = .serving then
        { dropChunk d with boot := { (dropChunk d).boot with state := .complete, report := none } } else d) =
      { d with store := store, boot := boot } := by
    split
    · obtain ⟨_, hdrop⟩ := dropChunk_eq d
      rw [hdrop]
      exact ⟨_, _, rfl⟩
    · exact ⟨_, _, rfl⟩
  unfold restartRules
  dsimp only
  split <;> split <;> (obtain ⟨_, _, h⟩ := hserving _; exact ⟨_, _, _, h⟩)

/-- The REPLY of an accepted RESTART stands behind what is left of a record being sent. -/
theorem reply_linkRestart (p : List Byte) (c : Chip) : reply p .accepted (linkRestart c) =
    { linkRestart c with link := { (linkRestart c).link with reports := restartPart c ++ [.reply (refOf p) .accepted] } } := rfl

/-- A part after RESTART but for the interlock. -/
def restarted (p : List Byte) (c : Chip) : Chip :=
  blocksRestart { linkRestart c with link := { (linkRestart c).link with reports := restartPart c ++ [.reply (refOf p) .accepted] } }

theorem restartChip_eq (p : List Byte) (c : Chip) : restartChip p c = if c.pins.cover then restarted p c else trip (restarted p c) := rfl

theorem restartPart_congr {c d : Chip} (hl : d.link.up = c.link.up) (hr : d.link.reports = c.link.reports) (ho : d.linkOut = c.linkOut) :
    restartPart d = restartPart c := by
  unfold restartPart
  rw [hl, hr, ho]

/-- An event stands behind the records that wait, or is lost. -/
theorem queueEvent_reports_prefix (e : Event) (c : Chip) : ∃ rest, (queueEvent e c).link.reports = c.link.reports ++ rest := by
  by_cases h : 256 ≤ freeBytes c
  · exact ⟨_, queueEvent_reports_of_room h⟩
  · exact ⟨[], by rw [queueEvent_of_full (Nat.lt_of_not_le h), List.append_nil]⟩

theorem reply_room (p : List Byte) {c : Chip} (h : c.link.reports = [.reply (refOf p) .accepted]) : 256 ≤ freeBytes c := by
  unfold freeBytes usedBytes
  rw [h]
  show 256 ≤ 512 - 5
  decide

theorem up_of_part (part : List Report) :
    (if part.isEmpty then Upstream.idle else .report) = if part = [] then .idle else .report := by
  cases part <;> rfl

/-- INTERLOCK OPEN behind the REPLY of RESTART. -/
theorem interlockOpen_restarted (p : List Byte) (c : Chip) :
    let link := (queueEvent .interlockOpen (restarted p c)).link
    link.reports.take ((restartPart c).length + 1) = restartPart c ++ [.reply (refOf p) .accepted] ∧
    (restartPart c = [] → link.reports = [.reply (refOf p) .accepted, .event .interlockOpen]) ∧
    (link.held = none ∧ link.listing = none ∧ link.pulseMode = false ∧ link.parser = .between ∧
      link.up = (if (restartPart c).isEmpty then .idle else .report) ∧ link.sent = c.link.sent) := by
  intro link
  refine ⟨?_, fun hpart => ?_, ?_⟩
  · obtain ⟨rest, hrest⟩ := queueEvent_reports_prefix .interlockOpen (restarted p c)
    have hlink : link.reports = (restartPart c ++ [.reply (refOf p) .accepted]) ++ rest := hrest
    rw [hlink]
    exact List.take_left' (by rw [List.length_append, List.length_singleton])
  · have hreply : (restarted p c).link.reports = [.reply (refOf p) .accepted] := by
      show restartPart c ++ _ = _
      rw [hpart, List.nil_append]
    exact (queueEvent_reports_of_room (reply_room p hreply)).trans (by rw [hreply]; rfl)
  · obtain ⟨_, _, _, _, hq⟩ := queueEvent_link_eq .interlockOpen (restarted p c)
    unfold link
    rw [hq]
    exact ⟨rfl, rfl, rfl, rfl, rfl, rfl⟩

/-! ### The bytes of a record in part -/

theorem upRecord_length (tag : Byte) (payload : List Byte) : (upRecord tag payload).length = 3 + payload.length := by
  have hhead : (leBytes 2 payload.length).length = 2 := rfl
  unfold upRecord
  rw [List.length_cons, List.length_append, hhead]
  omega

theorem upRecord_padding (tag : Byte) (payload : List Byte) :
    upRecord tag (List.replicate payload.length 0) = (upRecord tag payload).take 3 ++ List.replicate payload.length 0 := by
  unfold upRecord
  rw [List.length_replicate]
  rfl

/-- Settles O32, by the blocks' values at RESTART and, with the cover open, the trip of a part without routes. -/
theorem restartTakesItsValues : Obligations.RestartTakesItsValues := by
  unfold Obligations.RestartTakesItsValues
  refine ⟨fun p s htake hp => ?_, fun x => upRecord_padding _ _, fun tag payload => upRecord_padding _ _, fun tag n => rfl,
    fun o ho => ?_⟩
  · have hloaded : (restartChip p (restartRules { s.chip with link := { s.chip.link with held := none } })).loaded = s.chip.loaded := by
      have hstate : (restartState p s).chip.loaded = s.chip.loaded := (restartState_sound p).1.1
      unfold restartState at hstate
      rw [if_pos hp] at hstate
      exact hstate
    refine ⟨_, exec_restart htake hp, ?_⟩
    obtain ⟨store, power, boot, hruled⟩ := restartRules_eq { s.chip with link := { s.chip.link with held := none } }
    rw [hruled, restartChip_eq] at hloaded ⊢
    dsimp only at hloaded ⊢
    by_cases hcover : s.chip.pins.cover = true
    · rw [if_pos hcover] at hloaded ⊢
      exact ⟨rfl, rfl, rfl, rfl, fun _ => ⟨rfl, rfl⟩, fun h => absurd (hcover.symm.trans h) (by decide), rfl, rfl, rfl, rfl, rfl, rfl, rfl,
        rfl, rfl, rfl, rfl, rfl, ⟨fun _ => rfl, fun h => absurd (hcover.symm.trans h) (by decide), up_of_part _⟩, rfl, rfl, rfl, hloaded, rfl,
        rfl, rfl⟩
    · rw [if_neg hcover] at hloaded ⊢
      obtain ⟨head, left, motor, htrip⟩ := trip_closed (c := restarted p { s.chip with
        store := store, power := power, boot := boot, link := { s.chip.link with held := none } }) routes_closed rfl rfl
      obtain ⟨hprefix, hroom, hframe⟩ := interlockOpen_restarted p { s.chip with
        store := store, power := power, boot := boot, link := { s.chip.link with held := none } }
      obtain ⟨hheld, hlisting, hmode, hparser, hup, hsent⟩ := hframe
      rw [htrip] at hloaded ⊢
      exact ⟨rfl, rfl, rfl, rfl, fun h => absurd h hcover, fun _ => ⟨rfl, rfl⟩, rfl, rfl, rfl, rfl, rfl, rfl, rfl, rfl, hheld, hlisting, hmode,
        hparser, ⟨fun h => absurd h hcover, fun _ => ⟨hprefix, hroom⟩, hup.trans (up_of_part _)⟩, hsent, rfl, rfl, hloaded, rfl, rfl, rfl⟩
  · obtain ⟨x, hx⟩ := Option.isSome_iff_exists.mp ho
    unfold LinkOut.cut LinkOut.bytes
    rw [hx]
    dsimp only
    rw [upRecord_length, Nat.add_sub_cancel_left]
    exact upRecord_padding _ _

end Sys2Proof.Proofs
end

section
/-!
PROOFS. OPEN: its checks in order (01_line_pool_and_routes.md R7 to R10).
-/

-- One declaration after another: the package as one text keeps within the check's limit on threads.
set_option Elab.async false

namespace Sys2Proof.Proofs

open Sys2Proof Sys2Proof.Machine

/-! ## The checks of R8 as they read -/

theorem combination_fails_iff (q : OpenReq) : (3 < q.route ∨ validCombination q.source q.sinks = false) ↔
    ¬(q.route ≤ 3 ∧ q.sinks.Nodup ∧ ¬(q.source = .link ∧ Sink.link ∈ q.sinks) ∧ ¬(q.source = .store ∧ Sink.store ∈ q.sinks)) := by
  have hvalid : validCombination q.source q.sinks = true ↔
      q.sinks.Nodup ∧ ¬(q.source = .link ∧ Sink.link ∈ q.sinks) ∧ ¬(q.source = .store ∧ Sink.store ∈ q.sinks) := by
    simp [validCombination, and_assoc, imp_iff_not_or]
  rw [← hvalid, not_and_or, Nat.not_le, Bool.not_eq_true]

theorem routeBusy_iff (c : Chip) (r : Nat) : ((ctxOf c r).isSome = true ∨ c.runOut.map RunOut.route = some r) ↔
    ¬(ctxOf c r = none ∧ ∀ ro, c.runOut = some ro → ro.route ≠ r) := by
  rw [not_and_or, Option.isSome_iff_ne_none, Option.map_eq_some_iff, not_forall]
  simp only [Classical.not_imp, ne_eq, not_not]

theorem endpointHeld_iff (c : Chip) (src : Source) (sinks : List Sink) : endpointHeld c src sinks = true ↔
    ¬((∀ r x, r < 4 → ctxOf c r = some x → x.source ≠ src ∧ ∀ k ∈ sinks, k ∉ x.sinks) ∧ (Sink.print ∈ sinks → c.runOut = none)) := by
  have hnone (p : Ctx → Bool) : (routesWhere c p).head? = none ↔ ∀ r x, r < 4 → ctxOf c r = some x → p x = false := by
    rw [List.head?_eq_none_iff]
    exact routesWhere_eq_nil
  have hfree : endpointHeld c src sinks = false ↔
      (∀ r x, r < 4 → ctxOf c r = some x → x.source ≠ src ∧ ∀ k ∈ sinks, k ∉ x.sinks) ∧ (Sink.print ∈ sinks → c.runOut = none) := by
    simp only [endpointHeld, Bool.or_eq_false_iff, Option.isSome_eq_false_iff, Option.isNone_iff_eq_none, routeOfSource, routeOfSink, hnone,
      List.any_eq_false, Bool.not_eq_true, beq_eq_false_iff_ne, List.contains_eq_mem, decide_eq_false_iff_not, Bool.and_eq_false_iff]
    constructor
    · rintro ⟨⟨hsource, hsinks⟩, hprint⟩
      exact ⟨fun r x hr hx => ⟨hsource r x hr hx, fun k hk => hsinks k hk r x hr hx⟩, fun hk => hprint.resolve_left fun h => h hk⟩
    · rintro ⟨hroutes, hprint⟩
      exact ⟨⟨fun r x hr hx => (hroutes r x hr hx).1, fun k hk r x hr hx => (hroutes r x hr hx).2 k hk⟩,
        or_iff_not_imp_left.mpr fun h => hprint (not_not.mp h)⟩
  rw [← hfree, Bool.not_eq_false]

/-- A store without an operation neither scans nor erases in total. -/
theorem storeState_of_no_op {x : Store} (h : x.op = .none) : storeState x ≠ .scanning ∧ storeState x ≠ .totalErase := by
  unfold storeState
  rw [h]
  dsimp only
  split
  · exact ⟨nofun, nofun⟩
  · split <;> exact ⟨nofun, nofun⟩
  · exact ⟨nofun, nofun⟩
  · exact ⟨nofun, nofun⟩
  · exact ⟨nofun, nofun⟩

theorem scanOrTotal_iff (c : Chip) : scanOrTotal c = false ↔
    c.store.op ≠ .scanning ∧ c.store.op ≠ .totalBlocks ∧ c.store.op ≠ .totalLock ∧ c.store.op ≠ .totalKey := by
  unfold scanOrTotal
  rw [decide_eq_false_iff_not, not_or]
  cases hop : c.store.op with
  | none => simp [storeState_of_no_op hop]
  | scanning => simp [storeState, hop]
  | lockErase _ => simp [storeState, hop]
  | totalBlocks => simp [storeState, hop]
  | totalLock => simp [storeState, hop]
  | totalKey => simp [storeState, hop]

theorem storeBusy_iff (c : Chip) (q : OpenReq) : (namesStore q.source q.sinks && scanOrTotal c) = true ↔
    ¬(q.source = .store ∨ Sink.store ∈ q.sinks →
      c.store.op ≠ .scanning ∧ c.store.op ≠ .totalBlocks ∧ c.store.op ≠ .totalLock ∧ c.store.op ≠ .totalKey) := by
  rw [← scanOrTotal_iff, Classical.not_imp, Bool.not_eq_false]
  simp [namesStore]

theorem faultPending_iff (c : Chip) (q : OpenReq) : (q.sinks.contains .store && storeFaulty c) = true ↔
    ¬(Sink.store ∈ q.sinks → c.store.programFault = false ∧ c.store.eraseFault = false) := by
  rw [Classical.not_imp, ← Bool.or_eq_false_iff, Bool.not_eq_false]
  simp [storeFaulty]

theorem directoryFull_iff (c : Chip) (q : OpenReq) : (q.sinks.contains .store && decide (Config.dirCap ≤ c.store.dir.length)) = true ↔
    ¬(Sink.store ∈ q.sinks → c.store.dir.length < 48) := by
  rw [Classical.not_imp, Nat.not_lt, Bool.and_eq_true, decide_eq_true_iff, List.contains_iff_mem]
  exact Iff.rfl

theorem bootForbidden_iff (c : Chip) (q : OpenReq) :
    (match q.storeP with | some x => bootForbidden c x.origin | none => false) = true ↔
    ¬(∀ sp, q.storeP = some sp → sp.origin = .boot → masterSet c = false ∨ c.prot.service = .service) := by
  cases q.storeP with
  | none => simp
  | some x => simp [bootForbidden, serviceHeld, and_assoc]

theorem pagesMissing_iff (c : Chip) (q : OpenReq) :
    (q.pages.any fun id => (pageOf c id).isNone) = true ↔ ¬(∀ id ∈ q.pages, (pageOf c id).isSome = true) := by
  simp

theorem pagesWriting_iff (c : Chip) (q : OpenReq) :
    (q.pages.any fun id => (match pageOf c id with | some p => p.writing | none => false)) = true ↔
    ¬(∀ id ∈ q.pages, ∀ pg, pageOf c id = some pg → pg.writing = false) := by
  have hid (id : Nat) : (match pageOf c id with | some p => p.writing | none => false) = true ↔
      ∃ pg, pageOf c id = some pg ∧ pg.writing = true := by
    cases pageOf c id <;> simp
  simp only [List.any_eq_true, hid, not_forall, Bool.not_eq_false, exists_prop]

/-! ## What is held (R9, R10) -/

theorem heldPeriod_eq (c : Chip) (q : OpenReq) : heldPeriod c q =
    max (if q.source = .scan then raisePeriod c.scanCh.ramp (clamp 2500 50000 q.period) q.steps else clamp 2500 50000 q.period)
      (if Sink.print ∈ q.sinks then raisePeriod c.printCh.ramp (clamp 2500 50000 q.period) q.steps else clamp 2500 50000 q.period) := by
  unfold heldPeriod
  simp only [List.contains_iff_mem]

/-- The copies of an OPEN as held, or 1 for one without a PRINT sink. -/
def heldCopies (q : OpenReq) : Nat := match q.printP with | some x => clamp 1 2 x.copies | none => 1

/-- The minimum quota of R10 for an OPEN. -/
def leastQuota (c : Chip) (q : OpenReq) : Nat :=
  max 2
    ((if q.source = .scan then 1 + ceilDiv (runIndex c.scanCh.ramp (heldPeriod c q / q.steps)) q.steps else 0) +
      (if Sink.print ∈ q.sinks then
        ceilDiv (1 + ceilDiv (runIndex c.printCh.ramp (heldPeriod c q / q.steps)) q.steps) (heldCopies q) else 0))

theorem settleQuota_held (c : Chip) (q : OpenReq) : settleQuota c (q.held c) =
    if 28 < leastQuota c q ∨ roomFor c < leastQuota c q then none
    else if clamp 2 28 q.quota < leastQuota c q then some (leastQuota c q)
    else if roomFor c < clamp 2 28 q.quota then some (roomFor c)
    else some (clamp 2 28 q.quota) := by
  have hcopies : (match (q.held c).printP with | some x => x.copies | none => 1) = heldCopies q := by
    unfold OpenReq.held heldCopies
    cases q.printP <;> rfl
  have hleast : minQuota q.steps (heldCopies q)
      (if q.source = .scan then some (runIndex c.scanCh.ramp (heldPeriod c q / q.steps)) else none)
      (if q.sinks.contains .print then some (runIndex c.printCh.ramp (heldPeriod c q / q.steps)) else none) = leastQuota c q := by
    unfold minQuota leastQuota
    simp only [List.contains_iff_mem]
    by_cases hscan : q.source = .scan <;> by_cases hprint : Sink.print ∈ q.sinks <;> simp only [hscan, hprint, if_true, if_false]
  have hsettle (copies : Nat) (h : copies = heldCopies q) :
      let least := minQuota q.steps copies
        (if q.source = .scan then some (runIndex c.scanCh.ramp (heldPeriod c q / q.steps)) else none)
        (if q.sinks.contains .print then some (runIndex c.printCh.ramp (heldPeriod c q / q.steps)) else none)
      (if 28 < least ∨ roomFor c < least then none
        else if clamp 2 28 q.quota < least then some least
        else if roomFor c < clamp 2 28 q.quota then some (roomFor c)
        else some (clamp 2 28 q.quota)) =
      if 28 < leastQuota c q ∨ roomFor c < leastQuota c q then none
      else if clamp 2 28 q.quota < leastQuota c q then some (leastQuota c q)
      else if roomFor c < clamp 2 28 q.quota then some (roomFor c)
      else some (clamp 2 28 q.quota) := by
    rw [h, hleast]
  exact hsettle _ hcopies

/-! ## OPEN by its checks -/

theorem exec_openRoute {p : List Byte} {s : State} (h : Taken s) :
    exec (.openRoute p) s = .next (s.withChip (openChip p (streamRules (.openRoute p) s.chip))) := by
  have harrive : exec (.openRoute p) s = .next (arrive (.openRoute p) (ownedChip p (openChip p)) s) := rfl
  rw [harrive]
  cases p with
  | nil => rw [ownedChip_empty h]; rfl
  | cons b bs => rw [ownedChip_taken h _ (List.cons_ne_nil b bs)]

theorem openChip_parsed {p : List Byte} {q : OpenReq} (hq : parseOpen p = some q) (c : Chip) : openChip p c =
    match openCheck c q with
    | some .protected_ => refuseProtected p c
    | some r => refuse p r c
    | none =>
        if 50000 < heldPeriod c q then refuse p .limit c
        else
          match settleQuota c (q.held c) with
          | none => refuse p .quota c
          | some n => acceptOpen p (decide ({ q.held c with quota := n } ≠ q)) { q.held c with quota := n } c := by
  unfold openChip
  rw [hq]
  rfl

theorem openChip_refused {p : List Byte} {q : OpenReq} (hq : parseOpen p = some q) {c : Chip} {r : Reason} (hr : r ≠ .protected_)
    (h : openCheck c q = some r) : openChip p c = refuse p r c := by
  rw [openChip_parsed hq, h]
  cases r <;> first | rfl | contradiction

theorem openChip_protected {p : List Byte} {q : OpenReq} (hq : parseOpen p = some q) {c : Chip} (h : openCheck c q = some .protected_) :
    openChip p c = refuse p .protected_ { c with store := { c.store with protectionFault := true } } := by
  rw [openChip_parsed hq, h]
  rfl

/-- An OPEN that passes checks 2 to 10 is refused LIMIT or QUOTA. -/
theorem openChip_checked {p : List Byte} {q : OpenReq} (hq : parseOpen p = some q) {c : Chip} (h : openCheck c q = none) :
    (50000 < heldPeriod c q → openChip p c = refuse p .limit c) ∧
    (heldPeriod c q ≤ 50000 → 28 < leastQuota c q ∨ roomFor c < leastQuota c q → openChip p c = refuse p .quota c) := by
  rw [openChip_parsed hq, h]
  refine ⟨fun hperiod => if_pos hperiod, fun hperiod hleast => ?_⟩
  dsimp only
  rw [if_neg (Nat.not_lt.mpr hperiod), settleQuota_held, if_pos hleast]

/-- Settles O23, by the checks in their order. -/
theorem openIsRefusedByItsFirstFailingCheck : Obligations.OpenIsRefusedByItsFirstFailingCheck := by
  unfold Obligations.OpenIsRefusedByItsFirstFailingCheck
  refine ⟨fun p s h hp => ?_, fun p q s h hq => ?_⟩
  · rw [exec_openRoute h]
    unfold openChip
    rw [hp]
  intro c refused c2 c3 c4 c5 c6 c7 c8 c9 c10 base period copies least room
  have hrefused {r : Reason} (hr : r ≠ .protected_) (k : openCheck c q = some r) : refused r := by
    unfold refused
    rw [exec_openRoute h, openChip_refused hq hr k]
  have hcheck : openCheck c q =
      if 3 < q.route ∨ validCombination q.source q.sinks = false then some .invalidRoute
      else if (ctxOf c q.route).isSome ∨ (c.runOut.map RunOut.route) = some q.route then some .busy
      else if endpointHeld c q.source q.sinks then some .endpointInUse
      else if namesStore q.source q.sinks && scanOrTotal c then some .busy
      else if q.sinks.contains .store && storeFaulty c then some .storeFaultPending
      else if q.sinks.contains .store && decide (Config.dirCap ≤ c.store.dir.length) then some .directoryFull
      else if (match q.storeP with | some x => bootForbidden c x.origin | none => false) then some .protected_
      else if q.pages.any fun id => (pageOf c id).isNone then some .noSuchPage
      else if q.pages.any fun id => (match pageOf c id with | some p => p.writing | none => false) then some .busy
      else none := rfl
  have k2 := combination_fails_iff q
  have k3 := routeBusy_iff c q.route
  have k4 := endpointHeld_iff c q.source q.sinks
  have k5 := storeBusy_iff c q
  have k6 := faultPending_iff c q
  have k7 := directoryFull_iff c q
  have k8 := bootForbidden_iff c q
  have k9 := pagesMissing_iff c q
  have k10 := pagesWriting_iff c q
  have hpass (h2 : c2) (h3 : c3) (h4 : c4) (h5 : c5) (h6 : c6) (h7 : c7) (h8 : c8) (h9 : c9) (h10 : c10) : openCheck c q = none := by
    rw [hcheck, if_neg fun k => k2.mp k h2, if_neg fun k => k3.mp k h3, if_neg fun k => k4.mp k h4, if_neg fun k => k5.mp k h5,
      if_neg fun k => k6.mp k h6, if_neg fun k => k7.mp k h7, if_neg fun k => k8.mp k h8, if_neg fun k => k9.mp k h9,
      if_neg fun k => k10.mp k h10]
  have hperiod : heldPeriod c q = period := heldPeriod_eq c q
  have hleast : leastQuota c q = least := by
    unfold leastQuota
    rw [hperiod]
    rfl
  refine ⟨fun n2 => ?_, fun h2 n3 => ?_, fun h2 h3 n4 => ?_, fun h2 h3 h4 n5 => ?_, fun h2 h3 h4 h5 n6 => ?_, fun h2 h3 h4 h5 h6 n7 => ?_,
    fun h2 h3 h4 h5 h6 h7 n8 => ?_, fun h2 h3 h4 h5 h6 h7 h8 n9 => ?_, fun h2 h3 h4 h5 h6 h7 h8 h9 n10 => ?_,
    fun h2 h3 h4 h5 h6 h7 h8 h9 h10 habove => ?_, fun h2 h3 h4 h5 h6 h7 h8 h9 h10 hbelow hquota => ?_⟩
  · exact hrefused nofun (by rw [hcheck, if_pos (k2.mpr n2)])
  · exact hrefused nofun (by rw [hcheck, if_neg fun k => k2.mp k h2, if_pos (k3.mpr n3)])
  · exact hrefused nofun (by rw [hcheck, if_neg fun k => k2.mp k h2, if_neg fun k => k3.mp k h3, if_pos (k4.mpr n4)])
  · exact hrefused nofun (by
      rw [hcheck, if_neg fun k => k2.mp k h2, if_neg fun k => k3.mp k h3, if_neg fun k => k4.mp k h4, if_pos (k5.mpr n5)])
  · exact hrefused nofun (by
      rw [hcheck, if_neg fun k => k2.mp k h2, if_neg fun k => k3.mp k h3, if_neg fun k => k4.mp k h4, if_neg fun k => k5.mp k h5,
        if_pos (k6.mpr n6)])
  · exact hrefused nofun (by
      rw [hcheck, if_neg fun k => k2.mp k h2, if_neg fun k => k3.mp k h3, if_neg fun k => k4.mp k h4, if_neg fun k => k5.mp k h5,
        if_neg fun k => k6.mp k h6, if_pos (k7.mpr n7)])
  · rw [exec_openRoute h, openChip_protected hq]
    rw [hcheck, if_neg fun k => k2.mp k h2, if_neg fun k => k3.mp k h3, if_neg fun k => k4.mp k h4, if_neg fun k => k5.mp k h5,
      if_neg fun k => k6.mp k h6, if_neg fun k => k7.mp k h7, if_pos (k8.mpr n8)]
  · exact hrefused nofun (by
      rw [hcheck, if_neg fun k => k2.mp k h2, if_neg fun k => k3.mp k h3, if_neg fun k => k4.mp k h4, if_neg fun k => k5.mp k h5,
        if_neg fun k => k6.mp k h6, if_neg fun k => k7.mp k h7, if_neg fun k => k8.mp k h8, if_pos (k9.mpr n9)])
  · exact hrefused nofun (by
      rw [hcheck, if_neg fun k => k2.mp k h2, if_neg fun k => k3.mp k h3, if_neg fun k => k4.mp k h4, if_neg fun k => k5.mp k h5,
        if_neg fun k => k6.mp k h6, if_neg fun k => k7.mp k h7, if_neg fun k => k8.mp k h8, if_neg fun k => k9.mp k h9,
        if_pos (k10.mpr n10)])
  · unfold refused
    rw [exec_openRoute h, (openChip_checked hq (hpass h2 h3 h4 h5 h6 h7 h8 h9 h10)).1 (by rw [hperiod]; exact habove)]
  · unfold refused
    rw [exec_openRoute h, (openChip_checked hq (hpass h2 h3 h4 h5 h6 h7 h8 h9 h10)).2 (by rw [hperiod]; exact hbelow)
      (by rw [hleast]; exact hquota)]

end Sys2Proof.Proofs
end

section
/-!
PROOFS. OPEN that passes its checks: values held, quota settled, take-up, REPLY and CREDIT (01_line_pool_and_routes.md R9 to R11).
-/

-- One declaration after another: the package as one text keeps within the check's limit on threads.
set_option Elab.async false

namespace Sys2Proof.Proofs

open Sys2Proof Sys2Proof.Machine

/-! ## The route that an OPEN fills -/

/-- The part with a route's context in place, no page done and nothing reported of it. -/
def routed (r : Nat) (x : Ctx) (c : Chip) : Chip :=
  { c with routes := c.routes.set r { ctx := some x, pagesDone := 0, overrun := false, haltReported := false } }

theorem getRoute_routed {r : Nat} {c : Chip} (hr : r < c.routes.length) (x : Ctx) :
    getRoute (routed r x c) r = { ctx := some x, pagesDone := 0, overrun := false, haltReported := false } :=
  getRoute_setRoute_self hr _

theorem ctxOf_routed {r : Nat} {c : Chip} (hr : r < c.routes.length) (x : Ctx) : ctxOf (routed r x c) r = some x :=
  congrArg Route.ctx (getRoute_routed hr x)

theorem routed_routed (r : Nat) (x y : Ctx) (c : Chip) : routed r y (routed r x c) = routed r y c := by
  simp only [routed, List.set_set]

theorem haltRoute_routed {r : Nat} {c : Chip} (hr : r < c.routes.length) (h : Halt) (x : Ctx) :
    haltRoute r h (routed r x c) = routed r { x with halt := some h } c := by
  unfold haltRoute
  rw [ctxOf_routed hr, getRoute_routed hr]
  exact routed_routed r x _ c

theorem haltIf_routed {r : Nat} {c : Chip} (hr : r < c.routes.length) (b : Prop) [Decidable b] (h : Halt) (x : Ctx) :
    (if b then haltRoute r h (routed r x c) else routed r x c) = routed r { x with halt := if b then some h else x.halt } c := by
  by_cases hb : b
  · rw [if_pos hb, if_pos hb, haltRoute_routed hr]
  · rw [if_neg hb, if_neg hb]

theorem addStallIf_routed {r : Nat} {c : Chip} (hr : r < c.routes.length) (b : Bool) (k : Stall) {x : Ctx} (hx : x.stalls = []) :
    (if b then routed r x c else addStall r k (routed r x c)) = routed r { x with stalls := if b = false then [k] else [] } c := by
  have hnot : k ∉ x.stalls := by
    rw [hx]
    exact List.not_mem_nil
  cases b with
  | true =>
    rw [if_pos rfl, if_neg (by decide), ← hx]
  | false =>
    unfold addStall
    rw [if_neg (by decide), if_pos rfl, modCtx_of_some (ctxOf_routed hr x), getRoute_routed hr, if_neg hnot, hx]
    exact routed_routed r x _ c

/-! ## Take-up (R26, R50, R70, R84) -/

/-- The scan side after take-up. -/
def scanTaken (q : OpenReq) (c : Chip) : Chip :=
  if q.source = .scan then
    { c with
      scanCh := c.scanCh.takeUp q.route q.period q.steps
      scan := { Capture.default with state := .waiting, route := some q.route, lampUse := c.pins.docp }
      power := { c.power with lamp := if c.pins.docp then c.power.lamp.request 10000 else c.power.lamp } }
  else c

/-- The print side after take-up. -/
def printTaken (q : OpenReq) (c : Chip) : Chip :=
  match q.printP with
  | some x =>
      { c with
        printCh := c.printCh.takeUp q.route q.period q.steps
        head := { c.head with route := some q.route, copy := some ⟨q.period, x.density, x.copies⟩, heatReported := false, headUse := true }
        power := { c.power with head := c.power.head.request 1000 } }
  | none => c

theorem openScan_routed (r : Nat) (x : Ctx) (c : Chip) : openScan r (routed r x c) = routed r x { c with
    scan := { Capture.default with state := .waiting, route := some r, lampUse := c.pins.docp }
    power := { c.power with lamp := if c.pins.docp then c.power.lamp.request 10000 else c.power.lamp } } := by
  unfold openScan routed takeLamp
  dsimp only
  cases c.pins.docp <;> rfl

/-- Take-up of SCAN on a route that has just been filled; a tripped channel halts it. -/
theorem takeUpScan_routed {q : OpenReq} {c : Chip} (hr : q.route < c.routes.length) (x : Ctx) :
    takeUpScan q (routed q.route x c) = routed q.route
      { x with halt := if q.source = .scan ∧ c.scanCh.motion = .tripped then some .interlock else x.halt } (scanTaken q c) := by
  unfold takeUpScan scanTaken
  by_cases hs : q.source = .scan
  · have hopen := openScan_routed q.route x { c with scanCh := c.scanCh.takeUp q.route q.period q.steps }
    simp only [hs, true_and, if_true]
    rw [show { routed q.route x c with scanCh := (routed q.route x c).scanCh.takeUp q.route q.period q.steps } =
      routed q.route x { c with scanCh := c.scanCh.takeUp q.route q.period q.steps } from rfl, hopen]
    exact haltIf_routed (by exact hr) (c.scanCh.motion = .tripped) _ _
  · simp only [hs, false_and, if_false]

/-- Take-up of PRINT on a route that has just been filled: paper out stalls it, a tripped channel halts it. -/
theorem takeUpPrint_routed {q : OpenReq} {c : Chip} (hr : q.route < c.routes.length) {x : Ctx} (hx : x.stalls = []) :
    takeUpPrint q (routed q.route x c) = routed q.route
      { x with
        stalls := if q.printP.isSome = true ∧ c.head.paper = false then [.paperOut] else []
        halt := if q.printP.isSome = true ∧ c.printCh.motion = .tripped then some .interlock else x.halt } (printTaken q c) := by
  unfold takeUpPrint printTaken
  cases q.printP with
  | none => simp only [Option.isSome_none, Bool.false_eq_true, false_and, if_false, ← hx]
  | some y =>
    simp only [Option.isSome_some, true_and]
    have hhead (d : Chip) : takeUpHead q.route ⟨q.period, y.density, y.copies⟩ (routed q.route x d) = routed q.route x { d with
        head := { d.head with route := some q.route, copy := some ⟨q.period, y.density, y.copies⟩, heatReported := false, headUse := true }
        power := { d.power with head := d.power.head.request 1000 } } := rfl
    rw [show { routed q.route x c with printCh := (routed q.route x c).printCh.takeUp q.route q.period q.steps } =
      routed q.route x { c with printCh := c.printCh.takeUp q.route q.period q.steps } from rfl, hhead,
      addStallIf_routed (by exact hr) _ _ hx]
    exact haltIf_routed (by exact hr) (c.printCh.motion = .tripped) _ _

/-- The context that an OPEN fills, its stalls and its halt at take-up. -/
def takenCtx (q : OpenReq) (c : Chip) : Ctx :=
  { q.ctx with
    stalls := if q.printP.isSome = true ∧ c.head.paper = false then [.paperOut] else []
    halt := if q.source = .scan ∧ c.scanCh.motion = .tripped ∨ q.printP.isSome = true ∧ c.printCh.motion = .tripped then some .interlock
      else none }

/-- The store's cursor at the start of a STORE source. -/
def cursorReset (q : OpenReq) (c : Chip) : Chip :=
  if q.source = .store then { c with store := { c.store with cursor := ⟨0, 0, 0, 0, false⟩ } } else c

theorem scanTaken_frame (q : OpenReq) (c : Chip) : (scanTaken q c).head = c.head ∧ (scanTaken q c).printCh = c.printCh ∧
    (scanTaken q c).routes = c.routes ∧ (scanTaken q c).pool = c.pool ∧ (scanTaken q c).link = c.link ∧
    (scanTaken q c).power.head = c.power.head := by
  unfold scanTaken
  split <;> exact ⟨rfl, rfl, rfl, rfl, rfl, rfl⟩

theorem cursorReset_eq (q : OpenReq) (c : Chip) : ∃ store, cursorReset q c = { c with store := store } := by
  unfold cursorReset
  split <;> exact ⟨_, rfl⟩

theorem halt_of_either (a b : Prop) [Decidable a] [Decidable b] (h : Halt) :
    (if a ∨ b then some h else none) = if b then some h else if a then some h else none := by
  by_cases ha : a <;> by_cases hb : b <;> simp only [ha, hb, or_self, or_true, true_or, if_true, if_false]

/-- OPEN's route, filled and taken up. -/
theorem fillRoute_eq {q : OpenReq} {c : Chip} (hr : q.route < c.routes.length) :
    fillRoute q c = routed q.route (takenCtx q c) (printTaken q (scanTaken q (cursorReset q c))) := by
  have hcursor : (if q.source = .store then { routed q.route q.ctx c with
      store := { (routed q.route q.ctx c).store with cursor := ⟨0, 0, 0, 0, false⟩ } } else routed q.route q.ctx c) =
      routed q.route q.ctx (cursorReset q c) := by
    unfold cursorReset
    split <;> rfl
  obtain ⟨store, hreset⟩ := cursorReset_eq q c
  obtain ⟨hhead, hprint, hroutes, -⟩ := scanTaken_frame q (cursorReset q c)
  have hfill : fillRoute q c = takeUpPrint q (takeUpScan q (if q.source = .store then { routed q.route q.ctx c with
      store := { (routed q.route q.ctx c).store with cursor := ⟨0, 0, 0, 0, false⟩ } } else routed q.route q.ctx c)) := rfl
  rw [hfill, hcursor, takeUpScan_routed (by rw [hreset]; exact hr), takeUpPrint_routed (by rw [hroutes, hreset]; exact hr) (by rfl)]
  rw [hhead, hprint, hreset]
  unfold takenCtx
  rw [halt_of_either]
  rfl

/-! ## REPLY and CREDIT (R11, R182) -/

/-- The record whose first byte has been sent, where there is one. -/
def sentPart (c : Chip) : List Report := if c.link.up = .report then c.link.reports.take 1 else []

theorem unsent_eq (c : Chip) : unsent c = c.link.reports.drop (sentPart c).length := by
  unfold unsent sentPart
  split
  · cases c.link.reports <;> rfl
  · rfl

/-- The unsent records of a part behind whose records one more was queued. -/
theorem unsent_behind {c d : Chip} {x : Report} (hup : d.link.up = c.link.up) (h : d.link.reports = c.link.reports ++ [x]) :
    c.link.reports = [] ∧ unsent d = [] ∨ unsent d = c.link.reports.drop (sentPart c).length ++ [x] := by
  rw [← unsent_eq]
  unfold unsent
  rw [hup, h]
  by_cases hr : c.link.up = .report
  · rw [if_pos hr, if_pos hr]
    cases c.link.reports with
    | nil => exact .inl ⟨rfl, rfl⟩
    | cons y ys => exact .inr rfl
  · rw [if_neg hr, if_neg hr]
    exact .inr rfl

theorem isCreditOf_iff {r : Nat} {x : Report} : isCreditOf r x = true ↔ ∃ v, x = .credit r v := by
  cases x <;> simp [isCreditOf]

/-- With no unsent CREDIT of the route a CREDIT stands behind the records that wait. -/
theorem queueCredit_appended {r v : Nat} {c : Chip} (h : ∀ w, Report.credit r w ∉ unsent c) :
    (queueCredit r v c).link.reports = c.link.reports ++ [.credit r v] := by
  have hnone : ¬(unsent c).any (isCreditOf r) = true := by
    rw [List.any_eq_true]
    rintro ⟨x, hx, hcredit⟩
    obtain ⟨w, rfl⟩ := isCreditOf_iff.mp hcredit
    exact h w hx
  unfold queueCredit
  rw [if_neg hnone]
  exact queueRecord_reports _ c

theorem map_credit_of_none {r v : Nat} {xs : List Report} (h : ∀ w, Report.credit r w ∉ xs) :
    (xs.map fun x => if isCreditOf r x then .credit r v else x) = xs := by
  refine (List.map_congr_left fun x hx => if_neg fun hcredit => ?_).trans (List.map_id' xs)
  obtain ⟨w, rfl⟩ := isCreditOf_iff.mp hcredit
  exact h w hx

/-- The one unsent CREDIT of the route is rewritten in place. -/
theorem queueCredit_rewritten {r v w : Nat} {c : Chip} {sent before rest : List Report}
    (hreports : c.link.reports = sent ++ (before ++ .credit r w :: rest)) (hunsent : unsent c = before ++ .credit r w :: rest)
    (hbefore : ∀ k, Report.credit r k ∉ before) (hrest : ∀ k, Report.credit r k ∉ rest) :
    (queueCredit r v c).link.reports = sent ++ (before ++ .credit r v :: rest) := by
  have hself (k : Nat) : isCreditOf r (.credit r k) = true := isCreditOf_iff.mpr ⟨k, rfl⟩
  have hany : (unsent c).any (isCreditOf r) = true := by
    rw [hunsent]
    exact List.any_eq_true.mpr ⟨_, List.mem_append_right _ List.mem_cons_self, hself w⟩
  unfold queueCredit
  rw [if_pos hany]
  dsimp only
  rw [hunsent, hreports, List.length_append, Nat.add_sub_cancel, List.take_left' rfl, List.map_append, List.map_cons,
    map_credit_of_none hbefore, map_credit_of_none hrest, if_pos (hself w)]

/-! ## An accepted OPEN -/

/-- The part where an accepted OPEN's REPLY is queued. -/
def openReplied (p : List Byte) (adjusted : Bool) (q : OpenReq) (c : Chip) : Chip :=
  reply p (if adjusted then .adjusted else .accepted) (fillRoute q c)

theorem acceptOpen_frame (p : List Byte) (adjusted : Bool) (q : OpenReq) (c : Chip) :
    let t := acceptOpen p adjusted q c
    let f := fillRoute q c
    t.routes = f.routes ∧ t.pool = f.pool ∧ t.scan = f.scan ∧ t.scanCh = f.scanCh ∧ t.printCh = f.printCh ∧ t.head = f.head ∧
      t.power.lamp = f.power.lamp ∧ t.power.head = f.power.head ∧
      t.link = (if q.source = .link then queueCredit q.route q.quota (openReplied p adjusted q c) else openReplied p adjusted q c).link := by
  have hsync (d : Chip) : (syncMotor d).routes = d.routes ∧ (syncMotor d).pool = d.pool ∧ (syncMotor d).scan = d.scan ∧
      (syncMotor d).scanCh = d.scanCh ∧ (syncMotor d).printCh = d.printCh ∧ (syncMotor d).head = d.head ∧
      (syncMotor d).power.lamp = d.power.lamp ∧ (syncMotor d).power.head = d.power.head ∧ (syncMotor d).link = d.link :=
    ⟨rfl, rfl, rfl, rfl, rfl, rfl, rfl, rfl, rfl⟩
  have haccept : acceptOpen p adjusted q c = syncMotor
    (if q.source = .link then queueCredit q.route q.quota (openReplied p adjusted q c) else openReplied p adjusted q c) := rfl
  obtain ⟨_, hreplied⟩ := queueRecord_eq (.reply (refOf p) (if adjusted then .adjusted else .accepted)) (fillRoute q c)
  obtain ⟨_, _, hcredit⟩ := queueCredit_eq q.route q.quota (openReplied p adjusted q c)
  intro t f
  obtain ⟨h1, h2, h3, h4, h5, h6, h7, h8, h9⟩ := hsync
    (if q.source = .link then queueCredit q.route q.quota (openReplied p adjusted q c) else openReplied p adjusted q c)
  rw [← haccept] at h1 h2 h3 h4 h5 h6 h7 h8 h9
  have hfields : (if q.source = .link then queueCredit q.route q.quota (openReplied p adjusted q c) else openReplied p adjusted q c) =
      { fillRoute q c with link :=
        (if q.source = .link then queueCredit q.route q.quota (openReplied p adjusted q c) else openReplied p adjusted q c).link } := by
    have hbase : openReplied p adjusted q c = { fillRoute q c with link := (openReplied p adjusted q c).link } := by
      unfold openReplied reply
      rw [hreplied]
    split
    · rw [hcredit, hbase]
    · exact hbase
  rw [hfields] at h1 h2 h3 h4 h5 h6 h7 h8
  exact ⟨h1, h2, h3, h4, h5, h6, h7, h8, h9⟩

theorem fillRoute_link {q : OpenReq} {c : Chip} (hr : q.route < c.routes.length) : (fillRoute q c).link = c.link := by
  obtain ⟨_, hreset⟩ := cursorReset_eq q c
  obtain ⟨-, -, -, -, hlink, -⟩ := scanTaken_frame q (cursorReset q c)
  have hprint (d : Chip) : (printTaken q d).link = d.link := by
    unfold printTaken
    split <;> rfl
  rw [fillRoute_eq hr]
  show (printTaken q (scanTaken q (cursorReset q c))).link = c.link
  rw [hprint, hlink, hreset]

/-- The records that an accepted OPEN leaves: the REPLY, and the CREDIT of a LINK source. -/
theorem acceptOpen_reports {p : List Byte} {adjusted : Bool} {q : OpenReq} {c : Chip} (hr : q.route < c.routes.length) :
    let reports := (acceptOpen p adjusted q c).link.reports
    let answer := if adjusted then Answer.adjusted else .accepted
    (q.source ≠ .link → reports = c.link.reports ++ [.reply (refOf p) answer]) ∧
    (q.source = .link → (∀ v, Report.credit q.route v ∉ c.link.reports.drop (sentPart c).length) →
      reports = c.link.reports ++ [.reply (refOf p) answer, .credit q.route q.quota]) ∧
    (q.source = .link → ∀ before v rest, c.link.reports = sentPart c ++ before ++ .credit q.route v :: rest →
      (∀ w, Report.credit q.route w ∉ before ++ rest) →
      reports = sentPart c ++ before ++ .credit q.route q.quota :: rest ++ [.reply (refOf p) answer]) := by
  intro reports answer
  obtain ⟨-, -, -, -, -, -, -, -, hlink⟩ := acceptOpen_frame p adjusted q c
  have hreplied : (openReplied p adjusted q c).link.reports = c.link.reports ++ [.reply (refOf p) answer] := by
    unfold openReplied reply
    rw [queueRecord_reports, fillRoute_link hr]
  have hup : (openReplied p adjusted q c).link.up = c.link.up := by
    unfold openReplied reply
    rw [← fillRoute_link hr]
    simp
  refine ⟨fun hs => ?_, fun hs hnone => ?_, fun hs before v rest hreports hnone => ?_⟩
  · unfold reports
    rw [hlink, if_neg hs, hreplied]
  · unfold reports
    rw [hlink, if_pos hs, queueCredit_appended, hreplied, List.append_assoc]
    · rfl
    · intro w hw
      rcases unsent_behind hup hreplied with ⟨-, hsent⟩ | hsent
      · rw [hsent] at hw
        exact List.not_mem_nil hw
      · rw [hsent] at hw
        rcases List.mem_append.mp hw with k | k
        · exact hnone w k
        · exact nomatch List.mem_singleton.mp k
  · unfold reports
    rw [hlink, if_pos hs]
    rw [List.append_assoc] at hreports
    have hunsent : unsent (openReplied p adjusted q c) = before ++ .credit q.route v :: (rest ++ [.reply (refOf p) answer]) := by
      rcases unsent_behind hup hreplied with ⟨hempty, -⟩ | hsent
      · rw [hempty] at hreports
        simp at hreports
      · rw [hsent, hreports, List.drop_left' rfl, List.append_assoc, List.cons_append]
    have hqueued : (openReplied p adjusted q c).link.reports =
        sentPart c ++ (before ++ .credit q.route v :: (rest ++ [.reply (refOf p) answer])) := by
      rw [hreplied, hreports, List.append_assoc, List.append_assoc, List.cons_append]
    rw [queueCredit_rewritten hqueued hunsent (fun k hk => hnone k (List.mem_append_left _ hk))]
    · simp only [List.append_assoc, List.cons_append]
    · intro k hk
      rcases List.mem_append.mp hk with hk | hk
      · exact hnone k (List.mem_append_right _ hk)
      · exact nomatch List.mem_singleton.mp hk

/-! ## The values held (R9) -/

theorem clamp_eq {lo hi : Nat} (h : lo ≤ hi) (v : Nat) : clamp lo hi v = min hi (max lo v) := by
  unfold clamp
  split
  · omega
  · split <;> omega

theorem raisePeriod_eq (ramp : List Nat) (period s : Nat) :
    raisePeriod ramp period s = if period / s < ramp.getLastD 0 then s * ramp.getLastD 0 else period := by
  unfold raisePeriod lastEntry
  by_cases h : ramp.getLastD 0 ≤ period / s
  · rw [if_pos h, if_neg (Nat.not_lt.mpr h)]
  · rw [if_neg h, if_pos (Nat.lt_of_not_le h)]

theorem scanParams_held (y : ScanParams) : y.held = { y with
    q := min 256 (max 128 y.q), topOffset := min 1000 y.topOffset, tailLines := min 500 y.tailLines,
    pickLimit := min 4000 (max 16 y.pickLimit), maxSteps := min 65535 (max 1024 y.maxSteps) } := by
  unfold ScanParams.held
  simp only [clamp_eq (show 128 ≤ 256 by decide), clamp_eq (show 0 ≤ 1000 by decide), clamp_eq (show 0 ≤ 500 by decide),
    clamp_eq (show 16 ≤ 4000 by decide), clamp_eq (show 1024 ≤ 65535 by decide), Nat.zero_max]

/-- The quota that is settled where the minimum is met. -/
theorem settleQuota_met {c : Chip} {q : OpenReq} (hleast : leastQuota c q ≤ 28) (hroom : leastQuota c q ≤ roomFor c) :
    settleQuota c (q.held c) = some (min (roomFor c) (max (leastQuota c q) (min 28 (max 2 q.quota)))) := by
  rw [settleQuota_held, if_neg (by omega), clamp_eq (by decide)]
  generalize min 28 (max 2 q.quota) = v
  split
  · rw [Nat.max_eq_left (by omega), Nat.min_eq_right hroom]
  · rw [Nat.max_eq_right (by omega)]
    split
    · rw [Nat.min_eq_left (by omega)]
    · rw [Nat.min_eq_right (by omega)]

/-- An OPEN with a PRINT sink has its parameters, another has none. -/
theorem printP_isSome_iff {p : List Byte} {q : OpenReq} (h : parseOpen p = some q) : q.printP.isSome = true ↔ Sink.print ∈ q.sinks := by
  have hread {here : Bool} {x y : List Byte} {pr : Option PrintParams} (hr : readPrint here x = some (pr, y)) : pr.isSome = here := by
    unfold readPrint at hr
    cases here with
    | true =>
      rw [if_pos rfl] at hr
      split at hr
      · cases hr
      · cases hr
        rfl
    | false =>
      rw [if_neg (by decide)] at hr
      cases hr
      rfl
  unfold parseOpen at h
  split at h
  · cases h
  · split at h
    next =>
      dsimp only at h
      split at h
      · cases h
      · split at h
        · cases h
        · split at h
          · cases h
          · split at h
            · cases h
            next hprint =>
              split at h
              · cases h
              · split at h
                · cases h
                · split at h
                  · cases h
                    rw [hread hprint, List.contains_iff_mem]
                  · cases h
    · cases h

/-! ## The blocks after take-up -/

theorem scanTaken_scan {q : OpenReq} (h : q.source = .scan) (c : Chip) :
    (scanTaken q c).scan = { Capture.default with state := .waiting, route := some q.route, lampUse := c.pins.docp } ∧
    (scanTaken q c).power.lamp = (if c.pins.docp then c.power.lamp.request 10000 else c.power.lamp) ∧
    (scanTaken q c).scanCh = c.scanCh.takeUp q.route q.period q.steps := by
  unfold scanTaken
  rw [if_pos h]
  exact ⟨rfl, rfl, rfl⟩

theorem scanTaken_other {q : OpenReq} (h : q.source ≠ .scan) (c : Chip) : scanTaken q c = c := if_neg h

theorem printTaken_frame (q : OpenReq) (c : Chip) : (printTaken q c).scan = c.scan ∧ (printTaken q c).scanCh = c.scanCh ∧
    (printTaken q c).power.lamp = c.power.lamp ∧ (printTaken q c).routes = c.routes ∧ (printTaken q c).pool = c.pool := by
  unfold printTaken
  split <;> exact ⟨rfl, rfl, rfl, rfl, rfl⟩

theorem printTaken_some {q : OpenReq} {x : PrintParams} (h : q.printP = some x) (c : Chip) : printTaken q c = { c with
    printCh := c.printCh.takeUp q.route q.period q.steps
    head := { c.head with route := some q.route, copy := some ⟨q.period, x.density, x.copies⟩, heatReported := false, headUse := true }
    power := { c.power with head := c.power.head.request 1000 } } := by
  unfold printTaken
  rw [h]

theorem printTaken_none {q : OpenReq} (h : q.printP = none) (c : Chip) : printTaken q c = c := by
  unfold printTaken
  rw [h]

theorem takeUp_eq (ch : Channel) (r period s : Nat) : ch.takeUp r period s = { ch with
    route := some r, run := some ⟨period, s, period / s, ch.ramp.findIdx fun e => decide (e ≤ period / s)⟩, rateReported := false,
    linePos := if ch.moving then ch.linePos else 0 } := rfl

/-- The OPEN as it is held, its quota settled. -/
def heldOpen (c : Chip) (q : OpenReq) : OpenReq :=
  { q.held c with quota := min (roomFor c) (max (leastQuota c q) (min 28 (max 2 q.quota))) }

theorem openChip_passes {p : List Byte} {q : OpenReq} (hq : parseOpen p = some q) {c : Chip} (hcheck : openCheck c q = none)
    (hperiod : heldPeriod c q ≤ 50000) (hleast : leastQuota c q ≤ 28) (hroom : leastQuota c q ≤ roomFor c) :
    openChip p c = acceptOpen p (decide (heldOpen c q ≠ q)) (heldOpen c q) c := by
  rw [openChip_parsed hq, hcheck]
  dsimp only
  rw [if_neg (Nat.not_lt.mpr hperiod), settleQuota_met hleast hroom]
  rfl

theorem route_lt_of_openCheck {c : Chip} {q : OpenReq} (h : openCheck c q = none) : q.route ≤ 3 := by
  unfold openCheck at h
  dsimp only at h
  split at h
  · cases h
  next hcombination => exact Nat.le_of_not_lt fun k => hcombination (.inl k)

theorem roomFor_eq (c : Chip) : roomFor c = 32 - (quotaOf c 0 + quotaOf c 1 + quotaOf c 2 + quotaOf c 3) -
    (match c.runOut with | some ro => charged c ro.route | none => 0) := by
  rw [← quotaSum_eq]
  rfl

/-- The OPEN as held, by its values. -/
theorem heldOpen_eq (c : Chip) (q : OpenReq) : heldOpen c q = { q with
    quota := min (roomFor c) (max (leastQuota c q) (min 28 (max 2 q.quota)))
    period := heldPeriod c q
    scanP := q.scanP.map fun y => { y with
      q := min 256 (max 128 y.q), topOffset := min 1000 y.topOffset, tailLines := min 500 y.tailLines,
      pickLimit := min 4000 (max 16 y.pickLimit), maxSteps := min 65535 (max 1024 y.maxSteps) }
    printP := q.printP.map fun y =>
      { density := min 24 (max 8 y.density), copies := heldCopies q,
        tailFeed := max y.tailFeed (runIndex c.printCh.ramp (heldPeriod c q / q.steps)) } } := by
  have hscan : q.scanP.map ScanParams.held = q.scanP.map fun y => { y with
      q := min 256 (max 128 y.q), topOffset := min 1000 y.topOffset, tailLines := min 500 y.tailLines,
      pickLimit := min 4000 (max 16 y.pickLimit), maxSteps := min 65535 (max 1024 y.maxSteps) } :=
    congrArg (fun f => q.scanP.map f) (funext scanParams_held)
  have hprint : (q.printP.map fun x => { x.held with tailFeed := max x.tailFeed (runIndex c.printCh.ramp (heldPeriod c q / q.steps)) }) =
      q.printP.map fun y => { density := min 24 (max 8 y.density), copies := heldCopies q,
                              tailFeed := max y.tailFeed (runIndex c.printCh.ramp (heldPeriod c q / q.steps)) } := by
    unfold heldCopies PrintParams.held
    cases q.printP with
    | none => rfl
    | some y => simp only [Option.map_some, clamp_eq (show 8 ≤ 24 by decide)]
  unfold heldOpen OpenReq.held
  dsimp only
  rw [hscan, hprint]

/-- What a directive that opens `q` leaves of the route and the blocks. -/
theorem acceptOpen_opened {p : List Byte} {adjusted : Bool} {q : OpenReq} {c : Chip} (hr : q.route < c.routes.length) :
    let t := acceptOpen p adjusted q c
    getRoute t q.route = { ctx := some (takenCtx q c), pagesDone := 0, overrun := false, haltReported := false } ∧
    (q.source = .scan →
      t.scan = { Capture.default with state := .waiting, route := some q.route, lampUse := c.pins.docp } ∧
      t.power.lamp = (if c.pins.docp then c.power.lamp.request 10000 else c.power.lamp) ∧
      t.scanCh = c.scanCh.takeUp q.route q.period q.steps) ∧
    (q.source ≠ .scan → t.scan = c.scan ∧ t.scanCh = c.scanCh ∧ t.power.lamp = c.power.lamp) ∧
    (∀ y, q.printP = some y →
      t.head.route = some q.route ∧ t.head.copy = some ⟨q.period, y.density, y.copies⟩ ∧ t.head.heatReported = false ∧
      t.head.headUse = true ∧ t.power.head = c.power.head.request 1000 ∧ t.printCh = c.printCh.takeUp q.route q.period q.steps) ∧
    (q.printP = none → t.head = c.head ∧ t.printCh = c.printCh) ∧
    (∀ r, r ≠ q.route → getRoute t r = getRoute c r) := by
  intro t
  obtain ⟨hroutes, -, hscan, hscanCh, hprintCh, hhead, hlamp, hheadPower, -⟩ := acceptOpen_frame p adjusted q c
  obtain ⟨store, hreset⟩ := cursorReset_eq q c
  obtain ⟨shead, sprint, sroutes, -, -, spower⟩ := scanTaken_frame q (cursorReset q c)
  obtain ⟨pscan, pscanCh, plamp, proutes, -⟩ := printTaken_frame q (scanTaken q (cursorReset q c))
  rw [fillRoute_eq hr] at hroutes hscan hscanCh hprintCh hhead hlamp hheadPower
  have hbase : (printTaken q (scanTaken q (cursorReset q c))).routes = c.routes := by rw [proutes, sroutes, hreset]
  refine ⟨?_, fun hs => ?_, fun hs => ?_, fun y hy => ?_, fun hn => ?_, fun r hne => ?_⟩
  · exact (getRoute_congr (by exact hroutes) _).trans (getRoute_routed (by rw [hbase]; exact hr) _)
  · obtain ⟨k1, k2, k3⟩ := scanTaken_scan hs (cursorReset q c)
    rw [hreset] at k1 k2 k3 pscan pscanCh plamp
    refine ⟨hscan.trans ?_, hlamp.trans ?_, hscanCh.trans ?_⟩
    · exact (by rw [hreset]; exact pscan.trans k1)
    · exact (by rw [hreset]; exact plamp.trans k2)
    · exact (by rw [hreset]; exact pscanCh.trans k3)
  · rw [scanTaken_other hs, hreset] at pscan pscanCh plamp
    refine ⟨hscan.trans ?_, hscanCh.trans ?_, hlamp.trans ?_⟩
    · exact (by rw [hreset, scanTaken_other hs]; exact pscan)
    · exact (by rw [hreset, scanTaken_other hs]; exact pscanCh)
    · exact (by rw [hreset, scanTaken_other hs]; exact plamp)
  · have htaken := printTaken_some hy (scanTaken q (cursorReset q c))
    rw [htaken] at hhead hheadPower hprintCh
    unfold t
    rw [hhead, hheadPower, hprintCh]
    dsimp only [routed]
    rw [spower, sprint, hreset]
    exact ⟨rfl, rfl, rfl, rfl, rfl, rfl⟩
  · have htaken := printTaken_none hn (scanTaken q (cursorReset q c))
    rw [htaken] at hhead hprintCh
    unfold t
    rw [hhead, hprintCh]
    dsimp only [routed]
    rw [shead, sprint, hreset]
    exact ⟨rfl, rfl⟩
  · refine (getRoute_congr (by exact hroutes) r).trans ?_
    exact (getRoute_setRoute_ne hne _ _).trans (getRoute_congr (by exact hbase) r)

/-- Settles O22, by the values held, take-up of the blocks, and the records queued. -/
theorem openFillsTheRoute : Obligations.OpenFillsTheRoute := by
  unfold Obligations.OpenFillsTheRoute
  intro p q s h hq c into base raised period u index copies least quotas room quota scanP printP answer hlen hcheck hperiod hleast hroom
  have kperiod : heldPeriod c q = period := by
    rw [heldPeriod_eq, raisePeriod_eq, raisePeriod_eq, clamp_eq (by decide)]
  have kcopies : heldCopies q = copies := by
    unfold heldCopies copies
    cases q.printP with
    | none => rfl
    | some y => exact clamp_eq (by decide) _
  have kleast : leastQuota c q = least := by
    unfold leastQuota
    rw [kperiod, kcopies]
    rfl
  have kroom : roomFor c = room := roomFor_eq c
  have kheld : heldOpen c q = { q with quota := quota, period := period, scanP := scanP, printP := printP } := by
    rw [heldOpen_eq, kperiod, kleast, kroom, kcopies]
    rfl
  have hr : q.route < c.routes.length := by
    have hle := route_lt_of_openCheck hcheck
    omega
  have hexec := exec_openRoute (p := p) h
  rw [openChip_passes hq hcheck (by rw [kperiod]; exact hperiod) (by rw [kleast]; exact hleast) (by rw [kleast, kroom]; exact hroom), kheld]
    at hexec
  obtain ⟨hroute, hscan, hnoScan, hprint, hnoPrint, hother⟩ := acceptOpen_opened (p := p)
    (adjusted := decide ({ q with quota := quota, period := period, scanP := scanP, printP := printP } ≠ q))
    (q := { q with quota := quota, period := period, scanP := scanP, printP := printP }) (c := c) (by exact hr)
  obtain ⟨hplain, hcredit, hrewritten⟩ := acceptOpen_reports (p := p)
    (adjusted := decide ({ q with quota := quota, period := period, scanP := scanP, printP := printP } ≠ q))
    (q := { q with quota := quota, period := period, scanP := scanP, printP := printP }) (c := c) (by exact hr)
  have hanswer : (if decide ({ q with quota := quota, period := period, scanP := scanP, printP := printP } ≠ q) = true then Answer.adjusted
      else .accepted) = answer := by
    unfold answer
    by_cases heq : { q with quota := quota, period := period, scanP := scanP, printP := printP } = q
    · rw [if_neg (by simp [heq]), if_pos heq]
    · rw [if_pos (by simp [heq]), if_neg heq]
  rw [hanswer] at hplain hcredit hrewritten
  have hsome : printP.isSome = true ↔ Sink.print ∈ q.sinks := by
    rw [← printP_isSome_iff hq]
    unfold printP
    rw [Option.isSome_map]
  refine ⟨_, _, hexec, congrArg Route.ctx hroute, rfl, rfl, rfl, rfl, rfl, rfl, rfl, rfl, rfl, rfl, rfl, rfl, rfl, rfl, rfl, rfl, rfl, rfl, rfl,
    rfl, ?_, ?_, congrArg Route.pagesDone hroute, congrArg Route.overrun hroute, hplain, ⟨hcredit, hrewritten⟩, hscan, hnoScan, hprint,
    hnoPrint, hother, acceptOpen_pool _ _ _ _, rfl⟩
  · unfold takenCtx
    simp only [hsome]
  · unfold takenCtx
    simp only [hsome]

end Sys2Proof.Proofs
end

section
/-!
PROOFS. Rules of the block table and the page directory (06_page_store.md R103, R104, R106, R107), and the directives that take effect on
them at once: DELETE, LOCK PAGE, SET CODE, SET MASTER LOCK, the setups and CONFIRM.
-/

-- One declaration after another: the package as one text keeps within the check's limit on threads.
set_option Elab.async false

namespace Sys2Proof.Proofs

open Sys2Proof Sys2Proof.Machine

/-! ## The block table -/

theorem blockAt_congr {c t : Chip} (h : t.store.blocks = c.store.blocks) (b : Nat) : blockAt t b = blockAt c b := by
  unfold blockAt
  rw [h]

theorem blockAt_modBlock (b n : Nat) (f : Block → Block) (c : Chip) :
    blockAt (modBlock b f c) n = if n = b ∧ b < c.store.blocks.length then f (blockAt c b) else blockAt c n := by
  unfold modBlock blockAt
  dsimp only
  simp only [List.getD_eq_getElem?_getD, List.getElem?_set]
  by_cases hn : b = n
  · subst hn
    by_cases hb : b < c.store.blocks.length
    · simp [hb]
    · simp [hb]
  · rw [if_neg hn, if_neg fun h => hn h.1.symm]

theorem blockAt_modBlock_self {b : Nat} {c : Chip} (h : b < c.store.blocks.length) (f : Block → Block) :
    blockAt (modBlock b f c) b = f (blockAt c b) := by
  rw [blockAt_modBlock, if_pos ⟨rfl, h⟩]

theorem blockAt_modBlock_ne {b n : Nat} (h : n ≠ b) (f : Block → Block) (c : Chip) : blockAt (modBlock b f c) n = blockAt c n := by
  rw [blockAt_modBlock, if_neg fun k => h k.1]

@[simp] theorem modBlock_length (b : Nat) (f : Block → Block) (c : Chip) :
    (modBlock b f c).store.blocks.length = c.store.blocks.length := List.length_set

@[simp] theorem setBlockState_length (b : Nat) (st : BlockState) (c : Chip) :
    (setBlockState b st c).store.blocks.length = c.store.blocks.length := modBlock_length _ _ c

@[simp] theorem modBlock_store_frame (b : Nat) (f : Block → Block) (c : Chip) :
    (modBlock b f c).store.op = c.store.op ∧ (modBlock b f c).store.dir = c.store.dir ∧
    (modBlock b f c).store.erasedList = c.store.erasedList ∧ (modBlock b f c).store.eraseQueue = c.store.eraseQueue ∧
    (modBlock b f c).store.setup = c.store.setup ∧ (modBlock b f c).store.programFault = c.store.programFault ∧
    (modBlock b f c).store.eraseFault = c.store.eraseFault ∧ (modBlock b f c).store.totalFault = c.store.totalFault :=
  ⟨rfl, rfl, rfl, rfl, rfl, rfl, rfl, rfl⟩

@[simp] theorem setBlockState_store_frame (b : Nat) (st : BlockState) (c : Chip) :
    (setBlockState b st c).store.op = c.store.op ∧ (setBlockState b st c).store.dir = c.store.dir ∧
    (setBlockState b st c).store.erasedList = c.store.erasedList ∧ (setBlockState b st c).store.eraseQueue = c.store.eraseQueue ∧
    (setBlockState b st c).store.setup = c.store.setup ∧ (setBlockState b st c).store.programFault = c.store.programFault ∧
    (setBlockState b st c).store.eraseFault = c.store.eraseFault ∧ (setBlockState b st c).store.totalFault = c.store.totalFault :=
  modBlock_store_frame _ _ c

/-- A block that leaves its page: its state, and no page. -/
def Block.leaving (st : BlockState) (x : Block) : Block := { x with state := st, page := none }

theorem blockAt_setBlockState {st : BlockState} (h : st ≠ .claimed ∧ st ≠ .full) (b n : Nat) (c : Chip) : blockAt (setBlockState b st c) n =
    if n = b ∧ b < c.store.blocks.length then Block.leaving st (blockAt c b) else blockAt c n := by
  have hleaves : (fun x : Block => { x with state := st, page := if st = .claimed ∨ st = .full then x.page else none }) =
      Block.leaving st := by
    funext x
    rw [if_neg fun k => k.elim h.1 h.2]
    rfl
  unfold setBlockState
  rw [hleaves, blockAt_modBlock]

/-- A change of one block after another, each by its own rule. -/
theorem blockAt_fold {g : Chip → Nat → Chip} {φ : Nat → Block → Block}
    (hg : ∀ c b n, blockAt (g c b) n = if n = b ∧ b < c.store.blocks.length then φ b (blockAt c b) else blockAt c n)
    (hlen : ∀ c b, (g c b).store.blocks.length = c.store.blocks.length) (hφ : ∀ b x, φ b (φ b x) = φ b x) (bs : List Nat) (c : Chip) (n : Nat) :
    blockAt (bs.foldl g c) n = if n ∈ bs ∧ n < c.store.blocks.length then φ n (blockAt c n) else blockAt c n := by
  induction bs generalizing c with
  | nil => rw [if_neg fun h => absurd h.1 List.not_mem_nil]; rfl
  | cons b bs ih =>
    rw [List.foldl_cons, ih, hlen, hg]
    by_cases hn : n = b
    · subst hn
      by_cases hlt : n < c.store.blocks.length
      · simp only [hlt, and_self, and_true, if_true, hφ, ite_self, List.mem_cons, true_or]
      · simp only [hlt, and_false, if_false]
    · simp only [hn, false_and, if_false, List.mem_cons, false_or]

/-- What every step of a fold leaves as it is. -/
theorem foldl_same {α β : Type} {g : Chip → α → Chip} {f : Chip → β} (hg : ∀ c a, f (g c a) = f c) (as : List α) (c : Chip) :
    f (as.foldl g c) = f c := by
  induction as generalizing c with
  | nil => rfl
  | cons a as ih => exact (ih _).trans (hg c a)

/-! ## The lists of blocks -/

theorem joinErased_eq (b : Nat) (c : Chip) : ∃ erased, joinErased b c = { c with store := { c.store with erasedList := erased } } := by
  unfold joinErased
  split <;> exact ⟨_, rfl⟩

theorem joinEraseQueue_eq (b : Nat) (c : Chip) : ∃ queue, joinEraseQueue b c = { c with store := { c.store with eraseQueue := queue } } := by
  unfold joinEraseQueue
  split <;> exact ⟨_, rfl⟩

theorem mem_insertErased (c : Chip) (b n : Nat) (xs : List Nat) : n ∈ insertErased c b xs ↔ n = b ∨ n ∈ xs := by
  induction xs with
  | nil => exact List.mem_singleton.trans (by simp)
  | cons x xs ih =>
    unfold insertErased
    split
    · exact List.mem_cons
    · rw [List.mem_cons, List.mem_cons, ih]
      tauto

/-- What is on the erased-block list behind a block that joins it. -/
theorem mem_joinErased (b n : Nat) (c : Chip) : n ∈ (joinErased b c).store.erasedList ↔
    n ∈ c.store.erasedList ∨ n = b ∧ (blockAt c b).state = .erased ∧ (blockAt c b).lock = false := by
  unfold joinErased
  split
  next h =>
    rw [mem_insertErased]
    exact ⟨fun k => k.elim (fun k => .inr ⟨k, h.1, h.2.1⟩) .inl, fun k => k.elim .inr fun k => .inl k.1⟩
  next h =>
    refine ⟨.inl, fun k => k.elim id ?_⟩
    rintro ⟨rfl, hstate, hlock⟩
    by_contra hn
    exact h ⟨hstate, hlock, hn⟩

@[simp] theorem blockAt_joinErased (b n : Nat) (c : Chip) : blockAt (joinErased b c) n = blockAt c n := by
  obtain ⟨_, h⟩ := joinErased_eq b c
  rw [h]
  rfl

@[simp] theorem blockAt_joinEraseQueue (b n : Nat) (c : Chip) : blockAt (joinEraseQueue b c) n = blockAt c n := by
  obtain ⟨_, h⟩ := joinEraseQueue_eq b c
  rw [h]
  rfl

@[simp] theorem blockAt_askProgram (j : Job) (c : Chip) (n : Nat) : blockAt (askProgram j c) n = blockAt c n := blockAt_congr (by simp) n

@[simp] theorem blockAt_queueRecord (x : Report) (c : Chip) (n : Nat) : blockAt (queueRecord x c) n = blockAt c n := blockAt_congr (by simp) n

@[simp] theorem blockAt_queueEvent (e : Event) (c : Chip) (n : Nat) : blockAt (queueEvent e c) n = blockAt c n := blockAt_congr (by simp) n

/-! ## The page directory -/

theorem pageOf_congr {c t : Chip} (h : t.store.dir = c.store.dir) (id : Nat) : pageOf t id = pageOf c id := by
  unfold pageOf
  rw [h]

theorem pageOf_removePage_self (id : Nat) (c : Chip) : pageOf (removePage id c) id = none := by
  unfold pageOf removePage
  rw [List.find?_eq_none]
  intro x hx
  have hne := (List.mem_filter.mp hx).2
  simpa using hne

theorem pageOf_removePage_ne {id n : Nat} (h : n ≠ id) (c : Chip) : pageOf (removePage id c) n = pageOf c n := by
  unfold pageOf removePage
  rw [List.find?_filter]
  congr 1
  funext p
  by_cases hp : p.id = n
  · simp [hp, h]
  · simp [hp]

/-! ## Retiring blocks (R120) -/

theorem blockAt_retireBlock (why : RetireFor) (c : Chip) (b n : Nat) : blockAt (retireBlock why c b) n =
    if n = b ∧ b < c.store.blocks.length then Block.leaving .retired (blockAt c b) else blockAt c n := by
  unfold retireBlock
  rw [blockAt_askProgram, blockAt_setBlockState (by decide)]

theorem retireBlock_frame (why : RetireFor) (c : Chip) (b : Nat) : (retireBlock why c b).store.blocks.length = c.store.blocks.length ∧
    (retireBlock why c b).store.dir = c.store.dir ∧ (retireBlock why c b).boot = c.boot := by
  unfold retireBlock
  simp

theorem retireBlocks_fold (why : RetireFor) (bs : List Nat) (c : Chip) : ∃ retires,
    retireBlocks why bs c = bs.foldl (retireBlock why) { c with store := { c.store with retires := retires } } := by
  unfold retireBlocks
  split <;> exact ⟨_, rfl⟩

/-- Retired blocks are RETIRED and leave their page; no other block and no page changes. -/
theorem blockAt_retireBlocks (why : RetireFor) (bs : List Nat) (c : Chip) (n : Nat) : blockAt (retireBlocks why bs c) n =
    if n ∈ bs ∧ n < c.store.blocks.length then Block.leaving .retired (blockAt c n) else blockAt c n := by
  obtain ⟨_, h⟩ := retireBlocks_fold why bs c
  rw [h]
  exact blockAt_fold (φ := fun _ => Block.leaving .retired) (blockAt_retireBlock why) (fun c b => (retireBlock_frame why c b).1)
    (fun _ _ => rfl) bs _ n

theorem retireBlocks_dir (why : RetireFor) (bs : List Nat) (c : Chip) : (retireBlocks why bs c).store.dir = c.store.dir := by
  obtain ⟨_, h⟩ := retireBlocks_fold why bs c
  rw [h]
  exact foldl_same (f := fun d => d.store.dir) (fun d b => (retireBlock_frame why d b).2.1) bs _

/-! ## DELETE (R119) -/

theorem deleteCheck_eq {id : Nat} {pg : Page} {c : Chip} (htaken : storeTaken c = false) (hpage : pageOf c id = some pg)
    (hwriting : pg.writing = false) (hread : pageRead id c = false) (hboot : bootUses id c = false) :
    deleteCheck id c = if pg.blocks.all (lockPasses c) then none else some .protected_ := by
  unfold deleteCheck
  rw [htaken, hpage]
  dsimp only
  rw [hwriting, hread, hboot]
  rfl

/-- The page leaves the directory and its blocks are RETIRED. -/
theorem acceptDelete_tables {id : Nat} {pg : Page} {c : Chip} (hpage : pageOf c id = some pg) (hblocks : ∀ b ∈ pg.blocks, b < c.store.blocks.length) :
    pageOf (acceptDelete id c) id = none ∧ (∀ n, n ≠ id → pageOf (acceptDelete id c) n = pageOf c n) ∧
    ∀ b, blockAt (acceptDelete id c) b = if b ∈ pg.blocks then Block.leaving .retired (blockAt c b) else blockAt c b := by
  have htables : (acceptDelete id c).store.dir = (removePage id c).store.dir ∧
      ∀ b, blockAt (acceptDelete id c) b = if b ∈ pg.blocks then Block.leaving .retired (blockAt c b) else blockAt c b := by
    have hlost : ∃ boot, (if (removePage id c).boot.installed = some id then loseImage (removePage id c) else removePage id c) =
        { removePage id c with boot := boot } := by
      split <;> exact ⟨_, rfl⟩
    obtain ⟨boot, hlost⟩ := hlost
    unfold acceptDelete
    rw [hpage]
    dsimp only
    rw [hlost]
    split
    next hempty =>
      have hnone : pg.blocks = [] := List.isEmpty_iff.mp hempty
      refine ⟨by simp, fun b => ?_⟩
      rw [blockAt_queueEvent, hnone, if_neg List.not_mem_nil]
      rfl
    · refine ⟨retireBlocks_dir _ _ _, fun b => ?_⟩
      rw [blockAt_retireBlocks]
      by_cases hb : b ∈ pg.blocks
      · rw [if_pos ⟨hb, hblocks b hb⟩, if_pos hb]
        rfl
      · rw [if_neg fun k => hb k.1, if_neg hb]
        rfl
  obtain ⟨hdir, hblock⟩ := htables
  exact ⟨(pageOf_congr hdir id).trans (pageOf_removePage_self id c), fun n hn => (pageOf_congr hdir n).trans (pageOf_removePage_ne hn c), hblock⟩

/-- Settles O33, by the page's retired blocks and the directory without the page. -/
theorem deleteTakesThePageAway : Obligations.DeleteTakesThePageAway := by
  unfold Obligations.DeleteTakesThePageAway
  rintro p _ pg s h hp rfl c htaken hpage hwriting hread hboot
  have hcheck := deleteCheck_eq htaken hpage hwriting hread hboot
  have hexec : exec (.delete p) s = .next (s.withChip (match deleteCheck (numAt p 1 2) c with
      | some .protected_ => refuseProtected p c
      | some r => refuse p r c
      | none => acceptDelete (numAt p 1 2) (reply p .accepted c))) :=
    (exec_owned_length (n := 2) (by rfl) h hp).trans (by rfl)
  refine ⟨fun hpass hblocks => ?_, fun hlocked => ?_⟩
  · rw [hcheck, if_pos hpass] at hexec
    obtain ⟨hgone, hpages, hblock⟩ := acceptDelete_tables (c := reply p .accepted c) ((pageOf_congr (by simp [reply]) _).trans hpage)
      (by simpa [reply] using hblocks)
    simp only [reply, blockAt_queueRecord] at hblock
    refine ⟨_, hexec, hgone, fun n hn => (hpages n hn).trans (pageOf_congr (by simp [reply]) n), fun b hb => ?_, fun b hb => ?_, rfl⟩
    · have hleft := (hblock b).trans (if_pos hb)
      exact ⟨congrArg Block.state hleft, congrArg Block.page hleft⟩
    · exact (hblock b).trans (if_neg hb)
  · rw [hcheck, if_neg (by rw [hlocked]; decide)] at hexec
    exact hexec

/-! ## LOCK PAGE, SET CODE, SET MASTER LOCK (R134 to R136) -/

/-- A block with its cell set. -/
def Block.locked (x : Block) : Block := { x with lock := true }

/-- One cell set in the table. -/
def lockBlock (c : Chip) (b : Nat) : Chip :=
  let d := modBlock b Block.locked c
  { d with store := { d.store with erasedList := d.store.erasedList.filter (· ≠ b) } }

theorem setLocks_eq (bs : List Nat) (c : Chip) : setLocks bs c = bs.foldl lockBlock c := rfl

theorem blockAt_setLocks (bs : List Nat) (c : Chip) (n : Nat) : blockAt (setLocks bs c) n =
    if n ∈ bs ∧ n < c.store.blocks.length then Block.locked (blockAt c n) else blockAt c n := by
  rw [setLocks_eq]
  exact blockAt_fold (g := lockBlock) (φ := fun _ => Block.locked) (fun d b n => blockAt_modBlock b n Block.locked d) (fun d b => modBlock_length b _ d)
    (fun _ _ => rfl) bs c n

theorem setLocks_erasedList (bs : List Nat) (c : Chip) : ∀ b ∈ bs, b ∉ (setLocks bs c).store.erasedList := by
  have hshrinks (bs : List Nat) : ∀ d, (bs.foldl lockBlock d).store.erasedList ⊆ d.store.erasedList := by
    induction bs with
    | nil => exact fun d => List.Subset.refl _
    | cons b bs ih => exact fun d => List.Subset.trans (ih (lockBlock d b)) (List.filter_subset_self _)
  rw [setLocks_eq]
  induction bs generalizing c with
  | nil => exact fun b hb => absurd hb List.not_mem_nil
  | cons b bs ih =>
    intro n hn
    rcases List.mem_cons.mp hn with rfl | hin
    · intro hk
      have hkept := (List.mem_filter.mp (hshrinks bs (lockBlock c n) hk)).2
      simp at hkept
    · exact ih (lockBlock c b) n hin

theorem exec_lockPage {p : List Byte} {s : State} (h : Taken s) (hp : p.length = 3) {pg : Page}
    (hcheck : lockPageCheck (numAt p 1 2) (streamRules (.lockPage p) s.chip) = none)
    (hpage : pageOf (streamRules (.lockPage p) s.chip) (numAt p 1 2) = some pg) :
    let c := streamRules (.lockPage p) s.chip
    let cells := pg.blocks.filter fun b => !(blockAt c b).lock
    exec (.lockPage p) s = .next (s.withChip (
      if cells.isEmpty then queueEvent (.storeOpDone .lockPage (some (numAt p 1 2)) .done) (reply p .accepted c)
      else askProgram (.row (.lockPage (numAt p 1 2) cells)) (setLocks cells (reply p .accepted c)))) := by
  intro c cells
  have hexec : exec (.lockPage p) s = .next (s.withChip (match lockPageCheck (numAt p 1 2) c with
      | some .protected_ => refuseProtected p c
      | some r => refuse p r c
      | none => acceptLockPage (numAt p 1 2) (reply p .accepted c))) :=
    (exec_owned_length (n := 2) (by rfl) h hp).trans (by rfl)
  have hreplied : pageOf (reply p .accepted c) (numAt p 1 2) = some pg := (pageOf_congr (c := c) (by simp [reply]) _).trans hpage
  have hcells : (pg.blocks.filter fun b => !(blockAt (reply p .accepted c) b).lock) = cells := by
    simp only [cells, reply, blockAt_queueRecord]
  rw [hcheck] at hexec
  rw [hexec]
  dsimp only
  unfold acceptLockPage
  rw [hreplied]
  dsimp only
  rw [hcells]

theorem exec_setCode {p : List Byte} {s : State} (h : Taken s) (hp : p.length = 9) :
    exec (.setCode p) s = .next (s.withChip (setCodeChip p (streamRules (.setCode p) s.chip))) :=
  exec_owned (by rfl) h (List.ne_nil_of_length_eq_add_one hp)

/-- SET CODE where the store is not taken and the copy is known. -/
theorem setCodeChip_eq {p : List Byte} {k : KeyCopy} {c : Chip} (hp : p.length = 9) (hcode : (codeOf (p.drop 1)).isSome = true)
    (htaken : storeTaken c = false) (hcopy : c.prot.copy = some k) : setCodeChip p c =
      if k.code.isSome then refuseProtected p c
      else askProgram (.row (.setCode (p.drop 1)))
        { reply p .accepted c with prot := { c.prot with copy := some { k with code := some (p.drop 1) } } } := by
  have hform : ¬(p.length ≠ 9 ∨ (codeOf (p.drop 1)).isNone = true) := by
    rw [not_or, not_not, Option.isNone_iff_eq_none]
    exact ⟨hp, Option.isSome_iff_ne_none.mp hcode⟩
  have hheld : codeHeld c = k.code := by
    unfold codeHeld
    rw [hcopy]
    rfl
  have hprot : (reply p .accepted c).prot = c.prot := by simp [reply]
  unfold setCodeChip
  rw [if_neg hform, htaken, hheld]
  dsimp only
  rw [hprot, hcopy]
  rfl

/-- SET MASTER LOCK where the store is not taken and the copy is known. -/
theorem setMasterChip_eq {p : List Byte} {k : KeyCopy} {c : Chip} (hp : p.length = 1) (htaken : storeTaken c = false)
    (hcopy : c.prot.copy = some k) : setMasterChip p c =
      if k.code.isNone then refuse p .noCode c
      else if k.master then queueEvent (.storeOpDone .setMasterLock none .done) (reply p .accepted c)
      else askProgram (.row .setMaster)
        { reply p .accepted c with prot := { c.prot with copy := some { k with master := true } } } := by
  have hheld : codeHeld c = k.code := by
    unfold codeHeld
    rw [hcopy]
    rfl
  have hprot : (reply p .accepted c).prot = c.prot := by simp [reply]
  have hmaster : masterSet (reply p .accepted c) = k.master := by
    unfold masterSet
    rw [hprot, hcopy]
  unfold setMasterChip
  rw [withLength_of_eq hp, htaken, hheld]
  dsimp only
  rw [hmaster, hprot, hcopy]
  rfl

/-- Settles O34, by the cells that are clear, the code held and the master cell. -/
theorem locksAndCodeAreInForceAtOnce : Obligations.LocksAndCodeAreInForceAtOnce := by
  unfold Obligations.LocksAndCodeAreInForceAtOnce
  refine ⟨?_, fun p k s h hp hcode => ?_, fun p k s h hp => ?_⟩
  · rintro p _ pg s h hp rfl c cells hcheck hpage hblocks
    have hexec := exec_lockPage h hp hcheck hpage
    dsimp only at hexec
    have hmem (b : Nat) : b ∈ cells ↔ b ∈ pg.blocks ∧ (blockAt c b).lock = false := by
      simp only [cells, List.mem_filter, Bool.not_eq_true']
    refine ⟨fun hsome => ?_, fun hnone => ?_, ?_⟩
    · rw [hexec, if_neg (mt List.isEmpty_iff.mp hsome)]
    · rw [hexec, if_pos (List.isEmpty_iff.mpr hnone)]
    · refine ⟨_, hexec, ?_⟩
      dsimp only
      by_cases hnone : cells = []
      · rw [if_pos (List.isEmpty_iff.mpr hnone)]
        have hset (b : Nat) (hb : b ∈ pg.blocks) : (blockAt c b).lock = true := by
          by_contra hk
          have hin := (hmem b).mpr ⟨hb, Bool.not_eq_true _ ▸ hk⟩
          rw [hnone] at hin
          exact List.not_mem_nil hin
        simp only [reply, blockAt_queueEvent, blockAt_queueRecord]
        exact ⟨hset, fun b hb hk => absurd (hset b hb) (by rw [hk]; decide), fun _ _ => rfl, trivial⟩
      · rw [if_neg (mt List.isEmpty_iff.mp hnone)]
        have hblock (b : Nat) : blockAt (askProgram (.row (.lockPage (numAt p 1 2) cells)) (setLocks cells (reply p .accepted c))) b =
            if b ∈ cells ∧ b < c.store.blocks.length then Block.locked (blockAt c b) else blockAt c b := by
          rw [blockAt_askProgram, blockAt_setLocks]
          simp [reply]
        refine ⟨fun b hb => ?_, fun b hb hk => ?_, fun b hb => ?_, rfl⟩
        · rw [hblock]
          split
          · rfl
          next hout =>
            by_contra hk
            exact hout ⟨(hmem b).mpr ⟨hb, Bool.not_eq_true _ ▸ hk⟩, hblocks b hb⟩
        · have hout := setLocks_erasedList cells (reply p .accepted c) b ((hmem b).mpr ⟨hb, hk⟩)
          simpa using hout
        · rw [hblock, if_neg fun k => hb ((hmem b).mp k.1).1]
  · intro c htaken hcopy
    rw [exec_setCode h hp, setCodeChip_eq hp hcode htaken hcopy]
    refine ⟨fun hk => ?_, fun hk => ?_⟩
    · rw [hk, if_neg (by decide)]
    · rw [if_pos hk]
  · intro c htaken hcopy
    have hexec : exec (.setMasterLock p) s = .next (s.withChip (setMasterChip p c)) :=
      exec_owned (by rfl) h (List.ne_nil_of_length_eq_add_one hp)
    rw [hexec, setMasterChip_eq hp htaken hcopy]
    refine ⟨fun hk => ?_, fun hk hm => ?_, fun hk hm => ?_⟩
    · rw [if_pos (by rw [hk]; rfl)]
    · rw [if_neg (by simp [Option.isSome_iff_ne_none.mp hk]), hm, if_neg (by decide)]
    · rw [if_neg (by simp [Option.isSome_iff_ne_none.mp hk]), hm, if_pos rfl]

end Sys2Proof.Proofs
end

section
/-!
PROOFS. CLEAR LOCKS and TOTAL ERASE with CONFIRM, the ends of the segment erases, and the ends of the protection row's programs
(07_store_protection_and_service_access.md R130, R131, R137 to R139).
-/

-- One declaration after another: the package as one text keeps within the check's limit on threads.
set_option Elab.async false

namespace Sys2Proof.Proofs

open Sys2Proof Sys2Proof.Machine

/-! ## Setups and CONFIRM -/

theorem setupChip_passes {k : Setup} {p : List Byte} {c : Chip} (hp : p.length = 1) (h : setupCheck k c = none) :
    setupChip k p c = { reply p .accepted c with store := { c.store with setup := k } } := by
  unfold setupChip
  rw [withLength_of_eq hp, h]

theorem exec_confirm {p : List Byte} {s : State} (h : Taken s) (hp : p.length = 1) :
    exec (.confirm p) s = .next (confirmState p (s.withChip (streamRules (.confirm p) s.chip))) := by
  have hexec : exec (.confirm p) s = .next (arrive (.confirm p) (confirmOwned p) s) := rfl
  have hsome : ¬p.isEmpty = true := mt List.isEmpty_iff.mp (List.ne_nil_of_length_eq_add_one hp)
  rw [hexec, arrive_taken h]
  unfold confirmOwned
  rw [if_neg hsome]

/-- CONFIRM of a setup that passes its checks. -/
theorem confirmState_passes {p : List Byte} {s : State} {k : Setup} (hp : p.length = 1) (hk : s.chip.store.setup = k) (hne : k ≠ .none)
    (hcheck : setupCheck k s.chip = none) : confirmState p s =
      beginSetup k (s.withChip (reply p .accepted { s.chip with store := { s.chip.store with setup := .none } })) := by
  unfold confirmState
  dsimp only
  rw [if_neg (not_not.mpr hp), hk, if_neg hne, hcheck]
  rfl

theorem grant_lockErase {c : Chip} {run : Bool} (h : c.store.op = .lockErase run) : ∃ run', (grant c).store.op = .lockErase run' := by
  unfold grant
  rw [h]
  split
  · exact ⟨run, h⟩
  · cases run with
    | true => exact ⟨true, h⟩
    | false =>
      dsimp only
      split
      · exact ⟨true, rfl⟩
      · exact ⟨false, h⟩

/-- A REPLY changes the Page Link Interface alone. -/
theorem reply_link (p : List Byte) (a : Answer) (c : Chip) : ∃ link, reply p a c = { c with link := link } := by
  obtain ⟨_, h⟩ := queueRecord_eq (.reply (refOf p) a) c
  exact ⟨_, h⟩

/-! ### TOTAL ERASE begins -/

/-- A block as TOTAL ERASE finds it: BAD for good, or RETIRED without a page. -/
def Block.cleared (x : Block) : Block := if x.state = .bad then x else Block.leaving .retired x

/-- The store where a TOTAL ERASE has taken away every page. -/
def emptied (c : Chip) : Chip :=
  loseImage { c with store := { c.store with
    op := .totalBlocks, totalFault := false, erase := none, dir := [], blocks := c.store.blocks.map Block.cleared, erasedList := [],
    eraseQueue := [] } }

theorem beginTotal_eq (c : Chip) : beginTotal c = totalNext 0 (emptied c) := rfl

theorem blockAt_emptied (c : Chip) (b : Nat) : blockAt (emptied c) b =
    if b < c.store.blocks.length then Block.cleared (blockAt c b) else blockAt c b := by
  unfold emptied loseImage blockAt
  dsimp only
  by_cases hb : b < c.store.blocks.length
  · rw [if_pos hb, List.getD_eq_getElem _ _ (by rw [List.length_map]; exact hb), List.getD_eq_getElem _ _ hb, List.getElem_map]
  · rw [if_neg hb, List.getD_eq_default _ _ (by rw [List.length_map]; exact Nat.le_of_not_lt hb),
      List.getD_eq_default _ _ (Nat.le_of_not_lt hb)]

/-- The next block of a TOTAL ERASE, or its lock segment: no other block changes, and no list. -/
theorem totalNext_cases (done : Nat) (c : Chip) :
    (∃ b phase, done ≤ b ∧ (blockAt c b).state ≠ .bad ∧
      totalNext done c = setErase (some ⟨b, 0, 0, phase, 0, 0⟩) (setBlockState b .erasing c)) ∨
    totalNext done c = { c with store := { c.store with op := .totalLock, segLeft := Config.segmentTime, erase := none } } := by
  unfold totalNext
  dsimp only
  split
  next b rest hrest =>
    have hin : b ∈ (List.range Config.blockCount).filter fun b => decide (done ≤ b ∧ (blockAt c b).state ≠ .bad) :=
      hrest ▸ List.mem_cons_self
    obtain ⟨hdone, hbad⟩ := of_decide_eq_true (List.mem_filter.mp hin).2
    exact .inl ⟨b, _, hdone, hbad, rfl⟩
  · exact .inr rfl

theorem blockAt_totalNext (done : Nat) (c : Chip) : ∃ next : Option Nat, (∀ b ∈ next, (blockAt c b).state ≠ .bad) ∧
    ∀ n, blockAt (totalNext done c) n =
      if n ∈ next ∧ n < c.store.blocks.length then Block.leaving .erasing (blockAt c n) else blockAt c n := by
  rcases totalNext_cases done c with ⟨b, phase, -, hbad, h⟩ | h
  · refine ⟨some b, fun n hn => Option.some.inj hn ▸ hbad, fun n => ?_⟩
    have hblock : blockAt (totalNext done c) n = blockAt (setBlockState b .erasing c) n := by
      rw [h]
      rfl
    rw [hblock, blockAt_setBlockState (by decide)]
    by_cases hn : n = b
    · subst hn
      simp only [Option.mem_def, true_and]
    · rw [if_neg fun k => hn k.1, if_neg fun k => hn (Option.some.inj k.1).symm]
  · refine ⟨none, nofun, fun n => ?_⟩
    rw [if_neg fun k => nomatch k.1]
    exact blockAt_congr (by rw [h]) n

theorem totalNext_frame (done : Nat) (c : Chip) : (totalNext done c).store.dir = c.store.dir ∧
    (totalNext done c).store.erasedList = c.store.erasedList ∧ (totalNext done c).store.eraseQueue = c.store.eraseQueue ∧
    (totalNext done c).store.setup = c.store.setup ∧ (totalNext done c).boot = c.boot ∧
    ((totalNext done c).store.op = c.store.op ∨ (totalNext done c).store.op = .totalLock) := by
  rcases totalNext_cases done c with ⟨b, phase, -, -, h⟩ | h
  · rw [h]
    exact ⟨rfl, rfl, rfl, rfl, rfl, .inl rfl⟩
  · rw [h]
    exact ⟨rfl, rfl, rfl, rfl, rfl, .inr rfl⟩

/-- The blocks at the start of a TOTAL ERASE: BAD ones stand, the others leave their pages. -/
theorem blockAt_beginTotal (c : Chip) (b : Nat) :
    (b < c.store.blocks.length → (blockAt c b).state ≠ .bad →
      (blockAt (beginTotal c) b).page = none ∧
        ((blockAt (beginTotal c) b).state = .retired ∨ (blockAt (beginTotal c) b).state = .erasing)) ∧
    ((blockAt c b).state = .bad → blockAt (beginTotal c) b = blockAt c b) := by
  obtain ⟨next, hnext, hblock⟩ := blockAt_totalNext 0 (emptied c)
  rw [beginTotal_eq, hblock, blockAt_emptied]
  refine ⟨fun hb hgood => ?_, fun hbad => ?_⟩
  · have hcleared : Block.cleared (blockAt c b) = Block.leaving .retired (blockAt c b) := if_neg hgood
    rw [if_pos hb, hcleared]
    split
    · exact ⟨rfl, .inr rfl⟩
    · exact ⟨rfl, .inl rfl⟩
  · have hstands : (if b < c.store.blocks.length then Block.cleared (blockAt c b) else blockAt c b) = blockAt c b := by
      split
      · exact if_pos hbad
      · rfl
    rw [hstands, if_neg]
    rintro ⟨hin, -⟩
    refine hnext b hin ?_
    rw [blockAt_emptied, hstands]
    exact hbad

theorem beginTotal_frame (c : Chip) : (beginTotal c).store.setup = c.store.setup ∧ (beginTotal c).store.dir = [] ∧
    (beginTotal c).store.erasedList = [] ∧ (beginTotal c).store.eraseQueue = [] ∧ (beginTotal c).boot.installed = none ∧
    (beginTotal c).boot.result = .absent .none_ ∧ ((beginTotal c).store.op = .totalBlocks ∨ (beginTotal c).store.op = .totalLock) := by
  obtain ⟨hdir, herased, hqueue, hsetup, hboot, hop⟩ := totalNext_frame 0 (emptied c)
  rw [beginTotal_eq]
  exact ⟨hsetup.trans rfl, hdir.trans rfl, herased.trans rfl, hqueue.trans rfl, by rw [hboot]; rfl, by rw [hboot]; rfl,
    hop.imp_left fun h => h.trans rfl⟩

/-- Settles O36, by the setups' checks, the grant of a LOCK ERASE and the blocks of a TOTAL ERASE. -/
theorem setupNeedsConfirm : Obligations.SetupNeedsConfirm := by
  unfold Obligations.SetupNeedsConfirm
  refine ⟨fun p s h hp => ⟨fun hcheck => ?_, fun hcheck => ?_⟩, fun p s h hp => ?_⟩
  · rw [exec_owned (i := .clearLocks p) (by rfl) h (List.ne_nil_of_length_eq_add_one hp), setupChip_passes hp hcheck]
  · rw [exec_owned (i := .totalErase p) (by rfl) h (List.ne_nil_of_length_eq_add_one hp), setupChip_passes hp hcheck]
  intro c
  have hexec := exec_confirm h hp
  refine ⟨fun hk => ?_, fun hk hcheck => ?_, fun hk hcheck => ?_⟩
  · rw [hexec]
    unfold confirmState
    dsimp only
    rw [if_neg (not_not.mpr hp), if_pos (by exact hk)]
    rfl
  · obtain ⟨link, hreply⟩ := reply_link p .accepted { c with store := { c.store with setup := .none } }
    rw [confirmState_passes (k := .clearLocks) hp (by exact hk) (by decide) (by exact hcheck)] at hexec
    unfold beginSetup State.onChip at hexec
    dsimp only at hexec
    rw [hreply] at hexec
    obtain ⟨run, hrun⟩ := grant_lockErase (run := false)
      (c := { c with store := { c.store with setup := .none, op := .lockErase false }, link := link }) rfl
    exact ⟨_, run, hexec, by simp, hrun, by simp, by simp, rfl⟩
  · obtain ⟨link, hreply⟩ := reply_link p .accepted { c with store := { c.store with setup := .none } }
    rw [confirmState_passes (k := .totalErase) hp (by exact hk) (by decide) (by exact hcheck)] at hexec
    unfold beginSetup at hexec
    dsimp only at hexec
    rw [hreply] at hexec
    have hblocks : ({ c with store := { c.store with setup := .none }, link := link } : Chip).store.blocks = c.store.blocks := rfl
    have hsetup : ({ c with store := { c.store with setup := .none }, link := link } : Chip).store.setup = .none := rfl
    have herase : ({ c with store := { c.store with setup := .none }, link := link } : Chip).store.erase = c.store.erase := rfl
    generalize ({ c with store := { c.store with setup := .none }, link := link } : Chip) = d at hexec hblocks hsetup herase
    obtain ⟨dsetup, hdir, herased, hqueue, hinstalled, hresult, hop⟩ := beginTotal_frame d
    refine ⟨_, hexec, dsetup.trans hsetup, hdir, herased, hqueue, hinstalled, hresult, hop, fun b hb hgood => ?_, fun b hbad => ?_, fun he => ?_⟩
    · rw [← blockAt_congr hblocks] at hgood
      exact (blockAt_beginTotal d b).1 (hblocks ▸ hb) hgood
    · rw [← blockAt_congr hblocks] at hbad ⊢
      exact (blockAt_beginTotal d b).2 hbad
    · dsimp only
      rw [herase, he]

end Sys2Proof.Proofs
end

section
/-!
PROOFS. The ends of the segment erases and of the protection row's programs (07_store_protection_and_service_access.md R130, R131, R138, R139).
-/

-- One declaration after another: the package as one text keeps within the check's limit on threads.
set_option Elab.async false

namespace Sys2Proof.Proofs

open Sys2Proof Sys2Proof.Machine

/-! ## Lock cells (R130) -/

/-- A bit of a byte summed from the powers of two of its clear cells. -/
theorem lockByte_bit : ∀ (b0 b1 b2 b3 b4 b5 b6 b7 : Bool) (j : Fin 8),
    (byteOf (([(0, b0), (1, b1), (2, b2), (3, b3), (4, b4), (5, b5), (6, b6), (7, b7)].map fun x : Nat × Bool =>
      if x.2 then 0 else 2 ^ x.1).foldl (· + ·) 0)).getLsbD j = !([b0, b1, b2, b3, b4, b5, b6, b7].getD j false) := by
  decide +kernel

theorem lockByte_getLsbD (q : Nat → Bool) {j : Nat} (hj : j < 8) :
    (byteOf (((List.range 8).map fun j => if q j then 0 else 2 ^ j).foldl (· + ·) 0)).getLsbD j = !q j := by
  have hbit := lockByte_bit (q 0) (q 1) (q 2) (q 3) (q 4) (q 5) (q 6) (q 7) ⟨j, hj⟩
  have hq : [q 0, q 1, q 2, q 3, q 4, q 5, q 6, q 7].getD j false = q j := by
    rw [show [q 0, q 1, q 2, q 3, q 4, q 5, q 6, q 7] = (List.range 8).map q from rfl, List.getD_eq_getElem _ _ (by simpa using hj)]
    simp
  rw [← hq]
  exact hbit

/-- A lock segment's cells are those that `p` names. -/
theorem cellSet_lockBytes (p : Nat → Bool) {b : Nat} (hb : b < 64) : cellSet (lockBytes p) b = p b := by
  have hdiv : b / 8 < 8 := by omega
  have hmod : b % 8 < 8 := by omega
  have hback : 8 * (b / 8) + b % 8 = b := Nat.div_add_mod b 8
  unfold cellSet lockBytes
  rw [List.getD_eq_getElem _ _ (by simpa using hdiv), List.getElem_map, List.getElem_range, lockByte_getLsbD (fun j => p (8 * (b / 8) + j)) hmod,
    Bool.not_not, hback]

theorem locksClear_iff (f : Flash) : locksClear f = true ↔ ∀ b, b < 64 → cellSet f.lockCells b = false := by
  unfold locksClear cellsOf
  rw [List.all_map, List.all_eq_true]
  simp only [Function.comp, Bool.not_eq_true', List.mem_range]
  exact Iff.rfl

/-! ## The table takes what the row reads (R131, R138) -/

/-- A block whose cell reads so. -/
def Block.reading (lock : Bool) (x : Block) : Block := { x with lock := lock }

theorem blockAt_readLocks {f : Flash} {c : Chip} {b : Nat} (hb : b < c.store.blocks.length) :
    blockAt (readLocks f c) b = { blockAt c b with lock := cellSet f.lockCells b } := by
  unfold readLocks blockAt
  dsimp only
  rw [List.getD_eq_getElem _ _ (by simpa using hb), List.getD_eq_getElem _ _ hb, List.getElem_map, List.getElem_zip, List.getElem_range]

theorem readLocks_length (f : Flash) (c : Chip) : (readLocks f c).store.blocks.length = c.store.blocks.length := by
  simp [readLocks]

/-- Blocks that join the erased-block list one after another: what is on it, and those of them that are ERASED with a clear cell. -/
theorem mem_foldl_joinErased (bs : List Nat) (c : Chip) (n : Nat) :
    n ∈ (bs.foldl (fun c b => joinErased b c) c).store.erasedList ↔
      n ∈ c.store.erasedList ∨ n ∈ bs ∧ (blockAt c n).state = .erased ∧ (blockAt c n).lock = false := by
  induction bs generalizing c with
  | nil => simp
  | cons b bs ih =>
    rw [List.foldl_cons, ih, mem_joinErased, blockAt_joinErased, List.mem_cons]
    constructor
    · rintro ((h | ⟨rfl, h⟩) | ⟨hin, h⟩)
      · exact .inl h
      · exact .inr ⟨.inl rfl, h⟩
      · exact .inr ⟨.inr hin, h⟩
    · rintro (h | ⟨rfl | hin, h⟩)
      · exact .inl (.inl h)
      · exact .inl (.inr ⟨rfl, h⟩)
      · exact .inr ⟨hin, h⟩

theorem blockAt_foldl_joinErased (bs : List Nat) (c : Chip) (n : Nat) :
    blockAt (bs.foldl (fun c b => joinErased b c) c) n = blockAt c n :=
  foldl_same (f := fun d => blockAt d n) (fun d b => blockAt_joinErased b n d) bs c

theorem foldl_joinErased_eq (bs : List Nat) (c : Chip) : ∃ erased,
    bs.foldl (fun c b => joinErased b c) c = { c with store := { c.store with erasedList := erased } } := by
  induction bs generalizing c with
  | nil => exact ⟨_, rfl⟩
  | cons b bs ih =>
    obtain ⟨_, hjoin⟩ := joinErased_eq b c
    obtain ⟨_, hrest⟩ := ih (joinErased b c)
    rw [List.foldl_cons, hrest, hjoin]
    exact ⟨_, rfl⟩

theorem foldl_joinEraseQueue_eq (bs : List Nat) (c : Chip) : ∃ queue,
    bs.foldl (fun c b => joinEraseQueue b c) c = { c with store := { c.store with eraseQueue := queue } } := by
  induction bs generalizing c with
  | nil => exact ⟨_, rfl⟩
  | cons b bs ih =>
    obtain ⟨_, hjoin⟩ := joinEraseQueue_eq b c
    obtain ⟨_, hrest⟩ := ih (joinEraseQueue b c)
    rw [List.foldl_cons, hrest, hjoin]
    exact ⟨_, rfl⟩

/-! ## STORE OP DONE -/

/-- STORE OP DONE behind the records that wait, or lost. -/
theorem queueEvent_link_of {c d : Chip} (h : d.link = c.link) (e : Event) :
    (256 ≤ freeBytes c → (queueEvent e d).link.reports = c.link.reports ++ [.event e]) ∧
    (freeBytes c < 256 → (queueEvent e d).link = { c.link with eventsLost := true }) := by
  have hfree : freeBytes d = freeBytes c := by simp only [freeBytes, usedBytes, h]
  refine ⟨fun hroom => ?_, fun hfull => ?_⟩
  · rw [queueEvent_reports_of_room (by rw [hfree]; exact hroom), h]
  · rw [queueEvent_of_full (by rw [hfree]; exact hfull)]
    dsimp only
    rw [h]

/-- What follows at once leaves the Protection Unit. -/
theorem settled_prot (c : Chip) : (grant (settleAll (retryClaim c))).prot = c.prot ∧ (freeFlash (settleAll (retryClaim c))).prot = c.prot ∧
    (grant (settleAll c)).prot = c.prot := by
  have hprot {t : Chip} (h : Kept c t) : t.prot = c.prot := by
    obtain ⟨-, -, -, -, hprot, -⟩ := backdrop_parts h.1
    exact hprot
  exact ⟨hprot (grant_kept (settleAll_kept (retryClaim_kept .rfl))), hprot (freeFlash_kept (settleAll_kept (retryClaim_kept .rfl))),
    hprot (grant_kept (settleAll_kept .rfl))⟩

/-! ## The lock-segment erases (R138, R139) -/

theorem exec_lockSegmentEraseEnd (still : List Nat) (s : State) : exec (.lockSegmentEraseEnd still) s = .next (lockEraseEnd still s) := rfl

theorem exec_totalEraseLockSegmentEnd (still : List Nat) (s : State) :
    exec (.totalEraseLockSegmentEnd still) s = .next (totalLockEnd still s) := rfl

theorem exec_keySegmentEraseEnd (key : List Byte) (s : State) : exec (.keySegmentEraseEnd key) s = .next (keyEraseEnd key s) := rfl

theorem cellSet_eraseLocks (still : List Nat) (f : Flash) {b : Nat} (hb : b < 64) :
    cellSet (eraseLocks still f).lockCells b = (cellSet f.lockCells b && still.contains b) := by
  unfold eraseLocks
  exact cellSet_lockBytes (fun b => cellSet f.lockCells b && still.contains b) hb

/-- The table, the lists and the operation at the end of a CLEAR LOCKS, before STORE OP DONE. -/
def locksRead (f : Flash) (c : Chip) : Chip :=
  let d := (List.range Config.blockCount).foldl (fun c b => joinErased b c) (readLocks f c)
  { d with store := { d.store with op := .none, segLeft := 0, eraseFault := d.store.eraseFault || !locksClear f } }

theorem locksErased_eq (f : Flash) (c : Chip) : locksErased f c =
    grant (settleAll (retryClaim (queueEvent (.storeOpDone .clearLocks none (opResult (!locksClear f))) (locksRead f c)))) := rfl

theorem locksRead_eq (f : Flash) (c : Chip) : ∃ erased, locksRead f c = { c with store := { c.store with
    blocks := (readLocks f c).store.blocks, erasedList := erased, op := .none, segLeft := 0,
    eraseFault := c.store.eraseFault || !locksClear f } } := by
  obtain ⟨_, h⟩ := foldl_joinErased_eq (List.range Config.blockCount) (readLocks f c)
  unfold locksRead
  dsimp only
  rw [h]
  exact ⟨_, rfl⟩

theorem blockAt_locksRead {f : Flash} {c : Chip} {b : Nat} (hb : b < c.store.blocks.length) :
    blockAt (locksRead f c) b = { blockAt c b with lock := cellSet f.lockCells b } := by
  obtain ⟨_, h⟩ := locksRead_eq f c
  exact (blockAt_congr (c := readLocks f c) (by rw [h]) b).trans (blockAt_readLocks hb)

theorem mem_locksRead {f : Flash} {c : Chip} {b : Nat} (hb : b < 64) (hlt : b < c.store.blocks.length) (hstate : (blockAt c b).state = .erased)
    (hclear : cellSet f.lockCells b = false) : b ∈ (locksRead f c).store.erasedList := by
  have hin : b ∈ List.range Config.blockCount := List.mem_range.mpr hb
  unfold locksRead
  dsimp only
  rw [mem_foldl_joinErased, blockAt_readLocks hlt]
  exact .inr ⟨hin, hstate, hclear⟩

theorem lockSegment_cleared (still : List Nat) {s : State} (h : s.chip.store.op = .lockErase true) : lockEraseEnd still s =
    { s with flash := eraseLocks still s.flash, chip := locksErased (eraseLocks still s.flash) s.chip } := if_pos h

/-! ## The key segment (R139) -/

/-- The part at the end of a TOTAL ERASE, before STORE OP DONE. -/
def rowRead (f : Flash) (c : Chip) : Chip :=
  rebuildLists { c with
    prot := { c.prot with copy := some f.key }
    store := { c.store with op := .none, segLeft := 0, totalFault := false, eraseFault := c.store.eraseFault || !rowErased f } }

theorem totalOver_eq (f : Flash) (c : Chip) : totalOver f c =
    grant (settleAll (queueEvent (.storeOpDone .totalErase none (opResult (c.store.totalFault || !rowErased f))) (rowRead f c))) := rfl

theorem rebuildLists_eq (c : Chip) : ∃ erased queue, rebuildLists c = { c with store := { c.store with erasedList := erased, eraseQueue := queue } } := by
  obtain ⟨_, herased⟩ := foldl_joinErased_eq (List.range Config.blockCount) c
  unfold rebuildLists
  dsimp only
  obtain ⟨_, hqueue⟩ := foldl_joinEraseQueue_eq ((List.range Config.blockCount).filter fun b =>
    decide ((blockAt ((List.range Config.blockCount).foldl (fun c b => joinErased b c) c) b).state = .damaged))
    ((List.range Config.blockCount).foldl (fun c b => joinErased b c) c)
  rw [hqueue, herased]
  exact ⟨_, _, rfl⟩

theorem rowErased_iff (f : Flash) : rowErased f = true ↔
    (∀ b, b < 64 → cellSet f.lockCells b = false) ∧ f.master = 0xFF ∧ codeOf f.code = none := by
  unfold rowErased
  rw [Bool.and_eq_true, Bool.and_eq_true, locksClear_iff, decide_eq_true_iff, Option.isNone_iff_eq_none, and_assoc]

/-- An erased key segment: the master cell and the code erased. -/
theorem eraseKey_whole {f : Flash} (h : f.code.length = 8) : (eraseKey (List.replicate 9 0xFF) f).master = 0xFF ∧
    (eraseKey (List.replicate 9 0xFF) f).code = List.replicate 8 0xFF := by
  have hor (x : Byte) : x ||| 0xFF = 0xFF := by
    have := BitVec.or_allOnes (x := x)
    exact this
  refine ⟨hor _, ?_⟩
  unfold eraseKey
  dsimp only
  refine List.eq_replicate_iff.mpr ⟨by simp [h], fun y hy => ?_⟩
  obtain ⟨x, hx, rfl⟩ := List.mem_map.mp hy
  have hlt : x.1 < 8 := by
    have hin := List.mem_range.mp (List.of_mem_zip hx).1
    omega
  rw [List.getD_eq_getElem _ _ (by simp; omega), List.getElem_replicate]
  exact hor _

theorem opResult_of_false {b : Bool} (h : b = false) : opResult b = .done := if_neg (by rw [h]; decide)

theorem opResult_of_true {b : Bool} (h : b = true) : opResult b = .fault := if_pos h

/-- Settles O37, by the cells that still read set, the table that reads them back, and the key segment. -/
theorem segmentErasesEnd : Obligations.SegmentErasesEnd := by
  unfold Obligations.SegmentErasesEnd
  refine ⟨fun still s hop => ?_, fun still s hop => ?_, fun key s hop => ?_, fun xs key s => ⟨fun h => ?_, fun h => ?_, fun h => ?_⟩⟩
  · have hexec := exec_lockSegmentEraseEnd still s
    rw [lockSegment_cleared still hop] at hexec
    obtain ⟨_, hread⟩ := locksRead_eq (eraseLocks still s.flash) s.chip
    obtain ⟨hroom, hfull⟩ := queueEvent_link_of (c := s.chip) (d := locksRead (eraseLocks still s.flash) s.chip) (by rw [hread])
      (.storeOpDone .clearLocks none (opResult (!locksClear (eraseLocks still s.flash))))
    have hclear := locksClear_iff (eraseLocks still s.flash)
    refine ⟨_, hexec, ?_⟩
    dsimp only
    refine ⟨fun b hb => cellSet_eraseLocks still s.flash hb, rfl, rfl, rfl, ?_, _, locksErased_eq (eraseLocks still s.flash) s.chip, ?_, ?_, fun b hb => ?_,
      fun b hb hlt hstate hcell => ?_, ?_, fun h => ?_, fun h => ?_, fun hfree => ⟨fun h => ?_, fun h => ?_⟩, hfull⟩
    · rw [locksErased_eq, (settled_prot _).1, hread]
      simp
    · rw [hread]
      simp
    · rw [hread]
      simp
    · rw [blockAt_queueEvent]
      exact blockAt_locksRead hb
    · have hin := mem_locksRead hb hlt hstate hcell
      simpa using hin
    · rw [hread]
      simp
    · rw [hread]
      simp [hclear.mpr h]
    · rw [hread]
      simp [Bool.eq_false_iff.mpr (mt hclear.mp h)]
    · rw [hroom hfree, opResult_of_false (by rw [hclear.mpr h]; rfl)]
    · rw [hroom hfree, opResult_of_true (by rw [Bool.eq_false_iff.mpr (mt hclear.mp h)]; rfl)]
  · have hexec : exec (.totalEraseLockSegmentEnd still) s = .next { s with
        flash := eraseLocks still s.flash
        chip := readLocks (eraseLocks still s.flash) { s.chip with store :=
          { s.chip.store with op := .totalKey, segLeft := Config.segmentTime } } } := by
      rw [exec_totalEraseLockSegmentEnd]
      exact congrArg Host.Outcome.next (if_pos hop)
    exact ⟨_, hexec, fun b hb => cellSet_eraseLocks still s.flash hb, rfl, rfl, rfl, rfl, fun b hb =>
      congrArg Block.lock (blockAt_readLocks (c := { s.chip with store := { s.chip.store with op := .totalKey, segLeft := Config.segmentTime } }) hb)⟩
  · have hexec : exec (.keySegmentEraseEnd key) s =
        .next { s with flash := eraseKey key s.flash, chip := totalOver (eraseKey key s.flash) s.chip } := by
      rw [exec_keySegmentEraseEnd]
      exact congrArg Host.Outcome.next (if_pos hop)
    obtain ⟨_, _, hrebuilt⟩ := rebuildLists_eq { s.chip with
      prot := { s.chip.prot with copy := some (eraseKey key s.flash).key }
      store := { s.chip.store with op := .none, segLeft := 0, totalFault := false,
                                   eraseFault := s.chip.store.eraseFault || !rowErased (eraseKey key s.flash) } }
    have hread : rowRead (eraseKey key s.flash) s.chip = _ := hrebuilt
    obtain ⟨hroom, -⟩ := queueEvent_link_of (c := s.chip) (d := rowRead (eraseKey key s.flash) s.chip) (by rw [hread])
      (.storeOpDone .totalErase none (opResult (s.chip.store.totalFault || !rowErased (eraseKey key s.flash))))
    have hcopy : (totalOver (eraseKey key s.flash) s.chip).prot.copy = some (eraseKey key s.flash).key := by
      rw [totalOver_eq, (settled_prot _).2.2, hread]
      simp
    have hclear := rowErased_iff (eraseKey key s.flash)
    refine ⟨_, hexec, ?_⟩
    dsimp only
    refine ⟨rfl, rfl, rfl, fun hkey hcode => ?_, hcopy, _, totalOver_eq (eraseKey key s.flash) s.chip, ?_, ?_, fun h => ?_, fun h => ?_,
      fun hfree => ⟨fun h hfault => ?_, fun h => ?_⟩⟩
    · subst hkey
      obtain ⟨hmaster, hcodes⟩ := eraseKey_whole hcode
      refine ⟨hmaster, hcodes, hcopy.trans ?_⟩
      unfold Flash.key
      rw [hmaster, hcodes]
      rfl
    · rw [hread]
      simp
    · rw [hread]
      simp
    · rw [hread]
      simp [hclear.mpr h]
    · rw [hread]
      simp [Bool.eq_false_iff.mpr (mt hclear.mp h)]
    · rw [hroom hfree, opResult_of_false (by rw [hclear.mpr h, hfault]; rfl)]
    · rw [hroom hfree, opResult_of_true]
      rcases h with h | h
      · rw [Bool.eq_false_iff.mpr (mt hclear.mp h), Bool.not_false, Bool.or_true]
      · rw [h, Bool.true_or]
  · rw [exec_lockSegmentEraseEnd]
    exact congrArg Host.Outcome.next (if_neg h)
  · rw [exec_totalEraseLockSegmentEnd]
    exact congrArg Host.Outcome.next (if_neg h)
  · rw [exec_keySegmentEraseEnd]
    exact congrArg Host.Outcome.next (if_neg h)

/-! ## Row programs (R131) -/

theorem exec_rowProgramEnd {j : RowJob} {s : State} (h : s.chip.store.holder = some (.row j)) (failed : List Nat) :
    exec (.rowProgramEnd failed) s = .next (endRow j failed s) := by
  have hexec : exec (.rowProgramEnd failed) s = (match s.chip.store.holder with | some (.row j) => .next (endRow j failed s) | _ => .next s) := rfl
  rw [hexec, h]

theorem exec_rowProgramEnd_idle {s : State} (h : ∀ j, s.chip.store.holder ≠ some (.row j)) (failed : List Nat) :
    exec (.rowProgramEnd failed) s = .next s := by
  have hexec : exec (.rowProgramEnd failed) s = (match s.chip.store.holder with | some (.row j) => .next (endRow j failed s) | _ => .next s) := rfl
  rw [hexec]
  split
  next j hj => exact absurd hj (h j)
  · rfl

/-- The part at the end of a row program, before STORE OP DONE. -/
def rowEnded (j : RowJob) (f : Flash) (ok : Bool) (c : Chip) : Chip :=
  if ok then readBack j f c else { readBack j f c with store := { (readBack j f c).store with programFault := true } }

/-- The same with its STORE OP DONE. -/
def rowReported (j : RowJob) (failed : List Nat) (s : State) : Chip :=
  queueEvent (.storeOpDone j.op.1 j.op.2 (opResult (!(programRow j failed s.flash).2)))
    (rowEnded j (programRow j failed s.flash).1 (programRow j failed s.flash).2 s.chip)

theorem rowDone_eq (j : RowJob) (f : Flash) (ok : Bool) (c : Chip) :
    rowDone j f ok c = retryClaim (queueEvent (.storeOpDone j.op.1 j.op.2 (opResult (!ok))) (rowEnded j f ok c)) := rfl

theorem endRow_chip (j : RowJob) (failed : List Nat) (s : State) :
    (endRow j failed s).chip = freeFlash (settleAll (retryClaim (rowReported j failed s))) := by
  unfold endRow rowReported
  dsimp only
  rw [rowDone_eq]

theorem endRow_flash (j : RowJob) (failed : List Nat) (s : State) : (endRow j failed s).flash = (programRow j failed s.flash).1 := rfl

/-- One block takes what its cell reads. -/
def readCell (f : Flash) (c : Chip) (b : Nat) : Chip := joinErased b (modBlock b (Block.reading (cellSet f.lockCells b)) c)

theorem readBack_lockPage (id : Nat) (cells : List Nat) (f : Flash) (c : Chip) :
    readBack (.lockPage id cells) f c = cells.foldl (readCell f) c := rfl

theorem readCell_eq (f : Flash) (c : Chip) (b : Nat) : ∃ blocks erased,
    readCell f c b = { c with store := { c.store with blocks := blocks, erasedList := erased } } := by
  obtain ⟨_, h⟩ := joinErased_eq b (modBlock b (Block.reading (cellSet f.lockCells b)) c)
  unfold readCell
  rw [h]
  exact ⟨_, _, rfl⟩

theorem foldl_readCell_eq (f : Flash) (bs : List Nat) (c : Chip) : ∃ blocks erased,
    bs.foldl (readCell f) c = { c with store := { c.store with blocks := blocks, erasedList := erased } } := by
  induction bs generalizing c with
  | nil => exact ⟨_, _, rfl⟩
  | cons b bs ih =>
    obtain ⟨_, _, hcell⟩ := readCell_eq f c b
    obtain ⟨_, _, hrest⟩ := ih (readCell f c b)
    rw [List.foldl_cons, hrest, hcell]
    exact ⟨_, _, rfl⟩

/-- What the table and the copy take at the end of a row program, and nothing else. -/
theorem readBack_eq (j : RowJob) (f : Flash) (c : Chip) : ∃ blocks erased copy, readBack j f c = { c with
    store := { c.store with blocks := blocks, erasedList := erased }, prot := { c.prot with copy := copy } } := by
  cases j with
  | lockPage id cells =>
    obtain ⟨_, _, h⟩ := foldl_readCell_eq f cells c
    rw [readBack_lockPage, h]
    exact ⟨_, _, _, rfl⟩
  | setMaster => exact ⟨_, _, _, rfl⟩
  | setCode want => exact ⟨_, _, _, rfl⟩

theorem rowEnded_frame (j : RowJob) (f : Flash) (ok : Bool) (c : Chip) : (rowEnded j f ok c).link = c.link ∧
    (rowEnded j f ok c).prot = (readBack j f c).prot ∧ (rowEnded j f ok c).store.blocks = (readBack j f c).store.blocks ∧
    (rowEnded j f ok c).store.erasedList = (readBack j f c).store.erasedList ∧
    (rowEnded j f ok c).store.programFault = (c.store.programFault || !ok) := by
  obtain ⟨_, _, _, h⟩ := readBack_eq j f c
  unfold rowEnded
  cases ok with
  | true => rw [if_pos rfl, h]; exact ⟨rfl, rfl, rfl, rfl, (Bool.or_false _).symm⟩
  | false => rw [if_neg (by decide), h]; exact ⟨rfl, rfl, rfl, rfl, (Bool.or_true _).symm⟩

theorem length_readCell (f : Flash) (c : Chip) (b : Nat) : (readCell f c b).store.blocks.length = c.store.blocks.length := by
  obtain ⟨_, h⟩ := joinErased_eq b (modBlock b (Block.reading (cellSet f.lockCells b)) c)
  unfold readCell
  rw [h]
  exact modBlock_length _ _ c

theorem blockAt_readCell (f : Flash) (c : Chip) (b n : Nat) : blockAt (readCell f c b) n =
    if n = b ∧ b < c.store.blocks.length then Block.reading (cellSet f.lockCells b) (blockAt c b) else blockAt c n := by
  unfold readCell
  rw [blockAt_joinErased, blockAt_modBlock]

theorem blockAt_foldl_readCell (f : Flash) (bs : List Nat) (c : Chip) (n : Nat) : blockAt (bs.foldl (readCell f) c) n =
    if n ∈ bs ∧ n < c.store.blocks.length then Block.reading (cellSet f.lockCells n) (blockAt c n) else blockAt c n :=
  blockAt_fold (φ := fun b => Block.reading (cellSet f.lockCells b)) (blockAt_readCell f) (length_readCell f) (fun _ _ => rfl) bs c n

/-- An ERASED block whose cell reads clear is back on the erased-block list. -/
theorem mem_foldl_readCell {f : Flash} {bs : List Nat} {c : Chip} {n : Nat} (hn : n ∈ bs) (hlt : n < c.store.blocks.length)
    (hclear : cellSet f.lockCells n = false) (hstate : (blockAt c n).state = .erased) : n ∈ (bs.foldl (readCell f) c).store.erasedList := by
  have hgrows (b : Nat) (d : Chip) (h : n ∈ d.store.erasedList) : n ∈ (readCell f d b).store.erasedList :=
    (mem_joinErased b n _).mpr (.inl h)
  have hkept (bs : List Nat) : ∀ d : Chip, n ∈ d.store.erasedList → n ∈ (bs.foldl (readCell f) d).store.erasedList := by
    induction bs with
    | nil => exact fun d h => h
    | cons b bs ih => exact fun d h => ih _ (hgrows b d h)
  induction bs generalizing c with
  | nil => exact absurd hn List.not_mem_nil
  | cons b bs ih =>
    rcases List.mem_cons.mp hn with rfl | hin
    · refine hkept bs (readCell f c n) ((mem_joinErased n n _).mpr (.inr ⟨rfl, ?_⟩))
      rw [blockAt_modBlock_self hlt]
      exact ⟨hstate, hclear⟩
    · refine ih hin (by rw [length_readCell]; exact hlt) ?_
      rw [blockAt_readCell]
      split
      next h => rw [← h.1]; exact hstate
      · exact hstate

/-! ### What the row reads -/

theorem rowByte_passed (free old want : Byte) (h : programmed old want = want) : rowByte free false old want = want := by
  unfold rowByte
  rw [if_neg (by rw [not_or, not_not]; exact ⟨by decide, h⟩), h]

/-- An erased code takes the code sent where no byte fails. -/
theorem setCode_row {want : List Byte} {f : Flash} (hcode : f.code = List.replicate 8 0xFF) (hwant : want.length = 8) :
    (programRow (.setCode want) [] f).1.code = want := by
  have hand (x : Byte) : programmed 0xFF x = x := by
    have h := BitVec.allOnes_and (x := x)
    exact h
  unfold programRow
  dsimp only
  refine List.ext_getElem (by simp [hcode, hwant]) fun n h1 h2 => ?_
  simp only [List.getElem_map, List.getElem_zip, hcode, List.getElem_replicate, List.getElem_range, List.contains_nil]
  exact rowByte_passed _ _ _ (hand _)

/-- PROGRAM FAULT and STORE OP DONE at the end of a row program, by what the row should read. -/
theorem rowReported_events (j : RowJob) (failed : List Nat) (s : State) {wanted : Prop}
    (hok : (programRow j failed s.flash).2 = true ↔ wanted) :
    let m := rowReported j failed s
    let c := s.chip
    (wanted → m.store.programFault = c.store.programFault) ∧ (¬wanted → m.store.programFault = true) ∧
    (256 ≤ freeBytes c →
      (wanted → m.link.reports = c.link.reports ++ [.event (.storeOpDone j.op.1 j.op.2 .done)]) ∧
      (¬wanted → m.link.reports = c.link.reports ++ [.event (.storeOpDone j.op.1 j.op.2 .fault)])) ∧
    (freeBytes c < 256 → m.link = { c.link with eventsLost := true }) := by
  intro m c
  have hm : m = queueEvent (.storeOpDone j.op.1 j.op.2 (opResult (!(programRow j failed s.flash).2)))
      (rowEnded j (programRow j failed s.flash).1 (programRow j failed s.flash).2 s.chip) := rfl
  clear_value m
  generalize (programRow j failed s.flash).2 = ok at hok hm
  generalize (programRow j failed s.flash).1 = f at hm
  subst hm
  obtain ⟨hlink, -, -, -, hfault⟩ := rowEnded_frame j f ok c
  obtain ⟨hroom, hfull⟩ := queueEvent_link_of hlink (.storeOpDone j.op.1 j.op.2 (opResult (!ok)))
  have hm : (queueEvent (.storeOpDone j.op.1 j.op.2 (opResult (!ok))) (rowEnded j f ok c)).store.programFault =
      (c.store.programFault || !ok) := by
    simp [hfault]
  have hnot (h : ¬wanted) : ok = false := Bool.eq_false_iff.mpr (mt hok.mp h)
  refine ⟨fun h => ?_, fun h => ?_, fun hfree => ⟨fun h => ?_, fun h => ?_⟩, hfull⟩
  · rw [hm, hok.mpr h]
    exact Bool.or_false _
  · rw [hm, hnot h]
    exact Bool.or_true _
  · rw [hroom hfree, opResult_of_false (by rw [hok.mpr h]; rfl)]
  · rw [hroom hfree, opResult_of_true (by rw [hnot h]; rfl)]

theorem endRow_prot (j : RowJob) (failed : List Nat) (s : State) :
    (endRow j failed s).chip.prot = (readBack j (programRow j failed s.flash).1 s.chip).prot := by
  rw [endRow_chip]
  obtain ⟨-, hprot, -⟩ := rowEnded_frame j (programRow j failed s.flash).1 (programRow j failed s.flash).2 s.chip
  rw [(settled_prot _).2.1, ← hprot]
  simp [rowReported]

theorem rowReported_tables (j : RowJob) (failed : List Nat) (s : State) :
    (rowReported j failed s).store.blocks = (readBack j (programRow j failed s.flash).1 s.chip).store.blocks ∧
    (rowReported j failed s).store.erasedList = (readBack j (programRow j failed s.flash).1 s.chip).store.erasedList := by
  obtain ⟨-, -, hblocks, herased, -⟩ := rowEnded_frame j (programRow j failed s.flash).1 (programRow j failed s.flash).2 s.chip
  unfold rowReported
  rw [← hblocks, ← herased]
  simp

/-- Settles O35, by the row after the program, the table and the copy that read it back, and the report. -/
theorem rowProgramsEnd : Obligations.RowProgramsEnd := by
  unfold Obligations.RowProgramsEnd
  refine ⟨fun j failed s h => ⟨_, exec_rowProgramEnd h failed, ?_⟩, fun failed s h => exec_rowProgramEnd_idle h failed⟩
  have hprot := endRow_prot j failed s
  obtain ⟨hblocks, herased⟩ := rowReported_tables j failed s
  have hevents {wanted : Prop} := rowReported_events j failed s (wanted := wanted)
  rw [endRow_flash, endRow_chip]
  rw [endRow_chip] at hprot
  generalize rowReported j failed s = m at hprot hblocks herased hevents ⊢
  cases j with
  | lockPage id cells =>
    have hok : (programRow (.lockPage id cells) failed s.flash).2 = true ↔
        ∀ b ∈ cells, cellSet (programRow (.lockPage id cells) failed s.flash).1.lockCells b = true := List.all_eq_true
    refine ⟨rfl, rfl, ?_, nofun, nofun, m, rfl, hevents hok, ?_, fun k => absurd rfl (k id cells)⟩
    · rintro _ _ ⟨⟩
      exact ⟨rfl, rfl, fun b hb => cellSet_lockBytes (fun b => cellSet s.flash.lockCells b || (cells.contains b && !failed.contains b)) hb⟩
    · rintro _ _ ⟨⟩
      rw [readBack_lockPage] at hblocks herased
      refine ⟨fun b hb => ?_, fun b hb hlt hclear hstate => ?_⟩
      · rw [blockAt_congr hblocks, blockAt_foldl_readCell]
        simp only [hb, and_true]
        rfl
      · rw [herased]
        exact mem_foldl_readCell hb hlt hclear hstate
  | setMaster =>
    have hok : (programRow .setMaster failed s.flash).2 = true ↔ (programRow .setMaster failed s.flash).1.master = 0x00 :=
      decide_eq_true_iff
    refine ⟨rfl, rfl, nofun, fun _ => ⟨rfl, rfl, fun hnot => ?_, congrArg Protection.copy hprot⟩, nofun, m, rfl, hevents hok, nofun,
      fun _ => ⟨hblocks, herased⟩⟩
    have hno : failed.contains 0 = false := by simpa using hnot
    show rowByte _ (failed.contains 0) _ _ = _
    rw [hno]
    exact rowByte_passed _ _ _ BitVec.and_zero
  | setCode want =>
    have hok : (programRow (.setCode want) failed s.flash).2 = true ↔ (programRow (.setCode want) failed s.flash).1.code = want :=
      decide_eq_true_iff
    refine ⟨rfl, rfl, nofun, nofun, ?_, m, rfl, hevents hok, nofun, fun _ => ⟨hblocks, herased⟩⟩
    rintro _ ⟨⟩
    refine ⟨rfl, rfl, fun hnone hcode hwant => ?_, congrArg Protection.copy hprot⟩
    subst hnone
    exact setCode_row hcode hwant

end Sys2Proof.Proofs
end

section
/-!
PROOFS. Aborts of several routes (01_line_pool_and_routes.md R22), service access, the end of SERVICE and a service failure
(07_store_protection_and_service_access.md R125, R141 to R144).
-/

-- One declaration after another: the package as one text keeps within the check's limit on threads.
set_option Elab.async false

namespace Sys2Proof.Proofs

open Sys2Proof Sys2Proof.Machine

/-! ## An abort closes its route -/

theorem Bounded.closed {c t : Chip} (h : Bounded c t) {r : Nat} (hr : ctxOf c r = none) : ctxOf t r = none := by
  cases ht : ctxOf t r with
  | none => rfl
  | some y =>
    obtain ⟨x, hx, -⟩ := (h r).1 y ht
    rw [hr] at hx
    cases hx

/-- Once its context is gone an abort goes on orderly. -/
theorem abortRoute_from {c : Chip} {r : Nat} {x : Ctx} (h : ctxOf c r = some x) (cause : CloseCause) :
    Orderly (setRoute r { getRoute c r with ctx := none } c) (abortRoute r cause c) := by
  have hgone : Orderly (setRoute r { getRoute c r with ctx := none } c) (setRoute r { getRoute c r with ctx := none } c) := .rfl
  unfold abortRoute
  rw [h]
  dsimp only
  generalize setRoute r { getRoute c r with ctx := none } c = d at hgone ⊢
  repeat' first
    | with_reducible assumption
    | with_reducible apply returnSlots_orderly
    | with_reducible apply abortScan_orderly
    | with_reducible apply abortLanes_orderly
    | with_reducible apply keepSlots_orderly
    | with_reducible apply abortPrint_orderly
    | with_reducible apply dropRead_orderly
    | with_reducible apply abortStore_orderly
    | with_reducible apply queueEvent_orderly
    | split
    | with_reducible refine Orderly.update ?_

theorem ctxOf_abortRoute_self (r : Nat) (cause : CloseCause) (c : Chip) : ctxOf (abortRoute r cause c) r = none := by
  cases h : ctxOf c r with
  | none =>
    unfold abortRoute
    rw [h]
    exact h
  | some x =>
    refine (abortRoute_from h cause).bounded.closed ?_
    exact congrArg Route.ctx (getRoute_setRoute_self (lt_of_ctxOf h) _)

/-- Aborts of routes one after another leave each of them CLOSED. -/
theorem ctxOf_foldl_abortRoute (rs : List Nat) (cause : CloseCause) (c : Chip) {r : Nat} (hr : r ∈ rs) :
    ctxOf (rs.foldl (fun c r => abortRoute r cause c) c) r = none := by
  induction rs generalizing c with
  | nil => exact absurd hr List.not_mem_nil
  | cons n rs ih =>
    rcases List.mem_cons.mp hr with rfl | hin
    · have hrest : Orderly (abortRoute r cause c) (rs.foldl (fun c r => abortRoute r cause c) (abortRoute r cause c)) :=
        Orderly.fold .rfl fun _ _ h => abortRoute_orderly h _ _
      exact hrest.bounded.closed (ctxOf_abortRoute_self r cause c)
    · exact ih _ hin

theorem foldl_abortRoute_kept (rs : List Nat) (cause : CloseCause) (c : Chip) : Kept c (rs.foldl (fun c r => abortRoute r cause c) c) := by
  induction rs generalizing c with
  | nil => exact .rfl
  | cons n rs ih => exact (abortRoute_kept .rfl n cause).trans (ih _)

/-! ## Service access (R141, R142) -/

theorem serviceRequestChip_eq {p : List Byte} (hp : p.length = 1) (c : Chip) : serviceRequestChip p c =
    if 4 ≤ c.prot.failures then refuse p .limit c
    else if c.prot.copy.isNone then refuse p .busy c
    else
      match c.prot.service with
      | .window _ => refuse p .busy c
      | .service => reply p .accepted c
      | .normal => setService (if (codeHeld c).isSome then .window Config.serviceWindow else .service) (reply p .accepted c) :=
  withLength_of_eq hp _ c

theorem setService_reply (p : List Byte) (x : ServiceState) (c : Chip) :
    setService x (reply p .accepted c) = { reply p .accepted c with prot := { c.prot with service := x } } := by
  have hprot : (reply p .accepted c).prot = c.prot := by simp [reply]
  unfold setService
  rw [hprot]

theorem exec_serviceEnd {p : List Byte} {s : State} (h : Taken s) (hp : p.length = 1) : exec (.serviceEnd p) s =
    .next (closeService (s.withChip (reply p .accepted (streamRules (.serviceEnd p) s.chip)))) := by
  have hexec : exec (.serviceEnd p) s = .next (arrive (.serviceEnd p) (owned p (serviceEndState p)) s) := rfl
  have hsome : ¬p.isEmpty = true := mt List.isEmpty_iff.mp (List.ne_nil_of_length_eq_add_one hp)
  rw [hexec, arrive_taken h]
  unfold owned serviceEndState
  rw [if_neg hsome, if_pos hp]
  rfl

/-! ## The end of SERVICE (R144) -/

theorem lockedJob_congr {c t : Chip} (hs : t.store = c.store) (hb : t.boot = c.boot) (j : Job) : lockedJob t j = lockedJob c j := by
  unfold lockedJob firstBlock blockAt pageOf
  rw [hs, hb]

theorem cutLockedErase_none {s : State} (h : s.chip.store.erase = none) : cutLockedErase s = s := by
  unfold cutLockedErase
  rw [h]

theorem cutLockedHolder_unlocked {s : State} (h : ∀ j, s.chip.store.holder = some j → lockedJob s.chip j = false) : cutLockedHolder s = s := by
  unfold cutLockedHolder
  split
  next j hj => rw [if_neg (by rw [h j hj]; decide)]
  · rfl

/-- The part at the end of SERVICE where the routes under a set master cell are aborted. -/
def writersAborted (c : Chip) : Chip :=
  if masterSet (setService .normal c) then
    (bootWriters (setService .normal c)).foldl (fun c r => abortRoute r .protected_ c) (setService .normal c)
  else setService .normal c

theorem serviceOver_eq (s : State) : serviceOver s =
    (cutLockedHolder (cutLockedErase (s.withChip (writersAborted s.chip)))).onChip
      fun c => grant (settleAll (retryClaim (withdrawLocked c))) := rfl

theorem serviceOver_from (s : State) : Bounded (writersAborted s.chip) (serviceOver s).chip := by
  rw [serviceOver_eq]
  have hcut := (cutLockedErase_steady (s.withChip (writersAborted s.chip))).trans (cutLockedHolder_steady _)
  exact (hcut.onChip fun _ _ h => grant_orderly (settleAll_orderly (retryClaim_orderly (withdrawLocked_orderly h)))).chip.bounded

/-- A route that writes pages of origin BOOT is CLOSED at the end of SERVICE under a set master cell. -/
theorem serviceOver_closes {s : State} (hmaster : masterSet s.chip = true) {r : Nat} (hr : r ∈ bootWriters s.chip) :
    ctxOf (serviceOver s).chip r = none := by
  refine (serviceOver_from s).closed ?_
  unfold writersAborted
  rw [if_pos (by exact hmaster)]
  exact ctxOf_foldl_abortRoute _ _ _ (by exact hr)

theorem serviceOver_flash {s : State} (hwriters : bootWriters s.chip = []) (herase : s.chip.store.erase = none)
    (hholder : ∀ j, s.chip.store.holder = some j → lockedJob s.chip j = false) : (serviceOver s).flash = s.flash := by
  have hnone : writersAborted s.chip = setService .normal s.chip := by
    have hsame : bootWriters (setService .normal s.chip) = [] := hwriters
    unfold writersAborted
    rw [hsame]
    exact ite_self _
  rw [serviceOver_eq, hnone, cutLockedErase_none (by exact herase), cutLockedHolder_unlocked]
  · rfl
  · intro j hj
    exact (lockedJob_congr (c := s.chip) (by rfl) (by rfl) j).trans (hholder j hj)

theorem mem_bootWriters {c : Chip} {r : Nat} {x : Ctx} {y : StoreParams} (hr : r < 4) (hx : ctxOf c r = some x)
    (hsink : Sink.store ∈ x.sinks) (hy : x.storeP = some y) (ho : y.origin = .boot) : r ∈ bootWriters c := by
  unfold bootWriters routesWhere
  refine List.mem_filter.mpr ⟨List.mem_range.mpr hr, ?_⟩
  rw [hx]
  dsimp only
  rw [hy, List.contains_iff_mem.mpr hsink]
  dsimp only
  rw [ho]
  rfl

/-- Settles O38, by the service states, and by the routes and jobs that the end of SERVICE cuts. -/
theorem serviceIsOpenedAndEnded : Obligations.ServiceIsOpenedAndEnded := by
  unfold Obligations.ServiceIsOpenedAndEnded
  refine ⟨fun p s h hp => ?_, fun p s h hp => ?_, fun p n s h hp => ?_, fun p n s h hp => ?_⟩
  · intro c
    have hexec : exec (.clearStoreStatus p) s = .next (s.withChip (clearStatusChip p c)) :=
      exec_owned (by rfl) h (List.ne_nil_of_length_eq_add_one hp)
    rw [hexec]
    unfold clearStatusChip
    rw [withLength_of_eq hp]
  · intro c
    have hexec : exec (.serviceRequest p) s = .next (s.withChip (serviceRequestChip p c)) :=
      exec_owned (by rfl) h (List.ne_nil_of_length_eq_add_one hp)
    rw [hexec, serviceRequestChip_eq hp]
    refine ⟨fun hfail => by rw [if_pos hfail], fun hfail hservice k hk => ?_⟩
    have hheld : codeHeld c = k.code := by
      unfold codeHeld
      rw [hk]
      rfl
    rw [if_neg (Nat.not_le.mpr hfail), if_neg (by rw [hk]; exact Bool.false_ne_true), hservice]
    dsimp only
    rw [hheld, setService_reply]
    refine ⟨fun hn => ?_, fun hs => ?_⟩
    · rw [hn, if_neg (by decide)]
    · rw [if_pos hs]
      rfl
  · intro c
    have hexec : exec (.serviceCode p) s = .next (s.withChip (serviceCodeChip p c)) :=
      exec_owned (by rfl) h (List.ne_nil_of_length_eq_add_one hp)
    rw [hexec]
    unfold serviceCodeChip
    rw [withLength_of_eq hp]
    refine ⟨fun hservice hheld => ?_, fun hservice => ?_⟩
    · rw [hservice]
      dsimp only
      rw [if_pos hheld, setService_reply]
    · rw [hservice]
  · intro c
    have hexec := exec_serviceEnd h hp
    have hprot : (reply p .accepted c).prot = c.prot := by simp [reply]
    refine ⟨fun hservice => ?_, fun hservice => ?_, fun hservice => ?_⟩
    · rw [hexec]
      unfold closeService
      dsimp only
      rw [hprot, hservice]
    · rw [hexec]
      unfold closeService
      dsimp only
      rw [hprot, hservice]
      exact congrArg (fun d => Host.Outcome.next (s.withChip d)) (setService_reply p .normal c)
    · have hover : closeService (s.withChip (reply p .accepted c)) = serviceOver (s.withChip (reply p .accepted c)) := by
        unfold closeService
        dsimp only
        rw [hprot, hservice]
      obtain ⟨link, hreply⟩ := reply_link p .accepted c
      obtain ⟨hloaded, -, -, hprotEnd, -⟩ := (serviceOver_mild (s.withChip (reply p .accepted c))).parts
      rw [hover] at hexec
      refine ⟨_, hexec, hprotEnd.trans ?_, hloaded.trans ?_, fun r x y hr hmaster hx hsink hy ho => ?_, fun hwriters herase hholder => ?_⟩
      · dsimp only
        rw [setService_reply]
      · dsimp only
        rw [setService_reply, hreply]
        rfl
      · have hin := mem_bootWriters hr hx hsink hy ho
        refine serviceOver_closes (s := s.withChip (reply p .accepted c)) ?_ ?_
        · dsimp only
          rw [hreply]
          exact hmaster
        · dsimp only
          rw [hreply]
          exact hin
      · refine serviceOver_flash (s := s.withChip (reply p .accepted c)) ?_ ?_ ?_
        · dsimp only
          rw [hreply]
          exact hwriters
        · dsimp only
          rw [hreply]
          exact herase
        · dsimp only
          rw [hreply]
          exact fun j hj => (lockedJob_congr (c := c) (by rfl) (by rfl) j).trans (hholder j hj)

/-! ## A service failure (R143) -/

/-- The part at a service failure where every route is aborted. -/
def allAborted (c : Chip) : Chip :=
  routeNumbers.foldl (fun c r => abortRoute r .aborted c)
    { c with prot := { c.prot with service := .normal, failures := min 4 (c.prot.failures + 1) } }

/-- The host reset request of a service failure. -/
def askPulse (c : Chip) : Chip := { c with power := { c.power with pulseHold := some Config.servicePulse } }

/-- The same where SERVICE PULSE is among the host reset requests. -/
def pulsed (c : Chip) : Chip :=
  addReset askPulse { allAborted c with store := { (allAborted c).store with setup := .none } }

theorem serviceFailure_eq (c : Chip) : serviceFailure c =
    settleAll (releaseHold { pulsed c with boot := { (pulsed c).boot with report := some .hostReset } }) := rfl

theorem hostReset_parts (c : Chip) : (hostReset c).prot = c.prot ∧ (hostReset c).power.pulseHold = c.power.pulseHold := by
  obtain ⟨hlink, hpower⟩ := linkHostReset_rested c
  obtain ⟨hholding, -, hbits⟩ := enterHolding_rested (cancelSleep .hostReset (linkHostReset c))
  have hpulse : (cancelSleep .hostReset (linkHostReset c)).power.pulseHold = (linkHostReset c).power.pulseHold := by
    unfold cancelSleep
    split
    · simp
    · rfl
  unfold hostReset
  refine ⟨?_, ?_⟩
  · rw [hholding.prot]
    simp [hlink.prot]
  · rw [hbits]
    exact hpulse.trans (by rw [hpower])

theorem addReset_parts {f : Chip → Chip} (c : Chip) : (addReset f c).prot = (f c).prot ∧
    (addReset f c).power.pulseHold = (f c).power.pulseHold := by
  unfold addReset
  split
  · exact ⟨rfl, rfl⟩
  · exact hostReset_parts _

theorem pulsed_parts (c : Chip) :
    (pulsed c).prot = { service := .normal, failures := min 4 (c.prot.failures + 1), copy := c.prot.copy } ∧
    (pulsed c).power.pulseHold = some 10000 := by
  obtain ⟨hprot, hpulse⟩ := addReset_parts (f := askPulse) { allAborted c with store := { (allAborted c).store with setup := .none } }
  obtain ⟨-, -, -, -, haborted, -⟩ := backdrop_parts (foldl_abortRoute_kept routeNumbers .aborted
    { c with prot := { c.prot with service := .normal, failures := min 4 (c.prot.failures + 1) } }).1
  exact ⟨hprot.trans haborted, hpulse⟩

theorem pulsed_closed (c : Chip) : ∀ r, r < 4 → ctxOf (pulsed c) r = none := by
  intro r hr
  have hreset : Orderly (allAborted c) (pulsed c) := addReset_orderly (Orderly.update .rfl) _ fun d h => Orderly.update h
  exact hreset.bounded.closed (ctxOf_foldl_abortRoute routeNumbers .aborted _ (List.mem_range.mpr hr))

theorem releaseHold_eq (c : Chip) : ∃ state hold, releaseHold c = { c with
    boot := { c.boot with state := state }, power := { c.power with bootHold := hold } } := by
  unfold releaseHold
  split <;> exact ⟨_, _, rfl⟩

/-- What a service failure leaves. -/
theorem serviceFailure_parts (c : Chip) :
    let t := serviceFailure c
    t.prot = { service := .normal, failures := min 4 (c.prot.failures + 1), copy := c.prot.copy } ∧
      (∀ r, r < 4 → ctxOf t r = none) ∧ t.power.pulseHold = some 10000 ∧ hrstnAsserted t = true ∧
      t.boot.report = some .hostReset ∧ t.loaded = c.loaded := by
  intro t
  obtain ⟨hprot, hpulse⟩ := pulsed_parts c
  obtain ⟨state, hold, hrelease⟩ := releaseHold_eq { pulsed c with boot := { (pulsed c).boot with report := some .hostReset } }
  have hkept := settleAll_kept (Kept.rfl (c := releaseHold { pulsed c with boot := { (pulsed c).boot with report := some .hostReset } }))
  obtain ⟨-, -, -, -, kprot, kboot, kpower, -⟩ := backdrop_parts hkept.1
  obtain ⟨-, -, -, -, -, kpulse, -⟩ := still_parts kpower
  rw [hrelease] at kprot kboot kpulse
  have hpulseEnd : t.power.pulseHold = some 10000 := by
    unfold t
    rw [serviceFailure_eq, hrelease]
    exact kpulse.trans hpulse
  refine ⟨?_, fun r hr => ?_, hpulseEnd, ?_, ?_, (serviceFailure_loaded .rfl).1⟩
  · unfold t
    rw [serviceFailure_eq, hrelease]
    exact kprot.trans hprot
  · have hsettle : Orderly (pulsed c) t := settleAll_orderly (releaseHold_orderly (Orderly.update .rfl))
    exact hsettle.bounded.closed (pulsed_closed c r hr)
  · unfold hrstnAsserted
    rw [hpulseEnd]
    simp
  · unfold t
    rw [serviceFailure_eq, hrelease]
    exact congrArg Boot.report kboot

/-- Settles O39, by what a service failure leaves. -/
theorem serviceFailureResetsTheHost : Obligations.ServiceFailureResetsTheHost := by
  unfold Obligations.ServiceFailureResetsTheHost
  intro failed
  refine ⟨fun p n s h hp => ?_, fun n s hservice => ?_, fun s hservice => ?_⟩
  · intro c hservice hheld
    have hexec : exec (.serviceCode p) s = .next (s.withChip (serviceCodeChip p c)) :=
      exec_owned (by rfl) h (List.ne_nil_of_length_eq_add_one hp)
    have hchip : serviceCodeChip p c = serviceFailure (refuseProtected p c) := by
      unfold serviceCodeChip
      rw [withLength_of_eq hp, hservice]
      exact if_neg hheld
    rw [hchip] at hexec
    obtain ⟨hprot, hclosed, hpulse, hreset, hreport, hloaded⟩ := serviceFailure_parts (refuseProtected p c)
    have hrefused : (refuseProtected p c).prot = c.prot := by simp [refuseProtected, refuse, reply]
    rw [hrefused] at hprot
    exact ⟨_, hexec, ⟨hprot, hclosed, hpulse, hreset, hreport, hloaded.trans (refuseProtected_kept .rfl p).tables.1⟩, rfl⟩
  · have hexec : exec .serviceWindowExpiry s = .next (s.withChip (serviceFailure s.chip)) := by
      refine exec_of_chip (by rfl) ?_
      unfold windowExpiryChip
      rw [hservice]
    exact ⟨_, hexec, serviceFailure_parts s.chip, rfl⟩
  · refine exec_without_effect (f := windowExpiryChip) (by rfl) ?_
    unfold windowExpiryChip
    split
    next n hn => exact absurd hn (hservice n)
    · rfl

end Sys2Proof.Proofs
end

section
/-!
PROOFS. Installing a boot page: its start, its MARK and the retire of the former page (09_host_boot.md R172, R173).
-/

-- One declaration after another: the package as one text keeps within the check's limit on threads.
set_option Elab.async false

namespace Sys2Proof.Proofs

open Sys2Proof Sys2Proof.Machine

/-! ## The start -/

theorem installCheck_passed {m : List Host.Cell} {id len : Nat} {c : Chip} (h : installCheck m id len c = none) :
    ∃ pg, pageOf c id = some pg ∧ badLength len pg.lines = false := by
  unfold installCheck at h
  split at h
  · cases h
  split at h
  · cases h
  next pg hpage =>
    refine ⟨pg, hpage, Bool.eq_false_iff.mpr fun hbad => ?_⟩
    dsimp only at h
    rw [if_pos hbad] at h
    split at h
    · cases h
    split at h
    · cases h
    split at h <;> cases h

theorem startCheck_passed {id len sum : Nat} {c : Chip} {pg : Page} (hpage : pageOf c id = some pg) (hlen : badLength len pg.lines = false) :
    startCheck id len sum c = askRead .imageRead { c with boot := { c.boot with check := some ⟨id, len, sum, 0, 0, 0, 0⟩ } } := by
  unfold startCheck
  rw [hpage]
  exact if_neg (by rw [hlen]; exact Bool.false_ne_true)

theorem installChip_passed {m : List Host.Cell} {p : List Byte} {c : Chip} (hp : p.length = 9)
    (h : installCheck m (numAt p 1 2) (numAt p 3 4) c = none) : ∃ link, installChip m p c = askRead .imageRead { c with
      link := link
      boot := { c.boot with
        install := some ⟨numAt p 1 2, numAt p 3 4, numAt p 7 2, .check⟩
        check := some ⟨numAt p 1 2, numAt p 3 4, numAt p 7 2, 0, 0, 0, 0⟩ } } := by
  obtain ⟨pg, hpage, hlen⟩ := installCheck_passed h
  obtain ⟨link, hreply⟩ := reply_link p .accepted c
  refine ⟨link, ?_⟩
  unfold installChip
  rw [withLength_of_eq hp]
  dsimp only
  rw [h, hreply]
  exact startCheck_passed ((pageOf_congr (by rfl) _).trans hpage) hlen

theorem exec_installBoot {p : List Byte} {s : State} (h : Taken s) (hp : p ≠ []) : exec (.installBoot p) s =
    .next (s.withChip (installChip s.flash.mem p (streamRules (.installBoot p) s.chip))) := by
  have hexec : exec (.installBoot p) s = .next (arrive (.installBoot p) (ownedChip p (installChip s.flash.mem p)) s) := by
    have harrive : exec (.installBoot p) s = .next (arrive (.installBoot p) (owned p (installState p)) s) := rfl
    rw [harrive, arrive_taken h, arrive_taken h]
    rfl
  rw [hexec, ownedChip_taken h _ hp]

/-! ## The MARK program -/

theorem endInstall_boot {res : OpResult} {c : Chip} : (endInstall res c).boot = { c.boot with install := none } := by
  unfold endInstall
  split
  next h => rw [← h]
  · simp

theorem settled_boot (c : Chip) : (freeFlash (settleAll c)).boot = c.boot := by
  obtain ⟨-, -, -, -, -, hboot, -⟩ := backdrop_parts (freeFlash_kept (settleAll_kept (Kept.rfl (c := c)))).1
  exact hboot

theorem exec_installMarkProgramEnd {s : State} (h : s.chip.store.holder = some .installMark) (r : ProgResult) :
    exec (.installMarkProgramEnd r) s = .next (endProgram .installMark r markDone s) :=
  congrArg Host.Outcome.next (if_pos h)

theorem exec_installMarkProgramEnd_idle {s : State} (h : s.chip.store.holder ≠ some .installMark) (r : ProgResult) :
    exec (.installMarkProgramEnd r) s = .next s := congrArg Host.Outcome.next (if_neg h)

theorem markDone_boot {i : Install} {c : Chip} (h : c.boot.install = some i) (ok : Bool) : (markDone ok c).boot =
    if ok then { c.boot with
      installed := some i.page, length := some i.length, checksum := some i.checksum, result := .valid
      install := c.boot.installed.map fun f => { i with phase := .retire f false } }
    else { c.boot with install := none } := by
  unfold markDone
  rw [h]
  cases ok with
  | true =>
    rw [if_pos rfl]
    dsimp only
    rw [if_pos rfl]
    unfold installSwitch
    cases hformer : c.boot.installed with
    | none =>
      dsimp only
      exact endInstall_boot
    | some f => rfl
  | false =>
    exact endInstall_boot

/-! ## The retire of the former page -/

theorem grant_total_iff (c : Chip) : (grant c).store.op = .totalBlocks ↔ c.store.op = .totalBlocks := by
  obtain ⟨e, hresume⟩ := resumeErase_store_eq c
  unfold grant
  split
  · exact Iff.rfl
  split
  next hop =>
    split
    · exact Iff.rfl
    split
    · split
      next d hd => rw [hop, suspendErase_op hd, hop]
      · exact Iff.rfl
    · split
      next d hd => rw [hop, suspendErase_op hd, hop]
      · exact Iff.rfl
    · rw [hresume]
  next hop =>
    split
    · rw [hop]
      exact ⟨nofun, nofun⟩
    · exact Iff.rfl
  · rw [hresume]
  · exact Iff.rfl

theorem retireEnded_frame (why : RetireFor) (failed : Bool) (c : Chip) :
    (retireEnded why failed c).store.blocks = c.store.blocks ∧ (retireEnded why failed c).store.dir = c.store.dir ∧
    (retireEnded why failed c).store.op = c.store.op ∧ (retireEnded why failed c).prot = c.prot := by
  have hend (res : OpResult) (d : Chip) : (endInstall res d).store = d.store ∧ (endInstall res d).prot = d.prot := by
    unfold endInstall
    split <;> simp
  unfold retireEnded
  dsimp only
  split
  · split
    · simp
    · simp [hend]
    · simp
  · simp

/-- The state in which the retire of the former page leaves a block. -/
def retiredState (passes : Bool) : BlockState := if passes then .retired else .damaged

theorem retireFormer_eq (c : Chip) (b : Nat) : retireFormer c b =
    if lockPasses c b then retireBlock .install c b
    else retireEnded .install true (joinEraseQueue b (setBlockState b .damaged c)) := rfl

theorem blockAt_retireFormer (c : Chip) (b n : Nat) : blockAt (retireFormer c b) n =
    if n = b ∧ b < c.store.blocks.length then Block.leaving (retiredState (lockPasses c b)) (blockAt c b) else blockAt c n := by
  rw [retireFormer_eq]
  cases lockPasses c b with
  | true => exact blockAt_retireBlock .install c b n
  | false =>
    obtain ⟨hblocks, -⟩ := retireEnded_frame .install true (joinEraseQueue b (setBlockState b .damaged c))
    rw [if_neg (by decide), blockAt_congr hblocks, blockAt_joinEraseQueue, blockAt_setBlockState (by decide)]
    rfl

/-- What the retire of a block of the former page leaves. -/
theorem retireFormer_frame (c : Chip) (b : Nat) : (retireFormer c b).store.blocks.length = c.store.blocks.length ∧
    (retireFormer c b).store.dir = c.store.dir ∧ (retireFormer c b).prot = c.prot ∧
    ((retireFormer c b).store.op = .totalBlocks ↔ c.store.op = .totalBlocks) := by
  have hasked : ((retireBlock .install c b).store.op = .totalBlocks ↔ c.store.op = .totalBlocks) := by
    unfold retireBlock askProgram
    rw [grant_total_iff]
    simp
  rw [retireFormer_eq]
  split
  · obtain ⟨hlen, hdir, -⟩ := retireBlock_frame .install c b
    refine ⟨hlen, hdir, ?_, hasked⟩
    unfold retireBlock
    simp
  · obtain ⟨queue, hqueue⟩ := joinEraseQueue_eq b (setBlockState b .damaged c)
    obtain ⟨hblocks, hdir, hop, hprot⟩ := retireEnded_frame .install true (joinEraseQueue b (setBlockState b .damaged c))
    rw [hblocks, hdir, hop, hprot, hqueue]
    simp

theorem lockPasses_retireFormer (c : Chip) (b n : Nat) : lockPasses (retireFormer c b) n = lockPasses c n := by
  obtain ⟨-, -, hprot, hop⟩ := retireFormer_frame c b
  have hlock : (blockAt (retireFormer c b) n).lock = (blockAt c n).lock := by
    rw [blockAt_retireFormer]
    split
    next h => rw [h.1]; rfl
    · rfl
  unfold lockPasses serviceHeld
  rw [hlock, hprot, decide_eq_decide.mpr hop]

/-- Each block of the former page is RETIRED or DAMAGED, by the lock check as it stands before the first retire. -/
theorem blockAt_retireFormers (bs : List Nat) (c : Chip) (n : Nat) : blockAt (bs.foldl retireFormer c) n =
    if n ∈ bs ∧ n < c.store.blocks.length then Block.leaving (retiredState (lockPasses c n)) (blockAt c n) else blockAt c n := by
  induction bs generalizing c with
  | nil => rw [if_neg fun h => absurd h.1 List.not_mem_nil]; rfl
  | cons b bs ih =>
    obtain ⟨hlen, -⟩ := retireFormer_frame c b
    rw [List.foldl_cons, ih, hlen, blockAt_retireFormer, lockPasses_retireFormer]
    by_cases hn : n = b
    · subst hn
      by_cases hlt : n < c.store.blocks.length
      · simp [hlt, Block.leaving]
      · simp [hlt]
    · simp [hn]

theorem exec_installRetireStart (s : State) : exec .installRetireStart s = .next (s.onChip installRetireChip) := rfl

/-- What the retire of the former page leaves of the directory and of the blocks. -/
theorem installRetireChip_tables {i : Install} {f : Nat} {c : Chip} {pg : Page} (hi : c.boot.install = some i)
    (hphase : i.phase = .retire f false) (hread : pageRead f c = false) (hpage : pageOf c f = some pg) :
    (installRetireChip c).store.dir = (removePage f c).store.dir ∧ ∀ n, blockAt (installRetireChip c) n =
      if n ∈ pg.blocks ∧ n < c.store.blocks.length then Block.leaving (retiredState (lockPasses c n)) (blockAt c n) else blockAt c n := by
  unfold installRetireChip
  rw [hi]
  dsimp only
  rw [hphase]
  dsimp only
  have hsame (boot : Boot) : pageOf { c with boot := boot } f = some pg := hpage
  rw [if_neg (by rw [hread]; exact Bool.false_ne_true), hsame]
  dsimp only
  split
  next hempty =>
    have hend (res : OpResult) (d : Chip) : (endInstall res d).store = d.store := by
      unfold endInstall
      split <;> simp
    rw [List.isEmpty_iff.mp hempty]
    refine ⟨congrArg Store.dir (hend _ _), fun n => ?_⟩
    rw [if_neg fun k => absurd k.1 List.not_mem_nil]
    exact blockAt_congr (congrArg Store.blocks (hend _ _)) n
  · refine ⟨foldl_same (f := fun d => d.store.dir) (fun d b => (retireFormer_frame d b).2.1) pg.blocks _, fun n => ?_⟩
    exact blockAt_retireFormers pg.blocks _ n

/-- Settles O40, by the image check that begins, the record of the install behind MARK, and the former page's blocks one by one. -/
theorem installRunsItsPhases : Obligations.InstallRunsItsPhases := by
  unfold Obligations.InstallRunsItsPhases
  refine ⟨fun p id len sum s h hp hid hlen hsum => ?_, fun r i s hholder hi => ?_, fun r s hholder => exec_installMarkProgramEnd_idle hholder r,
    fun i f s hi hphase => ⟨fun hread => ?_, fun pg hread hpage hin => ?_⟩⟩
  · subst hid hlen hsum
    intro c hcheck
    obtain ⟨link, hchip⟩ := installChip_passed hp hcheck
    refine ⟨_, exec_installBoot h (List.ne_nil_of_length_eq_add_one hp), ?_⟩
    simp [c, hchip]
  · refine ⟨_, exec_installMarkProgramEnd hholder r, rfl, ?_⟩
    have hboot : (endProgram .installMark r markDone s).chip.boot = _ := (settled_boot _).trans (markDone_boot hi _)
    rw [hboot]
    generalize (runProgram .installMark r s).2 = ok
    refine ⟨fun hok => ?_, fun hok => ?_⟩
    · rw [if_pos hok]
      exact ⟨rfl, rfl, rfl, rfl, rfl⟩
    · rw [if_neg (by rw [hok]; exact Bool.false_ne_true)]
      exact ⟨rfl, rfl⟩
  · refine exec_without_effect (exec_installRetireStart s) ?_
    unfold installRetireChip
    rw [hi]
    dsimp only
    rw [hphase]
    exact if_pos hread
  · obtain ⟨hdir, hblock⟩ := installRetireChip_tables hi hphase hread hpage
    refine ⟨_, exec_installRetireStart s, (pageOf_congr hdir f).trans (pageOf_removePage_self f _), rfl, fun b hb => ?_, fun b hb => ?_⟩
    · refine (congrArg Block.state (hblock b)).trans ?_
      rw [if_pos ⟨hb, hin b hb⟩]
      rfl
    · exact (hblock b).trans (if_neg fun k => hb k.1)

end Sys2Proof.Proofs
end

section
/-!
PROOFS. What follows at once from a change in a route's queues leaves of the engine (`pump`, `settle`, `settleAll`): the relation `Attended`,
kept by each operation on that way. The inputs, the run-out, the Line Coder's way in, the capture under way, the cut and the motion of the
channels stand; the print and link queues of the routes that stay open only grow, marks rewritten in place apart (R15); a route closes with
those queues empty (R13); and while the route that prints stays open, the head goes on but for its load.
-/

-- One declaration after another: the package as one text keeps within the check's limit on threads.
set_option Elab.async false

namespace Sys2Proof.Proofs

open Sys2Proof Sys2Proof.Machine

/-! ## The relation -/

/-- An entry without what a sink may write into it: a mark keeps its tag (R15). -/
def entryKey : Entry → LineEntry ⊕ Nat
  | .line e => .inl e
  | .mark m => .inr m.tag

/-- A queue that another one begins with, marks rewritten in place apart. -/
def Grows (q q' : List Entry) : Prop := q.map entryKey <+: q'.map entryKey

theorem Grows.rfl {q : List Entry} : Grows q q := List.prefix_rfl

theorem Grows.trans {a b c : List Entry} (h : Grows a b) (k : Grows b c) : Grows a c := List.IsPrefix.trans h k

theorem Grows.append (q more : List Entry) : Grows q (q ++ more) := by
  unfold Grows
  rw [List.map_append]
  exact List.prefix_append ..

theorem Grows.nil {q q' : List Entry} (h : Grows q q') (hq : q' = []) : q = [] := by
  subst hq
  exact List.map_eq_nil_iff.mp (List.prefix_nil.mp h)

/-- The head line of a queue that grows stays at its head. -/
theorem Grows.line {e : LineEntry} {rest q : List Entry} (h : Grows (.line e :: rest) q) : ∃ more, q = .line e :: more := by
  unfold Grows at h
  cases q with
  | nil => exact absurd h (by simp)
  | cons y q =>
    rw [List.map_cons, List.map_cons, List.cons_prefix_cons] at h
    cases y with
    | line l => exact ⟨q, by injection h.1 with hl; rw [hl]⟩
    | mark m => exact absurd h.1 nofun

theorem putMark_key (m : Mark) (q : List Entry) : (putMark m q).map entryKey = q.map entryKey := by
  unfold putMark
  rw [List.map_map]
  refine List.map_congr_left fun e _ => ?_
  cases e with
  | line l => rfl
  | mark n =>
    dsimp only [Function.comp]
    split
    next h => exact congrArg Sum.inr h.symm
    · rfl

theorem putMark_grows (m : Mark) (q : List Entry) : Grows q (putMark m q) := by
  unfold Grows
  rw [putMark_key]

/-- A context in which what its OPEN fixed stands, and whose print and link queues grow. -/
def Stays (x y : Ctx) : Prop := fixedOf y = fixedOf x ∧ Grows x.printQ y.printQ ∧ Grows x.linkQ y.linkQ

theorem Stays.rfl {x : Ctx} : Stays x x := ⟨Eq.refl _, .rfl, .rfl⟩

theorem Stays.trans {x y z : Ctx} (h : Stays x y) (k : Stays y z) : Stays x z :=
  ⟨k.1.trans h.1, h.2.1.trans k.2.1, h.2.2.trans k.2.2⟩

theorem Stays.sinks {x y : Ctx} (h : Stays x y) : y.sinks = x.sinks := congrArg (fun v => v.2.1) h.1

theorem Stays.halt {x y : Ctx} (h : Stays x y) : y.halt = x.halt := congrArg (fun v => v.2.2.2.2.2.2.2.2.2.2.2) h.1

theorem Stays.of {x y : Ctx} (hfixed : fixedOf y = fixedOf x) (hprint : y.printQ = x.printQ) (hlink : y.linkQ = x.linkQ) : Stays x y :=
  ⟨hfixed, hprint ▸ .rfl, hlink ▸ .rfl⟩

/-- A route that stays as it was, closed or open, or closes with its print and link queues empty and no halt. -/
inductive RouteStays : Option Ctx → Option Ctx → Prop
  | closed : RouteStays none none
  | stays {x y : Ctx} (h : Stays x y) : RouteStays (some x) (some y)
  | closes {x : Ctx} (hprint : x.printQ = []) (hlink : x.linkQ = []) (hhalt : x.halt = none) : RouteStays (some x) none

theorem RouteStays.rfl {x : Option Ctx} : RouteStays x x := by
  cases x with
  | none => exact .closed
  | some x => exact .stays .rfl

theorem RouteStays.trans {x y z : Option Ctx} (h : RouteStays x y) (k : RouteStays y z) : RouteStays x z := by
  cases h with
  | closed => exact k
  | closes hprint hlink hhalt =>
    cases k
    exact .closes hprint hlink hhalt
  | stays h =>
    cases k with
    | stays k => exact .stays (h.trans k)
    | closes hprint hlink hhalt => exact .closes (h.2.1.nil hprint) (h.2.2.nil hlink) (h.halt.symm.trans hhalt)

/-- A channel without its stop cause and what its route gave it. -/
def Channel.body (ch : Channel) : Channel := { ch with cause := none, route := none, run := none }

/-- The head but for what it loads. -/
def Head.still (h : Head) : Head := { h with shift := .empty, loadLeft := 0 }

/-- The engine goes on, and no route but those of `P` closes. -/
structure Attended (P : Nat → Prop) (c t : Chip) : Prop where
  pins : t.pins = c.pins
  runOut : t.runOut = c.runOut
  linkIn : t.linkIn = c.linkIn
  capture : t.scan.capture = c.scan.capture
  scanCh : Channel.body t.scanCh = Channel.body c.scanCh
  printCh : Channel.body t.printCh = Channel.body c.printCh ∧ t.printCh.cause = c.printCh.cause
  cut : t.head.cut = c.head.cut ∧ t.head.cutTime = c.head.cutTime ∧ t.head.heatReported = c.head.heatReported ∧ t.head.band = c.head.band
  routes : ∀ r, RouteStays (ctxOf c r) (ctxOf t r)
  closers : ∀ r, ctxOf c r ≠ none → ctxOf t r = none → P r
  prints : (∀ r x, ctxOf c r = some x → Sink.print ∈ x.sinks → ctxOf t r ≠ none) →
    Head.still t.head = Head.still c.head ∧ t.printCh = c.printCh

section
variable {P : Nat → Prop}

theorem Attended.rfl {c : Chip} : Attended P c c :=
  ⟨Eq.refl _, Eq.refl _, Eq.refl _, Eq.refl _, Eq.refl _, ⟨Eq.refl _, Eq.refl _⟩, ⟨Eq.refl _, Eq.refl _, Eq.refl _, Eq.refl _⟩,
    fun _ => .rfl, fun _ h k => absurd k h, fun _ => ⟨Eq.refl _, Eq.refl _⟩⟩

theorem Attended.trans {a b c : Chip} (h : Attended P a b) (k : Attended P b c) : Attended P a c := by
  obtain ⟨kcut, ktime, kheat, kband⟩ := k.cut
  obtain ⟨hcut, htime, hheat, hband⟩ := h.cut
  refine ⟨k.pins.trans h.pins, k.runOut.trans h.runOut, k.linkIn.trans h.linkIn, k.capture.trans h.capture, k.scanCh.trans h.scanCh,
    ⟨k.printCh.1.trans h.printCh.1, k.printCh.2.trans h.printCh.2⟩,
    ⟨kcut.trans hcut, ktime.trans htime, kheat.trans hheat, kband.trans hband⟩, fun r => (h.routes r).trans (k.routes r),
    fun r hr hn => ?_, fun hopen => ?_⟩
  · by_cases hb : ctxOf b r = none
    · exact h.closers r hr hb
    · exact k.closers r hb hn
  · have hmid : ∀ r x, ctxOf a r = some x → Sink.print ∈ x.sinks → ctxOf b r ≠ none := by
      intro r x hx hs hnone
      have hclosed := k.routes r
      rw [hnone] at hclosed
      refine hopen r x hx hs ?_
      cases hr : ctxOf c r with
      | none => rfl
      | some y =>
        rw [hr] at hclosed
        cases hclosed
    have hlast : ∀ r y, ctxOf b r = some y → Sink.print ∈ y.sinks → ctxOf c r ≠ none := by
      intro r y hy hs
      have hfirst := h.routes r
      rw [hy] at hfirst
      cases hx : ctxOf a r with
      | none =>
        rw [hx] at hfirst
        cases hfirst
      | some x =>
        rw [hx] at hfirst
        cases hfirst with
        | stays hxy => exact hopen r x hx (hxy.sinks ▸ hs)
    obtain ⟨hhead, hch⟩ := h.prints hmid
    obtain ⟨khead, kch⟩ := k.prints hlast
    exact ⟨khead.trans hhead, kch.trans hch⟩

theorem Attended.fold {α : Type} {w u : Chip} {f : Chip → α → Chip} {xs : List α} (h : Attended P w u)
    (hf : ∀ c x, Attended P w c → Attended P w (f c x)) : Attended P w (xs.foldl f u) := by
  induction xs generalizing u with
  | nil => exact h
  | cons x xs ih => exact ih (hf _ _ h)

/-- An update that leaves the engine but for the scan state, a stop cause and what the route of the scan channel gave. -/
theorem Attended.update {c b : Chip} {scan : Capture} {scanCh : Channel} {linkOut : LinkOut} {store : Store} {power : Power} {link : Link}
    (h : Attended P c b) (hs : scan.capture = b.scan.capture := by rfl) (hch : Channel.body scanCh = Channel.body b.scanCh := by rfl) :
    Attended P c { b with scan := scan, scanCh := scanCh, linkOut := linkOut, store := store, power := power, link := link } :=
  h.trans ⟨Eq.refl _, Eq.refl _, Eq.refl _, hs, hch, ⟨Eq.refl _, Eq.refl _⟩, ⟨Eq.refl _, Eq.refl _, Eq.refl _, Eq.refl _⟩,
    fun _ => .rfl, fun _ h k => absurd k h, fun _ => ⟨Eq.refl _, Eq.refl _⟩⟩

/-- Lines moved with every route staying as it is. -/
theorem Attended.lined {w u t : Chip} (hu : Attended P w u) (h : Lined u t) (hr : ∀ r, RouteStays (ctxOf u r) (ctxOf t r))
    (hP : ∀ r, ctxOf u r ≠ none → ctxOf t r = none → P r) : Attended P w t := by
  refine hu.trans ?_
  obtain ⟨pool, routes, reports, lost, left, rfl⟩ := h
  exact ⟨Eq.refl _, Eq.refl _, Eq.refl _, Eq.refl _, Eq.refl _, ⟨Eq.refl _, Eq.refl _⟩, ⟨Eq.refl _, Eq.refl _, Eq.refl _, Eq.refl _⟩, hr,
    hP, fun _ => ⟨Eq.refl _, Eq.refl _⟩⟩

theorem RouteStays.of_eq {x y : Option Ctx} (h : y = x) : RouteStays x y := h ▸ .rfl

/-- Lines moved with every context standing. -/
theorem Attended.same {w u t : Chip} (hu : Attended P w u) (h : Lined u t) (hr : ∀ r, ctxOf t r = ctxOf u r) : Attended P w t :=
  hu.lined h (fun r => .of_eq (hr r)) fun r k hn => absurd ((hr r).symm.trans hn) k

/-! ## Routes, slots and records -/

theorem setRoute_attended {w u : Chip} (hu : Attended P w u) (r : Nat) (x : Route) {y z : Ctx} (hy : ctxOf u r = some y) (hx : x.ctx = some z)
    (hyz : Stays y z) : Attended P w (setRoute r x u) := by
  have hself : ctxOf (setRoute r x u) r = some z := (congrArg Route.ctx (getRoute_setRoute_self (lt_of_ctxOf hy) x)).trans hx
  refine hu.lined (setRoute_lined r x u) (fun n => ?_) fun n hs hn => ?_
  · by_cases hn : n = r
    · subst hn
      rw [hself, hy]
      exact .stays hyz
    · rw [ctxOf_setRoute_ne hn]
      exact .rfl
  · by_cases k : n = r
    · subst k
      rw [hself] at hn
      cases hn
    · rw [ctxOf_setRoute_ne k] at hn
      exact absurd hn hs

theorem modCtx_attended {w u : Chip} (hu : Attended P w u) (r : Nat) (f : Ctx → Ctx) (hf : ∀ x, ctxOf u r = some x → Stays x (f x)) :
    Attended P w (modCtx r f u) := by
  cases h : ctxOf u r with
  | none => rw [modCtx_of_none h]; exact hu
  | some x =>
    rw [modCtx_of_some h]
    exact setRoute_attended hu r _ h (Eq.refl _) (hf x h)

theorem push_stays (x : Ctx) (e : Entry) : Stays x (x.push e) := by
  unfold Ctx.push
  refine List.foldlRecOn (motive := Stays x) x.sinks _ .rfl fun y hy k _ => hy.trans ?_
  cases k
  · exact ⟨rfl, .append _ _, .rfl⟩
  · exact ⟨rfl, .rfl, .append _ _⟩
  · exact .rfl

theorem recordReady_attended {w u : Chip} (hu : Attended P w u) : Attended P w (recordReady u) := by
  unfold recordReady
  split
  · exact Attended.update hu
  · exact hu

theorem queueEvent_attended {w u : Chip} (hu : Attended P w u) (e : Event) : Attended P w (queueEvent e u) :=
  hu.same (queueEvent_lined e u) fun r => ctxOf_queueEvent e u r

theorem setSlot_attended {w u : Chip} (hu : Attended P w u) (n : Nat) (x : Slot) : Attended P w (setSlot n x u) :=
  hu.same (setSlot_lined n x u) fun r => ctxOf_congr (by simp) r

theorem returnSlot_attended {w u : Chip} (hu : Attended P w u) (n : Nat) : Attended P w (returnSlot n u) := by
  refine hu.lined (returnSlot_lined n u) (fun r => ?_) fun r hs hn => ?_
  · rcases getRoute_returnSlot n r u with h | ⟨y, g, hy, hlink, h⟩
    · exact .of_eq (congrArg Route.ctx h)
    · rw [show ctxOf u r = some y from hy, ctxOf, h]
      exact .stays .rfl
  · rcases getRoute_returnSlot n r u with h | ⟨y, g, hy, hlink, h⟩
    · exact absurd ((congrArg Route.ctx h).symm.trans hn) hs
    · rw [ctxOf, h] at hn
      cases hn

theorem returnSlots_attended {w u : Chip} (hu : Attended P w u) (ns : List Nat) : Attended P w (returnSlots ns u) :=
  Attended.fold hu fun _ n h => returnSlot_attended h n

theorem dropReference_attended {w u : Chip} (hu : Attended P w u) (n : Nat) : Attended P w (dropReference n u) := by
  unfold dropReference
  repeat' first
    | with_reducible assumption
    | with_reducible apply returnSlot_attended
    | with_reducible apply setSlot_attended
    | split

theorem dropStall_attended {w u : Chip} (hu : Attended P w u) (r : Nat) (s : Stall) : Attended P w (dropStall r s u) :=
  modCtx_attended hu r _ fun _ _ => .rfl

theorem addStall_attended {w u : Chip} (hu : Attended P w u) (r : Nat) (s : Stall) : Attended P w (addStall r s u) := by
  refine modCtx_attended hu r _ fun x _ => ?_
  split <;> exact .rfl

theorem dropLamp_attended {w u : Chip} (hu : Attended P w u) : Attended P w (dropLamp u) := by
  unfold dropLamp
  repeat' first
    | with_reducible assumption
    | (extract_lets +onlyGivenNames v; subst v)
    | split
    | with_reducible refine Attended.update ?_

theorem modBlock_attended {w u : Chip} (hu : Attended P w u) (b : ℕ) (f : Block → Block) : Attended P w (modBlock b f u) := by
  unfold modBlock
  repeat' first
    | with_reducible assumption
    | (extract_lets +onlyGivenNames v; subst v)
    | with_reducible refine Attended.update ?_

theorem setBlockState_attended {w u : Chip} (hu : Attended P w u) (b : ℕ) (st : BlockState) : Attended P w (setBlockState b st u) := by
  unfold setBlockState
  repeat' first
    | with_reducible assumption
    | with_reducible apply modBlock_attended

theorem modPage_attended {w u : Chip} (hu : Attended P w u) (id : ℕ) (f : Page → Page) : Attended P w (modPage id f u) := by
  unfold modPage
  repeat' first
    | with_reducible assumption
    | (extract_lets +onlyGivenNames v; subst v)
    | split
    | with_reducible refine Attended.update ?_

theorem removePage_attended {w u : Chip} (hu : Attended P w u) (id : ℕ) : Attended P w (removePage id u) := by
  unfold removePage
  repeat' first
    | with_reducible assumption
    | (extract_lets +onlyGivenNames v; subst v)
    | with_reducible refine Attended.update ?_

theorem refreshLoad_attended {w u : Chip} (hu : Attended P w u) : Attended P w (refreshLoad u) := by
  refine hu.trans ?_
  obtain ⟨_, _, h⟩ := refreshLoad_eq u
  rw [h]
  exact ⟨rfl, rfl, rfl, rfl, rfl, ⟨rfl, rfl⟩, ⟨rfl, rfl, rfl, rfl⟩, fun _ => .rfl, fun _ h k => absurd k h, fun _ => ⟨rfl, rfl⟩⟩

theorem setErase_attended {w u : Chip} (hu : Attended P w u) (e : Option EraseProg) : Attended P w (setErase e u) := by
  unfold setErase
  repeat' first
    | with_reducible assumption
    | (extract_lets +onlyGivenNames v; subst v)
    | with_reducible refine Attended.update ?_

theorem suspendErase_attended {w u c : Chip} (hu : Attended P w u) (e : suspendErase u = some c) : Attended P w c := by
  unfold suspendErase at e
  repeat' split at e
  all_goals cases e
  all_goals first | exact hu | exact Attended.update hu

theorem resumeErase_attended {w u : Chip} (hu : Attended P w u) : Attended P w (resumeErase u) := by
  unfold resumeErase
  repeat' first
    | with_reducible assumption
    | with_reducible apply setErase_attended
    | split

theorem grant_attended {w u : Chip} (hu : Attended P w u) : Attended P w (grant u) := by
  unfold grant
  split
  · exact hu
  · split
    · split
      · exact hu
      · split
        · split
          · rename_i e
            exact Attended.update (suspendErase_attended hu e)
          · exact hu
        · split
          · rename_i e
            exact Attended.update (suspendErase_attended hu e)
          · exact hu
        · exact resumeErase_attended hu
    · rename_i ho
      split
      · rename_i c e
        have hc : c.store.op = .lockErase false := (suspendErase_op e).trans ho
        exact Attended.update (suspendErase_attended hu e)
      · exact hu
    · exact resumeErase_attended hu
    · exact hu

theorem askRead_attended {w u : Chip} (hu : Attended P w u) (j : Job) : Attended P w (askRead j u) := by
  unfold askRead
  repeat' first
    | with_reducible assumption
    | with_reducible apply grant_attended
    | (extract_lets +onlyGivenNames v; subst v)
    | with_reducible refine Attended.update ?_

theorem askProgram_attended {w u : Chip} (hu : Attended P w u) (j : Job) : Attended P w (askProgram j u) := by
  unfold askProgram
  repeat' first
    | with_reducible assumption
    | with_reducible apply grant_attended
    | (extract_lets +onlyGivenNames v; subst v)
    | with_reducible refine Attended.update ?_

theorem freeFlash_attended {w u : Chip} (hu : Attended P w u) : Attended P w (freeFlash u) := by
  unfold freeFlash
  repeat' first
    | with_reducible assumption
    | with_reducible apply grant_attended
    | (extract_lets +onlyGivenNames v; subst v)
    | with_reducible refine Attended.update ?_

theorem retireBlock_attended {w u : Chip} (hu : Attended P w u) (why : RetireFor) (b : ℕ) : Attended P w (retireBlock why u b) := by
  unfold retireBlock
  repeat' first
    | with_reducible assumption
    | with_reducible apply askProgram_attended
    | with_reducible apply setBlockState_attended

theorem retireBlocks_attended {w u : Chip} (hu : Attended P w u) (why : RetireFor) (bs : List ℕ) : Attended P w (retireBlocks why bs u) := by
  unfold retireBlocks
  repeat' first
    | with_reducible assumption
    | intro _
    | with_reducible apply retireBlock_attended
    | with_reducible refine Attended.fold ?_ ?_
    | (extract_lets +onlyGivenNames v; subst v)
    | split
    | with_reducible refine Attended.update ?_

theorem enterQueues_attended {w u : Chip} (hu : Attended P w u) (r : ℕ) (e : Entry) : Attended P w (enterQueues r e u) := by
  unfold enterQueues
  repeat' first
    | with_reducible assumption
    | with_reducible refine modCtx_attended ?_ _ _ (fun x _ => by first | exact push_stays _ _ | exact .of rfl rfl rfl)
    | with_reducible apply setSlot_attended
    | (extract_lets +onlyGivenNames v; refine (fun _ : Attended P w v => ?_) ?_; rotate_left; subst v; rotate_left; clear_value v)
    | split

theorem placeEntry_attended {w u : Chip} (hu : Attended P w u) (r : ℕ) (e : Entry) : Attended P w (placeEntry r e u) := by
  unfold placeEntry
  repeat' first
    | with_reducible assumption
    | with_reducible apply enterQueues_attended
    | with_reducible refine modCtx_attended ?_ _ _ (fun x _ => by first | exact push_stays _ _ | exact .of rfl rfl rfl)
    | split

theorem moveHold_attended {w u : Chip} (hu : Attended P w u) (r : Nat) (es : List Entry) : Attended P w (moveHold r es u) := by
  induction es generalizing u with
  | nil => exact modCtx_attended hu _ _ fun _ _ => .of rfl rfl rfl
  | cons e es ih =>
    unfold moveHold
    repeat' first
      | with_reducible assumption
      | exact modCtx_attended hu _ _ fun _ _ => .of rfl rfl rfl
      | exact ih (enterQueues_attended hu _ _)
      | split

theorem settleHold_attended {w u : Chip} (hu : Attended P w u) (r : ℕ) : Attended P w (settleHold r u) := by
  unfold settleHold
  repeat' first
    | with_reducible assumption
    | with_reducible apply moveHold_attended
    | split

theorem pageEnd_attended {w u : Chip} (hu : Attended P w u) (r : ℕ) (truncated : Bool) : Attended P w (pageEnd r truncated u) := by
  unfold pageEnd
  repeat' first
    | with_reducible assumption
    | with_reducible apply placeEntry_attended
    | with_reducible refine modCtx_attended ?_ _ _ (fun x _ => by first | exact push_stays _ _ | exact .of rfl rfl rfl)
    | split

theorem dropHead_attended {w u : Chip} (hu : Attended P w u) (r : ℕ) : Attended P w (dropHead .store r u) := by
  unfold dropHead
  split
  · exact hu
  next x hx =>
    split
    next e rest hq => exact settleHold_attended (dropReference_attended (modCtx_attended hu r (fun y => y.setQueue .store rest) fun _ _ => .of rfl rfl rfl) _) r
    next => exact hu

theorem serveMark_attended {w u : Chip} (hu : Attended P w u) (r : Nat) (f : Mark → Mark) : Attended P w (serveMark .store r f u) := by
  unfold serveMark
  split
  · exact hu
  next x hx =>
    split
    next m rest hq =>
      have hserved := modCtx_attended hu r (leaveMark .store (f m) rest) fun y _ => ⟨rfl, putMark_grows _ _, putMark_grows _ _⟩
      refine settleHold_attended ?_ _
      split
      · exact hserved
      · have hy : ctxOf (queueEvent (.pageDone r (f m).lines (f m).repaired (f m).truncated (f m).isPartial (f m).pageId)
            (modCtx r (leaveMark .store (f m) rest) u)) r = some (leaveMark .store (f m) rest x) := by
          rw [ctxOf_queueEvent, ctxOf_modCtx_self, hx]
          rfl
        exact setRoute_attended (queueEvent_attended hserved _) r _ hy hy .rfl
    next => exact hu

theorem stopFor_body (cause : StopCause) (ch : Channel) : Channel.body (ch.stopFor cause) = Channel.body ch := by
  unfold Channel.stopFor
  split
  · split <;> rfl
  · split <;> rfl
  · rfl

theorem stopScan_attended {w u : Chip} (hu : Attended P w u) (cause : StopCause) : Attended P w (stopScan cause u) :=
  Attended.update hu rfl (stopFor_body cause u.scanCh)

theorem endScanSource_attended {w u : Chip} (hu : Attended P w u) : Attended P w (endScanSource u) := by
  unfold endScanSource
  repeat' first
    | with_reducible assumption
    | with_reducible apply dropLamp_attended
    | (extract_lets +onlyGivenNames v; subst v)
    | with_reducible refine Attended.update ?_

theorem dropWaitingStart_attended {w u : Chip} (hu : Attended P w u) : Attended P w (dropWaitingStart u) := by
  unfold dropWaitingStart returnReservations
  repeat' first
    | with_reducible assumption
    | with_reducible apply returnSlots_attended
    | with_reducible refine modCtx_attended ?_ _ _ (fun x _ => .of rfl rfl rfl)
    | split

theorem closeScanSource_attended {w u : Chip} (hu : Attended P w u) : Attended P w (closeScanSource u) := by
  unfold closeScanSource
  repeat' first
    | with_reducible assumption
    | with_reducible apply endScanSource_attended
    | with_reducible apply dropWaitingStart_attended
    | with_reducible apply stopScan_attended
    | split

theorem requestClose_attended {w u : Chip} (hu : Attended P w u) (r : ℕ) : Attended P w (requestClose r u) := by
  unfold requestClose
  repeat' first
    | with_reducible assumption
    | with_reducible refine modCtx_attended ?_ _ _ (fun x _ => by first | exact push_stays _ _ | exact .of rfl rfl rfl)
    | with_reducible apply closeScanSource_attended
    | with_reducible apply pageEnd_attended
    | (extract_lets +onlyGivenNames v; refine (fun _ : Attended P w v => ?_) ?_; rotate_left; subst v; rotate_left; clear_value v)
    | split

theorem setWork_attended {w u : Chip} (hu : Attended P w u) (x : Option Work) : Attended P w (setWork x u) := by
  unfold setWork
  repeat' first
    | with_reducible assumption
    | (extract_lets +onlyGivenNames v; subst v)
    | with_reducible refine Attended.update ?_

theorem createPage_attended {w u : Chip} (hu : Attended P w u) (r : ℕ) (start : Option ℕ) : Attended P w (createPage r start u) := by
  unfold createPage
  repeat' first
    | with_reducible assumption
    | with_reducible refine modCtx_attended ?_ _ _ (fun x _ => by first | exact push_stays _ _ | exact .of rfl rfl rfl)
    | (extract_lets +onlyGivenNames v; subst v)
    | split
    | with_reducible refine Attended.update ?_

theorem forgetPage_attended {w u : Chip} (hu : Attended P w u) (id : Nat) : Attended P w (forgetPage id u) := by
  have hroute (r : Nat) : ctxOf (forgetPage id u) r = ctxOf u r ∨ ∃ x y, ctxOf u r = some x ∧ ctxOf (forgetPage id u) r = some y ∧ Stays x y := by
    unfold ctxOf
    rw [getRoute_forgetPage]
    split
    next x hx =>
      split
      · exact .inr ⟨x, _, hx, rfl, .rfl⟩
      · exact .inl rfl
    · exact .inl rfl
  refine hu.lined ⟨u.pool, _, u.link.reports, u.link.eventsLost, u.link.atnLeft, rfl⟩ (fun r => ?_) fun r hs hn => ?_
  · rcases hroute r with h | ⟨x, y, hx, hy, h⟩
    · exact .of_eq h
    · rw [hx, hy]
      exact .stays h
  · rcases hroute r with h | ⟨x, y, hx, hy, h⟩
    · exact absurd (h.symm.trans hn) hs
    · rw [hy] at hn
      cases hn

theorem endPage_attended {w u : Chip} (hu : Attended P w u) (route : Option ℕ) (truncated : Bool) (mark : Option Mark) (id : ℕ) : Attended P w (endPage route truncated mark id u) := by
  unfold endPage
  repeat' first
    | with_reducible assumption
    | with_reducible apply forgetPage_attended
    | with_reducible apply setWork_attended
    | with_reducible apply askProgram_attended
    | with_reducible apply setBlockState_attended
    | with_reducible apply retireBlocks_attended
    | with_reducible apply removePage_attended
    | split

theorem meetFull_attended {w u : Chip} (hu : Attended P w u) (r : ℕ) (cause : FullCause) : Attended P w (meetFull r cause u) := by
  unfold meetFull
  repeat' first
    | with_reducible assumption
    | with_reducible apply queueEvent_attended
    | with_reducible apply dropStall_attended
    | with_reducible refine modCtx_attended ?_ _ _ (fun x _ => by first | exact push_stays _ _ | exact .of rfl rfl rfl)
    | with_reducible apply endPage_attended
    | with_reducible apply setWork_attended
    | with_reducible apply requestClose_attended
    | with_reducible apply dropHead_attended
    | (extract_lets +onlyGivenNames v; subst v)
    | split
    | with_reducible refine Attended.update ?_

theorem claimBlock_attended {w u c : Chip} {id seq n : Nat} {reloc : Bool} (hu : Attended P w u)
    (e : claimBlock id seq reloc u = some (n, c)) : Attended P w c := by
  unfold claimBlock at e
  split at e
  · cases e
  · simp only [Option.some.injEq, Prod.mk.injEq] at e
    obtain ⟨-, rfl⟩ := e
    repeat' first
      | with_reducible assumption
      | with_reducible apply askProgram_attended
      | with_reducible apply modPage_attended
      | with_reducible apply modBlock_attended
      | split
      | with_reducible refine Attended.update ?_

theorem tryClaim_attended {w u : Chip} (hu : Attended P w u) (r : ℕ) : Attended P w (tryClaim r u) := by
  unfold tryClaim
  repeat' first
    | with_reducible assumption
    | with_reducible refine claimBlock_attended ?_ ‹_›
    | with_reducible apply meetFull_attended
    | with_reducible apply dropStall_attended
    | with_reducible apply setWork_attended
    | with_reducible apply askProgram_attended
    | with_reducible apply addStall_attended
    | with_reducible apply queueEvent_attended
    | (extract_lets +onlyGivenNames v; first | (refine (fun _ : Attended P w v => ?_) ?_; rotate_left; subst v; rotate_left; clear_value v) | subst v)
    | split
    | with_reducible refine Attended.update ?_

theorem placeWork_attended {w u : Chip} (hu : Attended P w u) (r : ℕ) (size : ℕ) : Attended P w (placeWork r size u) := by
  unfold placeWork
  repeat' first
    | with_reducible assumption
    | with_reducible apply tryClaim_attended
    | with_reducible apply askProgram_attended
    | with_reducible apply setBlockState_attended
    | split

theorem takeEntry_attended {w u : Chip} (hu : Attended P w u) (r : ℕ) : Attended P w (takeEntry r u) := by
  unfold takeEntry
  repeat' first
    | with_reducible assumption
    | with_reducible apply setWork_attended
    | with_reducible apply placeWork_attended
    | with_reducible apply createPage_attended
    | with_reducible apply meetFull_attended
    | with_reducible apply serveMark_attended
    | with_reducible apply endPage_attended
    | (extract_lets +onlyGivenNames v; first | (refine (fun _ : Attended P w v => ?_) ?_; rotate_left; subst v; rotate_left; clear_value v) | subst v)
    | split
    | with_reducible refine Attended.update ?_

theorem drainEntry_attended {w u : Chip} (hu : Attended P w u) (r : ℕ) : Attended P w (drainEntry r u) := by
  unfold drainEntry
  repeat' first
    | with_reducible assumption
    | with_reducible apply dropHead_attended
    | with_reducible apply serveMark_attended
    | with_reducible refine modCtx_attended ?_ _ _ (fun x _ => by first | exact push_stays _ _ | exact .of rfl rfl rfl)
    | (extract_lets +onlyGivenNames v; subst v)
    | split
    | with_reducible refine Attended.update ?_

theorem fillLane_attended {w u : Chip} (hu : Attended P w u) (r : ℕ) : Attended P w (fillLane r u) := by
  unfold fillLane
  repeat' first
    | with_reducible assumption
    | (extract_lets +onlyGivenNames v; subst v)
    | split
    | with_reducible refine Attended.update ?_

theorem storeLoop_attended {w u : Chip} (hu : Attended P w u) (r n : Nat) : Attended P w (storeLoop r n u) := by
  induction n generalizing u with
  | zero => exact hu
  | succ n ih =>
    unfold storeLoop
    repeat' first
      | with_reducible assumption
      | exact ih (drainEntry_attended hu _)
      | exact ih (takeEntry_attended hu _)
      | split

theorem storePump_attended {w u : Chip} (hu : Attended P w u) (r : ℕ) : Attended P w (storePump r u) := by
  unfold storePump
  repeat' first
    | with_reducible assumption
    | with_reducible apply fillLane_attended
    | with_reducible apply storeLoop_attended
    | split

theorem linkPump_attended {w u : Chip} (hu : Attended P w u) : Attended P w (linkPump u) := by
  unfold linkPump
  repeat' first
    | with_reducible assumption
    | with_reducible apply recordReady_attended
    | with_reducible apply pageEnd_attended
    | (extract_lets +onlyGivenNames v; subst v)
    | split
    | with_reducible refine Attended.update ?_

theorem syncMotor_attended {w u : Chip} (hu : Attended P w u) : Attended P w (syncMotor u) := by
  unfold syncMotor
  repeat' first
    | with_reducible assumption
    | (extract_lets +onlyGivenNames v; subst v)
    | split
    | with_reducible refine Attended.update ?_

theorem releaseScan_attended {w u : Chip} (hu : Attended P w u) (hidle : u.scan.capture = none) : Attended P w (releaseScan u) := by
  unfold releaseScan
  refine (dropLamp_attended hu).trans ?_
  have hnone : (dropLamp u).scan.capture = none := (dropLamp_attended (Attended.rfl (P := P) (c := u))).capture.trans hidle
  exact ⟨rfl, rfl, rfl, hnone.symm, rfl, ⟨rfl, rfl⟩, ⟨rfl, rfl, rfl, rfl⟩, fun _ => .rfl, fun _ h k => absurd k h, fun _ => ⟨rfl, rfl⟩⟩

/-- The release of PRINT leaves the engine but for the head and what its route gave the channel. -/
theorem releasePrint_rest (c : Chip) : (releasePrint c).pins = c.pins ∧ (releasePrint c).runOut = c.runOut ∧
    (releasePrint c).linkIn = c.linkIn ∧ (releasePrint c).scan = c.scan ∧ (releasePrint c).scanCh = c.scanCh ∧
    (releasePrint c).printCh = c.printCh.release ∧ (releasePrint c).head.cut = c.head.cut ∧
    (releasePrint c).head.cutTime = c.head.cutTime ∧ (releasePrint c).head.heatReported = c.head.heatReported ∧
    (releasePrint c).head.band = c.head.band ∧ (releasePrint c).routes = c.routes := by
  unfold releasePrint releaseHead dropHeadUse headContentLost
  dsimp only
  split
  · split <;> simp only [and_self]
  · simp only [and_self]

/-- A route that prints closes: PRINT may be released. -/
theorem releasePrint_attended {w u : Chip} (hu : Attended P w u) {r : Nat} {x : Ctx} (hx : ctxOf w r = some x) (hs : Sink.print ∈ x.sinks)
    (hclosed : ctxOf u r = none) : Attended P w (releasePrint u) := by
  obtain ⟨hpins, hrun, hin, hscan, hscanCh, hprint, hcut, htime, hheat, hband, hroutes⟩ := releasePrint_rest u
  obtain ⟨ucut, utime, uheat, uband⟩ := hu.cut
  refine ⟨hpins.trans hu.pins, hrun.trans hu.runOut, hin.trans hu.linkIn, (congrArg Capture.capture hscan).trans hu.capture,
    (congrArg Channel.body hscanCh).trans hu.scanCh, ⟨?_, ?_⟩, ⟨hcut.trans ucut, htime.trans utime, hheat.trans uheat, hband.trans uband⟩,
    fun n => ?_, fun n hs hn => ?_, fun hopen => ?_⟩
  · rw [hprint]
    exact hu.printCh.1
  · rw [hprint]
    exact hu.printCh.2
  · rw [ctxOf_congr hroutes]
    exact hu.routes n
  · exact hu.closers n hs ((ctxOf_congr hroutes n).symm.trans hn)
  · exact absurd ((ctxOf_congr hroutes r).trans hclosed) (hopen r x hx hs)

/-- An empty route closes (R13). -/
theorem closeRoute_attended {w u : Chip} (hu : Attended P w u) {r : Nat} {x : Ctx} (hx : ctxOf u r = some x) (hhalt : x.halt = none)
    (hempty : routeEmpty r x u = true) (hP : P r) (cause : CloseCause) : Attended P w (closeRoute r cause u) := by
  refine hu.trans ?_
  unfold routeEmpty sourceIdle at hempty
  simp only [Bool.and_eq_true, List.isEmpty_iff] at hempty
  obtain ⟨⟨⟨⟨⟨hprint, hlink⟩, -⟩, -⟩, -⟩, hidle⟩ := hempty
  unfold closeRoute
  rw [hx]
  dsimp only
  have hgone : ctxOf (setRoute r { getRoute u r with ctx := none } u) r = none :=
    congrArg Route.ctx (getRoute_setRoute_self (lt_of_ctxOf hx) _)
  have hset : Attended P u (setRoute r { getRoute u r with ctx := none } u) := by
    refine Attended.rfl.lined (setRoute_lined r _ u) (fun n => ?_) fun n hs hn => ?_
    · by_cases hn : n = r
      · subst hn
        rw [hx, hgone]
        exact .closes hprint hlink hhalt
      · rw [ctxOf_setRoute_ne hn]
        exact .rfl
    · by_cases k : n = r
      · exact k ▸ hP
      · rw [ctxOf_setRoute_ne k] at hn
        exact absurd hn hs
  generalize setRoute r { getRoute u r with ctx := none } u = v at hgone hset
  have hscan : Attended P u (if x.source = .scan then releaseScan v else v) ∧ ctxOf (if x.source = .scan then releaseScan v else v) r = none := by
    split
    next hsrc =>
      rw [hsrc] at hidle
      simp only [Bool.and_eq_true, Option.isNone_iff_eq_none] at hidle
      refine ⟨releaseScan_attended hset (hset.capture.trans hidle.1.2), ?_⟩
      rw [ctxOf_congr (c := v) (by simp [releaseScan, dropLamp]; split <;> rfl)]
      exact hgone
    · exact ⟨hset, hgone⟩
  generalize (if x.source = .scan then releaseScan v else v) = v' at hscan
  obtain ⟨hscan, hnone⟩ := hscan
  refine queueEvent_attended ?_ _
  split
  next hs => exact releasePrint_attended hscan hx (List.contains_iff_mem.mp hs) hnone
  · exact hscan

theorem closeIfEmpty_attended {w u : Chip} (hu : Attended P w u) {r : ℕ} (hP : P r) : Attended P w (closeIfEmpty r u) := by
  unfold closeIfEmpty
  split
  · exact hu
  next x hx =>
    split
    next h =>
      simp only [Bool.and_eq_true, Option.isNone_iff_eq_none] at h
      exact closeRoute_attended hu hx h.1.2 h.2 hP _
    · exact hu

theorem pump_attended {w u : Chip} (hu : Attended P w u) {r : ℕ} (hP : P r) : Attended P w (pump r u) :=
  closeIfEmpty_attended (refreshLoad_attended (linkPump_attended (storePump_attended hu r))) hP

theorem settle_attended {w u : Chip} (hu : Attended P w u) {r : ℕ} (hP : P r) : Attended P w (settle r u) :=
  syncMotor_attended (pump_attended hu hP)

theorem settleAll_attended {w u : Chip} (hu : Attended P w u) (hP : ∀ r, P r) : Attended P w (settleAll u) :=
  syncMotor_attended (Attended.fold hu fun _ r h => pump_attended h (hP r))

end

end Sys2Proof.Proofs
end

section
/-!
PROOFS. The print head and the cutter (04_print_path.md R72 to R80): loads, strobes, burns, cuts and the marks they serve; and what follows at
once of a route without a STORE sink.
-/

-- One declaration after another: the package as one text keeps within the check's limit on threads.
set_option Elab.async false

namespace Sys2Proof.Proofs

open Sys2Proof Sys2Proof.Machine

/-! ## What follows at once of a route without a STORE sink -/

/-- The part `t` is the part `c` but that route `r` may have closed, records may have joined the queue, and the engine and the Line Coder's way
out may have gone on. -/
structure Beside (r : Nat) (c t : Chip) : Prop where
  routes : ∀ n, getRoute t n = getRoute c n ∨ n = r ∧ getRoute t n = { getRoute c n with ctx := none }
  reports : ∃ more, t.link.reports = c.link.reports ++ more
  pool : t.pool = c.pool
  store : t.store = c.store

theorem Beside.trans {r : Nat} {a b c : Chip} (h : Beside r a b) (k : Beside r b c) : Beside r a c := by
  obtain ⟨first, hfirst⟩ := h.reports
  obtain ⟨more, hmore⟩ := k.reports
  refine ⟨fun n => ?_, ⟨first ++ more, by rw [hmore, hfirst, List.append_assoc]⟩, k.pool.trans h.pool, k.store.trans h.store⟩
  rcases h.routes n with hn | ⟨hn, hr⟩
  · rw [← hn]
    exact k.routes n
  · rcases k.routes n with kn | ⟨-, kr⟩
    · exact .inr ⟨hn, kn.trans hr⟩
    · exact .inr ⟨hn, kr.trans (by rw [hr])⟩

theorem Beside.of {r : Nat} {c t : Chip} (hroutes : t.routes = c.routes) (hreports : t.link.reports = c.link.reports) (hpool : t.pool = c.pool)
    (hstore : t.store = c.store) : Beside r c t :=
  ⟨fun n => .inl (getRoute_congr hroutes n), ⟨[], by rw [hreports, List.append_nil]⟩, hpool, hstore⟩

theorem linkPump_parts (c : Chip) : (linkPump c).routes = c.routes ∧ (linkPump c).link.reports = c.link.reports ∧
    (linkPump c).pool = c.pool ∧ (linkPump c).store = c.store := by
  unfold linkPump
  split
  · split
    · simp only [and_self]
    · split
      · dsimp only
        split <;> simp
      · simp
      · simp only [and_self]
  · simp only [and_self]

theorem closeRoute_beside (r : Nat) (cause : CloseCause) (c : Chip) : Beside r c (closeRoute r cause c) := by
  unfold closeRoute
  split
  · exact .of rfl rfl rfl rfl
  next x hx =>
    dsimp only
    have hset : Beside r c (setRoute r { getRoute c r with ctx := none } c) := by
      refine ⟨fun n => ?_, ⟨[], by simp⟩, rfl, rfl⟩
      by_cases hn : n = r
      · subst hn
        exact .inr ⟨rfl, getRoute_setRoute_self (lt_of_ctxOf hx) _⟩
      · exact .inl (getRoute_setRoute_ne hn _ _)
    generalize setRoute r { getRoute c r with ctx := none } c = v at hset ⊢
    have hscan : Beside r c (if x.source = .scan then releaseScan v else v) := by
      split
      · refine hset.trans ?_
        unfold releaseScan dropLamp
        split <;> exact .of rfl rfl rfl rfl
      · exact hset
    generalize (if x.source = .scan then releaseScan v else v) = v at hscan ⊢
    have hprint : Beside r c (if x.sinks.contains .print then releasePrint v else v) := by
      split
      · refine hscan.trans ?_
        unfold releasePrint releaseHead dropHeadUse headContentLost
        dsimp only
        split
        · split <;> exact .of rfl rfl rfl rfl
        · exact .of rfl rfl rfl rfl
      · exact hscan
    generalize (if x.sinks.contains .print then releasePrint v else v) = v at hprint ⊢
    refine hprint.trans ⟨fun n => .inl ?_, queueEvent_reports_prefix _ v, by simp, by simp⟩
    exact getRoute_congr (queueEvent_routes (e := .routeClosed r cause) (fun _ _ h => nomatch h) (fun h => nomatch h) v) n

theorem closeIfEmpty_beside (r : Nat) (c : Chip) : Beside r c (closeIfEmpty r c) := by
  unfold closeIfEmpty
  split
  · exact .of rfl rfl rfl rfl
  · split
    · exact closeRoute_beside r _ c
    · exact .of rfl rfl rfl rfl

theorem refreshLoad_beside (r : Nat) (c : Chip) : Beside r c (refreshLoad c) := by
  obtain ⟨_, _, h⟩ := refreshLoad_eq c
  rw [h]
  exact .of rfl rfl rfl rfl

/-- A route's store sink does nothing where it has none. -/
theorem storePump_storeless {r : Nat} {c : Chip} (h : ∀ x, ctxOf c r = some x → Sink.store ∉ x.sinks) : storePump r c = c := by
  unfold storePump
  split
  · rfl
  next x hx => exact if_neg (mt List.contains_iff_mem.mp (h x hx))

theorem settle_storeless {r : Nat} {c : Chip} (h : ∀ x, ctxOf c r = some x → Sink.store ∉ x.sinks) : Beside r c (settle r c) := by
  obtain ⟨hroutes, hreports, hpool, hstore⟩ := linkPump_parts c
  have hpump : Beside r c (pump r c) := by
    unfold pump
    rw [storePump_storeless h]
    exact (Beside.of hroutes hreports hpool hstore).trans ((refreshLoad_beside r _).trans (closeIfEmpty_beside r _))
  exact hpump.trans (.of rfl rfl rfl rfl)

theorem Beside.ctx {r n : Nat} {c t : Chip} (h : Beside r c t) {y : Ctx} (hy : ctxOf t n = some y) : ctxOf c n = some y := by
  rcases h.routes n with hn | ⟨-, hn⟩
  · exact (congrArg Route.ctx hn).symm.trans hy
  · rw [ctxOf, hn] at hy
    cases hy

theorem Beside.pagesDone {r : Nat} {c t : Chip} (h : Beside r c t) (n : Nat) : (getRoute t n).pagesDone = (getRoute c n).pagesDone := by
  rcases h.routes n with hn | ⟨-, hn⟩ <;> rw [hn]

/-! ## Loads, strobes and the cutter's pulse -/

theorem exec_headLoadEnd (s : State) : exec .headLoadEnd s = .next (s.onChip loadEndChip) := rfl

theorem exec_strobeEnd (s : State) : exec .strobeEnd s = .next (s.onChip strobeEndChip) := rfl

theorem exec_cutterPulseEnd (s : State) : exec .cutterPulseEnd s = .next (s.onChip cutPulseChip) := rfl

theorem exec_cutJudgement (papx : Bool) (s : State) : exec (.cutJudgement papx) s = .next (s.onChip (cutJudgeChip papx)) := rfl

theorem exec_channelStart (ch : ChannelId) (therm : Byte) (s : State) :
    exec (.channelStart ch therm) s = .next (s.onChip (startChip ch therm)) := rfl

theorem loadEndChip_loading {e : LineEntry} {c : Chip} (h : c.head.shift = .loading e) :
    loadEndChip c = syncMotor { c with head := { c.head with shift := .loaded e, loadLeft := 0 } } := by
  unfold loadEndChip
  rw [h]

/-! ## The judgement of a cut (R80) -/

theorem cutJudgeChip_clear {r : Nat} {c : Chip} (hcut : c.head.cut = .judging) (hr : c.head.route = some r) :
    cutJudgeChip false c = settle r (servePrintMark r (endCut { c with pins := { c.pins with papx := false } })) := by
  unfold cutJudgeChip
  dsimp only
  rw [hcut, hr]
  rfl

theorem cutJudgeChip_covered {r : Nat} {c : Chip} (hcut : c.head.cut = .judging) (hr : c.head.route = some r) :
    cutJudgeChip true c = cutFailed r { c with pins := { c.pins with papx := true } } := by
  unfold cutJudgeChip
  dsimp only
  rw [hcut, hr]
  rfl

/-- The part at a cut that is clear: no cut, and the heat and rate reports of the page ended (R80). -/
def cutCleared (c : Chip) : Chip :=
  { c with head := { c.head with cut := .none, cutTime := none, heatReported := false }, printCh := { c.printCh with rateReported := false } }

theorem servePrintMark_endCut (r : Nat) (c : Chip) : servePrintMark r (endCut c) = refreshLoad (serveMark .print r id (cutCleared c)) := rfl

/-- The mark of a route whose only sink is PRINT, served with nothing in its hold. -/
theorem serveMark_alone {k : Sink} {r : Nat} {x : Ctx} {m : Mark} {rest : List Entry} {c : Chip} (h : ctxOf c r = some x)
    (hq : x.queue k = .mark m :: rest) (hsinks : x.sinks = [k]) (hhold : x.hold = []) :
    serveMark k r id c = modCtx r (fun y => { y with hold := [] }) (pageDone r m (modCtx r (leaveMark k m rest) c)) := by
  have halone : ((x.sinks.filter (· ≠ k)).any fun j => hasMark m.tag (x.queue j)) = false := by
    rw [hsinks]
    simp
  rw [serveMark_of_mark h hq, if_neg (by rw [halone]; exact Bool.false_ne_true)]
  have hleft : ctxOf (modCtx r (leaveMark k m rest) c) r = some (leaveMark k m rest x) := by
    rw [ctxOf_modCtx_self, h]
    rfl
  have hdone : ctxOf (pageDone r m (modCtx r (leaveMark k m rest) c)) r = some (leaveMark k m rest x) := by
    have htold : ctxOf (queueEvent (.pageDone r m.lines m.repaired m.truncated m.isPartial m.pageId) (modCtx r (leaveMark k m rest) c)) r =
        some (leaveMark k m rest x) := by
      rw [ctxOf_queueEvent]
      exact hleft
    exact (congrArg Route.ctx (getRoute_setRoute_self (lt_of_ctxOf htold) _)).trans htold
  have hnone : (leaveMark k m rest x).hold = [] := by
    unfold leaveMark
    cases k <;> exact hhold
  unfold settleHold
  rw [show id m = m from rfl, hdone]
  dsimp only
  rw [hnone]
  rfl

theorem pageDone_reports {r : Nat} {m : Mark} {c : Chip} (h : 256 ≤ freeBytes c) : (pageDone r m c).link.reports =
    c.link.reports ++ [.event (.pageDone r m.lines m.repaired m.truncated m.isPartial m.pageId)] := queueEvent_reports_of_room h

/-- A mark served by PRINT alone: the entries behind it, one page more, and PAGE DONE. -/
theorem cutServed_alone {r : Nat} {x : Ctx} {m : Mark} {rest : List Entry} {c : Chip} (h : ctxOf c r = some x)
    (hq : x.printQ = .mark m :: rest) (hsinks : x.sinks = [.print]) (hhold : x.hold = []) :
    let t := servePrintMark r (endCut c)
    (∀ y, ctxOf t r = some y → y.printQ = putMark m rest ∧ Sink.store ∉ y.sinks) ∧
      (getRoute t r).pagesDone = min 65535 ((getRoute c r).pagesDone + 1) ∧
      (256 ≤ freeBytes c →
        t.link.reports = c.link.reports ++ [.event (.pageDone r m.lines m.repaired m.truncated m.isPartial m.pageId)]) := by
  intro t
  have hcleared : ctxOf (cutCleared c) r = some x := h
  obtain ⟨shift, left, hload⟩ := refreshLoad_eq (serveMark .print r id (cutCleared c))
  have hserved := serveMark_alone (k := .print) hcleared hq hsinks hhold
  have hleft : ctxOf (modCtx r (leaveMark .print m rest) (cutCleared c)) r = some (leaveMark .print m rest x) := by
    rw [ctxOf_modCtx_self, hcleared]
    rfl
  have htold : ctxOf (queueEvent (.pageDone r m.lines m.repaired m.truncated m.isPartial m.pageId)
      (modCtx r (leaveMark .print m rest) (cutCleared c))) r = some (leaveMark .print m rest x) := by
    rw [ctxOf_queueEvent]
    exact hleft
  have hdone : getRoute (pageDone r m (modCtx r (leaveMark .print m rest) (cutCleared c))) r = _ :=
    getRoute_setRoute_self (lt_of_ctxOf htold) _
  have hpages : (getRoute (queueEvent (.pageDone r m.lines m.repaired m.truncated m.isPartial m.pageId)
      (modCtx r (leaveMark .print m rest) (cutCleared c))) r).pagesDone = (getRoute c r).pagesDone := by
    have hsame := queueEvent_routes (e := .pageDone r m.lines m.repaired m.truncated m.isPartial m.pageId) (fun _ _ k => nomatch k)
      (fun k => nomatch k) (modCtx r (leaveMark .print m rest) (cutCleared c))
    rw [getRoute_congr hsame, getRoute_modCtx_self hcleared]
    rfl
  have hctx : ctxOf (pageDone r m (modCtx r (leaveMark .print m rest) (cutCleared c))) r = some (leaveMark .print m rest x) :=
    (congrArg Route.ctx hdone).trans htold
  have ht : t = { serveMark .print r id (cutCleared c) with head := t.head } := by
    unfold t
    rw [servePrintMark_endCut, hload]
  refine ⟨fun y hy => ?_, ?_, fun hroom => ?_⟩
  · rw [ht] at hy
    have hy' : ctxOf (serveMark .print r id (cutCleared c)) r = some y := hy
    rw [hserved, ctxOf_modCtx_self, hctx] at hy'
    cases hy'
    refine ⟨rfl, ?_⟩
    show Sink.store ∉ x.sinks
    rw [hsinks]
    decide
  · rw [ht]
    show (getRoute (serveMark .print r id (cutCleared c)) r).pagesDone = _
    rw [hserved, getRoute_modCtx_self hctx, hdone]
    dsimp only
    rw [hpages]
  · rw [ht]
    show (serveMark .print r id (cutCleared c)).link.reports = _
    rw [hserved]
    have hfree : freeBytes (modCtx r (leaveMark .print m rest) (cutCleared c)) = freeBytes c := by
      simp [freeBytes, usedBytes, cutCleared]
    have hqueued := pageDone_reports (r := r) (m := m) (c := modCtx r (leaveMark .print m rest) (cutCleared c)) (by rw [hfree]; exact hroom)
    simp only [modCtx_frame] at hqueued ⊢
    exact hqueued

theorem servePrintMark_head (r : Nat) (c : Chip) : (servePrintMark r (endCut c)).head.cut = .none ∧
    (servePrintMark r (endCut c)).head.heatReported = false ∧ (servePrintMark r (endCut c)).printCh.rateReported = false ∧
    (servePrintMark r (endCut c)).pins = c.pins := by
  obtain ⟨shift, left, hload⟩ := refreshLoad_eq (serveMark .print r id (cutCleared c))
  rw [servePrintMark_endCut, hload]
  simp [cutCleared]

/-! ## A failed cut (R80) -/

theorem haltRoute_of_some {r : Nat} {x : Ctx} {c : Chip} (h : ctxOf c r = some x) (a : Halt) : haltRoute r a c =
    setRoute r { getRoute c r with ctx := some { x with halt := some a }, haltReported := (getRoute c r).haltReported && !haltAnew x a } c := by
  unfold haltRoute
  rw [h]

theorem stopScanFor_eq (r : Nat) (c : Chip) : ∃ scanCh, stopScanFor r c = { c with scanCh := scanCh } := by
  unfold stopScanFor
  split <;> exact ⟨_, rfl⟩

/-- The part with the mark left waiting. -/
def cutWaits (c : Chip) : Chip := { c with head := { c.head with cut := .waiting, cutTime := none } }

theorem cutFailed_eq (r : Nat) (c : Chip) :
    cutFailed r c = syncMotor (stopScanFor r (queueEvent (.jam .print r) (haltRoute r .jam (cutWaits c)))) := rfl

/-- A covered exit halts the route, and its halt is told anew where no room is (R65, R181). -/
theorem cutFailed_route {r : Nat} {x : Ctx} {c : Chip} (h : ctxOf c r = some x) :
    ctxOf (cutFailed r c) r = some { x with halt := some .jam } ∧
    (freeBytes c < 256 → (getRoute (cutFailed r c) r).haltReported = ((getRoute c r).haltReported && decide (x.halt = some .jam))) := by
  have hanew : (!haltAnew x .jam) = decide (x.halt = some .jam) := by
    unfold haltAnew
    by_cases k : x.halt = some .jam <;> simp [k]
  have hd : ctxOf (cutWaits c) r = some x := h
  obtain ⟨scanCh, hstop⟩ := stopScanFor_eq r (queueEvent (.jam .print r) (haltRoute r .jam (cutWaits c)))
  have hroutes : (cutFailed r c).routes = (queueEvent (.jam .print r) (haltRoute r .jam (cutWaits c))).routes := by
    rw [cutFailed_eq, hstop]
    simp
  have hself := getRoute_setRoute_self (lt_of_ctxOf hd) { getRoute c r with
    ctx := some { x with halt := some .jam }, haltReported := (getRoute c r).haltReported && !haltAnew x .jam }
  refine ⟨?_, fun hfull => ?_⟩
  · rw [ctxOf_congr hroutes, ctxOf_queueEvent, haltRoute_of_some hd]
    exact congrArg Route.ctx hself
  · rw [getRoute_congr hroutes, queueEvent_of_full (by rw [haltRoute_of_some hd]; exact hfull), haltRoute_of_some hd]
    refine (congrArg Route.haltReported hself).trans ?_
    rw [← hanew]

theorem cutFailed_rest (r : Nat) (c : Chip) : (cutFailed r c).head.cut = .waiting ∧ (cutFailed r c).pins = c.pins ∧
    (cutFailed r c).pool = c.pool := by
  obtain ⟨scanCh, hstop⟩ := stopScanFor_eq r (queueEvent (.jam .print r) (haltRoute r .jam (cutWaits c)))
  rw [cutFailed_eq, hstop]
  simp [cutWaits]

/-! ## A burn (R74 to R77) -/

theorem nextStrobe_nil {h : Head} (hg : h.groups = []) : nextStrobe h = { h with strobe := none } := by
  unfold nextStrobe
  rw [hg]

theorem nextStrobe_cons {h : Head} {g time : Nat} {gs : List Nat} (hg : h.groups = g :: gs) (ht : h.strobeTime = some time) :
    nextStrobe h = { h with strobe := some (g, time), groups := gs } := by
  unfold nextStrobe
  rw [hg, ht]
  rfl

theorem nextStrobe_strobes (h : Head) (time : Nat) (ht : h.strobeTime = some time) :
    (match (nextStrobe h).strobe with | some y => [y.1] | none => []) ++ (nextStrobe h).groups = h.groups ∧
    ∀ y, (nextStrobe h).strobe = some y → y.2 = time := by
  cases hg : h.groups with
  | nil =>
    rw [nextStrobe_nil hg]
    exact ⟨hg, nofun⟩
  | cons g gs =>
    rw [nextStrobe_cons hg ht]
    refine ⟨rfl, fun y hy => ?_⟩
    cases hy
    rfl

theorem nextStrobe_rest (h : Head) : (nextStrobe h).latch = h.latch ∧ (nextStrobe h).burns = h.burns ∧ (nextStrobe h).band = h.band ∧
    (nextStrobe h).strobeTime = h.strobeTime ∧ (nextStrobe h).route = h.route := by
  unfold nextStrobe
  split <;> simp only [and_self]

theorem mem_blackGroups (l : Line) (g : Nat) :
    g ∈ blackGroups l ↔ g < 4 ∧ ∃ d, 432 * g ≤ d ∧ d < 432 * g + 432 ∧ l.getD d false = true := by
  unfold blackGroups
  rw [List.mem_filter, List.mem_range, List.any_eq_true]
  refine and_congr_right fun _ => ⟨?_, ?_⟩
  · rintro ⟨dot, hin, hblack⟩
    obtain ⟨i, hi, rfl⟩ := List.mem_iff_getElem.mp hin
    simp only [List.length_take, List.length_drop] at hi
    refine ⟨432 * g + i, by omega, by omega, ?_⟩
    rw [List.getElem_take, List.getElem_drop] at hblack
    rw [List.getD_eq_getElem _ _ (by omega)]
    exact hblack
  · rintro ⟨d, hlow, hhigh, hblack⟩
    have hlt : d < l.length := by
      by_contra k
      rw [List.getD_eq_default _ _ (Nat.le_of_not_lt k)] at hblack
      cases hblack
    rw [List.getD_eq_getElem _ _ hlt] at hblack
    refine ⟨l[d], List.mem_iff_getElem.mpr ⟨d - 432 * g, by simp only [List.length_take, List.length_drop]; omega, ?_⟩, hblack⟩
    rw [List.getElem_take, List.getElem_drop]
    congr 1
    omega

theorem of_blackGroups {l : Line} {gs : List Nat} (h : gs = blackGroups l) : gs.Sublist [0, 1, 2, 3] ∧
    ∀ g, g < 4 → (g ∈ gs ↔ ∃ d, 432 * g ≤ d ∧ d < 432 * g + 432 ∧ l.getD d false = true) := by
  subst h
  exact ⟨List.filter_sublist, fun g hg => (mem_blackGroups l g).trans (and_iff_right hg)⟩

theorem lineOf_held {c : Chip} {n r refs : Nat} {l : Line} (h : slotAt c n = .held r refs l) : lineOf c n = l := by
  unfold lineOf
  rw [h]

/-- The head at the begin of a burn, its temperature band and strobe time set and no group strobed yet. -/
def burnHead (therm : Byte) (e : LineEntry) (k : HeadCopy) (c : Chip) (told : Bool) : Head :=
  let band := bandOf c.heat therm.toNat
  { c.head with
    latch := some e, shift := .empty, loadLeft := 0, burns := c.head.burns + 1, band := band, heatReported := told
    strobeTime := some (min (strobeDemand c.heat band k.density) (strobeCap k.period)), groups := blackGroups (lineOf c e.slot) }

theorem beginBurn_line {e : LineEntry} {rest : List Entry} {k : HeadCopy} {c : Chip} (hline : headEntries c = .line e :: rest)
    (hcopy : c.head.copy = some k) (therm : Byte) : ∃ told link shift left, beginBurn therm c = { c with
      pins := { c.pins with therm := therm }, link := link
      head := { nextStrobe (burnHead therm e k c told) with shift := shift, loadLeft := left } } := by
  unfold beginBurn
  rw [hline, hcopy]
  dsimp only
  split
  · rw [queueEvent_of_plain (e := .heatLimited _) (fun _ _ h => nomatch h) (fun h => nomatch h)]
    obtain ⟨shift, left, h⟩ := refreshLoad_eq _
    rw [h]
    exact ⟨true, _, shift, left, rfl⟩
  · obtain ⟨shift, left, h⟩ := refreshLoad_eq _
    rw [h]
    exact ⟨_, _, shift, left, rfl⟩

/-! ## A start with a burn -/

theorem printDue_parts {c : Chip} (h : printDue c = true) : c.printCh.tail = none ∧ c.runOut = none ∧
    (∃ r x, c.head.route = some r ∧ ctxOf c r = some x ∧ x.printQ ≠ []) ∧ ∃ p, c.printCh.run = some p := by
  unfold printDue at h
  simp only [Bool.and_eq_true, Option.isNone_iff_eq_none] at h
  obtain ⟨⟨⟨⟨⟨⟨-, htail⟩, -⟩, hrun⟩, hroute⟩, -⟩, hpasses⟩ := h
  refine ⟨htail, hrun, ?_, ?_⟩
  · split at hroute
    next x hx =>
      obtain ⟨r, hr, hc⟩ := Option.bind_eq_some_iff.mp hx
      refine ⟨r, x, hr, hc, fun hnil => ?_⟩
      rw [hnil] at hroute
      simp at hroute
    · cases hroute
  · unfold printPasses at hpasses
    split at hpasses
    next p hp => exact ⟨p, hp⟩
    · cases hpasses

theorem begin_moves {ch : Channel} {p : RunParams} (hrun : ch.run = some p) (htail : ch.tail = none) :
    (ch.begin.motion = .accelerating ∨ ch.begin.motion = .running) ∧
    ch.begin.plan.motion = ch.begin.motion ∧ ch.begin.plan.drive = .full ∧ ch.begin.plan.k = 0 := by
  unfold Channel.begin
  rw [hrun]
  dsimp only
  by_cases hp : p.r = 0
  · rw [if_pos hp]
    unfold Channel.plan
    dsimp only
    rw [htail]
    exact ⟨.inr rfl, rfl, rfl, rfl⟩
  · rw [if_neg hp]
    unfold Channel.plan
    dsimp only
    rw [htail]
    exact ⟨.inl rfl, rfl, rfl, rfl⟩

theorem atHalt_eq_false {ch : Channel} (h : ch.motion = .accelerating ∨ ch.motion = .running) : ch.atHalt = false := by
  unfold Channel.atHalt
  refine decide_eq_false fun k => ?_
  rcases h with h | h <;> rw [h] at k <;> cases k.1

theorem printOnward_moving {c : Chip} (h : c.printCh.motion = .accelerating ∨ c.printCh.motion = .running)
    (hplan : c.printCh.plan.motion = c.printCh.motion) : printOnward c = { c with printCh := c.printCh.plan } := by
  unfold printOnward
  rw [atHalt_eq_false h]
  dsimp only
  rw [atHalt_eq_false (by rw [hplan]; exact h)]
  rfl

theorem settlePrint_route {r : Nat} {c : Chip} (h : c.head.route = some r) : settlePrint c = settle r (refreshLoad c) := by
  unfold settlePrint
  rw [h]

/-- A route with lines or marks to print stays open through what follows at once, and the head goes on with it. -/
theorem settle_prints {r : Nat} {x : Ctx} {c : Chip} (h : ctxOf c r = some x) (hq : x.printQ ≠ []) :
    Head.still (settle r c).head = Head.still c.head ∧ (settle r c).printCh = c.printCh := by
  have hsettle : Attended (· = r) c (settle r c) := settle_attended .rfl rfl
  have hopen : ctxOf (settle r c) r ≠ none := by
    intro hnone
    have hroute := hsettle.routes r
    rw [h, hnone] at hroute
    cases hroute with
    | closes hprint => exact hq hprint
  refine hsettle.prints fun n y hy _ hnone => ?_
  have hn : n = r := hsettle.closers n (by rw [hy]; exact nofun) hnone
  exact hopen (hn ▸ hnone)

theorem headEntries_congr {c t : Chip} (hrun : t.runOut = c.runOut) (hroute : t.head.route = c.head.route) (hroutes : t.routes = c.routes) :
    headEntries t = headEntries c := by
  unfold headEntries
  rw [hrun, hroute]
  simp only [ctxOf_congr hroutes]

/-- A start with a line at the head and the line position 0 begins its burn. -/
theorem printStart_burns {e : LineEntry} {rest : List Entry} {c : Chip} (therm : Byte) (hdue : printDue c = true)
    (hmotor : c.power.motor.isOn = true) (hpos : c.printCh.linePos = 0) (hline : headEntries c = .line e :: rest) :
    printStart therm c = settlePrint (printOnward (beginBurn therm { c with printCh := c.printCh.begin })) := by
  unfold printStart
  rw [hdue, hmotor, if_pos (by decide)]
  have hsame : headEntries { c with printCh := c.printCh.begin } = .line e :: rest := hline
  dsimp only
  rw [hsame]
  have hzero : c.printCh.begin.linePos = 0 := hpos
  dsimp only
  rw [if_pos hzero]

/-- The head and the inputs after a start that begins a burn. -/
theorem printStart_head {e : LineEntry} {rest : List Entry} {k : HeadCopy} {c : Chip} (therm : Byte) (hdue : printDue c = true)
    (hmotor : c.power.motor.isOn = true) (hpos : c.printCh.linePos = 0) (hline : headEntries c = .line e :: rest)
    (hcopy : c.head.copy = some k) : ∃ told, Head.still (printStart therm c).head = Head.still (nextStrobe (burnHead therm e k c told)) ∧
      (printStart therm c).pins = { c.pins with therm := therm } := by
  obtain ⟨htail, -, ⟨r, x, hroute, hx, hq⟩, p, hp⟩ := printDue_parts hdue
  obtain ⟨hmoves, hplan, -, -⟩ := begin_moves hp htail
  obtain ⟨told, link, shift, left, hburn⟩ := beginBurn_line (c := { c with printCh := c.printCh.begin }) hline hcopy therm
  have hchip := printStart_burns therm hdue hmotor hpos hline
  rw [hburn, printOnward_moving (by exact hmoves) (by exact hplan)] at hchip
  obtain ⟨-, -, -, -, hkept⟩ := nextStrobe_rest (burnHead therm e k { c with printCh := c.printCh.begin } told)
  have hserves : (nextStrobe (burnHead therm e k { c with printCh := c.printCh.begin } told)).route = some r := hkept.trans hroute
  rw [settlePrint_route (by exact hserves)] at hchip
  obtain ⟨shift', left', hload⟩ := refreshLoad_eq { c with
    pins := { c.pins with therm := therm }, link := link, printCh := c.printCh.begin.plan
    head := { nextStrobe (burnHead therm e k { c with printCh := c.printCh.begin } told) with shift := shift, loadLeft := left } }
  dsimp only at hchip
  rw [hload] at hchip
  refine ⟨told, ?_, ?_⟩
  · rw [hchip]
    exact (settle_prints (by exact hx) hq).1
  · rw [hchip]
    exact (settle_attended (P := (· = r)) .rfl rfl).pins

/-- Settles O53, by the shift register, strobe and cutter records, the mark served after a cut, and the burn that a start begins. -/
theorem headRunsItsBurnsAndCuts : Obligations.HeadRunsItsBurnsAndCuts := by
  unfold Obligations.HeadRunsItsBurnsAndCuts
  refine ⟨fun e s h => ?_, fun x s h => ⟨fun hg => ?_, fun g gs time hg ht => ?_⟩, fun s h => ?_, fun r s hcut hr => ⟨?_, ?_, ?_⟩,
    fun s hshift hstrobe hcut => ⟨?_, ?_, ?_⟩, fun e rest k therm s hdue hmotor hpos hline hcopy => ?_⟩
  · refine ⟨_, exec_of_chip (exec_headLoadEnd s) (loadEndChip_loading h), ?_⟩
    refine ⟨by simp, ?_, by simp, by simp, rfl⟩
    exact (syncMotor_kept (Kept.rfl (c := { s.chip with head := { s.chip.head with shift := .loaded e, loadLeft := 0 } }))).1
  · refine exec_of_chip (exec_strobeEnd s) ?_
    exact (if_pos (by rw [h]; rfl)).trans (congrArg (fun x => { s.chip with head := x }) (nextStrobe_nil hg))
  · refine exec_of_chip (exec_strobeEnd s) ?_
    exact (if_pos (by rw [h]; rfl)).trans (congrArg (fun x => { s.chip with head := x }) (nextStrobe_cons hg ht))
  · exact exec_of_chip (exec_cutterPulseEnd s) (if_pos h)
  · have hsettle : Attended (· = r) _ (settle r (servePrintMark r (endCut { s.chip with pins := { s.chip.pins with papx := false } }))) :=
      settle_attended .rfl rfl
    obtain ⟨hnone, -, -, hpins⟩ := servePrintMark_head r { s.chip with pins := { s.chip.pins with papx := false } }
    refine ⟨_, exec_of_chip (exec_cutJudgement false s) (cutJudgeChip_clear hcut hr), hsettle.cut.1.trans hnone, ?_, ?_, rfl⟩
    · exact congrArg Pins.papx (hsettle.pins.trans hpins)
    · exact (settle_kept (servePrintMark_kept (endCut_kept (Kept.update .rfl)) r) r).1
  · intro x m rest hx hq hsinks hhold
    have hsettle : Attended (· = r) _ (settle r (servePrintMark r (endCut { s.chip with pins := { s.chip.pins with papx := false } }))) :=
      settle_attended .rfl rfl
    obtain ⟨-, hheat, hrate, -⟩ := servePrintMark_head r { s.chip with pins := { s.chip.pins with papx := false } }
    obtain ⟨hprint, hpages, hreports⟩ := cutServed_alone (c := { s.chip with pins := { s.chip.pins with papx := false } }) hx hq hsinks hhold
    have hbeside := settle_storeless fun y hy => (hprint y hy).2
    refine ⟨_, exec_of_chip (exec_cutJudgement false s) (cutJudgeChip_clear hcut hr), fun y hy => (hprint y (hbeside.ctx hy)).1,
      (hbeside.pagesDone r).trans hpages, fun hroom => ?_, hsettle.cut.2.2.1.trans hheat, ?_⟩
    · obtain ⟨more, hmore⟩ := hbeside.reports
      refine ⟨more, hmore.trans ?_⟩
      rw [hreports hroom, List.append_assoc]
      rfl
    · exact (congrArg Channel.rateReported hsettle.printCh.1).trans hrate
  · obtain ⟨hwaits, hpins, hpool⟩ := cutFailed_rest r { s.chip with pins := { s.chip.pins with papx := true } }
    refine ⟨_, exec_of_chip (exec_cutJudgement true s) (cutJudgeChip_covered hcut hr), hwaits, congrArg Pins.papx hpins, fun x hx => ?_, ?_,
      hpool, rfl⟩
    · exact cutFailed_route (c := { s.chip with pins := { s.chip.pins with papx := true } }) hx
    · exact (cutFailed_kept (Kept.update .rfl) r).1
  · refine exec_without_effect (exec_headLoadEnd s) ?_
    unfold loadEndChip
    rw [hshift]
  · refine exec_without_effect (exec_strobeEnd s) ?_
    unfold strobeEndChip
    rw [hstrobe]
    rfl
  · exact exec_without_effect (exec_cutterPulseEnd s) (if_neg (by rw [hcut]; decide))
  · obtain ⟨told, hhead, hpins⟩ := printStart_head therm hdue hmotor hpos hline hcopy
    obtain ⟨hlatch, hburns, hband, htime, -⟩ := nextStrobe_rest (burnHead therm e k s.chip told)
    obtain ⟨hgroups, htimes⟩ := nextStrobe_strobes (burnHead therm e k s.chip told) _ rfl
    have hfield {α : Type} (f : Head → α) (hf : ∀ h, f (Head.still h) = f h) :
        f (printStart therm s.chip).head = f (nextStrobe (burnHead therm e k s.chip told)) := by
      rw [← hf, hhead, hf]
    refine ⟨_, exec_channelStart .print therm s, (hfield Head.latch fun _ => rfl).trans hlatch, (hfield Head.burns fun _ => rfl).trans hburns,
      (hfield Head.band fun _ => rfl).trans hband, congrArg Pins.therm hpins, (hfield Head.strobeTime fun _ => rfl).trans htime,
      fun n refs l hheld => ?_⟩
    have hstrobe : (printStart therm s.chip).head.strobe = _ := hfield Head.strobe fun _ => rfl
    have hrest : (printStart therm s.chip).head.groups = _ := hfield Head.groups fun _ => rfl
    have hall : (burnHead therm e k s.chip told).groups = blackGroups l := congrArg blackGroups (lineOf_held hheld)
    dsimp only [State.onChip, startChip]
    rw [hstrobe, hrest]
    obtain ⟨hsub, hblack⟩ := of_blackGroups (hgroups.trans hall)
    exact ⟨hsub, hblack, htimes⟩

end Sys2Proof.Proofs
end

section
/-!
PROOFS. The LOADs (02_scan_path.md R45, 03_motor_timing.md R49, 04_print_path.md R78, 08_power_save.md R152, R153): what each checks, and what
its table holds afterwards.
-/

-- One declaration after another: the package as one text keeps within the check's limit on threads.
set_option Elab.async false

namespace Sys2Proof.Proofs

open Sys2Proof Sys2Proof.Machine

/-! ## Entries of data -/

theorem entriesOf_getElem? (w n : Nat) (d : List Byte) (i : Nat) :
    (entriesOf w n d)[i]? = if i < n then some ((d.drop (w * i)).take w) else none := by
  induction n generalizing d i with
  | zero => rfl
  | succ n ih =>
    cases i with
    | zero => rfl
    | succ i =>
      rw [entriesOf, List.getElem?_cons_succ, ih, List.drop_drop]
      simp only [Nat.add_lt_add_iff_right, Nat.mul_succ, Nat.add_comm]

theorem wordsOf_length (d : List Byte) : (wordsOf d).length = d.length / 2 := by
  rw [wordsOf, List.length_map, entriesOf_length]

theorem wordsOf_getElem? (d : List Byte) (i : Nat) : (wordsOf d)[i]? = if i < d.length / 2 then some (numAt d (2 * i) 2) else none := by
  rw [wordsOf, List.getElem?_map, entriesOf_getElem?]
  split <;> rfl

/-- Entries written into a list stand at their places, the others where they stood. -/
theorem writeAt_getElem? {α : Type} {xs new : List α} {off : Nat} (h : off ≤ xs.length) (i : Nat) :
    (writeAt xs off new)[i]? = if off ≤ i ∧ i < off + new.length then new[i - off]? else xs[i]? := by
  have hlen : (xs.take off).length = off := by simp [h]
  unfold writeAt
  rw [List.append_assoc, List.getElem?_append, hlen]
  by_cases hlow : i < off
  · rw [if_pos hlow, List.getElem?_take_of_lt hlow, if_neg (by omega)]
  · rw [if_neg hlow, List.getElem?_append]
    by_cases hin : i - off < new.length
    · rw [if_pos hin, if_pos (by omega)]
    · rw [if_neg hin, if_neg (by omega), List.getElem?_drop]
      congr 1
      omega

theorem writeAt_nil {α : Type} (xs : List α) (off : Nat) : writeAt xs off [] = xs := by simp [writeAt]

/-! ## A LOAD that is taken -/

/-- A LOAD that is taken, with nothing for the stream rules to watch for. -/
theorem exec_load {i : Instr} {p : List Byte} {code : Byte} {g : Chip → Chip} {f : Nat → List Byte → Chip → Chip} {s : State}
    (harrive : exec i s = .next (arrive i (ownedChip p g) s)) (hg : g s.chip = withLoad code p f s.chip) (h : Taken s) (hq : Quiet s.chip) :
    exec i s = .next (s.withChip (withLoad code p f s.chip)) := by
  rw [harrive, ← hg]
  cases p with
  | nil =>
    have hempty : g s.chip = refuse [] .malformed s.chip := hg
    rw [ownedChip_empty h i, streamRules_quiet hq, hempty]
  | cons b p => rw [ownedChip_taken h i (List.cons_ne_nil b p), streamRules_quiet hq]

/-- A LOAD of its own table with an offset and data. -/
theorem exec_load_fits {i : Instr} {p : List Byte} {code : Byte} {g : Chip → Chip} {f : Nat → List Byte → Chip → Chip} {s : State} {c : Chip}
    (harrive : exec i s = .next (arrive i (ownedChip p g) s)) (hg : g s.chip = withLoad code p f s.chip) (h : Taken s) (hq : Quiet s.chip)
    (hlen : 4 ≤ p.length) (hcode : byteAt p 1 = code) (hc : f (numAt p 2 2) (p.drop 4) s.chip = c) :
    exec i s = .next (s.withChip c) := by
  rw [exec_load harrive hg h hq, ← hc]
  exact congrArg (fun d => Host.Outcome.next (s.withChip d)) (if_neg fun k => k.elim (Nat.not_lt.mpr hlen) fun h => h hcode)

theorem withLoad_fits {code : Byte} {p : List Byte} (hlen : 4 ≤ p.length) (hcode : byteAt p 1 = code) (f : Nat → List Byte → Chip → Chip)
    (c : Chip) : withLoad code p f c = f (numAt p 2 2) (p.drop 4) c :=
  if_neg fun k => k.elim (Nat.not_lt.mpr hlen) fun h => h hcode

theorem withLoad_other {code : Byte} {p : List Byte} (h : p.length < 4 ∨ byteAt p 1 ≠ code) (f : Nat → List Byte → Chip → Chip) (c : Chip) :
    withLoad code p f c = refuse p .malformed c := if_pos h

theorem scanBusy_iff (c : Chip) : scanBusy c = true ↔ ∃ r x, r < 4 ∧ ctxOf c r = some x ∧ x.source = .scan := by
  have hfree : scanBusy c = false ↔ ∀ r x, r < 4 → ctxOf c r = some x → (x.source == .scan) = false := by
    unfold scanBusy routeOfSource
    rw [Option.isSome_eq_false_iff, Option.isNone_iff_eq_none, List.head?_eq_none_iff]
    exact routesWhere_eq_nil
  rw [← Bool.not_eq_false, hfree]
  simp only [beq_eq_false_iff_ne, not_forall, ne_eq, not_not, exists_prop]

theorem printBusy_iff (c : Chip) :
    printBusy c = true ↔ (∃ r x, r < 4 ∧ ctxOf c r = some x ∧ Sink.print ∈ x.sinks) ∨ c.runOut.isSome = true := by
  have hfree : (routeOfSink c .print).isSome = false ↔ ∀ r x, r < 4 → ctxOf c r = some x → x.sinks.contains .print = false := by
    unfold routeOfSink
    rw [Option.isSome_eq_false_iff, Option.isNone_iff_eq_none, List.head?_eq_none_iff]
    exact routesWhere_eq_nil
  unfold printBusy
  rw [Bool.or_eq_true]
  refine or_congr_left ?_
  rw [← Bool.not_eq_false, hfree]
  simp only [List.contains_eq_mem, decide_eq_false_iff_not, not_forall, not_not, exists_prop]

theorem atRest_eq_false (ch : Channel) : ch.atRest = false ↔ ch.motion ≠ .halted ∧ ch.motion ≠ .tripped := by
  unfold Channel.atRest
  rw [decide_eq_false_iff_not, not_or]

/-- The outcomes of a LOAD checked first by its place and length, then by the tables in use. -/
theorem load_refused {i : Instr} {p : List Byte} {code : Byte} {g : Chip → Chip} {f : Nat → List Byte → Chip → Chip} {s : State}
    {fits held : Prop} (harrive : exec i s = .next (arrive i (ownedChip p g) s)) (hg : g s.chip = withLoad code p f s.chip) (h : Taken s)
    (hq : Quiet s.chip)
    (hmalformed : ¬fits → f (numAt p 2 2) (p.drop 4) s.chip = refuse p .malformed s.chip)
    (hbusy : fits → held → f (numAt p 2 2) (p.drop 4) s.chip = refuse p .busy s.chip) :
    (p.length < 4 ∨ byteAt p 1 ≠ code ∨ ¬fits → exec i s = .next (s.withChip (refuse p .malformed s.chip))) ∧
    (4 ≤ p.length → byteAt p 1 = code → fits → held → exec i s = .next (s.withChip (refuse p .busy s.chip))) := by
  have hexec := exec_load harrive hg h hq
  refine ⟨fun hbad => ?_, fun hlen hcode hfits hheld => ?_⟩
  · by_cases hother : p.length < 4 ∨ byteAt p 1 ≠ code
    · rw [hexec, withLoad_other hother]
    · have hnot := hother
      rw [not_or, Nat.not_lt, not_not] at hnot
      obtain ⟨hlen, hcode⟩ := hnot
      rw [hexec, withLoad_fits hlen hcode, hmalformed (hbad.elim (fun k => absurd (.inl k) hother) fun k => k.elim (fun k => absurd hcode k) id)]
  · rw [hexec, withLoad_fits hlen hcode, hbusy hfits hheld]

theorem loadScanTable_malformed {k n : Nat} {p d : List Byte} {off : Nat} (h : ¬(d.length % k = 0 ∧ d.length ≤ 512 ∧ off + d.length / k ≤ n))
    (write : Nat → List Byte → ScanTables → ScanTables) (c : Chip) : loadScanTable k n p write off d c = refuse p .malformed c :=
  if_pos (by omega)

theorem loadScanTable_fits {k n : Nat} {p d : List Byte} {off : Nat} (h : d.length % k = 0 ∧ d.length ≤ 512 ∧ off + d.length / k ≤ n)
    (write : Nat → List Byte → ScanTables → ScanTables) (c : Chip) : loadScanTable k n p write off d c =
      if scanBusy c then refuse p .busy c else reply p .accepted { c with tables := write off d c.tables } :=
  if_neg (by omega)

theorem rampFits_iff (ramp : List Nat) (off : Nat) (d : List Byte) :
    rampFits ramp off d = true ↔ d.length % 2 = 0 ∧ d.length ≤ 512 ∧ off ≤ ramp.length ∧ off + d.length / 2 ≤ 32 := decide_eq_true_iff

theorem loadRamp_some {p d : List Byte} {ramp : List Nat} {off : Nat} (hd : d ≠ []) (busy : Bool) (write : List Nat → Chip) (c : Chip) :
    loadRamp p ramp busy write off d c =
      if rampFits ramp off d then if busy then refuse p .busy c else reply p (applyRamp ramp off d).2 (write (applyRamp ramp off d).1)
      else refuse p .malformed c := by
  unfold loadRamp
  rw [if_neg (mt List.isEmpty_iff.mp hd)]
  cases rampFits ramp off d <;> rfl

theorem loadRamp_nil {p : List Byte} {ramp : List Nat} {off : Nat} (busy : Bool) (write : List Nat → Chip) (c : Chip) :
    loadRamp p ramp busy write off [] c = reply p .accepted c := rfl

theorem reply_power (p : List Byte) (a : Answer) (c : Chip) : (reply p a c).power = c.power := by simp [reply]

/-! ## Ramps (R49) -/

theorem getD_of_getElem? {α : Type} {xs ys : List α} {i j : Nat} (h : xs[i]? = ys[j]?) (z : α) : xs.getD i z = ys.getD j z := by
  rw [List.getD_eq_getElem?_getD, List.getD_eq_getElem?_getD, h]

/-- Each entry is lowered to the one before it. -/
theorem lowerFrom_getD (y : Option Nat) (xs : List Nat) {i : Nat} (h : i < xs.length) : (lowerFrom y xs).getD i 0 =
    if i = 0 then (match y with | none => xs.getD 0 0 | some v => min v (xs.getD 0 0))
    else min ((lowerFrom y xs).getD (i - 1) 0) (xs.getD i 0) := by
  induction xs generalizing y i with
  | nil => exact absurd h (Nat.not_lt_zero i)
  | cons x xs ih =>
    cases i with
    | zero => cases y <;> rfl
    | succ i =>
      have hi : i < xs.length := Nat.lt_of_succ_lt_succ h
      obtain ⟨v, hv⟩ : ∃ v, lowerFrom y (x :: xs) = v :: lowerFrom (some v) xs := by
        cases y with
        | none => exact ⟨x, rfl⟩
        | some v => exact ⟨min v x, rfl⟩
      rw [hv, if_neg (Nat.succ_ne_zero i), Nat.add_sub_cancel, List.getD_cons_succ, List.getD_cons_succ, ih (some v) hi]
      cases i with
      | zero => rfl
      | succ i => rfl

theorem loadedRamp_length {ramp new : List Nat} {off : Nat} (h : off ≤ ramp.length) : (loadedRamp ramp off new).length = off + new.length := by
  simp [loadedRamp, h]

theorem loadedRamp_getD_low {ramp new : List Nat} {off i : Nat} (h : off ≤ ramp.length) (hi : i < off) :
    (loadedRamp ramp off new).getD i 0 = ramp.getD i 0 := by
  refine getD_of_getElem? ?_ 0
  unfold loadedRamp
  dsimp only
  rw [List.getElem?_append_left (by simp; omega), List.getElem?_take_of_lt hi]

theorem loadedRamp_getD_new {ramp new : List Nat} {off i : Nat} (h : off ≤ ramp.length) :
    (loadedRamp ramp off new).getD (off + i) 0 = (lowerFrom (ramp.take off).getLast? (new.map (clamp 500 20000))).getD i 0 := by
  refine getD_of_getElem? ?_ 0
  have hlen : (ramp.take off).length = off := by simp [h]
  unfold loadedRamp
  dsimp only
  rw [List.getElem?_append_right (by omega), hlen, Nat.add_sub_cancel_left]

theorem take_getLast? {α : Type} {xs : List α} {off : Nat} (h : off ≤ xs.length) (hpos : 0 < off) : (xs.take off).getLast? = xs[off - 1]? := by
  rw [List.getLast?_take, if_neg (by omega), List.getElem?_eq_getElem (by omega)]
  rfl

/-- What an accepted LOAD leaves at each place of a ramp (R49 steps 2 to 4). -/
theorem loadedRamp_entry {ramp new : List Nat} {off i : Nat} (h : off ≤ ramp.length) (hi : i < new.length) :
    (loadedRamp ramp off new).getD (off + i) 0 =
      if off + i = 0 then clamp 500 20000 (new.getD i 0)
      else min (clamp 500 20000 (new.getD i 0)) ((loadedRamp ramp off new).getD (off + i - 1) 0) := by
  have hmap (j : Nat) (hj : j < new.length) : (new.map (clamp 500 20000)).getD j 0 = clamp 500 20000 (new.getD j 0) := by
    rw [List.getD_eq_getElem _ _ (by simpa using hj), List.getElem_map, List.getD_eq_getElem _ _ hj]
  rw [loadedRamp_getD_new h, lowerFrom_getD _ _ (by simpa using hi), hmap i hi]
  cases i with
  | zero =>
    rw [if_pos rfl, hmap 0 hi]
    cases off with
    | zero => rfl
    | succ k =>
      rw [take_getLast? h (Nat.succ_pos k), List.getElem?_eq_getElem (by omega), if_neg (by omega)]
      dsimp only
      rw [Nat.min_comm]
      congr 1
      exact (List.getD_eq_getElem _ _ _).symm.trans (loadedRamp_getD_low h (Nat.lt_succ_self k)).symm
  | succ i =>
    rw [if_neg (Nat.succ_ne_zero i), if_neg (by omega), Nat.min_comm, Nat.add_sub_cancel]
    congr 1
    exact (loadedRamp_getD_new h).symm

/-! ## Heat (R78) -/

/-- Each entry is raised to the one before it. -/
theorem raiseFrom_getD (y : Option Nat) (xs : List Nat) {i : Nat} (h : i < xs.length) : (raiseFrom y xs).getD i 0 =
    if i = 0 then (match y with | none => xs.getD 0 0 | some v => max v (xs.getD 0 0))
    else max ((raiseFrom y xs).getD (i - 1) 0) (xs.getD i 0) := by
  induction xs generalizing y i with
  | nil => exact absurd h (Nat.not_lt_zero i)
  | cons x xs ih =>
    cases i with
    | zero => cases y <;> rfl
    | succ i =>
      have hi : i < xs.length := Nat.lt_of_succ_lt_succ h
      obtain ⟨v, hv⟩ : ∃ v, raiseFrom y (x :: xs) = v :: raiseFrom (some v) xs := by
        cases y with
        | none => exact ⟨x, rfl⟩
        | some v => exact ⟨max v x, rfl⟩
      rw [hv, if_neg (Nat.succ_ne_zero i), Nat.add_sub_cancel, List.getD_cons_succ, List.getD_cons_succ, ih (some v) hi]
      cases i with
      | zero => rfl
      | succ i => rfl

/-- The thresholds after a LOAD at `off`, each raised to the one before it from the first loaded on. -/
def raisedFrom (off : Nat) (low : List Nat) : List Nat := low.take off ++ raiseFrom (low.take off).getLast? (low.drop off)

theorem raisedFrom_length (off : Nat) (low : List Nat) : (raisedFrom off low).length = low.length := by
  simp [raisedFrom]
  omega

theorem raisedFrom_getD {off i : Nat} {low : List Nat} (hi : i < low.length) : (raisedFrom off low).getD i 0 =
    if i ≤ off ∧ (i < off ∨ i = 0) then low.getD i 0 else max (low.getD i 0) ((raisedFrom off low).getD (i - 1) 0) := by
  have hbefore (j : Nat) (hj : j < off) (hin : j < low.length) : (raisedFrom off low).getD j 0 = low.getD j 0 := by
    refine getD_of_getElem? ?_ 0
    unfold raisedFrom
    rw [List.getElem?_append_left (by rw [List.length_take]; omega), List.getElem?_take_of_lt hj]
  have hbehind (hoff : off ≤ low.length) (j : Nat) : (raisedFrom off low).getD (off + j) 0 = (raiseFrom (low.take off).getLast? (low.drop off)).getD j 0 := by
    refine getD_of_getElem? ?_ 0
    have hlen : (low.take off).length = off := by simp [hoff]
    unfold raisedFrom
    rw [List.getElem?_append_right (by omega), hlen, Nat.add_sub_cancel_left]
  have hdrop (j : Nat) : (low.drop off).getD j 0 = low.getD (off + j) 0 := getD_of_getElem? List.getElem?_drop 0
  by_cases hlow : i < off
  · rw [if_pos ⟨Nat.le_of_lt hlow, .inl hlow⟩, hbefore i hlow hi]
  · obtain ⟨j, rfl⟩ := Nat.exists_eq_add_of_le (Nat.le_of_not_lt hlow)
    have hoff : off ≤ low.length := by omega
    rw [hbehind hoff, raiseFrom_getD _ _ (by simp; omega), hdrop, hdrop]
    cases j with
    | zero =>
      rw [if_pos rfl, Nat.add_zero]
      cases off with
      | zero => rfl
      | succ k =>
        rw [take_getLast? hoff (Nat.succ_pos k), List.getElem?_eq_getElem (by omega), if_neg (by omega)]
        dsimp only
        rw [Nat.max_comm]
        congr 1
        exact (List.getD_eq_getElem _ _ _).symm.trans (hbefore k (Nat.lt_succ_self k) (by omega)).symm
    | succ j =>
      rw [if_neg (Nat.succ_ne_zero j), if_neg (by omega), Nat.max_comm]
      congr 1
      exact (hbehind hoff j).symm

theorem heatClamped_getD {t : HeatTable} {new : List Nat} {off i : Nat} (h7 : t.thresholds.length = 7) (h8 : t.times.length = 8)
    (hfits : off + new.length ≤ 15) : (heatClamped t off new).getD i 0 =
      if off ≤ i ∧ i < off + new.length then heatClamp i (new.getD (i - off) 0) else (t.thresholds ++ t.times).getD i 0 := by
  have hlen : ((List.range new.length).zip new |>.map fun x => heatClamp (off + x.1) x.2).length = new.length := by simp
  unfold heatClamped
  rw [List.getD_eq_getElem?_getD, writeAt_getElem? (by simp [h7, h8]; omega), hlen]
  split
  next h =>
    have hj : i - off < new.length := by omega
    rw [List.getElem?_eq_getElem (by rw [hlen]; exact hj), Option.getD_some, List.getElem_map, List.getElem_zip, List.getElem_range,
      List.getD_eq_getElem _ _ hj]
    dsimp only
    rw [Nat.add_sub_cancel' h.1]
  · exact (List.getD_eq_getElem?_getD ..).symm

/-- An accepted LOAD of entries: the clamped entries with the thresholds raised from the first loaded on. -/
theorem applyHeat_some {t : HeatTable} {new : List Nat} {off : Nat} (h7 : t.thresholds.length = 7) (h8 : t.times.length = 8)
    (hfits : off + new.length ≤ 15) (hnew : new ≠ []) :
    (applyHeat t off new).1 = ⟨raisedFrom off ((heatClamped t off new).take 7), (heatClamped t off new).drop 7⟩ ∧
    (applyHeat t off new).2 = loadAnswer (decide ((applyHeat t off new).1.thresholds ++ (applyHeat t off new).1.times =
      writeAt (t.thresholds ++ t.times) off new)) := by
  unfold applyHeat
  rw [if_neg (mt List.isEmpty_iff.mp hnew)]
  dsimp only
  refine ⟨?_, rfl⟩
  split
  · rfl
  next h =>
    have hlen : ((heatClamped t off new).take 7).length ≤ off := by
      rw [List.length_take, heatClamped_length h7 h8 hfits]
      omega
    unfold raisedFrom
    rw [List.take_of_length_le hlen, List.drop_of_length_le hlen]
    have hnil (y : Option Nat) : raiseFrom y [] = [] := by cases y <;> rfl
    rw [hnil, List.append_nil]

theorem loadAnswer_cases (same : Bool) :
    (loadAnswer same = .accepted ∨ loadAnswer same = .adjusted) ∧ (loadAnswer same = .accepted ↔ same = true) := by
  cases same
  · exact ⟨.inr rfl, nofun, nofun⟩
  · exact ⟨.inl rfl, fun _ => rfl, fun _ => rfl⟩

/-- Two lists of one length are equal where their entries are. -/
theorem eq_iff_getD {xs ys : List Nat} {n : Nat} (hx : xs.length = n) (hy : ys.length = n) : xs = ys ↔ ∀ i < n, xs.getD i 0 = ys.getD i 0 := by
  refine ⟨fun h _ _ => by rw [h], fun h => List.ext_getElem (hx.trans hy.symm) fun i h1 h2 => ?_⟩
  have hi := h i (hx ▸ h1)
  rwa [List.getD_eq_getElem _ _ h1, List.getD_eq_getElem _ _ h2] at hi

theorem append_getD {xs ys : List Nat} {n : Nat} (hx : xs.length = n) : (∀ i < n, (xs ++ ys).getD i 0 = xs.getD i 0) ∧
    ∀ i, (xs ++ ys).getD (i + n) 0 = ys.getD i 0 := by
  refine ⟨fun i hi => getD_of_getElem? (List.getElem?_append_left (hx ▸ hi)) 0, fun i => getD_of_getElem? ?_ 0⟩
  rw [List.getElem?_append_right (by omega), hx, Nat.add_sub_cancel]

theorem heatClamp_time (i v : Nat) : heatClamp (i + 7) v = clamp 100 4000 v := if_neg (by omega)

/-- What an accepted LOAD leaves in the heat table, and when its REPLY says ADJUSTED. -/
theorem applyHeat_entries {h : HeatTable} {new : List Nat} {off : Nat} (h7 : h.thresholds.length = 7) (h8 : h.times.length = 8)
    (hfits : off + new.length ≤ 15) (hnew : new ≠ []) :
    let x := applyHeat h off new
    let loaded := fun i => decide (off ≤ i ∧ i < off + new.length)
    (∀ i, i < 7 →
      let v := if loaded i then min 255 (new.getD (i - off) 0) else h.thresholds.getD i 0
      x.1.thresholds.getD i 0 = if i ≤ off ∧ (i < off ∨ i = 0) then v else max v (x.1.thresholds.getD (i - 1) 0)) ∧
    (∀ i, i < 8 → x.1.times.getD i 0 =
      if loaded (i + 7) then clamp 100 4000 (new.getD (i + 7 - off) 0) else h.times.getD i 0) ∧
    (x.2 = .accepted ∨ x.2 = .adjusted) ∧
    (x.2 = .accepted ↔
      (∀ i < 7, x.1.thresholds.getD i 0 = if loaded i then new.getD (i - off) 0 else h.thresholds.getD i 0) ∧
      (∀ i < 8, x.1.times.getD i 0 = if loaded (i + 7) then new.getD (i + 7 - off) 0 else h.times.getD i 0)) := by
  intro x loaded
  obtain ⟨hheld, hanswer⟩ := applyHeat_some h7 h8 hfits hnew
  have hlength : (heatClamped h off new).length = 15 := heatClamped_length h7 h8 hfits
  have hlow : ((heatClamped h off new).take 7).length = 7 := by rw [List.length_take, hlength]; rfl
  have hthresholds : x.1.thresholds = raisedFrom off ((heatClamped h off new).take 7) := congrArg HeatTable.thresholds hheld
  have htimes : x.1.times = (heatClamped h off new).drop 7 := congrArg HeatTable.times hheld
  have hx7 : x.1.thresholds.length = 7 := by rw [hthresholds, raisedFrom_length, hlow]
  have hx8 : x.1.times.length = 8 := by rw [htimes, List.length_drop, hlength]
  obtain ⟨hold, holdTimes⟩ := append_getD (ys := h.times) h7
  have hclamped (i : Nat) : (heatClamped h off new).getD i 0 =
      if loaded i then heatClamp i (new.getD (i - off) 0) else (h.thresholds ++ h.times).getD i 0 := by
    rw [heatClamped_getD h7 h8 hfits]
    by_cases hin : off ≤ i ∧ i < off + new.length
    · rw [if_pos hin, if_pos (decide_eq_true hin)]
    · rw [if_neg hin, if_neg (by rw [decide_eq_true_iff]; exact hin)]
  refine ⟨fun i hi => ?_, fun i hi => ?_, ?_, ?_⟩
  · have htake : ((heatClamped h off new).take 7).getD i 0 = if loaded i then min 255 (new.getD (i - off) 0) else h.thresholds.getD i 0 := by
      rw [getD_of_getElem? (List.getElem?_take_of_lt hi) 0, hclamped, hold i hi]
      unfold heatClamp
      rw [if_pos hi]
    dsimp only
    rw [← htake, hthresholds]
    exact raisedFrom_getD (hlow.symm ▸ hi)
  · rw [htimes, getD_of_getElem? List.getElem?_drop 0, Nat.add_comm 7 i, hclamped, holdTimes, heatClamp_time]
  · exact hanswer ▸ (loadAnswer_cases _).1
  · have hwritten (i : Nat) : (writeAt (h.thresholds ++ h.times) off new).getD i 0 =
        if loaded i then new.getD (i - off) 0 else (h.thresholds ++ h.times).getD i 0 := by
      rw [List.getD_eq_getElem?_getD, writeAt_getElem? (by simp [h7, h8]; omega)]
      by_cases hin : off ≤ i ∧ i < off + new.length
      · rw [if_pos hin, if_pos (decide_eq_true hin), List.getD_eq_getElem?_getD]
      · rw [if_neg hin, if_neg (by rw [decide_eq_true_iff]; exact hin), List.getD_eq_getElem?_getD]
    obtain ⟨hnow, hnowTimes⟩ := append_getD (ys := x.1.times) hx7
    have hwhole : (writeAt (h.thresholds ++ h.times) off new).length = 15 := by
      rw [writeAt_length (.inl (by simp [h7, h8]; omega))]
      simp [h7, h8]
    show (applyHeat h off new).2 = .accepted ↔ _
    rw [hanswer, (loadAnswer_cases _).2, decide_eq_true_iff, eq_iff_getD (n := 15) (by rw [List.length_append]; exact congrArg₂ (· + ·) hx7 hx8) hwhole]
    constructor
    · intro hall
      refine ⟨fun i hi => ?_, fun i hi => ?_⟩
      · rw [← hnow i hi, ← hold i hi, ← hwritten]
        exact hall i (by omega)
      · rw [← hnowTimes i, ← holdTimes i, ← hwritten]
        exact hall (i + 7) (by omega)
    · rintro ⟨hfirst, hlast⟩ i hi
      by_cases hcase : i < 7
      · rw [hnow i hcase, hwritten, hold i hcase]
        exact hfirst i hcase
      · obtain ⟨j, rfl⟩ := Nat.exists_eq_add_of_le' (Nat.le_of_not_lt hcase)
        rw [hnowTimes j, hwritten, holdTimes j]
        exact hlast j (by omega)

/-! ## Park (R153) -/

theorem parkOf_eq (n : Nat) : [ParkMode.low, .high, .float, .pullUp, .pullDown][n]? = parkOf n := by
  match n with
  | 0 | 1 | 2 | 3 | 4 => rfl
  | n + 5 => rfl

theorem parkOf_isSome (n : Nat) : (parkOf n).isSome = true ↔ n ≤ 4 := by
  match n with
  | 0 | 1 | 2 | 3 | 4 => simp [parkOf]
  | n + 5 => simp [parkOf]

theorem parkDefined_iff (off : Nat) (d : List Byte) :
    parkDefined off d = true ↔ ∀ i b, d[i]? = some b → off + i < 8 → b.toNat ≤ 4 := by
  unfold parkDefined
  rw [List.all_eq_true]
  constructor
  · intro h i b hb hi
    refine (parkOf_isSome _).mp (h b (List.mem_of_getElem? (i := i) ?_))
    rw [List.getElem?_take_of_lt (by omega)]
    exact hb
  · intro h b hb
    obtain ⟨i, hi⟩ := List.mem_iff_getElem?.mp hb
    have hlt : i < 8 - off := by
      by_contra k
      rw [List.getElem?_take_eq_none (Nat.le_of_not_lt k)] at hi
      cases hi
    rw [List.getElem?_take_of_lt hlt] at hi
    exact (parkOf_isSome _).mpr (h i b hi (by omega))

/-- The mode that data gives to entry `i`. -/
def sentMode (off : Nat) (d : List Byte) (i : Nat) : Option ParkMode := d[i - off]?.bind fun b => parkOf b.toNat

theorem parkModes_length (off : Nat) (d : List Byte) : (parkModes off d).length = min d.length (8 - off) := by
  simp only [parkModes, List.length_map, List.length_zip, List.length_range, List.length_take]
  omega

theorem parkModes_getElem? {off : Nat} {d : List Byte} (hdefined : parkDefined off d = true) {i : Nat} (hlow : off ≤ i) (h8 : i < 8)
    (hin : i < off + d.length) : ∃ m, sentMode off d i = some m ∧ (parkModes off d)[i - off]? = some (i, m) := by
  have hj : i - off < d.length := by omega
  have hmode := (parkDefined_iff off d).mp hdefined (i - off) d[i - off] (List.getElem?_eq_getElem hj) (by omega)
  obtain ⟨m, hm⟩ := Option.isSome_iff_exists.mp ((parkOf_isSome _).mpr hmode)
  refine ⟨m, ?_, ?_⟩
  · unfold sentMode
    rw [List.getElem?_eq_getElem hj]
    exact hm
  · have hpair : ((List.range d.length).zip (d.take (8 - off)))[i - off]? = some (i - off, d[i - off]) := by
      refine List.getElem?_zip_eq_some.mpr ⟨List.getElem?_range hj, ?_⟩
      rw [List.getElem?_take_of_lt (by omega)]
      exact List.getElem?_eq_getElem hj
    unfold parkModes
    rw [List.getElem?_map, hpair]
    dsimp only [Option.map]
    rw [hm, Nat.add_sub_cancel' hlow]
    rfl

theorem parkHeld_ne (group : Nat) (m : ParkMode) : parkHeld group m ≠ m ↔ (group = 3 ∨ group = 5) ∧ m = .high := by
  unfold parkHeld
  by_cases h : (group = 3 ∨ group = 5) ∧ m = .high
  · rw [if_pos h]
    simp only [h, and_self, iff_true]
    exact nofun
  · rw [if_neg h]
    simp only [ne_eq, not_true_eq_false, h]

/-- The park modes after an accepted LOAD. -/
theorem park_getElem? {off : Nat} {d : List Byte} {park : List ParkMode} (hpark : park.length = 8) (hfits : off + d.length ≤ 11)
    (hdefined : parkDefined off d = true) {i : Nat} (hi : i < 8) :
    (writeAt park off ((parkModes off d).map fun x => parkHeld x.1 x.2))[i]? =
      if off ≤ i ∧ i < off + d.length then (if (i = 3 ∨ i = 5) ∧ sentMode off d i = some .high then some .float else sentMode off d i)
      else park[i]? := by
  by_cases hoff : off ≤ 8
  · have hlen : ((parkModes off d).map fun x => parkHeld x.1 x.2).length = min d.length (8 - off) := by
      rw [List.length_map, parkModes_length]
    rw [writeAt_getElem? (by omega), hlen]
    by_cases hin : off ≤ i ∧ i < off + d.length
    · rw [if_pos (by omega), if_pos hin, List.getElem?_map]
      obtain ⟨m, hsent, hmode⟩ := parkModes_getElem? hdefined hin.1 hi hin.2
      rw [hmode, hsent]
      dsimp only [Option.map]
      unfold parkHeld
      by_cases hg : (i = 3 ∨ i = 5) ∧ m = .high
      · rw [if_pos hg, if_pos ⟨hg.1, congrArg some hg.2⟩]
      · rw [if_neg hg, if_neg fun k => hg ⟨k.1, Option.some.inj k.2⟩]
    · rw [if_neg (by omega), if_neg hin]
  · have hnone : parkModes off d = [] := by
      rw [← List.length_eq_zero_iff, parkModes_length]
      omega
    rw [hnone, List.map_nil, writeAt_nil, if_neg (by omega)]

/-- The hold times after an accepted LOAD. -/
theorem holds_getElem? {off : Nat} {d : List Byte} {holds : List Nat} (hholds : holds.length = 3) (hfits : off + d.length ≤ 11) {i : Nat}
    (hi : i < 3) : (writeAt holds (off - 8) ((d.drop (8 - off)).map BitVec.toNat))[i]? =
      if off ≤ i + 8 ∧ i + 8 < off + d.length then (d[i + 8 - off]?).map BitVec.toNat else holds[i]? := by
  rw [writeAt_getElem? (by omega), List.length_map, List.length_drop, List.getElem?_map, List.getElem?_drop]
  by_cases hin : off ≤ i + 8 ∧ i + 8 < off + d.length
  · rw [if_pos (by omega), if_pos hin]
    congr 2
    omega
  · rw [if_neg (by omega), if_neg hin]

/-- A LOAD is ADJUSTED where groups 3 and 5 would take HIGH. -/
theorem parkModes_same_iff {off : Nat} {d : List Byte} (hdefined : parkDefined off d = true) :
    (∀ x ∈ parkModes off d, parkHeld x.1 x.2 = x.2) ↔ ¬∃ i, off ≤ i ∧ (i = 3 ∨ i = 5) ∧ sentMode off d i = some .high := by
  constructor
  · rintro h ⟨i, hlow, hgroup, hsent⟩
    have hin : i - off < d.length := by
      by_contra k
      unfold sentMode at hsent
      rw [List.getElem?_eq_none (Nat.le_of_not_lt k)] at hsent
      cases hsent
    obtain ⟨m, hm, hmode⟩ := parkModes_getElem? hdefined hlow (by omega) (by omega)
    rw [hsent] at hm
    cases hm
    exact (parkHeld_ne i .high).mpr ⟨hgroup, rfl⟩ (h _ (List.mem_of_getElem? hmode))
  · rintro h ⟨g, m⟩ hx
    by_contra k
    obtain ⟨hgroup, hm⟩ := (parkHeld_ne g m).mp k
    obtain ⟨j, hj⟩ := List.mem_iff_getElem?.mp hx
    have hlen : j < (parkModes off d).length := by
      by_contra n
      rw [List.getElem?_eq_none (Nat.le_of_not_lt n)] at hj
      cases hj
    rw [parkModes_length] at hlen
    obtain ⟨m', hsent, hmode⟩ := parkModes_getElem? hdefined (i := off + j) (by omega) (by omega) (by omega)
    rw [Nat.add_sub_cancel_left, hj] at hmode
    injection hmode with hpair
    injection hpair with hg hmm
    exact h ⟨g, by omega, hgroup, by rw [hg, hsent, ← hmm, hm]⟩

/-- A LOAD park that passes its checks. -/
theorem loadPark_fits {off : Nat} {d : List Byte} (hn : off + d.length ≤ 11) (hdefined : parkDefined off d = true) (p : List Byte) (c : Chip) :
    (if 11 < off + d.length ∨ parkDefined off d = false then refuse p .malformed c
      else reply p (loadAnswer (decide (((parkModes off d).map fun x => parkHeld x.1 x.2) = (parkModes off d).map Prod.snd)))
        { c with power := { c.power with
          park := writeAt c.power.park off ((parkModes off d).map fun x => parkHeld x.1 x.2)
          holds := writeAt c.power.holds (off - 8) ((d.drop (8 - off)).map BitVec.toNat) } }) =
      reply p (loadAnswer (decide (((parkModes off d).map fun x => parkHeld x.1 x.2) = (parkModes off d).map Prod.snd)))
        { c with power := { c.power with
          park := writeAt c.power.park off ((parkModes off d).map fun x => parkHeld x.1 x.2)
          holds := writeAt c.power.holds (off - 8) ((d.drop (8 - off)).map BitVec.toNat) } } :=
  if_neg (by rw [hdefined]; simp; omega)

/-! ## Wake (R152) -/

theorem yesNoOf_isSome (n : Nat) : (yesNoOf n).isSome = true ↔ n ≤ 1 := by
  match n with
  | 0 | 1 => simp [yesNoOf]
  | n + 2 => simp [yesNoOf]

theorem numAt_one (e : List Byte) (j : Nat) : numAt e j 1 = (e[j]?.map BitVec.toNat).getD 0 := by
  have hfirst : e[j]? = (e.drop j)[0]? := by rw [List.getElem?_drop, Nat.add_zero]
  unfold numAt
  rw [hfirst]
  cases e.drop j with
  | nil => rfl
  | cons b bs => simp [ofLe]

theorem mapM_isSome {α β : Type} (f : α → Option β) (xs : List α) : (xs.mapM f).isSome = true ↔ ∀ x ∈ xs, (f x).isSome = true := by
  induction xs with
  | nil => simp
  | cons x xs ih =>
    rw [List.mapM_cons, List.forall_mem_cons, ← ih]
    cases f x with
    | none => simp
    | some y => cases xs.mapM f <;> simp

theorem wakeEntriesOf_isSome {d : List Byte} (h3 : d.length % 3 = 0) :
    (wakeEntriesOf d).isSome = true ↔ ∀ i b, d[i]? = some b → i % 3 < 2 → b.toNat ≤ 1 := by
  have hentry (e : List Byte) : (match yesNoOf (numAt e 0 1), yesNoOf (numAt e 1 1) with
      | some en, some pol => some (⟨en, pol, numAt e 2 1⟩ : WakeEntry)
      | _, _ => none).isSome = true ↔ numAt e 0 1 ≤ 1 ∧ numAt e 1 1 ≤ 1 := by
    rw [← yesNoOf_isSome, ← yesNoOf_isSome]
    cases yesNoOf (numAt e 0 1) <;> cases yesNoOf (numAt e 1 1) <;> simp
  have hbyte (i j : Nat) (hj : j < 3) : numAt ((d.drop (3 * i)).take 3) j 1 = (d[3 * i + j]?.map BitVec.toNat).getD 0 := by
    rw [numAt_one, List.getElem?_take_of_lt hj, List.getElem?_drop]
  unfold wakeEntriesOf
  rw [mapM_isSome]
  constructor
  · intro h i b hb hi
    have hlt : i < d.length := (List.getElem?_eq_some_iff.mp hb).1
    have hin : (d.drop (3 * (i / 3))).take 3 ∈ entriesOf 3 (d.length / 3) d :=
      List.mem_of_getElem? (i := i / 3) (by rw [entriesOf_getElem?, if_pos (by omega)])
    obtain ⟨hfirst, hsecond⟩ := (hentry _).mp (h _ hin)
    have hsplit : 3 * (i / 3) + i % 3 = i := Nat.div_add_mod i 3
    have hnum : numAt ((d.drop (3 * (i / 3))).take 3) (i % 3) 1 = b.toNat := by
      rw [hbyte _ _ (by omega), hsplit, hb]
      rfl
    rw [← hnum]
    rcases (by omega : i % 3 = 0 ∨ i % 3 = 1) with hk | hk
    · rw [hk]
      exact hfirst
    · rw [hk]
      exact hsecond
  · intro h e he
    obtain ⟨i, hi⟩ := List.mem_iff_getElem?.mp he
    rw [entriesOf_getElem?] at hi
    split at hi
    next hlt =>
      cases hi
      have hle (j : Nat) (hj : j < 2) : numAt ((d.drop (3 * i)).take 3) j 1 ≤ 1 := by
        rw [hbyte i j (by omega), List.getElem?_eq_getElem (by omega)]
        exact h (3 * i + j) _ (List.getElem?_eq_getElem (by omega)) (by omega)
      exact (hentry _).mpr ⟨hle 0 (by decide), hle 1 (by decide)⟩
    · cases hi

theorem pinLevel_eq (p : Pins) {i : Nat} (h : i < 4) : pinLevel p i = [p.ring, p.key, p.hook, p.docp].getD i false := by
  match i, h with
  | 0, _ | 1, _ | 2, _ | 3, _ => rfl

/-- A wake entry written, with its debounce record. -/
theorem writeWake_eq {i : Nat} {old : WakeEntry} {d : Debounce} {c : Chip} (hw : c.power.wake[i]? = some old)
    (hs : c.power.sources[i]? = some d) (e : WakeEntry) : writeWake i e c = { c with power := { c.power with
      wake := c.power.wake.set i e, sources := c.power.sources.set i (rewrite old e (pinLevel c.pins i) d) } } := by
  unfold writeWake
  rw [hw, hs]

/-- The wake table and the debounce records after a LOAD. -/
theorem writeWakes_entries (off : Nat) (es : List WakeEntry) (c : Chip) (hfits : off + es.length ≤ 4) (hw : c.power.wake.length = 4)
    (hs : c.power.sources.length = 4) :
    (∃ wake sources, writeWakes off es c = { c with power := { c.power with wake := wake, sources := sources } }) ∧
    (∀ i, i < off ∨ off + es.length ≤ i → (writeWakes off es c).power.wake[i]? = c.power.wake[i]? ∧
      (writeWakes off es c).power.sources[i]? = c.power.sources[i]?) ∧
    ∀ (i : Nat) (old new : WakeEntry) (d : Debounce), off ≤ i → c.power.wake[i]? = some old → es[i - off]? = some new →
      c.power.sources[i]? = some d → (writeWakes off es c).power.wake[i]? = some new ∧
        (writeWakes off es c).power.sources[i]? = some (rewrite old new (pinLevel c.pins i) d) := by
  induction es generalizing off c with
  | nil => exact ⟨⟨_, _, rfl⟩, fun _ _ => ⟨rfl, rfl⟩, fun i _ _ _ _ _ h => absurd h (by simp)⟩
  | cons e es ih =>
    rw [List.length_cons] at hfits
    have hwoff : c.power.wake[off]? = some c.power.wake[off] := List.getElem?_eq_getElem (by omega)
    have hsoff : c.power.sources[off]? = some c.power.sources[off] := List.getElem?_eq_getElem (by omega)
    have hwrite := writeWake_eq hwoff hsoff e
    have hcons : writeWakes off (e :: es) c = writeWakes (off + 1) es (writeWake off e c) := rfl
    obtain ⟨⟨wake, sources, hwhole⟩, houtside, hinside⟩ := ih (off + 1) (writeWake off e c) (by omega)
      (by rw [hwrite]; simp [hw]) (by rw [hwrite]; simp [hs])
    rw [hcons]
    refine ⟨⟨wake, sources, ?_⟩, fun i hi => ?_, fun i old new d hlow hold hnew hd => ?_⟩
    · rw [hwhole, hwrite]
    · rw [List.length_cons] at hi
      obtain ⟨hwake, hsources⟩ := houtside i (by omega)
      rw [hwake, hsources, hwrite]
      exact ⟨List.getElem?_set_ne (by omega), List.getElem?_set_ne (by omega)⟩
    · by_cases hi : i = off
      · subst hi
        rw [Nat.sub_self] at hnew
        cases hnew
        obtain ⟨hwake, hsources⟩ := houtside i (.inl (Nat.lt_succ_self i))
        rw [hwake, hsources, hwrite]
        rw [hwoff] at hold
        rw [hsoff] at hd
        cases hold
        cases hd
        exact ⟨List.getElem?_set_self (by omega), List.getElem?_set_self (by omega)⟩
      · have hbehind : i - off = (i - (off + 1)) + 1 := by omega
        rw [hbehind, List.getElem?_cons_succ] at hnew
        have hsame := hinside i old new d (by omega) (by rw [hwrite]; exact (List.getElem?_set_ne (by omega)).trans hold) hnew
          (by rw [hwrite]; exact (List.getElem?_set_ne (by omega)).trans hd)
        rw [show (writeWake off e c).pins = c.pins by rw [hwrite]] at hsame
        exact hsame

/-- Settles O28, table by table: the checks in order, then the entries written. -/
theorem loadsWriteTheirTables : Obligations.LoadsWriteTheirTables := by
  unfold Obligations.LoadsWriteTheirTables
  refine ⟨fun p s h hlen hq => ?_, fun p s h hq => ?_, fun ramp off d hfits => ?_, fun t off new h7 h8 hfits => ?_, fun off es c hfits hw hs => ?_⟩
  · intro c off d
    refine ⟨fun hcode h3 h512 hn hbusy => ?_, fun hcode h512 hn hbusy => ?_, fun hcode h512 hn hbusy => ?_,
      fun hcode hd hramp hbusy hrest => ?_, fun hcode hd hramp hbusy hrest => ?_, fun hcode h2 hn hbusy => ?_,
      fun hcode hn hdefined => ?_, fun hcode hn hdefined hpark hholds => ?_, fun hlen' hd => ⟨fun hcode => ?_, fun hcode => ?_⟩,
      fun es hcode h3 hn hes => ?_⟩
    · refine exec_load_fits (by rfl) (by rfl) h hq hlen hcode ?_
      rw [loadScanTable_fits ⟨h3, h512, hn⟩, hbusy, if_neg Bool.false_ne_true]
    · refine exec_load_fits (by rfl) (by rfl) h hq hlen hcode ?_
      rw [loadScanTable_fits ⟨Nat.mod_one _, h512, by rw [Nat.div_one]; exact hn⟩, hbusy, if_neg Bool.false_ne_true]
    · refine exec_load_fits (by rfl) (by rfl) h hq hlen hcode ?_
      rw [loadScanTable_fits ⟨Nat.mod_one _, h512, by rw [Nat.div_one]; exact hn⟩, hbusy, if_neg Bool.false_ne_true]
    · refine exec_load_fits (by rfl) (by rfl) h hq hlen hcode ?_
      rw [loadRamp_some hd, if_pos hramp, hbusy, hrest, if_neg (by decide)]
    · refine exec_load_fits (by rfl) (by rfl) h hq hlen hcode ?_
      rw [loadRamp_some hd, if_pos hramp, hbusy, hrest, if_neg (by decide)]
    · refine exec_load_fits (by rfl) (by rfl) h hq hlen hcode ?_
      rw [if_neg fun k => k.elim (fun k => k h2) fun k => Nat.not_lt.mpr hn k, hbusy, if_neg Bool.false_ne_true]
    · refine ⟨_, exec_load_fits (by rfl) (by rfl) h hq hlen hcode (loadPark_fits hn hdefined p c), ?_, (loadAnswer_cases _).1⟩
      rw [(loadAnswer_cases _).2, decide_eq_true_iff, List.map_inj_left]
    · intro sent
      have hsent (i : Nat) : sent i = sentMode off d i := by
        unfold sentMode
        simp only [sent, parkOf_eq]
      refine ⟨_, exec_load_fits (by rfl) (by rfl) h hq hlen hcode (loadPark_fits hn hdefined p c), ?_⟩
      simp only [hsent, reply_power, reply_reports]
      refine ⟨fun i hi => park_getElem? hpark hn hdefined hi, fun i hi => holds_getElem? hholds hn hi, fun hhigh => ?_, fun hlow => ?_⟩
      · rw [decide_eq_false ?_]
        · rfl
        · rw [List.map_inj_left]
          exact fun k => (parkModes_same_iff hdefined).mp k hhigh
      · rw [decide_eq_true ?_]
        · rfl
        · rw [List.map_inj_left]
          exact (parkModes_same_iff hdefined).mpr hlow
    · refine exec_load_fits (by rfl) (by rfl) h hq hlen hcode ?_
      show loadRamp p _ _ _ _ d c = _
      rw [hd]
      rfl
    · refine exec_load_fits (by rfl) (by rfl) h hq hlen hcode ?_
      show loadRamp p _ _ _ _ d c = _
      rw [hd]
      rfl
    · refine exec_load_fits (by rfl) (by rfl) h hq hlen hcode ?_
      rw [if_neg fun k => k.elim (fun k => k h3) fun k => Nat.not_lt.mpr hn k, hes]
  · intro c off d scanning printing moves ramp refused
    have hscanning : scanning ↔ scanBusy c = true := (scanBusy_iff c).symm
    have hprinting : printing ↔ printBusy c = true := (printBusy_iff c).symm
    have hmoves (ch : Channel) : moves ch ↔ ch.atRest = false := (atRest_eq_false ch).symm
    have hramp (ch : Channel) (hd : d ≠ []) : ramp ch ↔ rampFits ch.ramp off d = true := by
      rw [rampFits_iff]
      exact or_iff_right hd
    have hone (n : Nat) : d.length ≤ 512 ∧ off + d.length ≤ n ↔ d.length % 1 = 0 ∧ d.length ≤ 512 ∧ off + d.length / 1 ≤ n := by
      rw [Nat.mod_one, Nat.div_one]
      exact (and_iff_right rfl).symm
    refine ⟨?_, ?_, ?_, ?_, ?_, ?_, ?_, ?_⟩
    · refine load_refused (by rfl) (by rfl) h hq (fun hn => loadScanTable_malformed hn _ _) fun hfits hheld => ?_
      rw [loadScanTable_fits hfits, if_pos (hscanning.mp hheld)]
    · refine load_refused (by rfl) (by rfl) h hq (fun hn => loadScanTable_malformed (mt (hone 256).mpr hn) _ _) fun hfits hheld => ?_
      rw [loadScanTable_fits ((hone 256).mp hfits), if_pos (hscanning.mp hheld)]
    · refine load_refused (by rfl) (by rfl) h hq (fun hn => loadScanTable_malformed (mt (hone 64).mpr hn) _ _) fun hfits hheld => ?_
      rw [loadScanTable_fits ((hone 64).mp hfits), if_pos (hscanning.mp hheld)]
    · refine load_refused (by rfl) (by rfl) h hq (fun hn => ?_) fun hfits hheld => ?_
      · have hd : d ≠ [] := fun k => hn (.inl k)
        rw [loadRamp_some hd, if_neg (mt (hramp c.scanCh hd).mpr hn)]
      · rw [loadRamp_some hheld.1, if_pos ((hramp c.scanCh hheld.1).mp hfits), if_pos ?_]
        rw [Bool.or_eq_true, Bool.not_eq_true']
        exact hheld.2.imp hscanning.mp (hmoves c.scanCh).mp
    · refine load_refused (by rfl) (by rfl) h hq (fun hn => ?_) fun hfits hheld => ?_
      · have hd : d ≠ [] := fun k => hn (.inl k)
        rw [loadRamp_some hd, if_neg (mt (hramp c.printCh hd).mpr hn)]
      · rw [loadRamp_some hheld.1, if_pos ((hramp c.printCh hheld.1).mp hfits), if_pos ?_]
        rw [Bool.or_eq_true, Bool.not_eq_true']
        exact hheld.2.imp hprinting.mp (hmoves c.printCh).mp
    · refine load_refused (by rfl) (by rfl) h hq (fun hn => if_pos ?_) fun hfits hheld => ?_
      · rw [← Nat.not_le, ← not_and_or]
        exact hn
      · rw [if_neg fun k => k.elim (fun k => k hfits.1) fun k => Nat.not_lt.mpr hfits.2 k, if_pos (hprinting.mp hheld)]
    · refine load_refused (by rfl) (by rfl) h hq (fun hn => if_pos ?_) fun _ hheld => hheld.elim
      rw [← Bool.not_eq_true, parkDefined_iff, ← Nat.not_le, ← not_and_or]
      exact hn
    · refine load_refused (by rfl) (by rfl) h hq (fun hn => ?_) fun _ hheld => hheld.elim
      by_cases hplace : d.length % 3 ≠ 0 ∨ 4 < off + d.length / 3
      · exact if_pos hplace
      · have hlen3 : d.length % 3 = 0 ∧ off + d.length / 3 ≤ 4 := by omega
        have hnone : wakeEntriesOf d = none := by
          rw [← Option.not_isSome_iff_eq_none, wakeEntriesOf_isSome hlen3.1]
          exact fun k => hn ⟨hlen3.1, hlen3.2, k⟩
        rw [if_neg hplace, hnone]
  · intro x sent hd
    obtain ⟨-, -, hoff, -⟩ := (rampFits_iff ramp off d).mp hfits
    have hword (i : Nat) (hi : i < d.length / 2) : (wordsOf d).getD i 0 = sent i := by
      rw [List.getD_eq_getElem?_getD, wordsOf_getElem?, if_pos hi]
      rfl
    have hlength : x.1.length = off + d.length / 2 := by
      rw [← wordsOf_length]
      exact loadedRamp_length hoff
    refine ⟨hlength, fun i hi => loadedRamp_getD_low hoff hi, fun i hi => ?_, ?_⟩
    · rw [← hword i hi]
      exact loadedRamp_entry hoff (by rw [wordsOf_length]; exact hi)
    · have hsame : x.1 = ramp.take off ++ wordsOf d ↔ ∀ i < d.length / 2, x.1.getD (off + i) 0 = sent i := by
        have htake : (ramp.take off).length = off := by simp [hoff]
        rw [eq_iff_getD hlength (by simp only [List.length_append, htake, wordsOf_length])]
        obtain ⟨hlow, hhigh⟩ := append_getD (ys := wordsOf d) htake
        constructor
        · intro k i hi
          rw [k (off + i) (by omega), Nat.add_comm, hhigh, hword i hi]
        · intro k i hi
          by_cases hcase : i < off
          · rw [hlow i hcase, getD_of_getElem? (List.getElem?_take_of_lt hcase) 0]
            exact loadedRamp_getD_low hoff hcase
          · obtain ⟨j, rfl⟩ := Nat.exists_eq_add_of_le (Nat.le_of_not_lt hcase)
            rw [k j (by omega), Nat.add_comm off j, hhigh, hword j (by omega)]
      show loadAnswer (decide (x.1 = ramp.take off ++ wordsOf d)) = _
      by_cases hall : ∀ i < d.length / 2, x.1.getD (off + i) 0 = sent i
      · rw [if_pos hall, decide_eq_true (hsame.mpr hall)]
        rfl
      · rw [if_neg hall, decide_eq_false (mt hsame.mp hall)]
        rfl
  · intro x loaded
    refine ⟨fun hnone => ?_, fun hnew => applyHeat_entries h7 h8 hfits hnew⟩
    simp only [x, hnone]
    rfl
  · intro t
    obtain ⟨⟨wake, sources, hwhole⟩, houtside, hinside⟩ := writeWakes_entries off es c hfits hw hs
    refine ⟨?_, houtside, fun i old new d hlow hold hnew hd => ?_⟩
    · simp only [t, hwhole]
    · obtain ⟨hwake, hsources⟩ := hinside i old new d hlow hold hnew hd
      have hi : i < 4 := hw ▸ (List.getElem?_eq_some_iff.mp hold).1
      rw [pinLevel_eq c.pins hi] at hsources
      refine ⟨hwake, fun hchange => hsources.trans ?_, fun hsame hoff => hsources.trans ?_, fun hsame hon hwas => hsources.trans ?_⟩
      · exact congrArg some (if_pos hchange)
      · unfold rewrite
        rw [if_neg (by rw [hsame, hoff]; simp), if_pos hoff]
      · unfold rewrite
        rw [if_neg (by rw [hsame, hwas]; simp), if_neg (by rw [hon]; decide)]

end Sys2Proof.Proofs
end

section
/-!
PROOFS. STATUS REQUEST (10_the_page_link.md R186) and the STATUS payload (11_record_and_format_reference.md 11.4).
-/

-- One declaration after another: the package as one text keeps within the check's limit on threads.
set_option Elab.async false

namespace Sys2Proof.Proofs

open Sys2Proof Sys2Proof.Machine

/-! ## The records of STATUS REQUEST -/

/-- The admission of a record begins a pulse in PULSE mode with LSEL released alone. -/
theorem queueRecord_pulse (x : Report) (c : Chip) : ∃ n, queueRecord x c =
      { c with link := { c.link with reports := c.link.reports ++ [x], atnLeft := n } } ∧
    (c.link.pulseMode = false ∨ c.link.selected = true → n = c.link.atnLeft) := by
  unfold queueRecord recordReady
  split
  next hpulse =>
    refine ⟨_, rfl, ?_⟩
    rintro (hmode | hsel) <;> simp_all
  next => exact ⟨_, rfl, fun _ => rfl⟩

/-- A condition on the context alone reports the halts route by route. -/
theorem markReported_all (p : Ctx → Bool) (c : Chip) : markReported (fun _ => p) c =
    { c with routes := c.routes.map fun x => match x.ctx with
      | some y => if p y then { x with haltReported := true } else x
      | none => x } := by
  unfold markReported
  congr 1
  refine List.ext_getElem (by simp) fun i _ _ => ?_
  simp only [List.getElem_map, List.getElem_zip, List.getElem_range] <;> rfl

theorem statusPayload_link_congr {c d : Chip} (h : c = { d with link := c.link }) (hlost : c.link.eventsLost = d.link.eventsLost)
    (hmode : c.link.pulseMode = d.link.pulseMode) : statusPayload c = statusPayload d := by
  rw [h]
  unfold statusPayload
  simp only [hlost, hmode]
  rfl

/-- The chip that STATUS REQUEST leaves, up to the attention pulse. -/
theorem queueStatus_reply (p : List Byte) (c : Chip) : ∃ n, queueStatus (reply p .accepted c) =
      { c with
        routes := c.routes.map fun x => match x.ctx with
          | some y => if y.halt.isSome then { x with haltReported := true } else x
          | none => x,
        link := { c.link with reports := c.link.reports ++ [.reply (refOf p) .accepted, .status (statusPayload c)],
                              eventsLost := false, atnLeft := n } } ∧
    (c.link.pulseMode = false ∨ c.link.selected = true → n = c.link.atnLeft) := by
  obtain ⟨first, hreply, hfirst⟩ := queueRecord_pulse (.reply (refOf p) .accepted) c
  have hshown : statusPayload (reply p .accepted c) = statusPayload c := by
    unfold reply
    rw [hreply]
    exact statusPayload_link_congr rfl rfl rfl
  obtain ⟨second, hstatus, hsecond⟩ := queueRecord_pulse (.status (statusPayload c)) (reply p .accepted c)
  have hatn : (reply p .accepted c).link.atnLeft = first := by unfold reply; rw [hreply]
  refine ⟨second, ?_, fun hquiet => ?_⟩
  · unfold queueStatus
    rw [hshown, hstatus]
    unfold reply
    rw [hreply]
    simp only [markReported_all, List.append_assoc, List.cons_append, List.nil_append]
  · rw [hsecond (by simpa using hquiet), hatn, hfirst hquiet]

theorem exec_statusRequest (p : List Byte) (doce papx : Bool) (s : State) :
    exec (.statusRequest p doce papx) s = .next (arrive (.statusRequest p doce papx) (ownedChip p (statusChip p doce papx)) s) := rfl

/-! ## The payload (11.4) -/

/-- Two bytes of a number spell it below 65,536. -/
theorem ofLe_leBytes_two (n : Nat) : ofLe (leBytes 2 n) = n % 65536 := by
  simp only [leBytes_two, ofLe, byteOf, BitVec.toNat_ofNat]
  omega

theorem byteOf_toNat_mod (n : Nat) : (byteOf n).toNat = n % 256 := by simp [byteOf]

theorem yesNo_toNat (b : Bool) : (yesNo b).toNat = if b then 1 else 0 := by cases b <;> rfl

/-- The lines done that a STATUS payload shows of a route. -/
def shownLines (x : Route) : Nat := match x.ctx with | some c => c.linesDone | none => 0

theorem statusRoute_eq (x : Route) : statusRoute x =
    [x.state.code, x.reason.code, byteOf x.pagesDone, byteOf (x.pagesDone / 256), byteOf (shownLines x), byteOf (shownLines x / 256)] := rfl

/-- The bytes of a payload behind its routes. -/
def statusTail (c : Chip) : List Byte :=
  [(shownState c).code,
   bitByte [c.store.programFault, c.store.eraseFault, c.store.sequenceFault, c.store.protectionFault],
   byteOf c.store.erasedList.length, byteOf c.store.eraseQueue.length, byteOf c.store.dir.length,
   serviceCode c.prot.service, byteOf c.prot.failures,
   bitByte [c.pins.docp, c.pins.doce, c.pins.papp, c.pins.papx, c.pins.cover],
   yesNo (tripped c), byteOf c.head.band, yesNo c.link.eventsLost, yesNo c.link.pulseMode]

theorem statusPayload_eq (c : Chip) : statusPayload c =
    powerCode c.power.state :: (statusRoute (getRoute c 0) ++ (statusRoute (getRoute c 1) ++ (statusRoute (getRoute c 2) ++
      (statusRoute (getRoute c 3) ++ statusTail c)))) := rfl

theorem statusPayload_route (c : Chip) {r : Nat} (h : r ≤ 3) : ∃ more,
    (statusPayload c).drop (1 + 6 * r) = statusRoute (getRoute c r) ++ more := by
  interval_cases r
  · exact ⟨_, rfl⟩
  · exact ⟨_, rfl⟩
  · exact ⟨_, rfl⟩
  · exact ⟨_, rfl⟩

theorem byteAt_add (v : List Byte) (i j : Nat) : byteAt v (i + j) = byteAt (v.drop i) j := by
  simp [byteAt, List.getD_eq_getElem?_getD, List.getElem?_drop]

theorem numAt_add (v : List Byte) (i j w : Nat) : numAt v (i + j) w = numAt (v.drop i) j w := by
  simp [numAt, List.drop_drop]

/-- The bits of a flag byte are its flags. -/
theorem bitByte_four (a b c d : Bool) : (bitByte [a, b, c, d]).getLsbD 0 = a ∧ (bitByte [a, b, c, d]).getLsbD 1 = b ∧
    (bitByte [a, b, c, d]).getLsbD 2 = c ∧ (bitByte [a, b, c, d]).getLsbD 3 = d ∧ (bitByte [a, b, c, d]).toNat < 16 := by
  revert a b c d
  decide

theorem bitByte_five (a b c d e : Bool) : (bitByte [a, b, c, d, e]).getLsbD 0 = a ∧ (bitByte [a, b, c, d, e]).getLsbD 1 = b ∧
    (bitByte [a, b, c, d, e]).getLsbD 2 = c ∧ (bitByte [a, b, c, d, e]).getLsbD 3 = d ∧ (bitByte [a, b, c, d, e]).getLsbD 4 = e ∧
    (bitByte [a, b, c, d, e]).toNat < 32 := by
  revert a b c d e
  decide

/-- The six bytes of a route. -/
theorem statusPayload_routeFields (c : Chip) {r : Nat} (h : r ≤ 3) :
    byteAt (statusPayload c) (1 + 6 * r) = (getRoute c r).state.code ∧ byteAt (statusPayload c) (2 + 6 * r) = (getRoute c r).reason.code ∧
      numAt (statusPayload c) (3 + 6 * r) 2 = (getRoute c r).pagesDone % 65536 ∧
      numAt (statusPayload c) (5 + 6 * r) 2 = shownLines (getRoute c r) % 65536 := by
  obtain ⟨more, hdrop⟩ := statusPayload_route c h
  have hbyte : ∀ j, byteAt (statusPayload c) (1 + 6 * r + j) = byteAt (statusRoute (getRoute c r) ++ more) j := fun j => by
    rw [byteAt_add, hdrop]
  have hnum : ∀ j, numAt (statusPayload c) (1 + 6 * r + j) 2 = numAt (statusRoute (getRoute c r) ++ more) j 2 := fun j => by
    rw [numAt_add, hdrop]
  refine ⟨hbyte 0, ?_, ?_, ?_⟩
  · rw [show 2 + 6 * r = 1 + 6 * r + 1 by omega, hbyte]
    rfl
  · rw [show 3 + 6 * r = 1 + 6 * r + 2 by omega, hnum, ← ofLe_leBytes_two]
    rfl
  · rw [show 5 + 6 * r = 1 + 6 * r + 4 by omega, hnum, ← ofLe_leBytes_two]
    rfl

theorem shownLines_of_none {c : Chip} {r : Nat} (h : ctxOf c r = none) : shownLines (getRoute c r) = 0 := by
  unfold shownLines
  rw [show (getRoute c r).ctx = none from h]

theorem shownLines_of_some {c : Chip} {r : Nat} {x : Ctx} (h : ctxOf c r = some x) : shownLines (getRoute c r) = x.linesDone := by
  unfold shownLines
  rw [show (getRoute c r).ctx = some x from h]

/-! ## The states shown (R12, R108, R166) -/

/-- The state and reason of a route with a context, in the order of R12. -/
theorem route_shown {x : Route} {y : Ctx} (h : x.ctx = some y) :
    (∀ h, y.halt = some h → x.state = .halted ∧ x.reason = match h with | .interlock => .interlock | .jam => .jam) ∧
    (y.halt = none → y.begun = false → x.state = .opened ∧ x.reason = .none_) ∧
    (∀ k more, y.halt = none → y.begun = true → y.stalls = k :: more →
      x.state = .stalled ∧ x.reason = match k with | .paperOut => .paperOut | .storeWait => .storeWait) ∧
    (y.halt = none → y.begun = true → y.stalls = [] → x.state = (if y.closeReq then .draining else .running) ∧ x.reason = .none_) := by
  unfold Route.state Route.reason
  refine ⟨fun cause hhalt => ?_, fun hhalt hbegun => ?_, fun k more hhalt hbegun hstalls => ?_, fun hhalt hbegun hstalls => ?_⟩
  · cases cause <;> simp [h, hhalt]
  · simp [h, hhalt, hbegun]
  · cases k <;> simp [h, hhalt, hbegun, hstalls]
  · simp [h, hhalt, hbegun, hstalls]

theorem checkReading_iff (c : Chip) : checkReading c = true ↔
    c.boot.check.isSome = true ∧ (c.store.holder = some .imageRead ∨ Job.imageRead ∈ c.store.reads) := by
  simp [checkReading]

/-- With an operation of its own the store shows that operation. -/
theorem shownState_of_op {c : Chip} (h : c.store.op ≠ .none) : shownState c = storeState c.store := if_neg fun hop => h hop.1

/-- Without one, and without the reads of an image check, the store shows the state of R108. -/
theorem shownState_of_unchecked {c : Chip} (h : checkReading c ≠ true) : shownState c = storeState c.store := if_neg fun hop => h hop.2

theorem storeState_suspended {s : Store} {e : EraseProg} {v : Bool} (hop : s.op = .none) (he : s.erase = some e) (hphase : e.phase = .suspended v) :
    storeState s = .eraseSuspended := by
  simp [storeState, hop, he, hphase]

theorem storeState_holder {s : Store} {j : Job} (hop : s.op = .none) (hrun : ¬ ∃ e v, s.erase = some e ∧ e.phase = .suspended v)
    (hj : s.holder = some j) : storeState s = if j.isRead then .reading else .programming := by
  unfold storeState
  rw [hop, hj]
  cases he : s.erase with
  | none => rfl
  | some e =>
    cases hphase : e.phase <;> simp [hphase]
    exact absurd ⟨e, _, he, hphase⟩ hrun

theorem storeState_erasing {s : Store} {e : EraseProg} (hop : s.op = .none) (hrun : ¬ ∃ e v, s.erase = some e ∧ e.phase = .suspended v)
    (hj : s.holder = none) (he : s.erase = some e) (hphase : e.phase ≠ .queued) : storeState s = .erasing := by
  unfold storeState
  rw [hop, hj, he]
  cases hp : e.phase <;> simp [hp]
  · exact hphase hp
  · exact hrun ⟨e, _, he, hp⟩

theorem storeState_idle_queued {s : Store} (hop : s.op = .none) (hj : s.holder = none) (he : ∀ e, s.erase = some e → e.phase = .queued) :
    storeState s = .idle := by
  unfold storeState
  rw [hop, hj]
  cases hs : s.erase with
  | none => rfl
  | some e => simp [he e hs]

theorem isRead_iff (j : Job) : j.isRead = true ↔ j = .lineRead ∨ j = .relocRead ∨ j = .imageRead := by cases j <;> simp [Job.isRead]

/-- Settles O30, by the two records that STATUS REQUEST queues, the layout of its payload, and the cases of R12 and R108. -/
theorem statusReportsThePart : Obligations.StatusReportsThePart := by
  unfold Obligations.StatusReportsThePart
  refine ⟨fun p doce papx s htaken hp => ?_, fun p doce papx s htaken hne hlen => ?_, fun c => ?_, fun x => ⟨fun hx => ?_, fun y hy => route_shown hy⟩,
    fun c => ?_, by decide⟩
  · intro c shown
    obtain ⟨n, hqueued, hquiet⟩ := queueStatus_reply p shown
    have hexec := exec_owned_length (exec_statusRequest p doce papx s) htaken hp
    obtain rfl : n = (queueStatus (reply p .accepted shown)).link.atnLeft := by rw [hqueued]
    exact ⟨_, hexec, rfl, rfl, hqueued, hquiet⟩
  · exact (exec_owned (exec_statusRequest p doce papx s) htaken hne).trans (by unfold statusChip; rw [withLength_of_ne hlen])
  · intro v
    refine ⟨rfl, rfl, fun r hr => ?_, rfl, bitByte_four _ _ _ _, ⟨byteOf_toNat_mod _, byteOf_toNat_mod _, byteOf_toNat_mod _⟩, rfl,
      byteOf_toNat_mod _, bitByte_five _ _ _ _ _, ?_, byteOf_toNat_mod _, yesNo_toNat _, yesNo_toNat _⟩
    · obtain ⟨hstate, hreason, hpages, hlines⟩ := statusPayload_routeFields c hr
      refine ⟨hstate, hreason, hpages, fun hnone => ?_, fun x hx => ?_⟩
      · rw [hlines, shownLines_of_none hnone]
      · rw [hlines, shownLines_of_some hx]
    · exact (yesNo_toNat (tripped c)).trans (by simp [tripped])
  · unfold Route.state Route.reason
    simp [hx]
  · intro checks suspended
    have hchecks : checkReading c = true ↔ checks := checkReading_iff c
    refine ⟨fun hop => ?_, fun v hop => ?_, fun hop => ?_, fun hop => ⟨fun hread => if_pos ⟨hop, hchecks.mpr hread⟩, fun hread hsusp => ?_,
      fun j hread hrun hj => ?_, fun e hread hrun hj he hphase => ?_, fun hread hj he => ?_⟩⟩
    · rw [shownState_of_op (by simp [hop])]
      simp [storeState, hop]
    · rw [shownState_of_op (by simp [hop])]
      simp [storeState, hop]
    · rw [shownState_of_op (by rcases hop with h | h | h <;> simp [h])]
      rcases hop with h | h | h <;> simp [storeState, h]
    · obtain ⟨e, v, he, hphase⟩ := hsusp
      rw [shownState_of_unchecked (mt hchecks.mp hread), storeState_suspended hop he hphase]
    · rw [shownState_of_unchecked (mt hchecks.mp hread), storeState_holder hop hrun hj]
      simp only [isRead_iff]
    · rw [shownState_of_unchecked (mt hchecks.mp hread), storeState_erasing hop hrun hj he hphase]
    · rw [shownState_of_unchecked (mt hchecks.mp hread), storeState_idle_queued hop hj he]

end Sys2Proof.Proofs
end

section
/-!
PROOFS. The Boot Server's reads (09_host_boot.md): BOOT FETCH (R167, R169), the reads of a chunk, and the image check (R166).
-/

-- One declaration after another: the package as one text keeps within the check's limit on threads.
set_option Elab.async false

namespace Sys2Proof.Proofs

open Sys2Proof Sys2Proof.Machine

/-! ## BOOT FETCH (R167 to R169) -/

theorem exec_bootFetch (p : List Byte) (s : State) :
    exec (.bootFetch p) s = .next (arrive (.bootFetch p) (ownedChip p (bootFetchChip p)) s) := rfl

theorem bootFetchChip_idle {p : List Byte} {c : Chip} (hp : p.length = 3) (h : c.boot.state ≠ .serving) :
    bootFetchChip p c = refuse p .sequence c := by
  simp [bootFetchChip, withLength, hp, h]

theorem bootFetchChip_busy {p : List Byte} {c : Chip} (hp : p.length = 3) (hserving : c.boot.state = .serving)
    (hchunk : c.boot.chunk.isSome = true) : bootFetchChip p c = refuse p .busy c := by
  simp [bootFetchChip, withLength, hp, hserving, hchunk]

theorem bootFetchChip_absent {p : List Byte} {c : Chip} (hp : p.length = 3) (hserving : c.boot.state = .serving)
    (hchunk : c.boot.chunk = none) (hresult : c.boot.result ≠ .valid) : bootFetchChip p c = endAbsent (reply p .accepted c) := by
  simp [bootFetchChip, withLength, hp, hserving, hchunk, hresult]

theorem bootFetchChip_chunk {p : List Byte} {c : Chip} (hp : p.length = 3) (hserving : c.boot.state = .serving)
    (hchunk : c.boot.chunk = none) (hvalid : c.boot.result = .valid) (hlow : numAt p 1 2 * 128 < c.boot.length.getD 0) :
    bootFetchChip p c = askRead .imageRead { reply p .accepted c with
      boot := { c.boot with chunk := some ⟨numAt p 1 2, numAt p 1 2 * 128 / 216, [], 0⟩ } } := by
  simp [bootFetchChip, withLength, hp, hserving, hchunk, hvalid, hlow]
  rfl

/-- A fetch of another length, the empty one too, is MALFORMED (R190). -/
theorem exec_bootFetch_malformed {p : List Byte} {s : State} (h : Taken s) (hp : p.length ≠ 3) :
    exec (.bootFetch p) s = .next (s.withChip (refuse p .malformed (streamRules (.bootFetch p) s.chip))) := by
  cases p with
  | nil => rw [exec_bootFetch, ownedChip_empty h]
  | cons b bs =>
    rw [exec_owned (exec_bootFetch (b :: bs) s) h (List.cons_ne_nil b bs)]
    unfold bootFetchChip
    rw [withLength_of_ne hp]

/-! ## Serving ends without an image (R169) -/

/-- BOOT END (ABSENT), and ABSENT is entered; the pending report is still to come. -/
def absentEnded (c : Chip) : Chip :=
  queueRecord (.bootEnd false (some c.boot.result.why) 0 0) { c with boot := { c.boot with state := .absent } }

theorem endAbsent_eq (c : Chip) : endAbsent c = queuePending (absentEnded c) := rfl

theorem endAbsent_boot (c : Chip) : (endAbsent c).boot = { c.boot with state := .absent, report := none } := by
  simp [endAbsent_eq, absentEnded]

theorem endAbsent_pool (c : Chip) : (endAbsent c).pool = c.pool := by simp [endAbsent_eq, absentEnded]

theorem endAbsent_store (c : Chip) : (endAbsent c).store = c.store := by simp [endAbsent_eq, absentEnded]

theorem endAbsent_prot (c : Chip) : (endAbsent c).prot = c.prot := by simp [endAbsent_eq, absentEnded]

theorem endAbsent_reports (c : Chip) :
    c.link.reports ++ [.bootEnd false (some c.boot.result.why) 0 0] <+: (endAbsent c).link.reports := by
  have hended : (absentEnded c).link.reports = c.link.reports ++ [.bootEnd false (some c.boot.result.why) 0 0] := queueRecord_reports _ _
  rw [endAbsent_eq, ← hended]
  exact reports_prefix_queuePending _

/-- A fetch with no valid image leaves REPLY and BOOT END first behind the records that wait. -/
theorem absentFetch_reports (p : List Byte) (c : Chip) :
    (endAbsent (reply p .accepted c)).link.reports.take (c.link.reports.length + 2) = c.link.reports ++
      [.reply (refOf p) .accepted, .bootEnd false (some c.boot.result.why) 0 0] := by
  have hprefix := endAbsent_reports (reply p .accepted c)
  simp only [reply_reports, reply_boot, List.append_assoc, List.cons_append, List.nil_append] at hprefix
  simpa using (List.prefix_iff_eq_take.mp hprefix).symm

/-! ## The end of an image read -/

theorem exec_imageReadEnd {s : State} (h : s.chip.store.holder = some .imageRead) :
    exec .imageReadEnd s = .next (s.withChip (freeFlash (settleAll (imageReadDone s.flash.mem s.chip)))) :=
  congrArg Host.Outcome.next (if_pos h)

theorem exec_imageReadEnd_idle {s : State} (h : s.chip.store.holder ≠ some .imageRead) : exec .imageReadEnd s = .next s :=
  congrArg Host.Outcome.next (if_neg h)

theorem endInstall_prot (res : OpResult) (c : Chip) : (endInstall res c).prot = c.prot := by
  unfold endInstall
  split
  · rfl
  · simp

theorem checkEnds_prot (res : ImageResult) (c : Chip) : (checkEnds res c).prot = c.prot := by
  unfold checkEnds
  dsimp only
  split
  · split
    · rw [endInstall_prot]
    · split
      · simp
      · rw [endInstall_prot]
  · rfl

theorem checkRead_prot (m : List Host.Cell) (k : Check) (c : Chip) : (checkRead m k c).prot = c.prot := by
  unfold checkRead
  dsimp only
  split
  · split
    · rw [checkEnds_prot]
    · simp
  · rw [checkEnds_prot]
  · split
    · rw [checkEnds_prot]
    · simp

theorem chunkRead_prot (m : List Host.Cell) (k : Chunk) (c : Chip) : (chunkRead m k c).prot = c.prot := by
  unfold chunkRead chunkFails
  dsimp only
  split
  · split
    · rw [endAbsent_prot]
    · simp
  · rw [endAbsent_prot]
  · split
    · simp
    · simp

theorem imageReadDone_prot (m : List Host.Cell) (c : Chip) : (imageReadDone m c).prot = c.prot := by
  unfold imageReadDone
  split
  · exact checkRead_prot _ _ _
  · exact chunkRead_prot _ _ _
  · rfl

/-! ## The reads of a chunk (R167) -/

theorem imageReadDone_chunk {m : List Host.Cell} {k : Chunk} {raw : List Byte} {c : Chip} (hcheck : c.boot.check = none)
    (hchunk : c.boot.chunk = some k) (hraw : imageBytes m c (c.boot.installed.getD 0) k.line = some (some raw)) : imageReadDone m c =
    let want := min 128 (c.boot.length.getD 0 - k.number * 128)
    let bs := k.bytes ++ (raw.drop (k.number * 128 + k.bytes.length - k.line * 216)).take (want - k.bytes.length)
    if want ≤ bs.length then queueRecord (.bootChunk k.number bs) { c with boot := { c.boot with chunk := none } }
    else askRead .imageRead { c with boot := { c.boot with chunk := some { k with line := k.line + 1, bytes := bs, attempts := 0 } } } := by
  unfold imageReadDone
  rw [hcheck, hchunk]
  show chunkRead m k c = _
  unfold chunkRead
  rw [hraw]
  rfl

/-! ## The image check (R166) -/

theorem sumBytes_eq {s : Nat} (hs : s < 65536) (bs : List Byte) : sumBytes s bs = (s + (bs.map BitVec.toNat).sum) % 65536 := by
  induction bs generalizing s with
  | nil => exact (Nat.mod_eq_of_lt hs).symm
  | cons b bs ih =>
    have hstep : sumBytes s (b :: bs) = sumBytes ((s + b.toNat) % 65536) bs := rfl
    rw [hstep, ih (Nat.mod_lt _ (by omega)), List.map_cons, List.sum_cons]
    omega

theorem checkEnds_plain {c : Chip} (h : c.boot.install = none) (res : ImageResult) :
    checkEnds res c = { c with boot := { c.boot with check := none, result := res } } := by
  unfold checkEnds
  dsimp only
  rw [h]

theorem badLength_iff (length lines : Nat) : badLength length lines = true ↔ length = 0 ∨ lines * 216 < length ∨ 8388480 < length := by
  unfold badLength
  exact decide_eq_true_iff

theorem startCheck_page {id length sum : Nat} {c : Chip} {pg : Page} (h : pageOf c id = some pg) : startCheck id length sum c =
    if badLength length pg.lines then checkEnds (.absent .length) c
    else askRead .imageRead { c with boot := { c.boot with check := some ⟨id, length, sum, 0, 0, 0, 0⟩ } } := by
  unfold startCheck
  rw [h]

theorem imageReadDone_check {m : List Host.Cell} {k : Check} {c : Chip} (h : c.boot.check = some k) : imageReadDone m c = checkRead m k c := by
  unfold imageReadDone
  rw [h]

/-- An entry that cannot be read: the third attempt ends the check. -/
theorem checkRead_unread {m : List Host.Cell} {k : Check} {c : Chip} (h : imageBytes m c k.page k.line = none) : checkRead m k c =
    if 3 ≤ k.attempts + 1 then checkEnds (.absent .unreadable) c
    else askRead .imageRead { c with boot := { c.boot with check := some { k with attempts := k.attempts + 1 } } } := by
  unfold checkRead
  rw [h]

theorem checkRead_repaired {m : List Host.Cell} {k : Check} {c : Chip} (h : imageBytes m c k.page k.line = some none) :
    checkRead m k c = checkEnds (.absent .unreadable) c := by
  unfold checkRead
  rw [h]

theorem checkRead_bytes {m : List Host.Cell} {k : Check} {raw : List Byte} {c : Chip} (h : imageBytes m c k.page k.line = some (some raw))
    (hsum : k.sum < 65536) : checkRead m k c =
      let bs := raw.take (k.length - k.counted)
      let sum := (k.sum + (bs.map BitVec.toNat).sum) % 65536
      if k.length ≤ k.counted + bs.length then checkEnds (if sum = k.checksum then .valid else .absent .checksum) c
      else askRead .imageRead { c with boot := { c.boot with
        check := some { k with line := k.line + 1, counted := k.counted + bs.length, sum := sum, attempts := 0 } } } := by
  unfold checkRead
  rw [h]
  dsimp only
  rw [sumBytes_eq hsum]

theorem selectBoot_unmarked {m : List Host.Cell} {c : Chip} (h : ∀ pg ∈ c.store.dir, marked m pg = false) : selectBoot m c =
    { c with boot := { c.boot with installed := none, length := none, checksum := none, result := .absent .none_ } } := by
  have hnone : c.store.dir.filter (marked m) = [] := List.filter_eq_nil_iff.mpr fun pg hpg => by simp [h pg hpg]
  unfold selectBoot
  rw [hnone]
  rfl

/-- Settles O46, by the branches of R167 for a fetch and of R166 for a read of the check. -/
theorem bootFetchServesChunks : Obligations.BootFetchServesChunks := by
  unfold Obligations.BootFetchServesChunks
  refine ⟨fun p s htaken hp => ?_, fun s hholder => ?_, fun s hholder => exec_imageReadEnd_idle hholder, fun m k raw c hcheck hchunk hraw => ?_,
    fun p s htaken hp => ?_, fun m c hdir => selectBoot_unmarked hdir, fun id length sum pg c hinst hpage => ?_, fun m k c hcheck hinst => ?_⟩
  · intro c
    have hexec := exec_bootFetch_taken htaken hp
    refine ⟨fun hstate => ?_, fun hserving hchunk => ?_, fun hserving hchunk hresult => ⟨_, hexec, ?_⟩, fun hserving hchunk hvalid hlow => ?_⟩
    · rw [hexec, bootFetchChip_idle hp hstate]
    · rw [hexec, bootFetchChip_busy hp hserving hchunk]
    · rw [bootFetchChip_absent hp hserving hchunk hresult]
      exact ⟨by simp [endAbsent_boot, c], absentFetch_reports p c, by simp [endAbsent_pool, c], by simp [endAbsent_store, c], rfl⟩
    · rw [hexec, bootFetchChip_chunk hp hserving hchunk hvalid hlow]
  · have hkept := freeFlash_kept (settleAll_kept (Kept.rfl (c := imageReadDone s.flash.mem s.chip)))
    obtain ⟨hloaded, -, -, -, hprot, -⟩ := backdrop_parts hkept.1
    exact ⟨_, exec_imageReadEnd hholder, rfl, hloaded.trans (imageReadDone_loaded .rfl _).1, hprot.trans (imageReadDone_prot _ _)⟩
  · intro want bs
    have hdone := imageReadDone_chunk hcheck hchunk hraw
    exact ⟨fun hlong => hdone.trans (if_pos hlong), fun hshort => hdone.trans (if_neg (Nat.not_le.mpr hshort))⟩
  · exact exec_bootFetch_malformed htaken hp
  · rw [startCheck_page hpage, checkEnds_plain hinst]
    refine ⟨fun hbad => if_pos ((badLength_iff _ _).mpr hbad), fun hpos hlines hmax => if_neg fun hbad => ?_⟩
    rcases (badLength_iff _ _).mp hbad with h | h | h <;> omega
  · intro ends goesOn
    have hends : ∀ res, imageReadDone m c = checkEnds res c → ends res := fun res h => h.trans (checkEnds_plain hinst res)
    refine ⟨fun hunread => ?_, fun hrepaired => ?_, fun raw hraw hsum => ?_⟩
    · have hdone := (imageReadDone_check (m := m) hcheck).trans (checkRead_unread hunread)
      exact ⟨fun hlast => hends _ (hdone.trans (if_pos (by omega))), fun hmore => hdone.trans (if_neg (by omega))⟩
    · exact hends _ ((imageReadDone_check hcheck).trans (checkRead_repaired hrepaired))
    · intro bs sum
      have hdone := (imageReadDone_check (m := m) hcheck).trans (checkRead_bytes hraw hsum)
      exact ⟨fun hall => hends _ (hdone.trans (if_pos hall)), fun hmore => hdone.trans (if_neg (Nat.not_le.mpr hmore))⟩

end Sys2Proof.Proofs
end

section
/-!
PROOFS. Lines and page marks placed on the sink queues (01_line_pool_and_routes.md R4, R14), and the line reads of a STORE-source route
(R20, 06_page_store.md R118).
-/

-- One declaration after another: the package as one text keeps within the check's limit on threads.
set_option Elab.async false

namespace Sys2Proof.Proofs

open Sys2Proof Sys2Proof.Machine

/-! ## An entry on the queues -/

/-- The copies of an entry that a queue takes, one for each time its sink is named. -/
def pushed (sinks : List Sink) (k : Sink) (e : Entry) : List Entry := List.replicate (sinks.count k) e

/-- An entry joins the queues of the sinks named, and nothing else of the context changes. -/
theorem push_eq (x : Ctx) (e : Entry) : x.push e = { x with
    printQ := x.printQ ++ pushed x.sinks .print e, linkQ := x.linkQ ++ pushed x.sinks .link e,
    storeQ := x.storeQ ++ pushed x.sinks .store e } := by
  have hfold : ∀ (ks : List Sink) (y : Ctx), ks.foldl (fun y k => y.setQueue k (y.queue k ++ [e])) y = { y with
      printQ := y.printQ ++ pushed ks .print e, linkQ := y.linkQ ++ pushed ks .link e, storeQ := y.storeQ ++ pushed ks .store e } := by
    intro ks
    induction ks with
    | nil => intro y; simp [pushed]
    | cons k ks ih =>
      intro y
      rw [List.foldl_cons, ih]
      cases k <;> simp [pushed, Ctx.setQueue, Ctx.queue, List.replicate_succ]
  exact hfold x.sinks x

theorem hasRoom_congr {x y : Ctx} (hs : y.sinks = x.sinks) (hp : y.printQ = x.printQ) (hl : y.linkQ = x.linkQ) (hq : y.storeQ = x.storeQ) :
    hasRoom y = hasRoom x := by
  have hqueue : ∀ k, y.queue k = x.queue k := fun k => by cases k <;> assumption
  unfold hasRoom
  simp only [hs, hqueue]

/-- The context of a route with an entry placed (R14): on its queues, or in its hold. -/
def placed (e : Entry) (x : Ctx) : Ctx := if x.hold.isEmpty && hasRoom x then x.push e else { x with hold := x.hold ++ [e] }

theorem placed_room {x : Ctx} (hhold : x.hold = []) (hroom : hasRoom x = true) (e : Entry) : placed e x = x.push e :=
  if_pos (by simp [hhold, hroom])

theorem placed_wait {x : Ctx} (h : x.hold ≠ [] ∨ hasRoom x = false) (e : Entry) : placed e x = { x with hold := x.hold ++ [e] } := by
  refine if_neg ?_
  rcases h with h | h <;> simp [h]

theorem enterQueues_line {c : Chip} {r : Nat} {x : Ctx} (h : ctxOf c r = some x) (l : LineEntry) : enterQueues r (.line l) c =
    setSlot l.slot (.held r x.sinks.length (lineOf c l.slot)) (modCtx r (fun x => x.push (.line l)) c) := by
  unfold enterQueues
  rw [h]
  dsimp only
  rw [show lineOf (modCtx r (fun x => x.push (.line l)) c) l.slot = lineOf c l.slot by unfold lineOf; rw [slotAt_modCtx]]

theorem enterQueues_mark {c : Chip} {r : Nat} {x : Ctx} (h : ctxOf c r = some x) (m : Mark) :
    enterQueues r (.mark m) c = modCtx r (fun x => x.push (.mark m)) c := by
  unfold enterQueues
  rw [h]

@[simp] theorem ctxOf_setSlot (n : Nat) (x : Slot) (c : Chip) (r : Nat) : ctxOf (setSlot n x c) r = ctxOf c r :=
  ctxOf_congr (by simp) r

theorem ctxOf_enterQueues {c : Chip} {r : Nat} {x : Ctx} (h : ctxOf c r = some x) (e : Entry) :
    ctxOf (enterQueues r e c) r = some (x.push e) := by
  cases e with
  | line l => rw [enterQueues_line h, ctxOf_setSlot, ctxOf_modCtx_self, h]; rfl
  | mark m => rw [enterQueues_mark h, ctxOf_modCtx_self, h]; rfl

theorem placeEntry_room {c : Chip} {r : Nat} {x : Ctx} (h : ctxOf c r = some x) (hhold : x.hold = []) (hroom : hasRoom x = true)
    (e : Entry) : placeEntry r e c = enterQueues r e c := by
  unfold placeEntry
  rw [h]
  exact if_pos (by simp [hhold, hroom])

theorem placeEntry_wait {c : Chip} {r : Nat} {x : Ctx} (h : ctxOf c r = some x) (hwait : x.hold ≠ [] ∨ hasRoom x = false)
    (e : Entry) : placeEntry r e c = modCtx r (fun x => { x with hold := x.hold ++ [e] }) c := by
  unfold placeEntry
  rw [h]
  refine if_neg ?_
  rcases hwait with k | k <;> simp [k]

theorem room_or_wait (x : Ctx) : (x.hold = [] ∧ hasRoom x = true) ∨ (x.hold ≠ [] ∨ hasRoom x = false) := by
  by_cases hhold : x.hold = []
  · cases hroom : hasRoom x with
    | true => exact .inl ⟨hhold, rfl⟩
    | false => exact .inr (.inr rfl)
  · exact .inr (.inl hhold)

theorem ctxOf_placeEntry {c : Chip} {r : Nat} {x : Ctx} (h : ctxOf c r = some x) (e : Entry) :
    ctxOf (placeEntry r e c) r = some (placed e x) := by
  rcases room_or_wait x with ⟨hhold, hroom⟩ | hwait
  · rw [placeEntry_room h hhold hroom, ctxOf_enterQueues h, placed_room hhold hroom]
  · rw [placeEntry_wait h hwait, ctxOf_modCtx_self, h, placed_wait hwait]
    rfl

/-- Entries come and go within the pool, the reports and the free list as they are. -/
theorem placeEntry_link (r : Nat) (e : Entry) (c : Chip) : (placeEntry r e c).link = c.link ∧
    (placeEntry r e c).pool.freeList = c.pool.freeList := by
  cases h : ctxOf c r with
  | none => unfold placeEntry; rw [h]; exact ⟨rfl, rfl⟩
  | some x =>
    rcases room_or_wait x with ⟨hhold, hroom⟩ | hwait
    · rw [placeEntry_room h hhold hroom]
      cases e with
      | line l => rw [enterQueues_line h]; unfold setSlot; split <;> simp
      | mark m => rw [enterQueues_mark h]; simp
    · rw [placeEntry_wait h hwait]
      simp

theorem slotAt_placeMark (r : Nat) (m : Mark) (c : Chip) (n : Nat) : slotAt (placeEntry r (.mark m) c) n = slotAt c n := by
  cases h : ctxOf c r with
  | none => unfold placeEntry; rw [h]
  | some x =>
    rcases room_or_wait x with ⟨hhold, hroom⟩ | hwait
    · rw [placeEntry_room h hhold hroom, enterQueues_mark h, slotAt_modCtx]
    · rw [placeEntry_wait h hwait, slotAt_modCtx]

/-- The line of a slot in filling becomes HELD as it enters the queues, and stays in filling in the hold. -/
theorem slotAt_placeLine {c : Chip} {r : Nat} {x : Ctx} {l : LineEntry} {line : Line} (h : ctxOf c r = some x)
    (hslot : slotAt c l.slot = .filling r (some line)) (n : Nat) : slotAt (placeEntry r (.line l) c) n =
      if l.slot = n then (if x.hold.isEmpty && hasRoom x then .held r x.sinks.length line else .filling r (some line)) else slotAt c n := by
  have hline : lineOf c l.slot = line := by unfold lineOf; rw [hslot]
  rcases room_or_wait x with ⟨hhold, hroom⟩ | hwait
  · rw [placeEntry_room h hhold hroom, enterQueues_line h, hline, slotAt_setSlot (by rw [slotAt_modCtx, hslot]; rfl)
      (by simpa using slotAt_lt (n := l.slot) (by rw [hslot]; simp)), slotAt_modCtx]
    simp [hhold, hroom]
  · have hno : (x.hold.isEmpty && hasRoom x) = false := by rcases hwait with k | k <;> simp [k]
    rw [placeEntry_wait h hwait, slotAt_modCtx, hno]
    split
    next hn => rw [← hn, hslot, if_neg Bool.false_ne_true]
    next => rfl

/-! ## Page ends (R14) -/

/-- The mark of a page end. -/
def endMark (cut : Bool) (x : Ctx) : Mark :=
  { tag := x.marks, lines := x.linesDone, repaired := x.repairedLines, truncated := cut, isPartial := x.partialNext, pageId := none }

/-- A context whose page has ended: its counts are 0 again. -/
def nextPage (x : Ctx) : Ctx := { x with linesDone := 0, repairedLines := 0, partialNext := false, marks := x.marks + 1 }

theorem pageEnd_empty {c : Chip} {r : Nat} {x : Ctx} (h : ctxOf c r = some x) (hlines : x.linesDone = 0) (cut : Bool) : pageEnd r cut c = c := by
  unfold pageEnd
  rw [h]
  exact if_pos hlines

theorem pageEnd_lines {c : Chip} {r : Nat} {x : Ctx} (h : ctxOf c r = some x) (hlines : x.linesDone ≠ 0) (cut : Bool) :
    pageEnd r cut c = placeEntry r (.mark (endMark cut x)) (modCtx r nextPage c) := by
  unfold pageEnd
  rw [h]
  exact if_neg hlines

theorem ctxOf_pageEnd {c : Chip} {r : Nat} {x : Ctx} (h : ctxOf c r = some x) (hlines : x.linesDone ≠ 0) (cut : Bool) :
    ctxOf (pageEnd r cut c) r = some (placed (.mark (endMark cut x)) (nextPage x)) := by
  rw [pageEnd_lines h hlines]
  exact ctxOf_placeEntry (by rw [ctxOf_modCtx_self, h]; rfl) _

theorem pageEnd_link (r : Nat) (cut : Bool) (c : Chip) : (pageEnd r cut c).link = c.link ∧ (pageEnd r cut c).pool.freeList = c.pool.freeList := by
  cases h : ctxOf c r with
  | none => unfold pageEnd; rw [h]; exact ⟨rfl, rfl⟩
  | some x =>
    by_cases hlines : x.linesDone = 0
    · rw [pageEnd_empty h hlines]
      exact ⟨rfl, rfl⟩
    · rw [pageEnd_lines h hlines]
      obtain ⟨hlink, hfree⟩ := placeEntry_link r (.mark (endMark cut x)) (modCtx r nextPage c)
      exact ⟨hlink.trans (by simp), hfree.trans (by simp)⟩

theorem slotAt_pageEnd (r : Nat) (cut : Bool) (c : Chip) (n : Nat) : slotAt (pageEnd r cut c) n = slotAt c n := by
  cases h : ctxOf c r with
  | none => unfold pageEnd; rw [h]
  | some x =>
    by_cases hlines : x.linesDone = 0
    · rw [pageEnd_empty h hlines]
    · rw [pageEnd_lines h hlines, slotAt_placeMark, slotAt_modCtx]

/-! ## Fills (R4) -/

theorem ctxOf_countedFill {c : Chip} {r : Nat} {x : Ctx} (h : ctxOf c r = some x) (n : Nat) (l : Line) (repaired : Bool) :
    ctxOf (countedFill r n l repaired x c) r = some (countLine repaired x) := by
  have hcounted : ctxOf (modCtx r (countLine repaired) (setSlot n (.filling r (some l)) c)) r = some (countLine repaired x) := by
    rw [ctxOf_modCtx_self, ctxOf_setSlot, h]
    rfl
  unfold countedFill
  dsimp only
  split
  · rw [ctxOf_queueEvent, hcounted]
  · exact hcounted

theorem slotAt_countedFill {c : Chip} {r n : Nat} (hroute : (slotAt c n).route = some r) (l : Line) (repaired : Bool) (x : Ctx) (m : Nat) :
    slotAt (countedFill r n l repaired x c) m = if n = m then .filling r (some l) else slotAt c m := by
  have hset := slotAt_setSlot (x := .filling r (some l)) hroute (slotAt_lt fun h => by rw [h] at hroute; cases hroute) m
  unfold countedFill
  dsimp only
  split
  · rw [slotAt_queueEvent, slotAt_modCtx, hset]
  · rw [slotAt_modCtx, hset]

theorem countedFill_link (r n : Nat) (l : Line) (repaired : Bool) (x : Ctx) (c : Chip) :
    (countedFill r n l repaired x c).pool.freeList = c.pool.freeList ∧
    (x.linesDone ≠ 0 → (countedFill r n l repaired x c).link = c.link) ∧
    (x.linesDone = 0 → (countedFill r n l repaired x c).link = (queueEvent (.pageStart r) c).link) := by
  have hset : (modCtx r (countLine repaired) (setSlot n (.filling r (some l)) c)).link = c.link ∧
      (modCtx r (countLine repaired) (setSlot n (.filling r (some l)) c)).pool.freeList = c.pool.freeList := by
    unfold setSlot
    split <;> simp
  unfold countedFill
  dsimp only
  refine ⟨?_, fun h => ?_, fun h => ?_⟩
  · split
    · simpa using hset.2
    · exact hset.2
  · rw [if_neg h]
    exact hset.1
  · rw [if_pos h]
    exact queueEvent_link_congr hset.1 _

/-- The context that a fill leaves: the line counted and placed, its page ended behind the 65,535th. -/
def filledCtx (n : Nat) (repaired : Bool) (x : Ctx) : Ctx :=
  let y := placed (.line ⟨n, x.linesDone, repaired⟩) (countLine repaired x)
  if x.linesDone + 1 = 65535 then placed (.mark (endMark true y)) (nextPage y) else y

theorem placed_linesDone (e : Entry) (x : Ctx) : (placed e x).linesDone = x.linesDone := by
  unfold placed
  split
  · rw [push_eq]
  · rfl

theorem ctxOf_fillComplete {c : Chip} {r : Nat} {x : Ctx} (h : ctxOf c r = some x) (n : Nat) (l : Line) (repaired : Bool) :
    ctxOf (fillComplete r n l repaired c) r = some (filledCtx n repaired x) := by
  have hplaced := ctxOf_placeEntry (ctxOf_countedFill h n l repaired) (.line ⟨n, x.linesDone, repaired⟩)
  rw [fillComplete_open h]
  unfold filledCtx
  dsimp only
  split
  · exact ctxOf_pageEnd hplaced (by rw [placed_linesDone]; exact Nat.succ_ne_zero _) true
  · exact hplaced

/-- The slots that a fill leaves: its own HELD, or still in filling where its line waits. -/
theorem slotAt_fillComplete {c : Chip} {r n : Nat} {x : Ctx} (h : ctxOf c r = some x) (hroute : (slotAt c n).route = some r) (l : Line)
    (repaired : Bool) (m : Nat) : slotAt (fillComplete r n l repaired c) m =
      if n = m then (if x.hold.isEmpty && hasRoom x then .held r x.sinks.length l else .filling r (some l)) else slotAt c m := by
  have hfill : slotAt (countedFill r n l repaired x c) n = .filling r (some l) := by rw [slotAt_countedFill hroute, if_pos rfl]
  have hplaced := slotAt_placeLine (l := ⟨n, x.linesDone, repaired⟩) (ctxOf_countedFill h n l repaired) hfill m
  have hroom : hasRoom (countLine repaired x) = hasRoom x := hasRoom_congr rfl rfl rfl rfl
  rw [hroom] at hplaced
  rw [fillComplete_open h]
  dsimp only
  have hout : slotAt (placeEntry r (.line ⟨n, x.linesDone, repaired⟩) (countedFill r n l repaired x c)) m =
      if n = m then (if x.hold.isEmpty && hasRoom x then .held r x.sinks.length l else .filling r (some l)) else slotAt c m := by
    refine hplaced.trans ?_
    split
    · rfl
    next hn => rw [slotAt_countedFill hroute, if_neg hn]
  split
  · rw [slotAt_pageEnd, hout]
  · exact hout

theorem fillComplete_link {c : Chip} {r : Nat} {x : Ctx} (h : ctxOf c r = some x) (n : Nat) (l : Line) (repaired : Bool) :
    (fillComplete r n l repaired c).pool.freeList = c.pool.freeList ∧
    (x.linesDone ≠ 0 → (fillComplete r n l repaired c).link = c.link) ∧
    (x.linesDone = 0 → (fillComplete r n l repaired c).link = (queueEvent (.pageStart r) c).link) := by
  obtain ⟨hfree, hlink, hstart⟩ := countedFill_link r n l repaired x c
  obtain ⟨hplaced, hlist⟩ := placeEntry_link r (.line ⟨n, x.linesDone, repaired⟩) (countedFill r n l repaired x c)
  have hend := pageEnd_link r true (placeEntry r (.line ⟨n, x.linesDone, repaired⟩) (countedFill r n l repaired x c))
  rw [fillComplete_open h]
  dsimp only
  split
  · exact ⟨hend.2.trans (hlist.trans hfree), fun k => hend.1.trans (hplaced.trans (hlink k)), fun k => hend.1.trans (hplaced.trans (hstart k))⟩
  · exact ⟨hlist.trans hfree, fun k => hplaced.trans (hlink k), fun k => hplaced.trans (hstart k)⟩

/-! ## Slots taken (R2) -/

theorem takeSlot_granted {c : Chip} {r n : Nat} {rest : List Nat} {x : Ctx} (h : ctxOf c r = some x) (hquota : charged c r < x.quota)
    (hfree : c.pool.freeList = n :: rest) (mk : Nat → Slot) :
    takeSlot r mk c = some (n, syncCredit r { c with pool := { slots := c.pool.slots.set n (mk r), freeList := rest } }) := by
  unfold takeSlot
  rw [h]
  dsimp only
  rw [if_pos hquota, hfree]

theorem takeSlot_denied {c : Chip} {r : Nat} {x : Ctx} (h : ctxOf c r = some x) (hfull : x.quota ≤ charged c r ∨ c.pool.freeList = [])
    (mk : Nat → Slot) : takeSlot r mk c = none := by
  unfold takeSlot
  rw [h]
  dsimp only
  split
  next hquota =>
    rw [hfull.resolve_left (Nat.not_le.mpr hquota)]
  · rfl

/-- The slots after a take: the one taken, and the others as they were. -/
theorem slotAt_taken {c : Chip} {n : Nat} (hn : n < c.pool.slots.length) (x : Slot) (rest : List Nat) (m : Nat) :
    slotAt { c with pool := { slots := c.pool.slots.set n x, freeList := rest } } m = if n = m then x else slotAt c m := by
  simp only [slotAt, getD_set_slot]
  by_cases k : n = m
  · subst k; simp [hn]
  · simp [k]

end Sys2Proof.Proofs
end

section
/-!
PROOFS. The line reads of a STORE-source route (01_line_pool_and_routes.md R20, 06_page_store.md R118).
-/

-- One declaration after another: the package as one text keeps within the check's limit on threads.
set_option Elab.async false

namespace Sys2Proof.Proofs

open Sys2Proof Sys2Proof.Machine

theorem mem_routesWhere {c : Chip} {p : Ctx → Bool} {r : Nat} (h : r ∈ routesWhere c p) : ∃ x, ctxOf c r = some x ∧ p x = true := by
  have hp := (List.mem_filter.mp h).2
  cases hx : ctxOf c r with
  | none => rw [hx] at hp; cases hp
  | some x => rw [hx] at hp; exact ⟨x, rfl, hp⟩

theorem source_of_routeOfSource {c : Chip} {k : Source} {r : Nat} {x : Ctx} (h : routeOfSource c k = some r) (hx : ctxOf c r = some x) :
    x.source = k := by
  obtain ⟨y, hy, hp⟩ := mem_routesWhere (List.mem_of_head? h)
  obtain rfl : x = y := Option.some.inj (hx.symm.trans hy)
  simpa using hp

/-- The credit is the LINK source's alone (R19). -/
theorem syncCredit_of_source {c : Chip} {r : Nat} {x : Ctx} (h : ctxOf c r = some x) (hsource : x.source ≠ .link) : syncCredit r c = c := by
  unfold syncCredit
  rw [h]
  exact if_neg fun k => hsource k.1

theorem exec_storeReadRequest (s : State) : exec .storeReadRequest s = .next (s.onChip readRequestChip) := rfl

/-- The request of a line: a slot is taken for it, and the read job asked for. -/
theorem readRequestChip_granted {c : Chip} {r n : Nat} {rest : List Nat} {x : Ctx} (hroute : routeOfSource c .store = some r)
    (h : ctxOf c r = some x) (hopen : x.closeReq = false) (hread : c.store.reading = none) (hblank : c.store.cursor.blank = false)
    (hquota : charged c r < x.quota) (hfree : c.pool.freeList = n :: rest) : readRequestChip c = askRead .lineRead
      { c with pool := { slots := c.pool.slots.set n (.filling r none), freeList := rest }, store := { c.store with reading := some n } } := by
  have hsource : x.source ≠ .link := by rw [source_of_routeOfSource hroute h]; decide
  have htaken : ctxOf { c with pool := { slots := c.pool.slots.set n (.filling r none), freeList := rest } } r = some x := h
  unfold readRequestChip
  rw [hroute]
  dsimp only
  rw [h]
  dsimp only
  rw [if_neg (by simp [hopen, hread]), takeSlot_granted h hquota hfree, syncCredit_of_source htaken hsource]
  exact if_neg (by simp [hblank])

theorem readRequestChip_denied {c : Chip} {r : Nat} {x : Ctx} (hroute : routeOfSource c .store = some r) (h : ctxOf c r = some x)
    (hfull : x.quota ≤ charged c r ∨ c.pool.freeList = []) : readRequestChip c = c := by
  unfold readRequestChip
  rw [hroute]
  dsimp only
  rw [h]
  dsimp only
  rw [takeSlot_denied h hfull]
  split <;> rfl

/-! ## The end of a read -/

theorem exec_lineReadEnd {s : State} (h : s.chip.store.holder = some .lineRead) :
    exec .lineReadEnd s = .next (s.withChip (freeFlash (settleAll (lineReadDone s.flash.mem s.chip)))) :=
  congrArg Host.Outcome.next (if_pos h)

theorem lineReadDone_page {m : List Host.Cell} {c : Chip} {r n : Nat} {x : Ctx} {pg : Page} (hroute : routeOfSource c .store = some r)
    (h : ctxOf c r = some x) (hpage : readPage x c = some pg) (hread : c.store.reading = some n) : lineReadDone m c =
      match readEntry m (cursorBlock pg c) c.store.cursor.offset with
      | some coded => readDone r n (entrySize coded) false (decodeLine coded.form.asIn coded.data) c
      | none =>
          if 3 ≤ c.store.cursor.attempts + 1 then readDone r n 0 true blankLine c
          else returnSlot n { c with store := { c.store with
            reading := none, cursor := { c.store.cursor with attempts := c.store.cursor.attempts + 1 } } } := by
  unfold lineReadDone
  rw [hroute, hread]
  dsimp only
  rw [h]
  dsimp only [Option.bind]
  rw [hpage] <;> rfl

/-- The part with its read over and the cursor moved on: the route leaves OPEN. -/
def readOver (r size : Nat) (blank : Bool) (committed : Nat) (c : Chip) : Chip :=
  modCtx r (fun x => { x with begun := true }) { c with store := { c.store with
    reading := none, cursor := advanceCursor size blank committed c.store.cursor } }

theorem readDone_open {c : Chip} {r n : Nat} {x : Ctx} {pg : Page} (h : ctxOf c r = some x) (hpage : readPage x c = some pg)
    (hopen : x.closeReq = false) (size : Nat) (blank : Bool) (line : Line × Bool) : readDone r n size blank line c =
      moveOn r pg.lines (fillComplete r n line.1 line.2 (readOver r size blank (blockAt c (cursorBlock pg c)).committed c)) := by
  unfold readDone
  rw [h]
  dsimp only
  rw [hpage, hopen]
  exact if_neg Bool.false_ne_true

theorem moveOn_within {c : Chip} {r lines : Nat} {x : Ctx} (h : ctxOf c r = some x) (hmore : x.readLine + 1 < lines) :
    moveOn r lines c = modCtx r (fun x => { x with readLine := x.readLine + 1 }) c := by
  unfold moveOn
  rw [h]
  exact if_pos hmore

/-- A fill where the queues have room, below the page's end. -/
theorem filledCtx_room {x : Ctx} (hhold : x.hold = []) (hroom : hasRoom x = true) (hlines : x.linesDone + 1 < 65535) (n : Nat)
    (repaired : Bool) : filledCtx n repaired x = (countLine repaired x).push (.line ⟨n, x.linesDone, repaired⟩) := by
  unfold filledCtx
  dsimp only
  rw [if_neg hlines.ne]
  exact placed_room (x := countLine repaired x) hhold ((hasRoom_congr rfl rfl rfl rfl).trans hroom) _

/-- Settles O44, by the take of R2 and the fill of R4 for the slot of a line read. -/
theorem lineReadsTakeTheirSlots : Obligations.LineReadsTakeTheirSlots := by
  unfold Obligations.LineReadsTakeTheirSlots
  refine ⟨fun r n rest x s hroute hx hopen hread hblank hquota hfree hn => ?_, fun r x s hroute hx hfull => ?_, fun s hholder => ?_,
    fun s hholder => congrArg Host.Outcome.next (if_neg hholder), fun r n x pg m c hroute hx hpage hread => ⟨fun hentry hattempts => ?_, ?_⟩⟩
  · have hchip := readRequestChip_granted hroute hx hopen hread hblank hquota hfree
    refine ⟨_, exec_of_chip (exec_storeReadRequest s) hchip, by simp, by simp, ?_, fun m hm => ?_, ?_, rfl⟩
    · exact (slotAt_congr (by simp) n).trans ((slotAt_taken hn (.filling r none) rest n).trans (if_pos rfl))
    · exact (slotAt_congr (by simp) m).trans ((slotAt_taken hn (.filling r none) rest m).trans (if_neg hm.symm))
    · exact (askRead_kept .rfl _).1
  · exact exec_without_effect (exec_storeReadRequest s) (readRequestChip_denied hroute hx hfull)
  · exact ⟨exec_lineReadEnd hholder, (freeFlash_kept (settleAll_kept (lineReadDone_kept .rfl _))).1⟩
  · have hdone := lineReadDone_page (m := m) hroute hx hpage hread
    rw [hentry] at hdone
    rw [hdone]
    dsimp only
    rw [if_neg (by omega)]
    exact ⟨by simp, slotAt_returnSlot_self _ _, by simp⟩
  · intro coded hentry hhold hroom hslot hopen hmore hlines line
    have hdone := lineReadDone_page (m := m) hroute hx hpage hread
    rw [hentry] at hdone
    have hover : ctxOf (readOver r (entrySize coded) false (blockAt c (cursorBlock pg c)).committed c) r = some { x with begun := true } := by
      unfold readOver
      rw [ctxOf_modCtx_self]
      exact congrArg (Option.map _) hx
    have hslotOver : slotAt (readOver r (entrySize coded) false (blockAt c (cursorBlock pg c)).committed c) n = .filling r none :=
      (slotAt_modCtx ..).trans hslot
    have hfilled := ctxOf_fillComplete hover n line.1 line.2
    rw [filledCtx_room (x := { x with begun := true }) hhold ((hasRoom_congr rfl rfl rfl rfl).trans hroom) hlines] at hfilled
    have hstay : ((countLine line.2 { x with begun := true }).push (.line ⟨n, x.linesDone, line.2⟩)).readLine = x.readLine := by
      rw [push_eq]
      rfl
    have hread : lineReadDone m c = modCtx r (fun x => { x with readLine := x.readLine + 1 }) (fillComplete r n line.1 line.2
        (readOver r (entrySize coded) false (blockAt c (cursorBlock pg c)).committed c)) :=
      (hdone.trans (readDone_open hx hpage hopen _ _ _)).trans (moveOn_within hfilled (by rw [hstay]; exact hmore))
    rw [hread]
    refine ⟨?_, by simp [readOver], ?_⟩
    · rw [slotAt_modCtx, slotAt_fillComplete hover (by rw [hslotOver]; rfl), if_pos rfl]
      exact if_pos (by rw [hasRoom_congr (y := { x with begun := true }) (x := x) rfl rfl rfl rfl, hroom]; simp [hhold])
    · rw [ctxOf_modCtx_self, hfilled]
      simp only [push_eq]
      rfl

end Sys2Proof.Proofs
end

section
/-!
PROOFS. The end of a capture (02_scan_path.md R30, R34, R35) and the completion of a fill (01_line_pool_and_routes.md R4, R14).
-/

-- One declaration after another: the package as one text keeps within the check's limit on threads.
set_option Elab.async false

namespace Sys2Proof.Proofs

open Sys2Proof Sys2Proof.Machine

/-! ## The other routes of a fill -/

theorem getRoute_setSlot (n : Nat) (x : Slot) (c : Chip) (q : Nat) : getRoute (setSlot n x c) q = getRoute c q := getRoute_congr (by simp) q

theorem ctxOf_enterQueues_ne {r q : Nat} (h : q ≠ r) (e : Entry) (c : Chip) : ctxOf (enterQueues r e c) q = ctxOf c q := by
  cases hx : ctxOf c r with
  | none => unfold enterQueues; rw [hx]
  | some x =>
    cases e with
    | line l => rw [enterQueues_line hx, ctxOf_setSlot, ctxOf_modCtx_ne h]
    | mark m => rw [enterQueues_mark hx, ctxOf_modCtx_ne h]

theorem ctxOf_placeEntry_ne {r q : Nat} (h : q ≠ r) (e : Entry) (c : Chip) : ctxOf (placeEntry r e c) q = ctxOf c q := by
  unfold placeEntry
  split
  · rfl
  · split
    · exact ctxOf_enterQueues_ne h e c
    · exact ctxOf_modCtx_ne h _ c

theorem ctxOf_pageEnd_ne {r q : Nat} (h : q ≠ r) (cut : Bool) (c : Chip) : ctxOf (pageEnd r cut c) q = ctxOf c q := by
  unfold pageEnd
  split
  · rfl
  · split
    · rfl
    · rw [ctxOf_placeEntry_ne h, ctxOf_modCtx_ne h]

theorem ctxOf_countedFill_ne {r q : Nat} (h : q ≠ r) (n : Nat) (l : Line) (repaired : Bool) (x : Ctx) (c : Chip) :
    ctxOf (countedFill r n l repaired x c) q = ctxOf c q := by
  unfold countedFill
  dsimp only
  split
  · rw [ctxOf_queueEvent, ctxOf_modCtx_ne h, ctxOf_setSlot]
  · rw [ctxOf_modCtx_ne h, ctxOf_setSlot]

theorem ctxOf_fillComplete_ne {c : Chip} {r q : Nat} {x : Ctx} (hx : ctxOf c r = some x) (h : q ≠ r) (n : Nat) (l : Line) (repaired : Bool) :
    ctxOf (fillComplete r n l repaired c) q = ctxOf c q := by
  rw [fillComplete_open hx]
  dsimp only
  split
  · rw [ctxOf_pageEnd_ne h, ctxOf_placeEntry_ne h, ctxOf_countedFill_ne h]
  · rw [ctxOf_placeEntry_ne h, ctxOf_countedFill_ne h]

/-- The route of a sink goes by the sinks of the open routes alone. -/
theorem routeOfSink_congr {c t : Chip} (h : ∀ q, (ctxOf t q).map Ctx.sinks = (ctxOf c q).map Ctx.sinks) (k : Sink) :
    routeOfSink t k = routeOfSink c k := by
  unfold routeOfSink routesWhere
  congr 1
  refine List.filter_congr fun q _ => ?_
  have hq := h q
  cases ht : ctxOf t q with
  | none =>
    rw [ht] at hq
    cases hc : ctxOf c q with
    | none => rfl
    | some y => rw [hc] at hq; cases hq
  | some x =>
    rw [ht] at hq
    cases hc : ctxOf c q with
    | none => rw [hc] at hq; cases hq
    | some y =>
      rw [hc] at hq
      show x.sinks.contains k = y.sinks.contains k
      rw [Option.some.inj hq]

/-! ## The completion of a fill -/

theorem filledCtx_wait {x : Ctx} (hwait : x.hold ≠ [] ∨ hasRoom x = false) (n : Nat) (repaired : Bool) : filledCtx n repaired x =
    let y := { countLine repaired x with hold := x.hold ++ [.line ⟨n, x.linesDone, repaired⟩] }
    if x.linesDone + 1 = 65535 then { nextPage y with hold := y.hold ++ [.mark (endMark true y)] } else y := by
  have hcounted : placed (.line ⟨n, x.linesDone, repaired⟩) (countLine repaired x) =
      { countLine repaired x with hold := x.hold ++ [.line ⟨n, x.linesDone, repaired⟩] } :=
    placed_wait (x := countLine repaired x) (hwait.imp id fun h => (hasRoom_congr rfl rfl rfl rfl).trans h) _
  unfold filledCtx
  rw [hcounted]
  dsimp only
  split
  · exact placed_wait (.inl (by simp [nextPage])) _
  · rfl

/-- A fill that reaches 65,535 lines with room: its line on the queues, and the mark behind it there or in the hold. -/
theorem filledCtx_last {x : Ctx} (hhold : x.hold = []) (hroom : hasRoom x = true) (hlast : x.linesDone + 1 = 65535) (n : Nat) (repaired : Bool) :
    filledCtx n repaired x =
      let y := (countLine repaired x).push (.line ⟨n, x.linesDone, repaired⟩)
      if hasRoom y then (nextPage y).push (.mark (endMark true y)) else { nextPage y with hold := [.mark (endMark true y)] } := by
  have hcounted : placed (.line ⟨n, x.linesDone, repaired⟩) (countLine repaired x) =
      (countLine repaired x).push (.line ⟨n, x.linesDone, repaired⟩) :=
    placed_room (x := countLine repaired x) hhold ((hasRoom_congr rfl rfl rfl rfl).trans hroom) _
  have hempty : ((countLine repaired x).push (.line ⟨n, x.linesDone, repaired⟩)).hold = [] := by
    rw [push_eq]
    exact hhold
  unfold filledCtx
  rw [hcounted]
  dsimp only
  rw [if_pos hlast]
  generalize (countLine repaired x).push (.line ⟨n, x.linesDone, repaired⟩) = y at hempty ⊢
  have hnext : hasRoom (nextPage y) = hasRoom y := hasRoom_congr rfl rfl rfl rfl
  split
  next hy => exact placed_room (x := nextPage y) hempty (hnext.trans hy) _
  next hy =>
    rw [placed_wait (x := nextPage y) (.inr (hnext.trans (Bool.eq_false_iff.mpr hy)))]
    exact congrArg (fun l => { nextPage y with hold := l ++ [Entry.mark (endMark true y)] }) hempty

/-- What a fill leaves of the records (R4): PAGE START for the first line of a page where there is room. -/
theorem fillComplete_told {c : Chip} {r : Nat} {x : Ctx} (h : ctxOf c r = some x) (n : Nat) (l : Line) (repaired : Bool) :
    (0 < x.linesDone → (fillComplete r n l repaired c).link = c.link) ∧
    (x.linesDone = 0 → 256 ≤ freeBytes c →
      (fillComplete r n l repaired c).link.reports = c.link.reports ++ [.event (.pageStart r)]) ∧
    (x.linesDone = 0 → freeBytes c < 256 → (fillComplete r n l repaired c).link = { c.link with eventsLost := true }) := by
  obtain ⟨-, hlater, hfirst⟩ := fillComplete_link h n l repaired
  refine ⟨fun k => hlater (Nat.pos_iff_ne_zero.mp k), fun k hroom => ?_, fun k hfull => ?_⟩
  · rw [hfirst k]
    exact queueEvent_reports_of_room hroom
  · rw [hfirst k, queueEvent_of_full hfull]

/-! ## The end of a capture -/

theorem exec_captureEnd (samples : List Byte) (s : State) : exec (.captureEnd samples) s = .next (s.onChip (captureChip samples)) := rfl

/-- The part with its capture over. -/
def captured (c : Chip) : Chip := { c with scan := { c.scan with capture := none, captureLeft := 0, pageEndDue := false } }

theorem captureChip_keep {c : Chip} {r n row : Nat} {q : ScanParams} (hcapture : c.scan.capture = some (.keep n row))
    (hroute : c.scan.route = some r) (hq : scanParamsOf c r = some q) (samples : List Byte) : captureChip samples c =
      let filled := fillComplete r n (scanLine c.tables q row samples) false (captured c)
      settle r (if c.scan.pageEndDue then pageEnd r false filled else filled) := by
  have hparams : scanParamsOf (captured c) r = some q := hq
  unfold captureChip
  rw [hcapture, hroute]
  dsimp only
  unfold captured at hparams
  rw [hparams]
  rfl

theorem captureChip_drop {c : Chip} {r : Nat} (hcapture : c.scan.capture = some .drop) (hroute : c.scan.route = some r)
    (samples : List Byte) : captureChip samples c =
      settle r (if c.scan.pageEndDue then pageEnd r false (captured c) else captured c) := by
  unfold captureChip
  rw [hcapture, hroute]
  rfl

theorem captureChip_idle {c : Chip} (hcapture : c.scan.capture = none) (samples : List Byte) : captureChip samples c = c := by
  unfold captureChip
  rw [hcapture]

/-- PAGE START stands behind the records that waited, CREDIT records apart. -/
theorem settle_pageStart {r : Nat} {c t : Chip} (h : t.link.reports = c.link.reports ++ [.event (.pageStart r)]) :
    ∃ old more, (settle r t).link.reports = old ++ .event (.pageStart r) :: more ∧ plainReports old = plainReports c.link.reports := by
  obtain ⟨more, hreports, -⟩ := (settle_onward Onward.rfl r (u := t)).reports
  rw [h, plainReports_append, List.append_assoc] at hreports
  obtain ⟨old, rest, hsplit, hold, -⟩ := reports_of_plain (e := .event (.pageStart r)) hreports
  exact ⟨old, rest, hsplit, hold⟩

/-! ## A line on its way out (R95) -/

/-- The line that heads the queue of a LINK sink is taken into work where the lane is idle. -/
theorem linkPump_line {c : Chip} {r : Nat} {x : Ctx} {e : LineEntry} {rest : List Entry} (hlane : c.linkOut = .idle)
    (hroute : routeOfSink c .link = some r) (h : ctxOf c r = some x) (hq : x.linkQ = .line e :: rest) :
    (linkPump c).linkOut = (let coded := encodeFor x.encoding (lineOf c e.slot)
      if x.encoding = some .run then .encoding r e coded else .line r e coded) ∧ (linkPump c).routes = c.routes := by
  refine ⟨?_, (linkPump_parts c).1⟩
  unfold linkPump
  rw [hlane, hroute]
  dsimp only
  rw [h]
  dsimp only
  rw [hq]
  dsimp only
  split
  · rfl
  · simp

theorem closeIfEmpty_open {c : Chip} {r : Nat} {x : Ctx} (h : ctxOf c r = some x) (hopen : x.closeReq = false) : closeIfEmpty r c = c := by
  unfold closeIfEmpty
  rw [h]
  exact if_neg (by simp [hopen])

/-- What follows at once for an open route without a STORE sink: the lane takes its line. -/
theorem settle_linkOut {c : Chip} {r : Nat} {x : Ctx} {e : LineEntry} {rest : List Entry} (hlane : c.linkOut = .idle)
    (hroute : routeOfSink c .link = some r) (h : ctxOf c r = some x) (hq : x.linkQ = .line e :: rest) (hopen : x.closeReq = false)
    (hstore : Sink.store ∉ x.sinks) : (settle r c).linkOut =
      (let coded := encodeFor x.encoding (lineOf c e.slot)
      if x.encoding = some .run then .encoding r e coded else .line r e coded) := by
  obtain ⟨hout, hroutes⟩ := linkPump_line hlane hroute h hq
  have hpump : storePump r c = c := storePump_storeless fun y hy => by rwa [← Option.some.inj (h.symm.trans hy)]
  obtain ⟨shift, left, hhead⟩ := refreshLoad_eq (linkPump c)
  have hctx : ctxOf (refreshLoad (linkPump c)) r = some x := by
    rw [hhead]
    exact (ctxOf_congr hroutes r).trans h
  unfold settle pump
  rw [hpump, closeIfEmpty_open hctx hopen, hhead]
  simpa using hout

theorem hasLink {x : Ctx} (h : x.sinks = [.link] ∨ x.sinks = [.print, .link]) :
    Sink.store ∉ x.sinks ∧ x.sinks.count .link = 1 := by
  rcases h with h | h <;> rw [h] <;> decide

/-- Settles O52, by the rules of a fill. -/
theorem capturedLinesAreQueued : Obligations.CapturedLinesAreQueued := by
  unfold Obligations.CapturedLinesAreQueued
  refine ⟨fun r n row q samples s hcapture hroute hq => ?_, fun r samples s hcapture hroute => ?_,
    fun samples s hcapture => exec_without_effect (exec_captureEnd samples s) (captureChip_idle hcapture samples),
    fun r n l l' repaired x c hx hslot => ?_⟩
  · intro c filled plain
    have hchip := captureChip_keep hcapture hroute hq samples
    have hctx : ∀ x, ctxOf s.chip r = some x → ctxOf c r = some x := fun x hx => hx
    refine ⟨fun hdue => ?_, fun hdue => ?_, fun x hx hfirst hroom => ?_, fun x hx hsinks hlinkQ hhold hspace hslot hlane hsink hlast hopen hdue => ?_⟩
    · rw [hdue] at hchip
      exact exec_of_chip (exec_captureEnd samples s) hchip
    · rw [hdue] at hchip
      exact exec_of_chip (exec_captureEnd samples s) hchip
    · have hfill : filled.link.reports = s.chip.link.reports ++ [.event (.pageStart r)] :=
        (fillComplete_told (hctx x hx) n _ false).2.1 hfirst hroom
      have hended : (if s.chip.scan.pageEndDue then pageEnd r false filled else filled).link.reports =
          s.chip.link.reports ++ [.event (.pageStart r)] := by
        split
        · rw [(pageEnd_link r false filled).1, hfill]
        · exact hfill
      obtain ⟨old, more, hreports, hold⟩ := settle_pageStart hended
      exact ⟨_, old, more, exec_of_chip (exec_captureEnd samples s) hchip, hreports, hold⟩
    · intro e coded
      obtain ⟨o, hfilling⟩ := hslot
      obtain ⟨hstore, hcount⟩ := hasLink hsinks
      rw [hdue] at hchip
      have hfilled : ctxOf filled r = some ((countLine false x).push (.line e)) := by
        refine (ctxOf_fillComplete (hctx x hx) n _ false).trans (congrArg some ?_)
        unfold filledCtx
        dsimp only
        rw [if_neg hlast]
        exact placed_room (x := countLine false x) hhold ((hasRoom_congr rfl rfl rfl rfl).trans hspace) _
      have hheld : slotAt filled n = .held r x.sinks.length (scanLine s.chip.tables q row samples) := by
        refine (slotAt_fillComplete (hctx x hx) (by rw [show slotAt c n = .filling r o from hfilling]; rfl) _ false n).trans ?_
        rw [if_pos rfl, if_pos (by simp [hhold, hspace])]
      have hsinks : routeOfSink filled .link = some r := by
        refine (routeOfSink_congr (fun p => ?_) .link).trans hsink
        by_cases hp : p = r
        · subst hp
          rw [hfilled, hx, push_eq]
          rfl
        · exact congrArg (Option.map Ctx.sinks) (ctxOf_fillComplete_ne (hctx x hx) hp n _ false)
      have hout := settle_linkOut (rest := []) ((fillComplete_frame r n _ false c).2.2.2.2.2.2.2.2.2.1.trans hlane) hsinks hfilled
        (e := e) (by rw [push_eq]; simp [countLine, hlinkQ, pushed, hcount]) (by rw [push_eq]; exact hopen) (by rw [push_eq]; exact hstore)
      refine ⟨_, exec_of_chip (exec_captureEnd samples s) hchip, hout.trans ?_⟩
      rw [lineOf_held hheld, push_eq]
      rfl
  · intro c
    have hchip := captureChip_drop hcapture hroute samples
    refine ⟨fun hdue => ?_, fun hdue => ?_⟩
    · rw [hdue] at hchip
      exact exec_of_chip (exec_captureEnd samples s) hchip
    · rw [hdue] at hchip
      exact exec_of_chip (exec_captureEnd samples s) hchip
  · intro counted line cut ended t
    have hcharged : (slotAt c n).route = some r := by
      rcases hslot with ⟨o, h⟩ | h <;> rw [h] <;> rfl
    have hctx : ctxOf t r = some (filledCtx n repaired x) := ctxOf_fillComplete hx n l repaired
    have hslots := slotAt_fillComplete hx hcharged l repaired
    obtain ⟨hlater, hfirst, hfull⟩ := fillComplete_told hx n l repaired
    refine ⟨fun hhold hroom => ⟨?_, fun hmore => ?_, fun hlast => ?_⟩, fun hwait => ⟨?_, fun hmore => ?_, fun hlast => ?_⟩, hlater, hfirst, hfull,
      fun k hk => (hslots k).trans (if_neg hk.symm), (fillComplete_link hx n l repaired).1, by simp [t]⟩
    · refine (hslots n).trans ?_
      rw [if_pos rfl, if_pos (by simp [hhold, hroom])]
    · rw [hctx]
      unfold filledCtx
      dsimp only
      rw [if_neg hmore]
      exact congrArg some (placed_room (x := counted) hhold ((hasRoom_congr rfl rfl rfl rfl).trans hroom) _)
    · have hmark : Entry.mark (endMark true (counted.push line)) = cut := by
        rw [push_eq]
        simp only [endMark, counted, cut, hlast]
      have hended : nextPage (counted.push line) = ended (counted.push line) := by
        rw [push_eq]
        rfl
      rw [hctx, filledCtx_last hhold hroom hlast]
      dsimp only
      rw [show countLine repaired x = counted from rfl, hmark, hended]
    · refine (hslots n).trans ?_
      rw [if_pos rfl, if_neg (by rcases hwait with h | h <;> simp [h])]
    · rw [hctx, filledCtx_wait hwait]
      exact congrArg some (if_neg hmore)
    · rw [hctx, filledCtx_wait hwait]
      dsimp only
      rw [if_pos hlast]
      simp [nextPage, endMark, countLine, counted, ended, line, cut, hlast]

end Sys2Proof.Proofs
end

section
/-!
PROOFS. LINE records (01_line_pool_and_routes.md R18, 05_line_coding.md R93, R94, 10_the_page_link.md R176) and the credit of a LINK route
(R19, R182).
-/

-- One declaration after another: the package as one text keeps within the check's limit on threads.
set_option Elab.async false

namespace Sys2Proof.Proofs

open Sys2Proof Sys2Proof.Machine

/-! ## The bytes of a LINE record -/

theorem exec_line (length : Nat) (bytes : List Byte) (s : State) : exec (.line length bytes) s = .next (s.onChip (lineChip length bytes)) := rfl

theorem canTake_iff (c : Chip) : canTake c = true ↔ exchanging c = true ∧ c.link.parser = .between := by
  simp [canTake]

/-- A LINE record from its header on. -/
theorem lineChip_new {c : Chip} {length : Nat} (h : canTake c = true) (hlen : length ≤ 600) (bytes : List Byte) :
    lineChip length bytes c = feedLine length 0 bytes c := by
  obtain ⟨hex, hbetween⟩ := (canTake_iff c).mp h
  unfold lineChip
  rw [if_neg (by simp [hex]), hbetween]
  exact if_neg (Nat.not_lt.mpr hlen)

/-- More bytes of the LINE record in part. -/
theorem lineChip_more {c : Chip} {length taken : Nat} (hex : exchanging c = true) (hparser : c.link.parser = .payload 0x01 length taken)
    (other : Nat) (bytes : List Byte) : lineChip other bytes c = feedLine length taken bytes c := by
  unfold lineChip
  rw [if_neg (by simp [hex]), hparser] <;> rfl

/-- Bytes that do not end their record. -/
theorem feedLine_within {length taken : Nat} {bytes : List Byte} (h : taken + bytes.length < length) (c : Chip) :
    feedLine length taken bytes c = setParser (.payload 0x01 length (taken + bytes.length)) (lineBytes taken bytes c) := by
  have htake : bytes.take (length - taken) = bytes := List.take_of_length_le (by omega)
  unfold feedLine
  simp only [htake]
  exact if_neg (by omega)

/-- Bytes that end it. -/
theorem feedLine_whole {length taken : Nat} {bytes : List Byte} (h : taken + bytes.length = length) (c : Chip) :
    feedLine length taken bytes c = lineEnd (setParser .between (lineBytes taken bytes c)) := by
  have htake : bytes.take (length - taken) = bytes := List.take_of_length_le (by omega)
  unfold feedLine
  simp only [htake]
  exact if_pos (by omega)

theorem lineBytes_first (b : Byte) (bytes : List Byte) (c : Chip) :
    lineBytes 0 (b :: bytes) c = bytes.foldl laneByte (judgeLine b.toNat c) := rfl

theorem lineBytes_later {taken : Nat} (h : 0 < taken) (bytes : List Byte) (c : Chip) : lineBytes taken bytes c = bytes.foldl laneByte c := by
  unfold lineBytes
  split
  · omega
  · rfl

/-- The bytes of a record passed over. -/
theorem laneBytes_passing {owed : Option Nat} {c : Chip} (h : c.linkIn = .passing owed) (bytes : List Byte) : bytes.foldl laneByte c = c := by
  induction bytes with
  | nil => rfl
  | cons b bs ih =>
    have hbyte : laneByte c b = c := by
      unfold laneByte
      rw [h]
    rw [List.foldl_cons, hbyte, ih]

/-- The bytes behind the form are decoded in order. -/
theorem laneBytes_decoding {r n : Nat} {first : Bool} {f : FormIn} {d : Decoder} {c : Chip} (h : c.linkIn = .decoding r n first (some f) d)
    (bytes : List Byte) : bytes.foldl laneByte c = { c with linkIn := .decoding r n first (some f) (bytes.foldl (Decoder.byte f) d) } := by
  induction bytes generalizing c d with
  | nil => rw [List.foldl_nil, List.foldl_nil, ← h]
  | cons b bs ih =>
    have hbyte : laneByte c b = { c with linkIn := .decoding r n first (some f) (Decoder.byte f d b) } := by
      unfold laneByte
      rw [h]
    rw [List.foldl_cons, hbyte, ih rfl]
    rfl

theorem laneByte_form {r n : Nat} {first : Bool} {d : Decoder} {c : Chip} {x : Ctx} (h : c.linkIn = .decoding r n first none d)
    (hx : ctxOf c r = some x) (b : Byte) : laneByte c b = { c with linkIn := .decoding r n first (some (formInFor x.encoding b)) d } := by
  unfold laneByte
  rw [h]
  dsimp only
  rw [hx]

/-! ## The judgement by the route number (R18) -/

theorem judgeLine_none {r : Nat} (h : 3 < r) (c : Chip) : judgeLine r c = { c with linkIn := .passing none } := if_pos h

theorem judgeLine_refused {r : Nat} {c : Chip} (h : r ≤ 3) (hno : acceptsLine c r = false) :
    judgeLine r c = { c with linkIn := .passing (some r) } := by
  unfold judgeLine
  rw [if_neg (Nat.not_lt.mpr h)]
  exact if_neg (by simp [hno])

theorem judgeLine_accepted {r n : Nat} {c d : Chip} (h : r ≤ 3) (hyes : acceptsLine c r = true)
    (htake : takeSlot r (fun q => .filling q none) c = some (n, d)) : judgeLine r c =
      { modCtx r (fun x => { x with begun := true }) d with linkIn := .decoding r n (!hasBegun c r) none .start } := by
  unfold judgeLine
  rw [if_neg (Nat.not_lt.mpr h), if_pos hyes, htake]

theorem acceptsLine_iff {c : Chip} {r : Nat} {x : Ctx} (h : ctxOf c r = some x) :
    acceptsLine c r = true ↔ x.source = .link ∧ x.closeReq = false ∧ charged c r < x.quota := by
  unfold acceptsLine
  rw [h]
  simp [and_assoc]

theorem byteOf_route {r : Nat} (h : r < 256) : (byteOf r).toNat = r := byteOf_toNat h

/-! ## Credit (R19, R182) -/

/-- The context of a route after its credit has been brought up to date. -/
theorem ctxOf_syncCredit_self {c : Chip} {r : Nat} {x : Ctx} (h : ctxOf c r = some x) :
    ∃ g, ctxOf (syncCredit r c) r = some { x with creditGranted := g } := by
  unfold syncCredit
  rw [h]
  dsimp only
  split
  · refine ⟨some (x.quota - charged c r), ?_⟩
    rw [ctxOf, getRoute_queueCredit, ← ctxOf, ctxOf_modCtx_self, h]
    rfl
  · exact ⟨x.creditGranted, h⟩

theorem syncCredit_new {c : Chip} {r : Nat} {x : Ctx} (h : ctxOf c r = some x) (hsource : x.source = .link)
    (hnew : x.creditGranted ≠ some (x.quota - charged c r)) : syncCredit r c =
      queueCredit r (x.quota - charged c r) (modCtx r (fun x => { x with creditGranted := some (x.quota - charged c r) }) c) := by
  unfold syncCredit
  rw [h]
  dsimp only
  rw [if_pos ⟨hsource, hnew⟩]

theorem syncCredit_same {c : Chip} {r : Nat} {x : Ctx} (h : ctxOf c r = some x)
    (hsame : x.source ≠ .link ∨ x.creditGranted = some (x.quota - charged c r)) : syncCredit r c = c := by
  unfold syncCredit
  rw [h]
  refine if_neg ?_
  rintro ⟨hsource, hnew⟩
  exact hsame.elim (fun k => k hsource) hnew

/-- A slot returned (R5): FREE at the tail of the free list, and the credit follows. -/
theorem returnSlot_charged {c : Chip} {r n : Nat} (h : (slotAt c n).route = some r) : returnSlot n c =
    syncCredit r { c with pool := { slots := c.pool.slots.set n .free, freeList := c.pool.freeList ++ [n] } } := by
  unfold returnSlot
  split
  next hfree => rw [hfree] at h; cases h
  next => rw [h]

/-! ## The end of a LINE record (R18, R93) -/

theorem lineEnd_passing {c : Chip} {r : Nat} (h : c.linkIn = .passing (some r)) : lineEnd c = overrun r { c with linkIn := .idle } := by
  unfold lineEnd
  rw [h]

theorem lineEnd_passed {c : Chip} (h : c.linkIn = .passing none) : lineEnd c = { c with linkIn := .idle } := by
  unfold lineEnd
  rw [h]

theorem lineEnd_decoding {c : Chip} {r n : Nat} {first : Bool} {f : Option FormIn} {d : Decoder} {x : Ctx} (h : c.linkIn = .decoding r n first f d)
    (hx : ctxOf c r = some x) (hopen : x.closeReq = false) :
    lineEnd c = settle r (fillComplete r n d.finish.out d.finish.repaired { c with linkIn := .idle }) := by
  unfold lineEnd
  rw [h]
  dsimp only
  rw [hx]
  dsimp only
  rw [if_neg (by simp [hopen])]

theorem overrun_told {c : Chip} {r : Nat} (h : (getRoute c r).overrun = true) : overrun r c = c := if_pos h

theorem overrun_new {c : Chip} {r : Nat} (h : (getRoute c r).overrun = false) :
    overrun r c = setRoute r { getRoute c r with overrun := true } (queueEvent (.creditOverrun r) c) := if_neg (by simp [h])

theorem setParser_between {c : Chip} (h : c.link.parser = .between) : setParser .between c = c := by
  unfold setParser
  rw [← h]

/-! ## Forms (R92, R94) -/

theorem formInFor_eq (enc : Option Form) (b : Byte) : formInFor enc b =
    if b = 0x00 then .raw else if b = 0x01 ∧ enc = some .run then .run else .ignored := by
  have hraw : formInFor enc 0 = .raw := by
    unfold formInFor
    rw [show formIn 0 = .raw from rfl]
  by_cases h0 : b = 0
  · subst h0
    exact hraw
  · by_cases h1 : b = 1
    · subst h1
      unfold formInFor
      rw [show formIn 1 = .run from rfl]
      cases enc with
      | none => rfl
      | some f => cases f <;> rfl
    · have hform : formOf b.toNat = none := by
        unfold formOf
        split
        next h => exact absurd (BitVec.eq_of_toNat_eq h) h0
        next h => exact absurd (BitVec.eq_of_toNat_eq h) h1
        next => rfl
      have hin : formIn b = .ignored := by
        unfold formIn
        rw [hform]
      have hother : formInFor enc b = .ignored := by
        unfold formInFor
        rw [hin]
      rw [hother, if_neg h0, if_neg fun h => h1 h.1]

/-- Bytes ignored leave the all-white repaired line. -/
theorem decodeLine_ignored (bytes : List Byte) : decodeLine .ignored bytes = (List.replicate 1728 false, true) := by
  have hout : ∀ (bs : List Byte) (d : Decoder), (Decoder.bytes .ignored d bs).out = d.out := by
    intro bs
    induction bs with
    | nil => intro d; rfl
    | cons b bs ih => intro d; exact ih _
  have hempty : (Decoder.bytes .ignored .start bytes).out = [] := hout bytes .start
  unfold decodeLine Decoder.finish
  dsimp only
  rw [hempty, if_pos (by decide)]
  unfold Decoder.whiteOut
  rw [hempty]
  rfl

end Sys2Proof.Proofs
end

section
/-!
PROOFS. LINE records in pieces and whole (01_line_pool_and_routes.md R18, 05_line_coding.md R93), and the CREDIT of a LINK route (R182).
-/

-- One declaration after another: the package as one text keeps within the check's limit on threads.
set_option Elab.async false

namespace Sys2Proof.Proofs

open Sys2Proof Sys2Proof.Machine

theorem byteOf_le_three {r : Nat} (h : r ≤ 3) : (byteOf r).toNat = r := byteOf_toNat (by omega)

/-- The slot and route that an accepted LINE record takes. -/
theorem judgeLine_taken {r n : Nat} {rest : List Nat} {x : Ctx} {c : Chip} (hr : r ≤ 3) (hx : ctxOf c r = some x) (hsource : x.source = .link)
    (hopen : x.closeReq = false) (hquota : charged c r < x.quota) (hfree : c.pool.freeList = n :: rest) : judgeLine r c =
      { modCtx r (fun x => { x with begun := true })
          (syncCredit r { c with pool := { slots := c.pool.slots.set n (.filling r none), freeList := rest } }) with
        linkIn := .decoding r n (!x.begun) none .start } := by
  have hbegun : hasBegun c r = x.begun := by unfold hasBegun; rw [hx]
  rw [judgeLine_accepted hr ((acceptsLine_iff hx).mpr ⟨hsource, hopen, hquota⟩) (takeSlot_granted hx hquota hfree _), hbegun]

/-- The first byte of a longer record: the judgement alone. -/
theorem lineChip_first {r length : Nat} {c : Chip} (h : canTake c = true) (hr : r < 256) (hlow : 2 ≤ length) (hhigh : length ≤ 600) :
    lineChip length [byteOf r] c = setParser (.payload 0x01 length 1) (judgeLine r c) := by
  rw [lineChip_new h hhigh, feedLine_within (show 0 + 1 < length by omega), lineBytes_first, byteOf_toNat hr]
  rfl

theorem lineChip_overrun {r : Nat} {bytes : List Byte} {c : Chip} (h : canTake c = true) (hr : r ≤ 3) (hlen : bytes.length ≤ 599)
    (hno : acceptsLine c r = false) : lineChip (bytes.length + 1) (byteOf r :: bytes) c = overrun r { c with linkIn := .idle } := by
  rw [lineChip_new h (by omega), feedLine_whole (by simp [Nat.add_comm]), lineBytes_first, byteOf_le_three hr, judgeLine_refused hr hno,
    laneBytes_passing rfl, setParser_between (by exact ((canTake_iff c).mp h).2), lineEnd_passing rfl]

/-- A record given whole: the slot, the form, the data, the end. -/
theorem lineChip_whole {r n : Nat} {form : Byte} {bytes : List Byte} {x : Ctx} {c d : Chip} (h : canTake c = true) (hr : r ≤ 3)
    (hlen : bytes.length ≤ 598) (hx : ctxOf c r = some x) (hyes : acceptsLine c r = true)
    (htake : takeSlot r (fun q => .filling q none) c = some (n, d)) :
    let l := (bytes.foldl (Decoder.byte (formInFor x.encoding form)) .start).finish
    lineChip (bytes.length + 2) (byteOf r :: form :: bytes) c = settle r (fillComplete r n l.out l.repaired
      { modCtx r (fun x => { x with begun := true }) d with linkIn := .idle }) := by
  intro l
  obtain ⟨hsource, hopen, hquota⟩ := (acceptsLine_iff hx).mp hyes
  have hlined := (takeSlot_lined htake).frame
  have hbetween : d.link.parser = .between := by
    obtain ⟨-, -, -, -, -, -, -, -, -, -, -, -, -, -, hparser, -⟩ := hlined
    exact hparser.trans ((canTake_iff c).mp h).2
  have hctx : ∃ g, ctxOf d r = some { x with creditGranted := g } := by
    unfold takeSlot at htake
    rw [hx] at htake
    dsimp only at htake
    rw [if_pos hquota] at htake
    split at htake
    · cases htake
    next k rest hfree =>
      obtain ⟨-, rfl⟩ := Prod.mk.inj (Option.some.inj htake)
      exact ctxOf_syncCredit_self (c := { c with pool := { slots := c.pool.slots.set k (.filling r none), freeList := rest } }) hx
  obtain ⟨g, hg⟩ := hctx
  have hbegun : ctxOf (modCtx r (fun x => { x with begun := true }) d) r = some { x with creditGranted := g, begun := true } := by
    rw [ctxOf_modCtx_self, hg]
    rfl
  have hlength : 0 + (byteOf r :: form :: bytes).length = bytes.length + 2 := by
    simp only [List.length_cons]
    omega
  rw [lineChip_new h (by omega), feedLine_whole hlength, lineBytes_first, byteOf_le_three hr, judgeLine_accepted hr hyes htake,
    List.foldl_cons, laneByte_form rfl (by exact hbegun), laneBytes_decoding rfl,
    setParser_between (by simpa using hbetween)]
  exact lineEnd_decoding rfl hbegun hopen

/-- Settles O47, by the judgement at the route number, the decoder's bytes, and the end of the record. -/
theorem lineRecordsTakeTheirSlots : Obligations.LineRecordsTakeTheirSlots := by
  unfold Obligations.LineRecordsTakeTheirSlots
  refine ⟨fun r n length rest x s hcan hr hlow hhigh hx hsource hopen hquota hfree hn => ?_, fun r length s hcan hr hlow hhigh hno => ?_,
    fun owed length taken bytes s hex hparser htaken hpass => ⟨fun hwithin => ?_, fun hend => ?_⟩, fun r bytes s hcan hr hlen hno => ?_,
    fun r length s hcan hr hbyte hlow hhigh => ?_, fun r n form bytes x c s hcan hr hlen hx hyes htake => ?_, formInFor_eq, decodeLine_ignored,
    fun length taken r n first f d bytes s hex hparser htaken hdec => ⟨fun hwithin => ?_, fun x hend hx hopen => ?_⟩,
    fun r n mk rest x c hx hquota hfree => takeSlot_granted hx hquota hfree mk, fun r n c h => returnSlot_charged h, fun r x c hx => ?_⟩
  · have hchip := (lineChip_first hcan (by omega) hlow hhigh).trans
      (congrArg (setParser _) (judgeLine_taken hr hx hsource hopen hquota hfree))
    have hslots := slotAt_taken (c := s.chip) hn (.filling r none) rest
    refine ⟨_, exec_of_chip (exec_line length [byteOf r] s) hchip, rfl, fun y hy => ?_, rfl, by simp [setParser], ?_, fun m hm => ?_, ?_,
      by simp [setParser], rfl⟩
    · obtain ⟨g, hg⟩ := ctxOf_syncCredit_self (c := { s.chip with pool := { slots := s.chip.pool.slots.set n (.filling r none), freeList := rest } }) hx
      have hbegun := (ctxOf_modCtx_self r (fun x => { x with begun := true }) _).trans (congrArg (Option.map _) hg)
      exact (Option.some.inj (hy.symm.trans hbegun)) ▸ rfl
    · refine Eq.trans (slotAt_congr (by simp [setParser]) n) ((hslots n).trans (if_pos rfl))
    · refine Eq.trans (slotAt_congr (by simp [setParser]) m) ((hslots m).trans (if_neg hm.symm))
    · simp [setParser, Chip.loaded]
  · refine exec_of_chip (exec_line length [byteOf r] s) ?_
    rw [lineChip_first hcan (by omega) hlow hhigh, judgeLine_refused hr hno]
    rfl
  · refine exec_of_chip (exec_line length bytes s) ?_
    rw [lineChip_more hex hparser, feedLine_within hwithin, lineBytes_later htaken, laneBytes_passing hpass]
    rfl
  · intro c
    have hchip : lineChip length bytes s.chip = lineEnd (setParser .between s.chip) := by
      rw [lineChip_more hex hparser, feedLine_whole hend, lineBytes_later htaken, laneBytes_passing hpass]
    refine ⟨fun howed => ?_, fun r howed htold => ?_, fun r howed hr hfour hnew => ?_⟩
    · exact exec_of_chip (exec_line length bytes s) (hchip.trans (lineEnd_passed (c := setParser .between s.chip) (hpass.trans (by rw [howed]))))
    · exact exec_of_chip (exec_line length bytes s)
        (hchip.trans ((lineEnd_passing (c := setParser .between s.chip) (hpass.trans (by rw [howed]))).trans (overrun_told htold)))
    · have hended := hchip.trans ((lineEnd_passing (c := setParser .between s.chip) (hpass.trans (by rw [howed]))).trans (overrun_new hnew))
      have hroutes : (queueEvent (.creditOverrun r) c).routes = s.chip.routes :=
        queueEvent_routes (e := .creditOverrun r) (fun _ _ h => nomatch h) (fun h => nomatch h) c
      refine ⟨_, exec_of_chip (exec_line length bytes s) hended, ?_, fun q hq => ?_, by simp [setRoute, setParser], by simp [setRoute, setParser],
        fun hroom => ?_, fun hfull => ?_, rfl⟩
      · exact getRoute_setRoute_self (lt_of_lt_of_eq (by omega : r < s.chip.routes.length) (congrArg List.length hroutes).symm) _
      · exact (getRoute_setRoute_ne hq _ _).trans (getRoute_congr hroutes q)
      · exact queueEvent_reports_of_room (c := c) hroom
      · exact congrArg Chip.link (queueEvent_of_full (c := c) hfull)
  · refine exec_of_chip (exec_line _ _ s) ((lineChip_overrun hcan hr hlen hno).trans ?_)
    rfl
  · refine exec_of_chip (exec_line length [byteOf r] s) ?_
    rw [lineChip_first hcan hbyte hlow hhigh, judgeLine_none hr]
    rfl
  · exact exec_of_chip (exec_line _ _ s) (lineChip_whole hcan hr hlen hx hyes htake)
  · refine exec_of_chip (exec_line length bytes s) ?_
    rw [lineChip_more hex hparser, feedLine_within hwithin, lineBytes_later htaken, laneBytes_decoding hdec]
    rfl
  · refine exec_of_chip (exec_line length bytes s) ?_
    rw [lineChip_more hex hparser, feedLine_whole hend, lineBytes_later htaken, laneBytes_decoding hdec]
    exact lineEnd_decoding rfl hx hopen
  · intro v sent t
    refine ⟨fun hsame => syncCredit_same hx hsame, fun hsource hnew => ?_⟩
    let granted := modCtx r (fun x => { x with creditGranted := some (x.quota - charged c r) }) c
    have ht : t = queueCredit r v granted := syncCredit_new hx hsource hnew
    have hunsent : unsent granted = c.link.reports.drop sent.length := (unsent_eq granted).trans (by simp [granted, sentPart, sent])
    have hreports : granted.link.reports = c.link.reports := by simp [granted]
    refine ⟨?_, by rw [ht]; simp [granted], by rw [ht]; simp [granted], fun q hq => ?_, fun hnone => ?_, fun before w rest hsplit hother => ?_⟩
    · rw [ht, ctxOf, getRoute_queueCredit, ← ctxOf, ctxOf_modCtx_self, hx]
      rfl
    · rw [ht, getRoute_queueCredit, getRoute_modCtx_ne hq]
    · rw [ht, queueCredit_appended (by rw [hunsent]; exact hnone), hreports]
    · rw [List.append_assoc] at hsplit
      have htail : unsent granted = before ++ .credit r w :: rest := by
        rw [hunsent, hsplit, List.drop_left]
      rw [ht, queueCredit_rewritten (hreports.trans hsplit) htail (fun k hk => hother k (List.mem_append_left _ hk))
        (fun k hk => hother k (List.mem_append_right _ hk)), List.append_assoc]

end Sys2Proof.Proofs
end

section
/-!
PROOFS. The upstream stream (10_the_page_link.md R175, R181, R183, R184), and what a LINK sink's records leave (01_line_pool_and_routes.md R5,
R15).
-/

-- One declaration after another: the package as one text keeps within the check's limit on threads.
set_option Elab.async false

namespace Sys2Proof.Proofs

open Sys2Proof Sys2Proof.Machine

/-! ## The choice between records (R183) -/

theorem freshRecord_report {c : Chip} (h : c.link.reports ≠ []) : freshRecord c = .report := if_pos (by simp [h])

theorem freshRecord_out {c : Chip} (h : c.link.reports = []) (hout : linkOutReady c = true) : freshRecord c = .out := by
  unfold freshRecord
  rw [if_neg (by simp [h]), if_pos hout]

theorem freshRecord_idle {c : Chip} (h : c.link.reports = []) (hout : linkOutReady c = false) : freshRecord c = .idle := by
  unfold freshRecord
  rw [if_neg (by simp [h]), if_neg (by simp [hout])]

theorem freshRecord_eq_report {c : Chip} (h : freshRecord c = .report) : c.link.reports ≠ [] := by
  intro k
  unfold freshRecord at h
  rw [if_neg (by simp [k])] at h
  split at h <;> cases h

theorem freshRecord_eq_out {c : Chip} (h : freshRecord c = .out) : linkOutReady c = true := by
  unfold freshRecord at h
  split at h
  · cases h
  · split at h
    next k => exact k
    next => cases h

theorem arbitrate_part {c : Chip} (h : c.link.up ≠ .idle) : arbitrate c = c.link.up := if_pos h

/-- With no record in part the choice is that of the byte cut, or a fresh one. -/
theorem arbitrate_idle {c : Chip} (h : c.link.up = .idle) : arbitrate c =
    if c.link.cut = some .idle then .idle else if c.link.cut = some .out ∧ linkOutReady c = true then .out else freshRecord c := by
  unfold arbitrate
  rw [if_neg (by simp [h])]
  cases hcut : c.link.cut with
  | none => simp
  | some k =>
    cases k with
    | idle => simp
    | report => simp
    | out => cases linkOutReady c <;> simp

theorem nextRecord_part {c : Chip} (h : c.link.up ≠ .idle) : nextRecord c = c.link.up := by
  unfold nextRecord
  rw [if_neg (fun k => h k.1), arbitrate_part h]

theorem nextRecord_idle {c : Chip} (h : c.link.up = .idle) : nextRecord c =
    if c.link.cut = some .out ∧ linkOutReady c = true then .out else freshRecord c := by
  unfold nextRecord
  rw [arbitrate_idle h]
  by_cases hcut : c.link.cut = some .idle
  · rw [if_pos ⟨h, hcut⟩, if_neg (by simp [hcut])]
  · rw [if_neg (fun k => hcut k.2), if_neg hcut]

/-! ## The start and the end of an upstream record -/

theorem exec_upstreamRecordStart (s : State) : exec .upstreamRecordStart s = .next (s.onChip upstreamChip) := rfl

theorem upstreamChip_starts {c : Chip} {u : Upstream} (hex : exchanging c = true) (hup : c.link.up = .idle) (hnext : nextRecord c = u)
    (hu : u ≠ .idle) : upstreamChip c = { c with link := { c.link with up := u, sent := 1, cut := none } } := by
  unfold upstreamChip
  rw [hnext]
  exact if_pos (by simp [hex, hup, hu])

theorem upstreamChip_waits {c : Chip} (h : exchanging c = false ∨ c.link.up ≠ .idle ∨ nextRecord c = .idle) : upstreamChip c = c := by
  unfold upstreamChip
  rw [if_neg]
  rcases h with h | h | h <;> simp [h]

theorem exec_reportRecordSent (s : State) : exec .reportRecordSent s = .next (s.onChip reportSentChip) := rfl

theorem reportSentChip_sent {c : Chip} (hex : exchanging c = true) (hnext : nextRecord c = .report) : reportSentChip c =
    { c with link := { c.link with reports := c.link.reports.drop 1, up := .idle, sent := 0, cut := none } } :=
  if_pos (by simp [hex, hnext])

theorem outSending_of_up {c : Chip} (hex : exchanging c = true) (hup : c.link.up = .out) : outSending c = true := by
  unfold outSending
  rw [nextRecord_part (by simp [hup]), hup, hex]
  rfl

theorem exec_outboundLineSent (s : State) : exec .outboundLineSent s = .next (s.onChip lineSentChip) := rfl

theorem lineSentChip_sent {c : Chip} {r : Nat} {e : LineEntry} {x : Coded} (hex : exchanging c = true) (hup : c.link.up = .out)
    (hlane : c.linkOut = .line r e x) : lineSentChip c = settle r (dropHead .link r (outIdle c)) := by
  unfold lineSentChip
  rw [outSending_of_up hex hup, hlane]

theorem exec_outboundPageEndSent (s : State) : exec .outboundPageEndSent s = .next (s.onChip pageSentChip) := rfl

theorem pageSentChip_sent {c : Chip} {r tag : Nat} (hex : exchanging c = true) (hup : c.link.up = .out) (hlane : c.linkOut = .pageEnd r tag) :
    pageSentChip c = settle r (serveMark .link r id (outIdle c)) := by
  unfold pageSentChip
  rw [outSending_of_up hex hup, hlane]

theorem exec_linkEncodeEnd (s : State) : exec .linkEncodeEnd s = .next (s.onChip encodeEndChip) := rfl

theorem encodeEndChip_ready {c : Chip} {r : Nat} {e : LineEntry} {x : Coded} (h : c.linkOut = .encoding r e x) :
    encodeEndChip c = recordReady { c with linkOut := .line r e x } := by
  unfold encodeEndChip
  rw [h]

/-! ## The byte on LDO (R175) -/

theorem chosenBytes_report {c : Chip} {x : Report} {rest : List Report} (h : arbitrate c = .report) (hreports : c.link.reports = x :: rest) :
    chosenBytes c = x.bytes := by
  unfold chosenBytes
  rw [h]
  dsimp only
  rw [hreports]

theorem chosenBytes_out {c : Chip} (h : arbitrate c = .out) : chosenBytes c = c.linkOut.bytes := by
  unfold chosenBytes
  rw [h]

theorem nextByteUp_idle {c : Chip} (h : arbitrate c = .idle) : nextByteUp c = 0 := by
  unfold nextByteUp chosenBytes
  rw [h]
  rfl

/-- Two parts with the same choice, the same oldest report, the same lane and the same send position show the same byte. -/
theorem nextByteUp_congr {c t : Chip} (hchoice : arbitrate t = arbitrate c) (hlane : t.linkOut = c.linkOut) (hsent : t.link.sent = c.link.sent)
    (hreports : arbitrate c = .report → t.link.reports.head? = c.link.reports.head?) : nextByteUp t = nextByteUp c := by
  unfold nextByteUp
  rw [hsent]
  congr 1
  cases hc : arbitrate c with
  | idle =>
    unfold chosenBytes
    rw [hchoice, hc]
  | out => rw [chosenBytes_out (hchoice.trans hc), chosenBytes_out hc, hlane]
  | report =>
    have hhead := hreports hc
    unfold chosenBytes
    rw [hchoice, hc]
    dsimp only
    cases hold : c.link.reports with
    | nil =>
      rw [hold] at hhead
      rw [List.head?_eq_none_iff.mp hhead]
    | cons x rest =>
      rw [hold] at hhead
      obtain ⟨more, hmore⟩ := List.head?_eq_some_iff.mp hhead
      rw [hmore]

/-- The choice after a release that cut a byte: that of the moment of the release, whatever is queued behind the records since (R175). -/
theorem arbitrate_cut {c t : Chip} (hup : t.link.up = c.link.up) (hlane : t.linkOut = c.linkOut)
    (hcut : c.link.up = .idle → t.link.cut = some (arbitrate c)) (hreports : c.link.reports ≠ [] → t.link.reports ≠ []) :
    arbitrate t = arbitrate c := by
  by_cases h : c.link.up = .idle
  · have ht := arbitrate_idle (hup.trans h)
    have hready : linkOutReady t = linkOutReady c := by
      unfold linkOutReady
      rw [hlane]
    rw [hcut h, hready] at ht
    cases hc : arbitrate c with
    | idle => rw [ht, hc, if_pos rfl]
    | report =>
      have hfresh : freshRecord c = .report := by
        rw [arbitrate_idle h] at hc
        split at hc
        · cases hc
        · split at hc
          · cases hc
          · exact hc
      rw [ht, hc, if_neg (by simp), if_neg (by simp), freshRecord_report (hreports (freshRecord_eq_report hfresh))]
    | out =>
      have hout : linkOutReady c = true := by
        rw [arbitrate_idle h] at hc
        split at hc
        · cases hc
        · split at hc
          next k => exact k.2
          next => exact freshRecord_eq_out hc
      rw [ht, hc, if_neg (by simp), if_pos ⟨rfl, hout⟩]
  · rw [arbitrate_part h, arbitrate_part (by rwa [hup]), hup]

theorem exec_lselRelease (bits : List Bool) (s : State) : exec (.lselRelease bits) s = .next (s.onChip (lselReleaseChip bits)) := rfl

/-- The part after a release of LSEL with no LINE record in decoding. -/
def released (bits : List Bool) (c : Chip) : Chip :=
  { c with linkIn := .idle, link := { c.link with selected := false, parser := .between, cut := cutByte bits c } }

theorem lselReleaseChip_plain {c : Chip} (h : ∀ r n first f d, c.linkIn ≠ .decoding r n first f d) (bits : List Bool) :
    lselReleaseChip bits c = released bits c := by
  unfold lselReleaseChip
  dsimp only
  split
  next r n first f d hin => exact absurd hin (h r n first f d)
  next => rfl

/-- The byte of the part after such a release, with records queued behind since. -/
theorem nextByteUp_released {c t : Chip} {bits : List Bool} (hex : exchanging c = true) (hbits : bits ≠ [])
    (hpart : c.link.up = .report → c.link.reports ≠ []) (hup : t.link.up = c.link.up) (hlane : t.linkOut = c.linkOut)
    (hsent : t.link.sent = c.link.sent) (hcut : t.link.cut = cutByte bits c) (hreports : ∃ more, t.link.reports = c.link.reports ++ more) :
    nextByteUp t = nextByteUp c := by
  obtain ⟨more, hmore⟩ := hreports
  have hstay : c.link.reports ≠ [] → t.link.reports.head? = c.link.reports.head? := fun h => by
    rw [hmore, List.head?_append_of_ne_nil _ h]
  have hchoice : arbitrate t = arbitrate c :=
    arbitrate_cut hup hlane (fun hidle => hcut.trans (cutByte_chosen hex hbits hidle)) fun h => by simp [hmore, h]
  refine nextByteUp_congr hchoice hlane hsent fun hreport => hstay ?_
  by_cases hidle : c.link.up = .idle
  · rw [arbitrate_idle hidle] at hreport
    split at hreport
    · cases hreport
    · split at hreport
      · cases hreport
      · exact freshRecord_eq_report hreport
  · rw [arbitrate_part hidle] at hreport
    exact hpart hreport

/-! ## A sink's head served (R5, R15) -/

theorem settleHold_empty {c : Chip} {r : Nat} {x : Ctx} (h : ctxOf c r = some x) (hhold : x.hold = []) :
    settleHold r c = modCtx r (fun x => { x with hold := [] }) c := by
  unfold settleHold
  rw [h]
  dsimp only
  rw [hhold]
  rfl

/-- A reference dropped leaves every route but for a LINK source's credit. -/
theorem ctxOf_dropReference {m n : Nat} {c : Chip} {x : Ctx} (h : ctxOf c n = some x) :
    ∃ g, ctxOf (dropReference m c) n = some { x with creditGranted := g } := by
  unfold dropReference
  split
  · split
    · obtain ⟨g, hg, -⟩ := ctxOf_returnSlot (m := m) h
      exact ⟨g, hg⟩
    · exact ⟨x.creditGranted, (ctxOf_setSlot _ _ _ _).trans h⟩
  · exact ⟨x.creditGranted, h⟩

theorem dropHead_line {k : Sink} {r : Nat} {x : Ctx} {e : LineEntry} {rest : List Entry} {c : Chip} (h : ctxOf c r = some x)
    (hq : x.queue k = .line e :: rest) : dropHead k r c = settleHold r (dropReference e.slot (modCtx r (fun x => x.setQueue k rest) c)) := by
  unfold dropHead
  rw [h]
  dsimp only
  rw [hq]

theorem setQueue_hold (x : Ctx) (k : Sink) (q : List Entry) : (x.setQueue k q).hold = x.hold := by cases k <;> rfl

/-- The line at the head of a queue, finished with nothing in the hold. -/
theorem dropHead_quiet {k : Sink} {r : Nat} {x : Ctx} {e : LineEntry} {rest : List Entry} {c : Chip} (h : ctxOf c r = some x)
    (hq : x.queue k = .line e :: rest) (hhold : x.hold = []) : dropHead k r c =
      modCtx r (fun x => { x with hold := [] }) (dropReference e.slot (modCtx r (fun x => x.setQueue k rest) c)) := by
  obtain ⟨g, hg⟩ := ctxOf_dropReference (m := e.slot) ((ctxOf_modCtx_self r (fun x => x.setQueue k rest) c).trans (congrArg (Option.map _) h))
  rw [dropHead_line h hq]
  exact settleHold_empty hg ((setQueue_hold x k rest).trans hhold)

/-- Settles O49, by the arbiter's choice, the byte it gives, and the ends of the records. -/
theorem upstreamRecordsAreSentInOrder : Obligations.UpstreamRecordsAreSentInOrder := by
  unfold Obligations.UpstreamRecordsAreSentInOrder
  refine ⟨fun s hup => ⟨fun hex hreports hcut => ?_, fun hex hreports hout => ?_, fun hreports hout => ?_⟩, fun s h => ?_,
    fun c => ⟨fun x rest hchoice hreports => ?_, fun hchoice => ?_, fun hup hchoice => ?_⟩, fun bits s hex hbits hpart hin => ?_,
    fun s hex hup => ?_, fun r e x s hlane => ?_, fun s => rfl, fun r e x s hex hup hlane => ?_, fun r tag s hex hup hlane => ?_,
    fun r n refs x e rest l c hx hq hhold hslot => ?_, fun r x m rest c hx hq hsinks hhold => ?_⟩
  · have hnext : nextRecord s.chip = .report := by
      rw [nextRecord_idle hup, if_neg (by rcases hcut with h | h <;> simp [h]), freshRecord_report hreports]
    exact exec_of_chip (exec_upstreamRecordStart s) (upstreamChip_starts hex hup hnext (by decide))
  · have hnext : nextRecord s.chip = .out := by
      rw [nextRecord_idle hup]
      split
      · rfl
      next hno => exact freshRecord_out (hreports.resolve_right fun h => hno ⟨h, hout⟩) hout
    exact exec_of_chip (exec_upstreamRecordStart s) (upstreamChip_starts hex hup hnext (by decide))
  · have hnext : nextRecord s.chip = .idle := by
      rw [nextRecord_idle hup, if_neg (by simp [hout]), freshRecord_idle hreports hout]
    exact exec_without_effect (exec_upstreamRecordStart s) (upstreamChip_waits (.inr (.inr hnext)))
  · exact exec_without_effect (exec_upstreamRecordStart s) (upstreamChip_waits (h.elim (fun k => .inr (.inl k)) .inl))
  · have harb : arbitrate c = .report := by
      rcases hchoice with hup | ⟨hup, hidle, hout⟩
      · rw [arbitrate_part (by simp [hup]), hup]
      · rw [arbitrate_idle hup, if_neg hidle, if_neg (fun h => by simp [hout h.1] at h), freshRecord_report (by simp [hreports])]
    unfold nextByteUp
    rw [chosenBytes_report harb hreports]
  · have harb : arbitrate c = .out := by
      rcases hchoice with hup | ⟨hup, hready, hcut | ⟨hidle, hreports⟩⟩
      · rw [arbitrate_part (by simp [hup]), hup]
      · rw [arbitrate_idle hup, if_neg (by simp [hcut]), if_pos ⟨hcut, hready⟩]
      · rw [arbitrate_idle hup, if_neg hidle]
        split
        · rfl
        · exact freshRecord_out hreports hready
    unfold nextByteUp
    rw [chosenBytes_out harb]
  · refine nextByteUp_idle ?_
    rw [arbitrate_idle hup]
    rcases hchoice with hcut | ⟨hreports, hout⟩
    · rw [if_pos hcut]
    · split
      · rfl
      · rw [if_neg (by simp [hout]), freshRecord_idle hreports hout]
  · have hbyte : ∀ t : Chip, t.link.up = s.chip.link.up → t.linkOut = s.chip.linkOut → t.link.sent = s.chip.link.sent →
        t.link.cut = cutByte bits s.chip → (∃ more, t.link.reports = s.chip.link.reports ++ more) → nextByteUp t = nextByteUp s.chip :=
      fun t => nextByteUp_released hex hbits hpart
    refine ⟨_, exec_of_chip (exec_lselRelease bits s) (lselReleaseChip_plain hin bits), rfl,
      hbyte _ rfl rfl rfl rfl ⟨[], (List.append_nil _).symm⟩, fun x => ?_, fun a b u hu => ?_⟩
    · exact hbyte _ (by simp [released]) (by simp [released]) (by simp [released])
        (by simp [released]) ⟨[x], queueRecord_reports _ _⟩
    · have hselect : exec (.lselAssert a b []) (s.withChip (released bits s.chip)) =
          .next ((s.withChip (released bits s.chip)).onChip lselAssertChip) := rfl
      obtain rfl := Host.Outcome.next.inj (hselect.symm.trans hu)
      exact hbyte _ rfl rfl rfl rfl ⟨[], (List.append_nil _).symm⟩
  · exact exec_of_chip (exec_reportRecordSent s) (reportSentChip_sent hex (by rw [nextRecord_part (by simp [hup]), hup]))
  · refine ⟨_, exec_of_chip (exec_linkEncodeEnd s) (encodeEndChip_ready hlane), by simp, ?_, ?_, by simp, rfl⟩
    · unfold linkOutReady
      simp
    · exact (recordReady_kept (Kept.update .rfl)).1
  · exact exec_of_chip (exec_outboundLineSent s) (lineSentChip_sent hex hup hlane)
  · exact exec_of_chip (exec_outboundPageEndSent s) (pageSentChip_sent hex hup hlane)
  · rw [dropHead_quiet (k := .link) hx hq hhold, slotAt_modCtx, slotAt_dropReference_self (by rw [slotAt_modCtx]; exact hslot)]
  · have hserved := serveMark_alone (k := .link) hx hq hsinks hhold
    have hleft : ctxOf (modCtx r (leaveMark .link m rest) c) r = some (leaveMark .link m rest x) := by
      rw [ctxOf_modCtx_self, hx]
      rfl
    have htold : ctxOf (queueEvent (.pageDone r m.lines m.repaired m.truncated m.isPartial m.pageId) (modCtx r (leaveMark .link m rest) c)) r =
        some (leaveMark .link m rest x) := by
      rw [ctxOf_queueEvent]
      exact hleft
    have hdone : getRoute (pageDone r m (modCtx r (leaveMark .link m rest) c)) r = _ := getRoute_setRoute_self (lt_of_ctxOf htold) _
    have hctx : ctxOf (pageDone r m (modCtx r (leaveMark .link m rest) c)) r = some (leaveMark .link m rest x) :=
      (congrArg Route.ctx hdone).trans htold
    have hroute : (getRoute (queueEvent (.pageDone r m.lines m.repaired m.truncated m.isPartial m.pageId)
        (modCtx r (leaveMark .link m rest) c)) r).pagesDone = (getRoute c r).pagesDone := by
      rw [getRoute_congr (queueEvent_routes (e := .pageDone ..) (fun _ _ h => nomatch h) (fun h => nomatch h) _), getRoute_modCtx_self hx]
    refine ⟨?_, _, by rw [hserved, ctxOf_modCtx_self, hctx]; rfl, rfl⟩
    rw [hserved, getRoute_modCtx_self hctx, hdone]
    show min 65535 (_ + 1) = _
    rw [hroute]

end Sys2Proof.Proofs
end

section
/-!
PROOFS. Nothing but LSEL itself moves LSEL (10_the_page_link.md R175): the directives, the records and the bytes exchanged leave the part
selected as it was.
-/

-- One declaration after another: the package as one text keeps within the check's limit on threads.
set_option Elab.async false

namespace Sys2Proof.Proofs

open Sys2Proof Sys2Proof.Machine

/-- What leaves the backdrop leaves LSEL. -/
theorem selected_of_kept {c t : Chip} (h : Kept c t) : t.link.selected = c.link.selected := by
  obtain ⟨-, -, -, -, -, -, -, hlink⟩ := backdrop_parts h.1
  exact congrArg (fun l => l.selected) hlink

theorem selected_fold {α : Type} {f : Chip → α → Chip} (h : ∀ c x, (f c x).link.selected = c.link.selected) (xs : List α) (c : Chip) :
    (xs.foldl f c).link.selected = c.link.selected := by
  induction xs generalizing c with
  | nil => rfl
  | cons x xs ih => exact (ih (f c x)).trans (h c x)

theorem selected_withLength {p : List Byte} {n : Nat} {f : Chip → Chip} {c : Chip} (h : (f c).link.selected = c.link.selected) :
    (withLength p n f c).link.selected = c.link.selected := by
  unfold withLength
  split
  · exact h
  · simp

theorem selected_withLoad {code : Byte} {p : List Byte} {f : Nat → List Byte → Chip → Chip} {c : Chip}
    (h : ∀ off d, (f off d c).link.selected = c.link.selected) : (withLoad code p f c).link.selected = c.link.selected := by
  unfold withLoad
  split
  · simp
  · exact h _ _

/-! ## The operations of the directives -/

@[simp] theorem refuseProtected_selected (p : List Byte) (c : Chip) : (refuseProtected p c).link.selected = c.link.selected :=
  selected_of_kept (refuseProtected_kept .rfl p)

@[simp] theorem settle_selected (r : Nat) (c : Chip) : (settle r c).link.selected = c.link.selected := selected_of_kept (settle_kept .rfl r)

@[simp] theorem settleAll_selected (c : Chip) : (settleAll c).link.selected = c.link.selected := selected_of_kept (settleAll_kept .rfl)

@[simp] theorem abortRoute_selected (r : Nat) (k : CloseCause) (c : Chip) : (abortRoute r k c).link.selected = c.link.selected :=
  selected_of_kept (abortRoute_kept .rfl r k)

@[simp] theorem retryClaim_selected (c : Chip) : (retryClaim c).link.selected = c.link.selected := selected_of_kept (retryClaim_kept .rfl)

@[simp] theorem removePage_selected (id : Nat) (c : Chip) : (removePage id c).link.selected = c.link.selected := rfl

@[simp] theorem modBlock_selected (b : Nat) (f : Block → Block) (c : Chip) : (modBlock b f c).link.selected = c.link.selected := rfl

@[simp] theorem retireBlocks_selected (why : RetireFor) (bs : List Nat) (c : Chip) : (retireBlocks why bs c).link.selected = c.link.selected :=
  selected_of_kept (retireBlocks_kept .rfl why bs)

@[simp] theorem totalNext_selected (n : Nat) (c : Chip) : (totalNext n c).link.selected = c.link.selected := selected_of_kept (totalNext_kept .rfl n)

@[simp] theorem trip_selected (c : Chip) : (trip c).link.selected = c.link.selected := selected_of_kept (trip_kept .rfl)

@[simp] theorem endInstall_selected (res : OpResult) (c : Chip) : (endInstall res c).link.selected = c.link.selected := by
  unfold endInstall
  split
  · rfl
  · simp

@[simp] theorem retireEnded_selected (why : RetireFor) (failed : Bool) (c : Chip) : (retireEnded why failed c).link.selected = c.link.selected := by
  unfold retireEnded
  dsimp only
  split
  · split <;> simp
  · rfl

@[simp] theorem checkEnds_selected (res : ImageResult) (c : Chip) : (checkEnds res c).link.selected = c.link.selected := by
  unfold checkEnds
  dsimp only
  split
  · split
    · simp
    · split <;> simp
  · rfl

theorem startCheck_selected (id length sum : Nat) (c : Chip) : (startCheck id length sum c).link.selected = c.link.selected := by
  have hlines : ∀ n, (if badLength length n then checkEnds (.absent .length) c
      else askRead .imageRead { c with boot := { c.boot with check := some ⟨id, length, sum, 0, 0, 0, 0⟩ } }).link.selected = c.link.selected :=
    fun n => by split <;> simp
  exact hlines _

@[simp] theorem endAbsent_selected (c : Chip) : (endAbsent c).link.selected = c.link.selected := by simp [endAbsent_eq, absentEnded]

@[simp] theorem endComplete_selected (c : Chip) : (endComplete c).link.selected = c.link.selected := by simp [endComplete_eq, imageEnded]

/-! ## A host reset (R149) -/

@[simp] theorem abandonLine_selected (c : Chip) : (abandonLine c).link.selected = c.link.selected := selected_of_kept (abandonLine_kept .rfl)

@[simp] theorem linkHostReset_selected (c : Chip) : (linkHostReset c).link.selected = c.link.selected := abandonLine_selected c

theorem hostReset_selected (c : Chip) : (hostReset c).link.selected = c.link.selected := by
  unfold hostReset enterHolding
  simp

theorem addReset_selected {f : Chip → Chip} {c : Chip} (h : (f c).link.selected = c.link.selected) : (addReset f c).link.selected = c.link.selected := by
  unfold addReset
  split
  · exact h
  · exact (hostReset_selected _).trans h

@[simp] theorem serviceFailure_selected (c : Chip) : (serviceFailure c).link.selected = c.link.selected := by
  have hrelease : ∀ d, (releaseHold d).link.selected = d.link.selected := fun d => by unfold releaseHold; split <;> rfl
  have haborted : (allAborted c).link.selected = c.link.selected := selected_fold (fun c r => abortRoute_selected r .aborted c) routeNumbers _
  have hpulsed : (pulsed c).link.selected = (allAborted c).link.selected := addReset_selected (f := askPulse) rfl
  rw [serviceFailure_eq, settleAll_selected, hrelease]
  exact hpulsed.trans haborted

/-! ## The directives -/

theorem loadScanTable_selected (w n : Nat) (p : List Byte) (write : Nat → List Byte → ScanTables → ScanTables) (off : Nat) (d : List Byte)
    (c : Chip) : (loadScanTable w n p write off d c).link.selected = c.link.selected := by
  unfold loadScanTable
  split
  · simp
  · split <;> simp

theorem loadRamp_selected (p : List Byte) (ramp : List Nat) (busy : Bool) {write : List Nat → Chip} (off : Nat) (d : List Byte) {c : Chip}
    (h : ∀ t, (write t).link.selected = c.link.selected) : (loadRamp p ramp busy write off d c).link.selected = c.link.selected := by
  unfold loadRamp
  split
  · simp
  · split
    · simp
    · split <;> simp [h]

theorem loadScanRampChip_selected (p : List Byte) (c : Chip) : (loadScanRampChip p c).link.selected = c.link.selected :=
  selected_withLoad fun off d => loadRamp_selected p _ _ off d fun _ => rfl

theorem loadPrintRampChip_selected (p : List Byte) (c : Chip) : (loadPrintRampChip p c).link.selected = c.link.selected :=
  selected_withLoad fun off d => loadRamp_selected p _ _ off d fun _ => rfl

theorem loadHeatChip_selected (p : List Byte) (c : Chip) : (loadHeatChip p c).link.selected = c.link.selected := by
  refine selected_withLoad fun off d => ?_
  dsimp only
  split
  · simp
  · split <;> simp

theorem loadParkChip_selected (p : List Byte) (c : Chip) : (loadParkChip p c).link.selected = c.link.selected := by
  refine selected_withLoad fun off d => ?_
  dsimp only
  split <;> simp

theorem writeWakes_selected (off : Nat) (es : List WakeEntry) (c : Chip) : (writeWakes off es c).link.selected = c.link.selected := by
  induction es generalizing off c with
  | nil => rfl
  | cons e es ih => exact (ih (off + 1) (writeWake off e c)).trans (by unfold writeWake; split <;> rfl)

theorem loadWakeChip_selected (p : List Byte) (c : Chip) : (loadWakeChip p c).link.selected = c.link.selected := by
  refine selected_withLoad fun off d => ?_
  split
  · simp
  · split
    · simp
    next es _ => simp [writeWakes_selected]

theorem acceptDelete_selected (id : Nat) (c : Chip) : (acceptDelete id c).link.selected = c.link.selected := by
  have hpage : ∀ e : Chip, (if e.boot.installed = some id then loseImage e else e).link.selected = e.link.selected := fun e => by
    split <;> rfl
  have hblocks : ∀ (bs : List Nat) (e : Chip), (if bs.isEmpty then queueEvent (.storeOpDone .delete (some id) .done) e
      else retireBlocks (.delete id) bs e).link.selected = e.link.selected := fun bs e => by split <;> simp
  exact (hblocks _ _).trans (hpage _)

theorem deleteChip_selected (p : List Byte) (c : Chip) : (deleteChip p c).link.selected = c.link.selected := by
  refine selected_withLength ?_
  split <;> simp [acceptDelete_selected]

theorem acceptLockPage_selected (id : Nat) (c : Chip) : (acceptLockPage id c).link.selected = c.link.selected := by
  have hset : ∀ bs d, (setLocks bs d).link.selected = d.link.selected := fun bs d => by
    unfold setLocks
    exact selected_fold (f := fun c b => { modBlock b (fun x => { x with lock := true }) c with
      store := { (modBlock b (fun x => { x with lock := true }) c).store with
        erasedList := c.store.erasedList.filter (· ≠ b) } }) (fun _ _ => rfl) bs d
  have hcells : ∀ bs : List Nat, (if bs.isEmpty then queueEvent (.storeOpDone .lockPage (some id) .done) c
      else askProgram (.row (.lockPage id bs)) (setLocks bs c)).link.selected = c.link.selected := fun bs => by split <;> simp [hset]
  exact hcells _

theorem lockPageChip_selected (p : List Byte) (c : Chip) : (lockPageChip p c).link.selected = c.link.selected := by
  refine selected_withLength ?_
  split <;> simp [acceptLockPage_selected]

theorem setMasterChip_selected (p : List Byte) (c : Chip) : (setMasterChip p c).link.selected = c.link.selected := by
  refine selected_withLength ?_
  dsimp only
  split
  · simp
  · split
    · simp
    · split <;> simp

theorem setCodeChip_selected (p : List Byte) (c : Chip) : (setCodeChip p c).link.selected = c.link.selected := by
  unfold setCodeChip
  split
  · simp
  · split
    · simp
    · split <;> simp

theorem setupChip_selected (k : Setup) (p : List Byte) (c : Chip) : (setupChip k p c).link.selected = c.link.selected := by
  refine selected_withLength ?_
  dsimp only
  split <;> simp

theorem serviceRequestChip_selected (p : List Byte) (c : Chip) : (serviceRequestChip p c).link.selected = c.link.selected := by
  refine selected_withLength ?_
  split
  · simp
  · split
    · simp
    · split <;> simp [setService]

theorem serviceCodeChip_selected (p : List Byte) (c : Chip) : (serviceCodeChip p c).link.selected = c.link.selected := by
  refine selected_withLength ?_
  split
  · split <;> simp [setService]
  · simp

theorem bootFetchChip_selected (p : List Byte) (c : Chip) : (bootFetchChip p c).link.selected = c.link.selected := by
  refine selected_withLength ?_
  dsimp only
  split
  · simp
  · split
    · simp
    · split
      · simp
      · split <;> simp

theorem sleepChip_selected (p : List Byte) (c : Chip) : (sleepChip p c).link.selected = c.link.selected := by
  refine selected_withLength ?_
  dsimp only
  split
  · simp
  · split <;> simp

theorem attentionChip_selected (p : List Byte) (c : Chip) : (attentionChip p c).link.selected = c.link.selected := by
  refine selected_withLength ?_
  dsimp only
  split <;> simp

theorem directoryChip_selected (p : List Byte) (c : Chip) : (directoryChip p c).link.selected = c.link.selected := by
  refine selected_withLength ?_
  dsimp only
  split <;> simp

theorem installChip_selected (m : List Host.Cell) (p : List Byte) (c : Chip) : (installChip m p c).link.selected = c.link.selected := by
  refine selected_withLength ?_
  dsimp only
  split
  · simp
  · simp
  · exact (startCheck_selected _ _ _ _).trans (by simp)

/-! ## The directives that touch the flash -/

theorem confirmState_selected (p : List Byte) (s : State) : (confirmState p s).chip.link.selected = s.chip.link.selected := by
  have hbegin : ∀ k (t : State), (beginSetup k t).chip.link.selected = t.chip.link.selected := fun k t => by
    cases k with
    | none => rfl
    | clearLocks => simp [beginSetup, State.onChip]
    | totalErase => simp [beginSetup, beginTotal, loseImage]
  unfold confirmState
  dsimp only
  split
  · simp [State.onChip]
  · split
    · simp [State.onChip]
    · split
      · simp [State.onChip]
      · simp [State.onChip]
      · rw [hbegin]
        simp [State.onChip]

theorem dropLocked_selected (c : Chip) (j : Job) : (dropLocked c j).link.selected = c.link.selected := by
  unfold dropLocked
  split <;> simp

theorem cutLockedErase_selected (s : State) : (cutLockedErase s).chip.link.selected = s.chip.link.selected := by
  unfold cutLockedErase
  split
  · split
    · dsimp only
      split <;> simp [setErase]
    · rfl
  · rfl

theorem cutLockedHolder_selected (s : State) : (cutLockedHolder s).chip.link.selected = s.chip.link.selected := by
  unfold cutLockedHolder
  split
  · split
    · exact dropLocked_selected _ _
    · rfl
  · rfl

theorem closeService_selected (s : State) : (closeService s).chip.link.selected = s.chip.link.selected := by
  have habort : ∀ c : Chip, (if masterSet c then (bootWriters c).foldl (fun c r => abortRoute r .protected_ c) c else c).link.selected =
      c.link.selected := fun c => by
    split
    · exact selected_fold (fun c r => abortRoute_selected r .protected_ c) _ c
    · rfl
  have hover : (serviceOver s).chip.link.selected = s.chip.link.selected := by
    unfold serviceOver
    dsimp only [State.onChip]
    rw [show ∀ d, (grant d).link = d.link from fun d => by simp, settleAll_selected, retryClaim_selected]
    refine (selected_fold dropLocked_selected _ _).trans ?_
    exact (cutLockedHolder_selected _).trans ((cutLockedErase_selected _).trans ((habort _).trans rfl))
  unfold closeService
  split
  · exact hover
  · rfl
  · rfl

theorem restartState_selected (p : List Byte) (s : State) : (restartState p s).chip.link.selected = s.chip.link.selected := by
  have hrules : ∀ c, (restartRules c).link.selected = c.link.selected := fun c => by
    have hsetup : ∀ d : Chip, (if d.store.setup = .none then d else
        { d with store := { d.store with setup := .none, sequenceFault := true } }).link = d.link := fun d => by split <;> rfl
    have hsleep : ∀ d : Chip, (if d.power.state = .sleepPending then
        { d with power := { d.power with state := .run, wakeTimer := 0 } } else d).link = d.link := fun d => by split <;> rfl
    have hserving : ∀ d : Chip, (if d.boot.state = .serving then
        { dropChunk d with boot := { (dropChunk d).boot with state := .complete, report := none } } else d).link = d.link := fun d => by
      split <;> simp
    exact congrArg Link.selected ((hserving _).trans ((hsleep _).trans (hsetup c)))
  have hrestart : ∀ c, (restartChip p c).link.selected = c.link.selected := fun c => by
    have hblocks : (blocksRestart (reply p .accepted (linkRestart c))).link.selected = c.link.selected := by
      show (reply p .accepted (linkRestart c)).link.selected = _
      simp [linkRestart]
    unfold restartChip
    dsimp only
    split
    · exact hblocks
    · rw [trip_selected, hblocks]
  unfold restartState
  dsimp only
  split
  · exact (hrestart _).trans (hrules _)
  · simp [hrules]

/-! ## Directives taken, and the bytes exchanged (R175, R179) -/

theorem owned_selected {p : List Byte} {f : State → State} {s : State} (h : (f s).chip.link.selected = s.chip.link.selected) :
    (owned p f s).chip.link.selected = s.chip.link.selected := by
  unfold owned
  split
  · simp [State.onChip]
  · exact h

theorem ownedChip_selected {p : List Byte} {f : Chip → Chip} (h : ∀ c, (f c).link.selected = c.link.selected) (s : State) :
    (ownedChip p f s).chip.link.selected = s.chip.link.selected := owned_selected (h s.chip)

/-- What a directive's owner does leaves LSEL. -/
theorem directive_selected (doce papx : Bool) (i : Instr) (s : State) : (directive doce papx i s).chip.link.selected = s.chip.link.selected := by
  cases i with
  | openRoute p => exact ownedChip_selected (fun _ => selected_of_kept (openChip_kept .rfl p)) s
  | close p => exact ownedChip_selected (fun _ => selected_of_kept (closeChip_kept .rfl p)) s
  | abort p => exact ownedChip_selected (fun _ => selected_of_kept (abortChip_kept .rfl p)) s
  | redirect p => exact ownedChip_selected (fun _ => selected_of_kept (redirectChip_kept .rfl p)) s
  | rearm p => exact ownedChip_selected (fun _ => selected_of_kept (rearmChip_kept .rfl p)) s
  | loadShading p => exact ownedChip_selected (fun _ => selected_withLoad fun _ _ => loadScanTable_selected ..) s
  | loadTone p => exact ownedChip_selected (fun _ => selected_withLoad fun _ _ => loadScanTable_selected ..) s
  | loadDither p => exact ownedChip_selected (fun _ => selected_withLoad fun _ _ => loadScanTable_selected ..) s
  | loadScanRamp p => exact ownedChip_selected (loadScanRampChip_selected p) s
  | loadPrintRamp p => exact ownedChip_selected (loadPrintRampChip_selected p) s
  | loadHeat p => exact ownedChip_selected (loadHeatChip_selected p) s
  | loadPark p => exact ownedChip_selected (loadParkChip_selected p) s
  | loadWake p => exact ownedChip_selected (loadWakeChip_selected p) s
  | delete p => exact ownedChip_selected (deleteChip_selected p) s
  | lockPage p => exact ownedChip_selected (lockPageChip_selected p) s
  | setMasterLock p => exact ownedChip_selected (setMasterChip_selected p) s
  | clearLocks p => exact ownedChip_selected (setupChip_selected .clearLocks p) s
  | totalErase p => exact ownedChip_selected (setupChip_selected .totalErase p) s
  | confirm p =>
    show (confirmOwned p s).chip.link.selected = _
    unfold confirmOwned
    split
    · simp [State.onChip]
    · exact confirmState_selected p s
  | clearStoreStatus p => exact ownedChip_selected (fun c => selected_withLength (by simp)) s
  | installBoot p => exact owned_selected (installChip_selected _ p _)
  | serviceRequest p => exact ownedChip_selected (serviceRequestChip_selected p) s
  | serviceCode p => exact ownedChip_selected (serviceCodeChip_selected p) s
  | serviceEnd p =>
    refine owned_selected ?_
    unfold serviceEndState
    split
    · rw [closeService_selected]
      simp [State.onChip]
    · simp [State.onChip]
  | setCode p => exact ownedChip_selected (setCodeChip_selected p) s
  | bootFetch p => exact ownedChip_selected (bootFetchChip_selected p) s
  | sleep p => exact ownedChip_selected (sleepChip_selected p) s
  | attentionMode p => exact ownedChip_selected (attentionChip_selected p) s
  | statusRequest p => exact ownedChip_selected (fun _ => selected_of_kept (statusChip_kept .rfl p _ _)) s
  | directoryRequest p => exact ownedChip_selected (directoryChip_selected p) s
  | unknownDirective tag p => exact selected_of_kept (unknownChip_kept .rfl p)
  | _ => rfl

theorem takeDirective_selected (doce papx : Bool) (i j : Instr) (s : State) :
    (takeDirective i (directive doce papx j) s).chip.link.selected = s.chip.link.selected :=
  (directive_selected doce papx j _).trans (by simp [State.onChip])

theorem takeHeld_selected (doce papx : Bool) (s : State) : (takeHeld doce papx s).chip.link.selected = s.chip.link.selected := by
  unfold takeHeld
  split
  · split
    · exact takeDirective_selected doce papx _ _ _
    · rfl
  · rfl

theorem recordEnds_selected (doce papx : Bool) (tag : Byte) (p : List Byte) (s : State) :
    (recordEnds doce papx tag p s).chip.link.selected = s.chip.link.selected := by
  have harrive : ∀ i, (arrive i (directive doce papx i) s).chip.link.selected = s.chip.link.selected := fun i => by
    unfold arrive
    split
    · rfl
    · split
      · rfl
      · split
        · exact takeDirective_selected doce papx i i s
        · rfl
  unfold recordEnds
  split
  · exact selected_of_kept (lineEnd_kept .rfl)
  · split
    · exact selected_of_kept (pageEndTaken_kept .rfl p)
    · split
      · exact restartState_selected p s
      · exact harrive _

theorem sendByte_selected (c : Chip) : (sendByte c).link.selected = c.link.selected := by
  have hreport : (reportSentChip c).link.selected = c.link.selected := by unfold reportSentChip; split <;> rfl
  have hidle : (outIdle c).link.selected = c.link.selected := rfl
  have hline : (lineSentChip c).link.selected = c.link.selected := by
    unfold lineSentChip
    split
    · exact (settle_selected _ _).trans ((selected_of_kept (dropHead_kept .rfl _ _)).trans hidle)
    · exact (settleAll_selected _).trans hidle
    · rfl
  have hpage : (pageSentChip c).link.selected = c.link.selected := by
    unfold pageSentChip
    split
    · exact (settle_selected _ _).trans ((selected_of_kept (serveMark_kept .rfl _ _ _)).trans hidle)
    · exact (settleAll_selected _).trans hidle
    · exact (settleAll_selected _).trans hidle
    · rfl
  unfold sendByte
  split
  · rfl
  · split
    · rfl
    · split
      · exact hreport
      · unfold outSentChip
        split
        · exact hline
        · exact hpage

theorem parserTake_selected (b : Byte) (c : Chip) : (parserTake b c).link.selected = c.link.selected := by
  have hbytes : ∀ k, (lineBytes k [b] c).link.selected = c.link.selected := fun k => selected_of_kept (lineBytes_kept .rfl k [b])
  unfold parserTake
  dsimp only [setParser]
  split
  · exact hbytes _
  · rfl

/-- One byte exchanged leaves LSEL. -/
theorem exchange_selected (doce papx : Bool) (s : State) (b : Byte) : (exchange doce papx s b).chip.link.selected = s.chip.link.selected := by
  have htaken : (takeHeld doce papx (s.onChip sendByte)).chip.link.selected = s.chip.link.selected :=
    (takeHeld_selected doce papx _).trans (sendByte_selected s.chip)
  have hparsed := (parserTake_selected b (takeHeld doce papx (s.onChip sendByte)).chip).trans htaken
  unfold exchange
  split
  · dsimp only
    split
    · exact (recordEnds_selected doce papx _ _ _).trans hparsed
    · exact hparsed
  · rfl

end Sys2Proof.Proofs
end

section
/-!
PROOFS. Records, bytes and selects (10_the_page_link.md R175 to R179, 01_line_pool_and_routes.md R18): what bytes exchanged do is what the
command of their record does.
-/

-- One declaration after another: the package as one text keeps within the check's limit on threads.
set_option Elab.async false

namespace Sys2Proof.Proofs

open Sys2Proof Sys2Proof.Machine

/-! ## Bytes of a part with nothing to send -/

/-- A part that exchanges bytes and has nothing to send and no directive held. -/
structure Silent (c : Chip) : Prop where
  exchanging : exchanging c = true
  up : c.link.up = .idle
  reports : c.link.reports = []
  lane : linkOutReady c = false
  held : c.link.held = none
  cut : c.link.cut = none

theorem Silent.setParser {c : Chip} (h : Silent c) (x : Parser) : Silent (setParser x c) :=
  ⟨h.exchanging, h.up, h.reports, h.lane, h.held, h.cut⟩

theorem Silent.send {c : Chip} (h : Silent c) : sendByte c = c :=
  sendByte_idle ((arbitrate_fresh h.up h.cut).trans (freshRecord_idle h.reports h.lane)) h.cut

/-- A byte downstream with fill upstream: the parser takes it, and a record that it ends is taken. -/
theorem exchange_silent {s : State} (h : Silent s.chip) (doce papx : Bool) (b : Byte) : exchange doce papx s b =
    match s.chip.link.parser.ended b with
    | some x => recordEnds doce papx x.1 x.2 (s.onChip (parserTake b))
    | none => s.onChip (parserTake b) := by
  have hsent : s.onChip sendByte = s := onChip_eq_self h.send
  rw [exchange_eq h.exchanging, hsent, takeHeld_none h.held] <;> rfl

/-- The part with its parser in a state. -/
def parsing (x : Parser) (s : State) : State := s.withChip (setParser x s.chip)

theorem parsing_between {s : State} (h : s.chip.link.parser = .between) : parsing .between s = s :=
  congrArg s.withChip (setParser_between h)

theorem parserTake_plain {x : Parser} (h : ∀ tag n k, x ≠ .payload tag n k) (b : Byte) (s : State) :
    (parsing x s).onChip (parserTake b) = parsing (x.byte b) s := by
  cases x with
  | payload tag n k => exact absurd rfl (h tag n k)
  | between => rfl
  | lengthLow tag => rfl
  | lengthHigh tag low => rfl
  | gather tag n got => rfl
  | skip n k => rfl
  | discard => rfl

/-- A byte that ends no record moves the parser on, and nothing else. -/
theorem exchange_parsing {x : Parser} {s : State} (h : Silent s.chip) (hx : ∀ tag n k, x ≠ .payload tag n k) {b : Byte}
    (hb : x.ended b = none) (doce papx : Bool) : exchange doce papx (parsing x s) b = parsing (x.byte b) s := by
  have hended : (parsing x s).chip.link.parser.ended b = none := hb
  have htake := exchange_silent (s := parsing x s) (h.setParser x) doce papx b
  rw [hended] at htake
  exact htake.trans (parserTake_plain hx b s)

/-- A byte that ends a record: the record is taken with the parser between records again. -/
theorem exchange_ending {x : Parser} {s : State} (h : Silent s.chip) (hx : ∀ tag n k, x ≠ .payload tag n k) {b tag : Byte} {p : List Byte}
    (hb : x.ended b = some (tag, p)) (doce papx : Bool) :
    exchange doce papx (parsing x s) b = recordEnds doce papx tag p (parsing (x.byte b) s) := by
  have hended : (parsing x s).chip.link.parser.ended b = some (tag, p) := hb
  have htake := exchange_silent (s := parsing x s) (h.setParser x) doce papx b
  rw [hended] at htake
  exact htake.trans (congrArg (recordEnds doce papx tag p) (parserTake_plain hx b s))

/-- The bytes of a skipped record. -/
theorem exchanges_skip {s : State} (h : Silent s.chip) (doce papx : Bool) (bytes : List Byte) (n k : Nat) (hne : bytes ≠ [])
    (hk : k + bytes.length = n) : bytes.foldl (exchange doce papx) (parsing (.skip n k) s) = parsing .between s := by
  induction bytes generalizing k with
  | nil => exact absurd rfl hne
  | cons b bs ih =>
    have hlen : k + 1 + bs.length = n := by
      rw [List.length_cons] at hk
      omega
    have hbyte : exchange doce papx (parsing (.skip n k) s) b = parsing (Parser.byte (.skip n k) b) s :=
      exchange_parsing h (by rintro _ _ _ ⟨⟩) rfl doce papx
    rw [List.foldl_cons, hbyte]
    cases bs with
    | nil =>
      have hlast : Parser.byte (.skip n k) b = .between := if_pos (by simpa using hlen.ge)
      rw [hlast]
      rfl
    | cons a as =>
      have hmore : Parser.byte (.skip n k) b = .skip n (k + 1) := if_neg (by simp only [List.length_cons] at hlen; omega)
      rw [hmore]
      exact ih (k + 1) (List.cons_ne_nil a as) hlen

/-- The bytes of a record that is gathered: with the last one it is taken. -/
theorem exchanges_gather {s : State} (h : Silent s.chip) (doce papx : Bool) (tag : Byte) (bytes got : List Byte) (n : Nat) (hne : bytes ≠ [])
    (hk : got.length + bytes.length = n) : bytes.foldl (exchange doce papx) (parsing (.gather tag n got) s) =
      recordEnds doce papx tag (got ++ bytes) (parsing .between s) := by
  induction bytes generalizing got with
  | nil => exact absurd rfl hne
  | cons b bs ih =>
    have hlen : got.length + 1 + bs.length = n := by
      rw [List.length_cons] at hk
      omega
    have hplain : ∀ t m k, Parser.gather tag n got ≠ .payload t m k := by rintro _ _ _ ⟨⟩
    rw [List.foldl_cons]
    cases bs with
    | nil =>
      have hfull : n ≤ got.length + 1 := by simpa using hlen.ge
      have hended : (Parser.gather tag n got).ended b = some (tag, got ++ [b]) := if_pos hfull
      have hbyte : (Parser.gather tag n got).byte b = .between := if_pos hfull
      rw [exchange_ending h hplain hended, hbyte]
      rfl
    | cons a as =>
      have hshort : ¬ n ≤ got.length + 1 := by simp only [List.length_cons] at hlen; omega
      have hended : (Parser.gather tag n got).ended b = none := if_neg hshort
      have hbyte : (Parser.gather tag n got).byte b = .gather tag n (got ++ [b]) := if_neg hshort
      rw [exchange_parsing h hplain hended, hbyte, ih (got ++ [b]) (List.cons_ne_nil a as) (by simpa using hlen),
        List.append_assoc, List.cons_append, List.nil_append]

/-- Tag and length of a record: the parser knows its length. -/
theorem exchanges_header {s : State} (h : Silent s.chip) (hbetween : s.chip.link.parser = .between) (doce papx : Bool) {tag : Byte}
    (htag : tag ≠ 0) (low : Byte) : [tag, low].foldl (exchange doce papx) s = parsing (.lengthHigh tag low) s := by
  have hself : s = parsing .between s := (parsing_between hbetween).symm
  have hfirst : exchange doce papx (parsing .between s) tag = parsing (.lengthLow tag) s := by
    have hbyte : Parser.between.byte tag = .lengthLow tag := if_neg htag
    rw [exchange_parsing h (by rintro _ _ _ ⟨⟩) rfl, hbyte]
  have hsecond : exchange doce papx (parsing (.lengthLow tag) s) low = parsing (.lengthHigh tag low) s :=
    exchange_parsing h (by rintro _ _ _ ⟨⟩) rfl doce papx
  calc [tag, low].foldl (exchange doce papx) s = [tag, low].foldl (exchange doce papx) (parsing .between s) := by rw [← hself]
    _ = parsing (.lengthHigh tag low) s := by simp only [List.foldl_cons, List.foldl_nil, hfirst, hsecond]

/-- What the bytes of a whole record do, that is no LINE record: a skipped one nothing, another what its end does. -/
theorem exchanges_record {s : State} (h : Silent s.chip) (hbetween : s.chip.link.parser = .between) (doce papx : Bool) {tag : Byte}
    (htag : tag ≠ 0) (hline : tag ≠ 1) {p : List Byte} (hp : p.length ≤ 600) :
    (recordBytes tag p).foldl (exchange doce papx) s = if skippedTag tag then s else recordEnds doce papx tag p s := by
  have hself : parsing .between s = s := parsing_between hbetween
  have hlength : (byteOf p.length).toNat + 256 * (byteOf (p.length / 256)).toNat = p.length := by
    simp only [byteOf, BitVec.toNat_ofNat]
    omega
  have hbytes : recordBytes tag p = [tag, byteOf p.length] ++ (byteOf (p.length / 256) :: p) := rfl
  have hplain : ∀ t m k, Parser.lengthHigh tag (byteOf p.length) ≠ .payload t m k := by rintro _ _ _ ⟨⟩
  have hopened : (Parser.lengthHigh tag (byteOf p.length)).byte (byteOf (p.length / 256)) =
      if p.length = 0 then .between else if skippedTag tag then .skip p.length 0 else .gather tag p.length [] := by
    have hunfold : (Parser.lengthHigh tag (byteOf p.length)).byte (byteOf (p.length / 256)) = Parser.opened tag p.length :=
      congrArg (Parser.opened tag) hlength
    rw [hunfold]
    unfold Parser.opened
    rw [if_neg (show ¬Config.maxPayload < p.length from Nat.not_lt.mpr hp), if_neg hline]
  have hended : (Parser.lengthHigh tag (byteOf p.length)).ended (byteOf (p.length / 256)) =
      if p.length = 0 ∧ skippedTag tag = false then some (tag, []) else none := by
    show (if (byteOf p.length).toNat + 256 * (byteOf (p.length / 256)).toNat = 0 ∧ skippedTag tag = false then some (tag, []) else none) = _
    rw [hlength]
  rw [hbytes, List.foldl_append, exchanges_header h hbetween doce papx htag, List.foldl_cons]
  by_cases hempty : p.length = 0
  · obtain rfl := List.length_eq_zero_iff.mp hempty
    rw [if_pos hempty] at hopened
    cases hskip : skippedTag tag with
    | true =>
      rw [if_neg (by simp [hskip])] at hended
      rw [exchange_parsing h hplain hended, hopened]
      exact hself
    | false =>
      rw [if_pos ⟨hempty, hskip⟩] at hended
      rw [exchange_ending h hplain hended, hopened, hself]
      rfl
  · have hne : p ≠ [] := fun e => hempty (by rw [e]; rfl)
    rw [if_neg hempty] at hopened
    rw [if_neg (fun e => hempty e.1)] at hended
    rw [exchange_parsing h hplain hended, hopened]
    cases hskip : skippedTag tag with
    | true =>
      rw [if_pos rfl, if_pos rfl, exchanges_skip h doce papx p p.length 0 hne (Nat.zero_add _), hself]
    | false =>
      rw [if_neg Bool.false_ne_true, if_neg Bool.false_ne_true, exchanges_gather h doce papx tag p [] p.length hne (Nat.zero_add _), hself]
      rfl

/-! ## The command of a record -/

/-- A directive's command does what the end of its record does. -/
theorem exec_directiveOf (doce papx : Bool) {tag : Byte} (hrestart : tag ≠ 0x1B) (p : List Byte) (s : State) :
    exec (directiveOf doce papx tag p) s =
      .next (arrive (directiveOf doce papx tag p) (directive doce papx (directiveOf doce papx tag p)) s) := by
  have hload : ∀ q, exec (loadOf q) s = .next (arrive (loadOf q) (directive doce papx (loadOf q)) s) := fun q => by
    unfold loadOf
    split <;> rfl
  unfold directiveOf
  split
  case h_6 => exact hload p
  case h_9 h => exact absurd (BitVec.eq_of_toNat_eq h) hrestart
  all_goals rfl

theorem exec_recordOf {doce papx : Bool} {tag : Byte} (hline : tag ≠ 1) (p : List Byte) {s : State} (h : canTake s.chip = true) (htag : tag ≠ 0) :
    exec (recordOf doce papx tag p) s = .next (if skippedTag tag then s else recordEnds doce papx tag p s) := by
  have hpos : tag.toNat ≠ 0 := fun e => htag (BitVec.eq_of_toNat_eq e)
  have hone : tag.toNat ≠ 1 := fun e => hline (BitVec.eq_of_toNat_eq e)
  unfold recordOf recordEnds
  rw [if_neg hline, if_neg hline]
  by_cases hend : tag = 2
  · subst hend
    exact congrArg (fun c => Host.Outcome.next (s.withChip c)) (if_pos h)
  · have htwo : tag.toNat ≠ 2 := fun e => hend (BitVec.eq_of_toNat_eq e)
    rw [if_neg hend, if_neg hend]
    by_cases hskip : tag.toNat ≤ 0x0F
    · rw [if_pos hskip, if_pos (show skippedTag tag = true from decide_eq_true (by omega))]
      rfl
    · rw [if_neg hskip, if_neg (by simp only [skippedTag, decide_eq_true_eq]; omega)]
      by_cases hrestart : tag = 0x1B
      · subst hrestart
        exact congrArg Host.Outcome.next (if_pos h)
      · rw [if_neg hrestart]
        exact exec_directiveOf doce papx hrestart p s

/-! ## A report sent through fill -/

/-- The part with `n` bytes of its oldest report sent. -/
def sentSome (n : Nat) (c : Chip) : Chip := { c with link := { c.link with up := .report, sent := n, cut := none } }

/-- The part with its oldest report sent whole. -/
def sentWhole (c : Chip) : Chip := { c with link := { c.link with reports := c.link.reports.drop 1, up := .idle, sent := 0, cut := none } }

/-- A part that exchanges bytes, its parser between records, with its oldest report the next to be sent, from byte `n` on. -/
structure Reporting (n : Nat) (x : Report) (c : Chip) : Prop where
  exchanging : exchanging c = true
  parser : c.link.parser = .between
  held : c.link.held = none
  chosen : arbitrate c = .report
  oldest : c.link.reports.head? = some x
  sent : c.link.sent = n

theorem chosenBytes_head {n : Nat} {x : Report} {c : Chip} (h : Reporting n x c) : chosenBytes c = x.bytes := by
  obtain ⟨rest, hrest⟩ := List.head?_eq_some_iff.mp h.oldest
  exact chosenBytes_report h.chosen hrest

/-- A fill byte downstream while a report is sent: a byte of the report goes, and with its last one the report. -/
theorem exchange_reporting {n : Nat} {x : Report} {s : State} (h : Reporting n x s.chip) (doce papx : Bool) :
    exchange doce papx s 0 = s.withChip (if n + 1 < x.bytes.length then sentSome (n + 1) s.chip else sentWhole s.chip) := by
  have hnext : nextRecord s.chip = .report := by
    unfold nextRecord
    split
    next hidle =>
      have hchosen := h.chosen
      rw [arbitrate_idle hidle.1, if_pos hidle.2] at hchosen
      cases hchosen
    · exact h.chosen
  have hsend : sendByte s.chip = if n + 1 < x.bytes.length then sentSome (n + 1) s.chip else sentWhole s.chip := by
    unfold sendByte
    rw [chosenBytes_head h, h.sent, h.chosen, if_neg (by decide), if_pos rfl, reportSentChip_sent h.exchanging hnext]
    rfl
  have hparser : (sendByte s.chip).link.parser = .between := by
    rw [hsend]
    split <;> exact h.parser
  have hheld : (sendByte s.chip).link.held = none := by
    rw [hsend]
    split <;> exact h.held
  have htaken : parserTake 0 (sendByte s.chip) = sendByte s.chip := by
    unfold parserTake
    dsimp only
    rw [hparser]
    exact setParser_between hparser
  rw [exchange_within h.exchanging doce papx 0 hheld (by rw [hparser]; rfl), htaken, hsend]

/-- The bytes of a report from byte `n` on. -/
theorem exchanges_report {x : Report} {s : State} (doce papx : Bool) (m n : Nat) (h : Reporting n x s.chip) (hlen : n + (m + 1) = x.bytes.length) :
    (List.replicate (m + 1) 0).foldl (exchange doce papx) s = s.withChip (sentWhole s.chip) := by
  induction m generalizing n s with
  | zero =>
    show exchange doce papx s 0 = _
    rw [exchange_reporting h, if_neg (by omega)]
  | succ m ih =>
    have hmore : Reporting (n + 1) x (sentSome (n + 1) s.chip) :=
      ⟨h.exchanging, h.parser, h.held, arbitrate_part (c := sentSome (n + 1) s.chip) Upstream.noConfusion, h.oldest, rfl⟩
    rw [List.replicate_succ, List.foldl_cons, exchange_reporting h, if_pos (by omega), ih (n + 1) hmore (by omega)]
    rfl

/-! ## Selects -/

theorem lselAssert_selected {c : Chip} (h : c.link.selected = true) : lselAssertChip c = c := by
  unfold lselAssertChip
  rw [← h]

theorem exec_lselAssert (doce papx : Bool) (bytes : List Byte) (s : State) :
    exec (.lselAssert doce papx bytes) s = .next (bytes.foldl (exchange doce papx) (s.onChip lselAssertChip)) := rfl

theorem selected_of_exchanging {c : Chip} (h : exchanging c = true) : c.link.selected = true := by
  unfold exchanging at h
  exact (Bool.and_eq_true _ _ ▸ h).2

/-- Bytes exchanged while LSEL stands asserted. -/
theorem exec_lselAssert_on {s : State} (h : exchanging s.chip = true) (doce papx : Bool) (bytes : List Byte) :
    exec (.lselAssert doce papx bytes) s = .next (bytes.foldl (exchange doce papx) s) := by
  rw [exec_lselAssert, onChip_eq_self (lselAssert_selected (selected_of_exchanging h))]

theorem exchanges_off {s : State} (h : exchanging s.chip = false) (doce papx : Bool) (bytes : List Byte) :
    bytes.foldl (exchange doce papx) s = s := by
  induction bytes with
  | nil => rfl
  | cons b bs ih => rw [List.foldl_cons, exchange_released h, ih]

/-! ## PAGE END records (R18) -/

/-- The part with overrun reported of a route cleared. -/
def overrunCleared (r : Nat) (c : Chip) : Chip := setRoute r { getRoute c r with overrun := false } c

theorem ctxOf_overrunCleared (r : Nat) (c : Chip) : ctxOf (overrunCleared r c) r = ctxOf c r := by
  unfold overrunCleared ctxOf
  rw [getRoute_setRoute]
  split <;> rfl

theorem exec_pageEnd (p : List Byte) (s : State) : exec (.pageEnd p) s = .next (s.onChip (pageEndChip p)) := rfl

theorem pageEndChip_route {r : Nat} {c : Chip} (h : canTake c = true) (hr : r ≤ 3) : pageEndChip [byteOf r] c =
    match ctxOf (overrunCleared r c) r with
    | some x => if x.source = .link ∧ x.closeReq = false then settle r (pageEnd r false (overrunCleared r c)) else overrunCleared r c
    | none => overrunCleared r c := by
  unfold pageEndChip
  rw [if_pos h]
  unfold pageEndTaken
  dsimp only
  rw [byteOf_le_three hr, if_neg (Nat.not_lt.mpr hr)] <;> rfl

/-! ## A release of LSEL (R93, R177) -/

/-- The part after a release, its LINE record abandoned but for the slot. -/
def letGo (bits : List Bool) (c : Chip) : Chip :=
  { c with linkIn := .idle, link := { c.link with selected := false, parser := .between, cut := cutByte bits c } }

theorem abandonLine_decoding {c : Chip} {r n : Nat} {first : Bool} {f : Option FormIn} {d : Decoder} (h : c.linkIn = .decoding r n first f d) :
    abandonLine c = returnSlot n (modCtx r (fun x => { x with begun := x.begun && !first }) { c with linkIn := .idle }) := by
  unfold abandonLine
  rw [h]

theorem lselReleaseChip_decoding {c : Chip} {r n : Nat} {first : Bool} {f : Option FormIn} {d : Decoder} {x : Ctx}
    (h : c.linkIn = .decoding r n first f d) (hx : ctxOf c r = some x) (hopen : x.closeReq = false) (bits : List Bool) :
    lselReleaseChip bits c =
      settle r (returnSlot n (setRoute r { getRoute c r with ctx := some { x with begun := x.begun && !first } } (letGo bits c))) := by
  have hctx : ctxOf (letGo bits c) r = some x := hx
  have habandon : abandonLine { c with link := { c.link with selected := false, parser := .between, cut := cutByte bits c } } =
      returnSlot n (modCtx r (fun x => { x with begun := x.begun && !first }) (letGo bits c)) := abandonLine_decoding (by exact h)
  have hclosing : (match ctxOf c r with | some x => x.closeReq | none => false) = false := by
    rw [hx]
    exact hopen
  unfold lselReleaseChip
  dsimp only
  split
  next r' n' first' f' d' hin =>
    obtain ⟨rfl, -, -, -, -⟩ := LinkIn.decoding.inj (h.symm.trans hin)
    rw [habandon, modCtx_of_some hctx]
    exact congrArg (settle r) (if_neg (fun k => Bool.false_ne_true (hclosing.symm.trans k)))
  next hno => exact absurd h (hno r n first f d)

/-- The bytes of a record in decoding leave it in decoding. -/
theorem laneBytes_stay {r n : Nat} {first : Bool} {f : Option FormIn} {d : Decoder} {c : Chip} (h : c.linkIn = .decoding r n first f d)
    (bytes : List Byte) : ∃ f' d', bytes.foldl laneByte c = { c with linkIn := .decoding r n first f' d' } := by
  induction bytes generalizing c f d with
  | nil => exact ⟨f, d, by rw [List.foldl_nil, ← h]⟩
  | cons b bs ih =>
    have hbyte : ∃ f' d', laneByte c b = { c with linkIn := .decoding r n first f' d' } := by
      unfold laneByte
      rw [h]
      cases f <;> exact ⟨_, _, rfl⟩
    obtain ⟨f', d', hbyte⟩ := hbyte
    obtain ⟨f'', d'', hbytes⟩ := ih (c := { c with linkIn := .decoding r n first f' d' }) rfl
    exact ⟨f'', d'', by rw [List.foldl_cons, hbyte, hbytes]⟩

theorem takeSlot_ctx {r n : Nat} {mk : Nat → Slot} {c d : Chip} {x : Ctx} (h : takeSlot r mk c = some (n, d)) (hx : ctxOf c r = some x) :
    ∃ g, ctxOf d r = some { x with creditGranted := g } := by
  unfold takeSlot at h
  rw [hx] at h
  dsimp only at h
  split at h
  · split at h
    · cases h
    next k rest hfree =>
      obtain ⟨-, rfl⟩ := Prod.mk.inj (Option.some.inj h)
      exact ctxOf_syncCredit_self (c := { c with pool := { slots := c.pool.slots.set k (mk r), freeList := rest } }) hx
  · cases h

/-- A release that cuts a LINE record in decoding: the route is in OPEN again where the record took it out. -/
theorem begun_released {e : Chip} {r n : Nat} {first : Bool} {f : Option FormIn} {d : Decoder} {x y : Ctx}
    (hin : e.linkIn = .decoding r n first f d) (hx : ctxOf e r = some x) (hopen : x.closeReq = false)
    (hy : ctxOf (lselReleaseChip [] e) r = some y) : y.begun = (x.begun && !first) := by
  have hback : ctxOf (setRoute r { getRoute e r with ctx := some { x with begun := x.begun && !first } } (letGo [] e)) r =
      some { x with begun := x.begun && !first } := congrArg Route.ctx (getRoute_setRoute_self (c := letGo [] e) (lt_of_ctxOf hx) _)
  obtain ⟨g, hg, -⟩ := ctxOf_returnSlot (m := n) hback
  rw [lselReleaseChip_decoding hin hx hopen] at hy
  obtain ⟨z, hz, hcont⟩ := (settle_onward Onward.rfl r).routes r y hy
  rw [hg] at hz
  obtain rfl := Option.some.inj hz
  exact congrArg (fun k => k.2.2.2.2.2.2.2.2.2.2.1) hcont.fixed

/-- A record in part of which the route took a slot, and a release: the route has begun as before it. -/
theorem begun_after_release {r n : Nat} {x : Ctx} {d : Chip} {parser : Parser} {bytes : List Byte} {g : Option Nat}
    (hx : ctxOf d r = some { x with creditGranted := g }) (hopen : x.closeReq = false) {y : Ctx}
    (hy : ctxOf (lselReleaseChip [] (setParser parser (bytes.foldl laneByte
      { modCtx r (fun x => { x with begun := true }) d with linkIn := .decoding r n (!x.begun) none .start }))) r = some y) :
    y.begun = x.begun := by
  have hbegun : ctxOf (modCtx r (fun x => { x with begun := true }) d) r = some { x with creditGranted := g, begun := true } := by
    rw [ctxOf_modCtx_self, hx]
    rfl
  obtain ⟨f', d', hbytes⟩ := laneBytes_stay (c := { modCtx r (fun x => { x with begun := true }) d with
    linkIn := .decoding r n (!x.begun) none .start }) rfl bytes
  rw [hbytes] at hy
  exact (begun_released (e := setParser parser { modCtx r (fun x => { x with begun := true }) d with
    linkIn := .decoding r n (!x.begun) f' d' }) rfl hbegun hopen hy).trans (by simp)

/-- Settles O48, by the parser's bytes, the records they end, and the select that cuts one. -/
theorem recordsAndSelects : Obligations.RecordsAndSelects := by
  unfold Obligations.RecordsAndSelects
  refine ⟨fun _ _ _ => rfl, fun tag length s hcan hlong => ?_, fun tag p s htaken => ?_, fun r s hcan hr => ?_, fun r cut x c hx => ?_,
    fun doce papx s => ⟨rfl, fun hdown bytes => ?_, fun b bytes => ?_⟩, fun i tag p s hwf hrec hline hcan hup hreports hlane hheld hcut => ?_,
    fun doce papx tag low high s hcan hup hreports hlane hheld hcut htag hlong => ?_,
    fun doce papx x rest s hcan hup hsent hreports hheld hcut => ?_, fun doce papx b i x rest s hex hup hreports hlast hheld => ?_,
    fun doce papx b n k s hex hup hreports hlane hheld hcut hparser hmore => ?_, fun bits s => ?_,
    fun r length x more s hcan hr hwithin hhigh hx => ?_⟩
  · exact exec_of_chip (f := framingChip length) rfl (if_pos (by simp [hcan, show Config.maxPayload < length from hlong]))
  · exact congrArg Host.Outcome.next (arrive_taken htaken _ _)
  · intro c
    have hchip := pageEndChip_route hcan hr
    have hctx : ctxOf (overrunCleared r s.chip) r = ctxOf s.chip r := ctxOf_overrunCleared r s.chip
    refine ⟨fun hno => exec_of_chip (exec_pageEnd _ s) ?_, fun x hx hsource hopen => exec_of_chip (exec_pageEnd _ s) ?_⟩
    · rw [hchip, hctx]
      cases hx : ctxOf s.chip r with
      | none => rfl
      | some x =>
        refine if_neg fun k => ?_
        rcases hno x hx with h | h
        · exact h k.1
        · rw [k.2] at h
          cases h
    · rw [hchip, hctx, hx]
      exact if_pos ⟨hsource, hopen⟩
  · refine ⟨fun hlines => pageEnd_empty hx hlines cut, fun hlines hhold hroom => ?_⟩
    rw [ctxOf_pageEnd hx (Nat.pos_iff_ne_zero.mp hlines),
      placed_room (x := nextPage x) hhold ((hasRoom_congr rfl rfl rfl rfl).trans hroom)] <;> rfl
  · have hoff : exchanging (s.onChip lselAssertChip).chip = false := by
      show (hostUp s.chip && true) = false
      rw [hdown]
      rfl
    rw [exec_lselAssert, exchanges_off hoff]
    rfl
  · refine ⟨_, exec_lselAssert doce papx [b] s, ?_⟩
    have hselected : (exchange doce papx (s.onChip lselAssertChip) b).chip.link.selected = true := exchange_selected ..
    rw [exec_lselAssert, exec_lselAssert]
    show _ = Host.Outcome.next (bytes.foldl (exchange doce papx) ((exchange doce papx (s.onChip lselAssertChip) b).onChip lselAssertChip))
    rw [onChip_eq_self (lselAssert_selected hselected)]
    rfl
  · obtain ⟨hex, hbetween⟩ := (canTake_iff _).mp hcan
    obtain ⟨hframed, hsame⟩ := recordOf_record hwf hrec
    obtain ⟨htag, hlen⟩ := hframed hwf tag p hrec
    rw [exec_lselAssert_on hex, exchanges_record ⟨hex, hup, hreports, hlane, hheld, hcut⟩ hbetween _ _ htag hline hlen]
    exact (exec_recordOf hline p hcan htag).symm.trans (congrArg (fun j => exec j s) hsame)
  · obtain ⟨hex, hbetween⟩ := (canTake_iff _).mp hcan
    have hsilent : Silent s.chip := ⟨hex, hup, hreports, hlane, hheld, hcut⟩
    have hended : (Parser.lengthHigh tag low).ended high = none := if_neg (by omega)
    have hbyte : (Parser.lengthHigh tag low).byte high = .discard := if_pos hlong
    have hbytes : [tag, low, high].foldl (exchange doce papx) s = parsing .discard s := by
      show [high].foldl (exchange doce papx) ([tag, low].foldl (exchange doce papx) s) = _
      rw [exchanges_header hsilent hbetween doce papx htag, List.foldl_cons, exchange_parsing hsilent (by rintro _ _ _ ⟨⟩) hended, hbyte]
      rfl
    rw [exec_lselAssert_on hex, hbytes]
    exact (exec_of_chip (f := framingChip _) rfl
      (if_pos (by simp [hcan, show Config.maxPayload < low.toNat + 256 * high.toNat from hlong]))).symm
  · obtain ⟨hex, hbetween⟩ := (canTake_iff _).mp hcan
    have harb : arbitrate s.chip = .report := (arbitrate_fresh hup hcut).trans (freshRecord_report (by simp [hreports]))
    have hreporting : Reporting 0 x s.chip := ⟨hex, hbetween, hheld, harb, by rw [hreports]; rfl, hsent⟩
    obtain ⟨m, hm⟩ : ∃ m, x.bytes.length = m + 1 := ⟨_, List.length_cons ..⟩
    have hnext : nextRecord s.chip = .report := by
      rw [nextRecord_idle hup, if_neg (by simp [hcut]), freshRecord_report (by simp [hreports])]
    rw [exec_lselAssert_on hex, hm, exchanges_report doce papx m 0 hreporting (by omega)]
    exact (exec_of_chip (exec_reportRecordSent s) (reportSentChip_sent hex hnext)).symm
  · intro u hroom
    have harb : arbitrate s.chip = .report := (arbitrate_part (by simp [hup])).trans hup
    have hsend : sendByte s.chip = u := by
      unfold sendByte
      rw [chosenBytes_report harb hreports, harb, if_neg (by decide), if_neg (by omega), if_pos rfl,
        reportSentChip_sent hex (by rw [nextRecord_part (by simp [hup]), hup]), hreports]
      rfl
    refine ⟨_, rfl, fun hended => ?_⟩
    have hbyte := exchange_eq hex doce papx b
    rw [onChip_eq_withChip hsend] at hbyte
    dsimp only at hbyte
    rw [hended] at hbyte
    rw [exec_lselAssert_on hex]
    exact congrArg Host.Outcome.next hbyte
  · have hended : s.chip.link.parser.ended b = none := by
      rw [hparser]
      exact if_neg (by omega)
    have hbyte := exchange_silent ⟨hex, hup, hreports, hlane, hheld, hcut⟩ doce papx b
    rw [hended] at hbyte
    have htake : parserTake b s.chip = setParser (.payload 0x01 n (k + 1)) (lineBytes k [b] s.chip) := by
      unfold parserTake
      dsimp only
      rw [hparser]
      exact congrArg (fun y => setParser y (lineBytes k [b] s.chip)) (if_neg (by omega))
    rw [exec_lselAssert_on hex]
    exact congrArg Host.Outcome.next (hbyte.trans (onChip_eq_withChip htake))
  · intro again c
    refine ⟨fun hplain => exec_of_chip (exec_lselRelease bits s) (lselReleaseChip_plain hplain bits), fun r n first f d x hin hx hopen => ?_⟩
    exact exec_of_chip (exec_lselRelease bits s) (lselReleaseChip_decoding hin hx hopen bits)
  · have hjudged : lineChip length (byteOf r :: more) s.chip =
        setParser (.payload 0x01 length (0 + (more.length + 1))) (more.foldl laneByte (judgeLine r s.chip)) := by
      rw [lineChip_new hcan hhigh, feedLine_within (show 0 + (byteOf r :: more).length < length by simpa using hwithin), lineBytes_first,
        byteOf_le_three hr]
      rfl
    have hpassed : judgeLine r s.chip = { s.chip with linkIn := .passing (some r) } →
        lselReleaseChip [] (lineChip length (byteOf r :: more) s.chip) =
          { s.chip with linkIn := .idle, link := { s.chip.link with selected := false, parser := .between } } := fun hjudge => by
      rw [hjudged, hjudge, laneBytes_passing rfl, lselReleaseChip_plain (by rintro _ _ _ _ _ ⟨⟩)]
      unfold released cutByte
      rw [if_neg (by simp)]
      rfl
    refine ⟨_, _, exec_line _ _ s, exec_lselRelease [] _, rfl, fun hno => hpassed (judgeLine_refused hr hno), fun hyes y hy => ?_⟩
    obtain ⟨hsource, hopen, hquota⟩ := (acceptsLine_iff hx).mp hyes
    cases htake : takeSlot r (fun q => .filling q none) s.chip with
    | none =>
      have hjudge : judgeLine r s.chip = { s.chip with linkIn := .passing (some r) } := by
        unfold judgeLine
        rw [if_neg (Nat.not_lt.mpr hr), if_pos hyes, htake]
      have hsame : ctxOf (lselReleaseChip [] (lineChip length (byteOf r :: more) s.chip)) r = ctxOf s.chip r := by
        rw [hpassed hjudge]
        rfl
      rw [Option.some.inj ((hsame.symm.trans hy).symm.trans hx)]
    | some taken =>
      obtain ⟨n, d⟩ := taken
      obtain ⟨g, hg⟩ := takeSlot_ctx htake hx
      have hbegun : hasBegun s.chip r = x.begun := by unfold hasBegun; rw [hx]
      have hjudge := judgeLine_accepted hr hyes htake
      rw [hbegun] at hjudge
      have hy' : ctxOf (lselReleaseChip [] (lineChip length (byteOf r :: more) s.chip)) r = some y := hy
      rw [hjudged, hjudge] at hy'
      exact begun_after_release hg hopen hy'

end Sys2Proof.Proofs
end

section
/-!
PROOFS. CLOSE (01_line_pool_and_routes.md R12, R13, R21): what the close request leaves of a route, and a close at once.
-/

-- One declaration after another: the package as one text keeps within the check's limit on threads.
set_option Elab.async false

namespace Sys2Proof.Proofs

open Sys2Proof Sys2Proof.Machine

/-! ## The close request (R13, R21) -/

theorem exec_close {p : List Byte} {s : State} (h : Taken s) (hp : p.length = 2) :
    exec (.close p) s = .next (s.withChip (closeChip p (streamRules (.close p) s.chip))) :=
  exec_owned rfl h (List.ne_nil_of_length_eq_add_one hp)

theorem openRouteOf_some {p : List Byte} {c : Chip} {x : Ctx} (hr : numAt p 1 1 ≤ 3) (h : ctxOf c (numAt p 1 1) = some x) :
    openRouteOf p c = some (numAt p 1 1, x) := by
  unfold openRouteOf
  dsimp only
  rw [if_neg (Nat.not_lt.mpr hr), h]
  rfl

theorem openRouteOf_none {p : List Byte} {c : Chip} (h : 3 < numAt p 1 1 ∨ ctxOf c (numAt p 1 1) = none) : openRouteOf p c = none := by
  unfold openRouteOf
  rcases h with h | h
  · exact if_pos h
  · simp [h]

/-- A close already requested is requested again without effect. -/
theorem requestClose_twice {c : Chip} {r : Nat} {x : Ctx} (h : ctxOf c r = some x) (hclose : x.closeReq = true) : requestClose r c = c := by
  unfold requestClose
  rw [h]
  exact if_pos hclose

/-- Close requested of a route, the rest of the part as it was. -/
def closing (r : Nat) (c : Chip) : Chip := modCtx r (fun x => { x with closeReq := true }) c

theorem ctxOf_closing {c : Chip} {r : Nat} {x : Ctx} (h : ctxOf c r = some x) : ctxOf (closing r c) r = some { x with closeReq := true } :=
  by
  rw [closing, ctxOf_modCtx_self, h]
  rfl

theorem requestClose_first {c : Chip} {r : Nat} {x : Ctx} (h : ctxOf c r = some x) (hopen : x.closeReq = false) : requestClose r c =
    match x.source with
    | .scan => closeScanSource (closing r c)
    | .link => if decodingFor (closing r c) r then closing r c else pageEnd r true (closing r c)
    | .store => if readInProgress (closing r c) then closing r c else pageEnd r true (closing r c) := by
  unfold requestClose
  rw [h]
  exact if_neg (by simp [hopen])

/-- A context that goes on with its close requested and its stalls as they were. -/
def Asked (x : Ctx) (c : Chip) (r : Nat) : Prop := ∃ y, ctxOf c r = some y ∧ y.closeReq = x.closeReq ∧ y.stalls = x.stalls

theorem Asked.of {x : Ctx} {c : Chip} {r : Nat} (h : ctxOf c r = some x) : Asked x c r := ⟨x, h, rfl, rfl⟩

theorem Asked.congr {x : Ctx} {c t : Chip} {r : Nat} (h : Asked x c r) (hroutes : t.routes = c.routes) : Asked x t r := by
  obtain ⟨y, hy, hrest⟩ := h
  exact ⟨y, (ctxOf_congr hroutes r).trans hy, hrest⟩

theorem pageEnd_asked {c : Chip} {r : Nat} {x : Ctx} (h : ctxOf c r = some x) (cut : Bool) : Asked x (pageEnd r cut c) r := by
  by_cases hlines : x.linesDone = 0
  · rw [pageEnd_empty h hlines]
    exact .of h
  · refine ⟨_, ctxOf_pageEnd h hlines cut, ?_, ?_⟩ <;>
    · unfold placed nextPage
      split
      · rw [push_eq]
      · rfl

theorem returnSlot_asked {x : Ctx} {c : Chip} {r : Nat} (h : Asked x c r) (n : Nat) : Asked x (returnSlot n c) r := by
  obtain ⟨y, hy, hrest⟩ := h
  obtain ⟨g, hg, -⟩ := ctxOf_returnSlot (m := n) hy
  exact ⟨_, hg, hrest⟩

theorem returnReservations_asked {x : Ctx} {c : Chip} {r : Nat} (h : Asked x c r) (n : Nat) : Asked x (returnReservations n c) r := by
  unfold returnReservations
  split
  · exact h
  next z hz =>
    have hcleared : Asked x (modCtx n (fun x => { x with reservations := [] }) c) r := by
      obtain ⟨y, hy, hclose, hstalls⟩ := h
      rw [Asked, ctxOf_modCtx]
      split
      next hn =>
        rw [← hn, hy]
        exact ⟨_, rfl, hclose, hstalls⟩
      · exact ⟨y, hy, hclose, hstalls⟩
    unfold returnSlots
    generalize modCtx n (fun x => { x with reservations := [] }) c = u at hcleared
    induction z.reservations generalizing u with
    | nil => exact hcleared
    | cons m ms ih => exact ih _ (returnSlot_asked hcleared m)

theorem closeScanSource_asked {x : Ctx} {c : Chip} {r : Nat} (h : Asked x c r) : Asked x (closeScanSource c) r := by
  have hend : Asked x (endScanSource c) r := h.congr (by simp [endScanSource])
  unfold closeScanSource
  split
  · exact hend
  · unfold dropWaitingStart
    have hstop : Asked x (stopScan .stop (endScanSource c)) r := hend.congr rfl
    split
    · exact returnReservations_asked hstop _
    · exact hstop
  · exact hend
  · exact h

/-- The close request leaves its route open, its close requested and its stalls as they were. -/
theorem requestClose_asked {c : Chip} {r : Nat} {x : Ctx} (h : ctxOf c r = some x) :
    Asked { x with closeReq := true } (requestClose r c) r := by
  have hclosing := ctxOf_closing h
  cases hclose : x.closeReq with
  | true =>
    rw [requestClose_twice h hclose]
    exact ⟨x, h, hclose, rfl⟩
  | false =>
    rw [requestClose_first h hclose]
    split
    · exact closeScanSource_asked (.of hclosing)
    · split
      · exact .of hclosing
      · exact pageEnd_asked hclosing true
    · split
      · exact .of hclosing
      · exact pageEnd_asked hclosing true

/-! ## A close at once (R13) -/

theorem storeLoop_empty {r : Nat} {c : Chip} {x : Ctx} (h : ctxOf c r = some x) (hq : x.storeQ = []) (n : Nat) : storeLoop r n c = c := by
  cases n with
  | zero => rfl
  | succ n =>
    unfold storeLoop
    rw [h]
    exact if_pos (by simp [hq])

theorem fillLane_empty {r : Nat} {c : Chip} {x : Ctx} (h : ctxOf c r = some x) (hq : x.storeQ = []) : fillLane r c = c := by
  unfold fillLane
  rw [h]
  dsimp only
  simp only [hq, List.drop_nil, ite_self, firstLine]

/-- A store sink with an empty queue takes nothing. -/
theorem storePump_empty {r : Nat} {c : Chip} {x : Ctx} (h : ctxOf c r = some x) (hq : x.storeQ = []) : storePump r c = c := by
  unfold storePump
  rw [h]
  dsimp only
  rw [storeLoop_empty h hq, fillLane_empty h hq, ite_self]

/-- What follows at once leaves the queues of the route to its close: the record taken upstream and the load of the head. -/
def outward (c : Chip) : Chip := refreshLoad (linkPump c)

theorem outward_parts (c : Chip) : (outward c).routes = c.routes ∧ (outward c).link.reports = c.link.reports ∧ (outward c).pool = c.pool ∧
    (outward c).store = c.store ∧ (outward c).scan = c.scan ∧ (outward c).linkIn = c.linkIn := by
  obtain ⟨hroutes, hreports, hpool, hstore⟩ := linkPump_parts c
  obtain ⟨_, _, h⟩ := refreshLoad_eq (linkPump c)
  have hscan : (linkPump c).scan = c.scan ∧ (linkPump c).linkIn = c.linkIn := by
    unfold linkPump
    split
    · split
      · exact ⟨rfl, rfl⟩
      · split
        · dsimp only
          split <;> simp
        · simp
        · exact ⟨rfl, rfl⟩
    · exact ⟨rfl, rfl⟩
  rw [outward, h]
  exact ⟨hroutes, hreports, hpool, hstore, hscan⟩

/-- An empty route with its close requested and no halt closes, where its queues are empty and nothing comes to them. -/
theorem settle_closes {r : Nat} {c : Chip} {x : Ctx} (h : ctxOf c r = some x) (hclose : x.closeReq = true) (hhalt : x.halt = none)
    (hempty : routeEmpty r x c = true) (hbegun : x.begun = false) : settle r c = syncMotor (closeRoute r .closed (outward c)) := by
  obtain ⟨hroutes, -, hpool, hstore, hscan, hin⟩ := outward_parts c
  simp only [routeEmpty, Bool.and_eq_true, List.isEmpty_iff] at hempty
  obtain ⟨⟨⟨⟨⟨hprint, hlink⟩, hq⟩, hhold⟩, hslots⟩, hidle⟩ := hempty
  unfold settle pump
  rw [storePump_empty h hq, ← outward, closeIfEmpty, ctxOf_congr hroutes, h]
  dsimp only
  rw [if_pos]
  simp only [hclose, hhalt, routeEmpty, hprint, hlink, hq, hhold, hpool, hslots, Option.isNone_none, List.isEmpty_nil, Bool.and_true, Bool.true_and]
  rw [← hidle]
  unfold sourceIdle decodingFor readInProgress
  rw [hscan, hin, hstore, hbegun]
  cases x.source <;> simp

/-- What the close of a route leaves before its event. -/
def endpointsFreed (r : Nat) (x : Ctx) (c : Chip) : Chip :=
  let c := setRoute r { getRoute c r with ctx := none } c
  let c := if x.source = .scan then releaseScan c else c
  if x.sinks.contains .print then releasePrint c else c

theorem closeRoute_open {r : Nat} {c : Chip} {x : Ctx} (h : ctxOf c r = some x) (cause : CloseCause) :
    closeRoute r cause c = queueEvent (.routeClosed r cause) (endpointsFreed r x c) := by
  unfold closeRoute
  rw [h]
  rfl

theorem endpointsFreed_parts (r : Nat) (x : Ctx) (c : Chip) : (endpointsFreed r x c).link.reports = c.link.reports ∧
    (endpointsFreed r x c).routes = (setRoute r { getRoute c r with ctx := none } c).routes := by
  unfold endpointsFreed
  dsimp only
  have hset : (setRoute r { getRoute c r with ctx := none } c).link.reports = c.link.reports := rfl
  generalize setRoute r { getRoute c r with ctx := none } c = u at hset ⊢
  have hscan : (if x.source = .scan then releaseScan u else u).link.reports = c.link.reports ∧
      (if x.source = .scan then releaseScan u else u).routes = u.routes := by
    split
    · simp [releaseScan, hset]
    · exact ⟨hset, rfl⟩
  generalize (if x.source = .scan then releaseScan u else u) = v at hscan ⊢
  split
  · unfold releasePrint releaseHead dropHeadUse headContentLost
    dsimp only
    split
    · split <;> exact hscan
    · exact hscan
  · exact hscan

/-- A close leaves its route CLOSED, with ROUTE CLOSED behind the records that wait where there is room. -/
theorem closeRoute_closed {r : Nat} {c : Chip} {x : Ctx} (h : ctxOf c r = some x) (cause : CloseCause) :
    ctxOf (closeRoute r cause c) r = none ∧
    (256 ≤ freeBytes c → .event (.routeClosed r cause) ∈ (closeRoute r cause c).link.reports) := by
  obtain ⟨hreports, hroutes⟩ := endpointsFreed_parts r x c
  rw [closeRoute_open h]
  constructor
  · rw [ctxOf_congr (queueEvent_routes (e := .routeClosed r cause) (fun _ _ h => nomatch h) (fun h => nomatch h) _), ctxOf_congr hroutes]
    exact congrArg Route.ctx (getRoute_setRoute_self (lt_of_ctxOf h) _)
  · intro hroom
    rw [queueEvent_reports_of_room (by rw [freeBytes, usedBytes, hreports]; exact hroom)]
    exact List.mem_append_right _ (List.mem_singleton.mpr rfl)

/-- What the close request leaves of an idle route with nothing placed: closed as asked, and its source at its end. -/
theorem requestClose_idle {r : Nat} {c : Chip} {x : Ctx} (h : ctxOf c r = some x) (hopen : x.closeReq = false) (hlines : x.linesDone = 0)
    (hsource : x.source = .scan ∧ c.scan.state = .waiting ∧ c.scan.capture = none ∨ x.source = .link ∧ decodingFor c r = false) :
    let m := requestClose r c
    ctxOf m r = some { x with closeReq := true } ∧ m.pool = c.pool ∧ m.link.reports = c.link.reports ∧
      (x.begun = false → sourceIdle r { x with closeReq := true } m = true) := by
  have hclosing := ctxOf_closing h
  have hframe := modCtx_frame r (fun x => { x with closeReq := true }) c
  rw [requestClose_first h hopen]
  rcases hsource with ⟨hscan, hwaiting, hcapture⟩ | ⟨hlink, hdecoding⟩
  · have hstate : (closing r c).scan = c.scan := by simp [closing]
    rw [hscan]
    dsimp only
    rw [closeScanSource, hstate, hwaiting]
    refine ⟨?_, by simp [endScanSource, closing], by simp [endScanSource, closing], fun hbegun => ?_⟩
    · rw [← hscan]
      exact (ctxOf_congr (by simp [endScanSource]) r).trans hclosing
    · have hended : (endScanSource (closing r c)).scan.state = .ended ∧ (endScanSource (closing r c)).scan.capture = none := by
        unfold endScanSource dropLamp
        split <;> exact ⟨rfl, (congrArg Capture.capture hstate).trans hcapture⟩
      unfold sourceIdle
      simp [hended, hbegun]
  · have hidle : decodingFor (closing r c) r = false := by
      unfold decodingFor at hdecoding ⊢
      rw [show (closing r c).linkIn = c.linkIn by simp [closing]]
      exact hdecoding
    rw [hlink]
    dsimp only
    rw [if_neg (by simp [hidle]), pageEnd_empty hclosing hlines]
    exact ⟨by rw [← hlink]; exact hclosing, by simp [closing], by simp [closing], fun _ => by simp [sourceIdle, hidle]⟩

theorem no_pendingFor {c : Chip} {r : Nat} (h : ∀ n, slotAt c n ≠ .reserved r ∧ ∀ l, slotAt c n ≠ .filling r l) :
    c.pool.slots.any (Slot.pendingFor r) = false := by
  rw [List.any_eq_false]
  intro x hx
  obtain ⟨n, hn, rfl⟩ := List.getElem_of_mem hx
  have hslot : slotAt c n = c.pool.slots[n] := by simp [slotAt, hn]
  obtain ⟨hreserved, hfilling⟩ := h n
  rw [hslot] at hreserved hfilling
  unfold Slot.pendingFor
  split
  next m hm => simpa using fun k : m = r => hreserved (k ▸ hm)
  next m l hm => simpa using fun k : m = r => hfilling l (k ▸ hm)
  next => simp

/-- A close request closes an idle route at once. -/
theorem close_at_once {r : Nat} {c : Chip} {x : Ctx} (h : ctxOf c r = some x) (hopen : x.closeReq = false) (hhalt : x.halt = none)
    (hbegun : x.begun = false) (hlines : x.linesDone = 0) (hprint : x.printQ = []) (hlink : x.linkQ = []) (hstore : x.storeQ = [])
    (hhold : x.hold = []) (hslots : ∀ n, slotAt c n ≠ .reserved r ∧ ∀ l, slotAt c n ≠ .filling r l)
    (hsource : x.source = .scan ∧ c.scan.state = .waiting ∧ c.scan.capture = none ∨ x.source = .link ∧ decodingFor c r = false) :
    let t := settle r (requestClose r c)
    ctxOf t r = none ∧ (256 ≤ freeBytes c → .event (.routeClosed r .closed) ∈ t.link.reports) := by
  obtain ⟨hasked, hpool, hreports, hidle⟩ := requestClose_idle h hopen hlines hsource
  dsimp only
  generalize requestClose r c = m at hasked hpool hreports hidle ⊢
  have hempty : routeEmpty r { x with closeReq := true } m = true := by
    unfold routeEmpty
    rw [hidle hbegun, hpool, no_pendingFor hslots]
    simp [hprint, hlink, hstore, hhold]
  rw [settle_closes hasked rfl hhalt hempty hbegun]
  obtain ⟨hroutes, hout, -⟩ := outward_parts m
  obtain ⟨hclosed, hevent⟩ := closeRoute_closed ((ctxOf_congr hroutes r).trans hasked) .closed
  exact ⟨hclosed, fun hroom => hevent (by rw [freeBytes, usedBytes, hout, hreports]; exact hroom)⟩

/-! ## CLOSE (R12, R13, R21) -/

theorem freeBytes_reply {p : List Byte} {a : Answer} {c : Chip} (h : 300 ≤ freeBytes c) : 256 ≤ freeBytes (reply p a c) := by
  have hsize : (Report.reply (refOf p) a).size ≤ 6 := by
    cases a <;> simp [Report.size, Report.payload]
  unfold freeBytes usedBytes at h ⊢
  rw [reply_reports, List.map_append, List.sum_append]
  simp only [List.map_cons, List.map_nil, List.sum_cons, List.sum_nil]
  omega

/-- The state shown of a route that has its close requested (R12). -/
theorem state_asked {x : Route} {y : Ctx} (h : x.ctx = some y) (hclose : y.closeReq = true) : x.state =
    if y.halt.isSome then .halted else if y.begun = false then .opened else if y.stalls ≠ [] then .stalled else .draining := by
  obtain ⟨hhalted, hopened, hstalled, hrunning⟩ := route_shown h
  cases hhalt : y.halt with
  | some k => exact (hhalted k hhalt).1
  | none =>
    cases hbegun : y.begun with
    | false => exact (hopened hhalt hbegun).1
    | true =>
      cases hstalls : y.stalls with
      | cons k more => exact (hstalled k more hhalt hbegun hstalls).1
      | nil => simpa [hclose] using (hrunning hhalt hbegun hstalls).1

/-- CLOSE of an open route, whole. -/
theorem closeChip_open {p : List Byte} (hp : p.length = 2) {c : Chip} {x : Ctx} (hr : numAt p 1 1 ≤ 3) (h : ctxOf c (numAt p 1 1) = some x) :
    closeChip p c = settle (numAt p 1 1) (requestClose (numAt p 1 1) (reply p .accepted c)) := by
  rw [closeChip, withLength_of_eq hp, openRouteOf_some hr h]

/-- What CLOSE and what follows at once leave of an open route. -/
theorem closed_route {p : List Byte} {c t : Chip} {r : Nat} {x : Ctx} (hx : ctxOf c r = some x)
    (ht : t = settle r (requestClose r (reply p .accepted c))) :
    (∀ y, ctxOf t r = some y → y.closeReq = true) ∧
    (∃ old more, t.link.reports = old ++ .reply (refOf p) .accepted :: more ∧ plainReports old = plainReports c.link.reports ∧
      (ctxOf t r = none → .event (.routeClosed r .closed) ∈ more ∨ t.link.eventsLost = true)) ∧
    (∀ y, ctxOf t r = some y → y.halt = x.halt ∧ y.begun = x.begun ∧ (Sink.store ∉ x.sinks → y.stalls = x.stalls)) := by
  have hreply : ctxOf (reply p .accepted c) r = some x := (ctxOf_congr (by simp) r).trans hx
  obtain ⟨y₀, hasked, hclose₀, hstalls₀⟩ := requestClose_asked hreply
  have hrequest : Onward (reply p .accepted c) (requestClose r (reply p .accepted c)) := requestClose_onward .rfl r
  have hsettle : Onward (requestClose r (reply p .accepted c)) t := ht ▸ settle_onward .rfl r
  have hall := hrequest.trans hsettle
  refine ⟨fun y hy => ?_, ?_, fun y hy => ?_⟩
  · obtain ⟨z, hz, hzy⟩ := hsettle.routes r y hy
    rw [hasked] at hz
    cases hz
    exact hzy.close hclose₀
  · obtain ⟨more, hmore, hclosed⟩ := hall.reports
    have hreplied : plainReports (reply p .accepted c).link.reports = plainReports c.link.reports ++ [.reply (refOf p) .accepted] := by
      rw [reply_reports, plainReports_append]
      rfl
    rw [hreplied, List.append_assoc] at hmore
    obtain ⟨old, rest, hreports, hold, hrest⟩ := reports_of_plain hmore
    refine ⟨old, rest, hreports, hold, fun hnone => (hclosed r (by rw [hreply]; rfl) hnone).imp_left fun hin => ?_⟩
    rw [← show plainReports rest = more from hrest] at hin
    exact List.mem_of_mem_filter hin
  · obtain ⟨z, hz, hzy⟩ := hall.routes r y hy
    rw [hreply] at hz
    cases hz
    refine ⟨hzy.halt, hzy.begun, fun hsinks => ?_⟩
    have hstoreless : ∀ z, ctxOf (requestClose r (reply p .accepted c)) r = some z → Sink.store ∉ z.sinks := by
      intro z hz
      obtain ⟨u, hu, huz⟩ := hrequest.routes r z hz
      rw [hreply] at hu
      cases hu
      rw [huz.sinks]
      exact hsinks
    have hsame := (settle_storeless hstoreless).ctx (ht ▸ hy)
    rw [hasked] at hsame
    cases hsame
    exact hstalls₀

theorem exec_rearm {p : List Byte} {s : State} (h : Taken s) (hp : p.length = 2) :
    exec (.rearm p) s = .next (s.withChip (rearmChip p (streamRules (.rearm p) s.chip))) :=
  exec_owned rfl h (List.ne_nil_of_length_eq_add_one hp)

theorem exec_abort {p : List Byte} {s : State} (h : Taken s) (hp : p.length = 2) :
    exec (.abort p) s = .next (s.withChip (abortChip p (streamRules (.abort p) s.chip))) :=
  exec_owned rfl h (List.ne_nil_of_length_eq_add_one hp)

/-- CLOSE, ABORT and REARM of no open route (R21, R22, R66). -/
theorem closed_refused {p : List Byte} (hp : p.length = 2) {c : Chip} (h : openRouteOf p c = none) :
    closeChip p c = refuse p .invalidRoute c ∧ abortChip p c = refuse p .invalidRoute c ∧ rearmChip p c = refuse p .invalidRoute c := by
  refine ⟨(withLength_of_eq hp _ c).trans ?_, (withLength_of_eq hp _ c).trans ?_, (withLength_of_eq hp _ c).trans ?_⟩ <;> rw [h]

/-- Settles O24, by what the close request leaves of its route (`requestClose_asked`), what goes on behind it (`Onward`), and the close at
once of an idle route. -/
theorem closeRequestsTheClose : Obligations.CloseRequestsTheClose := by
  unfold Obligations.CloseRequestsTheClose
  refine ⟨?_, fun p s htaken hp hquiet hnone => ?_⟩
  · intro p r x s htaken hp hr hlow c plain hx
    have hreply : ctxOf (reply p .accepted c) r = some x := (ctxOf_congr (by simp) r).trans hx
    have hexec := exec_close htaken hp
    rw [closeChip_open hp (hr ▸ hlow) (hr ▸ hx), ← hr] at hexec
    have hkept : Kept c (settle r (requestClose r (reply p .accepted c))) :=
      settle_kept (requestClose_kept (reply_kept .rfl _ _) r) r
    have hroute := closed_route (p := p) hx rfl
    have hatonce := close_at_once hreply
    have hslots : ∀ n, slotAt (reply p .accepted c) n = slotAt c n := slotAt_congr (by simp)
    have hscan : (reply p .accepted c).scan = c.scan := by simp
    have hin : decodingFor (reply p .accepted c) r = decodingFor c r := by simp [decodingFor]
    rw [hscan, hin] at hatonce
    simp only [hslots] at hatonce
    generalize settle r (requestClose r (reply p .accepted c)) = t at *
    obtain ⟨hasked, hreports, hstays⟩ := hroute
    refine ⟨s.withChip t, hexec, hasked, hreports, fun y hy => ?_, ?_, hkept.1, rfl⟩
    · obtain ⟨hhalt, hbegun, hstalls⟩ := hstays y hy
      refine ⟨hhalt, hbegun, hstalls, ?_⟩
      rw [← hhalt, ← hbegun]
      exact state_asked hy (hasked y hy)
    · intro hopen hhalt hbegun hlines hprint hlink hstore hhold hfree hsource
      obtain ⟨hnone, hevent⟩ := hatonce hopen hhalt hbegun hlines hprint hlink hstore hhold hfree hsource
      refine ⟨hnone, ?_, fun hroom => hevent (freeBytes_reply hroom)⟩
      unfold Route.state
      rw [show (getRoute t r).ctx = none from hnone]
  · have hrefused (i : Instr) := closed_refused hp (c := streamRules i s.chip) (openRouteOf_none (by rw [streamRules_quiet hquiet]; exact hnone))
    refine ⟨?_, ?_, ?_⟩
    · rw [exec_close htaken hp, (hrefused _).1, streamRules_quiet hquiet]
    · rw [exec_abort htaken hp, (hrefused _).2.1, streamRules_quiet hquiet]
    · rw [exec_rearm htaken hp, (hrefused _).2.2, streamRules_quiet hquiet]

end Sys2Proof.Proofs
end

section
/-!
PROOFS. The slots a decision asks for (03_motor_timing.md R55, R56): what the reservations take from the pool, and whether the list then
holds what the decision needs.
-/

-- One declaration after another: the package as one text keeps within the check's limit on threads.
set_option Elab.async false

namespace Sys2Proof.Proofs

open Sys2Proof Sys2Proof.Machine

theorem charged_congr {c t : Chip} (h : t.pool = c.pool) (r : Nat) : charged t r = charged c r := by rw [charged, charged, h]

/-- A slot taken from the free list is one more charged to its route. -/
theorem charged_set {c : Chip} {n : Nat} {x : Slot} {rest : List Nat} {r : Nat} (hfree : slotAt c n = .free) (hn : n < c.pool.slots.length)
    (hx : x.route = some r) : charged { c with pool := { slots := c.pool.slots.set n x, freeList := rest } } r = charged c r + 1 := by
  have hslot : c.pool.slots[n] = .free := by simpa [slotAt, hn] using hfree
  unfold charged
  dsimp only
  rw [List.countP_set hn, hslot, hx]
  simp [Slot.route]

/-- How many of `n` slots asked for are granted (R2, R16): within the quota and the free list. -/
def grants (r : Nat) (x : Ctx) (c : Chip) (n : Nat) : Nat := min n (min (x.quota - charged c r) c.pool.freeList.length)

/-- The reservations asked for stand behind those of the list, in the order of the free list, as far as they are granted. -/
structure Reserved (r : Nat) (x : Ctx) (c : Chip) (g : Nat) (t : Chip) : Prop where
  ctx : ∃ v, ctxOf t r = some { x with reservations := x.reservations ++ c.pool.freeList.take g, creditGranted := v }
  free : t.pool.freeList = c.pool.freeList.drop g
  slots : ∀ m, slotAt t m = if m ∈ c.pool.freeList.take g then .reserved r else slotAt c m
  pool : PoolOk t.pool

theorem Reserved.none {r : Nat} {x : Ctx} {c : Chip} (h : ctxOf c r = some x) (hpool : PoolOk c.pool) : Reserved r x c 0 c :=
  ⟨⟨x.creditGranted, by simp [h]⟩, by simp, fun m => by simp, hpool⟩

/-- One reservation more. -/
def reserved (r n : Nat) (rest : List Nat) (c : Chip) : Chip :=
  modCtx r (fun x => { x with reservations := x.reservations ++ [n] })
    (syncCredit r { c with pool := { slots := c.pool.slots.set n (.reserved r), freeList := rest } })

theorem reserved_pool (r n : Nat) (rest : List Nat) (c : Chip) :
    (reserved r n rest c).pool = { slots := c.pool.slots.set n (.reserved r), freeList := rest } := by simp [reserved]

theorem ctxOf_reserved {r n : Nat} {rest : List Nat} {x : Ctx} {c : Chip} (h : ctxOf c r = some x) :
    ∃ v, ctxOf (reserved r n rest c) r = some { x with reservations := x.reservations ++ [n], creditGranted := v } := by
  obtain ⟨v, hv⟩ := ctxOf_syncCredit_self (c := { c with pool := { slots := c.pool.slots.set n (.reserved r), freeList := rest } }) h
  exact ⟨v, by rw [reserved, ctxOf_modCtx_self, hv]; rfl⟩

theorem free_of_list {c : Chip} (hpool : PoolOk c.pool) {n : Nat} (hn : n ∈ c.pool.freeList) :
    n < c.pool.slots.length ∧ slotAt c n = .free := by
  obtain ⟨hlen, -, hfree⟩ := hpool
  obtain ⟨hlt, hslot⟩ := (hfree n).mp hn
  exact ⟨hlen ▸ hlt, hslot⟩

theorem takeReservations_granted {r n g : Nat} {rest : List Nat} {x : Ctx} {c : Chip} (h : ctxOf c r = some x) (hquota : charged c r < x.quota)
    (hfree : c.pool.freeList = n :: rest) : takeReservations r (g + 1) c = takeReservations r g (reserved r n rest c) := by
  rw [takeReservations, takeSlot_granted h hquota hfree]
  rfl

theorem takeReservations_denied {r g : Nat} {x : Ctx} {c : Chip} (h : ctxOf c r = some x)
    (hfull : x.quota ≤ charged c r ∨ c.pool.freeList = []) : takeReservations r g c = c := by
  cases g with
  | zero => rfl
  | succ g => rw [takeReservations, takeSlot_denied h hfull]

/-- The reservations asked for are taken in the order of the free list, up to the first denial (R16, R55). -/
theorem takeReservations_reserved {r : Nat} (n : Nat) {x : Ctx} {c : Chip} (h : ctxOf c r = some x) (hpool : PoolOk c.pool) :
    Reserved r x c (grants r x c n) (takeReservations r n c) := by
  induction n generalizing x c with
  | zero => simpa [grants, takeReservations] using Reserved.none h hpool
  | succ n ih =>
    rcases Nat.lt_or_ge (charged c r) x.quota with hquota | hquota
    swap
    · rw [takeReservations_denied h (.inl hquota), show grants r x c (n + 1) = 0 by unfold grants; omega]
      exact .none h hpool
    cases hfree : c.pool.freeList with
    | nil =>
      rw [takeReservations_denied h (.inr hfree), show grants r x c (n + 1) = 0 by simp [grants, hfree]]
      exact .none h hpool
    | cons m rest =>
      obtain ⟨hm, hslot⟩ := free_of_list hpool (hfree ▸ List.mem_cons_self)
      obtain ⟨v, hv⟩ := ctxOf_reserved (n := m) (rest := rest) h
      have hnext : PoolOk (reserved r m rest c).pool := by
        rw [reserved_pool]
        exact hpool.take hfree nofun
      have hcharged : charged (reserved r m rest c) r = charged c r + 1 := by
        rw [← charged_set (x := .reserved r) (rest := rest) hslot hm rfl]
        exact charged_congr (reserved_pool r m rest c) r
      have hgrants : grants r x c (n + 1) = grants r { x with reservations := x.reservations ++ [m], creditGranted := v } (reserved r m rest c) n + 1 := by
        unfold grants
        rw [hcharged, reserved_pool, hfree]
        dsimp only [List.length_cons]
        omega
      obtain ⟨⟨u, hu⟩, hlist, hslots, hok⟩ := ih hv hnext
      rw [takeReservations_granted h hquota hfree, hgrants]
      rw [reserved_pool] at hu hlist
      refine ⟨⟨u, ?_⟩, ?_, fun k => ?_, hok⟩
      · rw [hu, hfree, List.take_succ_cons, List.append_assoc]
        rfl
      · rw [hlist, hfree, List.drop_succ_cons]
      · have hthere : slotAt (reserved r m rest c) k = if m = k then .reserved r else slotAt c k := by
          rw [← slotAt_taken hm (.reserved r) rest k]
          exact slotAt_congr (reserved_pool r m rest c) k
        rw [hslots k]
        simp only [hthere, reserved_pool, hfree, List.take_succ_cons, List.mem_cons]
        by_cases hk : k ∈ rest.take (grants r { x with reservations := x.reservations ++ [m], creditGranted := v } (reserved r m rest c) n)
        · rw [if_pos hk, if_pos (.inr hk)]
        · rw [if_neg hk]
          by_cases hmk : m = k
          · rw [if_pos hmk, if_pos (.inl hmk.symm)]
          · rw [if_neg hmk, if_neg (fun hor => hor.elim (fun e => hmk e.symm) hk)]

/-- The slots still missing to a decision. -/
def missing (x : Ctx) (c : Chip) (k : Nat) : Nat := scanNeed c k - x.reservations.length

theorem reserveFor_chip {r k : Nat} {x : Ctx} {c : Chip} (h : ctxOf c r = some x) : (reserveFor r k c).1 = takeReservations r (missing x c k) c := by
  unfold reserveFor reservationsOf missing
  rw [h]

theorem reserveFor_reserved {r : Nat} (k : Nat) {x : Ctx} {c : Chip} (h : ctxOf c r = some x) (hpool : PoolOk c.pool) :
    Reserved r x c (grants r x c (missing x c k)) (reserveFor r k c).1 := by
  rw [reserveFor_chip h]
  exact takeReservations_reserved _ h hpool

/-- A decision holds where the slots it needs stand on the list or are granted (R55). -/
theorem reserveFor_iff {r k : Nat} {x : Ctx} {c : Chip} (h : ctxOf c r = some x) (hpool : PoolOk c.pool) :
    (reserveFor r k c).2 = true ↔ scanNeed c k ≤ x.reservations.length + min (x.quota - charged c r) c.pool.freeList.length := by
  obtain ⟨⟨v, hv⟩, -⟩ := reserveFor_reserved k h hpool
  have hsnd : (reserveFor r k c).2 = decide (scanNeed c k ≤ (reservationsOf (reserveFor r k c).1 r).length) := rfl
  have hlist : (reservationsOf (reserveFor r k c).1 r).length =
      x.reservations.length + grants r x c (missing x c k) := by
    unfold reservationsOf
    rw [hv]
    simp only [List.length_append, List.length_take]
    unfold grants
    omega
  rw [hsnd, hlist, decide_eq_true_iff]
  unfold grants missing
  omega

end Sys2Proof.Proofs
end

section
/-!
PROOFS. Picks and starts of the channels (02_scan_path.md R26, R37; 03_motor_timing.md R51, R55 to R58; 04_print_path.md R72, R73).
-/

-- One declaration after another: the package as one text keeps within the check's limit on threads.
set_option Elab.async false

namespace Sys2Proof.Proofs

open Sys2Proof Sys2Proof.Machine

theorem isOn_iff (d : Domain) : d.isOn = true ↔ d = .on ∨ ∃ n, d = .holding n := by cases d <;> simp [Domain.isOn]

/-! ## What follows a start leaves its channel -/

theorem settleScan_body (c : Chip) : Channel.body (settleScan c).scanCh = Channel.body c.scanCh := by
  unfold settleScan
  split
  next r _ => exact (settle_attended (P := (· = r)) .rfl rfl).scanCh
  · rfl

theorem settlePrint_body (c : Chip) : Channel.body (settlePrint c).printCh = Channel.body c.printCh := by
  unfold settlePrint
  split
  next r _ =>
    obtain ⟨_, _, h⟩ := refreshLoad_eq c
    exact (settle_attended (P := (· = r)) .rfl rfl).printCh.1.trans (by rw [h])
  · rfl

theorem body_parts {a b : Channel} (h : Channel.body a = Channel.body b) : a.drive = b.drive ∧ a.k = b.k ∧ a.motion = b.motion ∧
    a.phase = b.phase ∧ a.linePos = b.linePos ∧ a.left = b.left ∧ a.tail = b.tail ∧ a.mode = b.mode ∧ a.ramp = b.ramp ∧
    a.holdLeft = b.holdLeft := by
  simp only [Channel.body, Channel.mk.injEq] at h
  simp only [h, and_self]

/-! ## The pick (R26, R37) -/

theorem exec_pickStart (doce : Bool) (s : State) : exec (.pickStart doce) s = .next (s.onChip (pickChip doce)) := rfl

theorem pickReady_iff (c : Chip) : pickReady c = true ↔ c.scan.state = .waiting ∧ c.pins.docp = true ∧
    (c.power.lamp = .on ∨ ∃ n, c.power.lamp = .holding n) ∧ c.scanCh.motion = .halted ∧
    ∃ r x, c.scan.route = some r ∧ ctxOf c r = some x ∧ x.halt = none := by
  unfold pickReady
  simp only [Bool.and_eq_true, decide_eq_true_iff, isOn_iff, and_assoc]
  refine and_congr_right fun _ => and_congr_right fun _ => and_congr_right fun _ => and_congr_right fun _ => ?_
  cases hr : c.scan.route with
  | none => simp
  | some r => cases hx : ctxOf c r <;> simp [hx]

theorem pickChip_ready {r : Nat} {q : ScanParams} {c : Chip} (hready : pickReady c = true) (hr : c.scan.route = some r)
    (hq : scanParamsOf c r = some q) (doce : Bool) : pickChip doce c = syncMotor (modCtx r (fun x => { x with begun := true }) { c with
      pins := { c.pins with doce := doce }
      scan := if doce then leadingEdge q.topOffset { c.scan with
          state := .picking, pickSteps := 0, approach := some (q.topOffset + 1), asked := true }
        else { c.scan with state := .picking, pickSteps := 0, approach := some (q.topOffset + 1), asked := true }
      scanCh := { c.scanCh with linePos := 0, rateReported := false } }) := by
  unfold pickChip
  rw [hready, hr]
  dsimp only
  rw [hq]

theorem pickChip_waits {c : Chip} (h : pickReady c = false) (doce : Bool) : pickChip doce c = c := by
  unfold pickChip
  rw [h]

/-! ## The scan start (R55, R56) -/

theorem scanMayStart_iff (c : Chip) : scanMayStart c = true ↔ c.scanCh.motion = .halted ∧ c.scan.asked = true ∧ c.scanCh.run ≠ none ∧
    (c.scan.state = .picking ∨ c.scan.state = .approach ∨ c.scan.state = .capturing ∨ c.scan.state = .tail) ∧
    ∃ r x, c.scan.route = some r ∧ ctxOf c r = some x ∧ x.halt = none := by
  unfold scanMayStart
  simp only [Bool.and_eq_true, decide_eq_true_iff, Option.isSome_iff_ne_none, and_assoc]
  refine and_congr_right fun _ => and_congr_right fun _ => and_congr_right fun _ => and_congr ?_ ?_
  · cases c.scan.state <;> simp
  · cases hr : c.scan.route with
    | none => simp
    | some r => cases hx : ctxOf c r <;> simp [hx, isHalted]

theorem scanNeed_start {p : RunParams} {c : Chip} (h : c.scanCh.run = some p) : scanNeed c 0 =
    (let n := 1 + ceilDiv (min p.steps p.r) p.steps
    let pos := c.scanCh.linePos
    match c.scan.state with
    | .capturing => n
    | .picking | .approach =>
        let a := c.scan.approach.getD 0
        n + 1 - if pos = 0 then 1 + ceilDiv a p.steps else max 1 (ceilDiv (a + pos) p.steps)
    | _ => 0) := by
  unfold scanNeed
  rw [h]
  simp only [coverOf, Nat.zero_add]
  unfold forecast firstCapturing
  cases c.scan.state <;> rfl

theorem scanStart_starts {r : Nat} {c : Chip} (hmay : scanMayStart c = true) (hr : c.scan.route = some r) (hd : (reserveFor r 0 c).2 = true)
    (hmotor : c.power.motor.isOn = true) :
    let u := { (reserveFor r 0 c).1 with scanCh := c.scanCh.begin }
    scanStart c = settleScan (scanOnward (if c.scanCh.linePos = 0 then
      (let v := { sheetLineStart u with scanCh := (sheetLineStart u).scanCh.takeCause }
      if v.scanCh.atHalt then v else beginCapture v) else u)) := by
  have hsame : (reserveFor r 0 c).1.scanCh = c.scanCh := by simp [reserveFor]
  have hpower : (reserveFor r 0 c).1.power = c.power := by simp [reserveFor]
  unfold scanStart
  rw [hmay, hr]
  dsimp only
  rw [hd, hpower, hmotor, hsame]
  simp

theorem sheetLineStart_channel {c : Chip} (h : c.scan.state ≠ .tail) : (sheetLineStart c).scanCh = c.scanCh := by
  unfold sheetLineStart
  split
  · split <;> rfl
  next htail => exact absurd htail h
  · rfl

theorem beginCapture_channel (c : Chip) : (beginCapture c).scanCh = c.scanCh := by
  unfold beginCapture
  split
  · split
    · rfl
    · split
      · dsimp only
        split <;> split <;> simp
      · rfl
  · rfl

theorem takeCause_none {ch : Channel} (h : ch.cause = none) : ch.takeCause = ch := by
  unfold Channel.takeCause
  rw [h]
  split
  next k => cases k
  next k => cases k
  next => rfl

/-- A scan start that passes leaves its channel with its first step begun. -/
theorem scanStart_channel {r : Nat} {c : Chip} {p : RunParams} (hmay : scanMayStart c = true) (hr : c.scan.route = some r)
    (hd : (reserveFor r 0 c).2 = true) (hmotor : c.power.motor.isOn = true) (hsheet : c.scan.state ≠ .tail) (hrun : c.scanCh.run = some p)
    (htail : c.scanCh.tail = none) : Channel.body (scanStart c).scanCh = Channel.body c.scanCh.begin.plan := by
  obtain ⟨hmoves, hplan, -, -⟩ := begin_moves hrun htail
  have hhalt := atHalt_eq_false hmoves
  rw [scanStart_starts hmay hr hd hmotor, settleScan_body]
  dsimp only
  have hscan : (reserveFor r 0 c).1.scan = c.scan := by simp [reserveFor]
  have hline : (sheetLineStart { (reserveFor r 0 c).1 with scanCh := c.scanCh.begin }).scanCh = c.scanCh.begin :=
    sheetLineStart_channel (by rw [hscan]; exact hsheet)
  rw [hline, takeCause_none (ch := c.scanCh.begin) rfl]
  have hchannel : ∀ u : Chip, u.scanCh = c.scanCh.begin → (scanOnward u).scanCh = c.scanCh.begin.plan := by
    intro u hu
    unfold scanOnward
    rw [hu, if_neg (by rw [hhalt]; decide)]
  congr 1
  refine hchannel _ ?_
  split
  · rw [if_neg (by rw [hhalt]; decide)]
    exact beginCapture_channel _
  · rfl

/-! ## The print start (R57, R58, R72, R73) -/

theorem refreshLoad_channel (c : Chip) : (refreshLoad c).printCh = c.printCh := by
  obtain ⟨_, _, h⟩ := refreshLoad_eq c
  rw [h]

theorem beginBurn_channel (therm : Byte) (c : Chip) : (beginBurn therm c).printCh = c.printCh := by
  unfold beginBurn
  split
  · dsimp only
    rw [refreshLoad_channel]
    dsimp only
    split
    · rw [queueEvent_of_plain (e := .heatLimited _) (fun _ _ h => nomatch h) (fun h => nomatch h)]
      rfl
    · rfl
  · rfl

/-- A print start with a line at the head leaves its channel with its first step begun. -/
theorem printStart_channel {e : LineEntry} {rest : List Entry} {c : Chip} (therm : Byte) (hdue : printDue c = true)
    (hmotor : c.power.motor.isOn = true) (hline : headEntries c = .line e :: rest) :
    Channel.body (printStart therm c).printCh = Channel.body c.printCh.begin.plan := by
  obtain ⟨htail, -, -, p, hp⟩ := printDue_parts hdue
  obtain ⟨hmoves, hplan, -, -⟩ := begin_moves hp htail
  have hchannel : ∀ u : Chip, u.printCh = c.printCh.begin → Channel.body (settlePrint (printOnward u)).printCh = Channel.body c.printCh.begin.plan := by
    intro u hu
    rw [settlePrint_body, printOnward_moving (by rw [hu]; exact hmoves) (by rw [hu]; exact hplan), hu]
  have hsame : headEntries { c with printCh := c.printCh.begin } = .line e :: rest := hline
  unfold printStart
  rw [hdue, hmotor, if_pos (by decide)]
  dsimp only
  rw [hsame]
  refine hchannel _ ?_
  dsimp only
  split
  · exact beginBurn_channel _ _
  · rfl

theorem printDue_idle {c : Chip} (h : c.runOut ≠ none ∨ c.head.route = none) : printDue c = false := by
  unfold printDue
  rcases h with h | h
  · rw [Option.isNone_eq_false_iff.mpr (Option.isSome_iff_ne_none.mpr h)]
    simp
  · simp [h]

/-- The burn that a start leads to is ready (R73): a mark at the head; the head line, or behind its last burn what stands next. -/
theorem burnReady_iff (h : Head) (copies : Nat) (q : List Entry) : burnReady h copies q = true ↔
    (∃ m rest, q = .mark m :: rest) ∨ ∃ e rest, q = .line e :: rest ∧ (h.burns < copies ∧ h.shift = .loaded e ∨
      copies ≤ h.burns ∧ ((∃ m rest', rest = .mark m :: rest') ∨ ∃ e' rest', rest = .line e' :: rest' ∧ h.shift = .loaded e')) := by
  cases q with
  | nil => simp [burnReady]
  | cons y q =>
    cases y with
    | mark m => simp [burnReady]
    | line e =>
      by_cases hb : h.burns < copies
      · simp [burnReady, hb, Nat.not_le.mpr hb]
      · cases q with
        | nil => simp [burnReady, hb]
        | cons z q => cases z <;> simp [burnReady, hb, Nat.not_lt.mp hb]

/-- Whether an entry is a page mark. -/
def isMark : Entry → Bool
  | .line _ => false
  | .mark _ => true

/-- Whether an entry is a line. -/
def isLine : Entry → Bool
  | .line _ => true
  | .mark _ => false

theorem lookahead_eq (burns copies : Nat) (e : LineEntry) (rest : List Entry) : lookahead burns copies (.line e :: rest) =
    (copies - burns + copies * (rest.takeWhile isLine).length, rest.any isMark) := rfl

theorem any_isMark (q : List Entry) : q.any isMark = true ↔ ∃ m, Entry.mark m ∈ q := by
  rw [List.any_eq_true]
  constructor
  · rintro ⟨y, hy, k⟩
    cases y with
    | line l => cases k
    | mark m => exact ⟨m, hy⟩
  · exact fun ⟨m, hm⟩ => ⟨_, hm, rfl⟩

theorem takeWhile_isLine {q : List Entry} (h : ¬∃ m, Entry.mark m ∈ q) : q.takeWhile isLine = q := by
  rw [List.takeWhile_eq_self_iff]
  intro y hy
  cases y with
  | line l => rfl
  | mark m => exact absurd ⟨m, hy⟩ h

/-- The lookahead from a line at the head reaches a mark, or the periods of its lines (R17, R57). -/
theorem lookahead_line (burns copies need : Nat) (e : LineEntry) (rest : List Entry) :
    ((lookahead burns copies (.line e :: rest)).2 || decide (need ≤ (lookahead burns copies (.line e :: rest)).1)) = true ↔
      (∃ m, Entry.mark m ∈ rest) ∨ need ≤ copies - burns + copies * rest.length := by
  rw [lookahead_eq, Bool.or_eq_true, any_isMark, decide_eq_true_iff]
  refine or_congr_right' fun hnone => ?_
  rw [takeWhile_isLine hnone]

/-- The print lookahead as the start decides it (R57). -/
theorem printPasses_start {p : RunParams} {c : Chip} (h : c.printCh.run = some p) : printPasses c 0 =
    ((lookahead c.head.burns (headCopies c) (headEntries c)).2 ||
      decide (1 + ceilDiv (min p.steps p.r) p.steps ≤ (lookahead c.head.burns (headCopies c) (headEntries c)).1)) := by
  unfold printPasses
  rw [h]
  simp only [coverOf, Nat.zero_add]

/-- The print start rule, entry by entry (R58). -/
theorem printDue_iff {r : Nat} {x : Ctx} {h : HeadCopy} {p : RunParams} {c : Chip} (hrun : c.runOut = none) (hr : c.head.route = some r)
    (hx : ctxOf c r = some x) (hcopy : c.head.copy = some h) (hp : c.printCh.run = some p) :
    printDue c = true ↔ c.printCh.motion = .halted ∧ c.printCh.tail = none ∧ c.head.cut = .none ∧ x.halt = none ∧
      Stall.paperOut ∉ x.stalls ∧ (c.power.head = .on ∨ ∃ n, c.power.head = .holding n) ∧
      ((∃ m rest, x.printQ = .mark m :: rest) ∨
        ∃ e rest, x.printQ = .line e :: rest ∧
          (c.head.burns < h.copies ∧ c.head.shift = .loaded e ∨
            h.copies ≤ c.head.burns ∧ ((∃ m rest', rest = .mark m :: rest') ∨ ∃ e' rest', rest = .line e' :: rest' ∧ c.head.shift = .loaded e')) ∧
          ((∃ m, Entry.mark m ∈ rest) ∨
            1 + ceilDiv (min p.steps p.r) p.steps ≤ h.copies - c.head.burns + h.copies * rest.length)) := by
  have hcopies : headCopies c = h.copies := by simp [headCopies, hcopy]
  have hentries : headEntries c = x.printQ := by simp [headEntries, hrun, hr, hx]
  have hready : headReady c = true ↔ (c.power.head = .on ∨ ∃ n, c.power.head = .holding n) ∧ c.head.cut = .none ∧
      burnReady c.head h.copies x.printQ = true := by
    simp only [headReady, hcopies, hentries, Bool.and_eq_true, isOn_iff, decide_eq_true_iff, and_assoc]
  have hpasses := printPasses_start hp
  rw [hcopies, hentries] at hpasses
  have hdue : printDue c = true ↔ c.printCh.motion = .halted ∧ c.printCh.tail = none ∧ c.head.cut = .none ∧
      (x.halt = none ∧ Stall.paperOut ∉ x.stalls ∧ x.printQ ≠ []) ∧ headReady c = true ∧ printPasses c 0 = true := by
    unfold printDue
    rw [hrun, hr]
    simp [hx, and_assoc]
  rw [hdue, hready, hpasses, burnReady_iff]
  cases hq : x.printQ with
  | nil => simp
  | cons y rest =>
    cases y with
    | mark m =>
      constructor
      · rintro ⟨hmotion, htail, hcut, ⟨hhalt, hpaper, -⟩, ⟨hpower, -⟩, -⟩
        exact ⟨hmotion, htail, hcut, hhalt, hpaper, hpower, .inl ⟨m, rest, rfl⟩⟩
      · rintro ⟨hmotion, htail, hcut, hhalt, hpaper, hpower, -⟩
        exact ⟨hmotion, htail, hcut, ⟨hhalt, hpaper, nofun⟩, ⟨hpower, hcut, .inl ⟨m, rest, rfl⟩⟩, rfl⟩
    | line e =>
      rw [lookahead_line]
      constructor
      · rintro ⟨hmotion, htail, hcut, ⟨hhalt, hpaper, -⟩, ⟨hpower, -, ⟨m, rest', hne⟩ | ⟨e', rest', heq, hburn⟩⟩, hreach⟩
        · cases hne
        · cases heq
          exact ⟨hmotion, htail, hcut, hhalt, hpaper, hpower, .inr ⟨e, rest, rfl, hburn, hreach⟩⟩
      · rintro ⟨hmotion, htail, hcut, hhalt, hpaper, hpower, ⟨m, rest', hne⟩ | ⟨e', rest', heq, hburn, hreach⟩⟩
        · cases hne
        · cases heq
          exact ⟨hmotion, htail, hcut, ⟨hhalt, hpaper, nofun⟩, ⟨hpower, hcut, .inr ⟨e, rest, rfl, hburn⟩⟩, hreach⟩

/-! ## Picks and starts -/

/-- Settles O50, by the equation of each start and what follows it leaves of its channel (`settleScan_body`, `settlePrint_body`), the start
rules taken apart, and the reservations a scan start takes (`reserveFor_iff`). -/
theorem picksAndStarts : Obligations.PicksAndStarts := by
  unfold Obligations.PicksAndStarts
  refine ⟨fun r q doce s hready hr hq => ?_, fun doce s h => ?_, fun r therm s hmay hr hd hmotor hsheet htail => ?_,
    fun e rest therm s hdue hmotor hline => ?_, fun therm s => ⟨fun h => ?_, fun h => ?_⟩, pickReady_iff, scanMayStart_iff,
    fun r x p c hpool hx hp => ?_, fun c h => printDue_idle h, fun r x h p c hrun hr hx hcopy hp => printDue_iff hrun hr hx hcopy hp⟩
  · refine ⟨_, exec_of_chip (exec_pickStart doce s) (pickChip_ready hready hr hq doce), ?_, by simp, by simp, fun x hx => ?_, ?_, by simp, rfl⟩
    · cases doce <;> simp [leadingEdge]
    · rw [ctxOf_congr (c := modCtx r (fun x => { x with begun := true }) _) (by rfl), ctxOf_modCtx_self, Option.map_eq_some_iff] at hx
      obtain ⟨y, -, rfl⟩ := hx
      rfl
    · exact (syncMotor_kept (modCtx_kept (Kept.update .rfl) r _)).1
  · exact exec_without_effect (exec_pickStart doce s) (pickChip_waits h doce)
  · obtain ⟨-, -, hrun, -⟩ := (scanMayStart_iff s.chip).mp hmay
    obtain ⟨p, hp⟩ := Option.ne_none_iff_exists'.mp hrun
    obtain ⟨hmoves, hmotion, hdrive, hk⟩ := begin_moves hp htail
    obtain ⟨kdrive, kk, kmotion, -⟩ := body_parts (scanStart_channel hmay hr hd hmotor hsheet hp htail)
    exact ⟨_, exec_of_chip (exec_channelStart .scan therm s) rfl, kdrive.trans hdrive, kk.trans hk,
      hmoves.imp (kmotion.trans hmotion).trans (kmotion.trans hmotion).trans, (scanStart_kept .rfl).1, rfl⟩
  · obtain ⟨htail, -, -, p, hp⟩ := printDue_parts hdue
    obtain ⟨hmoves, hmotion, hdrive, hk⟩ := begin_moves hp htail
    obtain ⟨kdrive, kk, kmotion, -⟩ := body_parts (printStart_channel therm hdue hmotor hline)
    exact ⟨_, exec_of_chip (exec_channelStart .print therm s) rfl, kdrive.trans hdrive, kk.trans hk,
      hmoves.imp (kmotion.trans hmotion).trans (kmotion.trans hmotion).trans, (printStart_kept .rfl therm).1, rfl⟩
  · refine exec_of_chip (exec_channelStart .scan therm s) ?_
    show scanStart s.chip = _
    unfold scanStart
    rw [h]
  · refine exec_of_chip (exec_channelStart .print therm s) ?_
    show printStart therm s.chip = _
    unfold printStart
    rw [h]
    rfl
  · intro n pos periods
    rw [reserveFor_iff hx hpool, scanNeed_start hp] <;> exact Iff.rfl

end Sys2Proof.Proofs
end

section
/-!
PROOFS. What a program job leaves in the flash (06_page_store.md R100), and what the operations on the block table, the page directory and the
jobs leave (R103, R104, R109).
-/

-- One declaration after another: the package as one text keeps within the check's limit on threads.
set_option Elab.async false

namespace Sys2Proof.Proofs

open Sys2Proof Sys2Proof.Machine

/-! ## Programs (R100) -/

/-- The array after one byte of a program, where the program goes on: that byte reads as wanted, every other as before. -/
structure Programmed (m : List Host.Cell) (w : Write) (m' : List Host.Cell) : Prop where
  wf : Memory.wf m'
  other : ∀ a, w.1 ≠ a → readMem m' a = readMem m a
  wanted : w.1 < 1048576 → readMem m' w.1 = w.2

theorem programByte_programmed {m : List Host.Cell} (hm : Memory.wf m) {w : Write} (h : programmed (readMem m w.1) w.2 = w.2) :
    Programmed m w (programByte m w) := by
  refine ⟨programByte_wf m w hm, fun a ha => readMem_programByte_ne hm ha, fun hlt => ?_⟩
  unfold programByte
  rw [if_pos (show w.1 < Config.blockCount * Config.blockBytes from hlt), readMem_writeMem_same _ _ _ hm.1, h]

/-- A program of one byte and then of others: it ends at that byte, or goes on behind it. -/
theorem programRun_cons (free : Byte) (r : ProgResult) {m : List Host.Cell} (hm : Memory.wf m) (w : Write) (ws : List Write) :
    (∃ v, programRun free r m (w :: ws) = (programByte m (w.1, v), false)) ∨
    ∃ r' m', programRun free r m (w :: ws) = programRun free r' m' ws ∧ Programmed m w m' := by
  rw [programRun.eq_def]
  dsimp only
  split
  · exact .inl ⟨_, rfl⟩
  next hwant =>
    have hdone := programByte_programmed hm (not_not.mp hwant)
    split
    · split
      next hold => exact .inr ⟨.ok, m, rfl, hm, fun _ _ => rfl, fun _ => hold⟩
      · exact .inl ⟨_, rfl⟩
    next n => exact .inr ⟨.failAt n, programByte m w, rfl, hdone⟩
    · exact .inr ⟨.ok, programByte m w, rfl, hdone⟩

theorem readMem_programRun_ne (free : Byte) (r : ProgResult) {m : List Host.Cell} (hm : Memory.wf m) {ws : List Write} {a : Nat}
    (h : ∀ w ∈ ws, w.1 ≠ a) : readMem (programRun free r m ws).1 a = readMem m a := by
  induction ws generalizing r m with
  | nil => cases r <;> rfl
  | cons w ws ih =>
    have hw := h w List.mem_cons_self
    rcases programRun_cons free r hm w ws with ⟨v, hrun⟩ | ⟨r', m', hrun, hdone⟩
    · rw [hrun]
      exact readMem_programByte_ne (w := (w.1, v)) hm hw
    · rw [hrun, ih r' hdone.wf fun v hv => h v (List.mem_cons_of_mem _ hv), hdone.other a hw]

theorem readMem_programRun_done (free : Byte) (r : ProgResult) {m : List Host.Cell} (hm : Memory.wf m) {ws : List Write}
    (hnodup : (ws.map Prod.fst).Nodup) (hok : (programRun free r m ws).2 = true) {w : Write} (hw : w ∈ ws) (hlt : w.1 < 1048576) :
    readMem (programRun free r m ws).1 w.1 = w.2 := by
  induction ws generalizing r m with
  | nil => cases hw
  | cons x ws ih =>
    rw [List.map_cons, List.nodup_cons] at hnodup
    rcases programRun_cons free r hm x ws with ⟨v, hrun⟩ | ⟨r', m', hrun, hdone⟩
    · rw [hrun] at hok
      cases hok
    · rw [hrun] at hok ⊢
      rcases List.mem_cons.mp hw with rfl | hin
      · rw [readMem_programRun_ne free r' hdone.wf fun v hv heq =>
          hnodup.1 (List.mem_map.mpr ⟨v, hv, heq⟩)]
        exact hdone.wanted hlt
      · exact ih r' hdone.wf hnodup.2 hok hin

/-! ## Jobs (R109) -/

/-- A program that waits goes on waiting, or holds the flash. -/
theorem grant_program (c : Chip) {j : Job} (h : c.store.holder = some j ∨ j ∈ c.store.programs) :
    (grant c).store.holder = some j ∨ j ∈ (grant c).store.programs := by
  have hresume : (resumeErase c).store.holder = some j ∨ j ∈ (resumeErase c).store.programs := by
    obtain ⟨e, he⟩ := resumeErase_store_eq c
    rw [he]
    exact h
  unfold grant
  split
  · exact h
  next hfree =>
    have hin : j ∈ c.store.programs := h.resolve_left fun k => hfree (by rw [k]; rfl)
    split
    · split
      · exact h
      · split
        · split
          next hs => obtain ⟨_, rfl⟩ := suspendErase_store_eq hs; exact .inr hin
          next => exact h
        next k rest _ hprograms =>
          split
          next hs =>
            obtain ⟨_, rfl⟩ := suspendErase_store_eq hs
            rw [hprograms] at hin
            exact (List.mem_cons.mp hin).imp (fun e => congrArg some e.symm) id
          next => exact h
        · exact hresume
    · split
      next hs => obtain ⟨_, rfl⟩ := suspendErase_store_eq hs; exact .inr hin
      next => exact h
    · exact hresume
    · exact h

/-- A program asked for waits, or holds the flash. -/
theorem askProgram_waits (j : Job) (c : Chip) : (askProgram j c).store.holder = some j ∨ j ∈ (askProgram j c).store.programs :=
  grant_program _ (.inr (List.mem_append_right _ List.mem_cons_self))

/-! ## The directory (R104) -/

theorem pageOf_modPage_self (id : Nat) {f : Page → Page} (hf : ∀ p, (f p).id = p.id) (c : Chip) :
    pageOf (modPage id f c) id = (pageOf c id).map f := by
  unfold pageOf modPage
  dsimp only
  induction c.store.dir with
  | nil => rfl
  | cons p ps ih =>
    rw [List.map_cons, List.find?_cons, List.find?_cons]
    by_cases hp : p.id = id
    · simp [hp, hf]
    · simp only [hp, if_false]
      rw [show (p.id == id) = false by simpa using hp]
      exact ih

theorem pageOf_modPage_ne {id n : Nat} (h : n ≠ id) {f : Page → Page} (hf : ∀ p, (f p).id = p.id) (c : Chip) :
    pageOf (modPage id f c) n = pageOf c n := by
  unfold pageOf modPage
  dsimp only
  induction c.store.dir with
  | nil => rfl
  | cons p ps ih =>
    rw [List.map_cons, List.find?_cons, List.find?_cons, ih]
    by_cases hp : p.id = id
    · rw [if_pos hp, show ((f p).id == n) = false by rw [hf, hp]; simpa using Ne.symm h,
        show (p.id == n) = false by rw [hp]; simpa using Ne.symm h]
    · rw [if_neg hp]

/-! ## A block found damaged (R111, R114) -/

theorem blockAt_damageBlock (b n : Nat) (c : Chip) : blockAt (damageBlock b c) n =
    if n = b ∧ b < c.store.blocks.length then Block.leaving .damaged (blockAt c b) else blockAt c n := by
  rw [damageBlock, blockAt_askProgram, blockAt_setBlockState (st := .damaged) ⟨nofun, nofun⟩]

theorem setBlockState_store (b : Nat) (st : BlockState) (c : Chip) : ∃ blocks, (setBlockState b st c).store = { c.store with blocks := blocks } :=
  ⟨_, rfl⟩

theorem damageBlock_frame (b : Nat) (c : Chip) : (damageBlock b c).store.dir = c.store.dir ∧ (damageBlock b c).store.work = c.store.work ∧
    (damageBlock b c).store.reloc = c.store.reloc ∧ (damageBlock b c).store.programFault = c.store.programFault ∧
    (damageBlock b c).store.erasedList = c.store.erasedList ∧ (damageBlock b c).store.eraseQueue = c.store.eraseQueue := by
  obtain ⟨blocks, h⟩ := setBlockState_store b .damaged c
  simp [damageBlock, h]

theorem damageBlock_waits (b : Nat) (c : Chip) :
    (damageBlock b c).store.holder = some (.retire b .quiet) ∨ Job.retire b .quiet ∈ (damageBlock b c).store.programs := askProgram_waits _ _

theorem programFailed_store (b : Nat) (c : Chip) : (programFailed b c).store = { c.store with programFault := true } := by
  simp [programFailed]

theorem blockAt_programFailed (b n : Nat) (c : Chip) : blockAt (programFailed b c) n = blockAt c n :=
  blockAt_congr (by rw [programFailed_store]) n

theorem pageOf_programFailed (b n : Nat) (c : Chip) : pageOf (programFailed b c) n = pageOf c n :=
  pageOf_congr (by rw [programFailed_store]) n

end Sys2Proof.Proofs
end

section
/-!
PROOFS. The ends of the program and read jobs (06_page_store.md R111 to R114, R120).
-/

-- One declaration after another: the package as one text keeps within the check's limit on threads.
set_option Elab.async false

namespace Sys2Proof.Proofs

open Sys2Proof Sys2Proof.Machine

/-! ## The commands -/

theorem exec_entryProgramEnd {s : State} (h : s.chip.store.holder = some .entry) (r : ProgResult) :
    exec (.entryProgramEnd r) s = .next (endProgram .entry r entryDone s) := congrArg Host.Outcome.next (if_pos h)

theorem exec_entryProgramEnd_idle {s : State} (h : s.chip.store.holder ≠ some .entry) (r : ProgResult) :
    exec (.entryProgramEnd r) s = .next s := congrArg Host.Outcome.next (if_neg h)

theorem exec_claimProgramEnd {s : State} {b : Nat} {rel : Bool} {pg : Page} (h : s.chip.store.holder = some (.claim b rel pg)) (r : ProgResult) :
    exec (.claimProgramEnd r) s = .next (endProgram (.claim b rel pg) r (claimDone b rel) s) := by
  show execClaimProgramEnd r s = _
  unfold execClaimProgramEnd
  rw [h]

theorem exec_claimProgramEnd_idle {s : State} (h : ∀ b rel pg, s.chip.store.holder ≠ some (.claim b rel pg)) (r : ProgResult) :
    exec (.claimProgramEnd r) s = .next s := by
  show execClaimProgramEnd r s = _
  unfold execClaimProgramEnd
  split
  next b rel pg k => exact absurd k (h b rel pg)
  · rfl

theorem exec_closeProgramEnd_full {s : State} {b : Nat} (h : s.chip.store.holder = some (.closeFull b)) (r : ProgResult) :
    exec (.closeProgramEnd r) s = .next (endProgram (.closeFull b) r (closeDone b none) s) := by
  show execCloseProgramEnd r s = _
  unfold execCloseProgramEnd
  rw [h]

theorem exec_closeProgramEnd_page {s : State} {b : Nat} {cut : Bool} (h : s.chip.store.holder = some (.closePage b cut)) (r : ProgResult) :
    exec (.closeProgramEnd r) s = .next (endProgram (.closePage b cut) r (closeDone b (some cut)) s) := by
  show execCloseProgramEnd r s = _
  unfold execCloseProgramEnd
  rw [h]

theorem exec_closeProgramEnd_idle {s : State} (hfull : ∀ b, s.chip.store.holder ≠ some (.closeFull b))
    (hpage : ∀ b cut, s.chip.store.holder ≠ some (.closePage b cut)) (r : ProgResult) : exec (.closeProgramEnd r) s = .next s := by
  show execCloseProgramEnd r s = _
  unfold execCloseProgramEnd
  split
  next b k => exact absurd k (hfull b)
  next b cut k => exact absurd k (hpage b cut)
  · rfl

theorem exec_retireProgramEnd {s : State} {b : Nat} {why : RetireFor} (h : s.chip.store.holder = some (.retire b why)) (r : ProgResult) :
    exec (.retireProgramEnd r) s = .next (endProgram (.retire b why) r (retireDone b why) s) := by
  show execRetireProgramEnd r s = _
  unfold execRetireProgramEnd
  rw [h]

theorem exec_retireProgramEnd_idle {s : State} (h : ∀ b why, s.chip.store.holder ≠ some (.retire b why)) (r : ProgResult) :
    exec (.retireProgramEnd r) s = .next s := by
  show execRetireProgramEnd r s = _
  unfold execRetireProgramEnd
  split
  next b why k => exact absurd k (h b why)
  · rfl

theorem exec_relocationCopyEnd_program {s : State} (h : s.chip.store.holder = some .relocEntry) (r : ProgResult) :
    exec (.relocationCopyEnd r) s = .next (endProgram .relocEntry r relocProgrammed s) := by
  show execRelocationCopyEnd r s = _
  unfold execRelocationCopyEnd
  rw [h]

theorem exec_relocationCopyEnd_read {s : State} (h : s.chip.store.holder = some .relocRead) (r : ProgResult) :
    exec (.relocationCopyEnd r) s = .next (endRead (relocRead s.flash.mem) s) := by
  show execRelocationCopyEnd r s = _
  unfold execRelocationCopyEnd
  rw [h]

theorem exec_relocationCopyEnd_idle {s : State} (hprogram : s.chip.store.holder ≠ some .relocEntry)
    (hread : s.chip.store.holder ≠ some .relocRead) (r : ProgResult) : exec (.relocationCopyEnd r) s = .next s := by
  show execRelocationCopyEnd r s = _
  unfold execRelocationCopyEnd
  split
  next k => exact absurd k hread
  next k => exact absurd k hprogram
  · rfl

/-- A job that leaves the backdrop leaves it through what follows at its end. -/
theorem ended_backdrop {c d : Chip} (h : Kept c d) : (freeFlash (settleAll d)).backdrop = c.backdrop :=
  (freeFlash_kept (settleAll_kept h)).1

/-! ## Entry programs (R112, R114) -/

section
variable {c : Chip} {w : Work} {r id b : Nat} {pg : Page} {e : LineEntry} {x : Coded}

theorem entryPlace_of (hw : c.store.work = some w) (hpage : w.page = some id) (hpg : pageOf c id = some pg) (hlast : lastBlock pg = some b) :
    entryPlace c = some (b, (blockAt c b).used) := by
  unfold entryPlace
  rw [hw]
  dsimp only
  rw [hpage, Option.bind_some, hpg, Option.bind_some, hlast]
  rfl

theorem workLine_of (hw : c.store.work = some w) (hitem : w.item = .line e x) : workLine c = some x := by
  unfold workLine
  rw [hw]
  dsimp only
  rw [hitem]

theorem entryDone_ok (hw : c.store.work = some w) (hr : w.route = some r) (hpage : w.page = some id) (hitem : w.item = .line e x)
    (hpg : pageOf c id = some pg) (hlast : lastBlock pg = some b) : entryDone true c =
      dropHead .store r (setWork none (modPage id (fun p => { p with lines := p.lines + 1 })
        (modBlock b (fun y => { y with committed := y.committed + 1, used := y.used + entrySize x }) c))) := by
  unfold entryDone
  rw [hw, entryPlace_of hw hpage hpg hlast, workLine_of hw hitem]
  dsimp only
  rw [hr, hpage]
  rfl

theorem entryDone_failed (hw : c.store.work = some w) (hr : w.route = some r) (hpage : w.page = some id) (hitem : w.item = .line e x)
    (hpg : pageOf c id = some pg) (hlast : lastBlock pg = some b) : entryDone false c = beginReloc b r (programFailed b c) := by
  unfold entryDone
  rw [hw, entryPlace_of hw hpage hpg hlast, workLine_of hw hitem]
  dsimp only
  rw [hr]
  rfl

end

/-! ## Claims (R111) -/

/-- A page without a block. -/
def Page.without (b : Nat) (pg : Page) : Page := { pg with blocks := pg.blocks.filter (· ≠ b) }

/-- A claimed block whose header program failed, out of its page and DAMAGED. -/
def claimLost (b id : Nat) (c : Chip) : Chip :=
  damageBlock b (modPage id (Page.without b) (programFailed b c))

theorem claimFailed_eq {b id : Nat} {c : Chip} (hstate : (blockAt c b).state = .claimed ∨ (blockAt c b).state = .full)
    (hpage : (blockAt c b).page = some id) : claimFailed b c =
      match (claimLost b id c).store.work with
      | some w =>
          match w.route, w.item with
          | some r, .line _ _ => tryClaim r (withdraw (· == .entry) (claimLost b id c))
          | _, _ => claimLost b id c
      | none => claimLost b id c := by
  unfold claimFailed
  dsimp only
  rw [hpage, decide_eq_true hstate, if_pos rfl]
  rfl

theorem claimLost_work (b id : Nat) (c : Chip) : (claimLost b id c).store.work = c.store.work := by
  obtain ⟨-, hwork, -⟩ := damageBlock_frame b (modPage id (Page.without b) (programFailed b c))
  rw [claimLost, hwork]
  simp [modPage, programFailed_store]

theorem blockAt_claimLost (b id n : Nat) (c : Chip) : blockAt (claimLost b id c) n =
    if n = b ∧ b < c.store.blocks.length then Block.leaving .damaged (blockAt c b) else blockAt c n := by
  have hblocks : (modPage id (Page.without b) (programFailed b c)).store.blocks = c.store.blocks := by
    simp [modPage, programFailed_store]
  rw [claimLost, blockAt_damageBlock, hblocks, blockAt_congr hblocks, blockAt_congr hblocks]

theorem pageOf_claimLost (b id n : Nat) (c : Chip) : pageOf (claimLost b id c) n =
    if n = id then (pageOf c id).map (Page.without b) else pageOf c n := by
  obtain ⟨hdir, -⟩ := damageBlock_frame b (modPage id (Page.without b) (programFailed b c))
  rw [claimLost, pageOf_congr hdir]
  split
  next h =>
    subst h
    rw [pageOf_modPage_self n (f := Page.without b) (fun _ => rfl), pageOf_programFailed]
  next h => rw [pageOf_modPage_ne h (f := Page.without b) (fun _ => rfl), pageOf_programFailed]

theorem claimLost_fault (b id : Nat) (c : Chip) : (claimLost b id c).store.programFault = true := by
  obtain ⟨-, -, -, hfault, -⟩ := damageBlock_frame b (modPage id (Page.without b) (programFailed b c))
  rw [claimLost, hfault]
  simp [modPage, programFailed_store]

/-! ## Page closes (R113) -/

/-- A page that is complete. -/
def Page.closed (cut : Bool) (pg : Page) : Page := { pg with writing := false, truncated := cut }

/-- A page closed, and with no route behind it any more. -/
def pageEnded (id : Nat) (cut : Bool) (c : Chip) : Chip :=
  forgetPage id (modPage id (Page.closed cut) (setWork none c))

theorem pageClosed_eq {c : Chip} {w : Work} {id : Nat} {mark : Option Mark} (hw : c.store.work = some w) (hpage : w.page = some id)
    (hitem : w.item = .closing mark) (cut : Bool) : pageClosed cut c =
      match w.route, mark with
      | some r, some _ => serveMark .store r (fun m => { m with pageId := some id }) (pageEnded id cut c)
      | _, _ => pageEnded id cut c := by
  obtain ⟨route, page, item, need⟩ := w
  dsimp only at hpage hitem
  subst hpage hitem
  unfold pageClosed
  rw [hw]
  cases route with
  | none => rfl
  | some r => cases mark <;> rfl

theorem pageClosed_store {c : Chip} {w : Work} {id : Nat} {mark : Option Mark} (hw : c.store.work = some w) (hpage : w.page = some id)
    (hitem : w.item = .closing mark) (cut : Bool) : (pageClosed cut c).store = (pageEnded id cut c).store := by
  rw [pageClosed_eq hw hpage hitem]
  split
  · simp
  · rfl

theorem pageOf_pageEnded (id n : Nat) (cut : Bool) (c : Chip) : pageOf (pageEnded id cut c) n =
    if n = id then (pageOf c id).map (Page.closed cut) else pageOf c n := by
  have hsame : pageOf (pageEnded id cut c) n =
      pageOf (modPage id (Page.closed cut) (setWork none c)) n := rfl
  rw [hsame]
  split
  next h =>
    subst h
    rw [pageOf_modPage_self n (f := Page.closed cut) (fun _ => rfl)]
    rfl
  next h =>
    rw [pageOf_modPage_ne h (f := Page.closed cut) (fun _ => rfl)]
    rfl

theorem ctxOf_pageEnded (id : Nat) (cut : Bool) (c : Chip) (r : Nat) : ctxOf (pageEnded id cut c) r =
    (ctxOf c r).map fun y => if y.storePage = some id then { y with storePage := none } else y := by
  have hroute := getRoute_forgetPage id (modPage id (Page.closed cut) (setWork none c)) r
  unfold pageEnded
  rw [ctxOf, hroute]
  have hctx : ctxOf c r = (getRoute (modPage id (Page.closed cut) (setWork none c)) r).ctx := rfl
  rw [hctx]
  cases hx : (getRoute (modPage id (Page.closed cut) (setWork none c)) r).ctx with
  | none => simp [hx]
  | some y =>
    by_cases hy : y.storePage = some id <;> simp [hx, hy]

/-! ### The mark served with the page id (R15) -/

/-- Every open route has the store page it had. -/
def PagesKept (c t : Chip) : Prop := ∀ n y, ctxOf t n = some y → ∃ x, ctxOf c n = some x ∧ y.storePage = x.storePage

theorem PagesKept.rfl {c : Chip} : PagesKept c c := fun _ y h => ⟨y, h, Eq.refl _⟩

theorem PagesKept.trans {a b c : Chip} (h : PagesKept a b) (k : PagesKept b c) : PagesKept a c := by
  intro n z hz
  obtain ⟨y, hy, hzy⟩ := k n z hz
  obtain ⟨x, hx, hyx⟩ := h n y hy
  exact ⟨x, hx, hzy.trans hyx⟩

theorem PagesKept.of {c t : Chip} (h : ∀ n, ctxOf t n = ctxOf c n) : PagesKept c t := fun n y hy => ⟨y, (h n).symm.trans hy, Eq.refl _⟩

theorem modCtx_pagesKept (r : Nat) {f : Ctx → Ctx} (hf : ∀ x, (f x).storePage = x.storePage) (c : Chip) : PagesKept c (modCtx r f c) := by
  intro n y hy
  rw [ctxOf_modCtx] at hy
  split at hy
  next h =>
    obtain ⟨x, hx, rfl⟩ := Option.map_eq_some_iff.mp hy
    exact ⟨x, h ▸ hx, hf x⟩
  next => exact ⟨y, hy, Eq.refl _⟩

theorem push_storePage (x : Ctx) (e : Entry) : (x.push e).storePage = x.storePage := by rw [push_eq]

theorem enterQueues_pagesKept (r : Nat) (e : Entry) (c : Chip) : PagesKept c (enterQueues r e c) := by
  unfold enterQueues
  split
  · exact .rfl
  · have hpush := modCtx_pagesKept r (f := fun x => x.push e) (push_storePage · e) c
    cases e with
    | line l => exact hpush.trans (.of fun n => ctxOf_setSlot _ _ _ _)
    | mark m => exact hpush

theorem moveHold_pagesKept (r : Nat) (es : List Entry) (c : Chip) : PagesKept c (moveHold r es c) := by
  induction es generalizing c with
  | nil => exact modCtx_pagesKept r (f := fun x => { x with hold := [] }) (fun _ => rfl) c
  | cons e es ih =>
    unfold moveHold
    split
    · exact .rfl
    · split
      · exact (enterQueues_pagesKept r e c).trans (ih _)
      · exact modCtx_pagesKept r (f := fun x => { x with hold := e :: es }) (fun _ => rfl) c

theorem settleHold_pagesKept (r : Nat) (c : Chip) : PagesKept c (settleHold r c) := by
  unfold settleHold
  split
  · exact .rfl
  · exact moveHold_pagesKept r _ c

theorem leaveMark_storePage (k : Sink) (m : Mark) (rest : List Entry) (x : Ctx) : (leaveMark k m rest x).storePage = x.storePage := by
  cases k <;> rfl

theorem ctxOf_pageDone (r n : Nat) (m : Mark) (c : Chip) : ctxOf (pageDone r m c) n = ctxOf c n := by
  unfold pageDone
  dsimp only
  by_cases hn : n = r
  · subst hn
    by_cases hlt : n < (queueEvent (.pageDone n m.lines m.repaired m.truncated m.isPartial m.pageId) c).routes.length
    · rw [ctxOf, getRoute_setRoute_self hlt]
      exact ctxOf_queueEvent _ _ _
    · rw [ctxOf, getRoute_setRoute, if_neg (by simpa using hlt)]
      exact ctxOf_queueEvent _ _ _
  · rw [ctxOf, getRoute_setRoute_ne hn]
    exact ctxOf_queueEvent _ _ _

theorem serveMark_pagesKept (k : Sink) (r : Nat) (f : Mark → Mark) (c : Chip) : PagesKept c (serveMark k r f c) := by
  cases hx : ctxOf c r with
  | none =>
    unfold serveMark
    rw [hx]
    exact .rfl
  | some x =>
    cases hq : x.queue k with
    | nil =>
      unfold serveMark
      rw [hx]
      dsimp only
      rw [hq]
      exact .rfl
    | cons e rest =>
      cases e with
      | line l =>
        unfold serveMark
        rw [hx]
        dsimp only
        rw [hq]
        exact .rfl
      | mark m =>
        rw [serveMark_of_mark hx hq]
        have hleave := modCtx_pagesKept r (leaveMark_storePage k (f m) rest) c
        split
        · exact hleave.trans (settleHold_pagesKept r _)
        · exact (hleave.trans (.of fun n => ctxOf_pageDone r n _ _)).trans (settleHold_pagesKept r _)

/-- The store queue of a route whose store sink has served a mark, with nothing in its hold. -/
theorem ctxOf_serveMark {k : Sink} {r : Nat} {x : Ctx} {m : Mark} {rest : List Entry} {c : Chip} (h : ctxOf c r = some x)
    (hq : x.queue k = .mark m :: rest) (hhold : x.hold = []) (f : Mark → Mark) :
    ctxOf (serveMark k r f c) r = some (leaveMark k (f m) rest x) := by
  have hleft : ctxOf (modCtx r (leaveMark k (f m) rest) c) r = some (leaveMark k (f m) rest x) := by
    rw [ctxOf_modCtx_self, h]
    rfl
  have hnone : (leaveMark k (f m) rest x).hold = [] := (show _ = x.hold by cases k <;> rfl).trans hhold
  have hsettled {d : Chip} (hd : ctxOf d r = some (leaveMark k (f m) rest x)) : ctxOf (settleHold r d) r = some (leaveMark k (f m) rest x) := by
    rw [settleHold_empty hd hnone, ctxOf_modCtx_self, hd, Option.map_some, ← hnone]
  rw [serveMark_of_mark h hq]
  split
  · exact hsettled hleft
  · exact hsettled ((ctxOf_pageDone r r _ _).trans hleft)


/-! ## Retire programs (R120) -/

theorem endInstall_store (res : OpResult) (c : Chip) : (endInstall res c).store = c.store := by
  unfold endInstall
  split <;> simp

theorem retireEnded_store (why : RetireFor) (failed : Bool) (c : Chip) :
    ∃ retires, (retireEnded why failed c).store = { c.store with retires := retires } := by
  unfold retireEnded
  dsimp only
  refine ⟨(stepRetires why failed c.store.retires).1, ?_⟩
  split
  · split
    · simp
    · rw [endInstall_store]
    · rfl
  · rfl

theorem joinEraseQueue_store (b : Nat) (c : Chip) : (joinEraseQueue b c).store =
    { c.store with eraseQueue := if b ∈ c.store.eraseQueue then c.store.eraseQueue else c.store.eraseQueue ++ [b] } := by
  unfold joinEraseQueue
  split <;> rfl

theorem retireDone_store (b : Nat) (why : RetireFor) (ok : Bool) (c : Chip) : ∃ retires, (retireDone b why ok c).store = { c.store with
    retires := retires, eraseQueue := if b ∈ c.store.eraseQueue then c.store.eraseQueue else c.store.eraseQueue ++ [b]
    blocks := if ok then c.store.blocks else (setBlockState b .damaged c).store.blocks
    programFault := c.store.programFault || !ok } := by
  obtain ⟨retires, hended⟩ := retireEnded_store why (!ok) (joinEraseQueue b (if ok then c else programFailed b (setBlockState b .damaged c)))
  refine ⟨retires, hended.trans ?_⟩
  rw [joinEraseQueue_store]
  cases ok with
  | true => simp
  | false =>
    rw [if_neg Bool.false_ne_true, if_neg Bool.false_ne_true, programFailed_store]
    simp [setBlockState, modBlock]

/-! ## Relocations (R114) -/

section
variable {c : Chip} {x : Reloc} {w : Work} {n r id : Nat} {pg : Page}

theorem relocProgrammed_eq (hx : c.store.reloc = some x) (hw : c.store.work = some w) (hn : x.target = some n) (hr : w.route = some r)
    (hpage : w.page = some id) (ok : Bool) : relocProgrammed ok c =
      if !ok then relocFailed x.source n r c
      else
        match x.buffer, w.item with
        | some bs, _ =>
            copyNext { x with copied := x.copied + 1, offset := x.offset + bs.length, buffer := none }
              (modBlock n (fun b => { b with committed := x.copied + 1, used := x.offset + bs.length }) c)
        | none, .line _ coded => relocDone x n r id (entrySize coded) c
        | none, .closing _ => c := by
  obtain ⟨route, page, item, need⟩ := w
  obtain ⟨source, target, copied, offset, buffer⟩ := x
  dsimp only at hn hr hpage
  subst hn hr hpage
  unfold relocProgrammed
  rw [hx, hw] <;> cases ok <;> cases buffer <;> cases item <;> rfl

theorem claimDone_reloc (hx : c.store.reloc = some x) (hw : c.store.work = some w) (hr : w.route = some r) (ok : Bool) :
    claimDone n true ok c = if ok then copyNext x c else relocFailed x.source n r c := by
  unfold claimDone
  rw [if_pos rfl, hx, hw]
  dsimp only
  rw [hr]

theorem copyNext_same (hx : c.store.reloc = some x) :
    copyNext x c = if x.copied < (blockAt c x.source).committed then askRead .relocRead c else askProgram .relocEntry c := by
  have hsame : { c with store := { c.store with reloc := some x } } = c := by rw [← hx]
  unfold copyNext
  rw [hsame]

/-- What a copy under way leaves of the tables: its record of the relocation alone. -/
theorem copyNext_store (x : Reloc) (c : Chip) : (copyNext x c).store.blocks = c.store.blocks ∧ (copyNext x c).store.reloc = some x := by
  unfold copyNext
  dsimp only
  split <;> simp

theorem relocRead_eq (hx : c.store.reloc = some x) (hw : c.store.work = some w) (hr : w.route = some r) {mem : List Host.Cell} {coded : Coded}
    (hentry : readEntry mem x.source x.offset = some coded) : relocRead mem c = askProgram .relocEntry { c with store := { c.store with
      reloc := some { x with buffer := some (blockBytesAt mem x.source (64 + x.offset) (coded.data.length + 4)) } } } := by
  unfold relocRead
  rw [hx, hw]
  dsimp only
  rw [hr, if_neg (by simp), hentry]
  rfl

/-- The relocation that a failure begins anew: its claim is tried with the relocation block DAMAGED. -/
def relocAnew (source target : Nat) (c : Chip) : Chip :=
  { damageBlock target (programFailed target c) with
    store := { (damageBlock target (programFailed target c)).store with reloc := some ⟨source, none, 0, 0, none⟩ } }

theorem relocFailed_eq (source target r : Nat) (c : Chip) : relocFailed source target r c = tryClaim r (relocAnew source target c) := rfl

theorem relocAnew_frame (source target : Nat) (c : Chip) : (relocAnew source target c).store.programFault = true ∧
    (relocAnew source target c).store.dir = c.store.dir ∧ (relocAnew source target c).store.blocks.length = c.store.blocks.length := by
  obtain ⟨hdir, -, -, hfault, -⟩ := damageBlock_frame target (programFailed target c)
  refine ⟨?_, ?_, ?_⟩
  · exact hfault.trans (by rw [programFailed_store])
  · exact hdir.trans (by rw [programFailed_store])
  · simp [relocAnew, damageBlock, programFailed_store]

theorem blockAt_relocAnew (source target m : Nat) (c : Chip) : blockAt (relocAnew source target c) m =
    if m = target ∧ target < c.store.blocks.length then Block.leaving .damaged (blockAt c target) else blockAt c m := by
  have hsame : blockAt (relocAnew source target c) m = blockAt (damageBlock target (programFailed target c)) m := rfl
  rw [hsame, blockAt_damageBlock, blockAt_programFailed, blockAt_programFailed, programFailed_store]

/-- The page of a relocation that is complete: one line more, the relocation block in the failed one's place. -/
def Page.relocated (source target : Nat) (p : Page) : Page :=
  { p with lines := p.lines + 1, blocks := p.blocks.map fun b => if b = source then target else b }

/-- The tables once the entry that failed stands in the relocation block. -/
def relocTables (x : Reloc) (target id size : Nat) (c : Chip) : Chip :=
  let n := (blockAt c x.source).committed
  let c := modBlock target (fun b => { b with committed := n + 1, used := x.offset + size }) c
  let c := modPage id (Page.relocated x.source target) c
  { c with store := { c.store with reloc := none, work := none } }

theorem relocDone_eq (x : Reloc) (target r id size : Nat) (c : Chip) :
    relocDone x target r id size c = dropHead .store r (damageBlock x.source (relocTables x target id size c)) := rfl

theorem relocDone_store (x : Reloc) (target r id size : Nat) (c : Chip) :
    (relocDone x target r id size c).store = (damageBlock x.source (relocTables x target id size c)).store := by
  rw [relocDone_eq]
  simp

theorem blockAt_relocTables (x : Reloc) (target id size m : Nat) (c : Chip) : blockAt (relocTables x target id size c) m =
    if m = target ∧ target < c.store.blocks.length then
      { blockAt c target with committed := (blockAt c x.source).committed + 1, used := x.offset + size }
    else blockAt c m := by
  have hsame : blockAt (relocTables x target id size c) m =
      blockAt (modBlock target (fun b => { b with committed := (blockAt c x.source).committed + 1, used := x.offset + size }) c) m := rfl
  rw [hsame, blockAt_modBlock]

theorem pageOf_relocTables (x : Reloc) (target id size : Nat) (c : Chip) :
    pageOf (relocTables x target id size c) id = (pageOf c id).map (Page.relocated x.source target) :=
  pageOf_modPage_self id (f := Page.relocated x.source target) (fun _ => rfl)
    (modBlock target (fun b => { b with committed := (blockAt c x.source).committed + 1, used := x.offset + size }) c)

end

/-! ## The ends of the jobs -/

theorem runProgram_writes (j : Job) (r : ProgResult) (s : State) (hf : FlashOk s.flash) :
    (∀ a, (∀ w ∈ jobWrites s.chip s.flash.mem j, w.1 ≠ a) → readMem (runProgram j r s).1.mem a = readMem s.flash.mem a) ∧
    (((jobWrites s.chip s.flash.mem j).map Prod.fst).Nodup → (runProgram j r s).2 = true →
      ∀ w ∈ jobWrites s.chip s.flash.mem j, w.1 < 1048576 → readMem (runProgram j r s).1.mem w.1 = w.2) :=
  ⟨fun _ h => readMem_programRun_ne _ r hf.1 h, fun hnodup hok _ hw hlt => readMem_programRun_done _ r hf.1 hnodup hok hw hlt⟩

/-- The tables after an entry program, by its outcome. -/
theorem entry_tables {c : Chip} {w : Work} {r id b : Nat} {pg : Page} {e : LineEntry} {x : Coded} (hw : c.store.work = some w)
    (hr : w.route = some r) (hpage : w.page = some id) (hitem : w.item = .line e x) (hpg : pageOf c id = some pg)
    (hlast : lastBlock pg = some b) (hb : b < c.store.blocks.length) :
    blockAt (entryDone true c) b =
        { blockAt c b with committed := (blockAt c b).committed + 1, used := (blockAt c b).used + (x.data.length + 4) } ∧
      pageOf (entryDone true c) id = some { pg with lines := pg.lines + 1 } ∧
      ∃ m, entryDone false c = tryClaim r m ∧ m.store.reloc = some ⟨b, none, 0, 0, none⟩ ∧ m.store.programFault = true ∧
        m.store.blocks = c.store.blocks ∧ m.store.dir = c.store.dir ∧ m.store.work = c.store.work := by
  rw [entryDone_ok hw hr hpage hitem hpg hlast, entryDone_failed hw hr hpage hitem hpg hlast]
  refine ⟨?_, ?_, ⟨_, rfl, rfl, ?_⟩⟩
  · rw [blockAt_congr (c := modBlock b (fun y => { y with committed := y.committed + 1, used := y.used + entrySize x }) c) (by simp [setWork, modPage]),
      blockAt_modBlock_self hb]
    rfl
  · rw [pageOf_congr (c := modPage id (fun p => { p with lines := p.lines + 1 }) c) (by simp [setWork, modPage]),
      pageOf_modPage_self id (f := fun p => { p with lines := p.lines + 1 }) (fun _ => rfl), hpg]
    rfl
  · dsimp only
    rw [programFailed_store]
    exact ⟨rfl, rfl, rfl, rfl⟩

/-- The tables after a claim's header program that failed, and what follows of it. -/
theorem claim_tables {b id : Nat} {c : Chip} (hstate : (blockAt c b).state = .claimed ∨ (blockAt c b).state = .full)
    (hpage : (blockAt c b).page = some id) (hb : b < c.store.blocks.length) :
    ∃ m, (blockAt m b).state = .damaged ∧ (blockAt m b).page = none ∧ (∀ n, n ≠ b → blockAt m n = blockAt c n) ∧
      pageOf m id = (pageOf c id).map (fun pg => { pg with blocks := pg.blocks.filter (· ≠ b) }) ∧
      (∀ n, n ≠ id → pageOf m n = pageOf c n) ∧ m.store.programFault = true ∧ m.store.work = c.store.work ∧
      (m.store.holder = some (.retire b .quiet) ∨ Job.retire b .quiet ∈ m.store.programs) ∧
      (c.store.work = none → claimDone b false false c = m) ∧
      (∀ w mark, c.store.work = some w → w.item = .closing mark → claimDone b false false c = m) ∧
      (∀ w r e x, c.store.work = some w → w.route = some r → w.item = .line e x →
        claimDone b false false c = tryClaim r (withdraw (· == .entry) m)) := by
  have hlost := claimFailed_eq hstate hpage
  rw [claimLost_work] at hlost
  have hdone : claimDone b false false c = claimFailed b c := rfl
  refine ⟨claimLost b id c, ?_, ?_, fun n hn => ?_, ?_, fun n hn => ?_, claimLost_fault b id c, claimLost_work b id c, damageBlock_waits b _,
    fun hw => ?_, fun w mark hw hitem => ?_, fun w r e x hw hr hitem => ?_⟩
  · rw [blockAt_claimLost, if_pos ⟨rfl, hb⟩]
    rfl
  · rw [blockAt_claimLost, if_pos ⟨rfl, hb⟩]
    rfl
  · rw [blockAt_claimLost, if_neg fun k => hn k.1]
  · rw [pageOf_claimLost, if_pos rfl]
    rfl
  · rw [pageOf_claimLost, if_neg hn]
  · rw [hdone, hlost, hw]
  · obtain ⟨route, page, item, need⟩ := w
    dsimp only at hitem
    subst hitem
    rw [hdone, hlost, hw]
    cases route <;> rfl
  · obtain ⟨route, page, item, need⟩ := w
    dsimp only at hr hitem
    subst hr hitem
    rw [hdone, hlost, hw]

/-- The tables after the close of a page. -/
theorem close_tables {b id : Nat} {cut ok : Bool} {w : Work} {mark : Option Mark} {pg : Page} {c : Chip} (hw : c.store.work = some w)
    (hpage : w.page = some id) (hitem : w.item = .closing mark) (hpg : pageOf c id = some pg) :
    let t := closeDone b (some cut) ok c
    pageOf t id = some { pg with writing := false, truncated := cut } ∧ (∀ n, n ≠ id → pageOf t n = pageOf c n) ∧
      t.store.blocks = c.store.blocks ∧ t.store.work = none ∧ t.store.programFault = (c.store.programFault || !ok) ∧
      (∀ r y, ctxOf t r = some y → y.storePage ≠ some id) ∧
      (∀ r x k rest, w.route = some r → mark.isSome = true → ctxOf c r = some x → x.storeQ = .mark k :: rest → x.hold = [] →
        ∃ y, ctxOf t r = some y ∧ y.storeQ = putMark { k with pageId := some id } rest) := by
  dsimp only
  have hdone : closeDone b (some cut) ok c = pageClosed cut (if ok then c else programFailed b c) := rfl
  have hfailed : (if ok then c else programFailed b c).store = { c.store with programFault := c.store.programFault || !ok } := by
    cases ok <;> simp [programFailed_store]
  have hroutes (r : Nat) : ctxOf (if ok then c else programFailed b c) r = ctxOf c r := by
    cases ok with
    | true => rfl
    | false => exact ctxOf_queueEvent _ _ _
  rw [hdone]
  generalize (if ok then c else programFailed b c) = d at hfailed hroutes ⊢
  have hwd : d.store.work = some w := by rw [hfailed]; exact hw
  have hstore := pageClosed_store hwd hpage hitem cut
  have hpages (n : Nat) : pageOf (pageClosed cut d) n = if n = id then (pageOf c id).map (Page.closed cut) else pageOf c n := by
    have hdir (m : Nat) : pageOf d m = pageOf c m := pageOf_congr (by rw [hfailed]) m
    rw [pageOf_congr (c := pageEnded id cut d) (by rw [hstore]), pageOf_pageEnded, hdir, hdir]
  have hkept : ∀ r y, ctxOf (pageEnded id cut d) r = some y → y.storePage ≠ some id := by
    intro r y hy
    rw [ctxOf_pageEnded] at hy
    obtain ⟨x, -, rfl⟩ := Option.map_eq_some_iff.mp hy
    split
    · exact nofun
    next hno => exact hno
  have heq := pageClosed_eq hwd hpage hitem cut
  refine ⟨?_, fun n hn => ?_, ?_, ?_, ?_, fun r y hy => ?_, fun r x k rest hr hmark hx hq hhold => ?_⟩
  · rw [hpages, if_pos rfl, hpg]
    rfl
  · rw [hpages, if_neg hn]
  · rw [hstore]
    exact (congrArg Store.blocks hfailed :)
  · rw [hstore]
    rfl
  · rw [hstore]
    exact (congrArg Store.programFault hfailed :)
  · rw [heq] at hy
    split at hy
    · obtain ⟨x, hx, hsame⟩ := serveMark_pagesKept .store _ _ _ r y hy
      rw [hsame]
      exact hkept r x hx
    · exact hkept r y hy
  · obtain ⟨m, rfl⟩ := Option.isSome_iff_exists.mp hmark
    obtain ⟨y, hy, hqy, hhy⟩ : ∃ y, ctxOf (pageEnded id cut d) r = some y ∧ y.storeQ = .mark k :: rest ∧ y.hold = [] := by
      rw [ctxOf_pageEnded, hroutes, hx]
      refine ⟨_, rfl, ?_, ?_⟩ <;> dsimp only <;> split
      · exact hq
      · exact hq
      · exact hhold
      · exact hhold
    rw [heq, hr]
    exact ⟨_, ctxOf_serveMark (k := .store) hy hqy hhy _, rfl⟩

/-- The tables after a retire program. -/
theorem retire_tables {b : Nat} (why : RetireFor) (ok : Bool) {c : Chip} (hb : b < c.store.blocks.length) :
    let t := retireDone b why ok c
    t.store.eraseQueue = (if b ∈ c.store.eraseQueue then c.store.eraseQueue else c.store.eraseQueue ++ [b]) ∧
      (ok = true → t.store.blocks = c.store.blocks) ∧ (ok = false → (blockAt t b).state = .damaged) ∧
      (∀ n, n ≠ b → blockAt t n = blockAt c n) ∧ t.store.programFault = (c.store.programFault || !ok) ∧ t.store.dir = c.store.dir := by
  obtain ⟨retires, hstore⟩ := retireDone_store b why ok c
  have hblock (n : Nat) : blockAt (retireDone b why ok c) n = if ok then blockAt c n else blockAt (setBlockState b .damaged c) n := by
    cases ok with
    | true => exact blockAt_congr (by rw [hstore]; rfl) n
    | false => exact blockAt_congr (by rw [hstore]; rfl) n
  dsimp only
  rw [hstore]
  refine ⟨rfl, fun hok => if_pos hok, fun hok => ?_, fun n hn => ?_, rfl, rfl⟩
  · rw [hblock, hok, if_neg Bool.false_ne_true, blockAt_setBlockState (st := .damaged) ⟨nofun, nofun⟩, if_pos ⟨rfl, hb⟩]
    rfl
  · have hother : blockAt (setBlockState b .damaged c) n = blockAt c n := by
      rw [blockAt_setBlockState (st := .damaged) ⟨nofun, nofun⟩, if_neg fun k => hn k.1]
    rw [hblock, hother, ite_self]

/-- The tables after the jobs of a relocation. -/
theorem reloc_tables {x : Reloc} {w : Work} {n r id : Nat} {pg : Page} {c : Chip} (hx : c.store.reloc = some x) (hw : c.store.work = some w)
    (hn : x.target = some n) (hr : w.route = some r) (hpage : w.page = some id) (hpg : pageOf c id = some pg) (hlt : n < c.store.blocks.length)
    (hsource : x.source < c.store.blocks.length) (hne : n ≠ x.source) :
    (∀ bs, x.buffer = some bs → (blockAt (relocProgrammed true c) n).committed = x.copied + 1 ∧
      (blockAt (relocProgrammed true c) n).used = x.offset + bs.length ∧
      (relocProgrammed true c).store.reloc = some { x with copied := x.copied + 1, offset := x.offset + bs.length, buffer := none }) ∧
    (∀ e y, x.buffer = none → w.item = .line e y →
      let t := relocProgrammed true c
      (blockAt t n).committed = (blockAt c x.source).committed + 1 ∧ (blockAt t n).used = x.offset + (y.data.length + 4) ∧
        (blockAt t x.source).state = .damaged ∧ t.store.reloc = none ∧ t.store.work = none ∧
        (t.store.holder = some (.retire x.source .quiet) ∨ Job.retire x.source .quiet ∈ t.store.programs) ∧
        pageOf t id = some { pg with lines := pg.lines + 1, blocks := pg.blocks.map fun b => if b = x.source then n else b }) := by
  have hprogrammed := relocProgrammed_eq hx hw hn hr hpage true
  refine ⟨fun bs hbs => ?_, fun e y hbuffer hitem => ?_⟩
  · rw [hbs] at hprogrammed
    obtain ⟨hblocks, hreloc⟩ := copyNext_store { x with copied := x.copied + 1, offset := x.offset + bs.length, buffer := none }
      (modBlock n (fun b => { b with committed := x.copied + 1, used := x.offset + bs.length }) c)
    have hchip : relocProgrammed true c = copyNext { x with copied := x.copied + 1, offset := x.offset + bs.length, buffer := none }
      (modBlock n (fun b => { b with committed := x.copied + 1, used := x.offset + bs.length }) c) := hprogrammed
    rw [hchip, blockAt_congr hblocks, blockAt_modBlock_self hlt]
    exact ⟨rfl, rfl, hreloc⟩
  · have hchip : relocProgrammed true c = relocDone x n r id (entrySize y) c := by
      rw [hprogrammed, hbuffer]
      obtain ⟨route, page, item, need⟩ := w
      dsimp only at hitem
      subst hitem
      rfl
    have hstore := relocDone_store x n r id (entrySize y) c
    obtain ⟨hdir, hwork, hreloc, -⟩ := damageBlock_frame x.source (relocTables x n id (entrySize y) c)
    have hlen : (relocTables x n id (entrySize y) c).store.blocks.length = c.store.blocks.length := by
      simp [relocTables, modBlock, modPage]
    have hblock (m : Nat) : blockAt (relocDone x n r id (entrySize y) c) m =
        if m = x.source then Block.leaving .damaged (blockAt c x.source) else blockAt (relocTables x n id (entrySize y) c) m := by
      rw [blockAt_congr (c := damageBlock x.source (relocTables x n id (entrySize y) c)) (by rw [hstore]), blockAt_damageBlock, hlen]
      by_cases hm : m = x.source
      · rw [if_pos ⟨hm, hsource⟩, if_pos hm, blockAt_relocTables, if_neg fun k => hne k.1.symm]
      · rw [if_neg fun k => hm k.1, if_neg hm]
    dsimp only
    rw [hchip, hblock, hblock, if_neg hne, if_pos rfl, blockAt_relocTables, if_pos ⟨rfl, hlt⟩]
    refine ⟨rfl, rfl, rfl, ?_, ?_, ?_, ?_⟩
    · rw [hstore]
      exact hreloc
    · rw [hstore]
      exact hwork
    · rw [hstore]
      exact damageBlock_waits _ _
    · rw [pageOf_congr (c := relocTables x n id (entrySize y) c) (by rw [hstore]; exact hdir), pageOf_relocTables, hpg]
      rfl

theorem endRead_flash (f : Chip → Chip) (s : State) : (endRead f s).flash = s.flash := by
  unfold endRead State.onChip
  with_reducible rfl

theorem endRead_chip (f : Chip → Chip) (s : State) : (endRead f s).chip = freeFlash (settleAll (f s.chip)) := by
  unfold endRead State.onChip
  with_reducible rfl

theorem endProgram_parts (j : Job) (r : ProgResult) (f : Bool → Chip → Chip) (s : State) : (endProgram j r f s).flash = (runProgram j r s).1 ∧
    (endProgram j r f s).chip = freeFlash (settleAll (f (runProgram j r s).2 s.chip)) := by
  unfold endProgram
  exact ⟨by with_reducible rfl, by with_reducible rfl⟩

theorem endProgram_backdrop {j : Job} {r : ProgResult} {f : Bool → Chip → Chip} {s : State} (h : ∀ ok, Kept s.chip (f ok s.chip)) :
    (endProgram j r f s).chip.backdrop = s.chip.backdrop := by
  rw [(endProgram_parts j r f s).2]
  exact ended_backdrop (h _)

theorem endProgram_loaded {j : Job} {r : ProgResult} {f : Bool → Chip → Chip} {s : State} (h : ∀ ok, KeptTables s.chip (f ok s.chip)) :
    (endProgram j r f s).chip.loaded = s.chip.loaded := by
  have hended := ended_backdrop (Kept.rfl (c := f (runProgram j r s).2 s.chip))
  obtain ⟨hloaded, -⟩ := backdrop_parts hended
  rw [(endProgram_parts j r f s).2]
  exact hloaded.trans (h _).1

/-- Settles O41, by the command of each job (`endProgram`, `endRead`), the array after its program, and the tables after each end. -/
theorem programsEndInTheirWrites : Obligations.ProgramsEndInTheirWrites := by
  unfold Obligations.ProgramsEndInTheirWrites
  refine ⟨fun r s => ⟨fun h => ?_, fun b rel pg h => ?_, fun b h => ?_, fun b cut h => ?_, fun b why h => ?_, fun h => ?_, fun h => ?_,
      fun h => exec_entryProgramEnd_idle h r, fun h => exec_claimProgramEnd_idle h r, fun hfull hpage => exec_closeProgramEnd_idle hfull hpage r,
      fun h => exec_retireProgramEnd_idle h r, fun hprogram hread => exec_relocationCopyEnd_idle hprogram hread r⟩,
    fun j r s hf => ?_, fun c w r id b pg e x hw hr hpage hitem hpg hlast hb => entry_tables hw hr hpage hitem hpg hlast hb,
    fun b id c => ⟨rfl, fun hstate hpage hb => claim_tables hstate hpage hb⟩,
    fun b id cut ok w mark pg c hw hpage hitem hpg => close_tables hw hpage hitem hpg, fun b c => ⟨rfl, rfl⟩,
    fun b why ok c hb => retire_tables why ok hb, fun x w n r id pg c hx hw hn hr hpage hpg hlt hsource hne => ?_⟩
  · exact ⟨exec_entryProgramEnd h r, ended_backdrop (entryDone_kept .rfl _)⟩
  · exact ⟨_, exec_claimProgramEnd h r, (endProgram_parts ..).1, (endProgram_parts ..).2, endProgram_backdrop fun ok => claimDone_kept .rfl b rel ok⟩
  · exact ⟨_, exec_closeProgramEnd_full h r, (endProgram_parts ..).1, (endProgram_parts ..).2, endProgram_backdrop fun ok => closeDone_kept .rfl b _ ok⟩
  · exact ⟨_, exec_closeProgramEnd_page h r, (endProgram_parts ..).1, (endProgram_parts ..).2, endProgram_backdrop fun ok => closeDone_kept .rfl b _ ok⟩
  · exact ⟨_, exec_retireProgramEnd h r, (endProgram_parts ..).1, (endProgram_parts ..).2, endProgram_loaded fun ok => retireDone_loaded .rfl b why ok⟩
  · exact ⟨_, exec_relocationCopyEnd_program h r, (endProgram_parts ..).1, (endProgram_parts ..).2, endProgram_backdrop fun ok => relocProgrammed_kept .rfl ok⟩
  · refine ⟨_, exec_relocationCopyEnd_read h r, endRead_flash .., endRead_chip .., ?_⟩
    rw [endRead_chip]
    exact ended_backdrop (relocRead_kept .rfl _)
  · obtain ⟨hother, hwanted⟩ := runProgram_writes j r s hf
    exact ⟨hother, hwanted, rfl, rfl, rfl⟩
  · obtain ⟨hcopied, hcomplete⟩ := reloc_tables hx hw hn hr hpage hpg hlt hsource hne
    have hfailed : relocProgrammed false c = relocFailed x.source n r c := relocProgrammed_eq hx hw hn hr hpage false
    have hnext : claimDone n true true c = copyNext x c := claimDone_reloc hx hw hr true
    refine ⟨fun h => ?_, fun h => ?_, (claimDone_reloc hx hw hr false).trans hfailed.symm, hcopied, hcomplete, ?_,
      fun mem coded hentry => relocRead_eq hx hw hr hentry⟩
    · rw [hnext, copyNext_same hx, if_pos h]
    · rw [hnext, copyNext_same hx, if_neg (Nat.not_lt.mpr h)]
    · obtain ⟨hfault, hdir, -⟩ := relocAnew_frame x.source n c
      refine ⟨relocAnew x.source n c, hfailed, rfl, hfault, ?_, ?_, hdir⟩
      · rw [blockAt_relocAnew, if_pos ⟨rfl, hlt⟩]
        rfl
      · rw [blockAt_relocAnew, if_neg fun k => hne k.1.symm]

end Sys2Proof.Proofs
end

section
/-!
PROOFS. A print run-out beside an open route that prints (01_line_pool_and_routes.md R22), which no run of the part reaches.
-/

-- One declaration after another: the package as one text keeps within the check's limit on threads.
set_option Elab.async false

namespace Sys2Proof.Proofs

open Sys2Proof Sys2Proof.Machine

/-- A part whose print channel runs down in a run-out of route 1, while the head serves route 0, an empty route with its close requested. -/
def strayRunOut : State :=
  { State.reset with chip := { State.reset.chip with
      routes := [{ Route.closed with ctx := some { bareCtx .link [.print] with closeReq := true } }]
      runOut := some ⟨1, [⟨0, 0, false⟩]⟩
      printCh := { State.reset.chip.printCh with
        motion := .decelerating, mode := .down, run := some ⟨8000, 4, 2000, 3⟩, k := 2, cause := some .abort }
      head := { State.reset.chip.head with
        route := some 0, copy := some { copies := 1, period := 8000, density := 16 }, latch := some ⟨0, 0, false⟩ } } }

/-- Refutes O25: behind a step of the run-down that is no line start, the empty route that the head serves closes, and with its release of PRINT
the latch is empty; the statement keeps the latch in every state. -/
theorem not_abortClosesTheRoute : ¬ Obligations.AbortClosesTheRoute := by
  unfold Obligations.AbortClosesTheRoute
  rintro ⟨-, hstep, -⟩
  obtain ⟨t, ht, -, -, -, hlatch, -⟩ := hstep ⟨1, [⟨0, 0, false⟩]⟩ ⟨8000, 4, 2000, 3⟩ { copies := 1, period := 8000, density := 16 } false 0
    strayRunOut rfl rfl rfl rfl rfl rfl rfl
  have hchip : t.chip = printStep 0 strayRunOut.chip := by
    injection ht with hs
    rw [← hs]
    rfl
  have hlost : (printStep 0 strayRunOut.chip).head.latch = none := by decide +kernel
  have hkept := (hlatch (by decide) (by decide)).2
  rw [hchip, hlost] at hkept
  cases hkept

end Sys2Proof.Proofs
end

section
/-!
PROOFS. The phases of an erase (06_page_store.md R121 to R124).
-/

-- One declaration after another: the package as one text keeps within the check's limit on threads.
set_option Elab.async false

namespace Sys2Proof.Proofs

open Sys2Proof Sys2Proof.Machine

/-! ## The commands -/

theorem exec_eraseStart (s : State) : exec .eraseStart s = .next (s.onChip eraseStartChip) := rfl

theorem exec_erasePulseEnd (s : State) : exec .erasePulseEnd s = .next (s.onChip pulseEndChip) := rfl

theorem exec_eraseMinPulseEnd (s : State) : exec .eraseMinPulseEnd s = .next (s.onChip minPulseChip) := rfl

theorem exec_eraseVerifyEnd (pass : Bool) (s : State) : exec (.eraseVerifyEnd pass) s = .next (verifyEnd pass s) := rfl

theorem exec_countProgramEnd (r : ProgResult) (s : State) : exec (.countProgramEnd r) s = .next (countEnd r s) := rfl

theorem exec_badStateProgramEnd (r : ProgResult) (s : State) : exec (.badStateProgramEnd r) s = .next (badEnd r s) := rfl

/-! ## The flash while an erase has it (R109, R123) -/

/-- An erase at work is left at work: nothing resumes it. -/
theorem resumeErase_working {e : EraseProg} {c : Chip} (h : c.store.erase = some e) (hphase : e.phase = .pulse ∨ e.phase = .verify) :
    resumeErase c = c := by
  unfold resumeErase
  rw [h]
  rcases hphase with k | k <;> simp [k]

/-- While nothing waits for the flash, a grant leaves an erase at work. -/
theorem grant_working {e : EraseProg} {c : Chip} (h : c.store.erase = some e) (hphase : e.phase = .pulse ∨ e.phase = .verify)
    (hwanted : flashWanted c = false) : grant c = c := by
  have hresume := resumeErase_working h hphase
  simp only [flashWanted, Bool.or_eq_false_iff, decide_eq_false_iff_not, Bool.and_eq_false_iff, Bool.not_eq_false'] at hwanted
  obtain ⟨hlock, hidle⟩ := hwanted
  unfold grant
  split
  · rfl
  · split
    next hop =>
      split
      · rfl
      · have hempty := hidle.resolve_left fun k => k hop
        rw [Bool.and_eq_true, List.isEmpty_iff, List.isEmpty_iff] at hempty
        rw [hempty.1, hempty.2]
        exact hresume
    next hop => exact absurd hop hlock
    · exact hresume
    · rfl

theorem flashWanted_setErase (e : Option EraseProg) (c : Chip) : flashWanted (setErase e c) = flashWanted c := rfl

theorem setErase_store (e : Option EraseProg) (c : Chip) : (setErase e c).store = { c.store with erase := e } := rfl

/-- A grant to the read that waits first, where the erase can be suspended. -/
theorem grant_read {c d : Chip} {j : Job} {rest : List Job} (hop : c.store.op = .none) (hholder : c.store.holder = none)
    (husable : c.store.usable = true) (hscanned : c.store.scanned = true) (hreads : c.store.reads = j :: rest)
    (hsuspend : suspendErase c = some d) : grant c = { d with store := { d.store with holder := some j, reads := rest } } := by
  unfold grant
  rw [hholder, husable, if_neg (by simp), hop]
  dsimp only
  rw [hscanned, if_neg (by simp), hreads]
  dsimp only
  rw [hsuspend]

/-- A free flash that nothing waits for is granted to the erase. -/
theorem grant_erase {c : Chip} (hop : c.store.op = .none) (hholder : c.store.holder = none) (husable : c.store.usable = true)
    (hscanned : c.store.scanned = true) (hreads : c.store.reads = []) (hprograms : c.store.programs = []) : grant c = resumeErase c := by
  unfold grant
  rw [hholder, husable, if_neg (by simp), hop]
  dsimp only
  rw [hscanned, if_neg (by simp), hreads, hprograms]

/-- A grant leaves a queued erase queued, or starts it. -/
theorem grant_queued {e : EraseProg} {c : Chip} (h : c.store.erase = some e) (hphase : e.phase = .queued) :
    (grant c).store.erase = some e ∨ (grant c).store.erase = some { e with phase := .pulse, pulseRun := 0 } := by
  have hresume : (resumeErase c).store.erase = some { e with phase := .pulse, pulseRun := 0 } := by
    unfold resumeErase
    rw [h]
    dsimp only
    rw [hphase]
    rfl
  have hsuspend : suspendErase c = some c := by
    unfold suspendErase
    rw [h]
    dsimp only
    rw [hphase]
  unfold grant
  split
  · exact .inl h
  · split
    · split
      · exact .inl h
      · split
        · rw [hsuspend]
          exact .inl h
        · rw [hsuspend]
          exact .inl h
        · exact .inr hresume
    · rw [hsuspend]
      exact .inl h
    · exact .inr hresume
    · exact .inl h

/-! ## The start (R121) -/

/-- The tables at the start of an erase, before the flash is granted. -/
def eraseBegun (b : Nat) (c : Chip) : Chip :=
  setErase (some ⟨b, 0, 0, .queued, 0, 0⟩)
    (setBlockState b .erasing { c with store := { c.store with eraseQueue := c.store.eraseQueue.filter (· ≠ b) } })

theorem eraseStartChip_starts {b : Nat} {c : Chip} (herase : c.store.erase = none) (hstate : c.power.state = .run) (hop : c.store.op = .none)
    (hfind : c.store.eraseQueue.find? (eligible c) = some b) : eraseStartChip c = grant (eraseBegun b c) := by
  unfold eraseStartChip
  rw [herase, hstate, hop, if_pos (by simp), hfind]
  rfl

theorem eraseBegun_store (b : Nat) (c : Chip) : (eraseBegun b c).store = { c.store with
    blocks := (setBlockState b .erasing c).store.blocks, eraseQueue := c.store.eraseQueue.filter (· ≠ b)
    erase := some ⟨b, 0, 0, .queued, 0, 0⟩ } := rfl

theorem blockAt_eraseBegun (b n : Nat) (c : Chip) : blockAt (grant (eraseBegun b c)) n =
    if n = b ∧ b < c.store.blocks.length then Block.leaving .erasing (blockAt c b) else blockAt c n := by
  have hblocks : (grant (eraseBegun b c)).store.blocks = (setBlockState b .erasing c).store.blocks := by simp [eraseBegun_store]
  rw [blockAt_congr hblocks, blockAt_setBlockState (st := .erasing) ⟨nofun, nofun⟩]

/-- The erase that a start leaves queued, or at work at once where the flash is free. -/
theorem eraseBegun_erase (b : Nat) (c : Chip) : ∃ e, (grant (eraseBegun b c)).store.erase = some e ∧ e.block = b ∧ e.applied = 0 ∧
    (c.store.op = .none → c.store.holder = none → c.store.reads = [] → c.store.programs = [] → c.store.usable = true →
      c.store.scanned = true → e.phase = .pulse) := by
  have hresumed (hop : c.store.op = .none) (hholder : c.store.holder = none) (hreads : c.store.reads = []) (hprograms : c.store.programs = [])
      (husable : c.store.usable = true) (hscanned : c.store.scanned = true) :
      (grant (eraseBegun b c)).store.erase = some ⟨b, 0, 0, .pulse, 0, 0⟩ := by
    rw [grant_erase (by exact hop) (by exact hholder) (by exact husable) (by exact hscanned) (by exact hreads) (by exact hprograms)]
    rfl
  rcases grant_queued (c := eraseBegun b c) (e := ⟨b, 0, 0, .queued, 0, 0⟩) rfl rfl with h | h
  · refine ⟨_, h, rfl, rfl, fun hop hholder hreads hprograms husable hscanned => ?_⟩
    rw [hresumed hop hholder hreads hprograms husable hscanned] at h
    exact absurd h nofun
  · exact ⟨_, h, rfl, rfl, fun _ _ _ _ _ _ => rfl⟩

/-! ## The pulse and its verify (R122, R123) -/

section
variable {e : EraseProg} {s : State}

theorem pulseEnd_full (h : s.chip.store.erase = some e) (hphase : e.phase = .pulse) (hwanted : flashWanted s.chip = false) :
    pulseEndChip s.chip = setErase (some { e.pulsed (Config.eraseUnit - e.unit) with phase := .verify, verifyLeft := Config.verifyTime }) s.chip := by
  unfold pulseEndChip
  rw [h]
  dsimp only
  rw [if_pos hphase]
  exact grant_working rfl (.inr rfl) hwanted

theorem verifyEnd_again (h : s.chip.store.erase = some e) (hphase : e.phase = .verify) (hlimit : e.applied < Config.eraseLimit)
    (hwanted : flashWanted s.chip = false) : verifyEnd false s =
      s.withChip (setErase (some { e with phase := .pulse, unit := 0, pulseRun := 0, verifyLeft := 0 }) s.chip) := by
  unfold verifyEnd
  rw [h]
  dsimp only
  rw [if_pos hphase, if_neg Bool.false_ne_true, if_pos hlimit]
  exact onChip_eq_withChip (grant_working (c := setErase (some { e with phase := .pulse, unit := 0, pulseRun := 0, verifyLeft := 0 }) s.chip)
    rfl (.inl rfl) hwanted)

theorem verifyEnd_limit (h : s.chip.store.erase = some e) (hphase : e.phase = .verify) (hlimit : Config.eraseLimit ≤ e.applied) :
    verifyEnd false s = s.withChip (settleAll (eraseFailed e s.chip)) := by
  unfold verifyEnd
  rw [h]
  dsimp only
  rw [if_pos hphase, if_neg Bool.false_ne_true, if_neg (Nat.not_lt.mpr hlimit)]
  exact onChip_eq_withChip rfl

theorem verifyEnd_passed (h : s.chip.store.erase = some e) (hphase : e.phase = .verify) : verifyEnd true s =
    { s with flash := s.flash.eraseBlock e.block, chip := setErase (some { e with phase := .count, verifyLeft := 0 }) s.chip } := by
  unfold verifyEnd
  rw [h]
  dsimp only
  rw [if_pos hphase, if_pos rfl]

theorem minPulse_cut {j : Job} {rest : List Job} (h : s.chip.store.erase = some e) (hphase : e.phase = .pulse) (hop : s.chip.store.op = .none)
    (hholder : s.chip.store.holder = none) (hreads : s.chip.store.reads = j :: rest) (husable : s.chip.store.usable = true)
    (hscanned : s.chip.store.scanned = true) (hunit : e.unit + (Config.eraseMinPulse - e.pulseRun) ≤ Config.eraseUnit) :
    let t := minPulseChip s.chip
    t.store.holder = some j ∧ t.store.reads = rest ∧
      t.store.erase = some { e.pulsed (Config.eraseMinPulse - e.pulseRun) with phase := .suspended false } := by
  have hwanted : flashWanted s.chip = true := by simp [flashWanted, hop, hreads]
  have hsuspend : suspendErase (setErase (some (e.pulsed (Config.eraseMinPulse - e.pulseRun))) s.chip) =
      some (setErase (some { e.pulsed (Config.eraseMinPulse - e.pulseRun) with phase := .suspended false })
        (setErase (some (e.pulsed (Config.eraseMinPulse - e.pulseRun))) s.chip)) := by
    unfold suspendErase
    rw [show (setErase (some (e.pulsed (Config.eraseMinPulse - e.pulseRun))) s.chip).store.erase =
      some (e.pulsed (Config.eraseMinPulse - e.pulseRun)) from rfl]
    dsimp only
    rw [show (e.pulsed (Config.eraseMinPulse - e.pulseRun)).phase = .pulse from hphase]
    dsimp only
    exact if_pos (show Config.eraseMinPulse ≤ e.pulseRun + (Config.eraseMinPulse - e.pulseRun) by omega)
  have hgrant := grant_read (c := setErase (some (e.pulsed (Config.eraseMinPulse - e.pulseRun))) s.chip) hop hholder husable hscanned hreads hsuspend
  have hchip : minPulseChip s.chip = grant (setErase (some (e.pulsed (Config.eraseMinPulse - e.pulseRun))) s.chip) := by
    unfold minPulseChip
    rw [h]
    exact if_pos ⟨hphase, hwanted, hunit⟩
  dsimp only
  rw [hchip, hgrant]
  exact ⟨rfl, rfl, rfl⟩

theorem countEnd_counts (h : s.chip.store.erase = some e) (hphase : e.phase = .count) (r : ProgResult) :
    let out := s.flash.program r (countWrites e.block (countAfter (blockAt s.chip e.block).count))
    countEnd r s = { s with flash := out.1, chip := countDone e out.2 s.chip } := by
  unfold countEnd
  rw [h]
  exact if_pos hphase

theorem badEnd_bad (h : s.chip.store.erase = some e) (hphase : e.phase = .bad) (r : ProgResult) :
    let out := s.flash.program r (badWrites e.block)
    badEnd r s = { s with flash := if out.2 then out.1.untear e.block else out.1.tear e.block, chip := eraseOver e.block true s.chip } := by
  unfold badEnd
  rw [h]
  exact if_pos hphase

end

theorem mem_torn_tear (f : Flash) (b : Nat) : b ∈ (f.tear b).torn := by
  unfold Flash.tear
  split
  next h => exact h
  · exact List.mem_cons_self

theorem tear_mem (f : Flash) (b : Nat) : (f.tear b).mem = f.mem := by
  unfold Flash.tear
  split <;> rfl

/-! ## The end of an erase (R124) -/

theorem blockAt_totalNext_before {n done : Nat} (h : n < done) (c : Chip) : blockAt (totalNext done c) n = blockAt c n := by
  rcases totalNext_cases done c with ⟨b, phase, hdone, -, hnext⟩ | hnext
  · have hblock : blockAt (totalNext done c) n = blockAt (setBlockState b .erasing c) n := by
      rw [hnext]
      rfl
    rw [hblock, blockAt_setBlockState (st := .erasing) ⟨nofun, nofun⟩, if_neg (by rintro ⟨rfl, -⟩; omega)]
  · exact blockAt_congr (by rw [hnext]) n

/-- The tables after a count program, before what follows at the end of the erase. -/
def counted (e : EraseProg) (ok : Bool) (c : Chip) : Chip :=
  let c := modBlock e.block (fun x => { x with count := countAfter x.count }) c
  if ok then
    let c := setBlockState e.block .erased c
    if c.store.op = .totalBlocks then c else joinErased e.block c
  else
    let c := setBlockState e.block .damaged c
    programFailed e.block (if c.store.op = .totalBlocks then c else joinEraseQueue e.block c)

theorem countDone_eq (e : EraseProg) (ok : Bool) (c : Chip) : countDone e ok c = eraseOver e.block (!ok) (counted e ok c) := rfl

/-- The block of an erase that has ended, with one erase more. -/
def Block.erasedOnce (ok : Bool) (x : Block) : Block := Block.leaving (if ok then .erased else .damaged) { x with count := countAfter x.count }

theorem blockAt_countedState {e : EraseProg} {c : Chip} (hb : e.block < c.store.blocks.length) (ok : Bool) (n : Nat) :
    blockAt (setBlockState e.block (if ok then .erased else .damaged) (modBlock e.block (fun x => { x with count := countAfter x.count }) c)) n =
      if n = e.block then Block.erasedOnce ok (blockAt c e.block) else blockAt c n := by
  rw [blockAt_setBlockState (by cases ok <;> exact ⟨nofun, nofun⟩), modBlock_length, blockAt_modBlock_self hb]
  by_cases hn : n = e.block
  · rw [if_pos ⟨hn, hb⟩, if_pos hn]
    rfl
  · rw [if_neg fun k => hn k.1, if_neg hn, blockAt_modBlock_ne hn]

theorem blockAt_counted {e : EraseProg} {c : Chip} (hb : e.block < c.store.blocks.length) (ok : Bool) (n : Nat) :
    blockAt (counted e ok c) n = if n = e.block then Block.erasedOnce ok (blockAt c e.block) else blockAt c n := by
  rw [← blockAt_countedState hb ok]
  unfold counted
  cases ok with
  | true =>
    dsimp only
    rw [if_pos rfl, if_pos rfl]
    split
    · rfl
    · exact blockAt_joinErased _ _ _
  | false =>
    dsimp only
    rw [if_neg Bool.false_ne_true, if_neg Bool.false_ne_true, blockAt_programFailed]
    split
    · rfl
    · exact blockAt_joinEraseQueue _ _ _

theorem counted_op (e : EraseProg) (ok : Bool) (c : Chip) : (counted e ok c).store.op = c.store.op := by
  unfold counted
  cases ok with
  | true =>
    dsimp only
    rw [if_pos rfl]
    split
    · rfl
    · obtain ⟨_, h⟩ := joinErased_eq e.block (setBlockState e.block .erased (modBlock e.block (fun x => { x with count := countAfter x.count }) c))
      rw [h]
      rfl
  | false =>
    dsimp only
    rw [if_neg Bool.false_ne_true, programFailed_store]
    dsimp only
    split
    · rfl
    · rw [joinEraseQueue_store]
      rfl

/-- In a TOTAL ERASE the next block follows, and the erased one stands. -/
theorem blockAt_countDone_total {e : EraseProg} {c : Chip} (hb : e.block < c.store.blocks.length) (hop : c.store.op = .totalBlocks) (ok : Bool) :
    blockAt (countDone e ok c) e.block = Block.erasedOnce ok (blockAt c e.block) := by
  have hcounted := blockAt_counted hb ok e.block
  rw [if_pos rfl] at hcounted
  rw [countDone_eq, eraseOver]
  dsimp only
  rw [if_pos (show (setErase none (counted e ok c)).store.op = .totalBlocks from (counted_op e ok c).trans hop), blockAt_totalNext_before (Nat.lt_succ_self _)]
  exact hcounted

theorem countDone_background {e : EraseProg} {c : Chip} (hop : c.store.op ≠ .totalBlocks) (ok : Bool) :
    countDone e ok c = grant (settleAll (retryClaim (setErase none (counted e ok c)))) := by
  rw [countDone_eq, eraseOver]
  exact if_neg fun k => hop ((counted_op e ok c).symm.trans k)

/-- The place of a block on the erased-block list: behind those it does not come before, in front of one that it does. -/
theorem insertErased_split (c : Chip) (b : Nat) (xs : List Nat) : ∃ before rest, xs = before ++ rest ∧
    insertErased c b xs = before ++ b :: rest ∧ (∀ n ∈ before, erasedBefore c b n = false) ∧
    ∀ n more, rest = n :: more → erasedBefore c b n = true := by
  induction xs with
  | nil => exact ⟨[], [], rfl, rfl, nofun, nofun⟩
  | cons x xs ih =>
    by_cases hx : erasedBefore c b x = true
    · refine ⟨[], x :: xs, rfl, if_pos hx, nofun, fun n more h => ?_⟩
      cases h
      exact hx
    · obtain ⟨before, rest, hxs, hins, hbefore, hrest⟩ := ih
      refine ⟨x :: before, rest, by rw [hxs]; rfl, ?_, fun n hn => ?_, hrest⟩
      · rw [insertErased, if_neg hx, hins]
        rfl
      · rcases List.mem_cons.mp hn with rfl | hin
        · exact Bool.eq_false_iff.mpr hx
        · exact hbefore n hin

/-- The tables after a count program that passed, in the background. -/
theorem counted_passed {e : EraseProg} {c : Chip} (hop : c.store.op ≠ .totalBlocks) : counted e true c =
    joinErased e.block (setBlockState e.block .erased (modBlock e.block (fun x => { x with count := countAfter x.count }) c)) := by
  unfold counted
  dsimp only
  rw [if_pos rfl]
  exact if_neg hop

theorem counted_failed {e : EraseProg} {c : Chip} (hop : c.store.op ≠ .totalBlocks) : counted e false c = programFailed e.block
    (joinEraseQueue e.block (setBlockState e.block .damaged (modBlock e.block (fun x => { x with count := countAfter x.count }) c))) := by
  unfold counted
  dsimp only
  rw [if_neg Bool.false_ne_true]
  exact congrArg _ (if_neg hop)

/-- The lists after a count program that passed (R106, R124). -/
theorem counted_lists {e : EraseProg} {c : Chip} (hb : e.block < c.store.blocks.length) (hop : c.store.op ≠ .totalBlocks) :
    (counted e true c).store.eraseQueue = c.store.eraseQueue ∧
    ((blockAt c e.block).lock = true → (counted e true c).store.erasedList = c.store.erasedList) ∧
    ((blockAt c e.block).lock = false → e.block ∉ c.store.erasedList →
      (counted e true c).store.erasedList = insertErased
        (setBlockState e.block .erased (modBlock e.block (fun x => { x with count := countAfter x.count }) c)) e.block c.store.erasedList) := by
  have hself := blockAt_countedState hb true e.block
  rw [if_pos rfl, if_pos rfl] at hself
  rw [counted_passed hop]
  generalize hd : setBlockState e.block .erased (modBlock e.block (fun x => { x with count := countAfter x.count }) c) = d at hself ⊢
  have hlists : d.store.erasedList = c.store.erasedList ∧ d.store.eraseQueue = c.store.eraseQueue := by
    rw [← hd]
    exact ⟨rfl, rfl⟩
  obtain ⟨herased, hqueue⟩ := hlists
  refine ⟨?_, fun hlock => ?_, fun hlock hnew => ?_⟩
  · obtain ⟨_, h⟩ := joinErased_eq e.block d
    rw [h]
    exact hqueue
  · unfold joinErased
    rw [hself, if_neg fun k => absurd (hlock.symm.trans k.2.1) (by decide)]
    exact herased
  · unfold joinErased
    rw [hself, if_pos ⟨rfl, hlock, by rw [herased]; exact hnew⟩, herased]

theorem eraseFailed_tables {e : EraseProg} {c : Chip} (hb : e.block < c.store.blocks.length) :
    (blockAt (eraseFailed e c) e.block).state = .bad ∧ (eraseFailed e c).store.eraseFault = true ∧
    (∀ n, n ≠ e.block → blockAt (eraseFailed e c) n = blockAt c n) := by
  have hstore : (eraseFailed e c).store = { (setBlockState e.block .bad (setErase (some { e with phase := .bad, verifyLeft := 0 }) c)).store with
      eraseFault := true } := by
    unfold eraseFailed
    dsimp only
    simp
  have hblock (n : Nat) : blockAt (eraseFailed e c) n = if n = e.block then Block.leaving .bad (blockAt c e.block) else blockAt c n := by
    have hset := blockAt_setBlockState (st := .bad) ⟨nofun, nofun⟩ e.block n (setErase (some { e with phase := .bad, verifyLeft := 0 }) c)
    rw [blockAt_congr (c := setBlockState e.block .bad (setErase (some { e with phase := .bad, verifyLeft := 0 }) c)) (by rw [hstore]), hset]
    by_cases hn : n = e.block
    · rw [if_pos ⟨hn, hb⟩, if_pos hn]
      rfl
    · rw [if_neg fun k => hn k.1, if_neg hn]
      rfl
  refine ⟨?_, ?_, fun n hn => ?_⟩
  · rw [hblock, if_pos rfl]
    rfl
  · rw [hstore]
  · rw [hblock, if_neg hn]

/-- What a background erase leaves at its end, before what follows at once (R124). -/
theorem counted_tables {e : EraseProg} {c : Chip} (hb : e.block < c.store.blocks.length) (hop : c.store.op ≠ .totalBlocks) (ok : Bool) :
    let m := setErase none (counted e ok c)
    m.store.erase = none ∧ (blockAt m e.block).state = (if ok then .erased else .damaged) ∧
      (blockAt m e.block).count = min 16777215 ((blockAt c e.block).count + 1) ∧ (∀ n, n ≠ e.block → blockAt m n = blockAt c n) ∧
      (ok = true → m.store.eraseQueue = c.store.eraseQueue ∧
        ((blockAt c e.block).lock = true → m.store.erasedList = c.store.erasedList) ∧
        ((blockAt c e.block).lock = false → e.block ∉ c.store.erasedList →
          let after := fun n => (blockAt m e.block).count < (blockAt c n).count ∨
            ((blockAt m e.block).count = (blockAt c n).count ∧ e.block < n)
          ∃ before rest, c.store.erasedList = before ++ rest ∧ m.store.erasedList = before ++ e.block :: rest ∧
            (∀ n ∈ before, ¬after n) ∧ (∀ n more, rest = n :: more → after n))) ∧
      (ok = false → m.store.erasedList = c.store.erasedList ∧ m.store.programFault = true ∧
        (e.block ∉ c.store.eraseQueue → m.store.eraseQueue = c.store.eraseQueue ++ [e.block])) := by
  have hblock (n : Nat) : blockAt (setErase none (counted e ok c)) n =
      if n = e.block then Block.erasedOnce ok (blockAt c e.block) else blockAt c n := blockAt_counted hb ok n
  dsimp only
  refine ⟨rfl, ?_, ?_, fun n hn => ?_, fun hok => ?_, fun hok => ?_⟩
  · rw [hblock, if_pos rfl]
    rfl
  · rw [hblock, if_pos rfl]
    rfl
  · rw [hblock, if_neg hn]
  · subst hok
    obtain ⟨hqueue, hlocked, hinserted⟩ := counted_lists hb hop
    refine ⟨hqueue, hlocked, fun hlock hnew => ?_⟩
    generalize hd : setBlockState e.block .erased (modBlock e.block (fun x => { x with count := countAfter x.count }) c) = d at hinserted
    obtain ⟨before, rest, hxs, hins, hbefore, hrest⟩ := insertErased_split d e.block c.store.erasedList
    have hsame (n : Nat) : blockAt d n = if n = e.block then Block.erasedOnce true (blockAt c e.block) else blockAt c n := by
      rw [← hd]
      exact blockAt_countedState hb true n
    have hafter {n : Nat} (hn : n ∈ c.store.erasedList) : erasedBefore d e.block n = true ↔
        (blockAt (setErase none (counted e true c)) e.block).count < (blockAt c n).count ∨
          ((blockAt (setErase none (counted e true c)) e.block).count = (blockAt c n).count ∧ e.block < n) := by
      rw [erasedBefore, decide_eq_true_iff, hblock, hsame, hsame, if_neg fun k : n = e.block => hnew (k ▸ hn)]
    refine ⟨before, rest, hxs, (hinserted hlock hnew).trans hins, fun n hn k => ?_, fun n more hmore => ?_⟩
    · have hin : n ∈ c.store.erasedList := hxs ▸ List.mem_append_left _ hn
      rw [← hafter hin, hbefore n hn] at k
      cases k
    · have hin : n ∈ c.store.erasedList := hxs ▸ List.mem_append_right _ (hmore ▸ List.mem_cons_self)
      exact (hafter hin).mp (hrest n more hmore)
  · subst hok
    have hstore : (setErase none (counted e false c)).store = { (counted e false c).store with erase := none } := rfl
    rw [hstore, counted_failed hop, programFailed_store, joinEraseQueue_store]
    exact ⟨rfl, rfl, fun hnew => if_neg hnew⟩

theorem hasToErase_iff (c : Chip) : hasToErase c = true ↔ c.store.erase.isSome = true ∨
    (∃ b ∈ c.store.eraseQueue, (blockAt c b).lock = false ∨ c.prot.service = .service) ∨
    ∃ b why, ((blockAt c b).lock = false ∨ c.prot.service = .service) ∧
      (c.store.holder = some (.retire b why) ∨ Job.retire b why ∈ c.store.programs) := by
  have heligible (b : Nat) : eligible c b = true ↔ (blockAt c b).lock = false ∨ c.prot.service = .service := by
    simp [eligible, serviceHeld]
  have hretire (j : Job) : retireToCome c j = true ↔ ∃ b why, j = .retire b why ∧ ((blockAt c b).lock = false ∨ c.prot.service = .service) := by
    rw [show (∃ b why, j = .retire b why ∧ ((blockAt c b).lock = false ∨ c.prot.service = .service)) ↔
      ∃ b why, j = .retire b why ∧ eligible c b = true by simp only [heligible]]
    cases j <;> simp [retireToCome]
  have hholder : (match c.store.holder with | some j => retireToCome c j | none => false) = true ↔
      ∃ j, c.store.holder = some j ∧ retireToCome c j = true := by
    cases c.store.holder <;> simp
  have hparts : hasToErase c = true ↔ c.store.erase.isSome = true ∨ (∃ b ∈ c.store.eraseQueue, eligible c b = true) ∨
      (∃ j ∈ c.store.programs, retireToCome c j = true) ∨ ∃ j, c.store.holder = some j ∧ retireToCome c j = true := by
    unfold hasToErase
    rw [Bool.or_eq_true, Bool.or_eq_true, Bool.or_eq_true, List.any_eq_true, List.any_eq_true, or_assoc, or_assoc]
    exact or_congr_right (or_congr_right (or_congr_right hholder))
  rw [hparts]
  simp only [heligible, hretire]
  refine or_congr_right (or_congr_right ?_)
  constructor
  · rintro (⟨j, hj, b, why, rfl, hfree⟩ | ⟨j, hj, b, why, rfl, hfree⟩)
    · exact ⟨b, why, hfree, .inr hj⟩
    · exact ⟨b, why, hfree, .inl hj⟩
  · rintro ⟨b, why, hfree, hj | hj⟩
    · exact .inr ⟨_, hj, b, why, rfl, hfree⟩
    · exact .inl ⟨_, hj, b, why, rfl, hfree⟩

end Sys2Proof.Proofs
end

section
/-!
PROOFS. Claims that wait and STORE FULL (06_page_store.md R111, R115, R116), and the end of a background erase put together (R121 to R124).
-/

-- One declaration after another: the package as one text keeps within the check's limit on threads.
set_option Elab.async false

namespace Sys2Proof.Proofs

open Sys2Proof Sys2Proof.Machine

/-! ## Claims (R111, R115) -/

section
variable {r id : Nat} {x : Ctx} {w : Work} {pg : Page} {c : Chip}

theorem pageOf_id (h : pageOf c id = some pg) : pg.id = id := by
  have hfound := List.find?_some h
  simpa using hfound

theorem tryClaim_length (hw : c.store.work = some w) (hpage : w.page = some id) (hpg : pageOf c id = some pg) (hreloc : c.store.reloc = none)
    (hfull : 63 ≤ pg.blocks.length) : tryClaim r c = meetFull r .pageLength c := by
  unfold tryClaim
  have hbind : w.page.bind (pageOf c) = some pg := by rw [hpage]; exact hpg
  rw [hw]
  dsimp only
  rw [hbind]
  dsimp only
  rw [hreloc]
  exact if_pos (by simp [Config.pageBlocks, hfull])

/-- The claim granted: the entry in work needs no block any more, and STORE WAIT is over. -/
def claimTaken (r : Nat) (w : Work) (c : Chip) : Chip := dropStall r .storeWait (setWork (some { w with needBlock := false }) c)

/-- The claim waits. -/
def claimWaiting (r : Nat) (w : Work) (c : Chip) : Chip := setWork (some { w with needBlock := true }) (addStall r .storeWait c)

theorem tryClaim_within (hw : c.store.work = some w) (hpage : w.page = some id) (hpg : pageOf c id = some pg) (hreloc : c.store.reloc = none)
    (hroom : pg.blocks.length < 63) : tryClaim r c = match claimBlock pg.id pg.blocks.length false c with
      | some (b, d) => match (claimTaken r w d).store.reloc with
          | some x => { claimTaken r w d with store := { (claimTaken r w d).store with reloc := some { x with target := some b } } }
          | none => askProgram .entry (claimTaken r w d)
      | none => if hasToErase c then
            if (match ctxOf c r with | some x => decide (Stall.storeWait ∈ x.stalls) | none => true) then claimWaiting r w c
            else queueEvent (.storeWait r) (claimWaiting r w c)
          else meetFull r .blocks c := by
  unfold tryClaim
  have hbind : w.page.bind (pageOf c) = some pg := by rw [hpage]; exact hpg
  rw [hw]
  dsimp only
  rw [hbind]
  dsimp only
  rw [hreloc]
  rw [if_neg (by simp [Config.pageBlocks, Nat.not_le.2 hroom])]
  simp only [Option.isSome_none]
  cases claimBlock pg.id pg.blocks.length false c with
  | none => rfl
  | some out => obtain ⟨b, d⟩ := out; rfl

theorem claimBlock_empty (h : c.store.erasedList = []) (seq : Nat) (reloc : Bool) : claimBlock id seq reloc c = none := by
  unfold claimBlock; rw [h]

theorem tryClaim_full (hw : c.store.work = some w) (hpage : w.page = some id) (hpg : pageOf c id = some pg) (hreloc : c.store.reloc = none)
    (hroom : pg.blocks.length < 63) (hlist : c.store.erasedList = []) (herase : hasToErase c = false) : tryClaim r c = meetFull r .blocks c := by
  rw [tryClaim_within hw hpage hpg hreloc hroom, claimBlock_empty hlist]
  simp [herase]

theorem tryClaim_waits (hw : c.store.work = some w) (hpage : w.page = some id) (hpg : pageOf c id = some pg) (hreloc : c.store.reloc = none)
    (hroom : pg.blocks.length < 63) (hlist : c.store.erasedList = []) (herase : hasToErase c = true) (h : ctxOf c r = some x) :
    tryClaim r c = if Stall.storeWait ∈ x.stalls then claimWaiting r w c else queueEvent (.storeWait r) (claimWaiting r w c) := by
  rw [tryClaim_within hw hpage hpg hreloc hroom, claimBlock_empty hlist]
  simp [herase, h]

end

/-! ### A claim that waits -/

section
variable {r id : Nat} {x : Ctx} {w : Work} {pg : Page} {c : Chip}

theorem ctxOf_claimWaiting (h : ctxOf c r = some x) : ctxOf (claimWaiting r w c) r =
    some { x with stalls := if Stall.storeWait ∈ x.stalls then x.stalls else x.stalls ++ [.storeWait] } := by
  refine (ctxOf_modCtx_self r _ c).trans ?_
  rw [h, Option.map_some]
  split <;> rfl

theorem claimWaiting_frame (r : Nat) (w : Work) (c : Chip) : (claimWaiting r w c).store = { c.store with work := some { w with needBlock := true } } ∧
    (claimWaiting r w c).pool = c.pool ∧ (claimWaiting r w c).link = c.link := by
  unfold claimWaiting setWork addStall
  simp

/-- A claim that waits: STORE WAIT stands among the stall conditions, told where it did not. -/
theorem tryClaim_waiting (h : ctxOf c r = some x) (hw : c.store.work = some w) (hpage : w.page = some id) (hpg : pageOf c id = some pg)
    (hreloc : c.store.reloc = none) (hroom : pg.blocks.length < 63) (hlist : c.store.erasedList = []) (herase : hasToErase c = true) :
    ctxOf (tryClaim r c) r = some { x with stalls := if Stall.storeWait ∈ x.stalls then x.stalls else x.stalls ++ [.storeWait] } ∧
      (tryClaim r c).store = { c.store with work := some { w with needBlock := true } } ∧ (tryClaim r c).pool = c.pool ∧
      (Stall.storeWait ∈ x.stalls → (tryClaim r c).link = c.link) ∧
      (Stall.storeWait ∉ x.stalls → 256 ≤ freeBytes c → (tryClaim r c).link.reports = c.link.reports ++ [.event (.storeWait r)]) := by
  obtain ⟨hstore, hpool, hlink⟩ := claimWaiting_frame r w c
  rw [tryClaim_waits hw hpage hpg hreloc hroom hlist herase h]
  split
  case isTrue hin => exact ⟨by simpa [hin] using ctxOf_claimWaiting (w := w) h, hstore, hpool, fun _ => hlink, fun hout => absurd hin hout⟩
  case isFalse hout =>
    refine ⟨by simpa [hout] using ctxOf_claimWaiting (w := w) h, ?_, ?_, fun hin => absurd hin hout,
      fun _ hfree => (queueEvent_link_of hlink _).1 hfree⟩
    · simpa using hstore
    · simpa using hpool

end

/-! ### A claim that is granted -/

section
variable {r id b : Nat} {more : List Nat} {x : Ctx} {w : Work} {pg : Page} {c : Chip}

/-- The tables as a claim for the page's next block leaves them, before its program is asked for. -/
def claimTables (b : Nat) (more : List Nat) (id seq : Nat) (c : Chip) : Chip :=
  modPage id (fun p => { p with blocks := p.blocks ++ [b] })
    (modBlock b (fun x => { x with state := .claimed, page := some id, seq := seq, committed := 0, used := 0 })
      { c with store := { c.store with erasedList := more } })

theorem pageOf_claimTables (b : Nat) (more : List Nat) (id seq : Nat) (c : Chip) :
    pageOf (claimTables b more id seq c) id = (pageOf c id).map fun p => { p with blocks := p.blocks ++ [b] } :=
  pageOf_modPage_self id (f := fun p => { p with blocks := p.blocks ++ [b] }) (fun _ => rfl) _

theorem claimBlock_head (hlist : c.store.erasedList = b :: more) (hpg : pageOf c id = some pg) (seq : Nat) :
    claimBlock id seq false c =
      some (b, askProgram (.claim b false { pg with blocks := pg.blocks ++ [b] }) (claimTables b more id seq c)) := by
  have hpage : pageOf (claimTables b more id seq c) id = some { pg with blocks := pg.blocks ++ [b] } := by
    rw [pageOf_claimTables, hpg, Option.map_some]
  unfold claimBlock
  rw [hlist]
  change some (b, match pageOf (claimTables b more id seq c) id with
    | some pg => askProgram (.claim b false pg) (claimTables b more id seq c) | none => claimTables b more id seq c) = _
  rw [hpage]

theorem claimTaken_frame (r : Nat) (w : Work) (c : Chip) :
    (claimTaken r w c).store = { c.store with work := some { w with needBlock := false } } := by
  unfold claimTaken setWork dropStall
  simp

theorem ctxOf_claimTaken (r : Nat) (w : Work) (c : Chip) :
    ctxOf (claimTaken r w c) r = (ctxOf c r).map fun x => { x with stalls := x.stalls.filter (· ≠ .storeWait) } :=
  ctxOf_modCtx_self r _ _

/-- The part at a granted claim, its program asked for. -/
def claimAsked (b : Nat) (more : List Nat) (id : Nat) (pg : Page) (c : Chip) : Chip :=
  askProgram (.claim b false { pg with blocks := pg.blocks ++ [b] }) (claimTables b more id pg.blocks.length c)

theorem tryClaim_asks (hw : c.store.work = some w) (hpage : w.page = some id) (hpg : pageOf c id = some pg) (hreloc : c.store.reloc = none)
    (hroom : pg.blocks.length < 63) (hlist : c.store.erasedList = b :: more) :
    tryClaim r c = askProgram .entry (claimTaken r w (claimAsked b more id pg c)) := by
  have hnone : (claimTaken r w (claimAsked b more id pg c)).store.reloc = none := by
    rw [claimTaken_frame]
    simpa [claimAsked, claimTables, modPage, modBlock] using hreloc
  rw [tryClaim_within hw hpage hpg hreloc hroom, pageOf_id hpg, claimBlock_head hlist hpg, ← claimAsked]
  dsimp only
  rw [hnone]

theorem ctxOf_claimAsked (b : Nat) (more : List Nat) (id : Nat) (pg : Page) (c : Chip) (r : Nat) :
    ctxOf (claimAsked b more id pg c) r = ctxOf c r := ctxOf_congr (askProgram_frame _ _).2.2.1 r

theorem tryClaim_granted (h : ctxOf c r = some x) (hw : c.store.work = some w) (hpage : w.page = some id) (hpg : pageOf c id = some pg)
    (hreloc : c.store.reloc = none) (hroom : pg.blocks.length < 63) (hlist : c.store.erasedList = b :: more) (hb : b < c.store.blocks.length) :
    (tryClaim r c).store.erasedList = more ∧ (tryClaim r c).store.work = some { w with needBlock := false } ∧
      blockAt (tryClaim r c) b = { blockAt c b with state := .claimed, page := some id, seq := pg.blocks.length, committed := 0, used := 0 } ∧
      pageOf (tryClaim r c) id = some { pg with blocks := pg.blocks ++ [b] } ∧
      ctxOf (tryClaim r c) r = some { x with stalls := x.stalls.filter (· ≠ .storeWait) } := by
  have htaken := tryClaim_asks (r := r) hw hpage hpg hreloc hroom hlist
  have hblocks : (tryClaim r c).store.blocks = (claimTables b more id pg.blocks.length c).store.blocks := by
    rw [htaken]; simp [claimTaken_frame, claimAsked]
  have hdir : (tryClaim r c).store.dir = (claimTables b more id pg.blocks.length c).store.dir := by
    rw [htaken]; simp [claimTaken_frame, claimAsked]
  refine ⟨?_, ?_, ?_, ?_, ?_⟩
  · rw [htaken]; simp [claimTaken_frame, claimAsked, claimTables, modPage, modBlock]
  · rw [htaken]; simp [claimTaken_frame]
  · rw [blockAt_congr hblocks]
    exact blockAt_modBlock_self (c := { c with store := { c.store with erasedList := more } }) hb
      (fun x => { x with state := .claimed, page := some id, seq := pg.blocks.length, committed := 0, used := 0 })
  · rw [pageOf_congr hdir, pageOf_claimTables, hpg, Option.map_some]
  · rw [htaken, ctxOf_congr (askProgram_frame _ _).2.2.1, ctxOf_claimTaken]
    rw [ctxOf_claimAsked, h, Option.map_some]

end

/-! ## The store sink drained after STORE FULL (R116) -/

section
variable {r : Nat} {x : Ctx} {e : LineEntry} {rest : List Entry} {c : Chip}

/-- A line that a sink has finished with, with nothing in the hold: the route but for its credit. -/
theorem ctxOf_dropHead {k : Sink} (h : ctxOf c r = some x) (hq : x.queue k = .line e :: rest) (hhold : x.hold = []) :
    ∃ g, ctxOf (dropHead k r c) r = some { x.setQueue k rest with creditGranted := g } := by
  obtain ⟨g, hg⟩ := ctxOf_dropReference (m := e.slot) ((ctxOf_modCtx_self r (fun x => x.setQueue k rest) c).trans (congrArg (Option.map _) h))
  refine ⟨g, ?_⟩
  rw [dropHead_quiet h hq hhold, ctxOf_modCtx_self, hg, Option.map_some, ← (setQueue_hold x k rest).trans hhold]

theorem drainEntry_line (h : ctxOf c r = some x) (hq : x.storeQ = .line e :: rest) (hhold : x.hold = []) :
    ∃ g, ctxOf (drainEntry r c) r = some { x with storeQ := rest, creditGranted := g } := by
  have hdrain : drainEntry r c = dropHead .store r { c with store := { c.store with lane := none } } := by
    unfold drainEntry
    rw [h]
    dsimp only
    rw [hq]
  rw [hdrain]
  exact ctxOf_dropHead (k := .store) (c := { c with store := { c.store with lane := none } }) h hq hhold

theorem drainEntry_mark {m : Mark} {pid : Option Nat} (h : ctxOf c r = some x) (hfull : x.full = some pid) (hq : x.storeQ = .mark m :: rest)
    (hhold : x.hold = []) : ctxOf (drainEntry r c) r =
      some (leaveMark .store { m with truncated := true, pageId := pid } rest { x with full := some none }) := by
  have hdrain : drainEntry r c = serveMark .store r (fun m => { m with truncated := true, pageId := pid })
      (modCtx r (fun x => { x with full := some none }) c) := by
    unfold drainEntry
    rw [h]
    dsimp only
    rw [hq, hfull]
  have hfilled : ctxOf (modCtx r (fun x => { x with full := some none }) c) r = some { x with full := some none } := by
    rw [ctxOf_modCtx_self, h, Option.map_some]
  rw [hdrain]
  exact ctxOf_serveMark (k := .store) hfilled hq hhold _

end

/-! ## A page that cannot be created (R105, R110, R116) -/

theorem canCreatePage_false {c : Chip} (h : 48 ≤ c.store.dir.length ∨ 4294967295 < c.store.nextCreation) : canCreatePage c = false := by
  refine decide_eq_false ?_
  simp only [Config.dirCap]
  omega

theorem takeEntry_noPage {r : Nat} {x : Ctx} {e : LineEntry} {rest : List Entry} {c : Chip} (h : ctxOf c r = some x)
    (hq : x.storeQ = .line e :: rest) (hpage : x.storePage = none) (hfull : 48 ≤ c.store.dir.length ∨ 4294967295 < c.store.nextCreation) :
    ∃ m, takeEntry r c = meetFull r .directory m ∧ ctxOf m r = some x ∧ m.pool = c.pool ∧ m.store.dir = c.store.dir := by
  unfold takeEntry
  rw [h]
  dsimp only
  rw [hq, hpage]
  dsimp only
  rw [if_neg (by rw [canCreatePage_false (by exact hfull)]; decide)]
  exact ⟨_, rfl, h, rfl, rfl⟩

/-! ## STORE FULL (R116) -/

section
variable {r id b : Nat} {cause : FullCause} {x : Ctx} {pg : Page} {c : Chip}

/-- The page of the truncated close, kept where it holds lines. -/
def keptPage (page : Option Nat) (c : Chip) : Option Nat :=
  match page with
  | some id => match pageOf c id with | some pg => if 0 < pg.lines then some id else none | none => none
  | none => none

/-- STORE FULL told, a relocation given up, the stall over, and the page kept noted. -/
def fullMet (r : Nat) (cause : FullCause) (kept : Option Nat) (c : Chip) : Chip :=
  let told := queueEvent (.storeFull r cause) c
  modCtx r (fun x => { x with full := some kept }) (dropStall r .storeWait { told with store := { told.store with reloc := none } })

/-- The page in writing, closed TRUNCATED where there is one. -/
def pageCut (page : Option Nat) (c : Chip) : Chip :=
  match page with
  | some id => endPage none true none id c
  | none => setWork none c

theorem keptPage_congr {c t : Chip} (h : t.store.dir = c.store.dir) (page : Option Nat) : keptPage page t = keptPage page c := by
  cases page with
  | none => rfl
  | some id => unfold keptPage; dsimp only; rw [pageOf_congr h]

theorem meetFull_eq (h : ctxOf c r = some x) (cause : FullCause) : meetFull r cause c =
    requestClose r (dropHead .store r (pageCut x.storePage (fullMet r cause (keptPage x.storePage c) c))) := by
  let told := queueEvent (.storeFull r cause) c
  let d := dropStall r .storeWait { told with store := { told.store with reloc := none } }
  have hpage : (match ctxOf d r with | some x => x.storePage | none => none) = x.storePage := by
    have hd : ctxOf d r = some { x with stalls := x.stalls.filter (· ≠ .storeWait) } := by
      refine (ctxOf_modCtx_self r _ _).trans ?_
      rw [show ctxOf { told with store := { told.store with reloc := none } } r = some x from (ctxOf_queueEvent _ c r).trans h]
      rfl
    rw [hd]
  have hdir : d.store.dir = c.store.dir := by simp [d, told]
  rw [← keptPage_congr hdir, ← hpage]
  rfl

theorem ctxOf_fullMet (h : ctxOf c r = some x) (cause : FullCause) (kept : Option Nat) :
    ctxOf (fullMet r cause kept c) r = some { x with stalls := x.stalls.filter (· ≠ .storeWait), full := some kept } := by
  unfold fullMet dropStall
  rw [ctxOf_modCtx_self, ctxOf_modCtx_self]
  rw [show ctxOf { queueEvent (.storeFull r cause) c with store := { (queueEvent (.storeFull r cause) c).store with reloc := none } } r = some x
    from (ctxOf_queueEvent _ c r).trans h]
  rfl

theorem fullMet_frame (r : Nat) (cause : FullCause) (kept : Option Nat) (c : Chip) :
    (fullMet r cause kept c).pool = c.pool ∧ (fullMet r cause kept c).store = { c.store with reloc := none } ∧
      (fullMet r cause kept c).linkIn = c.linkIn ∧
      (256 ≤ freeBytes c → (fullMet r cause kept c).link.reports = c.link.reports ++ [.event (.storeFull r cause)]) := by
  refine ⟨?_, ?_, ?_, fun hfree => ?_⟩
  · unfold fullMet; simp
  · unfold fullMet; simp
  · unfold fullMet; simp
  · refine Eq.trans ?_ ((queueEvent_link_of rfl (.storeFull r cause)).1 hfree)
    unfold fullMet
    simp

/-! ### The page closed -/

theorem ctxOf_forgetPage (id : Nat) (c : Chip) (r : Nat) : ctxOf (forgetPage id c) r =
    (ctxOf c r).map fun y => if y.storePage = some id then { y with storePage := none } else y := by
  rw [ctxOf, getRoute_forgetPage, ctxOf]
  cases hx : (getRoute c r).ctx with
  | none => simp [hx]
  | some y => by_cases hy : y.storePage = some id <;> simp [hx, hy]

theorem endPage_lines {route : Option Nat} {cut : Bool} {mark : Option Mark} (hpg : pageOf c id = some pg) (hlines : 0 < pg.lines)
    (hlast : lastBlock pg = some b) : endPage route cut mark id c =
      askProgram (.closePage b cut) (setBlockState b .full (setWork (some ⟨route, some id, .closing mark, false⟩) c)) := by
  unfold endPage
  rw [hpg]
  dsimp only
  rw [hlast, decide_eq_true hlines]

theorem endPage_empty {route : Option Nat} {cut : Bool} {mark : Option Mark} (hpg : pageOf c id = some pg)
    (hnone : pg.lines = 0 ∨ lastBlock pg = none) : endPage route cut mark id c =
      retireBlocks .quiet pg.blocks (removePage id (forgetPage id (setWork none c))) := by
  unfold endPage
  rw [hpg]
  dsimp only
  rcases hnone with h | h
  · rw [h]; rfl
  · rw [h]; split <;> simp_all

theorem endPage_unlisted {route : Option Nat} {cut : Bool} {mark : Option Mark} (hpg : pageOf c id = none) :
    endPage route cut mark id c = forgetPage id (setWork none c) := by
  unfold endPage
  rw [hpg]

end

/-- What the end of a page leaves: pool, link and the lane of the records, and the line read of a STORE source. -/
structure CutLeaves (id : Nat) (c t : Chip) : Prop where
  pool : t.pool = c.pool
  link : t.link = c.link
  linkIn : t.linkIn = c.linkIn
  reading : t.store.reading = c.store.reading
  cursor : t.store.cursor = c.store.cursor
  routes : t.routes = c.routes ∨ t.routes = (forgetPage id c).routes

theorem retireBlocks_leaves {why : RetireFor} {bs : List Nat} {id : Nat} {c d : Chip} (h : CutLeaves id c d) :
    CutLeaves id c (retireBlocks why bs d) := by
  have hblock : ∀ (b : Nat) (u : Chip), CutLeaves id c u → CutLeaves id c (retireBlock why u b) := by
    intro b u hu
    obtain ⟨hpool, hlink, hin, hreading, hcursor, hroutes⟩ := hu
    constructor <;> simp [retireBlock, setBlockState, modBlock, *]
  obtain ⟨retires, hfold⟩ := retireBlocks_fold why bs d
  have hretires : CutLeaves id c { d with store := { d.store with retires := retires } } :=
    ⟨h.pool, h.link, h.linkIn, h.reading, h.cursor, h.routes⟩
  rw [hfold]
  clear hfold
  generalize ({ d with store := { d.store with retires := retires } } : Chip) = u at hretires
  induction bs generalizing u with
  | nil => exact hretires
  | cons b bs ih => exact ih _ (hblock b u hretires)

theorem endPage_leaves (route : Option Nat) (cut : Bool) (mark : Option Mark) (id : Nat) (c : Chip) :
    CutLeaves id c (endPage route cut mark id c) := by
  cases hpg : pageOf c id with
  | none => rw [endPage_unlisted hpg]; exact ⟨rfl, rfl, rfl, rfl, rfl, .inr rfl⟩
  | some pg =>
    by_cases hlines : pg.lines = 0
    · rw [endPage_empty hpg (.inl hlines)]
      exact retireBlocks_leaves ⟨rfl, rfl, rfl, rfl, rfl, .inr rfl⟩
    · cases hlast : lastBlock pg with
      | none =>
        rw [endPage_empty hpg (.inr hlast)]
        exact retireBlocks_leaves ⟨rfl, rfl, rfl, rfl, rfl, .inr rfl⟩
      | some b =>
        rw [endPage_lines hpg (Nat.pos_of_ne_zero hlines) hlast]
        constructor <;> simp [setBlockState, modBlock, setWork]

/-- A route after the page's end: all but its store page. -/
theorem CutLeaves.ctx {id : Nat} {c t : Chip} (h : CutLeaves id c t) (q : Nat) :
    ctxOf t q = ctxOf c q ∨ ∃ y, ctxOf c q = some y ∧ ctxOf t q = some { y with storePage := none } := by
  rcases h.routes with hsame | hforgot
  · exact .inl (ctxOf_congr hsame q)
  · rw [ctxOf_congr hforgot, ctxOf_forgetPage]
    cases ctxOf c q with
    | none => exact .inl rfl
    | some y =>
      rw [Option.map_some]
      split
      · exact .inr ⟨y, rfl, rfl⟩
      · exact .inl rfl

/-! ### The line let go -/

/-- The credit of a route brought up to date: kept, or its quota less its charged count (R19). -/
theorem ctxOf_syncCredit_value {r : Nat} {x : Ctx} {c : Chip} (h : ctxOf c r = some x) :
    ∃ g, ctxOf (syncCredit r c) r = some { x with creditGranted := g } ∧
      (g = x.creditGranted ∨ g = some (x.quota - charged (syncCredit r c) r)) := by
  by_cases hsame : x.source ≠ .link ∨ x.creditGranted = some (x.quota - charged c r)
  · rw [syncCredit_same h hsame]
    exact ⟨_, h, .inl rfl⟩
  · simp only [not_or, Decidable.not_not] at hsame
    rw [syncCredit_new h hsame.1 hsame.2]
    refine ⟨some (x.quota - charged c r), ?_, .inr ?_⟩
    · rw [ctxOf, getRoute_queueCredit, ← ctxOf, ctxOf_modCtx_self, h]
      rfl
    · exact congrArg (fun n => some (x.quota - n)) (charged_congr (by simp) r).symm

theorem ctxOf_dropReference_held {r n refs : Nat} {l : Line} {x : Ctx} {c : Chip} (h : ctxOf c r = some x)
    (hslot : slotAt c n = .held r refs l) : ∃ g, ctxOf (dropReference n c) r = some { x with creditGranted := g } ∧
      (g = x.creditGranted ∨ g = some (x.quota - charged (dropReference n c) r)) := by
  unfold dropReference
  rw [hslot]
  dsimp only
  split
  · rw [returnSlot_charged (by rw [hslot]; rfl)]
    exact ctxOf_syncCredit_value (c := { c with pool := { slots := c.pool.slots.set n .free, freeList := c.pool.freeList ++ [n] } }) h
  · exact ⟨_, (ctxOf_setSlot _ _ _ _).trans h, .inl rfl⟩

/-- A held line that the store sink lets go, with nothing in the hold: its slot and its route. -/
theorem dropHead_held {r refs : Nat} {l : Line} {x : Ctx} {e : LineEntry} {rest : List Entry} {c : Chip} (h : ctxOf c r = some x)
    (hq : x.storeQ = .line e :: rest) (hhold : x.hold = []) (hslot : slotAt c e.slot = .held r refs l) :
    slotAt (dropHead .store r c) e.slot = (if refs ≤ 1 then .free else .held r (refs - 1) l) ∧
      ∃ g, ctxOf (dropHead .store r c) r = some { x with storeQ := rest, creditGranted := g } ∧
        (g = x.creditGranted ∨ g = some (x.quota - charged (dropHead .store r c) r)) := by
  have hset : ctxOf (modCtx r (fun x => x.setQueue .store rest) c) r = some { x with storeQ := rest } :=
    (ctxOf_modCtx_self r _ c).trans (congrArg (Option.map _) h)
  obtain ⟨g, hg, hvalue⟩ := ctxOf_dropReference_held hset (by rw [slotAt_modCtx]; exact hslot)
  rw [dropHead_quiet (k := .store) h hq hhold, slotAt_modCtx, slotAt_dropReference_self (by rw [slotAt_modCtx]; exact hslot)]
  refine ⟨rfl, g, ?_, ?_⟩
  · rw [ctxOf_modCtx_self, hg, Option.map_some, ← hhold]
  · rw [charged_congr (modCtx_frame ..).2.1]
    exact hvalue

/-! ### The reservations, which no cut touches -/

/-- Every route's reservation list is as it was. -/
def SameReservations (c t : Chip) : Prop := ∀ q y, ctxOf t q = some y → ∃ x, ctxOf c q = some x ∧ y.reservations = x.reservations

theorem SameReservations.trans {c d t : Chip} (h : SameReservations c d) (k : SameReservations d t) : SameReservations c t := by
  intro q y hy
  obtain ⟨z, hz, hsame⟩ := k q y hy
  obtain ⟨x, hx, hbefore⟩ := h q z hz
  exact ⟨x, hx, hsame.trans hbefore⟩

theorem SameReservations.of_routes {c t : Chip} (h : t.routes = c.routes) : SameReservations c t :=
  fun q y hy => ⟨y, (ctxOf_congr h q).symm.trans hy, rfl⟩

theorem modCtx_sameReservations (r : Nat) {f : Ctx → Ctx} (hf : ∀ x, (f x).reservations = x.reservations) (c : Chip) :
    SameReservations c (modCtx r f c) := by
  intro q y hy
  rw [ctxOf_modCtx] at hy
  split at hy
  next hq =>
    obtain ⟨x, hx, rfl⟩ := Option.map_eq_some_iff.1 hy
    exact ⟨x, hq ▸ hx, hf x⟩
  · exact ⟨y, hy, rfl⟩

theorem dropReference_sameReservations (n : Nat) (c : Chip) : SameReservations c (dropReference n c) := by
  intro q y hy
  cases hx : ctxOf c q with
  | none =>
    obtain ⟨x, hcontra, -⟩ := (dropReference_onward Onward.rfl n).routes q y hy
    rw [hx] at hcontra
    cases hcontra
  | some x =>
    obtain ⟨g, hg⟩ := ctxOf_dropReference (m := n) hx
    rw [hg] at hy
    cases hy
    exact ⟨x, rfl, rfl⟩

theorem withStore_sameReservations {c t : Chip} (h : SameReservations c t) (st : Store) : SameReservations c { t with store := st } := h

theorem dropStall_sameReservations (r : Nat) (s : Stall) (c : Chip) : SameReservations c (dropStall r s c) :=
  modCtx_sameReservations r (f := fun x => { x with stalls := x.stalls.filter (· ≠ s) }) (fun _ => rfl) c

theorem queueEvent_sameReservations (e : Event) (c : Chip) : SameReservations c (queueEvent e c) :=
  fun q y hy => ⟨y, (ctxOf_queueEvent e c q).symm.trans hy, rfl⟩

theorem fullMet_sameReservations (r : Nat) (cause : FullCause) (kept : Option Nat) (c : Chip) :
    SameReservations c (fullMet r cause kept c) := by
  have hcleared := withStore_sameReservations (queueEvent_sameReservations (.storeFull r cause) c)
    { (queueEvent (.storeFull r cause) c).store with reloc := none }
  have hunstalled := hcleared.trans (dropStall_sameReservations r .storeWait _)
  exact hunstalled.trans (modCtx_sameReservations r (f := fun x => { x with full := some kept }) (fun _ => rfl) _)

theorem CutLeaves.sameReservations {id : Nat} {c t : Chip} (h : CutLeaves id c t) : SameReservations c t := by
  intro q y hy
  rcases h.ctx q with hsame | ⟨z, hz, ht⟩
  · exact ⟨y, hsame.symm.trans hy, rfl⟩
  · rw [ht] at hy
    cases hy
    exact ⟨z, hz, rfl⟩

/-! ### The close requested -/

theorem ctxOf_returnSlots (ns : List Nat) {r : Nat} {x : Ctx} {c : Chip} (h : ctxOf c r = some x) :
    ∃ g, ctxOf (returnSlots ns c) r = some { x with creditGranted := g } := by
  induction ns generalizing c x with
  | nil => exact ⟨_, h⟩
  | cons n ns ih =>
    obtain ⟨g, hg, -⟩ := ctxOf_returnSlot (m := n) h
    obtain ⟨g', hg'⟩ := ih hg
    exact ⟨g', hg'⟩

theorem ctxOf_returnReservations (q : Nat) {r : Nat} {x : Ctx} {c : Chip} (h : ctxOf c r = some x) :
    ∃ ns g, ctxOf (returnReservations q c) r = some { x with reservations := ns, creditGranted := g } := by
  unfold returnReservations
  split
  · exact ⟨_, _, h⟩
  next z hz =>
    have hcleared : ∃ ns, ctxOf (modCtx q (fun x => { x with reservations := [] }) c) r = some { x with reservations := ns } := by
      rw [ctxOf_modCtx]
      split
      next hq =>
        rw [← hq, h]
        exact ⟨_, rfl⟩
      · exact ⟨_, h⟩
    obtain ⟨ns, hns⟩ := hcleared
    exact ⟨ns, ctxOf_returnSlots _ hns⟩

theorem slotAt_returnReservations {q n : Nat} {c : Chip} (h : ∀ x, ctxOf c q = some x → n ∉ x.reservations) :
    slotAt (returnReservations q c) n = slotAt c n := by
  unfold returnReservations
  split
  · rfl
  next x hx => rw [slotAt_returnSlots, if_neg (h x hx), slotAt_modCtx]

theorem endScanSource_frame (c : Chip) : (endScanSource c).routes = c.routes ∧ (endScanSource c).pool = c.pool ∧
    (endScanSource c).store = c.store := by
  unfold endScanSource
  simp

/-- The end of a scan source leaves its route but for reservations and credit, and every slot that no route has reserved. -/
theorem closeScanSource_leaves {r : Nat} {x : Ctx} {c : Chip} (h : ctxOf c r = some x) :
    (∃ ns g, ctxOf (closeScanSource c) r = some { x with reservations := ns, creditGranted := g }) ∧ (closeScanSource c).store = c.store ∧
      ∀ n, (∀ q y, ctxOf c q = some y → n ∉ y.reservations) → slotAt (closeScanSource c) n = slotAt c n := by
  obtain ⟨hroutes, hpool, hstore⟩ := endScanSource_frame c
  have hend : ctxOf (endScanSource c) r = some x := (ctxOf_congr hroutes r).trans h
  have hquiet : (∃ ns g, ctxOf (endScanSource c) r = some { x with reservations := ns, creditGranted := g }) ∧
      (endScanSource c).store = c.store ∧
      ∀ n, (∀ q y, ctxOf c q = some y → n ∉ y.reservations) → slotAt (endScanSource c) n = slotAt c n :=
    ⟨⟨_, _, hend⟩, hstore, fun n _ => slotAt_congr hpool n⟩
  unfold closeScanSource
  split
  · exact hquiet
  · unfold dropWaitingStart
    split
    next q _ _ =>
      refine ⟨ctxOf_returnReservations q (c := stopScan .stop (endScanSource c)) hend, (returnReservations_frame q _).2.2.2.2.2.2.2.2.2.2.1.trans hstore,
        fun n hn => ?_⟩
      rw [slotAt_returnReservations (c := stopScan .stop (endScanSource c)) fun y hy => hn q y ((ctxOf_congr hroutes q).symm.trans hy)]
      exact slotAt_congr hpool n
    · exact ⟨⟨_, _, hend⟩, hstore, fun n _ => slotAt_congr hpool n⟩
  · exact hquiet
  · exact ⟨⟨_, _, h⟩, rfl, fun _ _ => rfl⟩

theorem placeMark_pool (r : Nat) (m : Mark) (c : Chip) : (placeEntry r (.mark m) c).pool = c.pool := by
  cases h : ctxOf c r with
  | none => unfold placeEntry; rw [h]
  | some x =>
    rcases room_or_wait x with ⟨hhold, hroom⟩ | hwait
    · rw [placeEntry_room h hhold hroom, enterQueues_mark h]; simp
    · rw [placeEntry_wait h hwait]; simp

theorem pageEnd_pool (r : Nat) (cut : Bool) (c : Chip) : (pageEnd r cut c).pool = c.pool := by
  cases h : ctxOf c r with
  | none => unfold pageEnd; rw [h]
  | some x =>
    by_cases hlines : x.linesDone = 0
    · rw [pageEnd_empty h hlines]
    · rw [pageEnd_lines h hlines, placeMark_pool]; simp

theorem pageEnd_zero {r : Nat} {x : Ctx} {c : Chip} (h : ctxOf c r = some x) (hlines : x.linesDone = 0) (cut : Bool) :
    ctxOf (pageEnd r cut c) r = some x := by rw [pageEnd_empty h hlines, h]

/-- Where a close request ends the page of its route (R21). -/
def endsPage (x : Ctx) (c : Chip) (r : Nat) : Prop :=
  x.closeReq = false ∧ 0 < x.linesDone ∧ (x.source = .link ∧ decodingFor c r = false ∨ x.source = .store ∧ readInProgress c = false)

/-- A close request that ends no page leaves its route open, but for reservations and credit. -/
theorem requestClose_pageless {r : Nat} {x : Ctx} {c : Chip} (h : ctxOf c r = some x) (hno : ¬endsPage x c r) :
    (∃ ns g, ctxOf (requestClose r c) r = some { x with closeReq := true, reservations := ns, creditGranted := g } ∧
      (x.source = .link → g = x.creditGranted ∧ (requestClose r c).pool = c.pool)) ∧ (requestClose r c).store = c.store ∧
      ∀ n, (∀ q y, ctxOf c q = some y → n ∉ y.reservations) → slotAt (requestClose r c) n = slotAt c n := by
  cases hclose : x.closeReq with
  | true =>
    rw [requestClose_twice h hclose]
    exact ⟨⟨x.reservations, x.creditGranted, by rw [h, ← hclose], fun _ => ⟨rfl, rfl⟩⟩, rfl, fun _ _ => rfl⟩
  | false =>
    have hclosing := ctxOf_closing h
    have hquiet : (∃ ns g, ctxOf (closing r c) r = some { x with closeReq := true, reservations := ns, creditGranted := g } ∧
        (x.source = .link → g = x.creditGranted ∧ (closing r c).pool = c.pool)) ∧ (closing r c).store = c.store ∧
        ∀ n, (∀ q y, ctxOf c q = some y → n ∉ y.reservations) → slotAt (closing r c) n = slotAt c n :=
      ⟨⟨_, _, hclosing, fun _ => ⟨rfl, by simp [closing]⟩⟩, by simp [closing], fun n _ => by simp [closing]⟩
    have hzero {d : Prop} (hpage : 0 < x.linesDone → d → False) (hd : d) : pageEnd r true (closing r c) = closing r c :=
      pageEnd_empty hclosing (Nat.eq_zero_of_not_pos fun k => hpage k hd) true
    have hcases : x.source = .scan ∨ x.source = .link ∨ x.source = .store := by cases x.source <;> simp
    rcases hcases with hsource | hsource | hsource
    · have hstep : requestClose r c = closeScanSource (closing r c) := by rw [requestClose_first h hclose, hsource]
      rw [hstep]
      obtain ⟨⟨ns, g, hctx⟩, hstore, hslots⟩ := closeScanSource_leaves hclosing
      refine ⟨⟨ns, g, hctx, fun k => nomatch hsource.symm.trans k⟩, hstore.trans (by simp [closing]), fun n hn => ?_⟩
      rw [hslots n ?_]
      · simp [closing]
      · intro q y hy
        obtain ⟨z, hz, hsame⟩ := modCtx_sameReservations r (f := fun x => { x with closeReq := true }) (fun _ => rfl) c q y hy
        rw [hsame]
        exact hn q z hz
    · have hstep : requestClose r c = if decodingFor (closing r c) r then closing r c else pageEnd r true (closing r c) := by
        rw [requestClose_first h hclose, hsource]
      rw [hstep]
      split
      · exact hquiet
      next hdec =>
        rw [hzero (d := decodingFor c r = false) (fun k hd => hno ⟨hclose, k, .inl ⟨hsource, hd⟩⟩) (by simpa [closing, decodingFor] using hdec)]
        exact hquiet
    · have hstep : requestClose r c = if readInProgress (closing r c) then closing r c else pageEnd r true (closing r c) := by
        rw [requestClose_first h hclose, hsource]
      rw [hstep]
      split
      · exact hquiet
      next hread =>
        rw [hzero (d := readInProgress c = false) (fun k hd => hno ⟨hclose, k, .inr ⟨hsource, hd⟩⟩)
          (by simpa [closing, readInProgress] using hread)]
        exact hquiet

/-- A close request that ends the page of its route. -/
theorem requestClose_ends {r : Nat} {x : Ctx} {c : Chip} (h : ctxOf c r = some x) (hends : endsPage x c r) :
    ctxOf (requestClose r c) r =
        some (placed (.mark (endMark true { x with closeReq := true })) (nextPage { x with closeReq := true })) ∧
      (requestClose r c).pool = c.pool ∧ (requestClose r c).store = c.store := by
  obtain ⟨hclose, hlines, hsource⟩ := hends
  have hclosing := ctxOf_closing h
  have hstep : requestClose r c = pageEnd r true (closing r c) := by
    rw [requestClose_first h hclose]
    rcases hsource with ⟨hlink, hdec⟩ | ⟨hstore, hread⟩
    · rw [hlink]
      exact if_neg (by simpa [closing, decodingFor] using hdec)
    · rw [hstore]
      exact if_neg (by simpa [closing, readInProgress] using hread)
  rw [hstep]
  refine ⟨ctxOf_pageEnd hclosing (Nat.ne_of_gt hlines) true, (pageEnd_pool ..).trans (by simp [closing]), ?_⟩
  simp [closing]

/-! ### The route after STORE FULL -/

theorem pageCut_leaves (page : Option Nat) (c : Chip) : ∃ id, CutLeaves id c (pageCut page c) := by
  cases page with
  | none => exact ⟨0, rfl, rfl, rfl, rfl, rfl, .inl rfl⟩
  | some id => exact ⟨id, endPage_leaves none true none id c⟩

/-- STORE FULL up to the close request: told, the page cut, the line at the head let go. -/
def fullCut (r : Nat) (cause : FullCause) (page : Option Nat) (c : Chip) : Chip :=
  dropHead .store r (pageCut page (fullMet r cause (keptPage page c) c))

/-- A route whose store sink has met STORE FULL, before its close request. -/
def fullFor (kept page : Option Nat) (rest : List Entry) (g : Option Nat) (x : Ctx) : Ctx :=
  { x with stalls := x.stalls.filter (· ≠ .storeWait), full := some kept, storePage := page, storeQ := rest, creditGranted := g }

theorem decodingFor_congr {c t : Chip} (h : t.linkIn = c.linkIn) (r : Nat) : decodingFor t r = decodingFor c r := by
  unfold decodingFor; rw [h]

theorem readInProgress_congr {c t : Chip} (hreading : t.store.reading = c.store.reading) (hcursor : t.store.cursor = c.store.cursor) :
    readInProgress t = readInProgress c := by
  unfold readInProgress; rw [hreading, hcursor]

section
variable {r refs : Nat} {l : Line} {x : Ctx} {e : LineEntry} {rest : List Entry} {c : Chip}

/-- The route as the page's end leaves it. -/
theorem ctxOf_pageCut (h : ctxOf c r = some x) (cause : FullCause) (kept : Option Nat) :
    ∃ page, ctxOf (pageCut x.storePage (fullMet r cause kept c)) r =
      some { x with stalls := x.stalls.filter (· ≠ .storeWait), full := some kept, storePage := page } := by
  have hmet := ctxOf_fullMet h cause kept
  obtain ⟨id, hcut⟩ := pageCut_leaves x.storePage (fullMet r cause kept c)
  rcases hcut.ctx r with hsame | ⟨y, hy, ht⟩
  · exact ⟨_, hsame.trans hmet⟩
  · rw [hmet] at hy
    cases hy
    exact ⟨none, ht⟩

theorem dropHead_sameReservations {k : Sink} (h : ctxOf c r = some x) (hq : x.queue k = .line e :: rest) (hhold : x.hold = []) :
    SameReservations c (dropHead k r c) := by
  rw [dropHead_quiet h hq hhold]
  have hset : SameReservations c (modCtx r (fun x => x.setQueue k rest) c) :=
    modCtx_sameReservations r (f := fun x => x.setQueue k rest) (fun _ => by cases k <;> rfl) c
  exact (hset.trans (dropReference_sameReservations e.slot _)).trans
    (modCtx_sameReservations r (f := fun x => { x with hold := [] }) (fun _ => rfl) _)

theorem fullCut_route (h : ctxOf c r = some x) (hq : x.storeQ = .line e :: rest) (hhold : x.hold = [])
    (hslot : slotAt c e.slot = .held r refs l) (cause : FullCause) :
    slotAt (fullCut r cause x.storePage c) e.slot = (if refs ≤ 1 then .free else .held r (refs - 1) l) ∧
      ∃ page g, ctxOf (fullCut r cause x.storePage c) r = some (fullFor (keptPage x.storePage c) page rest g x) ∧
        (g = x.creditGranted ∨ g = some (x.quota - charged (fullCut r cause x.storePage c) r)) := by
  obtain ⟨id, hcut⟩ := pageCut_leaves x.storePage (fullMet r cause (keptPage x.storePage c) c)
  have hheld : slotAt (pageCut x.storePage (fullMet r cause (keptPage x.storePage c) c)) e.slot = .held r refs l := by
    rw [slotAt_congr (hcut.pool.trans (fullMet_frame ..).1)]; exact hslot
  obtain ⟨page, hpage⟩ := ctxOf_pageCut h cause (keptPage x.storePage c)
  obtain ⟨hfreed, g, hg, hvalue⟩ := dropHead_held hpage hq hhold hheld
  exact ⟨hfreed, page, g, hg, hvalue⟩

theorem fullCut_frame (h : ctxOf c r = some x) (hq : x.storeQ = .line e :: rest) (hhold : x.hold = []) (cause : FullCause) :
    SameReservations c (fullCut r cause x.storePage c) ∧
      decodingFor (fullCut r cause x.storePage c) r = decodingFor c r ∧ readInProgress (fullCut r cause x.storePage c) = readInProgress c ∧
      (fullCut r cause x.storePage c).store = (pageCut x.storePage (fullMet r cause (keptPage x.storePage c) c)).store := by
  obtain ⟨page, hpage⟩ := ctxOf_pageCut h cause (keptPage x.storePage c)
  obtain ⟨-, hstore, hin, -⟩ := fullMet_frame r cause (keptPage x.storePage c) c
  obtain ⟨id, hcut⟩ := pageCut_leaves x.storePage (fullMet r cause (keptPage x.storePage c) c)
  have hframe := dropHead_frame .store r (pageCut x.storePage (fullMet r cause (keptPage x.storePage c) c))
  have hread : (fullMet r cause (keptPage x.storePage c) c).store.reading = c.store.reading ∧
      (fullMet r cause (keptPage x.storePage c) c).store.cursor = c.store.cursor := by rw [hstore]; exact ⟨rfl, rfl⟩
  refine ⟨?_, ?_, ?_, ?_⟩
  · exact ((fullMet_sameReservations r cause _ c).trans hcut.sameReservations).trans (dropHead_sameReservations (k := .store) hpage hq hhold)
  · exact (decodingFor_congr (by unfold fullCut; simp) r).trans (decodingFor_congr (hcut.linkIn.trans hin) r)
  · exact (readInProgress_congr (by unfold fullCut; simp) (by unfold fullCut; simp)).trans
      (readInProgress_congr (hcut.reading.trans hread.1) (hcut.cursor.trans hread.2))
  · unfold fullCut; simp

theorem fullCut_told (cause : FullCause) (page : Option Nat) (hfree : 256 ≤ freeBytes c) :
    Report.event (.storeFull r cause) ∈ plainReports (requestClose r (fullCut r cause page c)).link.reports := by
  obtain ⟨-, -, -, hreports⟩ := fullMet_frame r cause (keptPage page c) c
  obtain ⟨id, hcut⟩ := pageCut_leaves page (fullMet r cause (keptPage page c) c)
  have hon : Onward (pageCut page (fullMet r cause (keptPage page c) c)) (requestClose r (fullCut r cause page c)) :=
    requestClose_onward (dropHead_onward Onward.rfl .store r) r
  obtain ⟨more, hmore, -⟩ := hon.reports
  rw [hmore, hcut.link, hreports hfree, plainReports_append]
  simp [plainReports]

end

/-- What an entry placed leaves of its route: all but the queues and the hold. -/
theorem placed_frame (e : Entry) (x : Ctx) : (placed e x).closeReq = x.closeReq ∧ (placed e x).full = x.full ∧ (placed e x).stalls = x.stalls ∧
    (placed e x).linesDone = x.linesDone ∧ (placed e x).creditGranted = x.creditGranted := by
  unfold placed
  split
  · rw [push_eq]; exact ⟨rfl, rfl, rfl, rfl, rfl⟩
  · exact ⟨rfl, rfl, rfl, rfl, rfl⟩

/-- A queue of a sink named once takes one entry. -/
theorem pushed_once {ks : List Sink} {k : Sink} (hnodup : ks.Nodup) (hk : k ∈ ks) (e : Entry) : pushed ks k e = [e] := by
  rw [pushed, List.count_eq_one_of_mem hnodup hk]
  rfl

section
variable {r id refs b : Nat} {l : Line} {x : Ctx} {e : LineEntry} {rest : List Entry} {pg : Page} {c : Chip}

/-- The mark that ends a route's page TRUNCATED. -/
def cutMark (x : Ctx) : Entry :=
  .mark { tag := x.marks, lines := x.linesDone, repaired := x.repairedLines, truncated := true, isPartial := x.partialNext, pageId := none }

/-- A route that STORE FULL leaves, its page ended by the close request. -/
theorem full_ends {kept page : Option Nat} {g : Option Nat} (hhold : x.hold = []) (hnodup : x.sinks.Nodup) (hsink : Sink.store ∈ x.sinks) {y : Ctx}
    (hy : y = placed (.mark (endMark true { fullFor kept page rest g x with closeReq := true }))
      (nextPage { fullFor kept page rest g x with closeReq := true })) :
    y.closeReq = true ∧ y.full = some kept ∧ Stall.storeWait ∉ y.stalls ∧ y.creditGranted = g ∧ y.linesDone = 0 ∧
      (hasRoom { x with storeQ := rest } = true → y.storeQ = rest ++ [cutMark x] ∧ y.hold = [] ∧
        (Sink.print ∈ x.sinks → y.printQ = x.printQ ++ [cutMark x]) ∧ (Sink.link ∈ x.sinks → y.linkQ = x.linkQ ++ [cutMark x])) ∧
      (hasRoom { x with storeQ := rest } = false → y.storeQ = rest ∧ y.hold = [cutMark x]) := by
  obtain ⟨hclose, hfull, hstalls, hlines, hcredit⟩ := placed_frame (.mark (endMark true { fullFor kept page rest g x with closeReq := true }))
    (nextPage { fullFor kept page rest g x with closeReq := true })
  have hroom : hasRoom (nextPage { fullFor kept page rest g x with closeReq := true }) = hasRoom { x with storeQ := rest } :=
    hasRoom_congr rfl rfl rfl rfl
  subst hy
  refine ⟨hclose, hfull, by rw [hstalls]; simp [nextPage, fullFor], hcredit, hlines, fun h => ?_, fun h => ?_⟩
  · rw [placed_room (x := nextPage { fullFor kept page rest g x with closeReq := true }) hhold (hroom.trans h), push_eq]
    refine ⟨congrArg _ (pushed_once hnodup hsink _), hhold, fun k => congrArg _ (pushed_once hnodup k _), fun k => congrArg _ (pushed_once hnodup k _)⟩
  · rw [placed_wait (x := nextPage { fullFor kept page rest g x with closeReq := true }) (.inr (hroom.trans h))]
    exact ⟨rfl, congrArg (· ++ _) hhold⟩

theorem endsPage_fullFor {kept page g : Option Nat} {m : Chip} (hdec : decodingFor m r = decodingFor c r)
    (hread : readInProgress m = readInProgress c) : endsPage (fullFor kept page rest g x) m r ↔ endsPage x c r := by
  unfold endsPage
  rw [hdec, hread]
  rfl

/-- The page that STORE FULL cuts: gone where it has no line, else closed TRUNCATED. -/
theorem pageCut_page {m : Chip} (hpg : pageOf m id = some pg) :
    (pg.lines = 0 → pageOf (pageCut (some id) m) id = none) ∧
      ∀ b, 0 < pg.lines → lastBlock pg = some b → b < m.store.blocks.length →
        (blockAt (pageCut (some id) m) b).state = .full ∧ (pageOf (pageCut (some id) m) id).isSome = true ∧
          ((pageCut (some id) m).store.holder = some (.closePage b true) ∨ Job.closePage b true ∈ (pageCut (some id) m).store.programs) := by
  refine ⟨fun hlines => ?_, fun b hlines hlast hb => ?_⟩
  · show pageOf (endPage none true none id m) id = none
    rw [endPage_empty hpg (.inl hlines), pageOf_congr (retireBlocks_dir ..), pageOf_removePage_self]
  · show (blockAt (endPage none true none id m) b).state = .full ∧ (pageOf (endPage none true none id m) id).isSome = true ∧
      ((endPage none true none id m).store.holder = some (.closePage b true) ∨ Job.closePage b true ∈ (endPage none true none id m).store.programs)
    rw [endPage_lines hpg hlines hlast]
    refine ⟨?_, ?_, askProgram_waits _ _⟩
    · rw [blockAt_askProgram, setBlockState,
        blockAt_modBlock_self (c := setWork (some ⟨none, some id, .closing none, false⟩) m) hb]
    · rw [pageOf_congr (c := m) (by simp [setBlockState, modBlock, setWork]), hpg]
      rfl

theorem keptPage_some (hpg : pageOf c id = some pg) : keptPage (some id) c = if 0 < pg.lines then some id else none := by
  unfold keptPage
  dsimp only
  rw [hpg]

end

/-! ## Settling -/

/-- STORE FULL at a held line of a route with nothing in its hold (R116, R21). -/
theorem meetFull_route {r refs : Nat} {cause : FullCause} {x : Ctx} {e : LineEntry} {rest : List Entry} {l : Line} {c : Chip}
    (h : ctxOf c r = some x) (hq : x.storeQ = .line e :: rest) (hhold : x.hold = []) (hslot : slotAt c e.slot = .held r refs l)
    (hres : ∀ q y, ctxOf c q = some y → e.slot ∉ y.reservations) (hnodup : x.sinks.Nodup) (hsink : Sink.store ∈ x.sinks) :
    slotAt (meetFull r cause c) e.slot = (if refs ≤ 1 then .free else .held r (refs - 1) l) ∧
      (meetFull r cause c).store = (pageCut x.storePage (fullMet r cause (keptPage x.storePage c) c)).store ∧
      ∃ y, ctxOf (meetFull r cause c) r = some y ∧ y.closeReq = true ∧ y.full = some (keptPage x.storePage c) ∧ Stall.storeWait ∉ y.stalls ∧
        (¬endsPage x c r → y.storeQ = rest ∧ y.hold = [] ∧ y.linesDone = x.linesDone) ∧
        (endsPage x c r → y.linesDone = 0 ∧
          (hasRoom { x with storeQ := rest } = true → y.storeQ = rest ++ [cutMark x] ∧ y.hold = [] ∧
            (Sink.print ∈ x.sinks → y.printQ = x.printQ ++ [cutMark x]) ∧ (Sink.link ∈ x.sinks → y.linkQ = x.linkQ ++ [cutMark x])) ∧
          (hasRoom { x with storeQ := rest } = false → y.storeQ = rest ∧ y.hold = [cutMark x])) ∧
        (x.source = .link → y.creditGranted = x.creditGranted ∨ y.creditGranted = some (x.quota - charged (meetFull r cause c) r)) := by
  obtain ⟨hfreed, page, g, hctx, hvalue⟩ := fullCut_route h hq hhold hslot cause
  obtain ⟨hsame, hdec, hread, hstore⟩ := fullCut_frame h hq hhold cause
  have hends := endsPage_fullFor (kept := keptPage x.storePage c) (page := page) (g := g) (rest := rest) (x := x) hdec hread
  rw [show meetFull r cause c = requestClose r (fullCut r cause x.storePage c) from meetFull_eq h cause]
  by_cases hend : endsPage x c r
  · obtain ⟨hplaced, hpool, hkept⟩ := requestClose_ends hctx (hends.2 hend)
    obtain ⟨hclose, hfull, hstalls, hcredit, hlines, hroom, hnoroom⟩ := full_ends (kept := keptPage x.storePage c) (page := page) (g := g)
      (rest := rest) hhold hnodup hsink rfl
    refine ⟨(slotAt_congr hpool _).trans hfreed, hkept.trans hstore, _, hplaced, hclose, hfull, hstalls, fun k => absurd hend k,
      fun _ => ⟨hlines, hroom, hnoroom⟩, fun _ => ?_⟩
    rw [hcredit, charged_congr hpool]
    exact hvalue
  · obtain ⟨⟨ns, g', hleft, hlink⟩, hkept, hslots⟩ := requestClose_pageless hctx (mt hends.1 hend)
    refine ⟨(hslots _ fun q y hy => ?_).trans hfreed, hkept.trans hstore, _, hleft, rfl, rfl, by simp [fullFor],
      fun _ => ⟨rfl, hhold, rfl⟩, fun k => absurd k hend, fun hsource => ?_⟩
    · obtain ⟨z, hz, hsame⟩ := hsame q y hy
      rw [hsame]
      exact hres q z hz
    · obtain ⟨hg, hpool⟩ := hlink hsource
      subst hg
      rw [charged_congr hpool]
      exact hvalue

/-- What every byte reads after a block's erase. -/
theorem readMem_eraseBlock (f : Flash) (b a : Nat) : readMem (f.eraseBlock b).mem a =
    if b * 16384 ≤ a ∧ a < (b + 1) * 16384 then 0xFF else readMem f.mem a := by
  have hblock (n : Nat) : addrOf n 0 = n * 16384 := Nat.add_zero _
  rw [← hblock, ← hblock]
  exact readMem_eraseMem f.mem b a

/-- Settles O42, by the phase of the erase at each of its ends, the tables after its count program, and the tries of a claim, STORE FULL among
them (`tryClaim_within`, `meetFull_route`). -/
theorem eraseRunsItsPhases : Obligations.EraseRunsItsPhases := by
  unfold Obligations.EraseRunsItsPhases
  refine ⟨?_, ?_, ?_, hasToErase_iff, ?_, ?_, ?_, ?_, ?_⟩
  · intro b s herase hstate hop hfind hb
    obtain ⟨e, he, hblock, happlied, hphase⟩ := eraseBegun_erase b s.chip
    refine ⟨_, e, exec_of_chip (exec_eraseStart s) (eraseStartChip_starts herase hstate hop hfind), he, hblock, happlied, hphase hop, ?_, ?_,
      fun n hn => ?_, rfl⟩
    · rw [show blockAt (s.withChip (grant (eraseBegun b s.chip))).chip b = _ from blockAt_eraseBegun b b s.chip, if_pos ⟨rfl, hb⟩]
      rfl
    · show b ∉ (grant (eraseBegun b s.chip)).store.eraseQueue
      simp [eraseBegun_store]
    · exact (blockAt_eraseBegun b n s.chip).trans (if_neg fun k => hn k.1)
  · intro e s h
    refine ⟨fun hphase hwanted => ?_, fun hphase hlimit hwanted => ?_, fun hphase hlimit => ?_, fun hphase => ?_,
      fun j rest hphase hop hholder hreads husable hscanned hunit => ?_, fun r hphase => ?_, fun r hphase => ?_⟩
    · exact exec_of_chip (exec_erasePulseEnd s) (pulseEnd_full h hphase hwanted)
    · exact congrArg Host.Outcome.next (verifyEnd_again h hphase hlimit hwanted)
    · exact congrArg Host.Outcome.next (verifyEnd_limit h hphase hlimit)
    · exact ⟨_, congrArg Host.Outcome.next (verifyEnd_passed h hphase), rfl, readMem_eraseBlock s.flash e.block, rfl, rfl, rfl⟩
    · obtain ⟨hheld, hrest, hcut⟩ := minPulse_cut h hphase hop hholder hreads husable hscanned hunit
      exact ⟨_, exec_eraseMinPulseEnd s, hheld, hrest, hcut, rfl⟩
    · exact congrArg Host.Outcome.next (countEnd_counts h hphase r)
    · refine ⟨_, congrArg Host.Outcome.next (badEnd_bad h hphase r), rfl, ?_, fun hbad => ?_, fun hgood => ?_⟩
      · dsimp only
        split
        · rfl
        · exact tear_mem ..
      · dsimp only
        rw [hbad]
        exact mem_torn_tear ..
      · dsimp only
        rw [hgood]
        rfl
  · intro e c hb
    obtain ⟨hbad, hfault, hothers⟩ := eraseFailed_tables hb
    refine ⟨hbad, hfault, hothers, fun hop => ⟨?_, ?_, ?_⟩, fun hop ok => ⟨_, countDone_background hop ok, counted_tables hb hop ok⟩⟩
    · rw [blockAt_countDone_total hb hop]; rfl
    · rw [blockAt_countDone_total hb hop]; rfl
    · rw [blockAt_countDone_total hb hop]; rfl
  · intro r id x w pg c h hw hpage hpg hreloc
    exact ⟨tryClaim_length hw hpage hpg hreloc, tryClaim_full hw hpage hpg hreloc, tryClaim_waiting h hw hpage hpg hreloc,
      fun b more => tryClaim_granted h hw hpage hpg hreloc⟩
  · intro r x e rest c h hq hpage hfull
    exact takeEntry_noPage h hq hpage hfull
  · intro r refs cause x e rest l c h hq hhold hslot hres hnodup hsink
    obtain ⟨hfreed, hstore, y, hy, hclose, hkept, hstalls, hno, hends, hcredit⟩ := meetFull_route (cause := cause) h hq hhold hslot hres hnodup hsink
    refine ⟨fun hfree => ?_, hfreed, y, hy, hclose, by rw [hkept]; rfl, hstalls, hno, hends, hcredit, fun id pg hpage hpg => ?_⟩
    · have htold := fullCut_told (r := r) cause x.storePage hfree
      rw [show meetFull r cause c = requestClose r (fullCut r cause x.storePage c) from meetFull_eq h cause]
      exact (List.mem_filter.1 htold).1
    · rw [hpage] at hkept hstore
      have hmet := (fullMet_frame r cause (keptPage (some id) c) c).2.1
      obtain ⟨hgone, hclosed⟩ := pageCut_page (pg := pg) (m := fullMet r cause (keptPage (some id) c) c)
        ((pageOf_congr (by rw [hmet]) id).trans hpg)
      refine ⟨fun hlines => ⟨?_, ?_⟩, fun b hlines hlast hb => ?_⟩
      · rw [hkept, keptPage_some hpg, if_neg (by omega)]
      · rw [pageOf_congr (congrArg Store.dir hstore), hgone hlines]
      · obtain ⟨hstate, hlisted, hasked⟩ := hclosed b hlines hlast (by rw [hmet]; exact hb)
        refine ⟨?_, ?_, ?_, ?_⟩
        · rw [hkept, keptPage_some hpg, if_pos hlines]
        · rw [blockAt_congr (congrArg Store.blocks hstore), hstate]
        · rw [pageOf_congr (congrArg Store.dir hstore), hlisted]
        · rw [hstore]; exact hasked
  · intro r x pid rest c h hfull hhold
    exact ⟨fun e hq => drainEntry_line h hq hhold, fun k hq => ⟨_, drainEntry_mark h hfull hq hhold, rfl, rfl, rfl⟩⟩
  · intro s h
    refine ⟨exec_without_effect (exec_erasePulseEnd s) ?_, fun pass => congrArg Host.Outcome.next ?_,
      exec_without_effect (exec_eraseMinPulseEnd s) ?_, fun r => congrArg Host.Outcome.next ?_, fun r => congrArg Host.Outcome.next ?_⟩
    · unfold pulseEndChip; rw [h]
    · unfold verifyEnd; rw [h]
    · unfold minPulseChip; rw [h]
    · unfold countEnd; rw [h]
    · unfold badEnd; rw [h]

end Sys2Proof.Proofs
end

section
/-!
PROOFS. REDIRECT (01_line_pool_and_routes.md R23): the print queue drained, its entries moved to the store sink, and the page created.
-/

-- One declaration after another: the package as one text keeps within the check's limit on threads.
set_option Elab.async false

namespace Sys2Proof.Proofs

open Sys2Proof Sys2Proof.Machine

/-! ## Operations on one route -/

/-- The part `t` is the part `c` but for the context of one route, its pool and its reports. -/
structure OneRoute (r : Nat) (c t : Chip) : Prop where
  others : ∀ q, q ≠ r → getRoute t q = getRoute c q
  pages : (getRoute t r).pagesDone = (getRoute c r).pagesDone
  store : t.store = c.store

theorem OneRoute.rfl {r : Nat} {c : Chip} : OneRoute r c c := ⟨fun _ _ => Eq.refl _, Eq.refl _, Eq.refl _⟩

theorem OneRoute.trans {r : Nat} {a b c : Chip} (h : OneRoute r a b) (k : OneRoute r b c) : OneRoute r a c :=
  ⟨fun q hq => (k.others q hq).trans (h.others q hq), k.pages.trans h.pages, k.store.trans h.store⟩

theorem OneRoute.of_routes {r : Nat} {c t : Chip} (h : t.routes = c.routes) (hstore : t.store = c.store) : OneRoute r c t :=
  ⟨fun q _ => getRoute_congr h q, congrArg Route.pagesDone (getRoute_congr h r), hstore⟩

theorem modCtx_oneRoute (r : Nat) (f : Ctx → Ctx) (c : Chip) : OneRoute r c (modCtx r f c) := by
  refine ⟨fun q hq => getRoute_modCtx_ne hq f c, ?_, by simp⟩
  cases h : ctxOf c r with
  | none => rw [modCtx_of_none h]
  | some x => rw [getRoute_modCtx_self h]

theorem setSlot_oneRoute (r n : Nat) (x : Slot) (c : Chip) : OneRoute r c (setSlot n x c) := by
  unfold setSlot
  split
  · exact .of_routes rfl rfl
  · exact .rfl

theorem enterQueues_oneRoute (r : Nat) (e : Entry) (c : Chip) : OneRoute r c (enterQueues r e c) := by
  unfold enterQueues
  split
  · exact .rfl
  · dsimp only
    split
    · exact (modCtx_oneRoute r _ c).trans (setSlot_oneRoute r _ _ _)
    · exact modCtx_oneRoute r _ c

theorem moveHold_oneRoute (r : Nat) (es : List Entry) (c : Chip) : OneRoute r c (moveHold r es c) := by
  induction es generalizing c with
  | nil => exact modCtx_oneRoute r _ c
  | cons e es ih =>
    unfold moveHold
    split
    · exact .rfl
    · split
      · exact (enterQueues_oneRoute r e c).trans (ih _)
      · exact modCtx_oneRoute r _ c

theorem settleHold_oneRoute (r : Nat) (c : Chip) : OneRoute r c (settleHold r c) := by
  unfold settleHold
  split
  · exact .rfl
  · exact moveHold_oneRoute r _ c

theorem syncCredit_oneRoute (r : Nat) (c : Chip) : OneRoute r c (syncCredit r c) := by
  refine ⟨fun q hq => getRoute_syncCredit_ne hq c, ?_, by simp⟩
  rcases getRoute_syncCredit r r c with h | ⟨x, g, -, -, h⟩ <;> rw [h]

/-- A reference that drops to a slot charged to a route. -/
theorem dropReference_oneRoute {r n refs : Nat} {l : Line} {c : Chip} (hslot : slotAt c n = .held r refs l) : OneRoute r c (dropReference n c) := by
  unfold dropReference
  rw [hslot]
  dsimp only
  split
  · rw [returnSlot_charged (by rw [hslot]; rfl)]
    exact (OneRoute.of_routes (c := c) (t := { c with pool := { slots := c.pool.slots.set n .free, freeList := c.pool.freeList ++ [n] } }) rfl rfl).trans
      (syncCredit_oneRoute r _)
  · exact setSlot_oneRoute r _ _ _

/-! ## The hold moves (R14) -/

/-- A route whose print queue drains: its queues, its hold and its credit. -/
def drained (q lq sq kept : List Entry) (g : Option Nat) (x : Ctx) : Ctx :=
  { x with printQ := q, linkQ := lq, storeQ := sq, hold := kept, creditGranted := g }

/-- The hold of a route moves no further: it is empty, or a queue is full. -/
def stuck (sinks : List Sink) (q lq kept : List Entry) : Prop := kept = [] ∨ 40 ≤ q.length ∨ Sink.link ∈ sinks ∧ 40 ≤ lq.length

/-- A route that prints, and stores nothing. -/
structure Prints (x : Ctx) : Prop where
  print : Sink.print ∈ x.sinks
  store : Sink.store ∉ x.sinks
  nodup : x.sinks.Nodup

theorem hasRoom_false {x : Ctx} (hprints : Prints x) : hasRoom x = false ↔ 40 ≤ x.printQ.length ∨ Sink.link ∈ x.sinks ∧ 40 ≤ x.linkQ.length := by
  have hroom : hasRoom x = true ↔ ∀ k ∈ x.sinks, (x.queue k).length < 40 := by
    unfold hasRoom
    rw [List.all_eq_true]
    exact forall₂_congr fun k _ => decide_eq_true_iff
  rw [← Bool.not_eq_true, hroom]
  constructor
  · intro h
    by_contra hno
    simp only [not_or, not_and, Nat.not_le] at hno
    refine h fun k hk => ?_
    cases k with
    | print => exact hno.1
    | link => exact hno.2 hk
    | store => exact absurd hk hprints.store
  · rintro (h | ⟨hlink, h⟩) k
    · exact absurd (k _ hprints.print) (Nat.not_lt.2 h)
    · exact absurd (k _ hlink) (Nat.not_lt.2 h)

/-- The hold of a route that prints moves, entry by entry, until it is empty or a queue is full. -/
theorem moveHold_moves {r : Nat} (es : List Entry) {y : Ctx} {c : Chip} (h : ctxOf c r = some y) (hprints : Prints y) :
    ∃ moved kept lq, es = moved ++ kept ∧
      ctxOf (moveHold r es c) r = some { y with printQ := y.printQ ++ moved, linkQ := lq, hold := kept } ∧
      stuck y.sinks (y.printQ ++ moved) lq kept ∧ (Sink.link ∈ y.sinks → 40 ≤ y.linkQ.length → moved = [] ∧ lq = y.linkQ) ∧
      (moved = [] → (moveHold r es c).pool = c.pool) := by
  induction es generalizing c y with
  | nil =>
    refine ⟨[], [], y.linkQ, rfl, ?_, .inl rfl, fun _ _ => ⟨rfl, rfl⟩, fun _ => (modCtx_frame ..).2.1⟩
    unfold moveHold
    rw [ctxOf_modCtx_self, h, Option.map_some, List.append_nil]
  | cons e es ih =>
    by_cases hroom : hasRoom y = true
    · have hstep : moveHold r (e :: es) c = moveHold r es (enterQueues r e c) := by
        conv_lhs => unfold moveHold
        rw [h]
        exact if_pos hroom
      have hprint : pushed y.sinks .print e = [e] := pushed_once hprints.nodup hprints.print e
      have hstore : pushed y.sinks .store e = [] := by rw [pushed, List.count_eq_zero_of_not_mem hprints.store]; rfl
      have hpush : ctxOf (enterQueues r e c) r = some { y with printQ := y.printQ ++ [e], linkQ := y.linkQ ++ pushed y.sinks .link e } := by
        rw [ctxOf_enterQueues h, push_eq, hprint, hstore, List.append_nil]
      obtain ⟨moved, kept, lq, hes, hctx, hstuck, -, -⟩ := ih hpush ⟨hprints.print, hprints.store, hprints.nodup⟩
      refine ⟨e :: moved, kept, lq, by rw [hes]; rfl, ?_, ?_, fun hlink hfull => ?_, fun k => nomatch k⟩
      · rw [hstep, hctx]
        simp
      · simpa using hstuck
      · have hnone := (hasRoom_false hprints).2 (.inr ⟨hlink, hfull⟩)
        rw [hroom] at hnone
        cases hnone
    · have hstep : moveHold r (e :: es) c = modCtx r (fun x => { x with hold := e :: es }) c := by
        unfold moveHold
        rw [h]
        exact if_neg hroom
      refine ⟨[], e :: es, y.linkQ, rfl, ?_, ?_, fun _ _ => ⟨rfl, rfl⟩, fun _ => by rw [hstep]; simp⟩
      · rw [hstep, ctxOf_modCtx_self, h, Option.map_some, List.append_nil]
      · rw [List.append_nil]
        exact .inr ((hasRoom_false hprints).1 (Bool.eq_false_iff.2 hroom))

theorem settleHold_moves {r : Nat} {y : Ctx} {c : Chip} (h : ctxOf c r = some y) (hprints : Prints y) :
    ∃ moved kept lq, y.hold = moved ++ kept ∧
      ctxOf (settleHold r c) r = some { y with printQ := y.printQ ++ moved, linkQ := lq, hold := kept } ∧
      stuck y.sinks (y.printQ ++ moved) lq kept ∧ (Sink.link ∈ y.sinks → 40 ≤ y.linkQ.length → moved = [] ∧ lq = y.linkQ) ∧
      (moved = [] → (settleHold r c).pool = c.pool) := by
  unfold settleHold
  rw [h]
  exact moveHold_moves y.hold h hprints

/-! ## The head line dropped, the mark at the head served -/

theorem dropHead_moves {r refs : Nat} {l : Line} {x : Ctx} {e : LineEntry} {rest : List Entry} {c : Chip} (h : ctxOf c r = some x)
    (hprints : Prints x) (hq : x.printQ = .line e :: rest) (hslot : slotAt c e.slot = .held r refs l) :
    ∃ moved kept lq g, x.hold = moved ++ kept ∧ ctxOf (dropHead .print r c) r = some (drained (rest ++ moved) lq x.storeQ kept g x) ∧
      stuck x.sinks (rest ++ moved) lq kept ∧ (Sink.link ∈ x.sinks → 40 ≤ x.linkQ.length → moved = [] ∧ lq = x.linkQ) ∧
      OneRoute r c (dropHead .print r c) ∧
      (x.hold = [] → slotAt (dropHead .print r c) e.slot = (if refs ≤ 1 then .free else .held r (refs - 1) l) ∧
        ∀ k, k ≠ e.slot → slotAt (dropHead .print r c) k = slotAt c k) := by
  have hset : ctxOf (modCtx r (fun x => x.setQueue .print rest) c) r = some { x with printQ := rest } :=
    (ctxOf_modCtx_self r _ c).trans (congrArg (Option.map _) h)
  have hheld : slotAt (modCtx r (fun x => x.setQueue .print rest) c) e.slot = .held r refs l := by rw [slotAt_modCtx]; exact hslot
  obtain ⟨g, hg⟩ := ctxOf_dropReference (m := e.slot) hset
  rw [dropHead_line (k := .print) h hq]
  obtain ⟨moved, kept, lq, hhold, hctx, hstuck, hfull, hpool⟩ := settleHold_moves hg ⟨hprints.print, hprints.store, hprints.nodup⟩
  refine ⟨moved, kept, lq, g, hhold, hctx, hstuck, hfull, ((modCtx_oneRoute r _ c).trans (dropReference_oneRoute hheld)).trans (settleHold_oneRoute r _),
    fun hnone => ?_⟩
  have hmoved : moved = [] := (List.append_eq_nil_iff.1 (hhold.symm.trans hnone)).1
  refine ⟨?_, fun k hk => ?_⟩
  · rw [slotAt_congr (hpool hmoved), slotAt_dropReference_self hheld]
  · rw [slotAt_congr (hpool hmoved), slotAt_dropReference_ne hk, slotAt_modCtx]

theorem putMark_of_absent {m : Mark} {q : List Entry} (h : hasMark m.tag q = false) : putMark m q = q := by
  induction q with
  | nil => rfl
  | cons e q ih =>
    unfold hasMark at h ih
    rw [List.any_cons, Bool.or_eq_false_iff] at h
    obtain ⟨hhead, htail⟩ := h
    refine List.cons_eq_cons.2 ⟨?_, ih htail⟩
    cases e with
    | line _ => rfl
    | mark n => exact if_neg (by simpa using hhead)

theorem getRoute_pageDone (r : Nat) (m : Mark) (c : Chip) : (∀ q, q ≠ r → getRoute (pageDone r m c) q = getRoute c q) ∧
    (pageDone r m c).pool = c.pool ∧ (pageDone r m c).store = c.store := by
  unfold pageDone
  refine ⟨fun q hq => ?_, by simp [setRoute], by simp [setRoute]⟩
  rw [getRoute_setRoute_ne hq]
  exact getRoute_congr (queueEvent_routes (e := .pageDone ..) (fun _ _ h => nomatch h) (fun h => nomatch h) c) q

theorem pagesDone_pageDone {r : Nat} {m : Mark} {c : Chip} (h : r < c.routes.length) :
    (getRoute (pageDone r m c) r).pagesDone = min 65535 ((getRoute c r).pagesDone + 1) := by
  unfold pageDone
  dsimp only
  rw [getRoute_setRoute_self (by rw [queueEvent_length]; exact h),
    getRoute_congr (queueEvent_routes (e := .pageDone ..) (fun _ _ h => nomatch h) (fun h => nomatch h) c)]

theorem serveMark_moves {r : Nat} {z : Ctx} {k : Mark} {q : List Entry} {c : Chip} (h : ctxOf c r = some z) (hprints : Prints z)
    (hq : z.printQ = .mark k :: q) (habsent : hasMark k.tag q = false) :
    ∃ moved kept lq, z.hold = moved ++ kept ∧
      ctxOf (serveMark .print r id c) r = some { z with printQ := q ++ moved, linkQ := lq, storeQ := putMark k z.storeQ, hold := kept } ∧
      stuck z.sinks (q ++ moved) lq kept ∧ (Sink.link ∈ z.sinks → 40 ≤ z.linkQ.length → moved = []) ∧
      (∀ n, n ≠ r → getRoute (serveMark .print r id c) n = getRoute c n) ∧ (serveMark .print r id c).store = c.store ∧
      (moved = [] → (serveMark .print r id c).pool = c.pool) ∧
      (z.sinks = [.print] → (getRoute (serveMark .print r id c) r).pagesDone = min 65535 ((getRoute c r).pagesDone + 1)) := by
  let left := modCtx r (leaveMark .print k q) c
  let served := if (z.sinks.filter (· ≠ .print)).any (fun j => hasMark k.tag (z.queue j)) then left else pageDone r k left
  have hserve : serveMark .print r id c = settleHold r served := serveMark_of_mark (k := .print) h hq id
  have hleft : ctxOf left r = some { z with printQ := q, linkQ := putMark k z.linkQ, storeQ := putMark k z.storeQ } := by
    refine (ctxOf_modCtx_self r _ c).trans ?_
    rw [h, Option.map_some]
    show some { z with printQ := putMark k q, linkQ := putMark k z.linkQ, storeQ := putMark k z.storeQ } = _
    rw [putMark_of_absent habsent]
  obtain ⟨hdone, hdonePool, hdoneStore⟩ := getRoute_pageDone r k left
  have hserved : ctxOf served r = ctxOf left r ∧ (∀ n, n ≠ r → getRoute served n = getRoute c n) ∧ served.store = c.store ∧
      served.pool = c.pool := by
    have hothers : ∀ n, n ≠ r → getRoute left n = getRoute c n := fun n hn => getRoute_modCtx_ne hn _ c
    unfold served
    split
    · exact ⟨rfl, hothers, by simp [left], by simp [left]⟩
    · exact ⟨ctxOf_pageDone r r k left, fun n hn => (hdone n hn).trans (hothers n hn), hdoneStore.trans (by simp [left]),
        hdonePool.trans (by simp [left])⟩
  obtain ⟨hctx, hothers, hstore, hpool⟩ := hserved
  obtain ⟨moved, kept, lq, hhold, hmoved, hstuck, hfull, hkept⟩ := settleHold_moves (hctx.trans hleft)
    ⟨hprints.print, hprints.store, hprints.nodup⟩
  have hone := settleHold_oneRoute r served
  rw [hserve]
  refine ⟨moved, kept, lq, hhold, hmoved, hstuck, fun hlink hlen => (hfull hlink (by simpa [putMark] using hlen)).1,
    fun n hn => (hone.others n hn).trans (hothers n hn), hone.store.trans hstore, fun hnone => (hkept hnone).trans hpool, fun halone => ?_⟩
  have hlast : served = pageDone r k left := if_neg (by rw [halone]; simp)
  have hlen : r < left.routes.length := by rw [modCtx_length]; exact lt_of_ctxOf h
  rw [hone.pages, hlast, pagesDone_pageDone hlen, (modCtx_oneRoute r _ c).pages]

/-! ## The print queue drained -/

/-- The line whose burn has begun is done with (R23). -/
def headDropped (r : Nat) (c : Chip) : Chip :=
  endCut (if 0 < c.head.burns then dropHead .print r { c with head := { c.head with burns := 0 } } else c)

/-- A mark at the head of the print queue is served (R23). -/
def markServed (r : Nat) (c : Chip) : Chip :=
  match ctxOf c r with
  | some x => match x.printQ with | .mark _ :: _ => servePrintMark r c | _ => c
  | none => c

/-- A print queue without a mark at its head. -/
def unmarked : List Entry → List Entry
  | .mark _ :: tail => tail
  | q => q

/-- The queue without the line whose burn has begun. -/
def Unburned (r : Nat) (x : Ctx) (rest : List Entry) (c : Chip) : Prop :=
  (c.head.burns = 0 ∧ x.printQ = rest) ∨
    (0 < c.head.burns ∧ ∃ e0 refs l, x.printQ = .line e0 :: rest ∧ slotAt c e0.slot = .held r refs l)

section
variable {r : Nat} {x : Ctx} {rest : List Entry} {c : Chip}

theorem headDropped_idle (h : c.head.burns = 0) : headDropped r c = endCut c := by
  unfold headDropped; rw [if_neg (by omega)]

theorem headDropped_burning (h : 0 < c.head.burns) :
    headDropped r c = endCut (dropHead .print r { c with head := { c.head with burns := 0 } }) := by
  unfold headDropped; rw [if_pos h]

theorem headDropped_moves (h : ctxOf c r = some x) (hprints : Prints x) (hrest : Unburned r x rest c) :
    ∃ moved kept lq g, x.hold = moved ++ kept ∧ ctxOf (headDropped r c) r = some (drained (rest ++ moved) lq x.storeQ kept g x) ∧
      (rest = x.printQ → moved = [] ∧ (headDropped r c).pool = c.pool) ∧ (rest ≠ x.printQ → stuck x.sinks (rest ++ moved) lq kept) ∧
      (Sink.link ∈ x.sinks → 40 ≤ x.linkQ.length → moved = [] ∧ lq = x.linkQ) ∧ OneRoute r c (headDropped r c) ∧
      (∀ e0 refs l, 0 < c.head.burns → x.printQ = .line e0 :: rest → slotAt c e0.slot = .held r refs l → x.hold = [] →
        slotAt (headDropped r c) e0.slot = (if refs ≤ 1 then .free else .held r (refs - 1) l) ∧
          ∀ k, k ≠ e0.slot → slotAt (headDropped r c) k = slotAt c k) := by
  rcases hrest with ⟨hburns, hq⟩ | ⟨hburns, e0, refs, l, hq, hslot⟩
  · rw [headDropped_idle hburns]
    refine ⟨[], x.hold, x.linkQ, x.creditGranted, rfl, ?_, fun _ => ⟨rfl, rfl⟩, fun k => absurd hq.symm k, fun _ _ => ⟨rfl, rfl⟩,
      .of_routes rfl rfl, fun _ _ _ k => by omega⟩
    rw [List.append_nil, ← hq]
    exact h
  · rw [headDropped_burning hburns]
    obtain ⟨moved, kept, lq, g, hhold, hctx, hstuck, hfull, hone, hslots⟩ :=
      dropHead_moves (c := { c with head := { c.head with burns := 0 } }) h hprints hq hslot
    have hne : rest ≠ x.printQ := by
      intro k
      rw [hq] at k
      exact absurd (congrArg List.length k) (by simp)
    refine ⟨moved, kept, lq, g, hhold, hctx, fun k => absurd k hne, fun _ => hstuck, hfull, ?_, fun e refs' l' _ hq' hslot' hnone => ?_⟩
    · exact ((OneRoute.of_routes (c := c) (t := { c with head := { c.head with burns := 0 } }) rfl rfl).trans hone).trans (.of_routes rfl rfl)
    · obtain rfl : e = e0 := by rw [hq] at hq'; cases hq'; rfl
      rw [hslot] at hslot'
      cases hslot'
      exact hslots hnone

/-- The indications that the mark of a printed page takes back (R80). -/
def reportsTaken (c : Chip) : Chip :=
  { c with head := { c.head with heatReported := false }, printCh := { c.printCh with rateReported := false } }

theorem servePrintMark_parts (r : Nat) (c : Chip) : (servePrintMark r c).routes = (serveMark .print r id (reportsTaken c)).routes ∧
    (servePrintMark r c).pool = (serveMark .print r id (reportsTaken c)).pool ∧
    (servePrintMark r c).store = (serveMark .print r id (reportsTaken c)).store := by
  obtain ⟨_, _, hload⟩ := refreshLoad_eq (serveMark .print r id (reportsTaken c))
  rw [show servePrintMark r c = refreshLoad (serveMark .print r id (reportsTaken c)) from rfl, hload]
  exact ⟨rfl, rfl, rfl⟩

theorem markServed_unmarked (h : ctxOf c r = some x) (hq : ∀ k q, x.printQ ≠ .mark k :: q) : markServed r c = c := by
  unfold markServed
  rw [h]
  dsimp only
  split
  next k q hmark => exact absurd hmark (hq k q)
  · rfl

theorem markServed_mark {k : Mark} {q : List Entry} (h : ctxOf c r = some x) (hq : x.printQ = .mark k :: q) :
    markServed r c = servePrintMark r c := by
  unfold markServed
  rw [h]
  dsimp only
  rw [hq]

end

section
variable {r : Nat} {x : Ctx} {rest : List Entry} {c : Chip}

/-- A short print queue lets nothing out of the hold: another queue is full. -/
theorem hold_waits (hprints : Prints x) (hwait : x.hold ≠ [] → hasRoom x = false) (hshort : x.printQ.length < 40) :
    x.hold = [] ∨ Sink.link ∈ x.sinks ∧ 40 ≤ x.linkQ.length := by
  by_cases hnone : x.hold = []
  · exact .inl hnone
  · exact .inr (((hasRoom_false hprints).1 (hwait hnone)).resolve_left (Nat.not_le.2 hshort))

theorem Unburned.length (h : Unburned r x rest c) : x.printQ.length ≤ rest.length + 1 := by
  rcases h with ⟨-, hq⟩ | ⟨-, e0, refs, l, hq, -⟩ <;> rw [hq] <;> simp

theorem unmarked_length (q : List Entry) : q.length ≤ (unmarked q).length + 1 := by
  unfold unmarked
  split <;> simp

theorem unmarked_of_mark {k : Mark} {q : List Entry} : unmarked (.mark k :: q) = q := rfl

theorem unmarked_self (h : ∀ k q, rest ≠ .mark k :: q) : unmarked rest = rest := by
  unfold unmarked
  split
  next k q => exact absurd rfl (h k q)
  · rfl

/-- The print queue drained (R23): the burning line and a mark at its head gone, and the hold moved up as far as it can. -/
theorem queue_drains (h : ctxOf c r = some x) (hprints : Prints x) (hrest : Unburned r x rest c) (hwait : x.hold ≠ [] → hasRoom x = false)
    (hmark : ∀ k tail, rest = .mark k :: tail → hasMark k.tag (tail ++ x.hold) = false) :
    ∃ moved kept lq sq g, x.hold = moved ++ kept ∧
      ctxOf (markServed r (headDropped r c)) r = some (drained (unmarked rest ++ moved) lq sq kept g x) ∧
      (unmarked rest = x.printQ → moved = [] ∧ (markServed r (headDropped r c)).pool = c.pool) ∧
      (unmarked rest ≠ x.printQ → stuck x.sinks (unmarked rest ++ moved) lq kept) ∧ (unmarked rest = [] → moved = []) ∧
      (∀ n, n ≠ r → getRoute (markServed r (headDropped r c)) n = getRoute c n) ∧ (markServed r (headDropped r c)).store = c.store ∧
      (∀ e0 refs l, 0 < c.head.burns → x.printQ = .line e0 :: rest → slotAt c e0.slot = .held r refs l → x.hold = [] →
        slotAt (markServed r (headDropped r c)) e0.slot = (if refs ≤ 1 then .free else .held r (refs - 1) l) ∧
          ∀ k, k ≠ e0.slot → slotAt (markServed r (headDropped r c)) k = slotAt c k) ∧
      (∀ k tail, rest = .mark k :: tail → x.sinks = [.print] →
        (getRoute (markServed r (headDropped r c)) r).pagesDone = min 65535 ((getRoute c r).pagesDone + 1)) := by
  obtain ⟨moved, kept, lq, g, hhold, hctx, hsame, hstuck, hfull, hone, hslots⟩ := headDropped_moves h hprints hrest
  by_cases hmarked : ∃ k tail, rest = .mark k :: tail
  · obtain ⟨k, tail, rfl⟩ := hmarked
    have htags := hmark k tail rfl
    have habsent : hasMark k.tag (tail ++ moved) = false := by
      rw [hhold] at htags
      unfold hasMark at htags ⊢
      rw [List.any_append, List.any_append, Bool.or_eq_false_iff, Bool.or_eq_false_iff] at htags
      rw [List.any_append, htags.1, htags.2.1]
      rfl
    have hserve : markServed r (headDropped r c) = servePrintMark r (headDropped r c) := markServed_mark hctx (q := tail ++ moved) rfl
    obtain ⟨moved', kept', lq', hkept, hctx', hstuck', hfull', hothers, hstore, hpool, hpages⟩ :=
      serveMark_moves (c := reportsTaken (headDropped r c)) hctx ⟨hprints.print, hprints.store, hprints.nodup⟩ (q := tail ++ moved) rfl habsent
    obtain ⟨hroutes, hservedPool, hservedStore⟩ := servePrintMark_parts r (headDropped r c)
    rw [hserve, unmarked_of_mark]
    have hnone : tail = [] → moved = [] ∧ moved' = [] := by
      rintro rfl
      rcases hold_waits hprints hwait (hrest.length.trans_lt (by simp)) with hempty | ⟨hlink, hlen⟩
      · have hparts := List.append_eq_nil_iff.1 (hhold.symm.trans hempty)
        exact ⟨hparts.1, (List.append_eq_nil_iff.1 (hkept.symm.trans hparts.2)).1⟩
      · obtain ⟨hmoved, hlq⟩ := hfull hlink hlen
        exact ⟨hmoved, hfull' hlink (by rw [show (drained _ lq x.storeQ kept g x).linkQ = lq from rfl, hlq]; exact hlen)⟩
    refine ⟨moved ++ moved', kept', lq', putMark k x.storeQ, g, by rw [hhold, List.append_assoc]; exact congrArg _ hkept, ?_, fun k => ?_, fun _ => ?_,
      fun k => by rw [(hnone k).1, (hnone k).2]; rfl, fun n hn => ?_, ?_, fun e0 refs l hburns hq hslot hempty => ?_, fun k' tail' hq halone => ?_⟩
    · rw [ctxOf_congr hroutes, hctx', ← List.append_assoc]
      rfl
    · rcases hrest with ⟨-, hq⟩ | ⟨-, e0, refs, l, hq, -⟩
      · exact absurd (congrArg List.length (k.trans hq)) (by simp)
      · exact absurd (congrArg List.length (k.trans hq)) (by simp only [List.length_cons]; omega)
    · rw [← List.append_assoc]
      exact hstuck'
    · rw [getRoute_congr hroutes, hothers n hn]
      exact hone.others n hn
    · exact hservedStore.trans (hstore.trans hone.store)
    · have hparts := List.append_eq_nil_iff.1 (hhold.symm.trans hempty)
      have hmoved' : moved' = [] := (List.append_eq_nil_iff.1 (hkept.symm.trans hparts.2)).1
      obtain ⟨hself, hne⟩ := hslots e0 refs l hburns hq hslot hempty
      have hat (n : Nat) : slotAt (servePrintMark r (headDropped r c)) n = slotAt (headDropped r c) n :=
        slotAt_congr (hservedPool.trans (hpool hmoved')) n
      exact ⟨(hat _).trans hself, fun k hk => (hat k).trans (hne k hk)⟩
    · rw [getRoute_congr hroutes, hpages halone]
      exact congrArg (fun n => min 65535 (n + 1)) hone.pages
  · have hno : ∀ k q, rest ≠ .mark k :: q := fun k q hq => hmarked ⟨k, q, hq⟩
    have hnone : rest = [] → moved = [] := by
      rintro rfl
      rcases hold_waits hprints hwait (hrest.length.trans_lt (by simp)) with hempty | ⟨hlink, hlen⟩
      · exact (List.append_eq_nil_iff.1 (hhold.symm.trans hempty)).1
      · exact (hfull hlink hlen).1
    have hserve : markServed r (headDropped r c) = headDropped r c := by
      refine markServed_unmarked hctx fun k q hq => ?_
      have hq : rest ++ moved = .mark k :: q := hq
      cases rest with
      | nil => rw [hnone rfl] at hq; cases hq
      | cons e more => cases hq; exact hno k more rfl
    rw [hserve, unmarked_self hno]
    exact ⟨moved, kept, lq, x.storeQ, g, hhold, hctx, hsame, hstuck, hnone, hone.others, hone.store, hslots,
      fun k tail hq => absurd hq (hno k tail)⟩

end

/-! ## A page id that no page has (R105) -/

theorem nextPageId_iterate {n : Nat} (hn : n ≤ 65534) {i : Nat} (hi : i ≤ 65534) :
    nextPageId^[i] n = if n + i ≤ 65534 then n + i else n + i - 65534 := by
  induction i with
  | zero => simp [hn]
  | succ i ih =>
    rw [Function.iterate_succ_apply', ih (by omega), nextPageId]
    split <;> split <;> split <;> omega

theorem nextPageId_injective (n : Nat) {i j : Nat} (hi : i ≤ 48) (hj : j ≤ 48) (h : nextPageId^[i] n = nextPageId^[j] n) : i = j := by
  by_cases hn : n ≤ 65534
  · rw [nextPageId_iterate hn (by omega), nextPageId_iterate hn (by omega)] at h
    split at h <;> split at h <;> omega
  · have hone (k : Nat) (hk : k ≤ 47) : nextPageId^[k + 1] n = k + 1 := by
      rw [Function.iterate_succ_apply, show nextPageId n = 1 by unfold nextPageId; exact if_pos (by omega),
        nextPageId_iterate (by omega) (by omega), if_pos (by omega)]
      omega
    cases i with
    | zero =>
      cases j with
      | zero => rfl
      | succ j => rw [hone j (by omega)] at h; simp at h; omega
    | succ i =>
      cases j with
      | zero => rw [hone i (by omega)] at h; simp at h; omega
      | succ j => rw [hone i (by omega), hone j (by omega)] at h; exact h

/-- The id found is free, or every id looked at is taken. -/
theorem freePageId_free (c : Chip) (fuel n : Nat) : pageOf c (freePageId c fuel n) = none ∨
    ∀ i, i < fuel → (pageOf c (nextPageId^[i] n)).isSome = true := by
  induction fuel generalizing n with
  | zero => exact .inr fun i hi => absurd hi (Nat.not_lt_zero i)
  | succ fuel ih =>
    unfold freePageId
    split
    next htaken =>
      refine (ih (nextPageId n)).imp_right fun htail i hi => ?_
      cases i with
      | zero => exact htaken
      | succ i => rw [Function.iterate_succ_apply]; exact htail i (by omega)
    next hfree => exact .inl (Option.not_isSome_iff_eq_none.1 hfree)

theorem pageOf_freePageId {c : Chip} (h : c.store.dir.length < 48) (n : Nat) : pageOf c (freePageId c 49 n) = none := by
  rcases freePageId_free c 49 n with hfree | htaken
  · exact hfree
  · exfalso
    have hnodup : ((List.range 49).map fun i => nextPageId^[i] n).Nodup := by
      refine List.Nodup.map_on (fun i hi j hj hij => ?_) List.nodup_range
      rw [List.mem_range] at hi hj
      exact nextPageId_injective n (by omega) (by omega) hij
    have hsubset : ((List.range 49).map fun i => nextPageId^[i] n) ⊆ c.store.dir.map Page.id := by
      intro m hm
      obtain ⟨i, hi, rfl⟩ := List.mem_map.1 hm
      obtain ⟨pg, hpg⟩ := Option.isSome_iff_exists.1 (htaken i (List.mem_range.1 hi))
      exact List.mem_map.2 ⟨pg, List.mem_of_find?_eq_some hpg, pageOf_id hpg⟩
    have hlen := (List.subperm_of_subset hnodup hsubset).length_le
    simp only [List.length_map, List.length_range] at hlen
    omega

/-! ## The page created (R110, R23) -/

section
variable {r : Nat} {x : Ctx} {c : Chip}

/-- The page that a store sink creates. -/
def createdPage (id : Nat) (start : Option Nat) (sp : StoreParams) (x : Ctx) (c : Chip) : Page :=
  { id := id, writing := true, origin := sp.origin, truncated := false, interrupted := false, isPartial := start.isSome, lines := 0,
    steps := x.steps, creation := c.store.nextCreation, blocks := [], label := sp.label, partialStart := start }

theorem createPage_creates {sp : StoreParams} (h : ctxOf c r = some x) (hsp : x.storeP = some sp) (start : Option Nat) :
    ∃ id nextId nextCreation, (c.store.dir.length < 48 → pageOf c id = none) ∧
      createPage r start c = modCtx r (fun x => { x with storePage := some id })
        { c with store := { c.store with dir := c.store.dir ++ [createdPage id start sp x c], nextId := nextId, nextCreation := nextCreation } } := by
  refine ⟨freePageId c 49 c.store.nextId, nextPageId (freePageId c 49 c.store.nextId), c.store.nextCreation + 1, fun hdir => pageOf_freePageId hdir _, ?_⟩
  unfold createPage
  rw [h]
  dsimp only
  rw [hsp]
  rfl

theorem pageOf_created {id : Nat} {pg : Page} (hid : pg.id = id) (hfree : pageOf c id = none) (nextId nextCreation : Nat) :
    pageOf { c with store := { c.store with dir := c.store.dir ++ [pg], nextId := nextId, nextCreation := nextCreation } } id = some pg := by
  show (c.store.dir ++ [pg]).find? _ = some pg
  rw [List.find?_append, show c.store.dir.find? (fun p => p.id == id) = none from hfree]
  simp [hid]

/-! ## The print queue on the store sink (R23) -/

/-- PRINT is given up, its queue and its parameters the store sink's. -/
def printReleased (r : Nat) (sp : StoreParams) (c : Chip) : Chip := releasePrint (modCtx r (moveToStore sp) c)

/-- The page of the first line, where a line is first. -/
def pageStarted (r : Nat) (c : Chip) : Chip :=
  match ctxOf c r with
  | some x => match x.storeQ with
    | .line e :: _ => createPage r (some e.num) (modCtx r markPartial c)
    | _ => c
  | none => c

theorem acceptRedirect_eq (r : Nat) (sp : StoreParams) (c : Chip) : acceptRedirect r sp c =
    settle r (pageStarted r (printReleased r sp (markServed r (headDropped r c)))) := by
  unfold acceptRedirect headDropped
  rfl

theorem releasePrint_parts (c : Chip) : (releasePrint c).routes = c.routes ∧ (releasePrint c).pool = c.pool ∧
    (releasePrint c).store = c.store ∧ (releasePrint c).head.route = none := by
  unfold releasePrint releaseHead dropHeadUse headContentLost
  dsimp only
  split
  · split <;> exact ⟨rfl, rfl, rfl, rfl⟩
  · exact ⟨rfl, rfl, rfl, rfl⟩

theorem ctxOf_printReleased (h : ctxOf c r = some x) (sp : StoreParams) : ctxOf (printReleased r sp c) r = some (moveToStore sp x) := by
  unfold printReleased
  rw [ctxOf_congr (releasePrint_parts _).1, ctxOf_modCtx_self, h, Option.map_some]

theorem printReleased_frame (r : Nat) (sp : StoreParams) (c : Chip) : OneRoute r c (printReleased r sp c) ∧
    (printReleased r sp c).pool = c.pool ∧ (printReleased r sp c).head.route = none := by
  obtain ⟨hroutes, hpool, hstore, hhead⟩ := releasePrint_parts (modCtx r (moveToStore sp) c)
  exact ⟨(modCtx_oneRoute r _ c).trans (.of_routes hroutes hstore), hpool.trans (by simp), hhead⟩

theorem pageStarted_none (h : ctxOf c r = some x) (hq : ∀ e tail, x.storeQ ≠ .line e :: tail) : pageStarted r c = c := by
  unfold pageStarted
  rw [h]
  dsimp only
  split
  next e tail hline => exact absurd hline (hq e tail)
  · rfl

/-- The mark that a REDIRECT makes PARTIAL, in one of the queues. -/
def partly (q q' : List Entry) : List Entry := match firstMark q with | some k => putMark k q' | none => q'

theorem markPartial_queues (x : Ctx) : (markPartial x).storeQ = partly (x.storeQ ++ x.hold) x.storeQ ∧
    (markPartial x).hold = partly (x.storeQ ++ x.hold) x.hold ∧
    (firstMark (x.storeQ ++ x.hold) = none → (markPartial x).partialNext = true) ∧ (markPartial x).sinks = x.sinks ∧
    (markPartial x).steps = x.steps ∧ (markPartial x).storeP = x.storeP ∧ (markPartial x).full = x.full ∧
    (markPartial x).linkQ.length = x.linkQ.length := by
  unfold markPartial partly
  cases firstMark (x.storeQ ++ x.hold) with
  | none => exact ⟨rfl, rfl, fun _ => rfl, rfl, rfl, rfl, rfl, rfl⟩
  | some k => exact ⟨rfl, rfl, nofun, rfl, rfl, rfl, rfl, by simp [putMark]⟩

theorem partly_length (q q' : List Entry) : (partly q q').length = q'.length := by
  unfold partly
  split <;> simp [putMark]

theorem partly_line (q tail : List Entry) (e : LineEntry) : partly q (.line e :: tail) = .line e :: partly q tail := by
  unfold partly
  split <;> simp [putMark]

theorem pageStarted_creates {e : LineEntry} {tail : List Entry} {sp : StoreParams} (h : ctxOf c r = some x) (hq : x.storeQ = .line e :: tail)
    (hsp : x.storeP = some sp) : ∃ id pg, ctxOf (pageStarted r c) r = some { markPartial x with storePage := some id } ∧
      (pageStarted r c).store.dir = c.store.dir ++ [pg] ∧ pg = createdPage id (some e.num) sp x c ∧
      (c.store.dir.length < 48 → pageOf (pageStarted r c) id = some pg) ∧
      (pageStarted r c).store.work = c.store.work ∧ (pageStarted r c).store.reloc = c.store.reloc ∧
      (pageStarted r c).store.erasedList = c.store.erasedList ∧ (pageStarted r c).pool = c.pool ∧
      (∀ n, n ≠ r → getRoute (pageStarted r c) n = getRoute c n) ∧ (getRoute (pageStarted r c) r).pagesDone = (getRoute c r).pagesDone := by
  have hstart : pageStarted r c = createPage r (some e.num) (modCtx r markPartial c) := by
    unfold pageStarted
    rw [h]
    dsimp only
    rw [hq]
  have hmarked : ctxOf (modCtx r markPartial c) r = some (markPartial x) := by rw [ctxOf_modCtx_self, h, Option.map_some]
  obtain ⟨-, -, -, -, hsteps, hparams, -, -⟩ := markPartial_queues x
  obtain ⟨id, nextId, nextCreation, hfree, hcreate⟩ := createPage_creates hmarked (hparams.trans hsp) (some e.num)
  have hstore : (modCtx r markPartial c).store = c.store := by simp
  have hpage : createdPage id (some e.num) sp (markPartial x) (modCtx r markPartial c) = createdPage id (some e.num) sp x c := by
    unfold createdPage
    rw [hsteps, hstore]
  rw [hpage, hstore] at hcreate
  rw [hstart, hcreate]
  have hone := modCtx_oneRoute r (fun x => { x with storePage := some id }) { modCtx r markPartial c with
    store := { c.store with dir := c.store.dir ++ [createdPage id (some e.num) sp x c], nextId := nextId, nextCreation := nextCreation } }
  have hbefore := modCtx_oneRoute r markPartial c
  refine ⟨id, createdPage id (some e.num) sp x c, ?_, ?_, rfl, fun hdir => ?_, ?_, ?_, ?_, ?_, fun n hn => ?_, ?_⟩
  · exact (ctxOf_modCtx_self r _ _).trans (congrArg (Option.map _) hmarked)
  · rw [hone.store]
  · have hnone : pageOf c id = none := (pageOf_congr (congrArg Store.dir hstore) id).symm.trans (hfree (by rw [hstore]; exact hdir))
    rw [pageOf_congr (congrArg Store.dir hone.store)]
    exact pageOf_created (pg := createdPage id (some e.num) sp x c) rfl hnone nextId nextCreation
  · rw [hone.store]
  · rw [hone.store]
  · rw [hone.store]
  · rw [(modCtx_frame ..).2.1]; exact (modCtx_frame ..).2.1
  · rw [hone.others n hn]; exact hbefore.others n hn
  · rw [hone.pages]; exact hbefore.pages

end

/-! ## The store takes the first entry (R96, R110) -/

section
variable {r id : Nat} {x : Ctx} {e : LineEntry} {tail : List Entry} {pg : Page} {c : Chip}

theorem takeEntry_line (h : ctxOf c r = some x) (hq : x.storeQ = .line e :: tail) (hpage : x.storePage = some id) :
    ∃ coded lane, takeEntry r c = placeWork r (entrySize coded)
      (setWork (some ⟨some r, some id, .line e coded, false⟩) { c with store := { c.store with lane := lane } }) := by
  unfold takeEntry
  rw [h]
  dsimp only
  rw [hq, hpage]
  exact ⟨_, _, rfl⟩

theorem placeWork_empty {w : Work} {size : Nat} (hw : c.store.work = some w) (hpage : w.page = some id) (hpg : pageOf c id = some pg)
    (hblocks : pg.blocks = []) : placeWork r size c = tryClaim r c := by
  have hbind : w.page.bind (pageOf c) = some pg := by rw [hpage]; exact hpg
  have hlast : lastBlock pg = none := by rw [lastBlock, hblocks]; rfl
  unfold placeWork
  rw [hw]
  dsimp only
  rw [hbind]
  dsimp only
  rw [hlast]

/-- The first entry of a page with no block yet: a block is claimed for it, and the queue stands. -/
theorem takeEntry_claims (h : ctxOf c r = some x) (hq : x.storeQ = .line e :: tail) (hpage : x.storePage = some id)
    (hpg : pageOf c id = some pg) (hblocks : pg.blocks = []) (hreloc : c.store.reloc = none) (hlist : c.store.erasedList ≠ []) :
    ctxOf (takeEntry r c) r = some { x with stalls := x.stalls.filter (· ≠ .storeWait) } ∧ (takeEntry r c).store.work.isSome = true := by
  obtain ⟨coded, lane, htake⟩ := takeEntry_line h hq hpage
  obtain ⟨b, more, hmore⟩ := List.exists_cons_of_ne_nil hlist
  have hasks := tryClaim_asks (r := r) (c := setWork (some ⟨some r, some id, .line e coded, false⟩) { c with store := { c.store with lane := lane } })
    (b := b) (more := more) (pg := pg) rfl rfl hpg hreloc (by rw [hblocks]; decide) hmore
  rw [htake, placeWork_empty (pg := pg) (id := id) rfl rfl (by exact hpg) hblocks, hasks]
  refine ⟨?_, by simp [claimTaken_frame]⟩
  rw [ctxOf_congr (askProgram_frame _ _).2.2.1, ctxOf_claimTaken, ctxOf_claimAsked]
  exact congrArg (Option.map _) h

theorem storeLoop_works {n : Nat} (h : ctxOf c r = some x) (hq : x.storeQ ≠ []) (hfull : x.full = none) (hwork : c.store.work.isSome = true) :
    storeLoop r n c = c := by
  cases n with
  | zero => rfl
  | succ n =>
    unfold storeLoop
    rw [h]
    dsimp only
    rw [if_neg (by simpa using hq), if_neg (by simp [hfull]), if_pos hwork]

theorem storeLoop_takes {n : Nat} (h : ctxOf c r = some x) (hq : x.storeQ ≠ []) (hfull : x.full = none) (hwork : c.store.work = none) :
    storeLoop r (n + 1) c = storeLoop r n (takeEntry r c) := by
  conv_lhs => unfold storeLoop
  rw [h]
  dsimp only
  rw [if_neg (by simpa using hq), if_neg (by simp [hfull]), if_neg (by simp [hwork])]

theorem fillLane_routes (r : Nat) (c : Chip) : (fillLane r c).routes = c.routes := by
  unfold fillLane
  split
  · rfl
  · dsimp only
    split
    · rfl
    · split <;> rfl

/-- What follows at once from a page that has just been created for a waiting line. -/
theorem settle_takes (h : ctxOf c r = some x) (hsink : Sink.store ∈ x.sinks) (hq : x.storeQ = .line e :: tail) (hpage : x.storePage = some id)
    (hpg : pageOf c id = some pg) (hblocks : pg.blocks = []) (hwork : c.store.work = none) (hreloc : c.store.reloc = none)
    (hfull : x.full = none) (hlist : c.store.erasedList ≠ []) :
    ctxOf (settle r c) r = some { x with stalls := x.stalls.filter (· ≠ .storeWait) } := by
  obtain ⟨hctx, hworking⟩ := takeEntry_claims h hq hpage hpg hblocks hreloc hlist
  have hloop : storeLoop r (storeFuel x) c = takeEntry r c := by
    rw [show storeFuel x = x.storeQ.length + x.hold.length + 1 + 1 from rfl, storeLoop_takes h (by simp [hq]) hfull hwork,
      storeLoop_works hctx (by simp [hq]) hfull hworking]
  have hstored : ctxOf (storePump r c) r = some { x with stalls := x.stalls.filter (· ≠ .storeWait) } := by
    unfold storePump
    rw [h]
    dsimp only
    rw [if_pos (List.contains_iff_mem.2 hsink), hloop, ctxOf_congr (fillLane_routes ..), hctx]
  have hload : (refreshLoad (linkPump (storePump r c))).routes = (linkPump (storePump r c)).routes := by
    obtain ⟨_, _, hl⟩ := refreshLoad_eq (linkPump (storePump r c))
    rw [hl]
  have hready : ctxOf (refreshLoad (linkPump (storePump r c))) r = some { x with stalls := x.stalls.filter (· ≠ .storeWait) } := by
    rw [ctxOf_congr (hload.trans (linkPump_parts _).1), hstored]
  show ctxOf (closeIfEmpty r (refreshLoad (linkPump (storePump r c)))) r = _
  unfold closeIfEmpty
  rw [hready]
  dsimp only
  rw [if_neg (by simp [routeEmpty, hq]), hready]

end

/-! ## A REDIRECT that passes its checks -/

section
variable {r : Nat} {x : Ctx} {sp : StoreParams} {c : Chip}

/-- What the checks of R23 leave. -/
theorem redirectCheck_none (h : redirectCheck r sp c = none) : routeOfSink c .store = none ∧ c.store.dir.length < 48 := by
  unfold redirectCheck at h
  split at h
  · cases h
  · split at h
    · cases h
    · split at h
      · cases h
      next hsink =>
        split at h
        · cases h
        · split at h
          · cases h
          next hdir => exact ⟨Option.not_isSome_iff_eq_none.1 hsink, Nat.not_le.1 hdir⟩

theorem not_mem_of_routeOfSink {k : Sink} (h : routeOfSink c k = none) (hr : r ≤ 3) (hx : ctxOf c r = some x) : k ∉ x.sinks := by
  intro hk
  have hempty : routesWhere c (fun x => x.sinks.contains k) = [] := List.head?_eq_none_iff.1 h
  have hmem : r ∈ routesWhere c (fun x => x.sinks.contains k) := by
    unfold routesWhere
    refine List.mem_filter.2 ⟨List.mem_range.2 (show r < 4 by omega), ?_⟩
    rw [hx]
    exact List.contains_iff_mem.2 hk
  rw [hempty] at hmem
  cases hmem

/-- The route once its print queue has moved to the store sink, before a page is started. -/
def toStore (sp : StoreParams) (q lq sq kept : List Entry) (g : Option Nat) (x : Ctx) : Ctx := moveToStore sp (drained q lq sq kept g x)

theorem toStore_sinks (q lq sq kept : List Entry) (g : Option Nat) (x : Ctx) (k : Sink) (hk : k ≠ .print) :
    k ∈ (toStore sp q lq sq kept g x).sinks ↔ k ∈ x.sinks ∨ k = .store ∧ Sink.print ∈ x.sinks := by
  show k ∈ x.sinks.map (fun k => if k = .print then .store else k) ↔ _
  rw [List.mem_map]
  constructor
  · rintro ⟨j, hj, rfl⟩
    by_cases hprint : j = .print
    · rw [if_pos hprint]
      exact .inr ⟨rfl, hprint ▸ hj⟩
    · rw [if_neg hprint]
      exact .inl hj
  · rintro (h | ⟨rfl, h⟩)
    · exact ⟨k, h, if_neg hk⟩
    · exact ⟨.print, h, if_pos rfl⟩

/-- A queue that holds the entries back is one of the route's queues after the move, too. -/
theorem full_of_stuck {q lq sq kept : List Entry} {g : Option Nat} {y : Ctx} (h : stuck x.sinks q lq kept) (hprint : Sink.print ∈ x.sinks)
    (hsinks : y.sinks = (toStore sp q lq sq kept g x).sinks) (hstore : y.storeQ.length = q.length) (hlink : y.linkQ.length = lq.length) :
    kept = [] ∨ ∃ k ∈ y.sinks, 40 ≤ (y.queue k).length := by
  rcases h with hnone | hq | ⟨hin, hlq⟩
  · exact .inl hnone
  · refine .inr ⟨.store, ?_, hstore.ge.trans' hq⟩
    rw [hsinks, toStore_sinks _ _ _ _ _ _ _ (by decide)]
    exact .inr ⟨rfl, hprint⟩
  · refine .inr ⟨.link, ?_, hlink.ge.trans' hlq⟩
    rw [hsinks, toStore_sinks _ _ _ _ _ _ _ (by decide)]
    exact .inl hin

/-- The part at a REDIRECT before what follows at once: the route's new context, the page, and what stands (R23). -/
theorem redirect_moves {rest : List Entry} (h : ctxOf c r = some x) (hprints : Prints x) (hdir : c.store.dir.length < 48)
    (hrest : Unburned r x rest c) (hwait : x.hold ≠ [] → hasRoom x = false)
    (hmark : ∀ k tail, rest = .mark k :: tail → hasMark k.tag (tail ++ x.hold) = false) :
    ∃ m y moved kept, acceptRedirect r sp c = settle r m ∧ ctxOf m r = some y ∧ (∀ q, q ≠ r → getRoute m q = getRoute c q) ∧
      x.hold = moved ++ kept ∧ (unmarked rest = x.printQ → moved = [] ∧ m.pool = c.pool) ∧
      (unmarked rest ≠ x.printQ → kept = [] ∨ ∃ k ∈ y.sinks, 40 ≤ (y.queue k).length) ∧
      (∀ e0 refs l, 0 < c.head.burns → x.printQ = .line e0 :: rest → slotAt c e0.slot = .held r refs l → x.hold = [] →
        slotAt m e0.slot = (if refs ≤ 1 then .free else .held r (refs - 1) l) ∧ ∀ k, k ≠ e0.slot → slotAt m k = slotAt c k) ∧
      (∀ e tail, unmarked rest = .line e :: tail →
        y.storeQ = partly (unmarked rest ++ x.hold) (unmarked rest ++ moved) ∧ y.hold = partly (unmarked rest ++ x.hold) kept ∧
        (firstMark (unmarked rest ++ x.hold) = none → y.partialNext = true) ∧
        ∃ id pg, m.store.dir = c.store.dir ++ [pg] ∧ y.storePage = some id ∧ pg = createdPage id (some e.num) sp x c ∧
          (c.store.work = none → c.store.reloc = none → x.full = none → c.store.erasedList ≠ [] →
            ∃ z, ctxOf (settle r m) r = some z ∧ z.storeQ = y.storeQ ∧ z.storePage = y.storePage)) ∧
      ((∀ e tail, unmarked rest ≠ .line e :: tail) →
        y.storeQ = unmarked rest ++ moved ∧ y.hold = kept ∧ y.storePage = x.storePage ∧ m.store.dir = c.store.dir) ∧
      (∀ k tail, rest = .mark k :: tail → x.sinks = [.print] →
        (getRoute m r).pagesDone = min 65535 ((getRoute c r).pagesDone + 1)) := by
  obtain ⟨moved, kept, lq, sq, g, hhold, hctx, hsame, hstuck, hnone, hothers, hstore, hslots, hpages⟩ := queue_drains h hprints hrest hwait hmark
  obtain ⟨hone, hpool, -⟩ := printReleased_frame r sp (markServed r (headDropped r c))
  have hreleased : ctxOf (printReleased r sp (markServed r (headDropped r c))) r = some (toStore sp (unmarked rest ++ moved) lq sq kept g x) :=
    ctxOf_printReleased hctx sp
  have hwhole : unmarked rest ++ x.hold = (unmarked rest ++ moved) ++ kept := by rw [hhold, List.append_assoc]
  by_cases hline : ∃ e tail, unmarked rest = .line e :: tail
  · obtain ⟨e, tail, hfirst⟩ := hline
    obtain ⟨id, pg, hy, hpg, hcreated, hlisted, hwork, hreloc, hlist, hkeptPool, hkeptOthers, hkeptPages⟩ :=
      pageStarted_creates (e := e) (tail := tail ++ moved) (sp := sp) hreleased (congrArg (· ++ moved) hfirst) rfl
    obtain ⟨hq, hkeptHold, hpartial, hsinks, -, -, hfull, hlink⟩ := markPartial_queues (toStore sp (unmarked rest ++ moved) lq sq kept g x)
    have hat := hone.store.trans hstore
    have hq' : (markPartial (toStore sp (unmarked rest ++ moved) lq sq kept g x)).storeQ =
        partly (unmarked rest ++ x.hold) (unmarked rest ++ moved) := by rw [hwhole]; exact hq
    refine ⟨_, _, moved, kept, acceptRedirect_eq r sp c, hy, fun q hq => ?_, hhold, fun k => ?_, fun k => ?_, fun e0 refs l hb hp hs hn => ?_,
      fun e' tail' hfirst' => ?_, fun k => absurd hfirst (k e tail), fun k tail' hk halone => ?_⟩
    · exact (hkeptOthers q hq).trans ((hone.others q hq).trans (hothers q hq))
    · exact ⟨(hsame k).1, (hkeptPool.trans hpool).trans (hsame k).2⟩
    · refine full_of_stuck (g := g) (sp := sp) (hstuck k) hprints.print hsinks ?_ hlink
      exact (congrArg List.length hq').trans (partly_length _ _)
    · obtain ⟨hself, hne⟩ := hslots e0 refs l hb hp hs hn
      exact ⟨(slotAt_congr (hkeptPool.trans hpool) _).trans hself, fun k hk => (slotAt_congr (hkeptPool.trans hpool) k).trans (hne k hk)⟩
    · obtain ⟨rfl, rfl⟩ : e' = e ∧ tail' = tail := by rw [hfirst] at hfirst'; cases hfirst'; exact ⟨rfl, rfl⟩
      refine ⟨hq', ?_, fun k => hpartial (by rw [← k, hwhole]; rfl), id, pg, ?_, rfl, ?_, fun hw hr hf hl => ?_⟩
      · rw [hwhole]; exact hkeptHold
      · rw [hpg, congrArg Store.dir hat]
      · rw [hcreated]
        unfold createdPage
        rw [hat]
        rfl
      · have hstarted : ∃ tail, ({ markPartial (toStore sp (unmarked rest ++ moved) lq sq kept g x) with storePage := some id } : Ctx).storeQ =
            .line e' :: tail := by
          refine ⟨partly (unmarked rest ++ x.hold) (tail' ++ moved), ?_⟩
          rw [← partly_line]
          exact hq'.trans (by rw [hfirst]; rfl)
        obtain ⟨more, hmore⟩ := hstarted
        refine ⟨_, settle_takes (id := id) (pg := pg) hy ?_ hmore rfl (hlisted (by rw [hat]; exact hdir)) (by rw [hcreated]; rfl)
          (hwork.trans (by rw [hat]; exact hw)) (hreloc.trans (by rw [hat]; exact hr)) (hfull.trans hf)
          (by rw [hlist, hat]; exact hl), rfl, rfl⟩
        show Sink.store ∈ (markPartial _).sinks
        rw [hsinks, toStore_sinks _ _ _ _ _ _ _ (by decide)]
        exact .inr ⟨rfl, hprints.print⟩
    · rw [hkeptPages, hone.pages]
      exact hpages k tail' hk halone
  · have hno : ∀ e tail, unmarked rest ≠ .line e :: tail := fun e tail k => hline ⟨e, tail, k⟩
    have hidle : pageStarted r (printReleased r sp (markServed r (headDropped r c))) = printReleased r sp (markServed r (headDropped r c)) := by
      refine pageStarted_none hreleased fun e tail hq => ?_
      have hq : unmarked rest ++ moved = .line e :: tail := hq
      cases hu : unmarked rest with
      | nil => rw [hu, hnone hu] at hq; cases hq
      | cons a more => rw [hu] at hq; cases hq; exact hno e more hu
    refine ⟨_, _, moved, kept, (acceptRedirect_eq r sp c).trans (congrArg (settle r) hidle), hreleased,
      fun q hq => (hone.others q hq).trans (hothers q hq), hhold, fun k => ⟨(hsame k).1, hpool.trans (hsame k).2⟩,
      fun k => full_of_stuck (g := g) (sp := sp) (hstuck k) hprints.print rfl rfl rfl,
      fun e0 refs l hb hp hs hn => ?_, fun e tail k => absurd k (hno e tail), fun _ => ⟨rfl, rfl, rfl, ?_⟩, fun k tail hk halone => ?_⟩
    · obtain ⟨hself, hne⟩ := hslots e0 refs l hb hp hs hn
      exact ⟨(slotAt_congr hpool _).trans hself, fun k hk => (slotAt_congr hpool k).trans (hne k hk)⟩
    · rw [hone.store, hstore]
    · rw [hone.pages]
      exact hpages k tail hk halone

end

/-! ## What every REDIRECT leaves -/

section
variable {r : Nat} {x : Ctx} {sp : StoreParams} {c : Chip}

theorem servePrintMark_onward {w u : Chip} (hu : Onward w u) (r : Nat) : Onward w (servePrintMark r u) := by
  unfold servePrintMark
  exact refreshLoad_onward (serveMark_onward (Onward.update hu) .print r id)

theorem markServed_onward {w u : Chip} (hu : Onward w u) (r : Nat) : Onward w (markServed r u) := by
  unfold markServed
  split
  · split
    · exact servePrintMark_onward hu r
    · exact hu
  · exact hu

theorem headDropped_onward (r : Nat) (c : Chip) : Onward c (headDropped r c) := by
  unfold headDropped endCut
  split
  · exact Onward.update (dropHead_onward (Onward.update .rfl) .print r)
  · exact Onward.update .rfl

/-- A route that has given up PRINT for the store. -/
structure Redirected (sp : StoreParams) (y : Ctx) : Prop where
  print : Sink.print ∉ y.sinks
  store : Sink.store ∈ y.sinks
  printP : y.printP = none
  storeP : y.storeP = some sp
  printQ : y.printQ = []

theorem moveToStore_redirected (hprint : Sink.print ∈ x.sinks) : Redirected sp (moveToStore sp x) := by
  refine ⟨?_, List.mem_map.2 ⟨.print, hprint, if_pos rfl⟩, rfl, rfl, rfl⟩
  intro hin
  obtain ⟨j, -, hj⟩ := List.mem_map.1 hin
  split at hj
  · cases hj
  next hne => exact hne hj

theorem Redirected.continues {y : Ctx} (h : Redirected sp x) (k : Continues x y) : Redirected sp y := by
  have hfixed := k.fixed
  simp only [fixedOf, Prod.mk.injEq] at hfixed
  obtain ⟨-, hsinks, -, -, -, -, -, hprintP, hstoreP, -⟩ := hfixed
  exact ⟨hsinks ▸ h.print, hsinks ▸ h.store, hprintP.trans h.printP, hstoreP.trans h.storeP, k.empty .print h.print h.printQ⟩

theorem createPage_head (r : Nat) (start : Option Nat) (c : Chip) : (createPage r start c).head = c.head := by
  unfold createPage
  split
  · rfl
  · simp

theorem pageStarted_head (r : Nat) (c : Chip) : (pageStarted r c).head = c.head := by
  unfold pageStarted
  split
  · split
    · rw [createPage_head]; simp
    · rfl
  · rfl

theorem pageStarted_redirected {y : Ctx} (h : ∀ x, ctxOf c r = some x → Redirected sp x) (hy : ctxOf (pageStarted r c) r = some y) :
    Redirected sp y := by
  cases hx : ctxOf c r with
  | none =>
    have hidle : pageStarted r c = c := by unfold pageStarted; rw [hx]
    rw [hidle, hx] at hy
    cases hy
  | some x =>
    have hred := h x hx
    by_cases hline : ∃ e tail, x.storeQ = .line e :: tail
    · obtain ⟨e, tail, hq⟩ := hline
      obtain ⟨id, pg, hstarted, -⟩ := pageStarted_creates hx hq hred.storeP
      rw [hstarted] at hy
      cases hy
      obtain ⟨hprint, hstore, hprintP, hstoreP, hprintQ⟩ := hred
      unfold markPartial
      split
      · exact ⟨hprint, hstore, hprintP, hstoreP, by rw [hprintQ]; rfl⟩
      · exact ⟨hprint, hstore, hprintP, hstoreP, hprintQ⟩
    · rw [pageStarted_none hx fun e tail hq => hline ⟨e, tail, hq⟩, hx] at hy
      cases hy
      exact hred

/-- The route before what follows at once. -/
theorem redirect_route {y : Ctx} (h : ctxOf c r = some x) (hprint : Sink.print ∈ x.sinks)
    (hy : ctxOf (pageStarted r (printReleased r sp (markServed r (headDropped r c)))) r = some y) : Redirected sp y := by
  refine pageStarted_redirected (fun v hv => ?_) hy
  have hmoved : ctxOf (printReleased r sp (markServed r (headDropped r c))) r = (ctxOf (markServed r (headDropped r c)) r).map (moveToStore sp) := by
    unfold printReleased
    rw [ctxOf_congr (releasePrint_parts _).1, ctxOf_modCtx_self]
  rw [hmoved] at hv
  obtain ⟨u, hu, rfl⟩ := Option.map_eq_some_iff.1 hv
  obtain ⟨x', hx', hgoes⟩ := (markServed_onward (headDropped_onward r c) r).routes r u hu
  rw [h] at hx'
  cases hx'
  have hfixed := hgoes.fixed
  simp only [fixedOf, Prod.mk.injEq] at hfixed
  exact moveToStore_redirected (hfixed.2.1 ▸ hprint)

theorem acceptRedirect_route {y : Ctx} (h : ctxOf c r = some x) (hprint : Sink.print ∈ x.sinks) (hy : ctxOf (acceptRedirect r sp c) r = some y) :
    Redirected sp y := by
  rw [acceptRedirect_eq] at hy
  obtain ⟨z, hz, hcontinues⟩ := (settle_onward Onward.rfl r).routes r y hy
  exact (redirect_route h hprint hz).continues hcontinues

/-- No route on the page path has PRINT: the head is no route's. -/
theorem acceptRedirect_head (h : ctxOf c r = some x) (hprint : Sink.print ∈ x.sinks) : (acceptRedirect r sp c).head.route = none := by
  let m := pageStarted r (printReleased r sp (markServed r (headDropped r c)))
  have hnone : m.head.route = none := by
    rw [pageStarted_head]
    exact (printReleased_frame r sp _).2.2
  have hattended : Attended (· = r) m (settle r m) := settle_attended .rfl rfl
  have hstill : Head.still (settle r m).head = Head.still m.head := by
    refine (hattended.prints fun n y hy hin hclosed => ?_).1
    have hn : n = r := hattended.closers n (by rw [hy]; exact nofun) hclosed
    subst hn
    exact absurd hin (redirect_route h hprint hy).print
  rw [acceptRedirect_eq]
  exact (congrArg Head.route hstill).trans hnone

end

theorem redirectChip_accepts {p : List Byte} {sp : StoreParams} {x : Ctx} {c : Chip} (hp : 2 ≤ p.length)
    (hparams : readStoreParams (p.drop 2) = some (sp, [])) (hr : numAt p 1 1 ≤ 3) (h : ctxOf c (numAt p 1 1) = some x)
    (hprint : x.sinks.contains .print = true) (hsource : x.source ≠ .store) (hcheck : redirectCheck (numAt p 1 1) sp c = none) :
    redirectChip p c = acceptRedirect (numAt p 1 1) sp (reply p .accepted c) := by
  unfold redirectChip
  rw [if_neg (Nat.not_lt.2 hp), hparams]
  dsimp only
  rw [openRouteOf_some hr h]
  dsimp only
  rw [if_neg (by rw [hprint]; simpa using hsource), hcheck]

/-- Settles O26, by the print queue drained (`queue_drains`), moved to the store sink, and the store's first take (`settle_takes`). -/
theorem redirectMovesThePrintQueue : Obligations.RedirectMovesThePrintQueue := by
  unfold Obligations.RedirectMovesThePrintQueue
  intro p sp r x s htaken hp c hparams hr hr3 h hprint hsource hcheck
  subst hr
  have hexec : exec (.redirect p) s = .next (s.withChip (acceptRedirect (numAt p 1 1) sp (reply p .accepted c))) := by
    rw [exec_owned (i := .redirect p) (f := redirectChip p) rfl htaken (by rintro rfl; simp at hp)]
    exact congrArg (fun d => Host.Outcome.next (s.withChip d)) (redirectChip_accepts hp hparams hr3 h hprint hsource hcheck)
  clear_value c
  obtain ⟨link, hreply⟩ := reply_link p .accepted c
  obtain ⟨hsink, hdir⟩ := redirectCheck_none hcheck
  have hin : Sink.print ∈ x.sinks := List.contains_iff_mem.1 hprint
  have hopen : ctxOf (reply p .accepted c) (numAt p 1 1) = some x := (ctxOf_queueRecord _ _ _).trans h
  constructor
  · refine ⟨_, hexec, acceptRedirect_head hopen hin, (acceptRedirect_kept (reply_kept Kept.rfl p .accepted) _ sp).1, rfl, fun y hy => ?_⟩
    obtain ⟨hout, hstore, hprintP, hstoreP, hprintQ⟩ := acceptRedirect_route hopen hin hy
    exact ⟨hout, hstore, hprintP, hstoreP, hprintQ⟩
  · intro rest hnodup hwait hmark hrest left
    rw [hreply] at hexec
    have hleft : left = unmarked rest := by
      unfold left
      cases rest with
      | nil => rfl
      | cons e more => cases e <;> rfl
    clear_value left
    subst hleft
    obtain ⟨m, y, moved, kept, haccept, hy, hothers, hhold, hsame, hstuck, hslots, hline, hnoline, hpages⟩ :=
      redirect_moves (sp := sp) (c := { c with link := link }) h ⟨hin, not_mem_of_routeOfSink hsink hr3 h, hnodup⟩ hdir hrest hwait hmark
    refine ⟨m, y, moved, kept, hexec.trans (congrArg (fun d => Host.Outcome.next (s.withChip d)) haccept), hy, hothers, hhold, hsame, hstuck, hslots, fun e tail hfirst => ?_, hnoline, hpages⟩
    obtain ⟨hq, hkept, hpartial, id, pg, hlisted, hpage, hcreated, htakes⟩ := hline e tail hfirst
    refine ⟨?_, ?_, hpartial, pg, hlisted, by rw [hpage, hcreated]; rfl, ?_, ?_, ?_, ?_, ?_, ?_, ?_, ?_, ?_, htakes⟩
    · rw [hq]; unfold partly; cases firstMark (unmarked rest ++ x.hold) <;> rfl
    · rw [hkept]; unfold partly; cases firstMark (unmarked rest ++ x.hold) <;> rfl
    all_goals rw [hcreated]; rfl

end Sys2Proof.Proofs
end

section
/-!
PROOFS. The channels through what follows at once from a change (03_motor_timing.md R47, R53; 02_scan_path.md R38): a channel keeps its run
parameters or gives them up with its route, and a stop of the scan source reaches the scan channel in WAITING, PICKING and RUNOUT alone.
-/

-- One declaration after another: the package as one text keeps within the check's limit on threads.
set_option Elab.async false

namespace Sys2Proof.Proofs

open Sys2Proof Sys2Proof.Machine

/-! ## The relation -/

/-- A state of the scan front end in which a close request leaves its source at work (R38). -/
def AtWork (s : ScanState) : Prop := s ≠ .waiting ∧ s ≠ .picking ∧ s ≠ .runout

/-- The channels go on: run parameters kept or given up, and no stop cause on the scan channel of a source at work. -/
structure Goes (c t : Chip) : Prop where
  scanRun : t.scanCh.run = c.scanCh.run ∨ t.scanCh.run = none
  printRun : t.printCh.run = c.printCh.run ∨ t.printCh.run = none
  cause : AtWork c.scan.state → AtWork t.scan.state ∧ t.scanCh.cause = c.scanCh.cause

theorem Goes.rfl {c : Chip} : Goes c c := ⟨.inl (Eq.refl _), .inl (Eq.refl _), fun h => ⟨h, Eq.refl _⟩⟩

theorem Goes.trans {a b c : Chip} (h : Goes a b) (k : Goes b c) : Goes a c := by
  refine ⟨?_, ?_, fun ha => ?_⟩
  · rcases k.scanRun with hb | hb
    · rw [hb]; exact h.scanRun
    · exact .inr hb
  · rcases k.printRun with hb | hb
    · rw [hb]; exact h.printRun
    · exact .inr hb
  · obtain ⟨hb, hcause⟩ := h.cause ha
    exact ⟨(k.cause hb).1, (k.cause hb).2.trans hcause⟩

theorem Goes.ite {p : Prop} [Decidable p] {c a b : Chip} (ha : Goes c a) (hb : Goes c b) : Goes c (if p then a else b) := by
  split
  · exact ha
  · exact hb

/-- Neither the scan front end nor a channel is touched. -/
def Untouched (c t : Chip) : Prop := t.scan = c.scan ∧ t.scanCh = c.scanCh ∧ t.printCh = c.printCh

theorem Untouched.goes {c t : Chip} (h : Untouched c t) : Goes c t := by
  obtain ⟨hscan, hscanCh, hprintCh⟩ := h
  exact ⟨.inl (by rw [hscanCh]), .inl (by rw [hprintCh]), fun k => ⟨by rw [hscan]; exact k, by rw [hscanCh]⟩⟩

theorem Untouched.rfl {c : Chip} : Untouched c c := ⟨Eq.refl _, Eq.refl _, Eq.refl _⟩

theorem Untouched.trans {a b c : Chip} (h : Untouched a b) (k : Untouched b c) : Untouched a c :=
  ⟨k.1.trans h.1, k.2.1.trans h.2.1, k.2.2.trans h.2.2⟩

theorem Lined.untouched {c t : Chip} (h : Lined c t) : Untouched c t := by
  obtain ⟨-, -, hscan, -, hscanCh, hprintCh, -⟩ := h.frame
  exact ⟨hscan, hscanCh, hprintCh⟩

/-! ## The store sink -/

theorem retireBlocks_untouched (why : RetireFor) (bs : List Nat) (c : Chip) : Untouched c (retireBlocks why bs c) := by
  obtain ⟨_, h⟩ := retireBlocks_fold why bs c
  have hscan : ∀ (d : Chip) b, (retireBlock why d b).scan = d.scan ∧ (retireBlock why d b).scanCh = d.scanCh ∧
      (retireBlock why d b).printCh = d.printCh := fun d b => by unfold retireBlock; simp
  rw [h]
  exact ⟨foldl_same (f := Chip.scan) (fun d b => (hscan d b).1) bs _, foldl_same (f := Chip.scanCh) (fun d b => (hscan d b).2.1) bs _,
    foldl_same (f := Chip.printCh) (fun d b => (hscan d b).2.2) bs _⟩

theorem endPage_untouched (route : Option Nat) (cut : Bool) (mark : Option Mark) (id : Nat) (c : Chip) :
    Untouched c (endPage route cut mark id c) := by
  unfold endPage
  split
  · exact .rfl
  · split
    · exact ⟨by simp [setWork], by simp [setWork], by simp [setWork]⟩
    · exact Untouched.trans (b := removePage id (forgetPage id (setWork none c))) .rfl (retireBlocks_untouched _ _ _)

theorem requestClose_goes (r : Nat) (c : Chip) : Goes c (requestClose r c) := by
  have hscan (d : Chip) : Goes d (closeScanSource d) := by
    have hend : (endScanSource d).scanCh = d.scanCh ∧ (endScanSource d).printCh = d.printCh := by unfold endScanSource; simp
    have hstop (u : Chip) : (stopScan .stop u).scanCh.run = u.scanCh.run ∧ (stopScan .stop u).printCh = u.printCh := by
      unfold stopScan Channel.stopFor
      refine ⟨?_, rfl⟩
      dsimp only
      split
      · split <;> rfl
      · split <;> rfl
      · rfl
    unfold closeScanSource
    split
    next hstate => exact ⟨.inl (by rw [hend.1]), .inl (by rw [hend.2]), fun k => absurd hstate k.1⟩
    next hstate =>
      have hdrop : (dropWaitingStart (stopScan .stop (endScanSource d))).scanCh = (stopScan .stop (endScanSource d)).scanCh ∧
          (dropWaitingStart (stopScan .stop (endScanSource d))).printCh = (stopScan .stop (endScanSource d)).printCh := by
        unfold dropWaitingStart
        split <;> simp
      exact ⟨.inl (by rw [hdrop.1, (hstop _).1, hend.1]), .inl (by rw [hdrop.2, (hstop _).2, hend.2]), fun k => absurd hstate k.2.1⟩
    next hstate => exact ⟨.inl (by rw [hend.1]), .inl (by rw [hend.2]), fun k => absurd hstate k.2.2⟩
    · exact .rfl
  unfold requestClose
  split
  · exact .rfl
  · split
    · exact .rfl
    · have hmod (f : Ctx → Ctx) : Untouched c (modCtx r f c) := ⟨by simp, by simp, by simp⟩
      dsimp only
      split
      · exact (hmod _).goes.trans (hscan _)
      · split
        · exact (hmod _).goes
        · exact ((modCtx_lined r _ c).trans (pageEnd_lined r true _)).untouched.goes
      · split
        · exact (hmod _).goes
        · exact ((modCtx_lined r _ c).trans (pageEnd_lined r true _)).untouched.goes

theorem meetFull_goes (r : Nat) (cause : FullCause) (c : Chip) : Goes c (meetFull r cause c) := by
  have hmet (kept : Option Nat) : Untouched c (fullMet r cause kept c) := by
    unfold fullMet
    exact ⟨by simp, by simp, by simp⟩
  unfold meetFull
  refine Goes.trans (Goes.trans ?_ (dropHead_lined .store r _).untouched.goes) (requestClose_goes r _)
  split
  · exact (hmet _).goes.trans (endPage_untouched ..).goes
  · exact (hmet _).goes.trans (Untouched.goes .rfl)

theorem claimBlock_untouched {id seq b : Nat} {reloc : Bool} {c d : Chip} (h : claimBlock id seq reloc c = some (b, d)) : Untouched c d := by
  unfold claimBlock at h
  split at h
  · cases h
  · dsimp only at h
    obtain ⟨rfl, rfl⟩ := Prod.mk.inj (Option.some.inj h)
    split <;> split <;> exact ⟨by simp [modPage, modBlock], by simp [modPage, modBlock], by simp [modPage, modBlock]⟩

theorem tryClaim_goes (r : Nat) (c : Chip) : Goes c (tryClaim r c) := by
  unfold tryClaim
  split
  · split
    · exact .rfl
    · dsimp only
      split
      · exact meetFull_goes r _ c
      · split
        next hclaim =>
          refine (claimBlock_untouched hclaim).goes.trans (Untouched.goes ?_)
          split <;> exact ⟨by simp [setWork], by simp [setWork], by simp [setWork]⟩
        · split
          · refine Goes.ite (Untouched.goes ?_) (Goes.trans (Untouched.goes ?_) (queueEvent_lined _ _).untouched.goes) <;>
              exact ⟨by simp [setWork], by simp [setWork], by simp [setWork]⟩
          · exact meetFull_goes r _ c
  · exact .rfl

theorem placeWork_goes (r size : Nat) (c : Chip) : Goes c (placeWork r size c) := by
  unfold placeWork
  split
  · split
    · exact .rfl
    · split
      · exact tryClaim_goes r c
      · split
        · split
          · exact Untouched.goes ⟨by simp, by simp, by simp⟩
          · exact Goes.trans (Untouched.goes ⟨by simp, by simp, by simp⟩) (tryClaim_goes r _)
        · exact tryClaim_goes r c
  · exact .rfl

theorem createPage_untouched (r : Nat) (start : Option Nat) (c : Chip) : Untouched c (createPage r start c) := by
  unfold createPage
  split
  · exact .rfl
  · exact ⟨by simp, by simp, by simp⟩

theorem takeEntry_goes (r : Nat) (c : Chip) : Goes c (takeEntry r c) := by
  unfold takeEntry
  split
  · exact .rfl
  · split
    · exact .rfl
    · extract_lets coded lane d e
      split
      · refine Goes.trans ?_ (placeWork_goes r _ _)
        exact Untouched.goes ⟨rfl, rfl, rfl⟩
      · split
        · refine Goes.trans ?_ (placeWork_goes r _ _)
          refine Goes.trans (Goes.trans ?_ (createPage_untouched r none _).goes) (Untouched.goes ⟨rfl, rfl, rfl⟩)
          exact Untouched.goes ⟨rfl, rfl, rfl⟩
        · refine Goes.trans ?_ (meetFull_goes r _ _)
          exact Untouched.goes ⟨rfl, rfl, rfl⟩
    · split
      · exact (serveMark_lined .store r _ c).untouched.goes
      · dsimp only
        split
        · exact (endPage_untouched ..).goes
        · exact (endPage_untouched ..).goes.trans (serveMark_lined .store r _ _).untouched.goes

theorem drainEntry_goes (r : Nat) (c : Chip) : Goes c (drainEntry r c) := by
  unfold drainEntry
  split
  · exact .rfl
  · split
    · exact Untouched.goes ⟨by simp, by simp, by simp⟩
    · exact Untouched.goes ⟨by simp, by simp, by simp⟩
    · exact .rfl

theorem storeLoop_goes (r n : Nat) (c : Chip) : Goes c (storeLoop r n c) := by
  induction n generalizing c with
  | zero => exact .rfl
  | succ n ih =>
    unfold storeLoop
    split
    · exact .rfl
    · split
      · exact .rfl
      · split
        · exact (drainEntry_goes r c).trans (ih _)
        · split
          · exact .rfl
          · exact (takeEntry_goes r c).trans (ih _)

theorem storePump_goes (r : Nat) (c : Chip) : Goes c (storePump r c) := by
  have hfill (d : Chip) : Untouched d (fillLane r d) := by
    unfold fillLane
    split
    · exact .rfl
    · dsimp only
      split
      · exact .rfl
      · split <;> exact .rfl
  unfold storePump
  split
  · exact .rfl
  · split
    · exact (storeLoop_goes r _ c).trans (hfill _).goes
    · exact .rfl

/-! ## The close and the rest -/

theorem linkPump_untouched (c : Chip) : Untouched c (linkPump c) := by
  unfold linkPump
  split
  · split
    · exact .rfl
    · split
      · dsimp only
        split
        · exact .rfl
        · exact ⟨by simp, by simp, by simp⟩
      · exact ⟨by simp, by simp, by simp⟩
      · exact .rfl
  · exact .rfl

theorem releaseScan_goes (c : Chip) : Goes c (releaseScan c) := by
  refine ⟨.inr rfl, .inl ?_, fun _ => ⟨⟨nofun, nofun, nofun⟩, ?_⟩⟩
  · unfold releaseScan dropLamp
    dsimp only
    split <;> rfl
  · unfold releaseScan dropLamp
    dsimp only
    split <;> rfl

theorem releasePrint_goes (c : Chip) : Goes c (releasePrint c) := by
  obtain ⟨-, -, -, hscan, hscanCh, hprintCh, -⟩ := releasePrint_rest c
  exact ⟨.inl (by rw [hscanCh]), .inr (by rw [hprintCh]; rfl), fun k => ⟨by rw [hscan]; exact k, by rw [hscanCh]⟩⟩

theorem closeRoute_goes (r : Nat) (cause : CloseCause) (c : Chip) : Goes c (closeRoute r cause c) := by
  unfold closeRoute
  split
  · exact .rfl
  next x _ =>
    dsimp only
    refine Goes.trans ?_ (queueEvent_lined _ _).untouched.goes
    refine Goes.trans (b := setRoute r { getRoute c r with ctx := none } c) (setRoute_lined r _ c).untouched.goes ?_
    have hscan := Goes.ite (p := x.source = .scan) (releaseScan_goes (setRoute r { getRoute c r with ctx := none } c)) .rfl
    exact Goes.ite (hscan.trans (releasePrint_goes _)) hscan

theorem settle_goes (r : Nat) (c : Chip) : Goes c (settle r c) := by
  have hclose (d : Chip) : Goes d (closeIfEmpty r d) := by
    unfold closeIfEmpty
    split
    · exact .rfl
    · split
      · exact closeRoute_goes r _ d
      · exact .rfl
  have hload (d : Chip) : Untouched d (refreshLoad d) := by
    obtain ⟨_, _, h⟩ := refreshLoad_eq d
    rw [h]
    exact .rfl
  exact ((storePump_goes r c).trans ((linkPump_untouched _).trans (hload _)).goes).trans ((hclose _).trans (Untouched.goes .rfl))

theorem settleScan_goes (c : Chip) : Goes c (settleScan c) := by
  unfold settleScan
  split
  · exact settle_goes _ c
  · exact Untouched.goes .rfl

theorem settlePrint_goes (c : Chip) : Goes c (settlePrint c) := by
  have hload : Untouched c (refreshLoad c) := by
    obtain ⟨_, _, h⟩ := refreshLoad_eq c
    rw [h]
    exact .rfl
  unfold settlePrint
  split
  · exact hload.goes.trans (settle_goes _ _)
  · exact Untouched.goes .rfl

end Sys2Proof.Proofs
end

section
/-!
PROOFS. One step of a channel (03_motor_timing.md R48, R52 to R54, R59): the interval it begins, and what its handling leaves of the channel.
-/

-- One declaration after another: the package as one text keeps within the check's limit on threads.
set_option Elab.async false

namespace Sys2Proof.Proofs

open Sys2Proof Sys2Proof.Machine

/-! ## The interval that begins (R52, R53, R59) -/

section
variable {ch : Channel} {p : RunParams} {m : Nat}

theorem plan_decelerating (h : ch.motion = .decelerating) : ch.plan = { ch with mode := .down, left := ch.entry (ch.k - 1) } := by
  unfold Channel.plan; rw [h]

theorem plan_idle (h : ch.motion ≠ .decelerating) (hrun : ch.run = none) : ch.plan = ch := by
  unfold Channel.plan
  rw [hrun]
  cases hm : ch.motion <;> first | rfl | exact absurd hm h

theorem plan_accelerating (hrun : ch.run = some p) (h : ch.motion = .accelerating) (htail : ch.tail = none) :
    ch.plan = { ch with mode := .up, left := ch.entry ch.k } := by
  unfold Channel.plan; rw [h, hrun, htail]

theorem plan_running (hrun : ch.run = some p) (h : ch.motion = .running) (htail : ch.tail = none) :
    ch.plan = { ch with mode := .level, left := if ch.linePos + 1 = p.steps then p.u + p.period % p.steps else p.u } := by
  unfold Channel.plan
  rw [h, hrun, htail]
  dsimp only
  split <;> rfl

theorem plan_tail_slows (hrun : ch.run = some p) (h : ch.motion = .accelerating ∨ ch.motion = .running) (htail : ch.tail = some m)
    (hm : m = ch.k) :
    ch.plan = { ch with motion := .decelerating, cause := some .tail, mode := .down, left := ch.entry (ch.k - 1) } := by
  unfold Channel.plan
  rcases h with h | h <;> rw [h, hrun, htail] <;> exact if_pos hm

theorem plan_tail_rises (hrun : ch.run = some p) (h : ch.motion = .accelerating) (htail : ch.tail = some m) (hm : m ≠ ch.k)
    (hrises : ch.k < p.r ∧ ch.k + 2 ≤ m) : ch.plan = { ch with mode := .up, left := ch.entry ch.k } := by
  unfold Channel.plan
  rw [h, hrun, htail]
  dsimp only
  rw [if_neg hm, if_pos hrises]

theorem plan_tail_levels (hrun : ch.run = some p) (h : ch.motion = .accelerating) (htail : ch.tail = some m) (hm : m ≠ ch.k)
    (hlevel : ¬(ch.k < p.r ∧ ch.k + 2 ≤ m)) : ch.plan = { ch with mode := .level, left := if ch.k = p.r then p.u else ch.entry ch.k } := by
  unfold Channel.plan
  rw [h, hrun, htail]
  dsimp only
  rw [if_neg hm, if_neg hlevel]

theorem plan_tail_runs (hrun : ch.run = some p) (h : ch.motion = .running) (htail : ch.tail = some m) (hm : m ≠ ch.k) :
    ch.plan = { ch with mode := .level, left := p.u } := by
  unfold Channel.plan
  rw [h, hrun, htail]
  exact if_neg hm

theorem plan_resting (h : ch.motion ≠ .decelerating) (hup : ch.motion ≠ .accelerating) (hrun : ch.motion ≠ .running) : ch.plan = ch := by
  unfold Channel.plan
  cases hm : ch.motion <;> first | rfl | exact absurd hm h | exact absurd hm hup | exact absurd hm hrun

/-- What the interval begun leaves of the channel. -/
theorem plan_frame (ch : Channel) : ch.plan.k = ch.k ∧ ch.plan.linePos = ch.linePos ∧ ch.plan.run = ch.run ∧ ch.plan.tail = ch.tail ∧
    ch.plan.phase = ch.phase ∧ ch.plan.ramp = ch.ramp := by
  unfold Channel.plan
  repeat' split
  all_goals exact ⟨rfl, rfl, rfl, rfl, rfl, rfl⟩

/-- The interval of a channel, whatever cause is recorded and whichever route it serves, is the one that was begun. -/
theorem plan_again {c : Option StopCause} {route : Option Nat} {run : Option RunParams} (hrun : run = ch.run ∨ run = none) :
    ({ ch.plan with cause := c, route := route, run := run } : Channel).plan = { ch.plan with cause := c, route := route, run := run } := by
  by_cases hslow : ch.motion = .decelerating
  · rw [plan_decelerating hslow]
    exact plan_decelerating hslow
  cases hp : ch.run with
  | none =>
    rw [plan_idle hslow hp]
    exact plan_idle hslow (by rcases hrun with rfl | rfl; exacts [hp, rfl])
  | some p =>
    by_cases hup : ch.motion = .accelerating
    · cases htail : ch.tail with
      | none =>
        rw [plan_accelerating hp hup htail]
        rcases hrun with rfl | rfl
        exacts [plan_accelerating hp hup htail, plan_idle hslow rfl]
      | some m =>
        by_cases hm : m = ch.k
        · rw [plan_tail_slows hp (.inl hup) htail hm]
          exact plan_decelerating rfl
        · by_cases hrises : ch.k < p.r ∧ ch.k + 2 ≤ m
          · rw [plan_tail_rises hp hup htail hm hrises]
            rcases hrun with rfl | rfl
            exacts [plan_tail_rises hp hup htail hm hrises, plan_idle hslow rfl]
          · rw [plan_tail_levels hp hup htail hm hrises]
            rcases hrun with rfl | rfl
            exacts [plan_tail_levels hp hup htail hm hrises, plan_idle hslow rfl]
    · by_cases hlevel : ch.motion = .running
      · cases htail : ch.tail with
        | none =>
          rw [plan_running hp hlevel htail]
          rcases hrun with rfl | rfl
          exacts [plan_running hp hlevel htail, plan_idle hslow rfl]
        | some m =>
          by_cases hm : m = ch.k
          · rw [plan_tail_slows hp (.inr hlevel) htail hm]
            exact plan_decelerating rfl
          · rw [plan_tail_runs hp hlevel htail hm]
            rcases hrun with rfl | rfl
            exacts [plan_tail_runs hp hlevel htail hm, plan_idle hslow rfl]
      · rw [plan_resting hslow hup hlevel]
        exact plan_resting hslow hup hlevel

end

/-! ## How the handling of a step may change its channel (R53, R55, R57) -/

/-- What a channel is but for how it is slowed down. -/
def Channel.core (ch : Channel) : Channel := { ch with motion := .halted, cause := none, tail := none, rateReported := false }

theorem core_parts {a b : Channel} (h : Channel.core a = Channel.core b) : a.k = b.k ∧ a.phase = b.phase ∧ a.linePos = b.linePos ∧
    a.run = b.run ∧ a.route = b.route ∧ a.ramp = b.ramp ∧ a.drive = b.drive ∧ a.mode = b.mode := by
  simp only [Channel.core, Channel.mk.injEq] at h
  simp only [h, and_self]

/-- A channel goes on as another, or slows down in its place. -/
structure Slows (a b : Channel) : Prop where
  core : Channel.core b = Channel.core a
  cause : a.cause.isSome = true → b.cause.isSome = true
  motion : b.motion = a.motion ∨ b.motion = .decelerating

theorem Slows.refl {a : Channel} : Slows a a := ⟨Eq.refl _, id, .inl (Eq.refl _)⟩

theorem Slows.trans {a b c : Channel} (h : Slows a b) (k : Slows b c) : Slows a c := by
  refine ⟨k.core.trans h.core, fun x => k.cause (h.cause x), ?_⟩
  rcases k.motion with hk | hk
  · rw [hk]; exact h.motion
  · exact .inr hk

theorem Slows.of_eq {a b : Channel} (h : b = a) : Slows a b := h ▸ .refl

theorem Slows.decelerating {a b : Channel} (h : Slows a b) (ha : a.motion = .decelerating) : b.motion = .decelerating := by
  rcases h.motion with hb | hb
  · rw [hb, ha]
  · exact hb

theorem stopFor_slows (cause : StopCause) (ch : Channel) : Slows ch (ch.stopFor cause) := by
  unfold Channel.stopFor
  split
  · split
    next h => exact ⟨rfl, fun k => absurd k (by rw [Option.isNone_iff_eq_none.mp h]; nofun), .inl rfl⟩
    · exact .refl
  · split
    next h => exact ⟨rfl, fun k => absurd k (by rw [Option.isNone_iff_eq_none.mp h]; nofun), .inl rfl⟩
    · exact .refl
  · exact .refl

theorem stopFor_moves (cause : StopCause) (ch : Channel) : (ch.stopFor cause).motion = ch.motion := by
  unfold Channel.stopFor
  split
  · split <;> rfl
  · split <;> rfl
  · rfl

theorem stopFor_of {ch : Channel} (h : ch.motion = .accelerating ∨ ch.motion = .running) (cause : StopCause) :
    ch.stopFor cause = if ch.cause.isNone then { ch with cause := some cause } else ch := by
  unfold Channel.stopFor
  split
  · rfl
  · rfl
  next hup hlevel => exact absurd h (not_or.mpr ⟨hup, hlevel⟩)

theorem stopFor_fresh {ch : Channel} (h : ch.motion = .accelerating ∨ ch.motion = .running) (hc : ch.cause = none) (cause : StopCause) :
    ch.stopFor cause = { ch with cause := some cause } := by
  rw [stopFor_of h, if_pos (by rw [hc]; rfl)]

/-- A stop cause is recorded of a channel in ACCELERATING or RUNNING. -/
theorem stopFor_caused {ch : Channel} (h : ch.motion = .accelerating ∨ ch.motion = .running) (cause : StopCause) :
    (ch.stopFor cause).cause.isSome = true := by
  cases hc : ch.cause with
  | none => rw [stopFor_fresh h hc]; rfl
  | some k => rw [stopFor_of h, if_neg (by rw [hc]; nofun), hc]; rfl

theorem takeCause_slows (ch : Channel) : Slows ch ch.takeCause := by
  unfold Channel.takeCause
  split
  · exact ⟨rfl, id, .inr rfl⟩
  · exact ⟨rfl, id, .inr rfl⟩
  · exact .refl

/-- A recorded cause of a channel in motion has it decelerate. -/
theorem takeCause_decelerates {ch : Channel} (h : ch.cause.isSome = true)
    (hm : ch.motion = .accelerating ∨ ch.motion = .running ∨ ch.motion = .decelerating) : ch.takeCause.motion = .decelerating := by
  obtain ⟨cause, hcause⟩ := Option.isSome_iff_exists.mp h
  unfold Channel.takeCause
  rw [hcause]
  rcases hm with hm | hm | hm <;> simp [hm]

theorem atHalt_iff (ch : Channel) : ch.atHalt = true ↔ ch.motion = .decelerating ∧ ch.k = 0 := decide_eq_true_iff

theorem moving_iff (ch : Channel) : ch.moving = true ↔ ch.motion = .accelerating ∨ ch.motion = .running ∨ ch.motion = .decelerating := by
  unfold Channel.moving
  cases ch.motion <;> simp

/-! ## The step of a channel, and what is left of it (R48, R52, R53) -/

/-- The ramp index that a step reaches. -/
def nextIndex (ch : Channel) : Nat := match ch.mode with | .up => ch.k + 1 | .level => ch.k | .down => ch.k - 1

theorem step_phase (ch : Channel) : ch.step.1.phase = (ch.phase + 1) % 8 := rfl

theorem step_k (ch : Channel) : ch.step.1.k = nextIndex ch := rfl

theorem step_cause (ch : Channel) : ch.step.1.cause = ch.cause := rfl

theorem step_run (ch : Channel) : ch.step.1.run = ch.run := rfl

theorem step_route (ch : Channel) : ch.step.1.route = ch.route := rfl

theorem step_tail (ch : Channel) : ch.step.1.tail = ch.tail.map (· - 1) := rfl

theorem step_linePos {ch : Channel} {p : RunParams} (h : ch.run = some p) :
    ch.step.1.linePos = if p.steps ≤ ch.linePos + 1 then 0 else ch.linePos + 1 := by
  unfold Channel.step
  rw [h]
  dsimp only
  by_cases hstart : p.steps ≤ ch.linePos + 1 <;> simp [hstart]

theorem step_start {ch : Channel} {p : RunParams} (h : ch.run = some p) : ch.step.2 = decide (p.steps ≤ ch.linePos + 1) := by
  unfold Channel.step
  rw [h]

theorem step_decelerating {ch : Channel} (h : ch.motion = .decelerating) : ch.step.1.motion = .decelerating := by
  unfold Channel.step
  dsimp only
  rw [if_neg (fun k => by rw [h] at k; exact nomatch k.2.2), h]

theorem step_moves {ch : Channel} (h : ch.motion = .accelerating ∨ ch.motion = .running) :
    ch.step.1.motion = .accelerating ∨ ch.step.1.motion = .running := by
  have hm : ch.step.1.motion = .running ∨ ch.step.1.motion = ch.motion := by
    unfold Channel.step
    exact ite_eq_or_eq _ _ _
  rcases hm with k | k
  · exact .inr k
  · rw [k]; exact h

theorem step_moving {ch : Channel} (h : ch.moving = true) :
    ch.step.1.motion = .accelerating ∨ ch.step.1.motion = .running ∨ ch.step.1.motion = .decelerating := by
  rcases (moving_iff ch).mp h with k | k | k
  · exact or_assoc.mp (.inl (step_moves (.inl k)))
  · exact or_assoc.mp (.inl (step_moves (.inr k)))
  · exact .inr (.inr (step_decelerating k))

/-- One step of a channel has been taken, and its next interval begun unless it halts. -/
structure Stepped (a b : Channel) : Prop where
  phase : b.phase = (a.phase + 1) % 8
  index : b.k = nextIndex a
  line : ∀ p, a.run = some p → b.moving = true → b.linePos = if p.steps ≤ a.linePos + 1 then 0 else a.linePos + 1
  slows : a.cause.isSome = true → b.motion = .decelerating ∨ b.motion = .halted
  planned : b.moving = true → ∃ u : Channel, b = u.plan

theorem plan_motion (ch : Channel) : ch.plan.motion = ch.motion ∨ ch.plan.motion = .decelerating := by
  unfold Channel.plan
  repeat' split
  all_goals first | exact .inl rfl | exact .inr rfl

/-- A channel slowed down from its step goes on. -/
theorem Slows.stepped {a u : Channel} (h : Slows a.step.1 u) (hcause : a.cause.isSome = true → u.motion = .decelerating) :
    Stepped a u.plan := by
  obtain ⟨hk, hphase, hpos, hrun, -⟩ := core_parts h.core
  obtain ⟨pk, ppos, prun, ptail, pphase, -⟩ := plan_frame u
  refine ⟨pphase.trans hphase, pk.trans hk, fun p hp _ => ppos.trans (hpos.trans (step_linePos hp)), fun hc => .inl ?_, fun _ => ⟨u, rfl⟩⟩
  rcases plan_motion u with k | k
  · rw [k, hcause hc]
  · exact k

/-- A channel slowed down from its step halts. -/
theorem Slows.halted {a u v : Channel} (h : Slows a.step.1 u) (hk : u.k = 0) (hv : v.motion = .halted) (hindex : v.k = 0)
    (hphase : v.phase = u.phase) : Stepped a v := by
  obtain ⟨huk, huphase, -⟩ := core_parts h.core
  have hrest : ¬v.moving = true := by rw [moving_iff, hv]; nofun
  exact ⟨hphase.trans huphase, hindex.trans (hk.symm.trans huk), fun _ _ k => absurd k hrest, fun _ => .inr hv, fun k => absurd k hrest⟩

/-- What follows at once leaves the step taken, and the interval begun. -/
theorem Stepped.settled {a v t : Channel} (h : Stepped a v) (hbody : Channel.body t = Channel.body v) (hrun : t.run = v.run ∨ t.run = none) :
    Stepped a t ∧ (t.moving = true → t.plan = t) := by
  obtain ⟨-, hk, hmotion, hphase, hpos, -⟩ := body_parts hbody
  have hmoving : t.moving = v.moving := by unfold Channel.moving; rw [hmotion]
  have ht : t = { v with cause := t.cause, route := t.route, run := t.run } := by
    obtain ⟨hdrive, hk, hmotion, hphase, hpos, hleft, htail, hmode, hramp, hhold⟩ := body_parts hbody
    have hrate : t.rateReported = v.rateReported := by simpa [Channel.body] using congrArg Channel.rateReported hbody
    cases t
    cases v
    simp only at hdrive hk hmotion hphase hpos hleft htail hmode hramp hhold hrate
    subst hdrive hk hmotion hphase hpos hleft htail hmode hramp hhold hrate
    rfl
  have hplan : t.moving = true → t.plan = t := fun k => by
    obtain ⟨u, hu⟩ := h.planned (hmoving ▸ k)
    rw [ht]
    subst hu
    exact plan_again (hrun.imp (fun e => e.trans (plan_frame u).2.2.1) id)
  refine ⟨⟨hphase.trans h.phase, hk.trans h.index, fun p hp k => hpos.trans (h.line p hp (hmoving ▸ k)), fun hc => ?_, fun k => ⟨t, (hplan k).symm⟩⟩, hplan⟩
  rw [hmotion]
  exact h.slows hc

/-! ## The scan feed channel -/

theorem stopScan_slows (cause : StopCause) (c : Chip) : Slows c.scanCh (stopScan cause c).scanCh := stopFor_slows cause _

theorem trailingEdge_lined (r : Nat) (p : ScanParams) (c : Chip) : Lined { c with scan := { c.scan with
    state := .tail, approach := none, tailRem := some p.tailLines, pageEndDue := c.scan.capture.isSome } } (trailingEdge r p c) := by
  unfold trailingEdge
  dsimp only
  split
  · exact returnReservations_lined _ _
  · exact (returnReservations_lined _ _).trans (pageEnd_lined _ _ _)

/-- A scan jam but for its channels. -/
def jamTold (r : Nat) (onPage : Bool) (c : Chip) : Chip :=
  let c := discardCapture { c with scan := { c.scan with state := .jammed, approach := none, rearmed := false } }
  queueEvent (.jam .scan r) (haltRoute r .jam (if onPage then pageEnd r true c else c))

theorem scanJam_eq (r : Nat) (onPage : Bool) (c : Chip) : scanJam r onPage c = stopPrintFor r (stopScan .jam (jamTold r onPage c)) := rfl

theorem jamTold_lined (r : Nat) (onPage : Bool) (c : Chip) : Lined { c with scan := { c.scan with
    state := .jammed, approach := none, rearmed := false, capture := none, captureLeft := 0, pageEndDue := false } } (jamTold r onPage c) := by
  unfold jamTold
  refine Lined.trans ?_ ((haltRoute_lined _ _ _).trans (queueEvent_lined _ _))
  have hdiscard := discardCapture_lined { c with scan := { c.scan with state := .jammed, approach := none, rearmed := false } }
  split
  · exact hdiscard.trans (pageEnd_lined _ _ _)
  · exact hdiscard

theorem stopPrintFor_scan (r : Nat) (c : Chip) : (stopPrintFor r c).scanCh = c.scanCh ∧ (stopPrintFor r c).scan = c.scan ∧
    (stopPrintFor r c).pool = c.pool ∧ (stopPrintFor r c).routes = c.routes ∧ (stopPrintFor r c).link = c.link ∧
    (stopPrintFor r c).pins = c.pins := by
  unfold stopPrintFor
  split <;> exact ⟨rfl, rfl, rfl, rfl, rfl, rfl⟩

theorem scanJam_slows (r : Nat) (onPage : Bool) (c : Chip) : Slows c.scanCh (scanJam r onPage c).scanCh := by
  obtain ⟨-, -, -, -, hch, -⟩ := (jamTold_lined r onPage c).frame
  rw [scanJam_eq, (stopPrintFor_scan r _).1]
  exact (Slows.of_eq hch).trans (stopScan_slows .jam _)

theorem trailingEdge_channel (r : Nat) (p : ScanParams) (c : Chip) : (trailingEdge r p c).scanCh = c.scanCh :=
  (trailingEdge_lined r p c).frame.2.2.2.2.1

theorem sheetStep_slows (doce : Bool) (c : Chip) : Slows c.scanCh (sheetStep doce c).scanCh := by
  unfold sheetStep
  split
  · exact .refl
  · split
    · exact .refl
    · split
      · extract_lets _ u
        split
        · exact .refl
        · split
          · exact scanJam_slows _ _ u
          · exact .refl
      · extract_lets _ u
        split
        · exact .of_eq (trailingEdge_channel _ _ u)
        · split
          · exact scanJam_slows _ _ u
          · exact .refl
      · extract_lets _ u
        split
        · exact .of_eq (trailingEdge_channel _ _ u)
        · split
          · exact scanJam_slows _ _ u
          · exact .refl
      · exact .refl

theorem sheetLineStart_slows (c : Chip) : Slows c.scanCh (sheetLineStart c).scanCh := by
  unfold sheetLineStart
  split
  · split <;> exact .refl
  · split
    · exact .refl
    · exact stopScan_slows .stop { c with scan := { c.scan with state := .runout, tailRem := none } }
  · exact .refl

theorem reserveFor_channel (r k : Nat) (c : Chip) : (reserveFor r k c).1.scanCh = c.scanCh := by simp [reserveFor]

theorem denyScan_channel (c : Chip) : (denyScan c).scanCh = { c.scanCh.decelerate .denied with rateReported := true } := by
  unfold denyScan
  dsimp only
  split
  · rfl
  · exact (queueEvent_lined _ _).frame.2.2.2.2.1

theorem denyPrint_channel (c : Chip) : (denyPrint c).printCh = { c.printCh.decelerate .denied with rateReported := true } := by
  unfold denyPrint
  dsimp only
  split
  · rfl
  · exact (queueEvent_lined _ _).frame.2.2.2.2.2.1

theorem denied_slows (ch : Channel) : Slows ch { ch.decelerate .denied with rateReported := true } := ⟨rfl, fun _ => rfl, .inr rfl⟩

/-- The line start of the scan channel but for its capture: the decision (R55). -/
def scanDecided (c : Chip) : Chip :=
  let c := sheetLineStart c
  let c := { c with scanCh := c.scanCh.takeCause }
  match c.scanCh.motion, c.scanCh.route with
  | .decelerating, _ => c
  | _, some r =>
      let d := reserveFor r c.scanCh.k c
      if d.2 then d.1 else denyScan d.1
  | _, none => c

theorem scanLineStart_eq (c : Chip) : scanLineStart c = if (scanDecided c).scanCh.atHalt then scanDecided c else beginCapture (scanDecided c) := rfl

theorem scanLineStart_slows (c : Chip) : Slows c.scanCh (scanLineStart c).scanCh := by
  have hfirst : Slows c.scanCh (sheetLineStart c).scanCh.takeCause := (sheetLineStart_slows c).trans (takeCause_slows _)
  have hdecided : Slows c.scanCh (scanDecided c).scanCh := by
    unfold scanDecided
    dsimp only
    split
    · exact hfirst
    · refine hfirst.trans ?_
      split
      · exact .of_eq (reserveFor_channel ..)
      · rw [denyScan_channel, reserveFor_channel]
        exact denied_slows _
    · exact hfirst
  rw [scanLineStart_eq]
  split
  · exact hdecided
  · rw [beginCapture_channel]
    exact hdecided

theorem endScanSource_channel (c : Chip) : (endScanSource c).scanCh = c.scanCh := by unfold endScanSource; simp

/-- Whether another sheet follows at the end of one (R37). -/
def nextSheet (x : Ctx) (c : Chip) : Bool := (match x.scanP with | some p => p.multi | none => false) && c.pins.docp

theorem endOfSheet_eq {r : Nat} {x : Ctx} {c : Chip} (hr : c.scan.route = some r) (hx : ctxOf c r = some x) : endOfSheet c =
    if x.closeReq then endScanSource c
    else if nextSheet x c then { c with scan := { c.scan with state := .waiting } }
    else modCtx r (fun x => { x with closeReq := true }) (endScanSource (if c.pins.docp then c else queueEvent (.feederEmpty r) c)) := by
  unfold endOfSheet nextSheet
  rw [hr]
  dsimp only
  rw [hx] <;> rfl

theorem endOfSheet_idle {c : Chip} (h : ∀ r, c.scan.route = some r → ctxOf c r = none) : endOfSheet c = c := by
  unfold endOfSheet
  cases hr : c.scan.route with
  | none => rfl
  | some r => dsimp only; rw [h r hr]

theorem endOfSheet_channel (c : Chip) : (endOfSheet c).scanCh = c.scanCh := by
  by_cases h : ∃ r x, c.scan.route = some r ∧ ctxOf c r = some x
  · obtain ⟨r, x, hr, hx⟩ := h
    rw [endOfSheet_eq hr hx]
    split
    · exact endScanSource_channel c
    · split
      · rfl
      · rw [(modCtx_lined _ _ _).frame.2.2.2.2.1, endScanSource_channel]
        split
        · rfl
        · exact (queueEvent_lined _ _).frame.2.2.2.2.1
  · refine congrArg Chip.scanCh (endOfSheet_idle fun r hr => ?_)
    cases hx : ctxOf c r with
    | none => rfl
    | some x => exact absurd ⟨r, x, hr, hx⟩ h

theorem sheetHalted_channel (c : Chip) : (sheetHalted c).scanCh = c.scanCh := by
  unfold sheetHalted leaveJam
  split
  · exact endOfSheet_channel c
  · split
    · exact endOfSheet_channel _
    · rfl
  · rfl

theorem haltScan_channel (c : Chip) : (haltScan c).scanCh = c.scanCh.halt := by
  unfold haltScan
  dsimp only
  rw [sheetHalted_channel]
  split
  · exact (returnReservations_lined _ _).frame.2.2.2.2.1
  · rfl

theorem scanOnward_stepped {a : Channel} {u : Chip} (h : Slows a.step.1 u.scanCh)
    (hcause : a.cause.isSome = true → u.scanCh.motion = .decelerating) : Stepped a (scanOnward u).scanCh := by
  unfold scanOnward
  split
  next hhalt =>
    rw [haltScan_channel]
    exact h.halted ((atHalt_iff _).mp hhalt).2 rfl rfl rfl
  · exact h.stepped hcause

/-- A step of the scan channel before its channel goes on: what it brings to the sheet, and its line start. -/
def scanHandled (doce : Bool) (c : Chip) : Chip :=
  let st := c.scanCh.step
  let c := sheetStep doce { c with scanCh := st.1, pins := { c.pins with doce := doce } }
  let c := { c with scanCh := c.scanCh.takeCause }
  if st.2 && !c.scanCh.atHalt then scanLineStart c else c

theorem scanStep_moving {c : Chip} (h : c.scanCh.moving = true) (doce : Bool) : scanStep doce c = settleScan (scanOnward (scanHandled doce c)) :=
  if_pos h

theorem scanHandled_slows {c : Chip} (h : c.scanCh.moving = true) (doce : Bool) : Slows c.scanCh.step.1 (scanHandled doce c).scanCh ∧
    (c.scanCh.cause.isSome = true → (scanHandled doce c).scanCh.motion = .decelerating) := by
  have hsheet : Slows c.scanCh.step.1 (sheetStep doce { c with scanCh := c.scanCh.step.1, pins := { c.pins with doce := doce } }).scanCh :=
    sheetStep_slows doce { c with scanCh := c.scanCh.step.1, pins := { c.pins with doce := doce } }
  have htaken := hsheet.trans (takeCause_slows _)
  have hslow : c.scanCh.cause.isSome = true →
      (sheetStep doce { c with scanCh := c.scanCh.step.1, pins := { c.pins with doce := doce } }).scanCh.takeCause.motion = .decelerating := by
    intro hc
    refine takeCause_decelerates (hsheet.cause hc) ?_
    rcases hsheet.motion with k | k
    · rw [k]; exact step_moving h
    · exact .inr (.inr k)
  unfold scanHandled
  extract_lets st _ u v
  have hv : Slows c.scanCh.step.1 v.scanCh ∧ (c.scanCh.cause.isSome = true → v.scanCh.motion = .decelerating) := ⟨htaken, hslow⟩
  clear_value v
  split
  · exact ⟨hv.1.trans (scanLineStart_slows v), fun hc => (scanLineStart_slows v).decelerating (hv.2 hc)⟩
  · exact hv

/-- A step of the scan channel in motion (R48, R52, R53). -/
theorem scanStep_stepped {c : Chip} (h : c.scanCh.moving = true) (doce : Bool) :
    Stepped c.scanCh (scanStep doce c).scanCh ∧ ((scanStep doce c).scanCh.moving = true → (scanStep doce c).scanCh.plan = (scanStep doce c).scanCh) := by
  obtain ⟨hslows, hcause⟩ := scanHandled_slows h doce
  rw [scanStep_moving h]
  exact (scanOnward_stepped hslows hcause).settled (settleScan_body _) (settleScan_goes _).scanRun

/-! ## The print feed channel -/

theorem beginTail_slows (c : Chip) : Slows c.printCh (beginTail c).printCh := ⟨rfl, id, .inl rfl⟩

theorem dropBurned_channel (c : Chip) : (dropBurned c).printCh = c.printCh := by
  unfold dropBurned
  split
  · rfl
  · split
    · split
      · rw [refreshLoad_channel]
        exact (dropReference_lined _ _).frame.2.2.2.2.2.1
      · rfl
    · split
      · rw [refreshLoad_channel]
        exact (dropHead_lined _ _ _).frame.2.2.2.2.2.1
      · rfl

theorem printLineStart_slows (therm : Byte) (c : Chip) : Slows c.printCh (printLineStart therm c).printCh := by
  unfold printLineStart
  split
  · exact .refl
  · extract_lets d
    have hd : Slows c.printCh d.printCh := .of_eq (dropBurned_channel c)
    clear_value d
    have hburn : Slows c.printCh (beginBurn therm d).printCh := hd.trans (.of_eq (beginBurn_channel _ _))
    split
    · split
      · exact hd
      · split
        · exact hd
        · split
          · exact hburn
          · exact hd
        · exact hburn
    · split
      · exact hd
      · split
        · exact hd.trans (beginTail_slows _)
        · split
          · exact hburn
          · have hdenied : Slows c.printCh (denyPrint d).printCh := by
              rw [denyPrint_channel]
              exact hd.trans (denied_slows _)
            split
            · exact hdenied
            · rw [beginBurn_channel]
              exact hdenied

theorem endRunOut_index (c : Chip) : (endRunOut c).printCh.k = c.printCh.k := by
  have hdrops (es : List LineEntry) (u : Chip) : (es.foldl (fun c e => dropReference e.slot c) u).printCh = u.printCh :=
    (Lined.fold (fun c (e : LineEntry) => dropReference_lined e.slot c) es u).frame.2.2.2.2.2.1
  unfold endRunOut
  split
  · rfl
  · dsimp only
    obtain ⟨-, -, -, -, -, hch, -⟩ := releasePrint_rest
      (List.foldl (fun c (e : LineEntry) => dropReference e.slot c) { c with runOut := none } _)
    rw [hch]
    unfold Channel.release
    dsimp only
    rw [hdrops]

theorem beginCut_channel (c : Chip) : (beginCut c).printCh = c.printCh := rfl

theorem haltPrint_channel (c : Chip) : (haltPrint c).printCh.motion = .halted ∧ (haltPrint c).printCh.k = 0 ∧
    (haltPrint c).printCh.phase = c.printCh.phase := by
  have hend (u : Chip) (hu : u.printCh.motion = .halted ∧ u.printCh.k = 0 ∧ u.printCh.phase = c.printCh.phase) :
      (endRunOut u).printCh.motion = .halted ∧ (endRunOut u).printCh.k = 0 ∧ (endRunOut u).printCh.phase = c.printCh.phase := by
    obtain ⟨-, hmotion, -, hphase, -⟩ := endRunOut_channels u
    exact ⟨hmotion.trans hu.1, (endRunOut_index u).trans hu.2.1, hphase.trans hu.2.2⟩
  unfold haltPrint
  dsimp only
  split
  · rw [beginCut_channel]
    exact hend _ ⟨rfl, rfl, rfl⟩
  · exact hend _ ⟨rfl, rfl, rfl⟩

theorem printOnward_stepped {a : Channel} {u : Chip} (h : Slows a.step.1 u.printCh)
    (hcause : a.cause.isSome = true → u.printCh.motion = .decelerating) : Stepped a (printOnward u).printCh := by
  unfold printOnward
  split
  next hhalt =>
    obtain ⟨hmotion, hk, hphase⟩ := haltPrint_channel u
    exact h.halted ((atHalt_iff _).mp hhalt).2 hmotion hk hphase
  · dsimp only
    split
    next hhalt =>
      obtain ⟨hmotion, hk, hphase⟩ := haltPrint_channel { u with printCh := u.printCh.plan }
      obtain ⟨pk, -, -, -, pphase, -⟩ := plan_frame u.printCh
      exact h.halted (pk.symm.trans ((atHalt_iff _).mp hhalt).2) hmotion hk (hphase.trans pphase)
    · exact h.stepped hcause

/-- A step of the print channel before its channel goes on: its line start. -/
def printHandled (therm : Byte) (c : Chip) : Chip :=
  let st := c.printCh.step
  let c := { c with printCh := st.1.takeCause }
  if st.2 then printLineStart therm c else c

theorem printStep_moving {c : Chip} (h : c.printCh.moving = true) (therm : Byte) :
    printStep therm c = settlePrint (printOnward (printHandled therm c)) := if_pos h

/-- A step of the print channel in motion (R48, R52, R53). -/
theorem printStep_stepped {c : Chip} (h : c.printCh.moving = true) (therm : Byte) : Stepped c.printCh (printStep therm c).printCh ∧
    ((printStep therm c).printCh.moving = true → (printStep therm c).printCh.plan = (printStep therm c).printCh) := by
  have htaken := takeCause_slows c.printCh.step.1
  have hslow : c.printCh.cause.isSome = true → c.printCh.step.1.takeCause.motion = .decelerating := fun hc => takeCause_decelerates hc (step_moving h)
  have hhandled : Slows c.printCh.step.1 (printHandled therm c).printCh ∧
      (c.printCh.cause.isSome = true → (printHandled therm c).printCh.motion = .decelerating) := by
    unfold printHandled
    dsimp only
    split
    · have hline := printLineStart_slows therm { c with printCh := c.printCh.step.1.takeCause }
      exact ⟨htaken.trans hline, fun hc => hline.decelerating (hslow hc)⟩
    · exact ⟨htaken, hslow⟩
  rw [printStep_moving h]
  exact (printOnward_stepped hhandled.1 hhandled.2).settled (settlePrint_body _) (settlePrint_goes _).printRun

end Sys2Proof.Proofs
end

section
/-!
PROOFS. The line start of the print channel, its tail feed's end, and what they leave of channel and head (03_motor_timing.md R57, R59;
04_print_path.md R74, R79).
-/

-- One declaration after another: the package as one text keeps within the check's limit on threads.
set_option Elab.async false

namespace Sys2Proof.Proofs

open Sys2Proof Sys2Proof.Machine

/-! ## The decision -/

/-- What a line start of the print channel decides once the reference of a finished line is dropped (R57, R59). -/
def printDecided (therm : Byte) (c : Chip) : Chip :=
  match headEntries c with
  | .mark _ :: _ => beginTail c
  | _ =>
      if printPasses c c.printCh.k then beginBurn therm c
      else if (denyPrint c).printCh.k = 0 then denyPrint c else beginBurn therm (denyPrint c)

theorem printLineStart_decides {c : Chip} (hcause : c.printCh.cause = none) (hmoves : c.printCh.motion = .accelerating ∨ c.printCh.motion = .running)
    (htail : c.printCh.tail = none) (therm : Byte) : printLineStart therm c = printDecided therm (dropBurned c) := by
  have hch := dropBurned_channel c
  unfold printLineStart printDecided
  rw [if_neg (by rw [hcause]; nofun)]
  dsimp only
  rw [hch, htail]
  rcases hmoves with h | h <;> rw [h] <;> rfl

/-- The print channel of a route at a line start that decides. -/
structure Deciding (r : Nat) (x : Ctx) (h : HeadCopy) (p : RunParams) (c : Chip) : Prop where
  route : c.head.route = some r
  runOut : c.runOut = none
  ctx : ctxOf c r = some x
  run : c.printCh.run = some p
  cause : c.printCh.cause = none
  tail : c.printCh.tail = none
  copy : c.head.copy = some h
  moves : c.printCh.motion = .accelerating ∨ c.printCh.motion = .running
  pos : c.printCh.linePos = 0

section
variable {r : Nat} {x : Ctx} {h : HeadCopy} {p : RunParams} {c : Chip}

theorem Deciding.entries (hd : Deciding r x h p c) : headEntries c = x.printQ := by
  unfold headEntries
  rw [hd.runOut, hd.route]
  dsimp only
  rw [hd.ctx]

theorem printPasses_line {k : Nat} {e : LineEntry} {rest : List Entry} (hd : Deciding r x h p c) (hq : x.printQ = .line e :: rest) :
    printPasses c k = true ↔ 1 + ceilDiv (min (k + p.steps) p.r) p.steps ≤
      h.copies - c.head.burns + h.copies * (rest.takeWhile isLine).length ∨ ∃ m, Entry.mark m ∈ rest := by
  have hcopies : headCopies c = h.copies := by unfold headCopies; rw [hd.copy]
  unfold printPasses
  rw [hd.run]
  dsimp only
  rw [hd.entries, hq, lookahead_eq, hcopies, Bool.or_eq_true, any_isMark, decide_eq_true_iff, or_comm]
  exact Iff.rfl

theorem printPasses_none {k : Nat} (hd : Deciding r x h p c) (hq : x.printQ = []) : printPasses c k = false := by
  unfold printPasses
  rw [hd.run]
  dsimp only
  rw [hd.entries, hq]
  exact decide_eq_false (Nat.not_le.mpr (Nat.lt_of_lt_of_le Nat.zero_lt_one (Nat.le_add_right 1 _)))

/-! ## What the decision leaves -/

theorem denyPrint_leaves (c : Chip) : (denyPrint c).head = c.head ∧ (denyPrint c).routes = c.routes ∧ (denyPrint c).runOut = c.runOut ∧
    (denyPrint c).pool = c.pool := by
  unfold denyPrint
  dsimp only
  split
  · exact ⟨rfl, rfl, rfl, rfl⟩
  · rw [queueEvent_of_plain (e := .rateLimited _ _) (fun _ _ h => nomatch h) (fun h => nomatch h)]
    exact ⟨rfl, rfl, rfl, rfl⟩

/-- A burn begun at the head line. -/
theorem beginBurn_begins {e : LineEntry} {rest : List Entry} (hline : headEntries c = .line e :: rest) (hcopy : c.head.copy = some h)
    (therm : Byte) : (beginBurn therm c).head.latch = some e ∧ (beginBurn therm c).head.burns = c.head.burns + 1 ∧
      (beginBurn therm c).head.route = c.head.route ∧ (beginBurn therm c).routes = c.routes ∧ (beginBurn therm c).runOut = c.runOut := by
  obtain ⟨told, link, shift, left, hburn⟩ := beginBurn_line hline hcopy therm
  obtain ⟨hlatch, hburns, -, -, hroute⟩ := nextStrobe_rest (burnHead therm e h c told)
  rw [hburn]
  exact ⟨hlatch, hburns, hroute, rfl, rfl⟩

theorem beginBurn_idle (hq : headEntries c = []) (therm : Byte) : beginBurn therm c = c := by
  unfold beginBurn
  rw [hq]

/-- A route with entries to print goes on through what follows. -/
theorem settlePrint_prints (hr : c.head.route = some r) (hx : ctxOf c r = some x) (hq : x.printQ ≠ []) :
    (settlePrint c).head.latch = c.head.latch ∧ (settlePrint c).head.burns = c.head.burns ∧ (settlePrint c).printCh = c.printCh := by
  obtain ⟨shift, left, hload⟩ := refreshLoad_eq c
  rw [settlePrint_route hr, hload]
  obtain ⟨hhead, hch⟩ := settle_prints (c := { c with head := { c.head with shift := shift, loadLeft := left } }) hx hq
  have hlatch := congrArg Head.latch hhead
  have hburns := congrArg Head.burns hhead
  exact ⟨hlatch, hburns, hch⟩

/-- What follows at once leaves the cause of the print channel's stop. -/
theorem settlePrint_cause (c : Chip) : (settlePrint c).printCh.cause = c.printCh.cause := by
  unfold settlePrint
  split
  next r _ => exact (settle_attended (P := (· = r)) .rfl rfl).printCh.2.trans (by rw [refreshLoad_channel])
  · rfl

/-- The halt of a channel that was denied at ramp index 0. -/
theorem haltPrint_denied (hrun : c.runOut = none) (hcause : c.printCh.cause = some .denied) (htail : c.printCh.tail = none) :
    haltPrint c = { c with printCh := c.printCh.halt } := by
  unfold haltPrint
  dsimp only
  rw [endRunOut_none (by exact hrun), htail, hcause]
  rfl

/-- A line start decided: the burn begun in a channel that goes on. -/
theorem decided_burns {e : LineEntry} {rest : List Entry} (hd : Deciding r x h p c) (hq : x.printQ = .line e :: rest)
    (hpass : printPasses c c.printCh.k = true) (therm : Byte) :
    let t := settlePrint (printOnward (printDecided therm c))
    (t.printCh.motion = .accelerating ∨ t.printCh.motion = .running) ∧ t.printCh.cause = none ∧ t.head.latch = some e ∧
      t.head.burns = c.head.burns + 1 := by
  have hentries := hd.entries.trans hq
  obtain ⟨hlatch, hburns, hroute, hroutes, -⟩ := beginBurn_begins hentries hd.copy therm
  have hch := beginBurn_channel therm c
  have hdecided : printDecided therm c = beginBurn therm c := by
    unfold printDecided
    rw [hentries]
    exact if_pos hpass
  have hplan : c.printCh.plan.motion = c.printCh.motion ∧ c.printCh.plan.cause = none := by
    rcases hd.moves with k | k
    · rw [plan_accelerating hd.run k hd.tail]; exact ⟨rfl, hd.cause⟩
    · rw [plan_running hd.run k hd.tail]; exact ⟨rfl, hd.cause⟩
  intro t
  have ht : t = settlePrint { beginBurn therm c with printCh := c.printCh.plan } := by
    simp only [t]
    rw [hdecided, printOnward_moving (by rw [hch]; exact hd.moves) (by rw [hch]; exact hplan.1), hch]
  obtain ⟨hkept, hcount, hprint⟩ := settlePrint_prints (c := { beginBurn therm c with printCh := c.printCh.plan }) (hroute.trans hd.route)
    ((ctxOf_congr (c := c) hroutes r).trans hd.ctx) (by rw [hq]; nofun)
  rw [ht, hprint]
  exact ⟨by rw [hplan.1]; exact hd.moves, hplan.2, hkept.trans hlatch, hcount.trans hburns⟩

theorem plan_denied (ch : Channel) : ({ ch.decelerate .denied with rateReported := true } : Channel).plan.motion = .decelerating ∧
    ({ ch.decelerate .denied with rateReported := true } : Channel).plan.cause = some .denied := ⟨rfl, rfl⟩

theorem printOnward_denied {u : Chip} (hch : u.printCh = { c.printCh.decelerate .denied with rateReported := true }) (hk : 0 < c.printCh.k) :
    printOnward u = { u with printCh := u.printCh.plan } := by
  have hno : ∀ v : Channel, v.k = c.printCh.k → v.atHalt = false := fun v hv =>
    Bool.eq_false_iff.mpr fun k => by rw [atHalt_iff, hv] at k; omega
  unfold printOnward
  rw [hno _ (by rw [hch]; rfl)]
  dsimp only
  rw [hno u.printCh.plan ((plan_frame _).1.trans (by rw [hch]; rfl))]
  rfl

/-- A line start denied in motion: the burn begun in a channel that slows down. -/
theorem decided_slows {e : LineEntry} {rest : List Entry} (hd : Deciding r x h p c) (hq : x.printQ = .line e :: rest)
    (hpass : printPasses c c.printCh.k = false) (hk : 0 < c.printCh.k) (therm : Byte) :
    let t := settlePrint (printOnward (printDecided therm c))
    t.printCh.motion = .decelerating ∧ t.printCh.cause = some .denied ∧ t.head.latch = some e ∧ t.head.burns = c.head.burns + 1 := by
  obtain ⟨dhead, droutes, drun, -⟩ := denyPrint_leaves c
  have hentries : headEntries (denyPrint c) = .line e :: rest :=
    (headEntries_congr drun (by rw [dhead]) droutes).trans (hd.entries.trans hq)
  obtain ⟨hlatch, hburns, hroute, hroutes, -⟩ := beginBurn_begins hentries (by rw [dhead]; exact hd.copy) therm
  have hch : (beginBurn therm (denyPrint c)).printCh = _ := (beginBurn_channel therm _).trans (denyPrint_channel c)
  have hdecided : printDecided therm c = beginBurn therm (denyPrint c) := by
    unfold printDecided
    rw [hd.entries, hq]
    dsimp only
    rw [if_neg (by rw [hpass]; nofun), if_neg (by rw [denyPrint_channel]; exact Nat.pos_iff_ne_zero.mp hk)]
  intro t
  have ht : t = settlePrint { beginBurn therm (denyPrint c) with printCh := (beginBurn therm (denyPrint c)).printCh.plan } := by
    simp only [t]
    rw [hdecided, printOnward_denied hch hk]
  obtain ⟨hkept, hcount, hprint⟩ := settlePrint_prints (c := { beginBurn therm (denyPrint c) with printCh := (beginBurn therm (denyPrint c)).printCh.plan })
    (r := r) (x := x) (hroute.trans (by rw [dhead]; exact hd.route)) ((ctxOf_congr (c := c) (hroutes.trans droutes) r).trans hd.ctx) (by rw [hq]; nofun)
  obtain ⟨hmotion, hcause⟩ := plan_denied c.printCh
  rw [ht, hprint]
  refine ⟨by dsimp only; rw [hch]; exact hmotion, by dsimp only; rw [hch]; exact hcause, hkept.trans hlatch, hcount.trans (hburns.trans (by rw [dhead]))⟩

/-- A line start denied at ramp index 0 halts the channel, with no burn. -/
theorem decided_halts {e : LineEntry} {rest : List Entry} (hd : Deciding r x h p c) (hq : x.printQ = .line e :: rest)
    (hpass : printPasses c c.printCh.k = false) (hk : c.printCh.k = 0) (therm : Byte) :
    let t := settlePrint (printOnward (printDecided therm c))
    t.printCh.motion = .halted ∧ t.printCh.linePos = 0 ∧ t.head.latch = c.head.latch ∧ t.head.burns = c.head.burns := by
  obtain ⟨dhead, droutes, drun, -⟩ := denyPrint_leaves c
  have hch := denyPrint_channel c
  have hdecided : printDecided therm c = denyPrint c := by
    unfold printDecided
    rw [hd.entries, hq]
    dsimp only
    rw [if_neg (by rw [hpass]; nofun), if_pos (by rw [denyPrint_channel]; exact hk)]
  intro t
  have ht : t = settlePrint { denyPrint c with printCh := (denyPrint c).printCh.halt } := by
    simp only [t]
    unfold printOnward
    rw [hdecided, if_pos ((atHalt_iff _).mpr (by rw [hch]; exact ⟨rfl, hk⟩)),
      haltPrint_denied (drun.trans hd.runOut) (by rw [hch]; rfl) (by rw [hch]; exact hd.tail)]
  obtain ⟨hkept, hcount, hprint⟩ := settlePrint_prints (c := { denyPrint c with printCh := (denyPrint c).printCh.halt })
    (r := r) (x := x) (by rw [dhead]; exact hd.route) ((ctxOf_congr (c := c) droutes r).trans hd.ctx) (by rw [hq]; nofun)
  rw [ht, hprint]
  refine ⟨rfl, ?_, hkept.trans (congrArg Head.latch dhead), hcount.trans (congrArg Head.burns dhead)⟩
  dsimp only
  rw [hch]
  exact hd.pos

/-- A channel with a tail feed of so many steps ahead. -/
def feeding (feed : Nat) (ch : Channel) : Channel := { ch with tail := some feed }

/-- A tail feed that has begun in motion, or with steps to feed, is not at its halt. -/
theorem feeding_goes {feed : Nat} {ch : Channel} (hrun : ch.run = some p) (hmoves : ch.motion = .accelerating ∨ ch.motion = .running)
    (hk : 0 < ch.k + feed) : (feeding feed ch).plan.atHalt = false := by
  refine Bool.eq_false_iff.mpr fun k => ?_
  obtain ⟨hslow, hzero⟩ := (atHalt_iff _).mp k
  have hindex : ch.k = 0 := (plan_frame (feeding feed ch)).1.symm.trans hzero
  have hne : feed ≠ (feeding feed ch).k := by change feed ≠ ch.k; omega
  have hkeeps : (feeding feed ch).plan.motion = ch.motion := by
    rcases hmoves with hm | hm
    · by_cases hrises : ch.k < p.r ∧ ch.k + 2 ≤ feed
      · rw [plan_tail_rises (ch := feeding feed ch) hrun hm rfl hne hrises]; rfl
      · rw [plan_tail_levels (ch := feeding feed ch) hrun hm rfl hne hrises]; rfl
    · rw [plan_tail_runs (ch := feeding feed ch) hrun hm rfl hne]; rfl
  rw [hkeeps] at hslow
  rcases hmoves with hm | hm <;> rw [hm] at hslow <;> cases hslow

/-- A line start at a page mark begins its tail feed. -/
theorem decided_feeds {m : Mark} {rest : List Entry} {y : PrintParams} (hd : Deciding r x h p c) (hq : x.printQ = .mark m :: rest)
    (hy : x.printP = some y) (hk : 0 < c.printCh.k + y.tailFeed) (therm : Byte) :
    let t := settlePrint (printOnward (printDecided therm c))
    t.printCh.tail = some y.tailFeed ∧ t.head.latch = c.head.latch ∧ t.head.burns = c.head.burns := by
  have hfeed : tailFeedOf c = y.tailFeed := by
    unfold tailFeedOf
    rw [hd.route]
    dsimp only [Option.bind]
    rw [hd.ctx]
    dsimp only
    rw [hy]
  have hdecided : printDecided therm c = { c with printCh := feeding y.tailFeed c.printCh } := by
    unfold printDecided beginTail
    rw [hd.entries, hq, hfeed]
    rfl
  intro t
  have ht : t = settlePrint { c with printCh := (feeding y.tailFeed c.printCh).plan } := by
    simp only [t]
    rw [hdecided]
    unfold printOnward
    rw [atHalt_eq_false (ch := feeding _ _) hd.moves]
    dsimp only
    rw [feeding_goes hd.run hd.moves hk]
    rfl
  obtain ⟨hkept, hcount, hprint⟩ := settlePrint_prints (c := { c with printCh := (feeding y.tailFeed c.printCh).plan })
    (r := r) (x := x) hd.route hd.ctx (by rw [hq]; nofun)
  rw [ht, hprint]
  obtain ⟨-, -, -, htail, -⟩ := plan_frame (feeding y.tailFeed c.printCh)
  exact ⟨htail, hkept, hcount⟩

/-- A line start with nothing to print is denied. -/
theorem decided_empty (hd : Deciding r x h p c) (hq : x.printQ = []) (therm : Byte) :
    let t := settlePrint (printOnward (printDecided therm c))
    (0 < c.printCh.k → t.printCh.motion = .decelerating ∧ t.printCh.cause = some .denied) ∧
      (c.printCh.k = 0 → t.printCh.motion = .halted ∧ t.printCh.linePos = 0) := by
  obtain ⟨dhead, droutes, drun, -⟩ := denyPrint_leaves c
  have hch := denyPrint_channel c
  have hentries : headEntries (denyPrint c) = [] := (headEntries_congr drun (by rw [dhead]) droutes).trans (hd.entries.trans hq)
  have hdecided : printDecided therm c = denyPrint c := by
    unfold printDecided
    rw [hd.entries, hq]
    dsimp only
    rw [if_neg (by rw [printPasses_none hd hq]; nofun), beginBurn_idle hentries, ite_self]
  intro t
  have ht : t = settlePrint (printOnward (denyPrint c)) := by simp only [t]; rw [hdecided]
  obtain ⟨-, -, hmotion, -, hpos, -⟩ := body_parts (settlePrint_body (printOnward (denyPrint c)))
  rw [ht, hmotion, hpos, settlePrint_cause]
  refine ⟨fun hk => ?_, fun hk => ?_⟩
  · rw [printOnward_denied hch hk]
    dsimp only
    rw [hch]
    exact plan_denied _
  · unfold printOnward
    rw [if_pos ((atHalt_iff _).mpr (by rw [hch]; exact ⟨rfl, hk⟩)),
      haltPrint_denied (drun.trans hd.runOut) (by rw [hch]; rfl) (by rw [hch]; exact hd.tail)]
    refine ⟨rfl, ?_⟩
    dsimp only
    rw [hch]
    exact hd.pos

end

/-! ## A step at a line start (R57, R59, R74) -/

section
variable {r : Nat} {x : Ctx} {h : HeadCopy} {p : RunParams} {c : Chip}

theorem printHandled_line (hrun : c.printCh.run = some p) (hcause : c.printCh.cause = none) (htail : c.printCh.tail = none)
    (hmoves : c.printCh.motion = .accelerating ∨ c.printCh.motion = .running) (hpos : p.steps ≤ c.printCh.linePos + 1) (therm : Byte) :
    printHandled therm c = printDecided therm (dropBurned { c with printCh := c.printCh.step.1 }) := by
  unfold printHandled
  dsimp only
  rw [step_start hrun, decide_eq_true hpos, if_pos rfl, takeCause_none (ch := c.printCh.step.1) hcause]
  exact printLineStart_decides (c := { c with printCh := c.printCh.step.1 }) hcause (step_moves hmoves)
    ((step_tail _).trans (by rw [htail]; rfl)) therm

/-- The channel of a route at the line start that its step brings. -/
theorem deciding_step (hr : c.head.route = some r) (hro : c.runOut = none) (hx : ctxOf c r = some x) (hrun : c.printCh.run = some p)
    (hcause : c.printCh.cause = none) (htail : c.printCh.tail = none) (hcopy : c.head.copy = some h)
    (hmoves : c.printCh.motion = .accelerating ∨ c.printCh.motion = .running) (hpos : p.steps ≤ c.printCh.linePos + 1) :
    Deciding r x h p { c with printCh := c.printCh.step.1 } where
  route := hr
  runOut := hro
  ctx := hx
  run := hrun
  cause := hcause
  tail := (step_tail _).trans (by rw [htail]; rfl)
  copy := hcopy
  moves := step_moves hmoves
  pos := (step_linePos hrun).trans (if_pos hpos)

theorem headCopies_some (hcopy : c.head.copy = some h) : headCopies c = h.copies := by
  unfold headCopies
  rw [hcopy]

theorem dropBurned_going (hcopy : c.head.copy = some h) (hburns : c.head.burns < h.copies) : dropBurned c = c :=
  if_pos (by rw [headCopies_some hcopy]; exact hburns)

/-- The reference of a line whose burns are all begun drops first (R5, R74). -/
theorem dropBurned_line {e : LineEntry} {rest : List Entry} (hd : Deciding r x h p c) (hburns : h.copies ≤ c.head.burns)
    (hq : x.printQ = .line e :: rest) :
    dropBurned c = refreshLoad (dropHead .print r { c with head := { c.head with burns := 0 } }) := by
  unfold dropBurned
  rw [if_neg (by rw [headCopies_some hd.copy]; exact Nat.not_lt.mpr hburns), hd.runOut, hd.entries, hq, hd.route]

theorem deciding_dropped {e : LineEntry} {rest : List Entry} (hd : Deciding r x h p c) (hburns : h.copies ≤ c.head.burns)
    (hq : x.printQ = .line e :: rest) (hhold : x.hold = []) :
    (∃ g, Deciding r { x with printQ := rest, creditGranted := g } h p (dropBurned c)) ∧ (dropBurned c).head.latch = c.head.latch ∧
      (dropBurned c).head.burns = 0 ∧
      ∀ n refs l, slotAt c e.slot = .held n refs l → slotAt (dropBurned c) e.slot = if refs ≤ 1 then .free else .held n (refs - 1) l := by
  have hctx : ctxOf { c with head := { c.head with burns := 0 } } r = some x := hd.ctx
  obtain ⟨g, hg⟩ := ctxOf_dropHead (k := .print) hctx hq hhold
  obtain ⟨-, hro, -, -, -, hch, hhead, -⟩ := (dropHead_lined .print r { c with head := { c.head with burns := 0 } }).frame
  have hquiet := dropHead_quiet (k := .print) hctx hq hhold
  rw [dropBurned_line hd hburns hq]
  obtain ⟨shift, left, hload⟩ := refreshLoad_eq (dropHead .print r { c with head := { c.head with burns := 0 } })
  rw [hload]
  refine ⟨⟨g, ?_, hro.trans hd.runOut, hg, ?_, ?_, ?_, ?_, ?_, ?_⟩, by rw [hhead], by rw [hhead], fun n refs l hslot => ?_⟩
  · rw [hhead]; exact hd.route
  · rw [hch]; exact hd.run
  · rw [hch]; exact hd.cause
  · rw [hch]; exact hd.tail
  · rw [hhead]; exact hd.copy
  · rw [hch]; exact hd.moves
  · rw [hch]; exact hd.pos
  · change slotAt (dropHead .print r { c with head := { c.head with burns := 0 } }) e.slot = _
    rw [hquiet, slotAt_modCtx, slotAt_dropReference_self (by rw [slotAt_modCtx]; exact hslot)]

theorem beginBurn_leaves (therm : Byte) (c : Chip) : (beginBurn therm c).pool = c.pool ∧ (beginBurn therm c).routes = c.routes ∧
    (beginBurn therm c).runOut = c.runOut ∧ (beginBurn therm c).head.route = c.head.route := by
  cases hcopy : c.head.copy with
  | none =>
    have hidle : beginBurn therm c = c := by
      unfold beginBurn
      rw [hcopy]
      split
      next k => cases k
      · rfl
    rw [hidle]
    exact ⟨rfl, rfl, rfl, rfl⟩
  | some k =>
    cases hq : headEntries c with
    | nil =>
      rw [beginBurn_idle hq]
      exact ⟨rfl, rfl, rfl, rfl⟩
    | cons y q =>
      cases y with
      | line e =>
        obtain ⟨told, link, shift, left, hburn⟩ := beginBurn_line hq hcopy therm
        obtain ⟨-, -, -, -, hroute⟩ := nextStrobe_rest (burnHead therm e k c told)
        rw [hburn]
        exact ⟨rfl, rfl, rfl, hroute⟩
      | mark m =>
        have hidle : beginBurn therm c = c := by
          unfold beginBurn
          rw [hq]
        rw [hidle]
        exact ⟨rfl, rfl, rfl, rfl⟩

theorem printDecided_leaves (therm : Byte) (c : Chip) : (printDecided therm c).pool = c.pool ∧ (printDecided therm c).routes = c.routes ∧
    (printDecided therm c).runOut = c.runOut ∧ (printDecided therm c).head.route = c.head.route := by
  obtain ⟨dhead, droutes, drun, dpool⟩ := denyPrint_leaves c
  have hdenied : (denyPrint c).pool = c.pool ∧ (denyPrint c).routes = c.routes ∧ (denyPrint c).runOut = c.runOut ∧
      (denyPrint c).head.route = c.head.route := ⟨dpool, droutes, drun, by rw [dhead]⟩
  obtain ⟨bpool, broutes, brun, broute⟩ := beginBurn_leaves therm (denyPrint c)
  unfold printDecided
  split
  · exact ⟨rfl, rfl, rfl, rfl⟩
  · split
    · exact beginBurn_leaves therm c
    · split
      · exact hdenied
      · exact ⟨bpool.trans dpool, broutes.trans droutes, brun.trans drun, broute.trans (by rw [dhead])⟩

theorem printOnward_leaves {u : Chip} (hrun : u.runOut = none) : (printOnward u).pool = u.pool ∧ (printOnward u).routes = u.routes ∧
    (printOnward u).head.route = u.head.route := by
  have hhalt (v : Chip) (hv : v.runOut = none) : (haltPrint v).pool = v.pool ∧ (haltPrint v).routes = v.routes ∧
      (haltPrint v).head.route = v.head.route := by
    unfold haltPrint
    dsimp only
    rw [endRunOut_none (by exact hv)]
    split <;> exact ⟨rfl, rfl, rfl⟩
  unfold printOnward
  split
  · exact hhalt u hrun
  · dsimp only
    split
    · exact hhalt { u with printCh := u.printCh.plan } hrun
    · exact ⟨rfl, rfl, rfl⟩

/-- What follows a decision for a route that prints alone touches no slot and no queue. -/
theorem decided_alone (hd : Deciding r x h p c) (hsinks : x.sinks = [.print]) (therm : Byte) :
    let t := settlePrint (printOnward (printDecided therm c))
    (∀ n, slotAt t n = slotAt c n) ∧ ∀ y, ctxOf t r = some y → y = x := by
  intro t
  obtain ⟨dpool, droutes, drun, droute⟩ := printDecided_leaves therm c
  obtain ⟨opool, oroutes, oroute⟩ := printOnward_leaves (drun.trans hd.runOut)
  obtain ⟨shift, left, hload⟩ := refreshLoad_eq (printOnward (printDecided therm c))
  have hctx : ctxOf (refreshLoad (printOnward (printDecided therm c))) r = some x := by
    rw [hload]
    exact (ctxOf_congr (c := c) (oroutes.trans droutes) r).trans hd.ctx
  have ht : t = settle r (refreshLoad (printOnward (printDecided therm c))) := settlePrint_route (oroute.trans (droute.trans hd.route))
  have hbeside : Beside r (refreshLoad (printOnward (printDecided therm c))) t := by
    rw [ht]
    refine settle_storeless fun y hy => ?_
    rw [hctx] at hy
    cases hy
    rw [hsinks]
    decide
  refine ⟨fun n => slotAt_congr ?_ n, fun y hy => ?_⟩
  · rw [hbeside.pool, hload]
    exact opool.trans dpool
  · have k := hbeside.ctx hy
    rw [hctx] at k
    exact (Option.some.inj k).symm

/-! ## The end of a tail feed (R59, R79) -/

theorem dropBurned_mark {m : Mark} {rest : List Entry} (hro : c.runOut = none) (hq : headEntries c = .mark m :: rest) : dropBurned c = c := by
  unfold dropBurned
  split
  · rfl
  · rw [hro, hq]
    cases c.head.route <;> rfl

theorem tailFed_handled {m : Mark} {rest : List Entry} (hr : c.head.route = some r) (hro : c.runOut = none) (hx : ctxOf c r = some x)
    (hq : x.printQ = .mark m :: rest) (hm : c.printCh.motion = .decelerating) (hk : c.printCh.step.1.k = 0) (therm : Byte) :
    printHandled therm c = { c with printCh := c.printCh.step.1 } := by
  have htaken : c.printCh.step.1.takeCause = c.printCh.step.1 := by
    unfold Channel.takeCause
    rw [step_decelerating hm]
  have hentries : headEntries { c with printCh := c.printCh.step.1 } = .mark m :: rest := by
    unfold headEntries
    dsimp only
    rw [hro, hr]
    dsimp only
    rw [ctxOf_congr (c := c) (by rfl), hx]
    exact hq
  have hdropped : dropBurned { c with printCh := c.printCh.step.1 } = { c with printCh := c.printCh.step.1 } := dropBurned_mark hro hentries
  have hline : printLineStart therm { c with printCh := c.printCh.step.1 } = { c with printCh := c.printCh.step.1 } := by
    unfold printLineStart
    split
    · rfl
    · rw [hdropped]
      dsimp only
      rw [step_decelerating hm, hk]
      rfl
  unfold printHandled
  dsimp only
  rw [htaken]
  split
  · exact hline
  · rfl

/-- The last step of a tail feed halts the channel and begins the cut. -/
theorem tailFed_cuts {m : Mark} {rest : List Entry} (hr : c.head.route = some r) (hro : c.runOut = none) (hx : ctxOf c r = some x)
    (hq : x.printQ = .mark m :: rest) (hm : c.printCh.motion = .decelerating) (hk : c.printCh.step.1.k = 0)
    (htail : c.printCh.step.1.tail = some 0) (therm : Byte) :
    printOnward (printHandled therm c) = beginCut { c with printCh := { c.printCh.step.1.halt with linePos := 0 } } := by
  have hentries : headEntries { c with printCh := { c.printCh.step.1.halt with linePos := 0 } } = .mark m :: rest := by
    unfold headEntries
    dsimp only
    rw [hro, hr]
    dsimp only
    rw [ctxOf_congr (c := c) (by rfl), hx]
    exact hq
  rw [tailFed_handled hr hro hx hq hm hk]
  unfold printOnward
  rw [if_pos ((atHalt_iff _).mpr ⟨step_decelerating hm, hk⟩)]
  unfold haltPrint
  dsimp only
  rw [htail, decide_eq_true (rfl : some 0 = some 0), Bool.true_or, if_pos rfl, endRunOut_none (by exact hro), hentries]

end

end Sys2Proof.Proofs
end

section
/-!
PROOFS. A step of the scan channel: what it brings to the sheet, its line start, the reservations and the capture, and its halt
(02_scan_path.md R27 to R30, R34 to R40; 03_motor_timing.md R52 to R55).
-/

-- One declaration after another: the package as one text keeps within the check's limit on threads.
set_option Elab.async false

namespace Sys2Proof.Proofs

open Sys2Proof Sys2Proof.Machine

/-! ## What a step of the scan channel never touches -/

/-- The route that scans and the input pins stand. -/
def Sheeted (c t : Chip) : Prop := t.scan.route = c.scan.route ∧ t.pins = c.pins

theorem Sheeted.refl {c : Chip} : Sheeted c c := ⟨rfl, rfl⟩

theorem Sheeted.trans {a b c : Chip} (h : Sheeted a b) (k : Sheeted b c) : Sheeted a c := ⟨k.1.trans h.1, k.2.trans h.2⟩

theorem Lined.sheeted {c t : Chip} (h : Lined c t) : Sheeted c t := by
  obtain ⟨hpins, -, hscan, -⟩ := h.frame
  exact ⟨by rw [hscan], hpins⟩

theorem scanJam_sheeted (r : Nat) (onPage : Bool) (c : Chip) : Sheeted c (scanJam r onPage c) := by
  obtain ⟨-, hscan, -, -, -, hpins⟩ := stopPrintFor_scan r (stopScan .jam (jamTold r onPage c))
  obtain ⟨hroute, htold⟩ := (jamTold_lined r onPage c).sheeted
  rw [scanJam_eq]
  exact ⟨by rw [hscan]; exact hroute, hpins.trans htold⟩

theorem trailingEdge_sheeted (r : Nat) (q : ScanParams) (c : Chip) : Sheeted c (trailingEdge r q c) := (trailingEdge_lined r q c).sheeted

theorem sheetStep_sheeted (doce : Bool) (c : Chip) : Sheeted c (sheetStep doce c) := by
  unfold sheetStep
  split
  · exact .refl
  · split
    · exact .refl
    · split
      · extract_lets _ u
        have hu : Sheeted c u := .refl
        split
        · exact .refl
        · split
          · exact hu.trans (scanJam_sheeted _ _ u)
          · exact hu
      · extract_lets _ u
        have hu : Sheeted c u := .refl
        split
        · exact hu.trans (trailingEdge_sheeted _ _ u)
        · split
          · exact hu.trans (scanJam_sheeted _ _ u)
          · exact hu
      · extract_lets _ u
        have hu : Sheeted c u := .refl
        split
        · exact hu.trans (trailingEdge_sheeted _ _ u)
        · split
          · exact hu.trans (scanJam_sheeted _ _ u)
          · exact hu
      · exact .refl

theorem sheetLineStart_sheeted (c : Chip) : Sheeted c (sheetLineStart c) := by
  unfold sheetLineStart
  split
  · split <;> exact .refl
  · split <;> exact .refl
  · exact .refl

theorem denyScan_sheeted (c : Chip) : Sheeted c (denyScan c) := by
  unfold denyScan
  dsimp only
  split
  · exact .refl
  · exact (queueEvent_lined _ _).sheeted

theorem beginCapture_sheeted (c : Chip) : Sheeted c (beginCapture c) := by
  unfold beginCapture
  split
  · split
    · exact .refl
    · split
      · dsimp only
        split <;> split <;> exact ⟨by simp, by simp⟩
      · exact .refl
  · exact .refl

theorem scanLineStart_sheeted (c : Chip) : Sheeted c (scanLineStart c) := by
  have hfirst := sheetLineStart_sheeted c
  have hdecided : Sheeted c (scanDecided c) := by
    unfold scanDecided
    dsimp only
    split
    · exact hfirst
    · have hreserved := (reserveFor_lined ‹Nat› (sheetLineStart c).scanCh.takeCause.k
        { sheetLineStart c with scanCh := (sheetLineStart c).scanCh.takeCause }).sheeted
      split
      · exact hfirst.trans hreserved
      · exact (hfirst.trans hreserved).trans (denyScan_sheeted _)
    · exact hfirst
  rw [scanLineStart_eq]
  split
  · exact hdecided
  · exact hdecided.trans (beginCapture_sheeted _)

theorem endScanSource_sheeted (c : Chip) : Sheeted c (endScanSource c) := by
  unfold endScanSource dropLamp
  dsimp only
  split <;> exact .refl

theorem endOfSheet_sheeted (c : Chip) : Sheeted c (endOfSheet c) := by
  by_cases h : ∃ r x, c.scan.route = some r ∧ ctxOf c r = some x
  · obtain ⟨r, x, hr, hx⟩ := h
    rw [endOfSheet_eq hr hx]
    split
    · exact endScanSource_sheeted c
    · split
      · exact .refl
      · refine Sheeted.trans (Sheeted.trans ?_ (endScanSource_sheeted _)) (modCtx_lined _ _ _).sheeted
        split
        · exact .refl
        · exact (queueEvent_lined _ _).sheeted
  · rw [endOfSheet_idle fun r hr => ?_]
    · exact .refl
    · cases hx : ctxOf c r with
      | none => rfl
      | some x => exact absurd ⟨r, x, hr, hx⟩ h

theorem haltScan_sheeted (c : Chip) : Sheeted c (haltScan c) := by
  have hsheet (u : Chip) : Sheeted u (sheetHalted u) := by
    unfold sheetHalted leaveJam
    split
    · exact endOfSheet_sheeted u
    · split
      · exact Sheeted.trans (b := { u with scan := { u.scan with pageSteps := 0, pickSteps := 0, rearmed := false } }) .refl
          (endOfSheet_sheeted _)
      · exact .refl
    · exact .refl
  unfold haltScan
  refine Sheeted.trans ?_ (hsheet _)
  split
  · exact Sheeted.trans (b := { c with scanCh := c.scanCh.halt }) .refl (returnReservations_lined _ _).sheeted
  · exact .refl

theorem scanOnward_sheeted (c : Chip) : Sheeted c (scanOnward c) := by
  unfold scanOnward
  split
  · exact haltScan_sheeted c
  · exact .refl

theorem scanHandled_sheeted (doce : Bool) (c : Chip) : (scanHandled doce c).scan.route = c.scan.route ∧
    (scanHandled doce c).pins = { c.pins with doce := doce } := by
  have hsheet := sheetStep_sheeted doce { c with scanCh := c.scanCh.step.1, pins := { c.pins with doce := doce } }
  unfold scanHandled
  extract_lets st _ u v
  have hv : v.scan.route = c.scan.route ∧ v.pins = { c.pins with doce := doce } := hsheet
  clear_value v
  split
  · have hline := scanLineStart_sheeted v
    exact ⟨hline.1.trans hv.1, hline.2.trans hv.2⟩
  · exact hv

theorem scanStep_route {r : Nat} {c : Chip} (hmoving : c.scanCh.moving = true) (hr : c.scan.route = some r) (doce : Bool) :
    scanStep doce c = settle r (scanOnward (scanHandled doce c)) ∧
      (scanOnward (scanHandled doce c)).pins = { c.pins with doce := doce } := by
  obtain ⟨hroute, hpins⟩ := scanHandled_sheeted doce c
  obtain ⟨oroute, opins⟩ := scanOnward_sheeted (scanHandled doce c)
  refine ⟨?_, opins.trans hpins⟩
  rw [scanStep_moving hmoving]
  unfold settleScan
  rw [oroute.trans (hroute.trans hr)]

/-! ## The decision of a line start, and its capture (R55, R30, R34) -/

section
variable {r : Nat} {x : Ctx} {q : ScanParams} {p : RunParams} {c v : Chip}

theorem scanDecided_moves (hline : sheetLineStart c = v) (hcause : v.scanCh.cause = none)
    (hmoves : v.scanCh.motion = .accelerating ∨ v.scanCh.motion = .running) (hroute : v.scanCh.route = some r) :
    scanDecided c = if (reserveFor r v.scanCh.k v).2 then (reserveFor r v.scanCh.k v).1 else denyScan (reserveFor r v.scanCh.k v).1 := by
  unfold scanDecided
  rw [hline]
  dsimp only
  rw [takeCause_none hcause, hroute]
  rcases hmoves with k | k <;> rw [k]

theorem scanNeed_capturing (hrun : v.scanCh.run = some p) (hstate : v.scan.state = .capturing) (k : Nat) :
    scanNeed v k = 1 + ceilDiv (min (k + p.steps) p.r) p.steps := by
  unfold scanNeed forecast
  rw [hrun, hstate]
  rfl

theorem scanNeed_tail (hstate : v.scan.state = .tail) (k : Nat) : scanNeed v k = 0 := by
  unfold scanNeed forecast
  rw [hstate]
  split <;> rfl

theorem beginCapture_idle (h : c.scan.state ≠ .capturing) : beginCapture c = c := by
  unfold beginCapture
  split
  next k _ => exact absurd k h
  · rfl

/-- The capture that a line start begins: the oldest reservation's. -/
theorem beginCapture_scan {n : Nat} {rest : List Nat} (hstate : c.scan.state = .capturing) (hr : c.scan.route = some r)
    (hx : ctxOf c r = some x) (hlist : x.reservations = n :: rest) (hq : x.scanP = some q) : (beginCapture c).scan = { c.scan with
      acc := if 256 ≤ c.scan.acc + q.q then c.scan.acc + q.q - 256 else c.scan.acc + q.q
      capture := some (if 256 ≤ c.scan.acc + q.q then .keep n x.linesDone else .drop), captureLeft := Config.captureTime } := by
  have hreturned : ∀ u : Chip, u.scan = c.scan → ∀ v : Chip, v = { (setSlot n (.filling r none) (modCtx r (fun x => { x with reservations := rest }) u)) with
      scan := { (setSlot n (.filling r none) (modCtx r (fun x => { x with reservations := rest }) u)).scan with
        acc := (scaleLine u.scan.acc q.q).1, capture := some (if (scaleLine u.scan.acc q.q).2 then .keep n x.linesDone else .drop)
        captureLeft := Config.captureTime } } →
      (if (scaleLine u.scan.acc q.q).2 then v else returnSlot n v).scan = { c.scan with
        acc := if 256 ≤ c.scan.acc + q.q then c.scan.acc + q.q - 256 else c.scan.acc + q.q
        capture := some (if 256 ≤ c.scan.acc + q.q then .keep n x.linesDone else .drop), captureLeft := Config.captureTime } := by
    intro u hu v hv
    have hscan : (if (scaleLine u.scan.acc q.q).2 then v else returnSlot n v).scan = v.scan := by
      split <;> simp
    rw [hscan, hv]
    simp only [setSlot_frame, modCtx_frame, hu]
    unfold scaleLine
    by_cases hkept : 256 ≤ c.scan.acc + q.q
    · simp only [if_pos hkept, if_true]
    · simp only [if_neg hkept, Bool.false_eq_true, if_false]
  unfold beginCapture
  rw [hstate, hr]
  dsimp only
  rw [hx]
  dsimp only
  rw [hlist, hq]
  dsimp only
  split
  next m _ _ => exact hreturned (returnSlot m c) (returnSlot_frame m c).2.2.1 _ rfl
  · exact hreturned c rfl _ rfl

/-- A decision that holds begins the capture of the oldest reservation. -/
theorem reserved_captures (hpool : PoolOk v.pool) (hstate : v.scan.state = .capturing) (hr : v.scan.route = some r) (hx : ctxOf v r = some x)
    (hq : x.scanP = some q) (hrun : v.scanCh.run = some p) {k : Nat} (hpass : (reserveFor r k v).2 = true) :
    ∃ n, (x.reservations ++ v.pool.freeList).head? = some n ∧ (beginCapture (reserveFor r k v).1).scan = { v.scan with
      acc := if 256 ≤ v.scan.acc + q.q then v.scan.acc + q.q - 256 else v.scan.acc + q.q
      capture := some (if 256 ≤ v.scan.acc + q.q then .keep n x.linesDone else .drop), captureLeft := Config.captureTime } := by
  obtain ⟨⟨g, hctx⟩, -⟩ := reserveFor_reserved k hx hpool
  obtain ⟨-, -, hscan, -⟩ := (reserveFor_lined r k v).frame
  have hone : 0 < (x.reservations ++ v.pool.freeList.take (grants r x v (missing x v k))).length := by
    have hneed := (reserveFor_iff hx hpool).mp hpass
    have hsome : 1 ≤ scanNeed v k := by rw [scanNeed_capturing hrun hstate]; omega
    simp only [List.length_append, List.length_take]
    unfold grants missing
    omega
  obtain ⟨n, rest, hlist⟩ := List.exists_cons_of_length_pos hone
  refine ⟨n, ?_, ?_⟩
  · have hwhole : x.reservations ++ v.pool.freeList = n :: (rest ++ v.pool.freeList.drop (grants r x v (missing x v k))) := by
      rw [← List.cons_append, ← hlist, List.append_assoc, List.take_append_drop]
    rw [hwhole]
    rfl
  · rw [beginCapture_scan (by rw [hscan]; exact hstate) (by rw [hscan]; exact hr) hctx hlist hq, hscan]

theorem denyScan_scan (c : Chip) : (denyScan c).scan = c.scan := by
  unfold denyScan
  dsimp only
  split
  · rfl
  · exact (queueEvent_lined _ _).frame.2.2.1

theorem sheetHalted_still (hrunout : c.scan.state ≠ .runout) (hjam : c.scan.state = .jammed → c.scan.rearmed = false) : sheetHalted c = c := by
  unfold sheetHalted
  split
  next k => exact absurd k hrunout
  next k => rw [hjam k]; rfl
  · rfl

/-- A halt of the scan channel that the sheet does not wait for. -/
theorem haltScan_still (hr : c.scan.route = some r) (hrunout : c.scan.state ≠ .runout) (hjam : c.scan.state = .jammed → c.scan.rearmed = false) :
    haltScan c = returnReservations r { c with scanCh := c.scanCh.halt } := by
  obtain ⟨-, -, hscan, -⟩ := (returnReservations_lined r { c with scanCh := c.scanCh.halt }).frame
  unfold haltScan
  dsimp only
  rw [hr]
  exact sheetHalted_still (by rw [hscan]; exact hrunout) (by rw [hscan]; exact hjam)

theorem scanOnward_scan (hrunout : c.scan.state ≠ .runout) (hjam : c.scan.state = .jammed → c.scan.rearmed = false) :
    (scanOnward c).scan = c.scan := by
  unfold scanOnward
  split
  · cases hr : c.scan.route with
    | some r =>
      rw [haltScan_still hr hrunout hjam]
      exact (returnReservations_lined _ _).frame.2.2.1
    | none =>
      unfold haltScan
      dsimp only
      rw [hr]
      have hstill := sheetHalted_still (c := { c with scanCh := c.scanCh.halt }) hrunout hjam
      exact (congrArg Chip.scan hstill).trans rfl
  · rfl

/-- A line start that leaves the sheet and captures nothing. -/
theorem scanLineStart_scan (hline : (sheetLineStart c).scan = c.scan) (hstate : c.scan.state ≠ .capturing) :
    (scanLineStart c).scan = c.scan := by
  have hdecided : (scanDecided c).scan = c.scan := by
    unfold scanDecided
    dsimp only
    split
    · exact hline
    · split
      · rw [(reserveFor_lined _ _ _).frame.2.2.1]; exact hline
      · rw [denyScan_scan, (reserveFor_lined _ _ _).frame.2.2.1]; exact hline
    · exact hline
  rw [scanLineStart_eq]
  split
  · exact hdecided
  · rw [beginCapture_idle (by rw [hdecided]; exact hstate)]
    exact hdecided

/-- What a step leaves of the sheet where its line start leaves it. -/
theorem scanHandled_scan {u : Chip} {doce : Bool} (hu : sheetStep doce { c with scanCh := c.scanCh.step.1, pins := { c.pins with doce := doce } } = u)
    (h : c.scanCh.step.2 = false ∨ (sheetLineStart { u with scanCh := u.scanCh.takeCause }).scan = u.scan ∧ u.scan.state ≠ .capturing) :
    (scanHandled doce c).scan = u.scan := by
  unfold scanHandled
  dsimp only
  rw [hu]
  split
  next k =>
    rcases h with h | ⟨hline, hstate⟩
    · rw [h] at k
      cases k
    · exact scanLineStart_scan (c := { u with scanCh := u.scanCh.takeCause }) hline hstate
  · rfl

end

end Sys2Proof.Proofs
end

section
/-!
PROOFS. The sheet cycle, step by step (02_scan_path.md R27, R28, R35 to R40), and what it leaves of route, slots and reports.
-/

-- One declaration after another: the package as one text keeps within the check's limit on threads.
set_option Elab.async false

namespace Sys2Proof.Proofs

open Sys2Proof Sys2Proof.Machine

section
variable {r : Nat} {x : Ctx} {q : ScanParams} {p : RunParams} {c u w : Chip} {doce : Bool}

/-! ## What a step brings to the sheet -/

theorem scanParamsOf_ctx (hx : ctxOf c r = some x) (hq : x.scanP = some q) : scanParamsOf c r = some q := by
  unfold scanParamsOf
  rw [hx]
  exact hq

/-- The capture state one pick step on. -/
def picked (sc : Capture) : Capture := { sc with pickSteps := sc.pickSteps + 1 }

/-- The capture state one page step on. -/
def paged (sc : Capture) : Capture :=
  { sc with pageSteps := sc.pageSteps + 1, approach := if sc.state = .approach then sc.approach.map (· - 1) else sc.approach }

theorem sheetStep_picking (hr : c.scan.route = some r) (hx : ctxOf c r = some x) (hq : x.scanP = some q) (hstate : c.scan.state = .picking) :
    sheetStep doce c = if doce then { c with scan := leadingEdge q.topOffset (picked c.scan) }
      else if q.pickLimit ≤ c.scan.pickSteps + 1 then scanJam r false { c with scan := picked c.scan } else { c with scan := picked c.scan } := by
  unfold sheetStep
  rw [hr]
  dsimp only
  rw [scanParamsOf_ctx hx hq]
  dsimp only
  split
  · rfl
  next k => cases hstate.symm.trans k
  next k => cases hstate.symm.trans k
  next k _ _ => exact absurd hstate k

theorem sheetStep_page (hr : c.scan.route = some r) (hx : ctxOf c r = some x) (hq : x.scanP = some q)
    (hstate : c.scan.state = .approach ∨ c.scan.state = .capturing) : sheetStep doce c =
      if doce = false then trailingEdge r q { c with scan := paged c.scan }
      else if q.maxSteps ≤ c.scan.pageSteps + 1 then scanJam r true { c with scan := paged c.scan } else { c with scan := paged c.scan } := by
  unfold sheetStep
  rw [hr]
  dsimp only
  rw [scanParamsOf_ctx hx hq]
  dsimp only
  split
  next k => rcases hstate with hstate | hstate <;> cases hstate.symm.trans k
  next k => unfold paged; rw [if_pos k]
  next k => unfold paged; rw [if_neg (show ¬c.scan.state = .approach by rw [k]; nofun)]
  next h k => exact absurd hstate (not_or.mpr ⟨h, k⟩)

theorem sheetStep_passes (h : c.scan.state ≠ .picking ∧ c.scan.state ≠ .approach ∧ c.scan.state ≠ .capturing) : sheetStep doce c = c := by
  unfold sheetStep
  split
  · rfl
  · split
    · rfl
    · split
      next k => exact absurd k h.1
      next k => exact absurd k h.2.1
      next k => exact absurd k h.2.2
      · rfl

/-! ## The line start of a channel that no cause stops -/

theorem scanHandled_starts (hu : sheetStep doce { c with scanCh := c.scanCh.step.1, pins := { c.pins with doce := doce } } = u)
    (hch : u.scanCh = c.scanCh.step.1) (hcause : c.scanCh.cause = none)
    (hmoves : c.scanCh.motion = .accelerating ∨ c.scanCh.motion = .running) (hstart : c.scanCh.step.2 = true) :
    scanHandled doce c = if (scanDecided u).scanCh.atHalt then scanDecided u else beginCapture (scanDecided u) := by
  have htaken : ({ u with scanCh := u.scanCh.takeCause } : Chip) = u := by
    rw [takeCause_none (by rw [hch]; exact hcause)]
  unfold scanHandled
  dsimp only
  rw [hu]
  change (fun v : Chip => if c.scanCh.step.2 && !v.scanCh.atHalt then scanLineStart v else v) { u with scanCh := u.scanCh.takeCause } = _
  rw [htaken]
  dsimp only
  rw [hstart, hch, atHalt_eq_false (step_moves hmoves)]
  exact scanLineStart_eq u

/-- The decision holds: the channel goes on, and a capture may begin. -/
theorem scanHandled_reserves (hu : sheetStep doce { c with scanCh := c.scanCh.step.1, pins := { c.pins with doce := doce } } = u)
    (hch : u.scanCh = c.scanCh.step.1) (hcause : c.scanCh.cause = none)
    (hmoves : c.scanCh.motion = .accelerating ∨ c.scanCh.motion = .running) (hstart : c.scanCh.step.2 = true)
    (hw : sheetLineStart u = w) (hwch : w.scanCh = c.scanCh.step.1) (hroute : c.scanCh.route = some r)
    (hpass : (reserveFor r c.scanCh.step.1.k w).2 = true) :
    scanHandled doce c = beginCapture (reserveFor r c.scanCh.step.1.k w).1 := by
  have hdecided : scanDecided u = (reserveFor r c.scanCh.step.1.k w).1 := by
    rw [scanDecided_moves hw (by rw [hwch]; exact hcause) (by rw [hwch]; exact step_moves hmoves) (by rw [hwch]; exact hroute), hwch,
      if_pos hpass]
  rw [scanHandled_starts hu hch hcause hmoves hstart, hdecided, reserveFor_channel, hwch, atHalt_eq_false (step_moves hmoves)]
  rfl

/-- The decision fails: the channel slows down, or halts at ramp index 0. -/
theorem scanHandled_denied (hu : sheetStep doce { c with scanCh := c.scanCh.step.1, pins := { c.pins with doce := doce } } = u)
    (hch : u.scanCh = c.scanCh.step.1) (hcause : c.scanCh.cause = none)
    (hmoves : c.scanCh.motion = .accelerating ∨ c.scanCh.motion = .running) (hstart : c.scanCh.step.2 = true)
    (hw : sheetLineStart u = w) (hwch : w.scanCh = c.scanCh.step.1) (hroute : c.scanCh.route = some r)
    (hpass : (reserveFor r c.scanCh.step.1.k w).2 = false) :
    ∃ v, v.scan = w.scan ∧ v.scanCh = { c.scanCh.step.1.decelerate .denied with rateReported := true } ∧
      scanHandled doce c = if c.scanCh.step.1.k = 0 then v else beginCapture v := by
  have hdecided : scanDecided u = denyScan (reserveFor r c.scanCh.step.1.k w).1 := by
    rw [scanDecided_moves hw (by rw [hwch]; exact hcause) (by rw [hwch]; exact step_moves hmoves) (by rw [hwch]; exact hroute), hwch,
      if_neg (by rw [hpass]; nofun)]
  have hvch : (denyScan (reserveFor r c.scanCh.step.1.k w).1).scanCh = { c.scanCh.step.1.decelerate .denied with rateReported := true } := by
    rw [denyScan_channel, reserveFor_channel, hwch]
  refine ⟨_, (denyScan_scan _).trans (reserveFor_lined r _ w).frame.2.2.1, hvch, ?_⟩
  rw [scanHandled_starts hu hch hcause hmoves hstart, hdecided, hvch]
  by_cases hk : c.scanCh.step.1.k = 0
  · rw [if_pos hk]
    exact if_pos ((atHalt_iff { c.scanCh.step.1.decelerate .denied with rateReported := true }).mpr ⟨rfl, hk⟩)
  · rw [if_neg hk]
    exact if_neg fun k => hk ((atHalt_iff { c.scanCh.step.1.decelerate .denied with rateReported := true }).mp k).2

/-- A channel that no cause stops begins its next interval. -/
theorem scanOnward_moves {ch : Channel} (hch : u.scanCh = ch) (hmoves : ch.motion = .accelerating ∨ ch.motion = .running)
    (hrun : ch.run = some p) (htail : ch.tail = none) (hcause : ch.cause = none) : (scanOnward u).scan = u.scan ∧
      ((scanOnward u).scanCh.motion = .accelerating ∨ (scanOnward u).scanCh.motion = .running) ∧ (scanOnward u).scanCh.cause = none := by
  subst hch
  have hplan : u.scanCh.plan.motion = u.scanCh.motion ∧ u.scanCh.plan.cause = none := by
    rcases hmoves with k | k
    · rw [plan_accelerating hrun k htail]; exact ⟨rfl, hcause⟩
    · rw [plan_running hrun k htail]; exact ⟨rfl, hcause⟩
  unfold scanOnward
  rw [atHalt_eq_false hmoves]
  refine ⟨rfl, ?_, hplan.2⟩
  change u.scanCh.plan.motion = .accelerating ∨ u.scanCh.plan.motion = .running
  rw [hplan.1]
  exact hmoves

/-! ## A line start in CAPTURING (R55, R30) -/

/-- What the channel and the capture state are after a line start that captures. -/
theorem capturing_decided (hpool : PoolOk w.pool) (hu : sheetStep doce { c with scanCh := c.scanCh.step.1, pins := { c.pins with doce := doce } } = u)
    (hch : u.scanCh = c.scanCh.step.1) (hcause : c.scanCh.cause = none) (htail : c.scanCh.tail = none) (hrun : c.scanCh.run = some p)
    (hmoves : c.scanCh.motion = .accelerating ∨ c.scanCh.motion = .running) (hpos : p.steps ≤ c.scanCh.linePos + 1)
    (hw : sheetLineStart u = w) (hwch : w.scanCh = c.scanCh.step.1) (hroute : c.scanCh.route = some r)
    (hstate : w.scan.state = .capturing) (hr : w.scan.route = some r) (hx : ctxOf w r = some x) (hq : x.scanP = some q) :
    let k := c.scanCh.step.1.k
    let need := 1 + ceilDiv (min (k + p.steps) p.r) p.steps
    let reach := x.reservations.length + min (x.quota - charged w r) w.pool.freeList.length
    let m := scanOnward (scanHandled doce c)
    (need ≤ reach → (m.scanCh.motion = .accelerating ∨ m.scanCh.motion = .running) ∧ m.scanCh.cause = none ∧
      ∃ n, (x.reservations ++ w.pool.freeList).head? = some n ∧ m.scan = { w.scan with
        acc := if 256 ≤ w.scan.acc + q.q then w.scan.acc + q.q - 256 else w.scan.acc + q.q
        capture := some (if 256 ≤ w.scan.acc + q.q then .keep n x.linesDone else .drop), captureLeft := Config.captureTime }) ∧
    (reach < need → 0 < k → m.scanCh.motion = .decelerating ∧ m.scanCh.cause = some .denied) ∧
    (reach < need → k = 0 → m.scanCh.motion = .halted ∧ m.scanCh.linePos = 0 ∧ m.scan = w.scan) := by
  intro k need reach m
  have hstart : c.scanCh.step.2 = true := by rw [step_start hrun, decide_eq_true hpos]
  have hwrun : w.scanCh.run = some p := by rw [hwch]; exact hrun
  have hneed : scanNeed w k = need := scanNeed_capturing hwrun hstate k
  have hiff : (reserveFor r k w).2 = true ↔ need ≤ reach := by rw [reserveFor_iff hx hpool, hneed]
  refine ⟨fun hle => ?_, fun hlt hk => ?_, fun hlt hk => ?_⟩
  · have hpass := hiff.mpr hle
    obtain ⟨n, hn, hscan⟩ := reserved_captures hpool hstate hr hx hq hwrun hpass
    have hhandled := scanHandled_reserves hu hch hcause hmoves hstart hw hwch hroute hpass
    have hhch : (scanHandled doce c).scanCh = c.scanCh.step.1 := by rw [hhandled, beginCapture_channel, reserveFor_channel, hwch]
    obtain ⟨oscan, omoves, ocause⟩ := scanOnward_moves hhch (step_moves hmoves) hrun ((step_tail _).trans (by rw [htail]; rfl)) hcause
    exact ⟨omoves, ocause, n, hn, by rw [oscan, hhandled, hscan]⟩
  · obtain ⟨v, -, hvch, hhandled⟩ := scanHandled_denied hu hch hcause hmoves hstart hw hwch hroute
      (Bool.eq_false_iff.mpr fun h => absurd (hiff.mp h) (by omega))
    have hhch : (scanHandled doce c).scanCh = { c.scanCh.step.1.decelerate .denied with rateReported := true } := by
      rw [hhandled, if_neg (by omega), beginCapture_channel, hvch]
    have honward : m = { scanHandled doce c with scanCh := (scanHandled doce c).scanCh.plan } :=
      if_neg fun h => by
        rw [hhch] at h
        have hzero : k = 0 := ((atHalt_iff _).mp h).2
        omega
    rw [honward]
    dsimp only
    rw [hhch]
    exact plan_denied _
  · obtain ⟨v, hvscan, hvch, hhandled⟩ := scanHandled_denied hu hch hcause hmoves hstart hw hwch hroute
      (Bool.eq_false_iff.mpr fun h => absurd (hiff.mp h) (by omega))
    rw [if_pos hk] at hhandled
    have hvstate : v.scan.state = .capturing := by rw [hvscan]; exact hstate
    have honward : m = haltScan v := by
      simp only [m]
      rw [hhandled]
      exact if_pos ((atHalt_iff _).mpr (by rw [hvch]; exact ⟨rfl, hk⟩))
    have hmscan : m.scan = w.scan := by
      simp only [m]
      rw [hhandled, scanOnward_scan (by rw [hvstate]; nofun) (by rw [hvstate]; nofun), hvscan]
    refine ⟨by rw [honward, haltScan_channel]; rfl, ?_, hmscan⟩
    rw [honward, haltScan_channel, hvch]
    exact (step_linePos hrun).trans (if_pos hpos)

end

section
variable {r : Nat} {x : Ctx} {q : ScanParams} {p : RunParams} {c u : Chip} {doce : Bool}

/-! ## Slots returned by a route that scans (R2, R16) -/

theorem ctxOf_returnSlot_scan (hx : ctxOf c r = some x) (hs : x.source ≠ .link) (n : Nat) : ctxOf (returnSlot n c) r = some x := by
  obtain ⟨g, hg, hsame⟩ := ctxOf_returnSlot (m := n) hx
  rw [hg, hsame hs]

theorem ctxOf_returnSlots_scan (hx : ctxOf c r = some x) (hs : x.source ≠ .link) (ns : List Nat) : ctxOf (returnSlots ns c) r = some x := by
  induction ns generalizing c with
  | nil => exact hx
  | cons n ns ih => exact ih (ctxOf_returnSlot_scan hx hs n)

theorem ctxOf_returnReservations_scan (hx : ctxOf c r = some x) (hs : x.source ≠ .link) :
    ctxOf (returnReservations r c) r = some { x with reservations := [] } := by
  unfold returnReservations
  rw [hx]
  exact ctxOf_returnSlots_scan (x := { x with reservations := [] }) ((ctxOf_modCtx_self ..).trans (by rw [hx]; rfl)) hs _

theorem slotAt_returnReservations_own (hx : ctxOf c r = some x) (n : Nat) :
    slotAt (returnReservations r c) n = if n ∈ x.reservations then .free else slotAt c n := by
  unfold returnReservations
  rw [hx]
  dsimp only
  rw [slotAt_returnSlots, slotAt_modCtx]

theorem returnSlot_link (hx : ctxOf c r = some x) (hs : x.source ≠ .link) {n : Nat} (hn : slotAt c n = .free ∨ (slotAt c n).route = some r) :
    (returnSlot n c).link = c.link := by
  rcases hn with hn | hn
  · unfold returnSlot
    rw [hn]
  · rw [returnSlot_charged hn, syncCredit_of_source (by exact hx) hs]

theorem returnSlots_link (hx : ctxOf c r = some x) (hs : x.source ≠ .link) (ns : List Nat)
    (hns : ∀ n ∈ ns, slotAt c n = .free ∨ (slotAt c n).route = some r) : (returnSlots ns c).link = c.link := by
  induction ns generalizing c with
  | nil => rfl
  | cons n ns ih =>
    have hfirst := returnSlot_link hx hs (hns n List.mem_cons_self)
    refine (ih (ctxOf_returnSlot_scan hx hs n) fun m hm => ?_).trans hfirst
    rw [slotAt_returnSlot]
    split
    · exact .inl rfl
    · exact hns m (List.mem_cons_of_mem _ hm)

theorem returnReservations_link (hx : ctxOf c r = some x) (hs : x.source ≠ .link)
    (hns : ∀ n ∈ x.reservations, slotAt c n = .free ∨ (slotAt c n).route = some r) : (returnReservations r c).link = c.link := by
  unfold returnReservations
  rw [hx]
  have hset : ctxOf (modCtx r (fun x => { x with reservations := [] }) c) r = some { x with reservations := [] } :=
    (ctxOf_modCtx_self ..).trans (by rw [hx]; rfl)
  refine (returnSlots_link hset hs _ fun n hn => ?_).trans (by simp)
  rw [slotAt_modCtx]
  exact hns n hn

/-! ## The channel goes on or halts -/

theorem Slows.moving {a b : Channel} (h : Slows a b) (ha : a.motion = .accelerating ∨ a.motion = .running ∨ a.motion = .decelerating) :
    b.motion ≠ .halted := by
  rcases h.motion with k | k
  · rw [k]; rcases ha with h | h | h <;> rw [h] <;> nofun
  · rw [k]; nofun

theorem plan_goes {ch : Channel} (h : ch.motion ≠ .halted) : ch.plan.motion ≠ .halted := by
  rcases plan_motion ch with k | k
  · rw [k]; exact h
  · rw [k]; nofun

theorem scanOnward_cases (hr : u.scan.route = some r) (hrunout : u.scan.state ≠ .runout)
    (hjam : u.scan.state = .jammed → u.scan.rearmed = false) (hmoves : u.scanCh.motion ≠ .halted) :
    scanOnward u = returnReservations r { u with scanCh := u.scanCh.halt } ∧ (scanOnward u).scanCh.motion = .halted ∨
      scanOnward u = { u with scanCh := u.scanCh.plan } ∧ (scanOnward u).scanCh.motion ≠ .halted := by
  unfold scanOnward
  split
  · rw [haltScan_still hr hrunout hjam]
    exact .inl ⟨rfl, congrArg Channel.motion (returnReservations_lined r _).frame.2.2.2.2.1⟩
  · exact .inr ⟨rfl, plan_goes hmoves⟩

/-- What a step leaves of its route and slots. -/
theorem scanOnward_route (hr : u.scan.route = some r) (hrunout : u.scan.state ≠ .runout)
    (hjam : u.scan.state = .jammed → u.scan.rearmed = false) (hmoves : u.scanCh.motion ≠ .halted) (hx : ctxOf u r = some x)
    (hs : x.source ≠ .link) :
    ctxOf (scanOnward u) r = some { x with reservations := if (scanOnward u).scanCh.motion = .halted then [] else x.reservations } ∧
      (∀ n, slotAt u n = .free → slotAt (scanOnward u) n = .free) ∧
      ((∀ n ∈ x.reservations, slotAt u n = .free ∨ (slotAt u n).route = some r) → (scanOnward u).link = u.link) := by
  rcases scanOnward_cases hr hrunout hjam hmoves with ⟨h, hm⟩ | ⟨h, hm⟩
  · rw [if_pos hm, h]
    refine ⟨ctxOf_returnReservations_scan (by exact hx) hs, fun n hn => ?_, fun hns => returnReservations_link (x := x) (by exact hx) hs hns⟩
    rw [slotAt_returnReservations_own (x := x) (by exact hx)]
    split
    · rfl
    · exact hn
  · rw [if_neg hm, h]
    exact ⟨hx, fun _ hn => hn, fun _ => rfl⟩

theorem placed_keeps (e : Entry) (x : Ctx) : (placed e x).reservations = x.reservations ∧ (placed e x).source = x.source := by
  unfold placed
  split
  · rw [push_eq]
    exact ⟨rfl, rfl⟩
  · exact ⟨rfl, rfl⟩

/-! ## The trailing edge (R35) -/

/-- A context whose reservations have gone back. -/
def unreserved (x : Ctx) : Ctx := { x with reservations := [] }

/-- The route at the trailing edge, its page ended unless a capture is in progress. -/
def edged (capture : Option Capturing) (x : Ctx) : Ctx :=
  if capture.isSome = true ∨ x.linesDone = 0 then unreserved x else placed (.mark (endMark false x)) (nextPage (unreserved x))

theorem trailingEdge_route (hx : ctxOf c r = some x) (hs : x.source ≠ .link) :
    ctxOf (trailingEdge r q c) r = some (edged c.scan.capture x) ∧ ∀ n ∈ x.reservations, slotAt (trailingEdge r q c) n = .free := by
  have hreturned : ctxOf (returnReservations r { c with scan := { c.scan with
      state := .tail, approach := none, tailRem := some q.tailLines, pageEndDue := c.scan.capture.isSome } }) r = some (unreserved x) :=
    ctxOf_returnReservations_scan (by exact hx) hs
  have hslots := fun n => slotAt_returnReservations_own (c := { c with scan := { c.scan with
      state := .tail, approach := none, tailRem := some q.tailLines, pageEndDue := c.scan.capture.isSome } }) (x := x) (by exact hx) n
  have hdue := congrArg Capture.pageEndDue (returnReservations_lined r { c with scan := { c.scan with
      state := .tail, approach := none, tailRem := some q.tailLines, pageEndDue := c.scan.capture.isSome } }).frame.2.2.1
  unfold trailingEdge edged
  dsimp only
  rw [hdue]
  dsimp only
  by_cases hcap : c.scan.capture.isSome = true
  · rw [if_pos hcap, if_pos (.inl hcap)]
    exact ⟨hreturned, fun n hn => (hslots n).trans (if_pos hn)⟩
  · rw [if_neg hcap]
    refine ⟨?_, fun n hn => by rw [slotAt_pageEnd, hslots n, if_pos hn]⟩
    by_cases hlines : x.linesDone = 0
    · rw [if_pos (.inr hlines), pageEnd_empty hreturned hlines]
      exact hreturned
    · rw [if_neg (not_or.mpr ⟨hcap, hlines⟩), ctxOf_pageEnd hreturned hlines]
      rfl

/-! ## The scan jam (R39) -/

theorem discardCapture_leaves (hdue : c.scan.pageEndDue = false) (hx : ctxOf c r = some x) (hs : x.source ≠ .link)
    (hslot : ∀ n row, c.scan.capture = some (.keep n row) → (slotAt c n).route = some r) :
    ctxOf (discardCapture c) r = some x ∧ (discardCapture c).link = c.link ∧
      (∀ n row, c.scan.capture = some (.keep n row) → slotAt (discardCapture c) n = .free) ∧
      ∀ n, slotAt (discardCapture c) n = .free ∨ slotAt (discardCapture c) n = slotAt c n := by
  by_cases hkeep : ∃ n row, c.scan.capture = some (.keep n row)
  · obtain ⟨n, row, hcap⟩ := hkeep
    have heq : discardCapture c = returnSlot n { c with scan := { c.scan with capture := none, captureLeft := 0, pageEndDue := false } } := by
      unfold discardCapture
      rw [hcap, hdue]
    rw [heq]
    refine ⟨ctxOf_returnSlot_scan (by exact hx) hs n, returnSlot_link (by exact hx) hs (.inr (hslot n row hcap)), fun n' row' h => ?_, fun m => ?_⟩
    · cases hcap.symm.trans h
      exact slotAt_returnSlot_self n _
    · rw [slotAt_returnSlot]
      split
      · exact .inl rfl
      · exact .inr rfl
  · have heq : discardCapture c = { c with scan := { c.scan with capture := none, captureLeft := 0, pageEndDue := false } } := by
      unfold discardCapture
      cases hcap : c.scan.capture with
      | none => rw [hdue]
      | some k =>
        cases k with
        | keep n row => exact absurd ⟨n, row, hcap⟩ hkeep
        | drop => rw [hdue]
    rw [heq]
    exact ⟨hx, rfl, fun n row h => absurd ⟨n, row, h⟩ hkeep, fun _ => .inr rfl⟩

theorem ctxOf_haltRoute_self (hx : ctxOf c r = some x) (why : Halt) : ctxOf (haltRoute r why c) r = some { x with halt := some why } := by
  rw [haltRoute_of_some hx]
  exact congrArg Route.ctx (getRoute_setRoute_self (lt_of_ctxOf hx) _)

/-- The route of a scan jam: its page ended TRUNCATED where it was under way, and HALTED (JAM). -/
def jammedCtx (onPage : Bool) (x : Ctx) : Ctx :=
  { (if onPage = true ∧ x.linesDone ≠ 0 then placed (.mark (endMark true x)) (nextPage x) else x) with halt := some .jam }

theorem jammedCtx_keeps (onPage : Bool) (x : Ctx) : (jammedCtx onPage x).reservations = x.reservations ∧ (jammedCtx onPage x).source = x.source := by
  unfold jammedCtx
  split
  · exact placed_keeps _ _
  · exact ⟨rfl, rfl⟩

theorem jamTold_leaves (onPage : Bool) (hdue : c.scan.pageEndDue = false) (hx : ctxOf c r = some x) (hs : x.source ≠ .link)
    (hslot : ∀ n row, c.scan.capture = some (.keep n row) → (slotAt c n).route = some r) :
    ctxOf (jamTold r onPage c) r = some (jammedCtx onPage x) ∧
      (256 ≤ freeBytes c → (jamTold r onPage c).link.reports = c.link.reports ++ [.event (.jam .scan r)]) ∧
      (∀ n row, c.scan.capture = some (.keep n row) → slotAt (jamTold r onPage c) n = .free) ∧
      ∀ n, slotAt (jamTold r onPage c) n = .free ∨ slotAt (jamTold r onPage c) n = slotAt c n := by
  obtain ⟨dctx, dlink, dfree, dslots⟩ := discardCapture_leaves
    (c := { c with scan := { c.scan with state := .jammed, approach := none, rearmed := false } }) hdue hx hs hslot
  unfold jamTold
  dsimp only at dctx dlink dfree dslots ⊢
  generalize discardCapture { c with scan := { c.scan with state := .jammed, approach := none, rearmed := false } } = d at dctx dlink dfree dslots ⊢
  have hpage : ctxOf (if onPage then pageEnd r true d else d) r =
      some (if onPage = true ∧ x.linesDone ≠ 0 then placed (.mark (endMark true x)) (nextPage x) else x) ∧
      (if onPage then pageEnd r true d else d).link = c.link ∧ ∀ n, slotAt (if onPage then pageEnd r true d else d) n = slotAt d n := by
    cases onPage with
    | false => exact ⟨dctx.trans (by rw [if_neg (fun k => nomatch k.1)]), dlink, fun _ => rfl⟩
    | true =>
      refine ⟨?_, (pageEnd_link r true d).1.trans dlink, fun n => slotAt_pageEnd r true d n⟩
      simp only [if_true, true_and]
      by_cases hlines : x.linesDone = 0
      · rw [if_neg (not_not.mpr hlines), pageEnd_empty dctx hlines]
        exact dctx
      · rw [if_pos hlines]
        exact ctxOf_pageEnd dctx hlines true
  obtain ⟨pctx, plink, pslots⟩ := hpage
  generalize (if onPage then pageEnd r true d else d) = e at pctx plink pslots ⊢
  obtain ⟨rs, hhalt⟩ := haltRoute_eq r .jam e
  have hslots : ∀ n, slotAt (queueEvent (.jam .scan r) (haltRoute r .jam e)) n = slotAt d n := fun n => by
    rw [slotAt_congr (c := e) (by rw [(queueEvent_frame _ _).2.1, hhalt]) n]
    exact pslots n
  refine ⟨?_, (queueEvent_link_of (c := c) (d := haltRoute r .jam e) (by rw [hhalt]; exact plink) _).1, fun n row h => (hslots n).trans (dfree n row h), fun n => by rw [hslots]; exact dslots n⟩
  rw [ctxOf_queueEvent]
  exact ctxOf_haltRoute_self pctx .jam

/-- A step that jams: its line start takes nothing, and the channel slows down. -/
theorem scanHandled_jams {onPage : Bool} {d : Chip} (hu : sheetStep doce { c with scanCh := c.scanCh.step.1, pins := { c.pins with doce := doce } } =
      scanJam r onPage d) (hd : d.scanCh = c.scanCh.step.1) (hmoving : c.scanCh.moving = true) :
    scanHandled doce c = { scanJam r onPage d with scanCh := (c.scanCh.step.1.stopFor .jam).takeCause } ∧
      (c.scanCh.step.1.stopFor .jam).takeCause.motion = .decelerating := by
  have hjch : (scanJam r onPage d).scanCh = c.scanCh.step.1.stopFor .jam := by
    rw [scanJam_eq, (stopPrintFor_scan r _).1]
    exact congrArg (Channel.stopFor .jam) ((jamTold_lined r onPage d).frame.2.2.2.2.1.trans hd)
  have hstate : (scanJam r onPage d).scan.state = .jammed := by
    rw [scanJam_eq, (stopPrintFor_scan r _).2.1]
    exact congrArg Capture.state (jamTold_lined r onPage d).frame.2.2.1
  have hslow : (c.scanCh.step.1.stopFor .jam).takeCause.motion = .decelerating := by
    rcases step_moving hmoving with k | k | k
    · exact takeCause_decelerates (stopFor_caused (.inl k) .jam) (.inl ((stopFor_moves .jam _).trans k))
    · exact takeCause_decelerates (stopFor_caused (.inr k) .jam) (.inr (.inl ((stopFor_moves .jam _).trans k)))
    · exact ((stopFor_slows .jam c.scanCh.step.1).trans (takeCause_slows _)).decelerating k
  refine ⟨?_, hslow⟩
  have hline (v : Chip) (hv : v.scan.state = .jammed) (hm : v.scanCh.motion = .decelerating) : scanLineStart v = v := by
    have hsheet : sheetLineStart v = v := by
      unfold sheetLineStart
      rw [hv]
    have htaken : v.scanCh.takeCause = v.scanCh := by
      unfold Channel.takeCause
      rw [hm]
    have hdecided : scanDecided v = v := by
      unfold scanDecided
      rw [hsheet]
      dsimp only
      rw [htaken, hm]
    rw [scanLineStart_eq, hdecided, beginCapture_idle (by rw [hv]; nofun), ite_self]
  unfold scanHandled
  dsimp only
  rw [hu, hjch]
  split
  · exact hline { scanJam r onPage d with scanCh := (c.scanCh.step.1.stopFor .jam).takeCause } hstate hslow
  · rfl

end

section
variable {r : Nat} {x : Ctx} {q : ScanParams} {p : RunParams} {c u : Chip} {doce : Bool}

/-! ## Steps that leave the line start out of account -/

/-- A step within a line, or one whose line start leaves the sheet as it is. -/
theorem step_sheet {sc : Capture} (hu : sheetStep doce { c with scanCh := c.scanCh.step.1, pins := { c.pins with doce := doce } } = u)
    (hscan : u.scan = sc) (hstate : sc.state ≠ .runout ∧ sc.state ≠ .jammed)
    (h : c.scanCh.step.2 = false ∨ (sheetLineStart { u with scanCh := u.scanCh.takeCause }).scan = sc ∧ sc.state ≠ .capturing) :
    (scanOnward (scanHandled doce c)).scan = sc := by
  subst hscan
  have hhandled := scanHandled_scan hu h
  rw [scanOnward_scan (by rw [hhandled]; exact hstate.1) (by rw [hhandled]; exact fun k => absurd k hstate.2), hhandled]

theorem sheetLineStart_far (hstate : u.scan.state = .approach) (hfar : u.scan.approach ≠ some 0) : sheetLineStart u = u := by
  unfold sheetLineStart
  rw [hstate]
  exact if_neg hfar

theorem step_midline (hrun : c.scanCh.run = some p) (hmid : c.scanCh.linePos + 1 < p.steps) : c.scanCh.step.2 = false := by
  rw [step_start hrun]
  exact decide_eq_false (by omega)

/-- The trailing edge within a line (R35). -/
theorem edge_leaves (hmoving : c.scanCh.moving = true) (hr : c.scan.route = some r) (hx : ctxOf c r = some x) (hs : x.source ≠ .link)
    (hu : sheetStep doce { c with scanCh := c.scanCh.step.1, pins := { c.pins with doce := doce } } = trailingEdge r q u)
    (huscan : u.scan.route = c.scan.route) (hctx : ctxOf u r = ctxOf c r) (hmid : c.scanCh.step.2 = false) :
    ctxOf (scanOnward (scanHandled doce c)) r = some (edged u.scan.capture x) ∧
      ∀ n ∈ x.reservations, slotAt (scanOnward (scanHandled doce c)) n = .free := by
  obtain ⟨ectx, eslots⟩ := trailingEdge_route (q := q) (hctx.trans hx) hs
  have hhandled : scanHandled doce c = { trailingEdge r q u with scanCh := (trailingEdge r q u).scanCh.takeCause } := by
    unfold scanHandled
    dsimp only
    rw [hu, hmid]
    rfl
  have hscan := (trailingEdge_lined r q u).frame.2.2.1
  have hres : (edged u.scan.capture x).reservations = [] ∧ (edged u.scan.capture x).source = x.source := by
    unfold edged
    split
    · exact ⟨rfl, rfl⟩
    · exact placed_keeps _ _
  have hmoves := (scanHandled_slows hmoving doce).1.moving (step_moving hmoving)
  obtain ⟨octx, oslots, -⟩ := scanOnward_route (r := r) (u := scanHandled doce c) (x := edged u.scan.capture x)
    (by rw [hhandled]; dsimp only; rw [hscan]; exact huscan.trans hr) (by rw [hhandled]; dsimp only; rw [hscan]; nofun)
    (by rw [hhandled]; dsimp only; rw [hscan]; nofun) hmoves (by rw [hhandled]; exact ectx) (by rw [hres.2]; exact hs)
  refine ⟨octx.trans (congrArg some ?_), fun n hn => oslots n (by rw [hhandled]; exact eslots n hn)⟩
  generalize edged u.scan.capture x = y at hres ⊢
  obtain ⟨hnone, -⟩ := hres
  cases y
  dsimp only at hnone ⊢
  subst hnone
  rw [ite_self]

/-- A scan jam (R39, R67). -/
theorem jam_leaves {onPage : Bool} {d : Chip} (hmoving : c.scanCh.moving = true) (hr : c.scan.route = some r) (hx : ctxOf c r = some x)
    (hs : x.source ≠ .link) (hu : sheetStep doce { c with scanCh := c.scanCh.step.1, pins := { c.pins with doce := doce } } = scanJam r onPage d)
    (hd : d.scanCh = c.scanCh.step.1) (hdue : d.scan.pageEndDue = false)
    (hroutes : d.routes = c.routes) (hpool : d.pool = c.pool) (hlink : d.link = c.link)
    (hslot : ∀ n row, d.scan.capture = some (.keep n row) → (slotAt c n).route = some r) (hres : ∀ n ∈ x.reservations, (slotAt c n).route = some r) :
    let m := scanOnward (scanHandled doce c)
    m.scan = { d.scan with
      state := .jammed, approach := none, rearmed := false, capture := none, captureLeft := 0, pageEndDue := false, asked := false } ∧
    (∀ n row, d.scan.capture = some (.keep n row) → slotAt m n = .free) ∧
    (m.scanCh.motion = .decelerating ∨ m.scanCh.motion = .halted) ∧
    (c.scanCh.motion ≠ .decelerating → c.scanCh.cause = none → m.scanCh.motion = .decelerating → m.scanCh.cause = some .jam) ∧
    (256 ≤ freeBytes c → m.link.reports = c.link.reports ++ [.event (.jam .scan r)]) ∧
    ctxOf m r = some { jammedCtx onPage x with reservations := if m.scanCh.motion = .halted then [] else x.reservations } := by
  intro m
  obtain ⟨hhandled, hslow⟩ := scanHandled_jams hu hd hmoving
  obtain ⟨tctx, treports, tfree, tslots⟩ := jamTold_leaves (c := d) onPage hdue ((ctxOf_congr hroutes r).trans hx) hs
    (fun n row h => by rw [slotAt_congr hpool]; exact hslot n row h)
  obtain ⟨pch, pscan, ppool, proutes, plink, -⟩ := stopPrintFor_scan r (stopScan .jam (jamTold r onPage d))
  have tscan := (jamTold_lined r onPage d).frame.2.2.1
  have jscan : (scanJam r onPage d).scan = { d.scan with
      state := .jammed, approach := none, rearmed := false, capture := none, captureLeft := 0, pageEndDue := false, asked := false } := by
    rw [scanJam_eq, pscan]
    unfold stopScan
    rw [tscan]
  have jpool : (scanJam r onPage d).pool = (jamTold r onPage d).pool := ppool
  have jlink : (scanJam r onPage d).link = (jamTold r onPage d).link := plink
  have jctx : ctxOf (scanJam r onPage d) r = some (jammedCtx onPage x) := (ctxOf_congr (c := jamTold r onPage d) proutes r).trans tctx
  have hscan : (scanHandled doce c).scan = (scanJam r onPage d).scan := by rw [hhandled]
  have hch : (scanHandled doce c).scanCh = (c.scanCh.step.1.stopFor .jam).takeCause := by rw [hhandled]
  have hstate : (scanHandled doce c).scan.state = .jammed := by rw [hscan, jscan]
  have hstill : (scanHandled doce c).scan.rearmed = false := by rw [hscan, jscan]
  obtain ⟨kres, ksource⟩ := jammedCtx_keeps onPage x
  have hat : ∀ n, slotAt (scanHandled doce c) n = slotAt (jamTold r onPage d) n := fun n => slotAt_congr (by rw [hhandled]; exact jpool) n
  have hroutec : (scanHandled doce c).scan.route = some r := (scanHandled_sheeted doce c).1.trans hr
  have hgoes : (scanHandled doce c).scanCh.motion ≠ .halted := by rw [hch, hslow]; nofun
  obtain ⟨octx, oslots, olink⟩ := scanOnward_route (u := scanHandled doce c) hroutec (by rw [hstate]; nofun) (fun _ => hstill) hgoes
    (by rw [hhandled]; exact jctx) (by rw [ksource]; exact hs)
  refine ⟨?_, fun n row h => oslots n (by rw [hat]; exact tfree n row h), ?_, fun hm hc hslows => ?_, fun hroom => ?_, ?_⟩
  · simp only [m]
    rw [scanOnward_scan (by rw [hstate]; nofun) (fun _ => hstill), hscan, jscan]
  · rcases scanOnward_cases hroutec (by rw [hstate]; nofun) (fun _ => hstill) hgoes with ⟨-, h⟩ | ⟨h, -⟩
    · exact .inr h
    · refine .inl ?_
      simp only [m]
      rw [h]
      dsimp only
      rw [plan_decelerating (by rw [hch]; exact hslow), hch]
      exact hslow
  · rcases scanOnward_cases hroutec (by rw [hstate]; nofun) (fun _ => hstill) hgoes with ⟨-, h⟩ | ⟨h, -⟩
    · rw [show m.scanCh.motion = _ from h] at hslows
      cases hslows
    · have hmoves : c.scanCh.step.1.motion = .accelerating ∨ c.scanCh.step.1.motion = .running := by
        rcases (moving_iff _).mp hmoving with k | k | k
        · exact step_moves (.inl k)
        · exact step_moves (.inr k)
        · exact absurd k hm
      have hcause : (c.scanCh.step.1.stopFor .jam).takeCause.cause = some .jam := by
        rw [stopFor_fresh hmoves hc]
        unfold Channel.takeCause
        split <;> rfl
      simp only [m]
      rw [h]
      dsimp only
      rw [plan_decelerating (by rw [hch]; exact hslow), hch]
      exact hcause
  · have hown : ∀ n ∈ (jammedCtx onPage x).reservations, slotAt (scanHandled doce c) n = .free ∨ (slotAt (scanHandled doce c) n).route = some r := by
      intro n hn
      rw [kres] at hn
      rw [hat]
      rcases tslots n with k | k
      · exact .inl k
      · rw [k, slotAt_congr hpool]
        exact .inr (hres n hn)
    have hsame : m.link = (jamTold r onPage d).link := (olink hown).trans (by rw [hhandled]; exact jlink)
    have hfree : freeBytes d = freeBytes c := by simp only [freeBytes, usedBytes, hlink]
    rw [hsame, treports (by rw [hfree]; exact hroom), hlink]
  · rw [octx, kres]

/-! ## The end of a sheet (R36, R37) -/

theorem endScanSource_scan (c : Chip) : (endScanSource c).scan = { c.scan with state := .ended, approach := none, lampUse := false } ∧
    (endScanSource c).link = c.link := by
  unfold endScanSource dropLamp
  dsimp only
  cases h : c.scan.lampUse <;> exact ⟨rfl, rfl⟩

/-- The halt of the scan channel at the end of a sheet. -/
theorem runout_halts (hr : c.scan.route = some r) (hx : ctxOf c r = some x) (hstate : c.scan.state = .runout)
    (hm : c.scanCh.motion = .decelerating) (hk : c.scanCh.step.1.k = 0) (hres : x.reservations = []) :
    ∃ v, scanOnward (scanHandled doce c) = endOfSheet v ∧ v.scan = c.scan ∧ ctxOf v r = some x ∧ v.pool = c.pool ∧ v.link = c.link ∧
      v.pins = { c.pins with doce := doce } ∧ v.scanCh = c.scanCh.step.1.halt := by
  have htaken : c.scanCh.step.1.takeCause = c.scanCh.step.1 := by
    unfold Channel.takeCause
    rw [step_decelerating hm]
  have hat : c.scanCh.step.1.atHalt = true := (atHalt_iff _).mpr ⟨step_decelerating hm, hk⟩
  have hsheet : sheetStep doce { c with scanCh := c.scanCh.step.1, pins := { c.pins with doce := doce } } =
      { c with scanCh := c.scanCh.step.1, pins := { c.pins with doce := doce } } :=
    sheetStep_passes (by dsimp only; rw [hstate]; exact ⟨nofun, nofun, nofun⟩)
  have hhandled : scanHandled doce c = { c with scanCh := c.scanCh.step.1, pins := { c.pins with doce := doce } } := by
    unfold scanHandled
    dsimp only
    rw [hsheet]
    dsimp only
    rw [htaken, hat, Bool.not_true, Bool.and_false]
    rfl
  have hback : returnReservations r { c with scanCh := c.scanCh.step.1.halt, pins := { c.pins with doce := doce } } =
      modCtx r (fun x => { x with reservations := [] }) { c with scanCh := c.scanCh.step.1.halt, pins := { c.pins with doce := doce } } := by
    unfold returnReservations
    rw [ctxOf_congr (c := c) (by rfl), hx]
    dsimp only
    rw [hres]
    rfl
  refine ⟨modCtx r (fun x => { x with reservations := [] }) { c with scanCh := c.scanCh.step.1.halt, pins := { c.pins with doce := doce } },
    ?_, by simp, ?_, by simp, by simp, by simp, by simp⟩
  · rw [hhandled]
    unfold scanOnward
    rw [if_pos hat]
    unfold haltScan
    dsimp only
    rw [hr]
    dsimp only
    rw [hback]
    unfold sheetHalted
    rw [(modCtx_lined _ _ _).frame.2.2.1]
    dsimp only
    rw [hstate]
  · rw [ctxOf_modCtx_self, ctxOf_congr (c := c) (by rfl), hx, Option.map_some]
    cases x
    dsimp only at hres ⊢
    rw [hres]

end

section
variable {r : Nat} {x : Ctx} {q : ScanParams} {p : RunParams} {c u w : Chip} {doce : Bool}

/-! ## Line starts of the sheet (R28, R36) -/

/-- A line start captures or not: state, approach and page steps are those of the sheet. -/
def SameSheet (a b : Capture) : Prop := b.state = a.state ∧ b.approach = a.approach ∧ b.pageSteps = a.pageSteps

theorem beginCapture_sheet (c : Chip) : SameSheet c.scan (beginCapture c).scan := by
  unfold beginCapture
  split
  · split
    · exact ⟨rfl, rfl, rfl⟩
    · split
      · dsimp only
        split <;> split <;> exact ⟨by simp, by simp, by simp⟩
      · exact ⟨rfl, rfl, rfl⟩
  · exact ⟨rfl, rfl, rfl⟩

/-- What a line start that decides leaves of the sheet. -/
theorem decided_sheet (hu : sheetStep doce { c with scanCh := c.scanCh.step.1, pins := { c.pins with doce := doce } } = u)
    (hch : u.scanCh = c.scanCh.step.1) (hcause : c.scanCh.cause = none)
    (hmoves : c.scanCh.motion = .accelerating ∨ c.scanCh.motion = .running) (hstart : c.scanCh.step.2 = true)
    (hw : sheetLineStart u = w) (hwch : w.scanCh = c.scanCh.step.1) (hroute : c.scanCh.route = some r)
    (hstate : w.scan.state ≠ .runout ∧ w.scan.state ≠ .jammed) : SameSheet w.scan (scanOnward (scanHandled doce c)).scan := by
  have hhandled : SameSheet w.scan (scanHandled doce c).scan := by
    cases hpass : (reserveFor r c.scanCh.step.1.k w).2 with
    | true =>
      obtain ⟨hs, ha, hp⟩ := beginCapture_sheet (reserveFor r c.scanCh.step.1.k w).1
      have hscan := (reserveFor_lined r c.scanCh.step.1.k w).frame.2.2.1
      rw [scanHandled_reserves hu hch hcause hmoves hstart hw hwch hroute hpass]
      rw [hscan] at hs ha hp
      exact ⟨hs, ha, hp⟩
    | false =>
      obtain ⟨v, hv, -, hhandled⟩ := scanHandled_denied hu hch hcause hmoves hstart hw hwch hroute hpass
      rw [hhandled]
      split
      · rw [hv]
        exact ⟨rfl, rfl, rfl⟩
      · rw [← hv]
        exact beginCapture_sheet v
  rw [scanOnward_scan (by rw [hhandled.1]; exact hstate.1) (by rw [hhandled.1]; exact fun k => absurd k hstate.2)]
  exact hhandled

/-- The line start at which the approach has run down: CAPTURING (R28). -/
theorem approach_captures (hstate : u.scan.state = .approach) (hnone : u.scan.approach = some 0) :
    sheetLineStart u = { u with scan := { u.scan with state := .capturing, approach := none, acc := 0 } } := by
  unfold sheetLineStart
  split
  · exact if_pos hnone
  next k => cases hstate.symm.trans k
  next k _ => exact absurd hstate k

theorem tail_counts {n : Nat} (hstate : u.scan.state = .tail) (hrem : u.scan.tailRem = some (n + 1)) :
    sheetLineStart u = { u with scan := { u.scan with tailRem := some n } } := by
  unfold sheetLineStart
  split
  next k => cases hstate.symm.trans k
  · rw [hrem]
  next _ k => exact absurd hstate k

theorem tail_ends (hstate : u.scan.state = .tail) (hrem : u.scan.tailRem = some 0) :
    sheetLineStart u = stopScan .stop { u with scan := { u.scan with state := .runout, tailRem := none } } := by
  unfold sheetLineStart
  split
  next k => cases hstate.symm.trans k
  · rw [hrem]
  next _ k => exact absurd hstate k

theorem reserveFor_tail (hstate : w.scan.state = .tail) (r k : Nat) : (reserveFor r k w).2 = true := by
  unfold reserveFor
  dsimp only
  rw [scanNeed_tail hstate]
  exact decide_eq_true (Nat.zero_le _)

/-- A line of the tail feed: no slot is asked for, and the channel goes on (R36, R55). -/
theorem tail_goes_on {n : Nat} (hcause : c.scanCh.cause = none) (htail : c.scanCh.tail = none) (hrun : c.scanCh.run = some p)
    (hmoves : c.scanCh.motion = .accelerating ∨ c.scanCh.motion = .running) (hstart : c.scanCh.step.2 = true)
    (hroute : c.scanCh.route = some r) (hstate : c.scan.state = .tail) (hrem : c.scan.tailRem = some (n + 1)) :
    (scanOnward (scanHandled doce c)).scan = { c.scan with tailRem := some n } ∧
      (scanOnward (scanHandled doce c)).scanCh.motion ≠ .decelerating := by
  have hu : sheetStep doce { c with scanCh := c.scanCh.step.1, pins := { c.pins with doce := doce } } =
      { c with scanCh := c.scanCh.step.1, pins := { c.pins with doce := doce } } :=
    sheetStep_passes (by dsimp only; rw [hstate]; exact ⟨nofun, nofun, nofun⟩)
  have hw := tail_counts (u := { c with scanCh := c.scanCh.step.1, pins := { c.pins with doce := doce } }) hstate hrem
  dsimp only at hw
  have hpass : (reserveFor r c.scanCh.step.1.k { c with
      scanCh := c.scanCh.step.1, pins := { c.pins with doce := doce }, scan := { c.scan with tailRem := some n } }).2 = true := reserveFor_tail (by exact hstate) r _
  have hhandled := scanHandled_reserves hu rfl hcause hmoves hstart hw rfl hroute hpass
  have hscan := (reserveFor_lined r c.scanCh.step.1.k { c with
      scanCh := c.scanCh.step.1, pins := { c.pins with doce := doce }, scan := { c.scan with tailRem := some n } }).frame.2.2.1
  rw [beginCapture_idle (by rw [hscan]; dsimp only; rw [hstate]; nofun)] at hhandled
  have hhch : (scanHandled doce c).scanCh = c.scanCh.step.1 := by rw [hhandled, reserveFor_channel]
  obtain ⟨oscan, omoves, -⟩ := scanOnward_moves hhch (step_moves hmoves) hrun ((step_tail _).trans (by rw [htail]; rfl)) hcause
  refine ⟨by rw [oscan, hhandled, hscan], ?_⟩
  rcases omoves with k | k <;> rw [k] <;> nofun

/-- The last line of the tail feed: the channel is asked to stop (R36, R53). -/
theorem tail_stops (hcause : c.scanCh.cause = none)
    (hmoves : c.scanCh.motion = .accelerating ∨ c.scanCh.motion = .running) (hstart : c.scanCh.step.2 = true)
    (hstate : c.scan.state = .tail) (hrem : c.scan.tailRem = some 0) (hk : 0 < c.scanCh.step.1.k) :
    (scanOnward (scanHandled doce c)).scan = { c.scan with state := .runout, tailRem := none, asked := false } ∧
      (scanOnward (scanHandled doce c)).scanCh.motion = .decelerating ∧ (scanOnward (scanHandled doce c)).scanCh.cause = some .stop := by
  have hu : sheetStep doce { c with scanCh := c.scanCh.step.1, pins := { c.pins with doce := doce } } =
      { c with scanCh := c.scanCh.step.1, pins := { c.pins with doce := doce } } :=
    sheetStep_passes (by dsimp only; rw [hstate]; exact ⟨nofun, nofun, nofun⟩)
  have hw := tail_ends (u := { c with scanCh := c.scanCh.step.1, pins := { c.pins with doce := doce } }) hstate hrem
  have hstopped : (c.scanCh.step.1.stopFor .stop).takeCause = c.scanCh.step.1.decelerate .stop := by
    rw [stopFor_fresh (step_moves hmoves) hcause]
    unfold Channel.takeCause Channel.decelerate
    rcases step_moves hmoves with k | k <;> rw [k]
  have hdecided : scanDecided { c with scanCh := c.scanCh.step.1, pins := { c.pins with doce := doce } } = { c with
      scanCh := c.scanCh.step.1.decelerate .stop, pins := { c.pins with doce := doce }
      scan := { c.scan with state := .runout, tailRem := none, asked := false } } := by
    unfold scanDecided
    rw [hw]
    unfold stopScan
    dsimp only
    rw [hstopped]
    rfl
  have hno : ∀ ch : Channel, ch.k = c.scanCh.step.1.k → ¬ch.atHalt = true := fun ch h k => by
    rw [atHalt_iff, h] at k
    omega
  have hhandled := scanHandled_starts hu rfl hcause hmoves hstart
  rw [hdecided, if_neg (hno (c.scanCh.step.1.decelerate .stop) rfl), beginCapture_idle (by nofun)] at hhandled
  rw [hhandled]
  unfold scanOnward
  rw [if_neg (hno (c.scanCh.step.1.decelerate .stop) rfl)]
  exact ⟨rfl, rfl, rfl⟩

end

end Sys2Proof.Proofs
end

section
/-!
PROOFS. Steps, intervals, lookahead decisions, the sheet cycle, tail feeds and holds of the channels (02_scan_path.md, 03_motor_timing.md,
04_print_path.md): what MOTOR_STEP and HOLD_EXPIRY do.
-/

-- One declaration after another: the package as one text keeps within the check's limit on threads.
set_option Elab.async false

namespace Sys2Proof.Proofs

open Sys2Proof Sys2Proof.Machine

theorem exec_motorStep (ch : ChannelId) (doce : Bool) (therm : Byte) (s : State) :
    exec (.motorStep ch doce therm) s = .next (s.onChip (stepChip ch doce therm)) := rfl

theorem exec_holdExpiry (ch : ChannelId) (s : State) : exec (.holdExpiry ch) s = .next (s.onChip (holdChip ch)) := rfl

section
variable {r : Nat} {x : Ctx} {h : HeadCopy} {q : ScanParams} {p : RunParams} {c : Chip} {doce : Bool}

/-! ## What a step leaves outside its channel -/

theorem scanStep_kept (hmoving : c.scanCh.moving = true) (doce : Bool) :
    Kept { c with scanCh := c.scanCh.step.1, pins := { c.pins with doce := doce } } (scanStep doce c) := by
  rw [scanStep_moving hmoving]
  refine settleScan_kept (scanOnward_kept ?_)
  have hsheet := sheetStep_kept (Kept.rfl (c := { c with scanCh := c.scanCh.step.1, pins := { c.pins with doce := doce } })) doce
  unfold scanHandled
  extract_lets st _ u v
  have hv : Kept { c with scanCh := c.scanCh.step.1, pins := { c.pins with doce := doce } } v :=
    Kept.trans hsheet (Kept.update .rfl)
  clear_value v
  split
  · exact scanLineStart_kept hv
  · exact hv

theorem printStep_kept (hmoving : c.printCh.moving = true) (therm : Byte) :
    Kept { c with printCh := c.printCh.step.1 } (printStep therm c) := by
  rw [printStep_moving hmoving]
  refine settlePrint_kept (printOnward_kept ?_)
  have htaken : Kept { c with printCh := c.printCh.step.1 } { c with printCh := c.printCh.step.1.takeCause } :=
    Kept.update (b := { c with printCh := c.printCh.step.1 }) .rfl
  unfold printHandled
  dsimp only
  split
  · exact printLineStart_kept htaken therm
  · exact htaken

/-! ## A line start of the print channel, case by case -/

theorem printStep_line (hrun : c.printCh.run = some p) (hcause : c.printCh.cause = none) (htail : c.printCh.tail = none)
    (hmoves : c.printCh.motion = .accelerating ∨ c.printCh.motion = .running) (hpos : p.steps ≤ c.printCh.linePos + 1) (therm : Byte) :
    printStep therm c = settlePrint (printOnward (printDecided therm (dropBurned { c with printCh := c.printCh.step.1 }))) := by
  rw [printStep_moving ((moving_iff _).mpr (or_assoc.mp (.inl hmoves))), printHandled_line hrun hcause htail hmoves hpos]

/-- The three outcomes of a line start with a line at the head (R57). -/
theorem decided_line {e : LineEntry} {rest : List Entry} (hd : Deciding r x h p c) (hq : x.printQ = .line e :: rest) (therm : Byte) {passes : Prop}
    (hpasses : passes ↔ 1 + ceilDiv (min (c.printCh.k + p.steps) p.r) p.steps ≤
      h.copies - c.head.burns + h.copies * (rest.takeWhile isLine).length ∨ ∃ m, Entry.mark m ∈ rest) :
    let t := settlePrint (printOnward (printDecided therm c))
    (passes → (t.printCh.motion = .accelerating ∨ t.printCh.motion = .running) ∧ t.printCh.cause = none ∧ t.head.latch = some e ∧
      t.head.burns = c.head.burns + 1) ∧
    (¬passes → 0 < c.printCh.k → t.printCh.motion = .decelerating ∧ t.printCh.cause = some .denied ∧ t.head.latch = some e ∧
      t.head.burns = c.head.burns + 1) ∧
    (¬passes → c.printCh.k = 0 → t.printCh.motion = .halted ∧ t.printCh.linePos = 0 ∧ t.head.latch = c.head.latch ∧
      t.head.burns = c.head.burns) := by
  have hiff : printPasses c c.printCh.k = true ↔ passes := (printPasses_line hd hq).trans hpasses.symm
  have hfails : ¬passes → printPasses c c.printCh.k = false := fun hno => Bool.eq_false_iff.mpr fun k => hno (hiff.mp k)
  exact ⟨fun hp => decided_burns hd hq (hiff.mpr hp) therm, fun hno hk => decided_slows hd hq (hfails hno) hk therm,
    fun hno hk => decided_halts hd hq (hfails hno) hk therm⟩

end

theorem settlePrint_cut (c : Chip) : (settlePrint c).head.cut = c.head.cut ∧ (settlePrint c).head.cutTime = c.head.cutTime := by
  unfold settlePrint
  split
  next r _ =>
    obtain ⟨hcut, htime, -⟩ := (settle_attended (P := (· = r)) (u := refreshLoad c) .rfl rfl).cut
    obtain ⟨_, _, hload⟩ := refreshLoad_eq c
    rw [hload] at hcut htime ⊢
    exact ⟨hcut, htime⟩
  · exact ⟨rfl, rfl⟩

theorem holdOver_ends {ch : Channel} (hm : ch.motion = .halted) (hdrive : ch.drive = .hold) :
    ch.holdOver = { ch with drive := .off, holdLeft := 0 } := if_pos ⟨hm, hdrive⟩

section
variable {r : Nat} {x : Ctx} {q : ScanParams} {p : RunParams} {c : Chip} {doce : Bool}

/-! ## The sheet after a step, case by case (R27, R28, R35, R39) -/

theorem sheetLineStart_other {u : Chip} (h : u.scan.state ≠ .approach) (k : u.scan.state ≠ .tail) : sheetLineStart u = u := by
  unfold sheetLineStart
  split
  next e => exact absurd e h
  next e => exact absurd e k
  · rfl

/-- The leading edge is met in a pick. -/
theorem pick_meets (hr : c.scan.route = some r) (hx : ctxOf c r = some x) (hq : x.scanP = some q) (hstate : c.scan.state = .picking)
    (hfar : c.scanCh.step.2 = false ∨ 0 < q.topOffset) :
    (scanOnward (scanHandled true c)).scan = leadingEdge q.topOffset (picked c.scan) := by
  have hu := sheetStep_picking (c := { c with scanCh := c.scanCh.step.1, pins := { c.pins with doce := true } }) (doce := true) hr hx hq hstate
  rw [if_pos rfl] at hu
  refine step_sheet hu rfl ⟨nofun, nofun⟩ (hfar.imp id fun hpos => ⟨congrArg Chip.scan (sheetLineStart_far rfl ?_), nofun⟩)
  exact fun k => absurd (Option.some.inj k) (Nat.pos_iff_ne_zero.mp hpos)

theorem pick_goes (hr : c.scan.route = some r) (hx : ctxOf c r = some x) (hq : x.scanP = some q) (hstate : c.scan.state = .picking)
    (hlimit : c.scan.pickSteps + 1 < q.pickLimit) : (scanOnward (scanHandled false c)).scan = picked c.scan := by
  have hu := sheetStep_picking (c := { c with scanCh := c.scanCh.step.1, pins := { c.pins with doce := false } }) (doce := false) hr hx hq hstate
  rw [if_neg nofun, if_neg (Nat.not_le.mpr hlimit)] at hu
  have hpicked : (picked c.scan).state = .picking := hstate
  refine step_sheet hu rfl (by rw [hpicked]; exact ⟨nofun, nofun⟩) (.inr ⟨congrArg Chip.scan (sheetLineStart_other ?_ ?_), by rw [hpicked]; nofun⟩)
  · exact fun k => nomatch hpicked.symm.trans k
  · exact fun k => nomatch hpicked.symm.trans k

theorem page_goes (hr : c.scan.route = some r) (hx : ctxOf c r = some x) (hq : x.scanP = some q)
    (hstate : c.scan.state = .approach ∨ c.scan.state = .capturing) (hmax : c.scan.pageSteps + 1 < q.maxSteps)
    (hfar : c.scanCh.step.2 = false ∨ c.scan.state = .approach ∧ (paged c.scan).approach ≠ some 0) :
    (scanOnward (scanHandled true c)).scan = paged c.scan := by
  have hu := sheetStep_page (c := { c with scanCh := c.scanCh.step.1, pins := { c.pins with doce := true } }) (doce := true) hr hx hq hstate
  rw [if_neg nofun, if_neg (Nat.not_le.mpr hmax)] at hu
  have hpaged : (paged c.scan).state = c.scan.state := rfl
  refine step_sheet hu rfl ?_ (hfar.imp id fun hno => ⟨congrArg Chip.scan (sheetLineStart_far ?_ ?_), ?_⟩)
  · rw [hpaged]
    rcases hstate with k | k <;> rw [k] <;> exact ⟨nofun, nofun⟩
  · exact hno.1
  · exact hno.2
  · rw [hpaged, hno.1]
    nofun

theorem tail_waits (hstate : c.scan.state = .tail) (hmid : c.scanCh.step.2 = false) : (scanOnward (scanHandled doce c)).scan = c.scan :=
  step_sheet (u := { c with scanCh := c.scanCh.step.1, pins := { c.pins with doce := doce } })
    (sheetStep_passes (by dsimp only; rw [hstate]; exact ⟨nofun, nofun, nofun⟩)) rfl (by rw [hstate]; exact ⟨nofun, nofun⟩) (.inl hmid)

/-- The trailing edge is met (R35). -/
theorem page_ends (hmoving : c.scanCh.moving = true) (hr : c.scan.route = some r) (hx : ctxOf c r = some x) (hs : x.source ≠ .link)
    (hq : x.scanP = some q) (hstate : c.scan.state = .approach ∨ c.scan.state = .capturing) (hmid : c.scanCh.step.2 = false) :
    let m := scanOnward (scanHandled false c)
    m.scan = { c.scan with state := .tail, pageSteps := c.scan.pageSteps + 1, approach := none, tailRem := some q.tailLines
                           pageEndDue := c.scan.capture.isSome } ∧
      ctxOf m r = some (edged c.scan.capture x) ∧ ∀ n ∈ x.reservations, slotAt m n = .free := by
  have hu := sheetStep_page (c := { c with scanCh := c.scanCh.step.1, pins := { c.pins with doce := false } }) (doce := false) hr hx hq hstate
  rw [if_pos rfl] at hu
  have hscan := (trailingEdge_lined r q { c with
    scanCh := c.scanCh.step.1, pins := { c.pins with doce := false }, scan := paged c.scan }).frame.2.2.1
  intro m
  refine ⟨step_sheet hu hscan ⟨nofun, nofun⟩ (.inl hmid), ?_⟩
  exact edge_leaves (u := { c with scanCh := c.scanCh.step.1, pins := { c.pins with doce := false }, scan := paged c.scan })
    hmoving hr hx hs hu rfl rfl hmid

theorem edged_capture {capture : Option Capturing} (h : capture ≠ none ∨ x.linesDone = 0) : edged capture x = unreserved x :=
  if_pos (h.imp Option.isSome_iff_ne_none.mpr id)

theorem edged_placed (hlines : 0 < x.linesDone) : edged none x = placed (.mark (endMark false x)) (nextPage (unreserved x)) :=
  if_neg (not_or.mpr ⟨nofun, Nat.pos_iff_ne_zero.mp hlines⟩)

theorem nextPage_room (x : Ctx) : hasRoom (nextPage (unreserved x)) = hasRoom x ∧ hasRoom (nextPage x) = hasRoom x := ⟨rfl, rfl⟩

theorem jammedCtx_idle (onPage : Bool) (h : onPage = false ∨ x.linesDone = 0) : jammedCtx onPage x = { x with halt := some .jam } := by
  unfold jammedCtx
  rw [if_neg fun k => h.elim (fun e => by rw [e] at k; exact nomatch k.1) k.2]

theorem jammedCtx_page (hlines : 0 < x.linesDone) :
    jammedCtx true x = { placed (.mark (endMark true x)) (nextPage x) with halt := some .jam } := by
  unfold jammedCtx
  rw [if_pos ⟨rfl, Nat.pos_iff_ne_zero.mp hlines⟩]

end

section
variable {r : Nat} {x : Ctx} {q : ScanParams} {p : RunParams} {c : Chip} {doce : Bool}

theorem paged_approach {sc : Capture} {a : Option Nat} (h : (paged sc).approach = a) :
    paged sc = { sc with pageSteps := sc.pageSteps + 1, approach := a } := by
  rw [← h]
  rfl

theorem paged_capturing {sc : Capture} (h : sc.state = .capturing) : paged sc = { sc with pageSteps := sc.pageSteps + 1 } := by
  unfold paged
  rw [if_neg (by rw [h]; nofun)]

/-- A jam of a step (R39): a pick or a page that has gone on too long. -/
theorem step_jams {onPage : Bool} {sc : Capture} (hmoving : c.scanCh.moving = true) (hr : c.scan.route = some r) (hx : ctxOf c r = some x)
    (hs : x.source ≠ .link) (hu : sheetStep doce { c with scanCh := c.scanCh.step.1, pins := { c.pins with doce := doce } } =
      scanJam r onPage { c with scanCh := c.scanCh.step.1, pins := { c.pins with doce := doce }, scan := sc })
    (hcapture : sc.capture = c.scan.capture) (hlamp : sc.lampUse = c.scan.lampUse) (hpending : sc.pageEndDue = false)
    (hslot : ∀ n row, c.scan.capture = some (.keep n row) → (slotAt c n).route = some r) (hres : ∀ n ∈ x.reservations, (slotAt c n).route = some r) :
    let m := scanOnward (scanHandled doce c)
    m.scan.state = .jammed ∧ m.scan.capture = none ∧ m.scan.lampUse = c.scan.lampUse ∧
    (∀ n row, c.scan.capture = some (.keep n row) → slotAt m n = .free) ∧
    (m.scanCh.motion = .decelerating ∨ m.scanCh.motion = .halted) ∧
    (c.scanCh.motion ≠ .decelerating → c.scanCh.cause = none → m.scanCh.motion = .decelerating → m.scanCh.cause = some .jam) ∧
    (256 ≤ freeBytes c → m.link.reports = c.link.reports ++ [.event (.jam .scan r)]) ∧
    ctxOf m r = some { jammedCtx onPage x with reservations := if m.scanCh.motion = .halted then [] else x.reservations } := by
  obtain ⟨hscan, hfree, hmotion, hcause, hreports, hctx⟩ := jam_leaves (d := { c with
    scanCh := c.scanCh.step.1, pins := { c.pins with doce := doce }, scan := sc }) hmoving hr hx hs hu rfl hpending rfl rfl rfl
    (fun n row h => hslot n row (hcapture.symm.trans h)) hres
  refine ⟨by rw [hscan], by rw [hscan], by rw [hscan]; exact hlamp, fun n row h => hfree n row (hcapture.trans h), hmotion, hcause, hreports, hctx⟩

/-- A line start at which the approach has run down: CAPTURING, with the first capture (R28, R30, R55). -/
theorem approach_ends {sc : Capture} (hu : sheetStep doce { c with scanCh := c.scanCh.step.1, pins := { c.pins with doce := doce } } = { c with
      scanCh := c.scanCh.step.1, pins := { c.pins with doce := doce }, scan := sc }) (hstate : sc.state = .approach)
    (hdown : sc.approach = some 0) (hroutes : sc.route = c.scan.route) (hr : c.scan.route = some r) (hx : ctxOf c r = some x)
    (hq : x.scanP = some q) (hcause : c.scanCh.cause = none) (htail : c.scanCh.tail = none) (hrun : c.scanCh.run = some p)
    (hmoves : c.scanCh.motion = .accelerating ∨ c.scanCh.motion = .running) (hpos : p.steps ≤ c.scanCh.linePos + 1)
    (hroute : c.scanCh.route = some r) :
    let m := scanOnward (scanHandled doce c)
    m.scan.state = .capturing ∧ m.scan.approach = none ∧ m.scan.pageSteps = sc.pageSteps ∧
      (PoolOk c.pool → 1 + ceilDiv (min (c.scanCh.step.1.k + p.steps) p.r) p.steps ≤
          x.reservations.length + min (x.quota - charged c r) c.pool.freeList.length →
        ∃ n, (x.reservations ++ c.pool.freeList).head? = some n ∧
          m.scan.capture = some (if 256 ≤ q.q then .keep n x.linesDone else .drop) ∧
          m.scan.acc = if 256 ≤ q.q then q.q - 256 else q.q) := by
  have hstart : c.scanCh.step.2 = true := by rw [step_start hrun, decide_eq_true hpos]
  have hw := approach_captures (u := { c with scanCh := c.scanCh.step.1, pins := { c.pins with doce := doce }, scan := sc }) hstate hdown
  dsimp only at hw
  obtain ⟨hcapturing, happroach, hsteps⟩ := decided_sheet hu rfl hcause hmoves hstart hw rfl hroute ⟨nofun, nofun⟩
  refine ⟨hcapturing, happroach, hsteps, fun hpool hreach => ?_⟩
  obtain ⟨hpass, -⟩ := capturing_decided (w := { c with
    scanCh := c.scanCh.step.1, pins := { c.pins with doce := doce }, scan := { sc with state := .capturing, approach := none, acc := 0 } }) hpool hu rfl hcause htail hrun hmoves hpos hw rfl hroute rfl (hroutes.trans hr) hx hq
  obtain ⟨-, -, n, hn, hscan⟩ := hpass hreach
  refine ⟨n, hn, ?_, ?_⟩
  · rw [hscan]
    dsimp only
    rw [Nat.zero_add]
  · rw [hscan]
    dsimp only
    rw [Nat.zero_add]

/-- The end of a sheet at the halt of the scan channel (R37). -/
theorem sheet_ends (hr : c.scan.route = some r) (hx : ctxOf c r = some x) (hq : x.scanP = some q) (hstate : c.scan.state = .runout)
    (hm : c.scanCh.motion = .decelerating) (hk : c.scanCh.step.1.k = 0) (hres : x.reservations = []) :
    let m := scanOnward (scanHandled doce c)
    m.scanCh.motion = .halted ∧ m.scanCh.drive = .hold ∧ m.pool = c.pool ∧
      (x.closeReq = false → q.multi = true → c.pins.docp = true →
        m.scan = { c.scan with state := .waiting } ∧ ctxOf m r = some x ∧ m.link = c.link) ∧
      (x.closeReq = true ∨ q.multi = false ∨ c.pins.docp = false →
        m.scan = { c.scan with state := .ended, approach := none, lampUse := false } ∧ ctxOf m r = some { x with closeReq := true } ∧
        (x.closeReq = true ∨ c.pins.docp = true → m.link = c.link) ∧
        (x.closeReq = false → c.pins.docp = false → 256 ≤ freeBytes c →
          m.link.reports = c.link.reports ++ [.event (.feederEmpty r)])) := by
  obtain ⟨v, hend, vscan, vctx, vpool, vlink, vpins, vch⟩ := runout_halts (doce := doce) hr hx hstate hm hk hres
  intro m
  have hnext : nextSheet x v = (q.multi && c.pins.docp) := by
    unfold nextSheet
    rw [hq, vpins]
  have hm : m = _ := hend.trans (endOfSheet_eq (by rw [vscan]; exact hr) vctx)
  have hch : m.scanCh = c.scanCh.step.1.halt := by
    simp only [m]
    rw [hend, endOfSheet_channel, vch]
  rw [hnext] at hm
  obtain ⟨escan, elink⟩ := endScanSource_scan v
  obtain ⟨eroutes, epool, -⟩ := endScanSource_frame v
  refine ⟨by rw [hch]; rfl, by rw [hch]; rfl, ?_, fun hopen hmulti hdoc => ?_, fun hcloses => ?_⟩
  · rw [hm]
    split
    · exact epool.trans vpool
    · split
      · exact vpool
      · rw [(modCtx_frame ..).2.1, (endScanSource_frame _).2.1]
        split
        · exact vpool
        · exact (queueEvent_frame _ v).2.1.trans vpool
  · rw [hm, if_neg (by rw [hopen]; nofun), if_pos (by rw [hmulti, hdoc]; rfl)]
    exact ⟨by dsimp only; rw [vscan], vctx, vlink⟩
  · cases hreq : x.closeReq with
    | true =>
      rw [hreq, if_pos rfl] at hm
      rw [hm]
      refine ⟨by rw [escan, vscan], ?_, fun _ => elink.trans vlink, nofun⟩
      rw [ctxOf_congr eroutes, vctx, ← hreq]
    | false =>
      have hlast : (q.multi && c.pins.docp) = false := by
        rcases hcloses with h | h | h
        · rw [hreq] at h; cases h
        · rw [h]; rfl
        · rw [h, Bool.and_false]
      rw [hreq, if_neg nofun, hlast, if_neg nofun] at hm
      obtain ⟨uctx, uscan, ulink, utold⟩ : ctxOf (if v.pins.docp then v else queueEvent (.feederEmpty r) v) r = some x ∧
          (if v.pins.docp then v else queueEvent (.feederEmpty r) v).scan = c.scan ∧
          (c.pins.docp = true → (if v.pins.docp then v else queueEvent (.feederEmpty r) v).link = c.link) ∧
          (c.pins.docp = false → 256 ≤ freeBytes c → (if v.pins.docp then v else queueEvent (.feederEmpty r) v).link.reports =
            c.link.reports ++ [.event (.feederEmpty r)]) := by
        have hdoc : v.pins.docp = c.pins.docp := by rw [vpins]
        rw [hdoc]
        cases c.pins.docp with
        | true => exact ⟨vctx, vscan, fun _ => vlink, nofun⟩
        | false =>
          exact ⟨(ctxOf_queueEvent _ v r).trans vctx, (queueEvent_lined _ v).frame.2.2.1.trans vscan, nofun,
            fun _ => (queueEvent_link_of vlink _).1⟩
      generalize (if v.pins.docp then v else queueEvent (.feederEmpty r) v) = u at hm uctx uscan ulink utold
      obtain ⟨uend, uendlink⟩ := endScanSource_scan u
      have hlink : m.link = u.link := by rw [hm]; simpa using uendlink
      refine ⟨?_, ?_, fun h => ?_, fun _ hdoc hroom => ?_⟩
      · rw [hm, (modCtx_lined _ _ _).frame.2.2.1, uend, uscan]
      · rw [hm, ctxOf_modCtx_self, ctxOf_congr (endScanSource_frame u).1, uctx]
        rfl
      · rcases h with h | h
        · cases h
        · exact hlink.trans (ulink h)
      · rw [hlink]
        exact utold hdoc hroom

end

/-! ## Steps of the channels -/

/-- Settles O51, by the equation of each step (`scanStep_moving`, `printStep_moving`): what it leaves of its channel (`Stepped`), the decision
of its line start, and the sheet case by case; what follows at once leaves the channel (`settleScan_body`, `settlePrint_body`). -/
theorem stepsMoveOnePhase : Obligations.StepsMoveOnePhase := by
  unfold Obligations.StepsMoveOnePhase
  refine ⟨fun ch doce therm p s => ?_, fun ch p hrun => ?_, ?_, ?_, ?_, ?_, ?_, fun doce therm s => ⟨fun hrest => ?_, fun hrest => ?_⟩,
    fun s => ⟨fun hm hdrive => ?_, fun hm hdrive => ?_⟩⟩
  · intro of other x hmoving
    cases ch with
    | scan =>
      obtain ⟨hstepped, hplan⟩ := scanStep_stepped (c := s.chip) hmoving doce
      obtain ⟨hloaded, -, hphase, -, hprot, hboot, -⟩ := backdrop_parts (scanStep_kept (c := s.chip) hmoving doce).1
      exact ⟨_, exec_motorStep .scan doce therm s, hstepped.phase, hphase, hloaded, hprot, hboot, rfl, hstepped.index,
        fun hp => hstepped.line p hp, hstepped.slows, hplan⟩
    | print =>
      obtain ⟨hstepped, hplan⟩ := printStep_stepped (c := s.chip) hmoving therm
      obtain ⟨hloaded, hphase, -, -, hprot, hboot, -⟩ := backdrop_parts (printStep_kept (c := s.chip) hmoving therm).1
      exact ⟨_, exec_motorStep .print doce therm s, hstepped.phase, hphase, hloaded, hprot, hboot, rfl, hstepped.index,
        fun hp => hstepped.line p hp, hstepped.slows, hplan⟩
  · refine ⟨plan_decelerating, plan_accelerating hrun, plan_running hrun, fun m htail hmoves => ⟨fun hm => ?_, fun hm hlow hfar => ?_, fun hm hnear => ?_⟩⟩
    · exact plan_tail_slows hrun (hmoves.imp id And.left) htail hm
    · rcases hmoves with hup | ⟨-, hk⟩
      · exact plan_tail_rises hrun hup htail hm ⟨hlow, hfar⟩
      · omega
    · rcases hmoves with hup | ⟨hlevel, hk⟩
      · exact plan_tail_levels hrun hup htail hm (by omega)
      · rw [if_pos hk]
        exact plan_tail_runs hrun hlevel htail hm
  · intro r x p q therm s hpool hstate hr hroute hx hq hmax hrun hcause htail hmoves hpos k need reach
    have hu := sheetStep_page (c := { s.chip with scanCh := s.chip.scanCh.step.1, pins := { s.chip.pins with doce := true } })
      (doce := true) hr hx hq (.inr hstate)
    rw [if_neg nofun, if_neg (Nat.not_le.mpr hmax)] at hu
    have hpaged : (paged s.chip.scan).state = .capturing := hstate
    have hw := sheetLineStart_other (u := { s.chip with
      scanCh := s.chip.scanCh.step.1, pins := { s.chip.pins with doce := true }, scan := paged s.chip.scan })
      (fun e => nomatch hpaged.symm.trans e) (fun e => nomatch hpaged.symm.trans e)
    obtain ⟨hpass, hslow, hhalt⟩ := capturing_decided (w := { s.chip with
      scanCh := s.chip.scanCh.step.1, pins := { s.chip.pins with doce := true }, scan := paged s.chip.scan })
      hpool hu rfl hcause htail hrun hmoves hpos hw rfl hroute hpaged hr hx hq
    obtain ⟨hstep, -⟩ := scanStep_route (c := s.chip) ((moving_iff _).mpr (or_assoc.mp (.inl hmoves))) hr true
    have hstart : s.chip.scanCh.step.2 = true := by rw [step_start hrun, decide_eq_true hpos]
    obtain ⟨hcapturing, -⟩ := decided_sheet hu rfl hcause hmoves hstart hw rfl hroute (by dsimp only; rw [hpaged]; exact ⟨nofun, nofun⟩)
    have hat : AtWork (scanOnward (scanHandled true s.chip)).scan.state := by
      rw [hcapturing.trans hpaged]
      exact ⟨nofun, nofun, nofun⟩
    generalize scanOnward (scanHandled true s.chip) = m at hpass hslow hhalt hstep hat
    have hsettle : Attended (· = r) m (settle r m) := settle_attended .rfl rfl
    obtain ⟨-, -, hmotion, -, hline, -⟩ := body_parts hsettle.scanCh
    obtain ⟨-, hsame⟩ := (settle_goes r m).cause hat
    refine ⟨_, exec_of_chip (exec_motorStep .scan true therm s) hstep, fun hle => ?_, fun hlt hk => ?_, fun hlt hk => ?_⟩
    · obtain ⟨hgoes, hnone, n, hn, hscan⟩ := hpass hle
      exact ⟨by rw [← hmotion] at hgoes; exact hgoes, hsame.trans hnone, n, hn, hsettle.capture.trans (by rw [hscan]; rfl)⟩
    · obtain ⟨hdown, hdenied⟩ := hslow hlt hk
      exact ⟨hmotion.trans hdown, hsame.trans hdenied⟩
    · obtain ⟨hhalted, hzero, hscan⟩ := hhalt hlt hk
      exact ⟨hmotion.trans hhalted, hline.trans hzero, hsettle.capture.trans (by rw [hscan]; rfl)⟩
  · intro r x p h doce therm s hr hro hx hrun hcause htail hcopy hburns hmoves hpos k need
    have hd : Deciding r x h p { s.chip with printCh := s.chip.printCh.step.1 } :=
      deciding_step hr hro hx hrun hcause htail hcopy hmoves hpos
    have hstep := printStep_line hrun hcause htail hmoves hpos therm
    rw [dropBurned_going (c := { s.chip with printCh := s.chip.printCh.step.1 }) hcopy hburns] at hstep
    refine ⟨_, exec_of_chip (exec_motorStep .print doce therm s) hstep, fun e rest hqueue => ?_, fun m rest y hqueue hy hk => ?_⟩
    · exact decided_line hd hqueue therm .rfl
    · obtain ⟨htold, hlatch, -⟩ := decided_feeds hd hqueue hy hk therm
      exact ⟨htold, hlatch⟩
  · intro r n refs x e0 rest l p h doce therm s hr hro hx hrun hcause htail hcopy hburns hmoves hpos hqueue hhold hslot k need lines passes
    have hd : Deciding r x h p { s.chip with printCh := s.chip.printCh.step.1 } :=
      deciding_step hr hro hx hrun hcause htail hcopy hmoves hpos
    have hstep := printStep_line hrun hcause htail hmoves hpos therm
    have hch := dropBurned_channel { s.chip with printCh := s.chip.printCh.step.1 }
    obtain ⟨⟨g, hnext⟩, hlatch, hzero, hslots⟩ := deciding_dropped hd hburns hqueue hhold
    generalize dropBurned { s.chip with printCh := s.chip.printCh.step.1 } = d at hstep hnext hlatch hzero hslots hch
    have hk : d.printCh.k = k := congrArg Channel.k hch
    refine ⟨_, exec_of_chip (exec_motorStep .print doce therm s) hstep, fun hsinks => ?_, fun e rest' hrest => ?_,
      fun m rest' y hrest hy hfeed => ?_, fun hrest => ?_, fun hrest => ?_⟩
    · obtain ⟨hsame, hctx⟩ := decided_alone hnext hsinks therm
      exact ⟨(hsame e0.slot).trans (hslots n refs l hslot), fun y hy => by rw [hctx y hy]⟩
    · have hlines : lines = (rest'.takeWhile isLine).length + 1 := by
        simp only [lines, hrest]
        rfl
      have hmarks : (∃ m, Entry.mark m ∈ rest) ↔ ∃ m, Entry.mark m ∈ rest' := by simp [hrest]
      have hpasses : passes ↔ 1 + ceilDiv (min (d.printCh.k + p.steps) p.r) p.steps ≤
          h.copies - d.head.burns + h.copies * (rest'.takeWhile isLine).length ∨ ∃ m, Entry.mark m ∈ rest' := by
        simp only [passes]
        rw [hlines, hmarks, hzero, hk, Nat.sub_zero, Nat.mul_succ, Nat.add_comm h.copies]
      obtain ⟨hpass, hslow, hhalt⟩ := decided_line hnext hrest therm hpasses
      rw [hk, hzero] at hslow hhalt
      rw [hzero] at hpass
      rw [hlatch] at hhalt
      exact ⟨hpass, hslow, hhalt⟩
    · obtain ⟨htold, hkept, hcount⟩ := decided_feeds hnext hrest hy (by rw [hk]; exact hfeed) therm
      exact ⟨htold, hkept.trans hlatch, hcount.trans hzero⟩
    · exact fun hup => (decided_empty hnext hrest therm).1 (by rw [hk]; exact hup)
    · exact fun hnone => (decided_empty hnext hrest therm).2 (by rw [hk]; exact hnone)
  · intro r x m rest doce therm s hr hro hx hqueue hm hmode hk htail
    have hindex : s.chip.printCh.step.1.k = 0 := by
      rw [step_k, nextIndex, hmode, hk]
    have hcut := tailFed_cuts hr hro hx hqueue hm hindex ((step_tail _).trans (by rw [htail]; rfl)) therm
    have hstep := (printStep_moving ((moving_iff _).mpr (.inr (.inr hm))) therm).trans (congrArg settlePrint hcut)
    obtain ⟨-, -, hch⟩ := settlePrint_prints (c := beginCut { s.chip with printCh := { s.chip.printCh.step.1.halt with linePos := 0 } })
      hr hx (by rw [hqueue]; nofun)
    obtain ⟨hpulse, htime⟩ := settlePrint_cut (beginCut { s.chip with printCh := { s.chip.printCh.step.1.halt with linePos := 0 } })
    exact ⟨_, exec_of_chip (exec_motorStep .print doce therm s) hstep, congrArg Channel.motion hch, congrArg Channel.drive hch,
      congrArg Channel.tail hch, congrArg Channel.linePos hch, hpulse, htime⟩
  · intro r x p q doce therm s hmoving hrun hr hx hsource hq sc mid onSheet mark closed
    have hs : x.source ≠ .link := by rw [hsource]; nofun
    have hwithin : mid → s.chip.scanCh.step.2 = false := step_midline hrun
    obtain ⟨hstep, hpins⟩ := scanStep_route (c := s.chip) hmoving hr doce
    refine ⟨scanOnward (scanHandled doce s.chip), exec_of_chip (exec_motorStep .scan doce therm s) hstep, hpins, ?_, ?_, ?_, ?_, ?_, ?_, ?_, ?_, ?_⟩
    · intro hpicking hedge hfar
      subst hedge
      exact pick_meets hr hx hq hpicking (hfar.imp hwithin id)
    · intro hpicking hedge hlimit
      subst hedge
      exact pick_goes hr hx hq hpicking hlimit
    · intro a happroach ha hedge hmax hfar
      subst hedge
      have hdown : (paged s.chip.scan).approach = some (a - 1) := by
        unfold paged
        rw [if_pos happroach, show s.chip.scan.approach = some a from ha]
        rfl
      rw [page_goes hr hx hq (.inl happroach) hmax
        (hfar.imp hwithin fun h => ⟨happroach, by rw [hdown]; exact fun k => absurd (Option.some.inj k) (by omega)⟩)]
      exact paged_approach hdown
    · intro hcapturing hedge hmax hmid
      subst hedge
      rw [page_goes hr hx hq (.inr hcapturing) hmax (.inl (hwithin hmid))]
      exact paged_capturing hcapturing
    · exact fun htail hmid => tail_waits htail (hwithin hmid)
    · intro hsheet hedge hmid
      subst hedge
      obtain ⟨hscan, hctx, hslots⟩ := page_ends hmoving hr hx hs hq hsheet (hwithin hmid)
      refine ⟨hscan, hslots, fun h => ?_, fun hcap hlines hhold hroom => ?_, fun hcap hlines hwait => ?_⟩
      · rw [hctx, edged_capture h]
        rfl
      · rw [hctx, show s.chip.scan.capture = none from hcap, edged_placed hlines,
          placed_room (by exact hhold) ((nextPage_room x).1.trans hroom)]
        rfl
      · rw [hctx, show s.chip.scan.capture = none from hcap, edged_placed hlines,
          placed_wait (hwait.imp id fun h => (nextPage_room x).1.trans h)]
        rfl
    · intro hjam _ hdue hcapture hres
      have hjams : ∃ onPage sc', (sc.state = .picking → onPage = false) ∧ (onSheet → onPage = true) ∧ sc'.capture = sc.capture ∧
          sc'.lampUse = sc.lampUse ∧ sc'.pageEndDue = false ∧
          sheetStep doce { s.chip with scanCh := s.chip.scanCh.step.1, pins := { s.chip.pins with doce := doce } } =
            scanJam r onPage { s.chip with scanCh := s.chip.scanCh.step.1, pins := { s.chip.pins with doce := doce }, scan := sc' } := by
        rcases hjam with ⟨hpicking, rfl, hlimit⟩ | ⟨hsheet, rfl, hmax⟩
        · refine ⟨false, picked sc, fun _ => rfl, fun h => ?_, rfl, rfl, hdue, ?_⟩
          · rcases h with k | k <;> exact nomatch hpicking.symm.trans k
          · refine (sheetStep_picking (c := { s.chip with scanCh := s.chip.scanCh.step.1, pins := { s.chip.pins with doce := false } })
              hr hx hq hpicking).trans ?_
            rw [if_neg nofun]
            exact if_pos hlimit
        · refine ⟨true, paged sc, fun h => ?_, fun _ => rfl, rfl, rfl, hdue, ?_⟩
          · rcases hsheet with k | k <;> exact nomatch h.symm.trans k
          · refine (sheetStep_page (c := { s.chip with scanCh := s.chip.scanCh.step.1, pins := { s.chip.pins with doce := true } })
              hr hx hq hsheet).trans ?_
            rw [if_neg nofun]
            exact if_pos hmax
      obtain ⟨onPage, sc', hpick, hpage, hsame, hlamp, hpending, hu⟩ := hjams
      obtain ⟨hstate, hnone, huse, hfree, hmotion, hcause, hreports, hctx⟩ :=
        step_jams hmoving hr hx hs hu hsame hlamp hpending hcapture hres
      have hlines : onSheet → 0 < x.linesDone → jammedCtx onPage x =
          { placed (.mark (endMark true x)) (nextPage x) with halt := some .jam } := fun hon hsome => by
        rw [hpage hon]
        exact jammedCtx_page hsome
      refine ⟨hstate, hnone, huse, hfree, hmotion, hcause, hreports, _, hctx, rfl, fun h => ?_, fun hon hsome hhold hroom => ?_,
        fun hon hsome hwait => ?_, rfl⟩
      · rw [jammedCtx_idle onPage (h.imp hpick id)]
      · rw [hlines hon hsome, placed_room (by exact hhold) ((nextPage_room x).2.trans hroom)] <;> rfl
      · rw [hlines hon hsome, placed_wait (hwait.imp id fun h => (nextPage_room x).2.trans h)] <;> rfl
    · intro hmoves hcause htail hroute hline k need reach
      have hpos : p.steps ≤ s.chip.scanCh.linePos + 1 := Nat.not_lt.mp hline
      have hstart : s.chip.scanCh.step.2 = true := by rw [step_start hrun, decide_eq_true hpos]
      refine ⟨fun hedge hready => ?_, fun n hstate hrem => ?_, fun hstate hrem hk => ?_⟩
      · subst hedge
        rcases hready with ⟨hpicking, htop⟩ | ⟨happroach, hmax, hnear⟩
        · have hu := sheetStep_picking (c := { s.chip with scanCh := s.chip.scanCh.step.1, pins := { s.chip.pins with doce := true } })
            (doce := true) hr hx hq hpicking
          rw [if_pos rfl] at hu
          rw [if_pos hpicking]
          exact approach_ends hu rfl (congrArg some htop) rfl hr hx hq hcause htail hrun hmoves hpos hroute
        · have hu := sheetStep_page (c := { s.chip with scanCh := s.chip.scanCh.step.1, pins := { s.chip.pins with doce := true } })
            (doce := true) hr hx hq (.inl happroach)
          rw [if_neg nofun, if_neg (Nat.not_le.mpr hmax)] at hu
          rw [if_neg (by rw [show sc.state = .approach from happroach]; nofun)]
          refine approach_ends hu happroach ?_ rfl hr hx hq hcause htail hrun hmoves hpos hroute
          unfold paged
          rw [if_pos happroach]
          rcases hnear with h | h <;> rw [show s.chip.scan.approach = _ from h] <;> rfl
      · exact tail_goes_on hcause htail hrun hmoves hstart hroute hstate hrem
      · exact tail_stops hcause hmoves hstart hstate hrem hk
    · intro hstate hm hmode hk hres
      exact sheet_ends hr hx hq hstate hm (by rw [step_k, nextIndex, hmode, hk]) hres
  · exact exec_without_effect (exec_motorStep .scan doce therm s) (if_neg (by rw [hrest]; nofun))
  · exact exec_without_effect (exec_motorStep .print doce therm s) (if_neg (by rw [hrest]; nofun))
  · refine ⟨_, exec_holdExpiry .scan s, ?_, ?_, (holdChip_kept .rfl .scan).1, ?_, rfl⟩
    · exact holdOver_ends hm hdrive
    · rfl
    · rfl
  · refine ⟨_, exec_holdExpiry .print s, ?_, ?_, (holdChip_kept .rfl .print).1, ?_, rfl⟩
    · exact holdOver_ends hm hdrive
    · rfl
    · rfl

end Sys2Proof.Proofs
end
